-- ==== Sys2Proof/Word.lean ====
section
/-! DEFINITION. The plain types of the model: bytes, 64-bit words, 256-byte rows, and association lists. -/
namespace Sys2Proof

/-- One byte (R5: structures are little-endian, the lowest address holds bits 7:0). -/
abbrev Byte := BitVec 8

/-- A scalar register, a system register or a parameter-stack entry (R71, R83, R88). -/
abbrev Word := BitVec 64

/-- One 256-byte row of a tableau, a lease slot, a ring tile or a data queue (R44, R75, R155). Byte b is bits 8b+7:8b. -/
abbrev Row := BitVec 2048

/-- Data by number: the records of the columns, cores, contexts and so on that differ from their reset record.
A number that is not listed stands for the reset record of its kind. -/
abbrev Assoc (α : Type) := List (Nat × α)

end Sys2Proof
end

