-- ==== Sys2Proof/Config.lean ====
section
/-! DEFINITION. What an implementation fixes and the manual leaves open. The opaque constants are free values: nothing in
Lean can evaluate one, so a statement that mentions one holds for every value of it. The assumption log names each. -/
namespace Sys2Proof.Config

/-- Log 2. Which line of a full L1 set is evicted (R104: the replacement order is not architectural), by a plain counter. -/
opaque l1Victim : Nat → Nat

/-- Log 2. Which entry of a full instruction buffer, TLB or L2 slice gives way, by a plain counter. -/
opaque victim : Nat → Nat

/-- Log 3. The 512-bit AES-256-XTS key that the dealer loads (R123, R124), by key number: slot + 128 × the number of fresh keys
the slot has had before it. -/
opaque slotKey : Nat → BitVec 512

/-- Log 18. Whether a peer package has granted a column of it to a partition (R19): partition and column number. -/
opaque peerGranted : Nat → Nat → Bool

/-- Log 4. Does a step of the boot sequence succeed (Table 15-5)? -/
opaque bootStep : Nat → Bool

/-- Log 4. The bytes of the configuration record and of the dealer's firmware (R2, R409). -/
opaque recordBytes : List Byte
opaque firmwareBytes : List Byte

/-- Log 4. Byte i of the part's serial number (R409). -/
opaque serialByte : Nat → Byte

/-- Log 4. How the spare map and the list of fenced columns stand in bytes (R409): the position that is marked in each grid row, and the
fenced columns. -/
opaque mapBytes : List (Nat × Nat) → List Nat → List Byte

/-- Log 4. The private attestation key that the dealer derives from the fused secret and the measurements of boot (R408), and the
secret number of each signature, by a plain counter. -/
opaque attestSecret : List Byte → List Byte → Nat
opaque signSecret : Nat → Nat

/-- Log 5. A 64-bit value the manual leaves open, by a plain counter. -/
opaque freeWord : Nat → Word

/-- Log 5. The N and TAG bits of the descriptor of a barrier that a record waited for (R367), by its wait condition. -/
opaque descRest : Nat → Word

/-- Log 11. Which of the two parts the configuration record names (R3): KG4M-384 rather than KG4P-384. -/
opaque isKg4m : Bool

/-- Log 6. A choice of the dealer among the alternatives 0 to n − 1 that the manual allows, by a plain counter. -/
opaque choose : Nat → Nat → Nat

end Sys2Proof.Config
end

