-- ==== Sys2Proof/Machine/Bits.lean ====
section
/-! DEFINITION. Data by number, memory in canonical form, and the byte-order and bit-field helpers that every part of the
machine uses (R5: little-endian throughout). -/
namespace Sys2Proof

/-- The record of number `n`, or the reset record `d` of its kind. -/
def assocGet {α : Type} (d : α) : Assoc α → Nat → α
  | [], _ => d
  | (k, v) :: l, n => if n = k then v else assocGet d l n

/-- Replaces the record of number `n`. -/
def assocSet {α : Type} : Assoc α → Nat → α → Assoc α
  | [], n, v => [(n, v)]
  | (k, w) :: l, n, v => if n = k then (k, v) :: l else (k, w) :: assocSet l n v

/-- Bytes by address. An address that is not listed reads as zero: see log 1. -/
abbrev Memory := List Host.Cell

namespace Memory

/-- What an unlisted address reads as (R11: the dealer zeroes memory before it grants it). -/
def blank : Byte := 0

/-- One byte. -/
def get (m : Memory) (a : Nat) : Byte := assocGet blank m a

/-- Places a byte in address order. -/
def insert : Memory → Nat → Byte → Memory
  | [], a, v => [(a, v)]
  | c :: l, a, v => if a < c.1 then (a, v) :: c :: l else c :: insert l a v

/-- Writes one byte, keeping the canonical form: a byte equal to the blank is not listed. -/
def put (m : Memory) (a : Nat) (v : Byte) : Memory :=
  let m' := m.filter fun c => c.1 != a
  if v = blank then m' else insert m' a v

/-- Strictly rising addresses. -/
def rising : Memory → Bool
  | [] => true
  | [_] => true
  | c :: d :: l => decide (c.1 < d.1) && rising (d :: l)

/-- The canonical form: addresses strictly rising and no listed byte equal to the blank. -/
def wf (m : Memory) : Bool := rising m && m.all fun c => c.2 != blank

/-- `n` bytes from `a` upward. -/
def bytes (m : Memory) (a : Nat) : Nat → List Byte
  | 0 => []
  | n + 1 => m.get a :: bytes m (a + 1) n

/-- Writes bytes from `a` upward. -/
def putBytes (m : Memory) (a : Nat) : List Byte → Memory
  | [] => m
  | b :: bs => putBytes (m.put a b) (a + 1) bs

end Memory

/-- The number that a list of bytes holds, lowest byte first (R5). -/
def natOfBytes : List Byte → Nat
  | [] => 0
  | b :: bs => b.toNat + 256 * natOfBytes bs

/-- The lowest `n` bytes of a number, lowest first (R5). -/
def bytesOfNat : Nat → Nat → List Byte
  | 0, _ => []
  | n + 1, v => BitVec.ofNat 8 v :: bytesOfNat n (v / 256)

/-- A little-endian field of `n` bytes. -/
def Memory.nat (m : Memory) (a n : Nat) : Nat := natOfBytes (m.bytes a n)

/-- Writes a little-endian field of `n` bytes. -/
def Memory.putNat (m : Memory) (a n v : Nat) : Memory := m.putBytes a (bytesOfNat n v)

/-- Bits hi:lo of a number. -/
def bitsOf (v hi lo : Nat) : Nat := v / 2 ^ lo % 2 ^ (hi + 1 - lo)

/-- Bits hi:lo of a number replaced. -/
def setBitsOf (v hi lo x : Nat) : Nat :=
  v - bitsOf v hi lo * 2 ^ lo + (x % 2 ^ (hi + 1 - lo)) * 2 ^ lo

/-- Is the bit set? -/
def bitOf (v i : Nat) : Bool := v.testBit i

/-- Sign extension of an n-bit field to a word. -/
def sextWord {n : Nat} (x : BitVec n) : Word := x.signExtend 64

/-- The low `n` bytes of a word, sign-extended. -/
def sextBytes (v n : Nat) : Word := (BitVec.ofNat (8 * n) v).signExtend 64

/-- The bytes of a bit vector, lowest first. -/
def bytesOfBV {n : Nat} (k : Nat) (v : BitVec n) : List Byte := bytesOfNat k v.toNat

/-- Byte `b` of a bit vector. -/
def byteAt {n : Nat} (v : BitVec n) (b : Nat) : Byte := v.extractLsb' (8 * b) 8

/-- A bit vector with field lo … lo + k − 1 replaced. -/
def setField {n k : Nat} (v : BitVec n) (lo : Nat) (x : BitVec k) : BitVec n :=
  (v &&& ~~~((BitVec.allOnes k).setWidth n <<< lo)) ||| (x.setWidth n <<< lo)

/-- The list with element `i` replaced. -/
def listSet {α : Type} (l : List α) (i : Nat) (v : α) : List α := l.set i v

/-- Ceiling of a quotient. -/
def ceilDiv (a b : Nat) : Nat := (a + b - 1) / b

/-- Ceiling of the base-2 logarithm. -/
def ceilLog2 (n : Nat) : Nat := if n ≤ 1 then 0 else Nat.log2 (n - 1) + 1

end Sys2Proof
end

