-- ==== Sys2Proof/Syntax.lean ====
section
/-! DEFINITION. The operations and events of the package: one constructor for each row of the opcode table. Syllables
(R230 to R233) act on the context that issues them, engine words (R234, R235) on the stream that fetches them, and the
events name what they happen to. -/
namespace Sys2Proof

/-- A scalar register number, g0 to g31 (R71). -/
abbrev Reg := Fin 32

/-- Element formats (R44, Table 2-1). -/
inductive Fmt where
  | f32 | bf16 | f8a | f8b | f4b | i8 | i8u | i32 | i32u
  deriving DecidableEq, Repr

/-- Ordering scopes (R128, R230). -/
inductive Scope where
  | ctx | core | clu | stk | pkg | dom | sys
  deriving DecidableEq, Repr

/-- Access width of atomics, VPUT and VGET: four or eight bytes (R230). -/
inductive Width where
  | w | d
  deriving DecidableEq, Repr

/-- Tableau operand codes (R229, Table 9-6). -/
inductive VOp where
  | row (i : Fin 64)
  | col (c : Fin 64)
  | dg (d : Fin 64)
  | qin (q : Fin 4)
  | qout (q : Fin 4)
  | alo | ahi | vzero | vones | vdisc
  deriving DecidableEq, Repr

/-- Access kinds of the translation walk (R117). -/
inductive AccessKind where
  | load | store | fetch
  deriving DecidableEq, Repr

/-- Where the dealer takes a command block from: the host's mailbox, with the block's host address, or the command
ring of a partition (R402, R403). -/
inductive CmdSource where
  | host (addr : Word)
  | ring (part : Nat)
  deriving DecidableEq, Repr

/-- A zone's coolant allocation as the dealer sets it: SHARE and FLOOR, in eighths of a litre a minute (R390). -/
structure CoolShare where
  share : Byte
  floor : Byte
  deriving DecidableEq, Repr

/-- What a dealer's write names: a power or heat register by its special register number (Table 3-10), or the threshold of a
column's corrected-error counter, which has none (R214). -/
inductive DealerReg where
  | special (num : BitVec 15)
  | beatThreshold (col : Nat)
  deriving DecidableEq, Repr

/-- What a far access asks for (R103, R128, R133): a load, a store, or an atomic (R257, R258); CAS carries the expected value. -/
inductive FarOp where
  | load
  | store
  | add | min | max | minu | maxu | and | or | xor | swap
  | cas (expect : Word)
  deriving DecidableEq, Repr

/-- What an uncorrectable error strikes (R379). -/
inductive ErrorSite where
  | command (c k n : Nat)
  | load (c : Nat)
  | dirty (clu : Nat)
  deriving DecidableEq, Repr

/-- A collective that arrives from another package (R204, R358). -/
inductive PeerArrival where
  | barrier (desc : Word)
  | reduce (part : Nat) (tag op : Word) (data : List Byte)
  deriving DecidableEq, Repr

/-- The instruction set: control, integer and vector syllables, engine words, and the events of the opcode table. -/
inductive Instr where
  -- control syllable (Table 9-7)
  | nop
  | brEqz (a : Reg) (off : BitVec 15)
  | brNez (a : Reg) (off : BitVec 15)
  | brLtz (a : Reg) (off : BitVec 15)
  | brGez (a : Reg) (off : BitVec 15)
  | jmp (off : BitVec 20)
  | call (off : BitVec 20)
  | jmpi (a : Reg)
  | calli (a : Reg)
  | spawn (d a b : Reg)
  | suspend (a : Reg) (imm : BitVec 10)
  | halt
  | fork (set : BitVec 15)
  | rdv
  | launch (d a : Reg)
  | cancelUnit (a : Reg)
  | cancelLaunch (a : Reg)
  | cancelGraph (a : Reg)
  | cancelPhase (a : Reg)
  | cancelJob (a : Reg)
  | cntAdd (d a b : Reg)
  | cntWait (a b : Reg)
  | ldB (d a : Reg) (imm : BitVec 10)
  | ldH (d a : Reg) (imm : BitVec 10)
  | ldW (d a : Reg) (imm : BitVec 10)
  | ldD (d a : Reg) (imm : BitVec 10)
  | ldBz (d a : Reg) (imm : BitVec 10)
  | ldHz (d a : Reg) (imm : BitVec 10)
  | ldWz (d a : Reg) (imm : BitVec 10)
  | stB (d a : Reg) (imm : BitVec 10)
  | stH (d a : Reg) (imm : BitVec 10)
  | stW (d a : Reg) (imm : BitVec 10)
  | stD (d a : Reg) (imm : BitVec 10)
  | ldcW (d a : Reg) (imm : BitVec 10)
  | ldcD (d a : Reg) (imm : BitVec 10)
  | ldAcqW (d a : Reg) (sc : Scope)
  | ldAcqD (d a : Reg) (sc : Scope)
  | stRelW (d a : Reg) (sc : Scope)
  | stRelD (d a : Reg) (sc : Scope)
  | qsync (sc : Scope)
  | fence (sc : Scope)
  | ifence
  | discard (a : Reg) (sc : Scope)
  | flush (a : Reg) (sc : Scope)
  | pref (a : Reg) (imm : BitVec 10)
  | amoAdd (z : Width) (sc : Scope) (d a b : Reg)
  | amoMin (z : Width) (sc : Scope) (d a b : Reg)
  | amoMax (z : Width) (sc : Scope) (d a b : Reg)
  | amoMinu (z : Width) (sc : Scope) (d a b : Reg)
  | amoMaxu (z : Width) (sc : Scope) (d a b : Reg)
  | amoAnd (z : Width) (sc : Scope) (d a b : Reg)
  | amoOr (z : Width) (sc : Scope) (d a b : Reg)
  | amoXor (z : Width) (sc : Scope) (d a b : Reg)
  | amoSwap (z : Width) (sc : Scope) (d a b : Reg)
  | cas (z : Width) (sc : Scope) (d a b : Reg)
  | barArr (d a : Reg)
  | barWait (a b : Reg)
  | barSync (a : Reg)
  | flagSet (a : Reg)
  | flagClr (a : Reg)
  | flagWait (a : Reg)
  | send (a b : Reg)
  | recv (d a : Reg)
  | recvPoll (d a : Reg)
  | runBegin (d a : Reg) (imm : BitVec 10)
  | acceptEq (a : Reg)
  | acceptTol (a b : Reg)
  | runCommit (d a : Reg)
  | runAbort (a : Reg)
  | vsend (a b : Reg)
  | vfence
  | vstat (d : Reg)
  | vput (z : Width) (d a : Reg) (row : Fin 64)
  | vget (z : Width) (d a : Reg) (row : Fin 64)
  | trap (code : BitVec 15)
  | eret
  | mfs (d : Reg) (num : BitVec 15)
  | mts (num : BitVec 15) (d : Reg)
  | brk (code : BitVec 15)
  | wait (a : Reg)
  | flowReq (a b : Reg)
  -- integer syllable (Table 9-8)
  | add (d a b : Reg)
  | sub (d a b : Reg)
  | mul (d a b : Reg)
  | mulh (d a b : Reg)
  | mulhu (d a b : Reg)
  | div (d a b : Reg)
  | divu (d a b : Reg)
  | rem (d a b : Reg)
  | remu (d a b : Reg)
  | and (d a b : Reg)
  | or (d a b : Reg)
  | xor (d a b : Reg)
  | andn (d a b : Reg)
  | orn (d a b : Reg)
  | shl (d a b : Reg)
  | shr (d a b : Reg)
  | sar (d a b : Reg)
  | rotl (d a b : Reg)
  | clz (d a : Reg)
  | ctz (d a : Reg)
  | popc (d a : Reg)
  | min (d a b : Reg)
  | max (d a b : Reg)
  | minu (d a b : Reg)
  | maxu (d a b : Reg)
  | sel (d a b c : Reg)
  | cmpEq (d a b : Reg)
  | cmpNe (d a b : Reg)
  | cmpLt (d a b : Reg)
  | cmpLtu (d a b : Reg)
  | cmpLe (d a b : Reg)
  | cmpLeu (d a b : Reg)
  | bext (d a b : Reg)
  | bins (d a b : Reg)
  | sext (d a : Reg) (n : BitVec 7)
  | zext (d a : Reg) (n : BitVec 7)
  | lea (d a b : Reg) (sh : BitVec 3)
  | mov (d a : Reg)
  | addi (d a : Reg) (imm : BitVec 14)
  | andi (d a : Reg) (imm : BitVec 14)
  | ori (d a : Reg) (imm : BitVec 14)
  | xori (d a : Reg) (imm : BitVec 14)
  | shli (d a : Reg) (n : BitVec 6)
  | shri (d a : Reg) (n : BitVec 6)
  | sari (d a : Reg) (n : BitVec 6)
  | cmpiEq (d a : Reg) (imm : BitVec 14)
  | cmpiLt (d a : Reg) (imm : BitVec 14)
  | cmpiLtu (d a : Reg) (imm : BitVec 14)
  | limm (imm : BitVec 24)
  -- vector arithmetic syllable (Table 9-9)
  | vadd (f : Fmt) (d x y : VOp)
  | vsub (f : Fmt) (d x y : VOp)
  | vmul (f : Fmt) (d x y : VOp)
  | vfma (f : Fmt) (d x y : VOp)
  | vfms (f : Fmt) (d x y : VOp)
  | vmax (f : Fmt) (d x y : VOp)
  | vmin (f : Fmt) (d x y : VOp)
  | vcmpEq (f : Fmt) (m : Fin 4) (x y : VOp)
  | vcmpLt (f : Fmt) (m : Fin 4) (x y : VOp)
  | vcmpLe (f : Fmt) (m : Fin 4) (x y : VOp)
  | vadds (f : Fmt) (d x y : VOp)
  | vand (f : Fmt) (d x y : VOp)
  | vor (f : Fmt) (d x y : VOp)
  | vxor (f : Fmt) (d x y : VOp)
  | vshl (f : Fmt) (d x y : VOp)
  | vshr (f : Fmt) (d x y : VOp)
  | vrotF32 (d x y : VOp)
  | vrotBf16 (d x y : VOp)
  | vrcpstep (d x y : VOp)
  | vrsqstep (d x y : VOp)
  | vcvt (f : Fmt) (d x : VOp) (src : Fmt)
  | vcvtSat (f : Fmt) (d x : VOp) (src : Fmt)
  | vmov (f : Fmt) (d x : VOp)
  | vabs (f : Fmt) (d x : VOp)
  | vneg (f : Fmt) (d x : VOp)
  | vclamp (f : Fmt) (d x : VOp)
  | vscale (f : Fmt) (d x : VOp)
  | vexp2 (d x : VOp)
  | vlog2 (d x : VOp)
  | vrcpA (d x : VOp)
  | vrsqA (d x : VOp)
  -- vector permute syllable (Table 9-10)
  | vmask (m : Fin 4)
  | vshuf (f : Fmt) (d x y : VOp)
  | vsel (f : Fmt) (d x y : VOp)
  | vredSum (f : Fmt) (d x : VOp)
  | vredMax (f : Fmt) (d x : VOp)
  | vredMin (f : Fmt) (d x : VOp)
  | vscanSum (f : Fmt) (d x : VOp)
  | vtopk (d x : VOp)
  | vargmax (f : Fmt) (d x : VOp)
  | vfind (f : Fmt) (d x y : VOp)
  | vidx (f : Fmt) (d : VOp)
  | vbcast (f : Fmt) (d x : VOp)
  | vpack (f : Fmt) (d x y : VOp)
  | vunpack (f : Fmt) (d x : VOp)
  | vrandLatch (f : Fmt) (d : VOp)
  | vrandRequest (f : Fmt) (d : VOp)
  -- engine words with a field (Tables 9-12 to 9-14)
  | lit (i : BitVec 15)
  | ext (i : BitVec 12)
  | sig (f : BitVec 6)
  | waitt (f : BitVec 6)
  | loop (d : BitVec 8)
  | wload (t : Bool)
  | mma (z : Bool)
  | xout (h : Bool)
  | aqEmit (q : Fin 4)
  | aqDrain (m : Fin 4)
  -- events
  | stallCountExpiry (c : Nat)
  | scoreboardWrite (c n : Nat)
  | vectorUnitIdle (c : Nat)
  | trapEntry (c : Nat) (cause : Byte) (syl : Fin 4) (val : Word)
  | pickUp (c : Nat)
  | waitConditionSatisfied (n : Nat)
  | blockingInstructionRetire (c : Nat)
  | messageDelivery (clu n : Nat)
  | spillListMove (clu : Nat)
  | launchCompletion (l : Nat)
  | copyNode (part graph node : Nat)
  | jobCompletion (part ctr : Nat)
  | dealerBind (l : Nat)
  | slotDrainZero (c : Nat)
  | preemption (c : Nat)
  | preemptionAbandon (c : Nat)
  | parkedLeaseEnd (part rect : Nat)
  | cancelBoundaryReached (c : Nat)
  | cancelRemovalTimeout (c : Nat)
  | engineCommandStart (c k : Nat)
  | engineCommandCommit (c k n : Nat)
  | leaseGrant (part rect : Nat)
  | attentionStallResume (c n : Nat)
  | repairAnswerTake (c n : Nat)
  | frontierAdvance (c n : Nat)
  | reduceCollectiveComplete (part tag : Nat)
  | pageWalk (clu : Nat)
  | shootdownRequest (part : Nat)
  | shootdownComplete (part : Nat)
  | requestActivate (slot : Nat)
  | requestRetire (slot : Nat)
  | requestSlotFree (slot : Nat)
  | publishGroupEnable (g : Nat)
  | publishGroupDisable (g : Nat)
  | deviceTableStore (va : Word) (size : Nat) (val : Word)
  | timebaseTick
  | exposedLatencyElapsed (c : Nat)
  | storePerformed (c : Nat)
  | sensorSample (col : Nat) (reading : BitVec 16) (ok : Bool)
  | hotColumnCadenceRaise (col : Nat)
  | currentAlarm (clu : Nat)
  | currentAlarmCleared (clu : Nat)
  | cadenceStepDown (col : Nat)
  | packagePowerOverLimit (clu : Nat)
  | railSwitch (clu : Nat) (low : Bool)
  | railSwitchComplete (clu : Nat)
  | phaseCtlWrite (stk : Nat) (val : Word)
  | phaseBoundary (clu : Nat)
  | valveWrite (z : Nat) (share : CoolShare)
  | valveReportMismatch (z : Nat) (pos : BitVec 4)
  | flowRequestAnswer (z : Nat) (give : Byte)
  | dealerRegisterWrite (reg : DealerReg) (val : Word)
  | evacuationStart (z : Nat)
  | evacuationCommitTimeout (z : Nat)
  | evacuationDry (z : Nat)
  | evacuationFailed (z : Nat)
  | refillStart (z : Nat) (share floor : Byte)
  | refillComplete (z : Nat)
  | refillFail (z : Nat)
  | correctedBeat (col : Nat)
  | busTest (col : Nat) (failing : List Nat)
  | busTestDeadline (col : Nat)
  | uncorrectableError (site : ErrorSite) (col : Nat) (addr : Word)
  | columnFence (col : Nat)
  | coreFence (core : Nat)
  | coreReturnToService (core : Nat)
  | linkDown (edge : Nat)
  | hostSnoop (pa : Word) (excl : Bool)
  | hostHdmAccess (pa : Word) (size : Nat) (store : Bool) (val : Word)
  | packageReset
  | mailboxGoLost
  | partOpen (src : CmdSource)
  | partClose (src : CmdSource)
  | jobSubmit (src : CmdSource)
  | jobEnd (src : CmdSource)
  | rangeSet (src : CmdSource)
  | keyAdd (src : CmdSource)
  | homecopy (src : CmdSource)
  | monAssign (src : CmdSource)
  | monRead (src : CmdSource)
  | stats (src : CmdSource)
  | attest (src : CmdSource)
  | powerLimit (src : CmdSource)
  | supplyOutOfLimits
  | supplyReturn
  | peerFarRequest (op : FarOp) (pa : Word) (size : Nat) (key : Fin 128) (val : Word)
  | peerCollectiveArrival (a : PeerArrival)
  | mailboxStatClear (val : Word)
  -- engine words without a field (Tables 9-12 to 9-14)
  | engineNop
  | dup
  | drop
  | swap
  | over
  | engineAdd
  | endW
  | lease
  | unlease
  | wswap
  | aclr
  | ackpt
  | acload
  | kvapp
  | qk
  | sv
  | splice
  | repair
  | draw
  | get
  | put
  | getr
  | putr
  | fill
  | gather
  | scatter
  | publish
  | xfer
  | reduce
  | aqBase
  | aqDim
  | aqWait
  deriving DecidableEq, Repr

end Sys2Proof
end

