-- ==== Sys2Proof/Machine/State.lean ====
section
/-! DEFINITION. The state of the package, as plain data, and its value at reset. Records of numbered things are held by
number; a number that is not listed stands for the reset record of its kind. -/
namespace Sys2Proof.Machine

/-- Why a step stops with a fault. -/
inductive Fault where
  /-- Raised by no meaning: the manual describes every effect as a trap, an engine fault or an event. Safe. -/
  | none
  deriving DecidableEq, Repr

/-- Why an instruction has no meaning. -/
inductive Refusal where
  /-- Raised by an arm of `exec` for an instruction that has no meaning yet. Safe. -/
  | notModelled (mnemonic : String)
  deriving DecidableEq, Repr

/-- A trap to be taken (R363): cause code of Table 7-14, TRAP.VAL, syllable, the fields of an engine fault, and whether the
bundle retires before it is taken (R364). -/
structure Trap where
  code : Byte
  val : Word
  syl : BitVec 2 := 0
  eng : Bool := false
  stream : BitVec 3 := 0
  sub : Byte := 0
  retired : Bool := false
  deriving DecidableEq, Repr

/-- How the instruction that ran last ended: it issued; it waits and has changed nothing; it waits so until a cycle of its context (R244);
it holds its context (R261); it trapped; or its context was removed or its unit ended. -/
inductive Mark where
  | ok
  | stall
  | stallTo (cycle : Nat)
  | hold
  | trap (t : Trap)
  | gone
  deriving DecidableEq, Repr

/-- One row of an accumulator slot: 256 bytes, format tag and valid bit (R24, R75). -/
structure SlotRow where
  data : Row := 0
  tag : BitVec 4 := 0
  valid : Bool := false
  deriving DecidableEq, Repr

/-- A write of some bits of a slot row (R78). -/
structure RowWrite where
  row : Nat
  data : Row
  mask : Row
  tag : BitVec 4
  deriving DecidableEq, Repr

/-- What a producer writes when its latency has elapsed (R74, R243). -/
inductive Effect where
  | g (r : Reg) (v : Word)
  | mask (k : Fin 4) (v : BitVec 256)
  | rows (ws : List RowWrite)
  | nothing
  deriving DecidableEq, Repr

/-- A write that has issued and not yet taken effect. `due` is the cycle in which it takes effect, none for a scoreboarded
producer (R73). `vec` marks an operation of the vector unit (R82), `div` one of the divider (R244), `load` a load, whose
latency monitors sample (R211), `lq` that it holds an entry of the load queue (R126), `tries` the replays of one (R379). -/
structure PendWrite where
  eff : Effect
  issued : Nat
  due : Option Nat
  vec : Bool := false
  div : Bool := false
  load : Bool := false
  lq : Bool := false
  tries : Nat := 0
  deriving DecidableEq, Repr

/-- What a store-queue entry does (R126). -/
inductive SqKind where
  | store
  | release (sc : Scope)
  | flush (sc : Scope)
  | discard (sc : Scope)
  deriving DecidableEq, Repr

/-- An entry of the store queue (R126): `pa` is the address reached after translation and steering. -/
structure SqEntry where
  kind : SqKind
  pa : Nat
  size : Nat
  val : Word
  uncached : Bool
  key : Nat
  deriving DecidableEq, Repr

/-- A scratchpad store that has issued and is performed four cycles later (R108). -/
structure SpStore where
  off : Nat
  size : Nat
  val : Word
  issued : Nat
  deriving DecidableEq, Repr

/-- An entry of a data queue (R155). -/
structure QEntry where
  tag : BitVec 4
  data : Row
  deriving DecidableEq, Repr

/-- A message (R275): header and payload flits, with the sender's partition for R274. -/
structure Packet where
  hdr : Word
  payload : List Byte
  part : Nat
  dstStop : Nat
  dstCtx : Nat
  deriving DecidableEq, Repr

/-- A packet on the cluster ring, clockwise (R162, R163): the sender's stop, and for each of its flits, header first, how many hops it
has come. A flit that has come none waits at the sender for its injection. `entered` orders the packets of a channel: the later a header
came to its stop, the greater. -/
structure Flight where
  pkt : Packet
  src : Nat
  hops : List Nat
  entered : Nat := 0
  deriving DecidableEq, Repr

/-- A key-value page entry as read (Table 7-9). -/
structure KvEntry where
  valid : Bool := false
  posbase : Nat := 0
  prov : Nat := 0
  frontier : Nat := 0
  stale : Bool := false
  spl : Bool := false
  tent : Bool := false
  col : Nat := 0
  page : Nat := 0
  run : Nat := 0
  iter : Nat := 0
  count : Nat := 0
  first : Nat := 0
  reserved : Bool := false
  deriving DecidableEq, Repr

/-- The position of a REPAIR (R354): stage, layer, block, token, whether a descriptor is out and unanswered, the greatest
progress of stale blocks, and whether a restart descriptor is due. -/
structure RepairPos where
  stage : Nat := 1
  layer : Nat := 0
  block : Nat := 0
  token : Nat := 0
  asked : Bool := false
  restart : Bool := false
  progress : List (Nat × Nat) := []
  deriving DecidableEq, Repr

/-- A launch word with its operands in an engine's command queue or in execution (R153, R326). `ents` and `lists` are the table
entries read at the start (R145), `ahead` and `tab` the bytes of a source line, and of a line of a table of addresses, that one read has
taken and not yet used (R127), `sent` the beats of the transfer in progress that have entered a crossing FIFO (R159), `taken` the columns that have taken the activation row
or the beats in progress (R387), `tries` counts replays after uncorrectable errors
(R379), and `last` marks the command that brought LEFT of the lease to 0 (R175). -/
structure Cmd where
  word : Instr
  off : Nat
  ops : List Word
  prog : Nat := 0
  caps : List Word := []
  ents : List KvEntry := []
  lists : List (List KvEntry) := []
  repair : RepairPos := {}
  ahead : List Byte := []
  tab : List Byte := []
  sent : Nat := 0
  taken : List Nat := []
  groups : List (Nat × Bool) := []
  ready : Bool := false
  since : Nat := 0
  tries : Nat := 0
  last : Bool := false
  deriving DecidableEq, Repr

/-- A fault of a stream held for delivery (R368). -/
structure HeldFault where
  code : Byte
  sub : Byte
  off : Nat
  deriving DecidableEq, Repr

/-- One level of an address nest (R359). -/
structure NestLevel where
  count : Nat := 1
  stride : Word := 0
  idx : Nat := 0
  deriving DecidableEq, Repr

/-- The address nest of an access stream (R359). -/
structure Nest where
  base : Word := 0
  fmt : BitVec 4 := 0
  l0 : NestLevel := {}
  l1 : NestLevel := {}
  l2 : NestLevel := {}
  l3 : NestLevel := {}
  deriving DecidableEq, Repr

/-- One of the six engine streams of a context (R83, R153, R325). Offsets count words from the start of the section. `stopped`
notes that it has stopped on a fault since its FORK, delivered or not (R157). -/
structure Stream where
  forked : Bool := false
  ended : Bool := false
  stopped : Bool := false
  base : Nat := 0
  len : Nat := 0
  pos : Nat := 0
  fetchAt : Nat := 0
  fetch : List (BitVec 16) := []
  stack : List Word := []
  queue : List Cmd := []
  started : List Cmd := []
  fault : Option HeldFault := none
  nest : Nest := {}
  deriving DecidableEq, Repr

/-- The lease of a context's matrix stream (R331 to R334): none; held with the commands left and the limit captured at
grant; requested, with the timebase at which the wait began; or lost with a column (R332). -/
inductive Lease where
  | none
  | held (rect left limit : Nat)
  | requested (rect since : Nat)
  | lost (rect : Nat)
  deriving DecidableEq, Repr

/-- The unit running on a context: its record's virtual address, partition, image header and priority, and for an iteration
its run and index (R29, R278). `block` marks a unit resumed from a pre-emption block (R378), and `age` is that of the ready-queue
entry from which it was taken (R430). -/
structure Running where
  recVa : Nat
  part : Nat
  image : Nat
  pri : Nat
  run : Nat
  iter : Nat
  level : Bool
  block : Bool := false
  age : Nat := 0
  deriving DecidableEq, Repr

/-- What occupies the control stream instead of the unit's own code: a save sequence ahead of a write-back with the given
wait and yield index, or a restore sequence ahead of the resume pc (R34, R195). -/
inductive Sequence where
  | none
  | save (wait : Word) (yield : Nat) (resume : Word)
  | restore (resume : Word)
  deriving DecidableEq, Repr

/-- Where a load has read: address at its home, bytes, key slot, whether it sign-extends, and which of its bytes the home itself gave. -/
structure LoadSrc where
  pa : Nat := 0
  size : Nat := 0
  key : Nat := 0
  signed : Bool := false
  home : BitVec 8 := 0
  deriving DecidableEq, Repr

/-- A hardware context: the control stream and its six engine streams. `barOn` is the barrier owner (package × 512 + core) that
a held BAR instruction or SUSPEND waits for, `barLost` that it is lost (R206, R407); `asked` is the rectangle that a held SUSPEND
has asked for (R434); `cntOn` is the counter and target that a held CNT.WAIT or SUSPEND waits for, and whether an event of the
counter has satisfied it (R201); `losing` says that the held lease ends, with a lost column, once no command that needs it runs (R21);
`loadAt` gives, by register, where its last load from memory that missed the L1 read (R379). `abortOnly` says that a RUN.ABORT alone, and no
CANCEL, has marked its unit to stop (R283). -/
structure Ctx where
  pc : Word := 0
  cycle : Nat := 0
  g : Vector Word 32 := Vector.replicate 32 0
  valid : BitVec 32 := 0
  wq : List PendWrite := []
  k : Vector (BitVec 256) 4 := Vector.replicate 4 (BitVec.allOnes 256)
  sel : Fin 4 := 0
  alo : Word := 0
  ahi : Word := 0
  flags : Vector Byte 64 := Vector.replicate 64 0
  forkSet : Nat := 0
  streams : Vector Stream 6 := Vector.replicate 6 {}
  lease : Lease := .none
  losing : Bool := false
  qin : Vector (List QEntry) 4 := Vector.replicate 4 []
  qout : Vector (List QEntry) 4 := Vector.replicate 4 []
  hist : Vector (BitVec 32) 32 := Vector.replicate 32 0
  ctl : Word := 0
  pinned : Bool := false
  intrap : Bool := false
  spec : Bool := false
  priv : Bool := false
  launch : BitVec 32 := 0
  tabBase : Nat := 0
  tabCount : Nat := 0
  trapCause : Word := 0
  trapPc : Word := 0
  trapVal : Word := 0
  trapVec : Word := 0
  trapScr : Word := 0
  vecPart : Option Nat := none
  watchAddr : Word := 0
  watchCtl : Word := 0
  running : Option Running := none
  seq : Sequence := .none
  barPhase : Option (BitVec 32) := none
  barOn : Option Nat := none
  barLost : Bool := false
  asked : Option Nat := none
  cntOn : Option (Nat × Nat × Bool) := none
  msgq : List Packet := []
  sq : List SqEntry := []
  sps : List SpStore := []
  loadAt : Assoc LoadSrc := []
  latches : List (Nat × Bool) := []
  preempt : Option Nat := none
  cancel : Option Nat := none
  abortOnly : Bool := false
  stall : Nat := 0
  deriving DecidableEq, Repr

/-- A scratchpad ring's registers (R85, Table 3-9). -/
structure Ring where
  base : Word := 0
  shape : Word := 0
  ptr : Word := 0
  deriving DecidableEq, Repr

/-- A line of the L1 (R109): byte masks of what is valid and what is dirty, and the partition that filled it (R216). -/
structure L1Line where
  line : Nat
  valid : BitVec 64
  dirty : BitVec 64
  data : BitVec 512
  key : Nat
  part : Nat
  deriving DecidableEq, Repr

/-- A sector of the L2 (R111, R112). -/
structure Sector where
  line : Nat
  data : BitVec 512
  dirty : Bool
  excl : Bool
  key : Nat
  part : Nat
  deriving DecidableEq, Repr

/-- A line of the instruction buffer (R140), tagged by its physical line. -/
structure IbLine where
  line : Nat
  data : BitVec 512
  deriving DecidableEq, Repr

/-- A TLB entry (R120). Sizes are in bytes. -/
structure TlbEntry where
  part : Nat
  va : Nat
  size : Nat
  pa : Nat
  uncached : Bool
  key : Nat
  u : Bool
  w : Bool
  x : Bool
  deriving DecidableEq, Repr

/-- An upper-level entry in the walkers' cache (R120): the table found for a level and a virtual prefix. -/
structure WalkEntry where
  part : Nat
  level : Nat
  idx : Nat
  table : Nat
  deriving DecidableEq, Repr

/-- An entry of a ready queue or a spill list (R150). `home` is the core to whose queue it belongs, and `resumed` marks that of a
pre-empted unit, which has the age of the entry it was taken from (R430). -/
structure Ready where
  recVa : Nat
  part : Nat
  launch : BitVec 32
  pri : Nat
  time : Nat
  home : Nat
  resumed : Bool := false
  deriving DecidableEq, Repr

/-- A named barrier (R204). -/
structure Barrier where
  n : Nat := 0
  tag : BitVec 3 := 0
  arrived : Nat := 0
  phase : BitVec 32 := 0
  deriving DecidableEq, Repr

/-- A control core. `serve` is, for each of its six engines, the context whose turn at the engine is next (R153). -/
structure Core where
  spw : Nat := 0
  part : Option Nat := none
  sp : Memory := []
  rings : Vector Ring 8 := Vector.replicate 8 {}
  l1 : List L1Line := []
  ibuf : List IbLine := []
  tlb : List TlbEntry := []
  ready : List Ready := []
  bars : Vector Barrier 32 := Vector.replicate 32 {}
  serve : Vector Nat 6 := Vector.replicate 6 0
  tabOwner : Assoc Nat := []
  deriving DecidableEq, Repr

/-- A cluster of eight cores: L2, shared TLB, pages awaiting a walk (partition, page number, supervisor level), spill list, records
in state 1 that wait for an entry of it, ring, rail (R26, R111, R120, R150, R381). Its phases are counted from
`phaseAt` (R386), and `held` is the rail that a supply failure overrides (R399). -/
structure Cluster where
  pool : Bool := false
  l2 : List Sector := []
  tlb : List TlbEntry := []
  waiting : List (Nat × Nat × Bool) := []
  spill : List Ready := []
  late : List Ready := []
  flights : List Flight := []
  low : Bool := false
  busy : Bool := false
  held : Option Bool := none
  phaseAt : Nat := 0
  phases : Nat := 0
  alarm : Bool := false
  alarmAt : Nat := 0
  deriving DecidableEq, Repr

/-- A weight latch of a tile: tag, band scale, and 64 × 64 elements in 16-bit cells (R17, R101). Element (n, k) is cell
64 n + k. An F4B cell holds the element code in bits 3:0 and its block scale in bits 11:4. -/
structure Latch where
  fmt : BitVec 4 := 5
  band : BitVec 16 := 0
  elems : BitVec 65536 := 0
  deriving DecidableEq, Repr

/-- The record a column controller keeps of the last load of a latch (Table 13-5, step 4). -/
inductive LatchSrc where
  | none
  | weight (off : Nat) (fmt : BitVec 4) (trans : Bool) (idx : Nat)
  | kv (page first count chunk posbase : Nat) (value : Bool)
  deriving DecidableEq, Repr

/-- A latch record with its changed mark. -/
structure LatchRec where
  src : LatchSrc := .none
  changed : Bool := false
  deriving DecidableEq, Repr

/-- The comparator of a column (Table 14-3). -/
inductive Comp where
  | normal | hot | cold
  deriving DecidableEq, Repr

/-- A beat in a crossing FIFO (Table 6-2): 64 bytes with a direction bit, set upward to the latches, and a command tag. -/
structure Beat where
  up : Bool
  tag : Nat
  data : BitVec 512
  deriving DecidableEq, Repr

/-- A column: tile latches, crossing FIFO, sensor, corrected errors, lanes repaired, containment. `raised` notes that the dealer has answered
the column's hot state (Table 14-1), `kitty` that the kitty stands in for it, `lost` that it is lost (R21). -/
structure Column where
  front : Latch := {}
  back : Latch := {}
  frontRec : LatchRec := {}
  backRec : LatchRec := {}
  fifo : List Beat := []
  lastPart : Option Nat := none
  temp : BitVec 16 := 0
  fail : Bool := false
  comp : Comp := .normal
  compAt : Nat := 0
  trip : Bool := false
  corr : Nat := 0
  thresh : Nat := 65535
  markedAt : Option Nat := none
  lanes : List Nat := []
  kitty : Bool := false
  lost : Bool := false
  raised : Bool := false
  deriving DecidableEq, Repr

/-- A grid row of a stack: CADENCE, the values to which the dealer lowers it again and when it last did (R384), the value that a
supply failure overrides (R399), the position that the spare map marks (R16), and whether the kitty is in use. -/
structure GridRow where
  cadence : Word := 1
  alarmBase : Option Nat := none
  hotBase : Option Nat := none
  stepAt : Nat := 0
  held : Option Word := none
  unusable : Option Nat := none
  kittyUsed : Bool := false
  deriving DecidableEq, Repr

/-- A capture monitor (R211). -/
structure Monitor where
  part : Option Nat := none
  src : Nat := 0
  loc : Nat := 0
  low : BitVec 32 := 0
  step : BitVec 32 := 0
  min : BitVec 32 := 0
  max : BitVec 32 := 0
  samples : Word := 0
  bins : Vector (BitVec 32) 16 := Vector.replicate 16 0
  deriving DecidableEq, Repr

/-- A stack: PHASE.CTL and its monitors. -/
structure Stack where
  phaseCtl : Word := 0
  monitors : Assoc Monitor := []
  deriving DecidableEq, Repr

/-- A coolant zone: its registers, the step of an evacuation (Table 14-5) or refill (Table 14-6) in progress and when that step began,
a standing FLOW.REQ (partition, share wanted and phase counter), and the share and floor of a refill that waits for the zone to be
dry (R290, R390 to R395). -/
structure Zone where
  valve : Word := 0
  hi : Word := 0x05F0
  lo : Word := 0
  step : Nat := 0
  stepAt : Nat := 0
  setAt : Nat := 0
  flow : Option (Nat × Nat × Nat) := none
  failed : Bool := false
  fence : Bool := false
  wants : Option (Nat × Nat) := none
  deriving DecidableEq, Repr

/-- A completion counter (R197), the level that opened it, and the counter of the enclosing level. -/
structure Counter where
  done : BitVec 32 := 0
  live : Nat := 0
  status : Nat := 0
  err : Bool := false
  cancelled : Bool := false
  kind : Nat := 0
  encl : Option Nat := none
  deriving DecidableEq, Repr

/-- What an iteration of a run has done: its record, its shadow stores in program order, its accept result, its carry-out,
the fault it holds, the requests it drew on and the layers it appended to (R142, R280, R281). -/
structure Iter where
  recVa : Nat := 0
  finished : Nat := 0
  shadow : List (Nat × Byte × Nat) := []
  accept : Option Bool := none
  carryOut : List Byte := []
  fault : Option (Byte × Word × Word) := none
  drew : List Nat := []
  appended : List (Nat × Nat) := []
  deriving DecidableEq, Repr

/-- A speculative run (R277). -/
structure Run where
  launch : BitVec 32 := 0
  width : Nat := 0
  carrySz : Nat := 0
  base : Nat := 0
  guess : Nat := 0
  guessState : Nat := 0
  iters : List Iter := []
  isOpen : Bool := false
  reqs : List Nat := []
  deriving DecidableEq, Repr

/-- One contribution to a collective (R358). -/
structure Contribution where
  rank : Nat
  owner : Option (Nat × Nat)
  data : List Byte
  deriving DecidableEq, Repr

/-- A REDUCE collective in progress or delivering its result (R358). -/
structure Collective where
  op : Word := 0
  bytes : Nat := 0
  route : Nat := 0
  parts : List Contribution := []
  result : Option (List Byte) := none
  deriving DecidableEq, Repr

/-- A waiting request for a rectangle (R331, R434): the context whose stream asks, or none with the suspended record. -/
structure LeaseReq where
  rect : Nat
  ctx : Option Nat
  recVa : Nat
  pri : Nat
  since : Nat
  deriving DecidableEq, Repr

/-- A lease parked for a record that is not on a context (R372, R434). -/
structure Parked where
  rect : Nat
  recVa : Nat
  left : Nat
  limit : Nat
  deriving DecidableEq, Repr

/-- What stays with a written-back record outside its 64 bytes and its block: the core that wrote it back (R150), whether its wait
has been satisfied while no queue had room (R150, R201) or its save sequence still ran (R434), whether the core that its block names has been
fenced since (R378), and of a pre-empted unit the fork set, the address nests, the sequence in
progress, a barrier waited for, of each stream whether it was forked and whether it had stopped, and its queued commands, of which
Table 13-3 holds four and not all that a command carries (R154, log 15). -/
structure Kept where
  home : Nat := 0
  met : Bool := false
  freed : Bool := false
  forkSet : Nat := 0
  nests : List Nest := []
  seq : Sequence := .none
  barOn : Option Nat := none
  barLost : Bool := false
  asked : Option Nat := none
  marks : List (Bool × Bool) := []
  queues : List (List Cmd) := []
  deriving DecidableEq, Repr

/-- A shootdown in progress (R122): VA, CNT and REQ as read, the physical ranges of the entries removed, and the started copy and
access commands of the partition that name an address of the range (R149): context, stream, word and operands; and the open runs whose
iterations hold stores to those ranges in their shadows (R278). -/
structure Shootdown where
  va : Nat
  cnt : Nat
  req : Nat
  frames : List (Nat × Nat)
  copies : List (Nat × Nat × Instr × List Word) := []
  runs : List Nat := []
  deriving DecidableEq, Repr

/-- A home copy registered for refill (Table 15-8). -/
structure HomeCopy where
  base : Nat
  size : Nat
  copy : Nat
  host : Bool
  deriving DecidableEq, Repr

/-- The nine statistics counters of a partition (R213, R216). -/
structure Stats where
  l1fill : Word := 0
  l2fill : Word := 0
  shared : Word := 0
  wb : Word := 0
  runs : Word := 0
  iters : Word := 0
  accepted : Word := 0
  rejected : Word := 0
  faultSupp : Word := 0
  deriving DecidableEq, Repr

/-- A partition: its grant, registers, counters, flags and runs. `images` holds the results of image checks (R219), `kept`
what is known of a written-back record outside memory, by its address. -/
structure Part where
  isOpen : Bool := false
  cols : BitVec 4096 := 0
  cores : BitVec 512 := 0
  zones : BitVec 256 := 0
  keys : BitVec 128 := 0
  udFirst : Nat := 0
  udCnt : Nat := 0
  ring : Nat := 0
  ringN : Nat := 0
  leaseMax : Word := 16
  thresh : Word := 0x3C000000
  repairLayer : Word := 0
  modelId : Word := 0
  counters : Assoc Counter := []
  flags : BitVec 4096 := 0
  runs : Assoc Run := []
  nextRun : Nat := 1
  stats : Stats := {}
  collectives : Assoc Collective := []
  reqs : List LeaseReq := []
  parked : List Parked := []
  pubkeys : List (List Byte) := []
  homecopies : List HomeCopy := []
  images : Assoc Nat := []
  kept : Assoc Kept := []
  shootdown : Option Shootdown := none
  lostSeen0 : Nat := 0
  lostSeen1 : Nat := 0
  deriving DecidableEq, Repr

/-- The fields of a KIND 0 launch record (Table 10-4). -/
structure LaunchRec where
  addr : Nat := 0
  kind : Nat := 0
  pri : Nat := 0
  cnt : Nat := 0
  encl : Nat := 0xFFFF
  ninit : Nat := 0
  image : Nat := 0
  entry : Nat := 0
  rpooln : Nat := 0
  rpool : Nat := 0
  arg0 : Word := 0
  arg1 : Word := 0
  clumask : Nat := 0
  rects : List Nat := []
  spbytes : Nat := 0
  ctlp : Nat := 0
  tabbase : Nat := 0
  tabcount : Nat := 0
  maxctx : Nat := 0
  list : Nat := 0
  listn : Nat := 0
  succ : Nat := 0
  deriving DecidableEq, Repr

/-- A launch (R36, R268). `snap` is the memory LDC reads, taken at the snapshot point (R139), with
the keys of its blocks; `used` are the cores that have run its units. -/
structure Launch where
  part : Nat := 0
  fields : LaunchRec := {}
  super : Bool := false
  graph : Nat := 0xFFFF
  phase : Nat := 0xFF
  job : Nat := 0x3F
  node : Option (Nat × Nat) := none
  bound : Bool := false
  complete : Bool := false
  cancelled : Bool := false
  snapped : Bool := false
  snap : Memory := []
  snapKey : Assoc Nat := []
  ctxs : List Nat := []
  used : List Nat := []
  deriving DecidableEq, Repr

/-- A node of an open graph (R37, Table 10-5). `st` is 0 waiting, 1 ready, 2 running, 3 completed, 4 cancelled. -/
structure Node where
  copy : Bool := false
  a : Nat := 0
  b : Nat := 0
  bytes : Nat := 0
  succ : List Nat := []
  pred : Nat := 0
  st : Nat := 0
  launch : BitVec 32 := 0
  deriving DecidableEq, Repr

/-- An open graph of a partition (R37), with the record that opened it: its nodes' entries are read again at readying (R267). -/
structure Graph where
  src : LaunchRec := {}
  nodes : List Node := []
  phase : Option Nat := none
  isOpen : Bool := false
  deriving DecidableEq, Repr

/-- An open phase (R36): the graph records still to open, in order, and the phase's place in the order in which its job's phases
opened. -/
structure Phase where
  graphs : List Nat := []
  index : Nat := 0
  job : Option Nat := none
  seq : Nat := 0
  isOpen : Bool := false
  deriving DecidableEq, Repr

/-- A job opened by JOB.SUBMIT: the supervisor's launch and the job-end word (R404). -/
structure Job where
  launch : BitVec 32 := 0
  endw : Nat := 0
  isOpen : Bool := false
  deriving DecidableEq, Repr

/-- What waits inside the dealer for an entry of the launch queue (R152): node `i` of a graph, or a launch that has lost a context. -/
inductive Waiter where
  | node (p g i : Nat)
  | launch (l : Nat)
  deriving DecidableEq, Repr

/-- A CXL far-memory window or HDM range (R401). -/
structure Window where
  dev : Nat
  host : Nat
  size : Nat
  part : Nat
  key : Nat
  deriving DecidableEq, Repr

/-- The traffic classes of a Tazal link (Table 6-5). -/
inductive LinkClass where
  | sums | rows | responses | requests | collectives
  deriving DecidableEq, Repr

/-- What the package does next: its reset and boot, a context tries to issue its next bundle, a stream executes its next word, the dealer takes the
next block of a partition's command ring or performs the host command in progress, the host writes a mailbox register, a link sends an
entry of its queues, or an event. -/
inductive Turn where
  | bundle (c : Nat)
  | word (c : Nat) (k : Nat)
  | ring (p : Nat)
  | mailbox
  | boot
  | hostWrite (off : Nat) (v : Word)
  | link (edge : Nat)
  | event (i : Instr)
  deriving DecidableEq, Repr

/-- The whole package: `blockKey` holds the key (plus 1) of every 16-byte cipher block written, `keyGen` the fresh keys a slot has
had (R124), `walkNext` the cluster whose turn at the walkers is next (R121); `host` is the host's memory, `hdmData` and `farData` what the last host access through an HDM range and
the last far request returned, `msix` the interrupts sent, `mgmt` the reports over the management connection, `peers` the other
packages of the domain; with the model's own scheduling fields at the end (log 7, log 8). -/
structure State where
  mem : Memory := []
  host : Memory := []
  blockKey : Assoc Nat := []
  keyGen : Assoc Nat := []
  ctxs : Assoc Ctx := []
  cores : Assoc Core := []
  clusters : Assoc Cluster := []
  rows : Assoc SlotRow := []
  work : Assoc SlotRow := []
  slotOwn : Assoc Nat := []
  cols : Assoc Column := []
  gridRows : Assoc GridRow := []
  stks : Assoc Stack := []
  zones : Assoc Zone := []
  parts : Assoc Part := []
  launches : Assoc Launch := []
  graphs : Assoc Graph := []
  phases : Assoc Phase := []
  jobs : Assoc Job := []
  launchq : List (Nat × Nat) := []
  nodeWait : List Waiter := []
  nextLaunch : BitVec 32 := 1
  walkCache : List WalkEntry := []
  walkNext : Nat := 0
  timebase : Word := 0
  mbxCmd : Word := 0
  /-- The block of the GO that the mailbox accepted last (R402). -/
  mbxGo : Word := 0
  mbxStat : Word := 0
  windows : Assoc (Option Window) := []
  hdms : Assoc (Option Window) := []
  msix : List Nat := []
  mgmt : List Nat := []
  powerLimit : Nat := 0
  powerAt : Option Nat := none
  supplyBad : Bool := false
  peers : List Nat := []
  links : Vector Bool 4 := Vector.replicate 4 true
  /-- The links between other packages that are down (R407), by the lesser package number and whether it runs along a domain column. -/
  farDown : List (Nat × Bool) := []
  /-- The queues of the links' outgoing directions (R164): the edge and the class of each entry, the oldest first. -/
  linkq : List (Nat × LinkClass) := []
  peerBars : Assoc Barrier := []
  hdmData : Word := 0
  farData : Word := 0
  booted : Bool := false
  pkg : Nat := 0
  agenda : List Turn := []
  /-- MODEL'S OWN: what the first samples of the sensors read at a package reset: column, reading, result of the self-check (log 10). -/
  sensors : List (Nat × BitVec 16 × Bool) := []
  cur : Nat := 0
  curK : Nat := 0
  raw : BitVec 128 := 0
  limm : Option (BitVec 24) := none
  npc : Option Word := none
  mark : Mark := .ok
  tick : Nat := 0
  deriving DecidableEq, Repr

/-- The package right after reset: nothing listed, so every register of every numbered thing has its reset value. -/
def State.reset : State := {}

end Sys2Proof.Machine
end

