-- ==== Sys2Proof/Machine/Regs.lean ====
section
/-! DEFINITION. Reading and replacing the numbered records of the state, and the numbering of contexts, cores, clusters,
edges, columns and zones (R15, R26, R86). -/
namespace Sys2Proof.Machine

namespace State

def ctx (s : State) (c : Nat) : Ctx := assocGet {} s.ctxs c
def setCtx (s : State) (c : Nat) (x : Ctx) : State := { s with ctxs := assocSet s.ctxs c x }
def modCtx (s : State) (c : Nat) (f : Ctx → Ctx) : State := s.setCtx c (f (s.ctx c))
def core (s : State) (n : Nat) : Core := assocGet {} s.cores n
def setCore (s : State) (n : Nat) (x : Core) : State := { s with cores := assocSet s.cores n x }
def modCore (s : State) (n : Nat) (f : Core → Core) : State := s.setCore n (f (s.core n))
def cluster (s : State) (n : Nat) : Cluster := assocGet {} s.clusters n
def setCluster (s : State) (n : Nat) (x : Cluster) : State := { s with clusters := assocSet s.clusters n x }
def modCluster (s : State) (n : Nat) (f : Cluster → Cluster) : State := s.setCluster n (f (s.cluster n))
def row (s : State) (n : Nat) : SlotRow := assocGet {} s.rows n
def setRow (s : State) (n : Nat) (x : SlotRow) : State := { s with rows := assocSet s.rows n x }
def workRow (s : State) (n : Nat) : SlotRow := assocGet {} s.work n
def setWork (s : State) (n : Nat) (x : SlotRow) : State := { s with work := assocSet s.work n x }
def col (s : State) (n : Nat) : Column := assocGet {} s.cols n
def setCol (s : State) (n : Nat) (x : Column) : State := { s with cols := assocSet s.cols n x }
def modCol (s : State) (n : Nat) (f : Column → Column) : State := s.setCol n (f (s.col n))
def gridRow (s : State) (n : Nat) : GridRow := assocGet {} s.gridRows n
def setGridRow (s : State) (n : Nat) (x : GridRow) : State := { s with gridRows := assocSet s.gridRows n x }
def modGridRow (s : State) (n : Nat) (f : GridRow → GridRow) : State := s.setGridRow n (f (s.gridRow n))
def stack (s : State) (n : Nat) : Stack := assocGet {} s.stks n
def setStack (s : State) (n : Nat) (x : Stack) : State := { s with stks := assocSet s.stks n x }
def modStack (s : State) (n : Nat) (f : Stack → Stack) : State := s.setStack n (f (s.stack n))
def zone (s : State) (n : Nat) : Zone := assocGet {} s.zones n
def setZone (s : State) (n : Nat) (x : Zone) : State := { s with zones := assocSet s.zones n x }
def modZone (s : State) (n : Nat) (f : Zone → Zone) : State := s.setZone n (f (s.zone n))
def part (s : State) (n : Nat) : Part := assocGet {} s.parts n
def setPart (s : State) (n : Nat) (x : Part) : State := { s with parts := assocSet s.parts n x }
def modPart (s : State) (n : Nat) (f : Part → Part) : State := s.setPart n (f (s.part n))
def launch (s : State) (n : Nat) : Launch := assocGet {} s.launches n
def setLaunch (s : State) (n : Nat) (x : Launch) : State := { s with launches := assocSet s.launches n x }
def modLaunch (s : State) (n : Nat) (f : Launch → Launch) : State := s.setLaunch n (f (s.launch n))
/-- A graph of a partition, by its counter number. -/
def graph (s : State) (p g : Nat) : Graph := assocGet {} s.graphs (p * 1024 + g)
def setGraph (s : State) (p g : Nat) (x : Graph) : State := { s with graphs := assocSet s.graphs (p * 1024 + g) x }
def phase (s : State) (p h : Nat) : Phase := assocGet {} s.phases (p * 1024 + h)
def setPhase (s : State) (p h : Nat) (x : Phase) : State := { s with phases := assocSet s.phases (p * 1024 + h) x }
def job (s : State) (p j : Nat) : Job := assocGet {} s.jobs (p * 1024 + j)
def setJob (s : State) (p j : Nat) (x : Job) : State := { s with jobs := assocSet s.jobs (p * 1024 + j) x }
def counter (s : State) (p n : Nat) : Counter := assocGet {} (s.part p).counters n
def setCounter (s : State) (p n : Nat) (x : Counter) : State :=
  s.modPart p fun q => { q with counters := assocSet q.counters n x }
def run (s : State) (p r : Nat) : Run := assocGet {} (s.part p).runs r
def setRun (s : State) (p r : Nat) (x : Run) : State :=
  s.modPart p fun q => { q with runs := assocSet q.runs r x }
def modRun (s : State) (p r : Nat) (f : Run → Run) : State := s.setRun p r (f (s.run p r))

/-- The current time in nanoseconds (R217). -/
def now (s : State) : Nat := s.timebase.toNat

/-- The ACLK cycles of a cluster in a number of nanoseconds, on the rail that it has: 1.0 GHz or 0.7 GHz (R381). -/
def aclkCycles (s : State) (clu ns : Nat) : Nat := ns * (if (s.cluster clu).low then 7 else 10) / 10

/-- A fresh number for a choice or a free value: the counter before the step and the state after it. -/
def bump (s : State) : State := { s with tick := s.tick + 1 }

end State

/-! Numbering. -/

/-- Core of a context (R26). -/
def coreOf (c : Nat) : Nat := c / 4
/-- Cluster of a core (R26). -/
def clusterOf (core : Nat) : Nat := core / 8
/-- Stack of a core. -/
def stackOf (core : Nat) : Nat := core / 128
/-- Grid row of a core, over all stacks (s × 32 + y): its accumulator edge. -/
def edgeOf (core : Nat) : Nat := core / 4
/-- Home slot of a core at its edge (R24). -/
def homeSlot (core : Nat) : Nat := core % 4
/-- Cluster-ring stop of a core (R26): positions 0 to 3 of the even row, then 3 to 0 of the odd row. -/
def stopOf (core : Nat) : Nat := if core % 8 < 4 then core % 8 else 11 - core % 8
/-- Core at a stop of a cluster. -/
def coreAt (clu stop : Nat) : Nat := clu * 8 + (if stop < 4 then stop else 11 - stop)
/-- A row of an accumulator slot, as one number. -/
def rowKey (edge slot r : Nat) : Nat := (edge * 8 + slot) * 64 + r
/-- A physical tableau row of a core. -/
def tabKey (core r : Nat) : Nat := rowKey (edgeOf core) (homeSlot core) r
/-- Grid row (s × 32 + y) of a package column (R15). -/
def rowOfCol (col : Nat) : Nat := col / 32
/-- Cluster whose domain holds a column (R381). -/
def clusterOfCol (col : Nat) : Nat := col / 64
/-- Zone of a column (R86). -/
def zoneOfCol (col : Nat) : Nat := col / 1024 * 64 + col % 1024 / 32 / 4 * 8 + col % 32 / 4
/-- The sixteen columns of a zone. -/
def colsOfZone (z : Nat) : List Nat :=
  (List.range 4).flatMap fun dy => (List.range 4).map fun dx =>
    z / 64 * 1024 + (z % 64 / 8 * 4 + dy) * 32 + z % 8 * 4 + dx
/-- Package grid row and column offsets of a stack (Table 1-1). -/
def stackOffset (s : Nat) : Nat × Nat :=
  match s with
  | 0 => (0, 0) | 1 => (0, 32) | 2 => (32, 32) | _ => (32, 0)
/-- The package column at package grid row `r` and package grid column `c`, both below 64 (R14, R15). -/
def colAt (r c : Nat) : Nat :=
  let s := if r < 32 then (if c < 32 then 0 else 1) else (if c < 32 then 3 else 2)
  s * 1024 + r % 32 * 32 + c % 32
/-- Domain row and column of a package (R14). -/
def pkgOrigin (p : Nat) : Nat × Nat := (p / 8 * 64, p % 8 * 64)
/-- The number of the column at a row and column of the domain grid, both below 512 (R14, R15): its package column number in this
package. The columns of package q of the domain follow from 4,096 × (q + 1) on, their grid rows, clusters, stacks and zones likewise. -/
def State.colOf (s : State) (y x : Nat) : Nat :=
  let q := y / 64 * 8 + x / 64
  (if q = s.pkg then 0 else 4096 * (q + 1)) + colAt (y % 64) (x % 64)
/-- The package of a column number. -/
def State.pkgOfCol (s : State) (col : Nat) : Nat := if col < 4096 then s.pkg else col / 4096 - 1
/-- Package numbers from one to another along a line of the domain. -/
def between (a b step : Nat) : List Nat := (List.range ((max a b - min a b) / step + 1)).map (min a b + step * ·)

/-- Is a core granted to a partition (Table 15-9)? -/
def State.coreGranted (s : State) (p core : Nat) : Bool := (s.part p).cores.getLsbD core
/-- Is a column granted to a partition? -/
def State.colGranted (s : State) (p col : Nat) : Bool := (s.part p).cols.getLsbD col
/-- Is a column of the domain granted to a partition? What a peer package grants it is not this package's to know (log 18). -/
def State.colAllowed (s : State) (p col : Nat) : Bool := if col < 4096 then s.colGranted p col else Config.peerGranted p col
/-- Is a grid row granted (R86): a granted core is homed on it or a granted column lies in it? -/
def State.rowGranted (s : State) (p r : Nat) : Bool :=
  (List.range 4).any (fun i => s.coreGranted p (r * 4 + i)) || (List.range 32).any fun x => s.colGranted p (r * 32 + x)
/-- Is a cluster granted (R86)? -/
def State.clusterGranted (s : State) (p clu : Nat) : Bool := s.rowGranted p (clu * 2) || s.rowGranted p (clu * 2 + 1)

/-- The executing context of a syllable or stream word. -/
def State.me (s : State) : Ctx := s.ctx s.cur
def State.modMe (s : State) (f : Ctx → Ctx) : State := s.modCtx s.cur f
/-- The core of the executing context. -/
def State.myCore (s : State) : Nat := coreOf s.cur
/-- The partition of a context's unit. -/
def Ctx.partNo (x : Ctx) : Nat := (x.running.map (·.part)).getD 0
def State.myPart (s : State) : Nat := s.me.partNo

/-! Composite registers (Tables 3-5 to 3-10). -/

/-- CTX.STAT (Table 3-6). -/
def Ctx.stat (x : Ctx) : Word :=
  (BitVec.ofBool x.pinned).setWidth 64 <<< 36 ||| (BitVec.ofBool x.intrap).setWidth 64 <<< 35
    ||| (BitVec.ofBool x.spec).setWidth 64 <<< 34 ||| (BitVec.ofBool x.priv).setWidth 64 <<< 32 ||| x.launch.setWidth 64
/-- CTX.ID (Table 3-6): CLU, PKG, CTXN. -/
def ctxId (pkg c : Nat) : Word := BitVec.ofNat 64 (clusterOf (coreOf c) * 2 ^ 24 + pkg % 64 * 2 ^ 16 + c % 2048)
/-- CTX.TAB (Table 3-6). -/
def Ctx.tab (x : Ctx) : Word := BitVec.ofNat 64 (x.tabCount % 128 * 256 + x.tabBase % 64)
/-- SPLIT (Table 3-8). -/
def State.split (s : State) (core : Nat) : Word :=
  BitVec.ofNat 64 ((s.core core).spw + if (s.cluster (clusterOf core)).pool then 128 else 0)
/-- RAIL.SEL (Table 3-10). -/
def Cluster.railSel (x : Cluster) : Word := BitVec.ofNat 64 ((if x.low then 1 else 0) + if x.busy then 2 else 0)
/-- THERM.RD (Table 3-10). -/
def Column.thermRd (x : Column) : Word := BitVec.ofNat 64 (x.temp.toNat + if x.fail then 65536 else 0)
/-- WATCH.ADDR: its bits below the size that WATCH.CTL gives are ignored, and read as zero (R4, Table 3-7). -/
def Ctx.watchBase (x : Ctx) : Word :=
  BitVec.ofNat 64 (x.watchAddr.toNat / 2 ^ bitsOf x.watchCtl.toNat 7 3 * 2 ^ bitsOf x.watchCtl.toNat 7 3)
/-- The bits of CTX.CTL. -/
def Ctx.chk (x : Ctx) : Bool := x.ctl.getLsbD 0
def Ctx.pend (x : Ctx) : Bool := x.ctl.getLsbD 1
def Ctx.stepping (x : Ctx) : Bool := x.ctl.getLsbD 3
/-- Scratchpad bytes of a core (Table 3-8). -/
def Core.spSize (x : Core) : Nat := x.spw * 16384
/-- RING.BASE, RING.SHAPE and RING.PTR fields (Table 3-9). -/
def Ring.off (r : Ring) : Nat := r.base.toNat % 2 ^ 19
def Ring.tsize (r : Ring) : Nat := bitsOf r.shape.toNat 7 0
def Ring.tiles (r : Ring) : Nat := bitsOf r.shape.toNat 15 8
def Ring.fmt (r : Ring) : BitVec 4 := r.shape.extractLsb' 20 4
def Ring.head (r : Ring) : Nat := bitsOf r.ptr.toNat 15 0
def Ring.tail (r : Ring) : Nat := bitsOf r.ptr.toNat 31 16
def Ring.occ (r : Ring) : Nat := (r.tail + 65536 - r.head) % 65536
/-- The pointers with head or tail replaced. -/
def ptrOf (head tail : Nat) : Word := BitVec.ofNat 64 (tail % 65536 * 65536 + head % 65536)

/-- Vector element replacement by a number in range. -/
def vset {α : Type} {n : Nat} (v : Vector α n) (i : Nat) (x : α) : Vector α n := v.setIfInBounds i x
/-- Vector element by number, a default when out of range. -/
def vget {α : Type} {n : Nat} (d : α) (v : Vector α n) (i : Nat) : α := v.toList.getD i d

/-- A context's general register (R71: g0 reads zero). -/
def Ctx.reg (x : Ctx) (r : Reg) : Word := if r = 0 then 0 else x.g[r]

/-- Do two effects write a register, a mask or a row in common? -/
def Effect.meets : Effect → Effect → Bool
  | .g r _, .g q _ => r == q
  | .mask j _, .mask k _ => j == k
  | .rows l, .rows m => l.any fun a => m.any fun b => a.row == b.row
  | _, _ => false

end Sys2Proof.Machine
end

