-- ==== Sys2Proof/Machine/Monitor.lean ====
section
/-! DEFINITION. The samples of capture monitors (R211, Table 8-3). -/
namespace Sys2Proof.Machine

/-- A 32-bit field of a monitor as a number: signed for temperatures, which are two's complement (R93), else unsigned. -/
def monNum (m : Monitor) (v : BitVec 32) : Int := if m.src = 4 then v.toInt else v.toNat
/-- Bin of a value: values below LOW fall in bin 0. -/
def monBin (m : Monitor) (v : Int) : Nat :=
  if m.step = 0 then 0 else min 15 (((v - monNum m m.low).toNat) / m.step.toNat)
/-- One sample: MIN, MAX, SAMPLES and a saturating bin. -/
def monTake (m : Monitor) (v : Int) : Monitor :=
  let w := BitVec.ofInt 32 v
  let b := vget 0 m.bins (monBin m v)
  { m with
    min := if m.samples = 0 then w else if v < monNum m m.min then w else m.min,
    max := if m.samples = 0 then w else if monNum m m.max < v then w else m.max,
    samples := m.samples + 1,
    bins := vset m.bins (monBin m v) (if b = BitVec.allOnes 32 then b else b + 1) }
/-- Every monitor assigned to a source and place takes a sample. A place is a core or column number, core × 8 + ring, or a
lease table index (log 14). -/
def State.monSample (s : State) (src loc : Nat) (v : Int) : State :=
  { s with stks := s.stks.map fun e => (e.1, { e.2 with monitors := e.2.monitors.map fun m =>
      if m.2.part.isSome && m.2.src == src && m.2.loc == loc then (m.1, monTake m.2 v) else m }) }

end Sys2Proof.Machine
end

