-- ==== Sys2Proof/Machine/Formats.lean ====
section
/-! DEFINITION. Which operand and format combinations each instruction's encoding allows (R229, R232, R233, R302, R304,
R305, R322). The decoder and the well-formedness check share these definitions. -/
namespace Sys2Proof

/-- Format code of Table 2-1. -/
def Fmt.code : Fmt → BitVec 4
  | .f32 => 0x0 | .bf16 => 0x1 | .f8a => 0x2 | .f8b => 0x3 | .f4b => 0x4
  | .i8 => 0x5 | .i8u => 0x6 | .i32 => 0x7 | .i32u => 0x8

/-- Format of a code of Table 2-1; codes 0x9 to 0xF are reserved (R44). -/
def Fmt.ofCode (c : BitVec 4) : Option Fmt :=
  match c.toNat with
  | 0 => some .f32 | 1 => some .bf16 | 2 => some .f8a | 3 => some .f8b | 4 => some .f4b
  | 5 => some .i8 | 6 => some .i8u | 7 => some .i32 | 8 => some .i32u | _ => none

/-- Element bits (Table 2-1); an F4B element is four bits with its scales apart. -/
def Fmt.bits : Fmt → Nat
  | .f32 => 32 | .bf16 => 16 | .f8a => 8 | .f8b => 8 | .f4b => 4
  | .i8 => 8 | .i8u => 8 | .i32 => 32 | .i32u => 32

/-- Elements per 256-byte row (Table 2-1). -/
def Fmt.perRow : Fmt → Nat
  | .f32 => 64 | .bf16 => 128 | .f8a => 256 | .f8b => 256 | .f4b => 64
  | .i8 => 256 | .i8u => 256 | .i32 => 64 | .i32u => 64

/-- The floating formats an arithmetic syllable takes. -/
def Fmt.isFloat : Fmt → Bool
  | .f32 | .bf16 | .f8a | .f8b => true
  | .f4b | .i8 | .i8u | .i32 | .i32u => false

/-- The integer formats (R51). -/
def Fmt.isInt : Fmt → Bool
  | .i8 | .i8u | .i32 | .i32u => true
  | .f32 | .bf16 | .f8a | .f8b | .f4b => false

/-- The signed integer formats (R51). -/
def Fmt.isSigned : Fmt → Bool
  | .i8 | .i32 => true
  | .f32 | .bf16 | .f8a | .f8b | .f4b | .i8u | .i32u => false

/-- The 32-bit formats, the only ones a column or diagonal takes (R76). -/
def Fmt.is32 (f : Fmt) : Bool := f.bits == 32

/-- Operands a destination field may name (R229). -/
def VOp.dstOk : VOp → Bool
  | .row _ | .col _ | .dg _ | .qout _ | .vdisc => true
  | .qin _ | .alo | .ahi | .vzero | .vones => false

/-- Operands a source field may name (R229). -/
def VOp.srcOk : VOp → Bool
  | .row _ | .col _ | .dg _ | .qin _ | .alo | .ahi | .vzero | .vones => true
  | .qout _ | .vdisc => false

/-- Operands that may be source and destination at once: VFMA and VFMS refuse queues and the discard in D (R229, R302). -/
def VOp.accOk : VOp → Bool
  | .row _ | .col _ | .dg _ => true
  | .qin _ | .qout _ | .alo | .ahi | .vzero | .vones | .vdisc => false

/-- Conversion pairs that VCVT takes (Table 11-3): not a format to itself, and not the refused pairs. -/
def cvtPairOk (dst src : Fmt) : Bool :=
  dst != src &&
  match src with
  | .i8 | .i8u => !(dst == .f8a || dst == .f8b || dst == .f4b)
  | .i32 | .i32u => dst != .f4b
  | .f32 | .bf16 | .f8a | .f8b | .f4b => true

/-- The three-operand check shared by the element-wise forms. -/
def dxyOk (d x y : VOp) : Bool := d.dstOk && x.srcOk && y.srcOk

/-- The two-operand check. -/
def dxOk (d x : VOp) : Bool := d.dstOk && x.srcOk

/-- What the encoding of each instruction allows beyond its field widths. Words and events have no such limits here. -/
def Instr.formOk : Instr → Bool
  | .sext _ _ n | .zext _ _ n => 1 ≤ n.toNat && n.toNat ≤ 64
  | .vadd f d x y | .vsub f d x y | .vmul f d x y | .vmax f d x y | .vmin f d x y => f != .f4b && dxyOk d x y
  | .vfma f d x y | .vfms f d x y => f != .f4b && d.accOk && x.srcOk && y.srcOk
  | .vcmpEq f _ x y | .vcmpLt f _ x y | .vcmpLe f _ x y => f != .f4b && x.srcOk && y.srcOk
  | .vadds f d x y | .vand f d x y | .vor f d x y | .vxor f d x y | .vshl f d x y | .vshr f d x y => f.isInt && dxyOk d x y
  | .vrotF32 d x y | .vrotBf16 d x y | .vrcpstep d x y | .vrsqstep d x y => dxyOk d x y
  | .vcvt f d x src | .vcvtSat f d x src => cvtPairOk f src && dxOk d x
  | .vmov _ d x => dxOk d x
  | .vabs f d x | .vneg f d x | .vclamp f d x => f != .f4b && dxOk d x
  | .vscale f d x => f.isFloat && dxOk d x
  | .vexp2 d x | .vlog2 d x | .vrcpA d x | .vrsqA d x => dxOk d x
  | .vshuf f d x y | .vsel f d x y | .vfind f d x y => f != .f4b && dxyOk d x y
  | .vredSum f d x => (f.isFloat || f == .i32 || f == .i32u) && dxOk d x
  | .vredMax f d x | .vredMin f d x | .vargmax f d x | .vbcast f d x => f != .f4b && dxOk d x
  | .vscanSum f d x => f.is32 && dxOk d x
  | .vtopk d x => dxOk d x
  | .vidx f d => (f == .i8u || f == .i32 || f == .i32u) && d.dstOk
  | .vpack f d x y => (f == .bf16 || f == .f8a || f == .f8b || f == .i8 || f == .i8u) && dxyOk d x y
  | .vunpack f d x => (f == .f32 || f == .bf16 || f == .i32 || f == .i32u) && dxOk d x
  | .vrandLatch f d | .vrandRequest f d => (f == .f32 || f == .i32u) && d.dstOk
  | .loop d => d != 0
  | _ => true

end Sys2Proof
end

