-- ==== Sys2Proof/Decode.lean ====
section
/-! DEFINITION. The decoder of syllables, bundles and engine words, from the encoding tables of the manual (R223 to R236),
and the encoder written from the same tables. -/
namespace Sys2Proof

/-- Bits hi:lo of a word, as a field of width n. -/
def fld {m : Nat} (w : BitVec m) (lo n : Nat) : BitVec n := w.extractLsb' lo n

/-- A register field. -/
def regOf (x : BitVec 5) : Reg := x.toFin

/-- A register number's field. -/
def ofReg (r : Reg) : BitVec 5 := BitVec.ofFin r

/-- `i` where the fields that must be zero are zero (R227). -/
def zeroed (ok : Bool) (i : Instr) : Option Instr := if ok then some i else none

/-- Scope codes (R230). -/
def Scope.code : Scope → BitVec 3
  | .ctx => 0 | .core => 1 | .clu => 2 | .stk => 3 | .pkg => 4 | .dom => 5 | .sys => 6

/-- Scope of a code; code 7 is ILLEGAL (R230). -/
def Scope.ofCode (c : BitVec 3) : Option Scope :=
  match c.toNat with
  | 0 => some .ctx | 1 => some .core | 2 => some .clu | 3 => some .stk | 4 => some .pkg | 5 => some .dom | 6 => some .sys
  | _ => none

/-- Size bit of atomics, VPUT and VGET (R230). -/
def Width.bit : Width → BitVec 1
  | .w => 0 | .d => 1

/-- Width of a size bit. -/
def Width.ofBit (b : BitVec 1) : Width := if b = 0 then .w else .d

/-- Tableau operand codes (Table 9-6). -/
def VOp.code : VOp → BitVec 8
  | .row i => 0#2 ++ BitVec.ofFin (w := 6) i
  | .col c => 1#2 ++ BitVec.ofFin (w := 6) c
  | .dg d => 2#2 ++ BitVec.ofFin (w := 6) d
  | .qin q => 0x30#6 ++ BitVec.ofFin (w := 2) q
  | .qout q => 0x32#6 ++ BitVec.ofFin (w := 2) q
  | .alo => 0xD0 | .ahi => 0xD1 | .vzero => 0xE0 | .vones => 0xE1 | .vdisc => 0xFF

/-- Operand of a code; the other codes from 0xC0 to 0xFE are reserved (Table 9-6). -/
def VOp.ofCode (c : BitVec 8) : Option VOp :=
  let i : Fin 64 := (fld c 0 6 : BitVec 6).toFin
  let q : Fin 4 := (fld c 0 2 : BitVec 2).toFin
  match (fld c 6 2 : BitVec 2).toNat with
  | 0 => some (.row i)
  | 1 => some (.col i)
  | 2 => some (.dg i)
  | _ =>
    match (fld c 2 6 : BitVec 6).toNat with
    | 0x30 => some (.qin q)
    | 0x32 => some (.qout q)
    | _ =>
      match c.toNat with
      | 0xD0 => some .alo | 0xD1 => some .ahi | 0xE0 => some .vzero | 0xE1 => some .vones | 0xFF => some .vdisc
      | _ => none

/-- Mask field of a compare (R229). -/
def maskOf (c : BitVec 8) : Option (Fin 4) := if c.toNat < 4 then some (fld c 0 2 : BitVec 2).toFin else none

/-- Format field (R229). -/
def fmtOf (c : BitVec 8) : Option Fmt := if c.toNat < 16 then Fmt.ofCode (fld c 0 4) else none

/-- CANCEL's level immediate (Table 9-7, Table 10-6); other values are ILLEGAL. -/
def cancelOf (a : Reg) (lvl : BitVec 10) : Option Instr :=
  match lvl.toNat with
  | 0 => some (.cancelUnit a) | 1 => some (.cancelLaunch a) | 2 => some (.cancelGraph a)
  | 3 => some (.cancelPhase a) | 4 => some (.cancelJob a) | _ => none

/-- An instruction with a scope field. -/
def withScope (ok : Bool) (sc : Option Scope) (i : Scope → Instr) : Option Instr :=
  if ok then sc.map i else none

/-- The control syllable's fields and opcode map (Tables 9-5 and 9-7). Bits 3:0 are the stall count, whatever the opcode. -/
def decodeCtlFields (w : BitVec 32) : Option Instr :=
  let db : BitVec 5 := fld w 19 5
  let ab : BitVec 5 := fld w 14 5
  let bb : BitVec 5 := fld w 9 5
  let f : BitVec 5 := fld w 4 5
  let d := regOf db
  let a := regOf ab
  let b := regOf bb
  let imm10 : BitVec 10 := fld w 4 10
  let imm15 : BitVec 15 := fld w 4 15
  let off20 : BitVec 20 := fld w 4 20
  let rest := off20
  let fhi : BitVec 2 := fld f 3 2
  let f3 : BitVec 1 := fld f 3 1
  let z := Width.ofBit (fld f 4 1)
  let sc := Scope.ofCode (fld f 0 3)
  match (fld w 24 8 : BitVec 8).toNat with
  | 0x00 => zeroed (rest == 0) .nop
  | 0x01 => some (.brEqz d imm15)
  | 0x02 => some (.brNez d imm15)
  | 0x03 => some (.brLtz d imm15)
  | 0x04 => some (.brGez d imm15)
  | 0x05 => some (.jmp off20)
  | 0x06 => some (.call off20)
  | 0x07 => zeroed (db == 0 && bb == 0 && f == 0) (.jmpi a)
  | 0x08 => zeroed (db == 0 && bb == 0 && f == 0) (.calli a)
  | 0x10 => zeroed (f == 0) (.spawn d a b)
  | 0x11 => zeroed (db == 0) (.suspend a imm10)
  | 0x12 => zeroed (rest == 0) .halt
  | 0x13 => zeroed (db == 0) (.fork imm15)
  | 0x14 => zeroed (rest == 0) .rdv
  | 0x15 => zeroed (bb == 0 && f == 0) (.launch d a)
  | 0x16 => if db == 0 then cancelOf a imm10 else none
  | 0x17 => zeroed (f == 0) (.cntAdd d a b)
  | 0x18 => zeroed (db == 0 && f == 0) (.cntWait a b)
  | 0x20 => some (.ldB d a imm10)
  | 0x21 => some (.ldH d a imm10)
  | 0x22 => some (.ldW d a imm10)
  | 0x23 => some (.ldD d a imm10)
  | 0x24 => some (.ldBz d a imm10)
  | 0x25 => some (.ldHz d a imm10)
  | 0x26 => some (.ldWz d a imm10)
  | 0x28 => some (.stB d a imm10)
  | 0x29 => some (.stH d a imm10)
  | 0x2A => some (.stW d a imm10)
  | 0x2B => some (.stD d a imm10)
  | 0x2C => some (.ldcW d a imm10)
  | 0x2D => some (.ldcD d a imm10)
  | 0x30 => withScope (bb == 0 && fhi == 0) sc (.ldAcqW d a)
  | 0x31 => withScope (bb == 0 && fhi == 0) sc (.ldAcqD d a)
  | 0x32 => withScope (bb == 0 && fhi == 0) sc (.stRelW d a)
  | 0x33 => withScope (bb == 0 && fhi == 0) sc (.stRelD d a)
  | 0x34 => withScope (db == 0 && ab == 0 && bb == 0 && fhi == 0) sc .qsync
  | 0x35 => withScope (db == 0 && ab == 0 && bb == 0 && fhi == 0) sc .fence
  | 0x36 => zeroed (rest == 0) .ifence
  | 0x37 => withScope (db == 0 && bb == 0 && fhi == 0) sc (.discard a)
  | 0x38 => withScope (db == 0 && bb == 0 && fhi == 0) sc (.flush a)
  | 0x39 => zeroed (db == 0) (.pref a imm10)
  | 0x40 => withScope (f3 == 0) sc (fun s => .amoAdd z s d a b)
  | 0x41 => withScope (f3 == 0) sc (fun s => .amoMin z s d a b)
  | 0x42 => withScope (f3 == 0) sc (fun s => .amoMax z s d a b)
  | 0x43 => withScope (f3 == 0) sc (fun s => .amoMinu z s d a b)
  | 0x44 => withScope (f3 == 0) sc (fun s => .amoMaxu z s d a b)
  | 0x45 => withScope (f3 == 0) sc (fun s => .amoAnd z s d a b)
  | 0x46 => withScope (f3 == 0) sc (fun s => .amoOr z s d a b)
  | 0x47 => withScope (f3 == 0) sc (fun s => .amoXor z s d a b)
  | 0x48 => withScope (f3 == 0) sc (fun s => .amoSwap z s d a b)
  | 0x49 => withScope (f3 == 0) sc (fun s => .cas z s d a b)
  | 0x50 => zeroed (bb == 0 && f == 0) (.barArr d a)
  | 0x51 => zeroed (db == 0 && f == 0) (.barWait a b)
  | 0x52 => zeroed (db == 0 && bb == 0 && f == 0) (.barSync a)
  | 0x53 => zeroed (db == 0 && bb == 0 && f == 0) (.flagSet a)
  | 0x54 => zeroed (db == 0 && bb == 0 && f == 0) (.flagClr a)
  | 0x55 => zeroed (db == 0 && bb == 0 && f == 0) (.flagWait a)
  | 0x56 => zeroed (db == 0 && f == 0) (.send a b)
  | 0x57 => zeroed (bb == 0 && f == 0) (.recv d a)
  | 0x58 => zeroed (bb == 0 && f == 0) (.recvPoll d a)
  | 0x60 => some (.runBegin d a imm10)
  | 0x61 => zeroed (db == 0 && bb == 0 && f == 0) (.acceptEq a)
  | 0x62 => zeroed (db == 0 && f == 0) (.acceptTol a b)
  | 0x63 => zeroed (bb == 0 && f == 0) (.runCommit d a)
  | 0x64 => zeroed (db == 0 && bb == 0 && f == 0) (.runAbort a)
  | 0x70 => zeroed (db == 0 && f == 0) (.vsend a b)
  | 0x71 => zeroed (rest == 0) .vfence
  | 0x72 => zeroed (ab == 0 && bb == 0 && f == 0) (.vstat d)
  | 0x73 => zeroed ((fld imm10 7 3 : BitVec 3) == 0) (.vput (Width.ofBit (fld imm10 6 1)) d a (fld imm10 0 6 : BitVec 6).toFin)
  | 0x74 => zeroed ((fld imm10 7 3 : BitVec 3) == 0) (.vget (Width.ofBit (fld imm10 6 1)) d a (fld imm10 0 6 : BitVec 6).toFin)
  | 0x80 => zeroed (db == 0) (.trap imm15)
  | 0x81 => zeroed (rest == 0) .eret
  | 0x82 => some (.mfs d imm15)
  | 0x83 => some (.mts imm15 d)
  | 0x84 => zeroed (db == 0) (.brk imm15)
  | 0x85 => zeroed (db == 0 && bb == 0 && f == 0) (.wait a)
  | 0x86 => zeroed (db == 0 && f == 0) (.flowReq a b)
  | _ => none

/-- The integer syllable's fields and opcode map (Tables 9-5 and 9-8). -/
def decodeIntFields (w : BitVec 32) : Option Instr :=
  let d := regOf (fld w 19 5)
  let a := regOf (fld w 14 5)
  let bb : BitVec 5 := fld w 9 5
  let b := regOf bb
  let f9 : BitVec 9 := fld w 0 9
  let imm14 : BitVec 14 := fld w 0 14
  match (fld w 24 8 : BitVec 8).toNat with
  | 0x00 => zeroed (w == 0) .nop
  | 0x01 => zeroed (f9 == 0) (.add d a b)
  | 0x02 => zeroed (f9 == 0) (.sub d a b)
  | 0x03 => zeroed (f9 == 0) (.mul d a b)
  | 0x04 => zeroed (f9 == 0) (.mulh d a b)
  | 0x05 => zeroed (f9 == 0) (.mulhu d a b)
  | 0x06 => zeroed (f9 == 0) (.div d a b)
  | 0x07 => zeroed (f9 == 0) (.divu d a b)
  | 0x08 => zeroed (f9 == 0) (.rem d a b)
  | 0x09 => zeroed (f9 == 0) (.remu d a b)
  | 0x10 => zeroed (f9 == 0) (.and d a b)
  | 0x11 => zeroed (f9 == 0) (.or d a b)
  | 0x12 => zeroed (f9 == 0) (.xor d a b)
  | 0x13 => zeroed (f9 == 0) (.andn d a b)
  | 0x14 => zeroed (f9 == 0) (.orn d a b)
  | 0x15 => zeroed (f9 == 0) (.shl d a b)
  | 0x16 => zeroed (f9 == 0) (.shr d a b)
  | 0x17 => zeroed (f9 == 0) (.sar d a b)
  | 0x18 => zeroed (f9 == 0) (.rotl d a b)
  | 0x19 => zeroed (bb == 0 && f9 == 0) (.clz d a)
  | 0x1A => zeroed (bb == 0 && f9 == 0) (.ctz d a)
  | 0x1B => zeroed (bb == 0 && f9 == 0) (.popc d a)
  | 0x20 => zeroed (f9 == 0) (.min d a b)
  | 0x21 => zeroed (f9 == 0) (.max d a b)
  | 0x22 => zeroed (f9 == 0) (.minu d a b)
  | 0x23 => zeroed (f9 == 0) (.maxu d a b)
  | 0x24 => zeroed ((fld f9 5 4 : BitVec 4) == 0) (.sel d a b (regOf (fld f9 0 5)))
  | 0x25 => zeroed (f9 == 0) (.cmpEq d a b)
  | 0x26 => zeroed (f9 == 0) (.cmpNe d a b)
  | 0x27 => zeroed (f9 == 0) (.cmpLt d a b)
  | 0x28 => zeroed (f9 == 0) (.cmpLtu d a b)
  | 0x29 => zeroed (f9 == 0) (.cmpLe d a b)
  | 0x2A => zeroed (f9 == 0) (.cmpLeu d a b)
  | 0x30 => zeroed (f9 == 0) (.bext d a b)
  | 0x31 => zeroed (f9 == 0) (.bins d a b)
  | 0x32 => zeroed (bb == 0 && (fld f9 7 2 : BitVec 2) == 0) (.sext d a (fld f9 0 7))
  | 0x33 => zeroed (bb == 0 && (fld f9 7 2 : BitVec 2) == 0) (.zext d a (fld f9 0 7))
  | 0x34 => zeroed ((fld f9 3 6 : BitVec 6) == 0) (.lea d a b (fld f9 0 3))
  | 0x35 => zeroed (bb == 0 && f9 == 0) (.mov d a)
  | 0x40 => some (.addi d a imm14)
  | 0x41 => some (.andi d a imm14)
  | 0x42 => some (.ori d a imm14)
  | 0x43 => some (.xori d a imm14)
  | 0x44 => zeroed ((fld imm14 6 8 : BitVec 8) == 0) (.shli d a (fld imm14 0 6))
  | 0x45 => zeroed ((fld imm14 6 8 : BitVec 8) == 0) (.shri d a (fld imm14 0 6))
  | 0x46 => zeroed ((fld imm14 6 8 : BitVec 8) == 0) (.sari d a (fld imm14 0 6))
  | 0x47 => some (.cmpiEq d a imm14)
  | 0x48 => some (.cmpiLt d a imm14)
  | 0x49 => some (.cmpiLtu d a imm14)
  | 0xF0 => some (.limm (fld w 0 24))
  | _ => none

/-- A three-operand vector form whose opcode carries its format. -/
def vDXY (f : Option Fmt) (d x y : BitVec 8) (mk : Fmt → VOp → VOp → VOp → Instr) : Option Instr := do
  let f ← f
  let d ← VOp.ofCode d
  let x ← VOp.ofCode x
  let y ← VOp.ofCode y
  return mk f d x y

/-- A two-operand vector form: the unused field must be zero (R232). -/
def vDX (f : Option Fmt) (d x y : BitVec 8) (mk : Fmt → VOp → VOp → Instr) : Option Instr := do
  let f ← f
  let d ← VOp.ofCode d
  let x ← VOp.ofCode x
  if y = 0 then return mk f d x else none

/-- A compare: the destination field is a mask (R229). -/
def vMXY (f : Option Fmt) (m x y : BitVec 8) (mk : Fmt → Fin 4 → VOp → VOp → Instr) : Option Instr := do
  let f ← f
  let m ← maskOf m
  let x ← VOp.ofCode x
  let y ← VOp.ofCode y
  return mk f m x y

/-- A unary vector form whose format stands in the F field (R232). -/
def vDXF (d x f : BitVec 8) (mk : Fmt → VOp → VOp → Instr) : Option Instr := do
  let f ← fmtOf f
  let d ← VOp.ofCode d
  let x ← VOp.ofCode x
  return mk f d x

/-- An FP32 function: F must be 0x0 (R232). -/
def vDX0 (d x f : BitVec 8) (mk : VOp → VOp → Instr) : Option Instr := do
  let d ← VOp.ofCode d
  let x ← VOp.ofCode x
  if f = 0 then return mk d x else none

/-- A conversion: the opcode names the destination format and F the source format (R232). -/
def vCvt (f : Option Fmt) (d x src : BitVec 8) (mk : Fmt → VOp → VOp → Fmt → Instr) : Option Instr := do
  let f ← f
  let s ← fmtOf src
  let d ← VOp.ofCode d
  let x ← VOp.ofCode x
  return mk f d x s

/-- The integer formats of the opcodes coded with i (R303). -/
def intFmtOf (i : BitVec 2) : Option Fmt :=
  match i.toNat with
  | 0 => some .i8 | 1 => some .i8u | 2 => some .i32 | _ => some .i32u

/-- The code i of an integer format (R303). -/
def Fmt.intCode : Fmt → BitVec 2
  | .i8 => 0 | .i8u => 1 | .i32 => 2
  | .i32u | .f32 | .bf16 | .f8a | .f8b | .f4b => 3

/-- The vector arithmetic syllable (Table 9-9), before the format rules. -/
def decodeVarFields (w : BitVec 32) : Option Instr :=
  let op : BitVec 8 := fld w 24 8
  let d : BitVec 8 := fld w 16 8
  let x : BitVec 8 := fld w 8 8
  let y : BitVec 8 := fld w 0 8
  let f := Fmt.ofCode (fld op 0 4)
  let i := intFmtOf (fld op 0 2)
  match (fld op 4 4 : BitVec 4).toNat with
  | 0x0 => zeroed (w == 0) .nop
  | 0x1 => vDXY f d x y .vadd
  | 0x2 => vDXY f d x y .vsub
  | 0x3 => vDXY f d x y .vmul
  | 0x4 => vDXY f d x y .vfma
  | 0x5 => vDXY f d x y .vfms
  | 0x6 => vDXY f d x y .vmax
  | 0x7 => vDXY f d x y .vmin
  | 0x8 => vMXY f d x y .vcmpEq
  | 0x9 => vMXY f d x y .vcmpLt
  | 0xA => vMXY f d x y .vcmpLe
  | 0xB =>
    match (fld op 2 2 : BitVec 2).toNat with
    | 0 => vDXY i d x y .vadds
    | 1 => vDXY i d x y .vand
    | 2 => vDXY i d x y .vor
    | _ => vDXY i d x y .vxor
  | 0xC =>
    match (fld op 0 4 : BitVec 4).toNat with
    | 0x8 => vDXY (some .f32) d x y fun _ => .vrotF32
    | 0x9 => vDXY (some .f32) d x y fun _ => .vrotBf16
    | 0xC => vDXY (some .f32) d x y fun _ => .vrcpstep
    | 0xD => vDXY (some .f32) d x y fun _ => .vrsqstep
    | n => if n < 4 then vDXY i d x y .vshl else if n < 8 then vDXY i d x y .vshr else none
  | 0xD => vCvt f d x y .vcvt
  | 0xE => vCvt f d x y .vcvtSat
  | _ =>
    match (fld op 0 4 : BitVec 4).toNat with
    | 0x0 => vDXF d x y .vmov
    | 0x1 => vDXF d x y .vabs
    | 0x2 => vDXF d x y .vneg
    | 0x3 => vDXF d x y .vclamp
    | 0x4 => vDXF d x y .vscale
    | 0x5 => vDX0 d x y .vexp2
    | 0x6 => vDX0 d x y .vlog2
    | 0x7 => vDX0 d x y .vrcpA
    | 0x8 => vDX0 d x y .vrsqA
    | _ => none

/-- VRAND's mode operand: X is a.lo or a.hi, anything else ILLEGAL (R322). -/
def vRand (f : Option Fmt) (d x y : BitVec 8) : Option Instr := do
  let f ← f
  let d ← VOp.ofCode d
  if y = 0 then
    if x = 0xD0 then return .vrandLatch f d
    else if x = 0xD1 then return .vrandRequest f d
    else none
  else none

/-- The vector permute syllable (Table 9-10), before the format rules. -/
def decodeVpeFields (w : BitVec 32) : Option Instr :=
  let op : BitVec 8 := fld w 24 8
  let d : BitVec 8 := fld w 16 8
  let x : BitVec 8 := fld w 8 8
  let y : BitVec 8 := fld w 0 8
  let f := Fmt.ofCode (fld op 0 4)
  match (fld op 4 4 : BitVec 4).toNat with
  | 0x0 =>
    if op = 0 then zeroed (w == 0) .nop
    else if op = 1 then
      zeroed (d == 0 && x == 0 && (fld y 2 6 : BitVec 6) == 0) (.vmask (fld y 0 2 : BitVec 2).toFin)
    else none
  | 0x1 => vDXY f d x y .vshuf
  | 0x2 => vDXY f d x y .vsel
  | 0x3 => vDX f d x y .vredSum
  | 0x4 => vDX f d x y .vredMax
  | 0x5 => vDX f d x y .vredMin
  | 0x6 => vDX f d x y .vscanSum
  | 0x7 => if f = some .f32 then vDX f d x y fun _ => .vtopk else none
  | 0x8 => vDX f d x y .vargmax
  | 0x9 => vDXY f d x y .vfind
  | 0xA => vDX f d 0xE0 y (fun f d _ => .vidx f d) >>= fun i => zeroed (x == 0) i
  | 0xB => vDX f d x y .vbcast
  | 0xC => vDXY f d x y .vpack
  | 0xD => vDX f d x y .vunpack
  | 0xE => vRand f d x y
  | _ => none

/-- The control syllable: none is ILLEGAL (R230). -/
def decodeCtl (w : BitVec 32) : Option Instr := (decodeCtlFields w).filter Instr.formOk

/-- The integer syllable: none is ILLEGAL (R231). -/
def decodeInt (w : BitVec 32) : Option Instr := (decodeIntFields w).filter Instr.formOk

/-- The vector arithmetic syllable: none is ILLEGAL (R232). -/
def decodeVar (w : BitVec 32) : Option Instr := (decodeVarFields w).filter Instr.formOk

/-- The vector permute syllable: none is ILLEGAL (R233). -/
def decodeVpe (w : BitVec 32) : Option Instr := (decodeVpeFields w).filter Instr.formOk

/-- An engine word (Tables 9-12 to 9-14): none where the class, the opcode or the modifier is refused (R236). A LOOP of
distance 0 is refused. -/
def decodeWord (w : BitVec 16) : Option Instr :=
  let m : BitVec 8 := fld w 0 8
  if (fld w 15 1 : BitVec 1) = 0 then some (.lit (fld w 0 15))
  else if (fld w 12 4 : BitVec 4) = 8 then some (.ext (fld w 0 12))
  else
    match (fld w 8 8 : BitVec 8).toNat with
    | 0x90 => zeroed (m == 0) .engineNop
    | 0x91 => zeroed (m == 0) .dup
    | 0x92 => zeroed (m == 0) .drop
    | 0x93 => zeroed (m == 0) .swap
    | 0x94 => zeroed (m == 0) .over
    | 0x95 => zeroed (m == 0) .engineAdd
    | 0x96 => zeroed ((fld m 6 2 : BitVec 2) == 0) (.sig (fld m 0 6))
    | 0x97 => zeroed ((fld m 6 2 : BitVec 2) == 0) (.waitt (fld m 0 6))
    | 0x98 => zeroed (m != 0) (.loop m)
    | 0x99 => zeroed (m == 0) .endW
    | 0xA0 => zeroed (m == 0) .lease
    | 0xA1 => zeroed (m == 0) .unlease
    | 0xA2 => zeroed ((fld m 1 7 : BitVec 7) == 0) (.wload ((fld m 0 1 : BitVec 1) == 1))
    | 0xA3 => zeroed (m == 0) .wswap
    | 0xA4 => zeroed ((fld m 1 7 : BitVec 7) == 0) (.mma ((fld m 0 1 : BitVec 1) == 1))
    | 0xA5 => zeroed (m == 0) .aclr
    | 0xA6 => zeroed ((fld m 1 7 : BitVec 7) == 0) (.xout ((fld m 0 1 : BitVec 1) == 1))
    | 0xA7 => zeroed (m == 0) .ackpt
    | 0xA8 => zeroed (m == 0) .acload
    | 0xA9 => zeroed (m == 0) .kvapp
    | 0xAA => zeroed (m == 0) .qk
    | 0xAB => zeroed (m == 0) .sv
    | 0xAC => zeroed (m == 0) .splice
    | 0xAD => zeroed (m == 0) .repair
    | 0xAE => zeroed (m == 0) .draw
    | 0xC0 => zeroed (m == 0) .get
    | 0xC1 => zeroed (m == 0) .put
    | 0xC2 => zeroed (m == 0) .getr
    | 0xC3 => zeroed (m == 0) .putr
    | 0xC4 => zeroed (m == 0) .fill
    | 0xC5 => zeroed (m == 0) .gather
    | 0xC6 => zeroed (m == 0) .scatter
    | 0xC7 => zeroed (m == 0) .publish
    | 0xC8 => zeroed (m == 0) .xfer
    | 0xC9 => zeroed (m == 0) .reduce
    | 0xE0 => zeroed (m == 0) .aqBase
    | 0xE1 => zeroed (m == 0) .aqDim
    | 0xE2 => zeroed ((fld m 2 6 : BitVec 6) == 0) (.aqEmit (fld m 0 2 : BitVec 2).toFin)
    | 0xE3 => zeroed ((fld m 2 6 : BitVec 6) == 0) (.aqDrain (fld m 0 2 : BitVec 2).toFin)
    | 0xE4 => zeroed (m == 0) .aqWait
    | _ => none

/-- A bundle as decoded: the four syllables in slot order and the stall count (R223). -/
structure Bundle where
  ctl : Option Instr
  int : Option Instr
  var : Option Instr
  vpe : Option Instr
  stall : BitVec 4
  deriving DecidableEq, Repr

/-- A 128-bit bundle: syllable k is bits 32k+31:32k (R223). -/
def decodeBundle (b : BitVec 128) : Bundle :=
  { ctl := decodeCtl (fld b 0 32), int := decodeInt (fld b 32 32), var := decodeVar (fld b 64 32),
    vpe := decodeVpe (fld b 96 32), stall := fld b 0 4 }

/-- The first syllable of a bundle that is not NOP. -/
def Bundle.first (b : Bundle) : Option Instr :=
  match b.ctl, b.int, b.var, b.vpe with
  | some .nop, some .nop, some .nop, p => p
  | some .nop, some .nop, v, _ => v
  | some .nop, i, _, _ => i
  | c, _, _, _ => c

/-- The instruction of an opcode-table word: an engine word where the row has at most 16 bits, a control syllable where it
has at most 32, else the first syllable of a bundle that is not NOP. -/
def decodeTableWord (nbits w : Nat) : Option Instr :=
  if nbits ≤ 16 then decodeWord (BitVec.ofNat 16 w)
  else if nbits ≤ 32 then decodeCtl (BitVec.ofNat 32 w)
  else (decodeBundle (BitVec.ofNat 128 w)).first

/-! The encoder. -/

/-- C.RRR (Table 9-5), stall count zero. -/
def encRRR (op : BitVec 8) (d a b f : BitVec 5) : BitVec 32 := op ++ d ++ a ++ b ++ f ++ 0#4
/-- C.RRI. -/
def encRRI (op : BitVec 8) (d a : BitVec 5) (imm : BitVec 10) : BitVec 32 := op ++ d ++ a ++ imm ++ 0#4
/-- C.RI and C.B. -/
def encRI (op : BitVec 8) (d : BitVec 5) (imm : BitVec 15) : BitVec 32 := op ++ d ++ imm ++ 0#4
/-- C.J. -/
def encJ (op : BitVec 8) (off : BitVec 20) : BitVec 32 := op ++ off ++ 0#4
/-- I.RRR. -/
def encI (op : BitVec 8) (d a b : BitVec 5) (f : BitVec 9) : BitVec 32 := op ++ d ++ a ++ b ++ f
/-- I.RRI. -/
def encII (op : BitVec 8) (d a : BitVec 5) (imm : BitVec 14) : BitVec 32 := op ++ d ++ a ++ imm
/-- The vector format. -/
def encV (op d x y : BitVec 8) : BitVec 32 := op ++ d ++ x ++ y
/-- An opcode nibble with a format code. -/
def opF (n : BitVec 4) (f : Fmt) : BitVec 8 := n ++ f.code
/-- A format field (R229). -/
def fmtField (f : Fmt) : BitVec 8 := 0#4 ++ f.code
/-- The f field of an atomic: size, a zero, scope. -/
def amoField (z : Width) (sc : Scope) : BitVec 5 := z.bit ++ 0#1 ++ sc.code
/-- The f field of an acquire, release, fence or cache operation. -/
def scField (sc : Scope) : BitVec 5 := 0#2 ++ sc.code

/-- The 32 bits of a syllable, its stall count zero; none for engine words and events. -/
def encodeSyllable : Instr → Option (BitVec 32)
  | .nop => some 0
  | .brEqz a off => some (encRI 0x01 (ofReg a) off)
  | .brNez a off => some (encRI 0x02 (ofReg a) off)
  | .brLtz a off => some (encRI 0x03 (ofReg a) off)
  | .brGez a off => some (encRI 0x04 (ofReg a) off)
  | .jmp off => some (encJ 0x05 off)
  | .call off => some (encJ 0x06 off)
  | .jmpi a => some (encRRR 0x07 0 (ofReg a) 0 0)
  | .calli a => some (encRRR 0x08 0 (ofReg a) 0 0)
  | .spawn d a b => some (encRRR 0x10 (ofReg d) (ofReg a) (ofReg b) 0)
  | .suspend a imm => some (encRRI 0x11 0 (ofReg a) imm)
  | .halt => some (encJ 0x12 0)
  | .fork set => some (encRI 0x13 0 set)
  | .rdv => some (encJ 0x14 0)
  | .launch d a => some (encRRR 0x15 (ofReg d) (ofReg a) 0 0)
  | .cancelUnit a => some (encRRI 0x16 0 (ofReg a) 0)
  | .cancelLaunch a => some (encRRI 0x16 0 (ofReg a) 1)
  | .cancelGraph a => some (encRRI 0x16 0 (ofReg a) 2)
  | .cancelPhase a => some (encRRI 0x16 0 (ofReg a) 3)
  | .cancelJob a => some (encRRI 0x16 0 (ofReg a) 4)
  | .cntAdd d a b => some (encRRR 0x17 (ofReg d) (ofReg a) (ofReg b) 0)
  | .cntWait a b => some (encRRR 0x18 0 (ofReg a) (ofReg b) 0)
  | .ldB d a imm => some (encRRI 0x20 (ofReg d) (ofReg a) imm)
  | .ldH d a imm => some (encRRI 0x21 (ofReg d) (ofReg a) imm)
  | .ldW d a imm => some (encRRI 0x22 (ofReg d) (ofReg a) imm)
  | .ldD d a imm => some (encRRI 0x23 (ofReg d) (ofReg a) imm)
  | .ldBz d a imm => some (encRRI 0x24 (ofReg d) (ofReg a) imm)
  | .ldHz d a imm => some (encRRI 0x25 (ofReg d) (ofReg a) imm)
  | .ldWz d a imm => some (encRRI 0x26 (ofReg d) (ofReg a) imm)
  | .stB d a imm => some (encRRI 0x28 (ofReg d) (ofReg a) imm)
  | .stH d a imm => some (encRRI 0x29 (ofReg d) (ofReg a) imm)
  | .stW d a imm => some (encRRI 0x2A (ofReg d) (ofReg a) imm)
  | .stD d a imm => some (encRRI 0x2B (ofReg d) (ofReg a) imm)
  | .ldcW d a imm => some (encRRI 0x2C (ofReg d) (ofReg a) imm)
  | .ldcD d a imm => some (encRRI 0x2D (ofReg d) (ofReg a) imm)
  | .ldAcqW d a sc => some (encRRR 0x30 (ofReg d) (ofReg a) 0 (scField sc))
  | .ldAcqD d a sc => some (encRRR 0x31 (ofReg d) (ofReg a) 0 (scField sc))
  | .stRelW d a sc => some (encRRR 0x32 (ofReg d) (ofReg a) 0 (scField sc))
  | .stRelD d a sc => some (encRRR 0x33 (ofReg d) (ofReg a) 0 (scField sc))
  | .qsync sc => some (encRRR 0x34 0 0 0 (scField sc))
  | .fence sc => some (encRRR 0x35 0 0 0 (scField sc))
  | .ifence => some (encJ 0x36 0)
  | .discard a sc => some (encRRR 0x37 0 (ofReg a) 0 (scField sc))
  | .flush a sc => some (encRRR 0x38 0 (ofReg a) 0 (scField sc))
  | .pref a imm => some (encRRI 0x39 0 (ofReg a) imm)
  | .amoAdd z sc d a b => some (encRRR 0x40 (ofReg d) (ofReg a) (ofReg b) (amoField z sc))
  | .amoMin z sc d a b => some (encRRR 0x41 (ofReg d) (ofReg a) (ofReg b) (amoField z sc))
  | .amoMax z sc d a b => some (encRRR 0x42 (ofReg d) (ofReg a) (ofReg b) (amoField z sc))
  | .amoMinu z sc d a b => some (encRRR 0x43 (ofReg d) (ofReg a) (ofReg b) (amoField z sc))
  | .amoMaxu z sc d a b => some (encRRR 0x44 (ofReg d) (ofReg a) (ofReg b) (amoField z sc))
  | .amoAnd z sc d a b => some (encRRR 0x45 (ofReg d) (ofReg a) (ofReg b) (amoField z sc))
  | .amoOr z sc d a b => some (encRRR 0x46 (ofReg d) (ofReg a) (ofReg b) (amoField z sc))
  | .amoXor z sc d a b => some (encRRR 0x47 (ofReg d) (ofReg a) (ofReg b) (amoField z sc))
  | .amoSwap z sc d a b => some (encRRR 0x48 (ofReg d) (ofReg a) (ofReg b) (amoField z sc))
  | .cas z sc d a b => some (encRRR 0x49 (ofReg d) (ofReg a) (ofReg b) (amoField z sc))
  | .barArr d a => some (encRRR 0x50 (ofReg d) (ofReg a) 0 0)
  | .barWait a b => some (encRRR 0x51 0 (ofReg a) (ofReg b) 0)
  | .barSync a => some (encRRR 0x52 0 (ofReg a) 0 0)
  | .flagSet a => some (encRRR 0x53 0 (ofReg a) 0 0)
  | .flagClr a => some (encRRR 0x54 0 (ofReg a) 0 0)
  | .flagWait a => some (encRRR 0x55 0 (ofReg a) 0 0)
  | .send a b => some (encRRR 0x56 0 (ofReg a) (ofReg b) 0)
  | .recv d a => some (encRRR 0x57 (ofReg d) (ofReg a) 0 0)
  | .recvPoll d a => some (encRRR 0x58 (ofReg d) (ofReg a) 0 0)
  | .runBegin d a imm => some (encRRI 0x60 (ofReg d) (ofReg a) imm)
  | .acceptEq a => some (encRRR 0x61 0 (ofReg a) 0 0)
  | .acceptTol a b => some (encRRR 0x62 0 (ofReg a) (ofReg b) 0)
  | .runCommit d a => some (encRRR 0x63 (ofReg d) (ofReg a) 0 0)
  | .runAbort a => some (encRRR 0x64 0 (ofReg a) 0 0)
  | .vsend a b => some (encRRR 0x70 0 (ofReg a) (ofReg b) 0)
  | .vfence => some (encJ 0x71 0)
  | .vstat d => some (encRRR 0x72 (ofReg d) 0 0 0)
  | .vput z d a row => some (encRRI 0x73 (ofReg d) (ofReg a) (0#3 ++ z.bit ++ BitVec.ofFin (w := 6) row))
  | .vget z d a row => some (encRRI 0x74 (ofReg d) (ofReg a) (0#3 ++ z.bit ++ BitVec.ofFin (w := 6) row))
  | .trap code => some (encRI 0x80 0 code)
  | .eret => some (encJ 0x81 0)
  | .mfs d num => some (encRI 0x82 (ofReg d) num)
  | .mts num d => some (encRI 0x83 (ofReg d) num)
  | .brk code => some (encRI 0x84 0 code)
  | .wait a => some (encRRR 0x85 0 (ofReg a) 0 0)
  | .flowReq a b => some (encRRR 0x86 0 (ofReg a) (ofReg b) 0)
  | .add d a b => some (encI 0x01 (ofReg d) (ofReg a) (ofReg b) 0)
  | .sub d a b => some (encI 0x02 (ofReg d) (ofReg a) (ofReg b) 0)
  | .mul d a b => some (encI 0x03 (ofReg d) (ofReg a) (ofReg b) 0)
  | .mulh d a b => some (encI 0x04 (ofReg d) (ofReg a) (ofReg b) 0)
  | .mulhu d a b => some (encI 0x05 (ofReg d) (ofReg a) (ofReg b) 0)
  | .div d a b => some (encI 0x06 (ofReg d) (ofReg a) (ofReg b) 0)
  | .divu d a b => some (encI 0x07 (ofReg d) (ofReg a) (ofReg b) 0)
  | .rem d a b => some (encI 0x08 (ofReg d) (ofReg a) (ofReg b) 0)
  | .remu d a b => some (encI 0x09 (ofReg d) (ofReg a) (ofReg b) 0)
  | .and d a b => some (encI 0x10 (ofReg d) (ofReg a) (ofReg b) 0)
  | .or d a b => some (encI 0x11 (ofReg d) (ofReg a) (ofReg b) 0)
  | .xor d a b => some (encI 0x12 (ofReg d) (ofReg a) (ofReg b) 0)
  | .andn d a b => some (encI 0x13 (ofReg d) (ofReg a) (ofReg b) 0)
  | .orn d a b => some (encI 0x14 (ofReg d) (ofReg a) (ofReg b) 0)
  | .shl d a b => some (encI 0x15 (ofReg d) (ofReg a) (ofReg b) 0)
  | .shr d a b => some (encI 0x16 (ofReg d) (ofReg a) (ofReg b) 0)
  | .sar d a b => some (encI 0x17 (ofReg d) (ofReg a) (ofReg b) 0)
  | .rotl d a b => some (encI 0x18 (ofReg d) (ofReg a) (ofReg b) 0)
  | .min d a b => some (encI 0x20 (ofReg d) (ofReg a) (ofReg b) 0)
  | .max d a b => some (encI 0x21 (ofReg d) (ofReg a) (ofReg b) 0)
  | .minu d a b => some (encI 0x22 (ofReg d) (ofReg a) (ofReg b) 0)
  | .maxu d a b => some (encI 0x23 (ofReg d) (ofReg a) (ofReg b) 0)
  | .cmpEq d a b => some (encI 0x25 (ofReg d) (ofReg a) (ofReg b) 0)
  | .cmpNe d a b => some (encI 0x26 (ofReg d) (ofReg a) (ofReg b) 0)
  | .cmpLt d a b => some (encI 0x27 (ofReg d) (ofReg a) (ofReg b) 0)
  | .cmpLtu d a b => some (encI 0x28 (ofReg d) (ofReg a) (ofReg b) 0)
  | .cmpLe d a b => some (encI 0x29 (ofReg d) (ofReg a) (ofReg b) 0)
  | .cmpLeu d a b => some (encI 0x2A (ofReg d) (ofReg a) (ofReg b) 0)
  | .bext d a b => some (encI 0x30 (ofReg d) (ofReg a) (ofReg b) 0)
  | .bins d a b => some (encI 0x31 (ofReg d) (ofReg a) (ofReg b) 0)
  | .clz d a => some (encI 0x19 (ofReg d) (ofReg a) 0 0)
  | .ctz d a => some (encI 0x1A (ofReg d) (ofReg a) 0 0)
  | .popc d a => some (encI 0x1B (ofReg d) (ofReg a) 0 0)
  | .sel d a b c => some (encI 0x24 (ofReg d) (ofReg a) (ofReg b) (0#4 ++ ofReg c))
  | .sext d a n => some (encI 0x32 (ofReg d) (ofReg a) 0 (0#2 ++ n))
  | .zext d a n => some (encI 0x33 (ofReg d) (ofReg a) 0 (0#2 ++ n))
  | .lea d a b sh => some (encI 0x34 (ofReg d) (ofReg a) (ofReg b) (0#6 ++ sh))
  | .mov d a => some (encI 0x35 (ofReg d) (ofReg a) 0 0)
  | .addi d a imm => some (encII 0x40 (ofReg d) (ofReg a) imm)
  | .andi d a imm => some (encII 0x41 (ofReg d) (ofReg a) imm)
  | .ori d a imm => some (encII 0x42 (ofReg d) (ofReg a) imm)
  | .xori d a imm => some (encII 0x43 (ofReg d) (ofReg a) imm)
  | .cmpiEq d a imm => some (encII 0x47 (ofReg d) (ofReg a) imm)
  | .cmpiLt d a imm => some (encII 0x48 (ofReg d) (ofReg a) imm)
  | .cmpiLtu d a imm => some (encII 0x49 (ofReg d) (ofReg a) imm)
  | .shli d a n => some (encII 0x44 (ofReg d) (ofReg a) (0#8 ++ n))
  | .shri d a n => some (encII 0x45 (ofReg d) (ofReg a) (0#8 ++ n))
  | .sari d a n => some (encII 0x46 (ofReg d) (ofReg a) (0#8 ++ n))
  | .limm imm => some (0xF0#8 ++ imm)
  | .vadd f d x y => some (encV (opF 0x1 f) d.code x.code y.code)
  | .vsub f d x y => some (encV (opF 0x2 f) d.code x.code y.code)
  | .vmul f d x y => some (encV (opF 0x3 f) d.code x.code y.code)
  | .vfma f d x y => some (encV (opF 0x4 f) d.code x.code y.code)
  | .vfms f d x y => some (encV (opF 0x5 f) d.code x.code y.code)
  | .vmax f d x y => some (encV (opF 0x6 f) d.code x.code y.code)
  | .vmin f d x y => some (encV (opF 0x7 f) d.code x.code y.code)
  | .vcmpEq f m x y => some (encV (opF 0x8 f) (0#6 ++ BitVec.ofFin (w := 2) m) x.code y.code)
  | .vcmpLt f m x y => some (encV (opF 0x9 f) (0#6 ++ BitVec.ofFin (w := 2) m) x.code y.code)
  | .vcmpLe f m x y => some (encV (opF 0xA f) (0#6 ++ BitVec.ofFin (w := 2) m) x.code y.code)
  | .vadds f d x y => some (encV (0x2C#6 ++ f.intCode) d.code x.code y.code)
  | .vand f d x y => some (encV (0x2D#6 ++ f.intCode) d.code x.code y.code)
  | .vor f d x y => some (encV (0x2E#6 ++ f.intCode) d.code x.code y.code)
  | .vxor f d x y => some (encV (0x2F#6 ++ f.intCode) d.code x.code y.code)
  | .vshl f d x y => some (encV (0x30#6 ++ f.intCode) d.code x.code y.code)
  | .vshr f d x y => some (encV (0x31#6 ++ f.intCode) d.code x.code y.code)
  | .vrotF32 d x y => some (encV 0xC8 d.code x.code y.code)
  | .vrotBf16 d x y => some (encV 0xC9 d.code x.code y.code)
  | .vrcpstep d x y => some (encV 0xCC d.code x.code y.code)
  | .vrsqstep d x y => some (encV 0xCD d.code x.code y.code)
  | .vcvt f d x src => some (encV (opF 0xD f) d.code x.code (fmtField src))
  | .vcvtSat f d x src => some (encV (opF 0xE f) d.code x.code (fmtField src))
  | .vmov f d x => some (encV 0xF0 d.code x.code (fmtField f))
  | .vabs f d x => some (encV 0xF1 d.code x.code (fmtField f))
  | .vneg f d x => some (encV 0xF2 d.code x.code (fmtField f))
  | .vclamp f d x => some (encV 0xF3 d.code x.code (fmtField f))
  | .vscale f d x => some (encV 0xF4 d.code x.code (fmtField f))
  | .vexp2 d x => some (encV 0xF5 d.code x.code 0)
  | .vlog2 d x => some (encV 0xF6 d.code x.code 0)
  | .vrcpA d x => some (encV 0xF7 d.code x.code 0)
  | .vrsqA d x => some (encV 0xF8 d.code x.code 0)
  | .vmask m => some (encV 0x01 0 0 (0#6 ++ BitVec.ofFin (w := 2) m))
  | .vshuf f d x y => some (encV (opF 0x1 f) d.code x.code y.code)
  | .vsel f d x y => some (encV (opF 0x2 f) d.code x.code y.code)
  | .vfind f d x y => some (encV (opF 0x9 f) d.code x.code y.code)
  | .vpack f d x y => some (encV (opF 0xC f) d.code x.code y.code)
  | .vredSum f d x => some (encV (opF 0x3 f) d.code x.code 0)
  | .vredMax f d x => some (encV (opF 0x4 f) d.code x.code 0)
  | .vredMin f d x => some (encV (opF 0x5 f) d.code x.code 0)
  | .vscanSum f d x => some (encV (opF 0x6 f) d.code x.code 0)
  | .vargmax f d x => some (encV (opF 0x8 f) d.code x.code 0)
  | .vbcast f d x => some (encV (opF 0xB f) d.code x.code 0)
  | .vunpack f d x => some (encV (opF 0xD f) d.code x.code 0)
  | .vtopk d x => some (encV 0x70 d.code x.code 0)
  | .vidx f d => some (encV (opF 0xA f) d.code 0 0)
  | .vrandLatch f d => some (encV (opF 0xE f) d.code 0xD0 0)
  | .vrandRequest f d => some (encV (opF 0xE f) d.code 0xD1 0)
  | _ => none

/-- The 16 bits of an engine word; none for syllables and events. -/
def encodeWord : Instr → Option (BitVec 16)
  | .lit i => some (0#1 ++ i)
  | .ext i => some (8#4 ++ i)
  | .engineNop => some ((0x90#8) ++ 0#8)
  | .dup => some ((0x91#8) ++ 0#8)
  | .drop => some ((0x92#8) ++ 0#8)
  | .swap => some ((0x93#8) ++ 0#8)
  | .over => some ((0x94#8) ++ 0#8)
  | .engineAdd => some ((0x95#8) ++ 0#8)
  | .endW => some ((0x99#8) ++ 0#8)
  | .lease => some ((0xA0#8) ++ 0#8)
  | .unlease => some ((0xA1#8) ++ 0#8)
  | .wswap => some ((0xA3#8) ++ 0#8)
  | .aclr => some ((0xA5#8) ++ 0#8)
  | .ackpt => some ((0xA7#8) ++ 0#8)
  | .acload => some ((0xA8#8) ++ 0#8)
  | .kvapp => some ((0xA9#8) ++ 0#8)
  | .qk => some ((0xAA#8) ++ 0#8)
  | .sv => some ((0xAB#8) ++ 0#8)
  | .splice => some ((0xAC#8) ++ 0#8)
  | .repair => some ((0xAD#8) ++ 0#8)
  | .draw => some ((0xAE#8) ++ 0#8)
  | .get => some ((0xC0#8) ++ 0#8)
  | .put => some ((0xC1#8) ++ 0#8)
  | .getr => some ((0xC2#8) ++ 0#8)
  | .putr => some ((0xC3#8) ++ 0#8)
  | .fill => some ((0xC4#8) ++ 0#8)
  | .gather => some ((0xC5#8) ++ 0#8)
  | .scatter => some ((0xC6#8) ++ 0#8)
  | .publish => some ((0xC7#8) ++ 0#8)
  | .xfer => some ((0xC8#8) ++ 0#8)
  | .reduce => some ((0xC9#8) ++ 0#8)
  | .aqBase => some ((0xE0#8) ++ 0#8)
  | .aqDim => some ((0xE1#8) ++ 0#8)
  | .aqWait => some ((0xE4#8) ++ 0#8)
  | .sig f => some (0x96#8 ++ 0#2 ++ f)
  | .waitt f => some (0x97#8 ++ 0#2 ++ f)
  | .loop d => some (0x98#8 ++ d)
  | .wload t => some (0xA2#8 ++ 0#7 ++ BitVec.ofBool t)
  | .mma z => some (0xA4#8 ++ 0#7 ++ BitVec.ofBool z)
  | .xout h => some (0xA6#8 ++ 0#7 ++ BitVec.ofBool h)
  | .aqEmit q => some (0xE2#8 ++ 0#6 ++ BitVec.ofFin (w := 2) q)
  | .aqDrain m => some (0xE3#8 ++ 0#6 ++ BitVec.ofFin (w := 2) m)
  | _ => none

/-- The syllable slots of a bundle (R223). -/
inductive Slot where
  | ctl | int | var | vpe
  deriving DecidableEq, Repr

/-- Decoding in a slot: the slot decides the opcode map. -/
def decodeSlot : Slot → BitVec 32 → Option Instr
  | .ctl => decodeCtl | .int => decodeInt | .var => decodeVar | .vpe => decodeVpe

/-- The slot a syllable belongs to; NOP, which every slot takes, is counted as control. -/
def slotOf : Instr → Option Slot
  | .add .. | .sub .. | .mul .. | .mulh .. | .mulhu .. | .div .. | .divu .. | .rem .. | .remu .. | .and .. | .or .. | .xor ..
  | .andn .. | .orn .. | .shl .. | .shr .. | .sar .. | .rotl .. | .clz .. | .ctz .. | .popc .. | .min .. | .max .. | .minu ..
  | .maxu .. | .sel .. | .cmpEq .. | .cmpNe .. | .cmpLt .. | .cmpLtu .. | .cmpLe .. | .cmpLeu .. | .bext .. | .bins .. | .sext ..
  | .zext .. | .lea .. | .mov .. | .addi .. | .andi .. | .ori .. | .xori .. | .shli .. | .shri .. | .sari .. | .cmpiEq ..
  | .cmpiLt .. | .cmpiLtu .. | .limm .. => some .int
  | .vadd .. | .vsub .. | .vmul .. | .vfma .. | .vfms .. | .vmax .. | .vmin .. | .vcmpEq .. | .vcmpLt .. | .vcmpLe .. | .vadds ..
  | .vand .. | .vor .. | .vxor .. | .vshl .. | .vshr .. | .vrotF32 .. | .vrotBf16 .. | .vrcpstep .. | .vrsqstep .. | .vcvt ..
  | .vcvtSat .. | .vmov .. | .vabs .. | .vneg .. | .vclamp .. | .vscale .. | .vexp2 .. | .vlog2 .. | .vrcpA .. | .vrsqA .. => some .var
  | .vmask .. | .vshuf .. | .vsel .. | .vredSum .. | .vredMax .. | .vredMin .. | .vscanSum .. | .vtopk .. | .vargmax .. | .vfind ..
  | .vidx .. | .vbcast .. | .vpack .. | .vunpack .. | .vrandLatch .. | .vrandRequest .. => some .vpe
  | i => if (encodeSyllable i).isSome then some .ctl else none

end Sys2Proof
end

