-- ==== Sys2Proof/Machine/Fp.lean ====
section
/-! DEFINITION. Exact values of floating-point codes, rounding to a format, conversions and the arithmetic that rounds once
(R44 to R55). A finite value is ± m × 2^e; every operation computes exactly and is rounded by `roundTo`. -/
namespace Sys2Proof.Machine

/-- The value of a floating-point code, or an exact result before rounding. -/
inductive FVal where
  | nan
  | inf (neg : Bool)
  | fin (neg : Bool) (m : Nat) (e : Int)
  deriving DecidableEq, Repr

/-- A floating format: significand bits with the hidden one, exponent of the subnormal spacing, exponent field bits, the code
of the largest finite value, the infinity's code if there is one, and the default NaN (R45 to R47). -/
structure FloatFmt where
  p : Nat
  emin : Int
  width : Nat
  maxCode : Nat
  infCode : Option Nat
  nanCode : Nat
  deriving DecidableEq, Repr

def f32 : FloatFmt := { p := 24, emin := -149, width := 32, maxCode := 0x7F7FFFFF, infCode := some 0x7F800000, nanCode := 0x7FC00000 }
def bf16 : FloatFmt := { p := 8, emin := -133, width := 16, maxCode := 0x7F7F, infCode := some 0x7F80, nanCode := 0x7FC0 }
def f8a : FloatFmt := { p := 4, emin := -9, width := 8, maxCode := 0x7E, infCode := none, nanCode := 0x7F }
def f8b : FloatFmt := { p := 3, emin := -16, width := 8, maxCode := 0x7B, infCode := some 0x7C, nanCode := 0x7E }

end Sys2Proof.Machine

namespace Sys2Proof
open Machine

/-- The format descriptor of a floating format; the others never reach it. -/
def Fmt.float : Fmt → FloatFmt
  | .bf16 => Machine.bf16
  | .f8a => Machine.f8a
  | .f8b => Machine.f8b
  | .f32 | .f4b | .i8 | .i8u | .i32 | .i32u => Machine.f32

end Sys2Proof

namespace Sys2Proof.Machine

/-- The value of a code (R45 to R47). -/
def FloatFmt.value (f : FloatFmt) (code : Nat) : FVal :=
  let neg := code.testBit (f.width - 1)
  let c := code % 2 ^ (f.width - 1)
  let exp := c / 2 ^ (f.p - 1)
  let frac := c % 2 ^ (f.p - 1)
  if f.infCode = some c then .inf neg
  else if f.maxCode < c then .nan
  else if exp = 0 then .fin neg frac f.emin
  else .fin neg (2 ^ (f.p - 1) + frac) (f.emin + (exp - 1 : Nat))

/-- m / 2^k to the nearest integer, ties to even. -/
def roundShift (m k : Nat) : Nat :=
  let q := m / 2 ^ k
  let r := m % 2 ^ k
  if 2 * r > 2 ^ k || (2 * r == 2 ^ k && q % 2 == 1) then q + 1 else q

/-- m × 2^e rounded to `p` significant bits, or to the spacing 2^emin where that is coarser: the integer and its exponent. -/
def roundBits (p : Nat) (emin : Int) (m : Nat) (e : Int) : Nat × Int :=
  let q := max ((Nat.log2 m : Int) + e - (p - 1 : Nat)) emin
  (if e ≤ q then roundShift m (q - e).toNat else m * 2 ^ (e - q).toNat, q)

/-- The sign bit of a format. -/
def FloatFmt.sign (f : FloatFmt) (neg : Bool) : Nat := if neg then 2 ^ (f.width - 1) else 0

/-- What an overflow or an infinity gives (R52). -/
def FloatFmt.over (f : FloatFmt) (sat neg : Bool) : Nat :=
  if sat then f.sign neg + f.maxCode
  else match f.infCode with
    | some c => f.sign neg + c
    | none => f.nanCode

/-- The code of a rounded value, with the overflow rules of R52 and the clamping of .SAT (R53). -/
def FloatFmt.roundTo (f : FloatFmt) (sat : Bool) : FVal → Nat
  | .nan => f.nanCode
  | .inf neg => f.over sat neg
  | .fin neg m e =>
    if m = 0 then f.sign neg
    else
      let (n, q) := roundBits f.p f.emin m e
      let code := (q - f.emin).toNat * 2 ^ (f.p - 1) + n
      if f.maxCode < code then f.over sat neg else f.sign neg + code

namespace FVal

/-- ± n × 2^e from a signed integer; an exact zero is +0. -/
def ofInt (n : Int) (e : Int) : FVal := .fin (decide (n < 0)) n.natAbs e
/-- The signed numerator at exponent `e`, where `e` is not above the value's own. -/
def scaled (neg : Bool) (m : Nat) (x e : Int) : Int :=
  let n : Int := ((m * 2 ^ (x - e).toNat : Nat) : Int)
  if neg then -n else n

def isNaN : FVal → Bool
  | .nan => true
  | _ => false
def isInf : FVal → Bool
  | .inf _ => true
  | _ => false
def isZero : FVal → Bool
  | .fin _ m _ => m == 0
  | _ => false
def isNeg : FVal → Bool
  | .fin n _ _ => n
  | .inf n => n
  | .nan => false
def neg : FVal → FVal
  | .nan => .nan
  | .inf n => .inf (!n)
  | .fin n m e => .fin (!n) m e
def abs : FVal → FVal
  | .nan => .nan
  | .inf _ => .inf false
  | .fin _ m e => .fin false m e

/-- Exact addition with the special-value rules of IEEE 754 (R45). -/
def add : FVal → FVal → FVal
  | .nan, _ => .nan
  | _, .nan => .nan
  | .inf a, .inf b => if a == b then .inf a else .nan
  | .inf a, .fin .. => .inf a
  | .fin .., .inf b => .inf b
  | .fin a m x, .fin b n y =>
    if m = 0 ∧ n = 0 then .fin (a && b) 0 0
    else
      let e := min x y
      ofInt (scaled a m x e + scaled b n y e) e
/-- Exact multiplication. -/
def mul : FVal → FVal → FVal
  | .nan, _ => .nan
  | _, .nan => .nan
  | .inf a, .inf b => .inf (a != b)
  | .inf a, .fin b n _ => if n = 0 then .nan else .inf (a != b)
  | .fin a m _, .inf b => if m = 0 then .nan else .inf (a != b)
  | .fin a m x, .fin b n y => .fin (a != b) (m * n) (x + y)
/-- Multiplication by a power of two. -/
def scale (k : Int) : FVal → FVal
  | .fin a m e => .fin a m (e + k)
  | v => v

/-- a < b for values that are not NaN; zeros compare equal. -/
def lt : FVal → FVal → Bool
  | .nan, _ => false
  | _, .nan => false
  | .inf a, .inf b => a && !b
  | .inf a, .fin .. => a
  | .fin .., .inf b => !b
  | .fin a m x, .fin b n y =>
    let e := min x y
    decide (scaled a m x e < scaled b n y e)
/-- Equality of values; NaN equals nothing. -/
def eq : FVal → FVal → Bool
  | .nan, _ => false
  | _, .nan => false
  | a, b => !lt a b && !lt b a
def le (a b : FVal) : Bool := lt a b || eq a b
/-- The order of VMAX and VMIN: −0 below +0 (R55). -/
def below (a b : FVal) : Bool := lt a b || (eq a b && a.isNeg && !b.isNeg)
def maxV (a b : FVal) : FVal := if a.isNaN || b.isNaN then .nan else if below a b then b else a
def minV (a b : FVal) : FVal := if a.isNaN || b.isNaN then .nan else if below b a then b else a

/-- A quotient of non-negative integers times 2^e, with every bit lost below 2^(e−k) kept as a sticky bit. -/
def quotient (neg : Bool) (num den : Nat) (k : Nat) (e : Int) : FVal :=
  let n := num * 2 ^ k
  .fin neg (2 * (n / den) + if n % den = 0 then 0 else 1) (e - k - 1)

/-- x / y, exact but for a sticky bit far below any rounding position. -/
def div : FVal → FVal → FVal
  | .nan, _ => .nan
  | _, .nan => .nan
  | .inf _, .inf _ => .nan
  | .inf a, .fin b _ _ => .inf (a != b)
  | .fin a _ _, .inf b => .fin (a != b) 0 0
  | .fin a m x, .fin b n y =>
    if n = 0 then (if m = 0 then .nan else .inf (a != b))
    else if m = 0 then .fin (a != b) 0 0
    else quotient (a != b) m n (64 + Nat.log2 n) (x - y)

/-- The nearest integer, ties to even (R53), of a finite value. -/
def nearest : FVal → Int
  | .fin neg m e =>
    let n : Int := ((if e < 0 then roundShift m (-e).toNat else m * 2 ^ e.toNat : Nat) : Int)
    if neg then -n else n
  | _ => 0

end FVal

/-! FP32 codes, as the reductions, the tiles and the attention unit use them. -/

def f32Val (c : Nat) : FVal := f32.value c
def f32Round (v : FVal) : Nat := f32.roundTo false v
def f32Add (a b : Nat) : Nat := f32Round ((f32Val a).add (f32Val b))
def f32Sub (a b : Nat) : Nat := f32Round ((f32Val a).add (f32Val b).neg)
def f32Mul (a b : Nat) : Nat := f32Round ((f32Val a).mul (f32Val b))
def f32Max (a b : Nat) : Nat := f32Round ((f32Val a).maxV (f32Val b))
def f32Min (a b : Nat) : Nat := f32Round ((f32Val a).minV (f32Val b))
def f32Div (a b : Nat) : Nat := f32Round ((f32Val a).div (f32Val b))
/-- A value taken as a result under R45: a NaN becomes the default NaN. -/
def f32Canon (a : Nat) : Nat := if (f32Val a).isNaN then f32.nanCode else a
/-- −0, the identity of sums (R56). -/
def f32NegZero : Nat := 0x80000000

/-! F4B elements and block scales (R48, R49). -/

/-- The value of an E2M1 code. -/
def e2m1 (c : Nat) : FVal :=
  let e := c / 2 % 4
  let m := c % 2
  .fin (c.testBit 3) (if e = 0 then m else (2 + m) * 2 ^ (e - 1)) (-1)
/-- The value of an E3M5 block scale. -/
def e3m5 (c : Nat) : FVal :=
  let e := c / 32 % 8
  let m := c % 32
  .fin false (if e = 0 then m else (32 + m) * 2 ^ (e - 1)) (-7)

/-- |v| × a ≤ |w| × b and |v| × a < |w| × b for finite values. -/
def magLe (v : FVal) (a : Nat) (w : FVal) (b : Nat) : Bool := (v.abs.mul (.fin false a 0)).le (w.abs.mul (.fin false b 0))
def magLt (v : FVal) (a : Nat) (w : FVal) (b : Nat) : Bool := (v.abs.mul (.fin false a 0)).lt (w.abs.mul (.fin false b 0))

/-- RoundNE_E2M1Sat(x / u) for a positive finite u (R54). -/
def toE2m1 (x u : FVal) : Nat :=
  let mag :=
    if magLe x 4 u 1 then 0 else if magLt x 4 u 3 then 1 else if magLe x 4 u 5 then 2 else if magLt x 4 u 7 then 3
    else if magLe x 4 u 10 then 4 else if magLt x 4 u 14 then 5 else if magLe x 4 u 20 then 6 else 7
  (if x.isNeg then 8 else 0) + mag

/-- The smallest E3M5 code from `c` up whose value times 6 b is not below a. -/
def scaleFrom (a b : FVal) : Nat → Nat → Nat
  | 0, c => c
  | n + 1, c => if a.le (((e3m5 c).mul b).mul (.fin false 6 0)) then c else scaleFrom a b n (c + 1)

/-- One block of eight values into F4B with band scale b: the scale code and the element codes (R54). -/
def f4bBlock (b : FVal) (xs : List FVal) : Nat × List Nat :=
  if b.isNaN || b.isInf || b.isZero || b.isNeg then (0, xs.map fun _ => 0)
  else
    let a := (xs.filter fun x => !x.isNaN).foldl (fun m x => if m.lt x.abs then x.abs else m) (.fin false 0 0)
    let s := if a.isZero then 0 else scaleFrom a b 255 0
    (s, xs.map fun x => if x.isNaN || s = 0 then 0 else toE2m1 x ((e3m5 s).mul b))

/-! Conversions (R53). -/

/-- An integer saturated to a range. -/
def clampInt (lo hi v : Int) : Int := if v < lo then lo else if hi < v then hi else v

end Sys2Proof.Machine

namespace Sys2Proof
open Machine

/-- The code of an integer in an integer format, saturated. -/
def Fmt.satInt (f : Fmt) (v : Int) : Nat :=
  let w := f.bits
  if f.isSigned then (clampInt (-(2 ^ (w - 1) : Nat)) ((2 ^ (w - 1) : Nat) - 1) v % (2 ^ w : Nat)).toNat
  else (clampInt 0 ((2 ^ w : Nat) - 1) v).toNat
/-- The integer of a code. -/
def Fmt.intOf (f : Fmt) (c : Nat) : Int :=
  if f.isSigned && c.testBit (f.bits - 1) then (c : Int) - (2 ^ f.bits : Nat) else c
/-- The value of an element code of a format other than F4B. -/
def Fmt.value (f : Fmt) (c : Nat) : FVal := if f.isInt then .ofInt (f.intOf c) 0 else f.float.value c
/-- A floating value to an integer format: rounded, then saturated; NaN gives 0. -/
def Fmt.ofFloat (f : Fmt) : FVal → Nat
  | .nan => 0
  | .inf neg => f.satInt (if neg then -(2 ^ 40 : Nat) else (2 ^ 40 : Nat))
  | v => f.satInt v.nearest

end Sys2Proof

namespace Sys2Proof.Machine

/-- VCVT of one element between formats other than F4B; `src` is floating or integer (Table 2-3). -/
def cvtElem (dst src : Fmt) (sat : Bool) (c : Nat) : Nat :=
  if dst.isInt then (if src.isInt then dst.satInt (src.intOf c) else dst.ofFloat (src.value c))
  else dst.float.roundTo sat (src.value c)

/-! Random numbers (R67). -/
def mix32 (x : BitVec 32) : BitVec 32 :=
  let x := x ^^^ (x >>> 16)
  let x := x * 0x7FEB352D
  let x := x ^^^ (x >>> 15)
  let x := x * 0x846CA68B
  x ^^^ (x >>> 16)
/-- D(k, c). -/
def draw32 (key ctr : Word) : BitVec 32 :=
  let k0 := key.setWidth 32
  let k1 := (key >>> 32).setWidth 32
  let c0 := ctr.setWidth 32
  let c1 := (ctr >>> 32).setWidth 32
  mix32 (mix32 (c0 ^^^ k0) ^^^ c1 ^^^ k1)
/-- u, as an FP32 code. -/
def uniform (d : BitVec 32) : Nat := f32Round (.fin false (d.toNat / 256) (-24))

end Sys2Proof.Machine
end

