-- ==== Sys2Proof/Machine/FpFun.lean ====
section
/-! DEFINITION. The reduction tree and the scan, exponential, logarithm, reciprocal and reciprocal square root with their
Newton steps, the exponent histogram and the top-p rule (R56, R57, R63 to R70). The exponential and the logarithm are
evaluated with 160 and 192 fractional bits before their one rounding: see log 13. -/
namespace Sys2Proof.Machine

/-- One level of the reduction tree (R56). -/
def treeLevel {α : Type} (op : α → α → α) : List α → List α
  | a :: b :: l => op a b :: treeLevel op l
  | l => l
/-- The levels of the tree, at most `n` of them. -/
def treeFrom {α : Type} (op : α → α → α) : Nat → List α → List α
  | 0, l => l
  | n + 1, l => treeFrom op n (treeLevel op l)
/-- Tree(x, n, op) (R56). -/
def tree {α : Type} (op : α → α → α) (d : α) (l : List α) : α := (treeFrom op (ceilLog2 l.length) l).headD d
/-- The scan of FP32 codes from a running sum (R57). -/
def scanFrom (add : Nat → Nat → Nat) (acc : Nat) : List Nat → List Nat
  | [] => []
  | x :: l => add acc x :: scanFrom add (add acc x) l
/-- VSCAN.SUM over FP32 codes (R57). -/
def scanF32 : List Nat → List Nat
  | [] => []
  | x :: l => f32Canon x :: scanFrom f32Add (f32Canon x) l

/-- ln 2 × 2^192. -/
def ln2 : Nat := 4350955369971217654477563090224794165364344896676135745069

/-- Σ y^n / n! for a fixed-point y with 160 fractional bits, from term `t` of index `i`. -/
def expTerms (y : Nat) : Nat → Nat → Nat → Nat
  | 0, _, _ => 0
  | f + 1, i, t => t + expTerms y f (i + 1) (t * y / 2 ^ 160 / (i + 1))
/-- 2^x correctly rounded, for a finite x that is not an integer and lies between −150 and 128. `n` is x × 2^160. -/
def exp2Value (n : Int) : FVal :=
  let i := n / (2 ^ 160 : Nat)
  let f := (n % (2 ^ 160 : Nat)).toNat
  let v := expTerms (f * ln2 / 2 ^ 192) 48 0 (2 ^ 160)
  .fin false (2 * v + 1) (i - 161)
/-- VEXP2 of an FP32 code (R63, Table 2-5). -/
def exp2F32 (c : Nat) : Nat :=
  match f32Val c with
  | .nan => f32.nanCode
  | .inf neg => if neg then 0 else 0x7F800000
  | .fin neg m e =>
    let n : Int := FVal.scaled neg m e (-160)
    let one : Int := (2 ^ 160 : Nat)
    if n ≤ -150 * one then 0
    else if 128 * one ≤ n then 0x7F800000
    else if n % one = 0 then f32Round (.fin false 1 (n / one))
    else f32Round (exp2Value n)

/-- Σ z^(2k+1) / (2k+1) for a fixed-point z with 192 fractional bits. -/
def atanhTerms (zz : Nat) : Nat → Nat → Nat → Nat
  | 0, _, _ => 0
  | f + 1, k, t => t / (2 * k + 1) + atanhTerms zz f (k + 1) (t * zz / 2 ^ 192)
/-- log2(m × 2^e) × 2^192 for m ≥ 1, rounded down within a few units. -/
def log2Fixed (m : Nat) (e : Int) : Int :=
  let l := Nat.log2 m
  let z := (m - 2 ^ l) * 2 ^ 192 / (m + 2 ^ l)
  let ln := 2 * atanhTerms (z * z / 2 ^ 192) 64 0 z
  (e + l) * (2 ^ 192 : Nat) + (ln * 2 ^ 192 / ln2 : Nat)
/-- VLOG2 of an FP32 code (R63, Table 2-5). -/
def log2F32 (c : Nat) : Nat :=
  match f32Val c with
  | .nan => f32.nanCode
  | .inf neg => if neg then f32.nanCode else 0x7F800000
  | .fin neg m e =>
    if m = 0 then 0xFF800000
    else if neg then f32.nanCode
    else if m = 2 ^ Nat.log2 m then f32Round (.ofInt (e + Nat.log2 m) 0)
    else
      let v := log2Fixed m e
      f32Round (.fin (decide (v < 0)) (2 * v.natAbs + 1) (-193))

/-- A value rounded to 12 significant bits and placed in FP32 (R64). -/
def approx12 : FVal → Nat
  | .fin neg m e =>
    if m = 0 then f32.sign neg
    else
      let (n, q) := roundBits 12 (-149) m e
      f32Round (.fin neg n q)
  | v => f32Round v
/-- VRCP.A (R64). -/
def rcpApprox (c : Nat) : Nat :=
  match f32Val c with
  | .fin neg m e => if m = 0 then f32Round (.inf neg) else approx12 ((FVal.fin false 1 0).div (.fin neg m e))
  | .inf neg => f32.sign neg
  | .nan => f32.nanCode
/-- The integer square root, bit by bit from bit `i` − 1 down. -/
def isqrtFrom (n : Nat) : Nat → Nat → Nat
  | 0, r => r
  | i + 1, r => isqrtFrom n i (if (r + 2 ^ i) * (r + 2 ^ i) ≤ n then r + 2 ^ i else r)
/-- VRSQ.A (R64). -/
def rsqApprox (c : Nat) : Nat :=
  match f32Val c with
  | .nan => f32.nanCode
  | .inf neg => if neg then f32.nanCode else 0
  | .fin neg m e =>
    if m = 0 then f32Round (.inf neg)
    else if neg then f32.nanCode
    else
      let (m, e) := if e % 2 = 0 then (m, e) else (2 * m, e - 1)
      let r := isqrtFrom (2 ^ 120 / m) 61 0
      approx12 (.fin false (2 * r + if r * r * m = 2 ^ 120 then 0 else 1) (-(e / 2) - 61))
/-- VRCPSTEP and VRSQSTEP of FP32 codes (R65). -/
def stepF32 (rsq : Bool) (x y : Nat) : Nat :=
  let xv := f32Val x
  let yv := f32Val y
  if yv.isNaN then f32.nanCode
  else if yv.isZero || yv.isInf then y
  else if xv.isNaN then f32.nanCode
  else if rsq then f32Round ((yv.mul ((FVal.fin false 3 0).add ((xv.mul yv).mul yv).neg)).scale (-1))
  else f32Round (yv.mul ((FVal.fin false 2 0).add (xv.mul yv).neg))

/-- The histogram bin of an FP32 code (R66). -/
def histBin (c : Nat) : Nat :=
  let e := c / 2 ^ 23 % 256
  if c % 2 ^ 31 = 0 then 0
  else if e = 255 then 31
  else if e ≤ 112 then 1
  else if 141 ≤ e then 30
  else e + 16 - 127

/-! Candidates: a value and its index (R69, R308, R311). -/

/-- Places a candidate in a list sorted by value descending, ties by ascending index. -/
def insertCand (better : Nat × Nat → Nat × Nat → Bool) (x : Nat × Nat) : List (Nat × Nat) → List (Nat × Nat)
  | [] => [x]
  | y :: l => if better x y then x :: y :: l else y :: insertCand better x l
/-- Sorted by FP32 value descending, ties by ascending index; −0 equals +0. -/
def sortCands (l : List (Nat × Nat)) : List (Nat × Nat) :=
  l.foldl (fun acc x => insertCand (fun a b =>
    (f32Val b.1).lt (f32Val a.1) || (!(f32Val a.1).lt (f32Val b.1) && decide (a.2 < b.2))) x acc) []

/-- The top-p rule (R69) over (probability, token) pairs; the answer is m and the chosen pair. -/
def topP (q : List (Nat × Nat)) (p u : Nat) : Nat × (Nat × Nat) :=
  let q := q.map fun x => if (f32Val x.1).isNaN || (f32Val x.1).lt (.fin false 0 0) then (0, x.2) else x
  let order := sortCands q
  let cum := scanF32 (order.map (·.1))
  let pv := f32Val p
  let m := match cum.findIdx? fun c => pv.le (f32Val c) with
    | some i => i + 1
    | none => order.length
  let t := f32Mul u (cum.getD (m - 1) 0)
  match (cum.take m).findIdx? fun c => (f32Val t).lt (f32Val c) with
  | some i => (m, order.getD i (0, 0))
  | none => (m, order.headD (0, 0))

/-- The probabilities that the draw unit computes from logits (R70). -/
def softmax (x : List Nat) : List Nat :=
  let mx := tree f32Max 0 x
  let es := x.map fun v => exp2F32 (f32Mul (f32Sub v mx) 0x3FB8AA3B)
  let z := tree f32Add 0 es
  if (f32Val z).isNaN || (f32Val z).isZero then x.map fun _ => 0 else es.map fun e => f32Div e z

/-! The rotary angles of a key load (R345), evaluated with 320 fractional bits before their one rounding: see log 13. -/

/-- 2 π × 2^320. -/
def twoPi : Nat :=
  13420802360424337830311681948440006481608388178854297901454212848703426437343610760199000777828079
/-- 2^(−j/4) × 2^320 for j from 0 to 3. -/
def quarterPow (j : Nat) : Nat :=
  let half := isqrtFrom (2 ^ 639) 321 0
  let quarter := isqrtFrom (2 ^ 320 * half) 321 0
  match j with
  | 0 => 2 ^ 320
  | 1 => quarter
  | 2 => half
  | _ => half * quarter / 2 ^ 320
/-- The alternating series of the cosine or the sine from the term `t` of degree `k`. -/
def trigTerms (xx : Nat) : Nat → Nat → Nat → Int
  | 0, _, _ => 0
  | f + 1, k, t => (t : Int) - trigTerms xx f (k + 2) (t * xx / 2 ^ 320 / ((k + 1) * (k + 2)))
/-- cs and sn of position `pos` and pair `m` as FP32 codes. -/
def cosSin (pos m : Nat) : Nat × Nat :=
  if pos = 0 then (0x3F800000, 0)
  else
    let x := pos * quarterPow (m % 4) / 2 ^ (m / 4) % twoPi
    let xx := x * x / 2 ^ 320
    let code := fun (v : Int) => f32Round (.fin (decide (v < 0)) (2 * v.natAbs + 1) (-321))
    (code (trigTerms xx 64 0 (2 ^ 320)), code (trigTerms xx 64 1 x))

end Sys2Proof.Machine
end

