-- ==== Sys2Proof/Machine/Cipher.lean ====
section
/-! DEFINITION. AES-256 and its XTS mode over one 64-byte line (R123), as FIPS 197 and IEEE 1619 define them. A block is a
list of 16 bytes in memory order. -/
namespace Sys2Proof.Machine

/-! The field of AES: bytes modulo x^8 + x^4 + x^3 + x + 1. -/

/-- Doubling. -/
def gfDouble (b : Byte) : Byte := (b <<< 1) ^^^ (if b.getLsbD 7 then 0x1B else 0)
/-- Product, over the low `n` bits of the second factor. -/
def gfMulBits : Nat → Byte → Byte → Byte
  | 0, _, _ => 0
  | n + 1, a, b => (if b.getLsbD 0 then a else 0) ^^^ gfMulBits n (gfDouble a) (b >>> 1)
def gfMul (a b : Byte) : Byte := gfMulBits 8 a b
/-- Inverse: the 254th power, zero for zero. -/
def gfInv (a : Byte) : Byte :=
  let a2 := gfMul a a
  let a3 := gfMul a2 a
  let a6 := gfMul a3 a3
  let a12 := gfMul a6 a6
  let a15 := gfMul a12 a3
  let a30 := gfMul a15 a15
  let a60 := gfMul a30 a30
  let a120 := gfMul a60 a60
  let a126 := gfMul a120 a6
  let a127 := gfMul a126 a
  gfMul a127 a127
/-- The S-box and its inverse. -/
def sBox (a : Byte) : Byte :=
  let b := gfInv a
  b ^^^ b.rotateLeft 1 ^^^ b.rotateLeft 2 ^^^ b.rotateLeft 3 ^^^ b.rotateLeft 4 ^^^ 0x63
def sBoxInv (a : Byte) : Byte := gfInv (a.rotateLeft 1 ^^^ a.rotateLeft 3 ^^^ a.rotateLeft 6 ^^^ 0x05)

/-! Rounds. -/

/-- Sum of two blocks. -/
def xorBytes (a b : List Byte) : List Byte := List.zipWith (· ^^^ ·) a b
/-- Rows shifted left by `k` times their number of places. -/
def shiftRows (k : Nat) (b : List Byte) : List Byte :=
  (List.range 16).map fun i => b.getD (i % 4 + 4 * ((i / 4 + k * (i % 4)) % 4)) 0
/-- Every column multiplied by the circulant matrix of four coefficients. -/
def mixColumns (m : List Byte) (b : List Byte) : List Byte :=
  (List.range 16).map fun i => (List.range 4).foldl
    (fun x j => x ^^^ gfMul (m.getD j 0) (b.getD (i / 4 * 4 + (i % 4 + j) % 4) 0)) 0
/-- Words 8 to 59 of the key schedule, added in front of the words so far, latest first. -/
def expandKey : Nat → Nat → List (List Byte) → List (List Byte)
  | 0, _, ws => ws
  | n + 1, i, ws =>
    let t := ws.headD []
    let t := if i % 8 = 0 then
        xorBytes ((t.drop 1 ++ t.take 1).map sBox) [(List.range (i / 8 - 1)).foldl (fun r _ => gfDouble r) 1, 0, 0, 0]
      else if i % 8 = 4 then t.map sBox else t
    expandKey n (i + 1) (xorBytes (ws.getD 7 []) t :: ws)
/-- The fifteen round keys of a 32-byte key. -/
def roundKeys (key : List Byte) : List (List Byte) :=
  let ws := (expandKey 52 8 ((List.range 8).map fun i => (key.drop (4 * i)).take 4).reverse).reverse
  (List.range 15).map fun r => ((ws.drop (4 * r)).take 4).flatten

/-- AES-256 of one block. -/
def aesEncrypt (key block : List Byte) : List Byte :=
  let ks := roundKeys key
  let mid := (List.range 13).foldl
    (fun b r => xorBytes (mixColumns [2, 3, 1, 1] (shiftRows 1 (b.map sBox))) (ks.getD (r + 1) [])) (xorBytes block (ks.headD []))
  xorBytes (shiftRows 1 (mid.map sBox)) (ks.getD 14 [])
/-- Its inverse. -/
def aesDecrypt (key block : List Byte) : List Byte :=
  let ks := roundKeys key
  let mid := (List.range 13).foldl
    (fun b r => mixColumns [14, 11, 13, 9] (xorBytes ((shiftRows 3 b).map sBoxInv) (ks.getD (13 - r) [])))
    (xorBytes block (ks.getD 14 []))
  xorBytes ((shiftRows 3 mid).map sBoxInv) (ks.headD [])

/-! XTS. -/

/-- Multiplication of a 128-bit tweak, lowest byte first, by the primitive element. -/
def tweakDouble (t : List Byte) : List Byte :=
  let n := natOfBytes t
  bytesOfNat 16 ((2 * n % 2 ^ 128) ^^^ (if n < 2 ^ 127 then 0 else 0x87))
/-- The tweak of block `j` of data unit `unit`. -/
def tweakAt (key : List Byte) (unit j : Nat) : List Byte :=
  (List.range j).foldl (fun t _ => tweakDouble t) (aesEncrypt (key.drop 32) (bytesOfNat 16 unit))
def xtsEncrypt (key : List Byte) (unit j : Nat) (block : List Byte) : List Byte :=
  let t := tweakAt key unit j
  xorBytes (aesEncrypt (key.take 32) (xorBytes block t)) t
def xtsDecrypt (key : List Byte) (unit j : Nat) (block : List Byte) : List Byte :=
  let t := tweakAt key unit j
  xorBytes (aesDecrypt (key.take 32) (xorBytes block t)) t

end Sys2Proof.Machine
end

