-- ==== Sys2Proof/Machine/Mem.lean ====
section
/-! DEFINITION. The physical address map, the memory homes with their key slots, the L2s with their directories, and the L1s
(R94 to R112, R123, R124, R129, R216). -/
namespace Sys2Proof.Machine

/-! The address map (Table 4-1). -/

/-- The region of a physical address. -/
inductive Region where
  | bank (col off : Nat)
  | under (stack off : Nat)
  | table (off : Nat)
  | cxl
  | peer (p off : Nat)
  | hole
  deriving DecidableEq, Repr

/-- The column-view address of a spread-view offset (R97). -/
def spreadToColumn (d : Nat) : Nat :=
  let c := d / 65536
  c % 4096 * 2 ^ 27 + (c / 4096 * 65536 + d % 65536)

/-- The address that caches, directories and tweaks name (R96): the spread view goes to the column view. -/
def canon (pa : Nat) : Nat :=
  if 0x18000000000 ≤ pa ∧ pa < 0x18000000000 + 384 * 2 ^ 30 then spreadToColumn (pa - 0x18000000000) else pa

/-- Region 0 below 2^40: the column view and the underdeck. -/
def lowRegion (pa : Nat) : Region :=
  if pa < 2 ^ 39 then (if pa % 2 ^ 27 < 96 * 2 ^ 20 then .bank (pa / 2 ^ 27) (pa % 2 ^ 27) else .hole)
  else if pa < 2 ^ 39 + 2 ^ 32 then .under ((pa - 2 ^ 39) / 2 ^ 30) ((pa - 2 ^ 39) % 2 ^ 30)
  else .hole

/-- The region of an address in canonical form; windows and peers are checked by `inHole`. -/
def region (pa : Nat) : Region :=
  if pa < 2 ^ 40 then lowRegion pa
  else if 0x80000000000 ≤ pa ∧ pa < 0x80000000000 + 2 ^ 32 then .table (pa - 0x80000000000)
  else if 0x100000000000 ≤ pa ∧ pa < 0x400000000000 then .cxl
  else if 0x400000000000 ≤ pa ∧ pa < 0x800000000000 then .peer ((pa - 0x400000000000) / 2 ^ 40) (pa % 2 ^ 40)
  else .hole

/-- The extents of Table 7-1 within the device table region. -/
def tableExtents : List (Nat × Nat) :=
  [(0, 0x3000), (0x4000, 0x5000), (0x10000, 0x21000), (0x30000, 0x32000), (0x40000, 0x80000), (0x100000, 0x140000)]

/-- Does a range lie in bank memory's column view or the underdeck, without crossing a hole? -/
def lowRangeOk (base size : Nat) : Bool :=
  if base + size ≤ 2 ^ 39 then base / 2 ^ 27 == (base + size - 1) / 2 ^ 27 && decide (base % 2 ^ 27 + size ≤ 96 * 2 ^ 20)
  else decide (2 ^ 39 ≤ base) && decide (base + size ≤ 2 ^ 39 + 2 ^ 32)

/-- Is there a package at each of some places of the domain, this one or a peer? -/
def State.inDomain (s : State) (qs : List Nat) : Bool := qs.all fun q => q == s.pkg || s.peers.contains q
/-- The package past an edge of a package of the domain, none at the domain's border: 0 north, 1 east, 2 south, 3 west (R405, R406). -/
def beyond (q d : Nat) : Option Nat :=
  match d with
  | 0 => if 8 ≤ q then some (q - 8) else none
  | 1 => if q % 8 < 7 then some (q + 1) else none
  | 2 => if q < 56 then some (q + 8) else none
  | _ => if q % 8 = 0 then none else some (q - 1)
/-- Is the link at an edge of a package up (R407)? -/
def State.linkUp (s : State) (q d : Nat) : Bool :=
  if q = s.pkg then vget false s.links d
  else match beyond q d with
    | none => false
    | some n => if n = s.pkg then vget false s.links ((d + 2) % 4) else !s.farDown.contains (min q n, d % 2 == 0)
/-- The places from one up or down to another, the last left out. -/
def upTo (a b : Nat) : List Nat :=
  if a ≤ b then (List.range (b - a)).map (a + ·) else (List.range (a - b)).map (a - ·)
/-- The way to a package of the domain (R406, R407), along the domain row first or along the domain column first: each package that is left and
the edge by which it is left. -/
def State.route (s : State) (p : Nat) (rowFirst : Bool) : List (Nat × Nat) :=
  let (r, c) := (s.pkg / 8, s.pkg % 8)
  let row := fun r => (upTo c (p % 8)).map fun x => (r * 8 + x, if c < p % 8 then 1 else 3)
  let col := fun c => (upTo r (p / 8)).map fun y => (y * 8 + c, if r < p / 8 then 2 else 0)
  if rowFirst then row r ++ col (p % 8) else col c ++ row (p / 8)
/-- Is every link of a way up, and a package at every place of it? -/
def State.routeUp (s : State) (p : Nat) (rowFirst : Bool) : Bool :=
  (s.route p rowFirst).all fun h => s.linkUp h.1 h.2 && s.inDomain [h.1]
/-- Does a route remain to a package of the domain (R406, R407)? It goes along the domain row first or along the domain column first
(DEDUCED, log 18: R407 names no other). -/
def State.reaches (s : State) (p : Nat) : Bool := s.peers.contains p && [true, false].any fun w => s.routeUp p w

/-- Does a store-queue entry store? -/
def SqKind.stores : SqKind → Bool
  | .store | .release _ => true
  | .flush _ | .discard _ => false

/-! The queues of the Tazal links (R164). What reaches this package over a link comes as an event of its peer, whose queues are its
own. -/

/-- The classes in their order of priority (Table 6-5). -/
def LinkClass.order : List LinkClass := [.sums, .rows, .responses, .requests, .collectives]
/-- The depth of a class's queue: rows of 256 bytes for the first two, else entries (Table 6-5). -/
def LinkClass.depth : LinkClass → Nat
  | .sums | .rows => 4
  | .responses | .requests => 32
  | .collectives => 16

namespace State

/-- The edge over which traffic to a package leaves: along the domain row first, else column first (R406, R407). -/
def edgeTo (s : State) (p : Nat) : Nat := (((s.route p (s.routeUp p true)).head?).map (·.2)).getD 0
/-- How much of a class waits at an edge. -/
def linkCount (s : State) (edge : Nat) (c : LinkClass) : Nat := s.linkq.count (edge, c)
/-- Has the queue of a class room? -/
def linkRoom (s : State) (edge : Nat) (c : LinkClass) : Bool := decide (s.linkCount edge c < c.depth)
/-- An entry joins a queue. -/
def linkPush (s : State) (edge : Nat) (c : LinkClass) : State := { s with linkq := s.linkq ++ [(edge, c)] }
/-- Has the way to the package that holds an address room for a far request? Every address of this package has. -/
def farRoom (s : State) (pa : Nat) : Bool :=
  match region pa with
  | .peer p _ => s.linkRoom (s.edgeTo p) .requests
  | _ => true
/-- The far request of an access joins its queue; where that is full, the access has waited inside its turn for an entry to leave. -/
def farSend (s : State) (pa : Nat) : State :=
  match region pa with
  | .peer p _ => if s.linkRoom (s.edgeTo p) .requests then s.linkPush (s.edgeTo p) .requests else s
  | _ => s
/-- A link sends the oldest entry of the first class that has one, against a credit of the receiver. -/
def linkSend (s : State) (edge : Nat) : State :=
  match LinkClass.order.find? fun c => s.linkq.contains (edge, c) with
  | none => s
  | some c => { s with linkq := s.linkq.erase (edge, c) }
/-- What passes the depths of the queues leaves. -/
def linkTrim (s : State) : State :=
  { s with linkq := s.linkq.foldl (fun l e => if l.count e < e.2.depth then l ++ [e] else l) [] }
/-- The edges over which traffic to the peers of the domain leaves. -/
def peerEdges (s : State) : List Nat := (List.range 4).filter fun e => s.peers.any fun p => s.reaches p && s.edgeTo p == e

end State

/-- The far-memory window that holds an address (R401). -/
def State.windowAt (s : State) (pa : Nat) : Option Window :=
  (s.windows.filterMap (·.2)).find? fun w => w.dev ≤ pa && pa < w.dev + w.size

/-- Does a frame lie wholly or partly in a hole (R95)? -/
def State.inHole (s : State) (base size : Nat) : Bool :=
  if base < 2 ^ 40 then !lowRangeOk base size
  else if 0x18000000000 ≤ base ∧ base + size ≤ 0x18000000000 + 384 * 2 ^ 30 then false
  else
    match region base with
    | .table off => !(tableExtents.any fun e => e.1 ≤ off && off + size ≤ e.2)
    | .cxl => !((List.range (ceilDiv size (2 ^ 30))).all fun i =>
        (s.windowAt (base + i * 2 ^ 30)).isSome && (s.windowAt (min (base + i * 2 ^ 30 + 2 ^ 30) (base + size) - 1)).isSome)
    | .peer p off => p == s.pkg || !s.peers.contains p || !lowRangeOk off size
    | _ => true

/-- Column view or underdeck of this package, where page tables and queues must lie (R116, R125). -/
def isLow (pa : Nat) : Bool :=
  match lowRegion pa with
  | .bank _ _ => decide (pa < 2 ^ 39)
  | .under _ _ => true
  | _ => false

/-! Lines as bytes. -/

/-- The bits of the bytes that a byte mask names. -/
def expand (m : BitVec 64) : BitVec 512 :=
  BitVec.ofNat 512 (natOfBytes ((List.range 64).map fun i => if m.getLsbD i then 255 else 0))

/-- The bytes of `new` where the mask is set, else those of `old`. -/
def mergeLine (old new : BitVec 512) (m : BitVec 64) : BitVec 512 := (old &&& ~~~expand m) ||| (new &&& expand m)

/-- The mask of bytes off … off + size − 1 of a line. -/
def byteMask (off size : Nat) : BitVec 64 := BitVec.ofNat 64 ((2 ^ size - 1) * 2 ^ off)

/-! The homes. -/

/-- The byte that an address's home stores. -/
def State.homeRaw (s : State) (pa : Nat) : Byte :=
  match region pa with
  | .cxl => match s.windowAt pa with
    | some w => s.host.get (w.host + (pa - w.dev))
    | none => 0
  | _ => s.mem.get pa

/-- The key that a slot holds: slot 0 holds none (R123), and a slot that has been released holds a fresh one (R124). -/
def State.keyNo (s : State) (slot : Nat) : Nat := if slot = 0 then 0 else slot + 128 * assocGet 0 s.keyGen slot
/-- What reading under key `r` makes of a 16-byte cipher block written under key `w` (R124). The tweak is bits 51:6 of the
line's address at its home (R123); key 0 stands for no key. -/
def recrypt (w r pa : Nat) (block : List Byte) : List Byte :=
  if w = r then block
  else
    let unit := pa % 2 ^ 40 / 64
    let j := pa / 16 % 4
    let stored := if w = 0 then block else xtsEncrypt (bytesOfBV 64 (Config.slotKey w)) unit j block
    if r = 0 then stored else xtsDecrypt (bytesOfBV 64 (Config.slotKey r)) unit j stored
/-- Is memory at an address encrypted? Bank memory and underdecks are, at their home (R123); a host's memory is not. -/
def encrypted (pa : Nat) : Bool :=
  match region pa with
  | .bank _ _ | .under _ _ | .peer _ _ => true
  | _ => false
/-- A byte read at its home with a key slot (R123, R124). A cipher block that the dealer zeroed and nobody has written reads as
zero under every slot (R11). -/
def State.homeByte (s : State) (key pa : Nat) : Byte :=
  if !encrypted pa then s.homeRaw pa
  else match assocGet 0 s.blockKey (pa / 16) with
    | 0 => s.mem.get pa
    | w + 1 =>
      if w = s.keyNo key then s.mem.get pa
      else (recrypt w (s.keyNo key) (pa / 16 * 16) (s.mem.bytes (pa / 16 * 16) 16)).getD (pa % 16) 0

/-- Bytes read at home. -/
def State.homeBytes (s : State) (key pa : Nat) : Nat → List Byte
  | 0 => []
  | n + 1 => s.homeByte key pa :: s.homeBytes key (pa + 1) n

/-- A 64-byte line read at home. -/
def State.homeLine (s : State) (key line : Nat) : BitVec 512 :=
  BitVec.ofNat 512 (natOfBytes (s.homeBytes key (line * 64) 64))

/-- Column-offset range that a latch record was loaded from (Table 13-5). -/
def LatchSrc.range : LatchSrc → List (Nat × Nat)
  | .none => []
  | .weight off fmt _ idx =>
    (off, match fmt.toNat with | 4 => 2560 | 1 => 8192 | _ => 4096) ::
      if fmt = 4 then [(0x5FF0000 + 2 * idx, 2)] else []
  | .kv page _ _ chunk _ value => [(page * 65536 + (if value then 16384 else 0) + 8192 * chunk, 8192)]

/-- Marks a latch record that a write to `off` changes (R377). -/
def LatchRec.touch (r : LatchRec) (off : Nat) : LatchRec :=
  if r.src.range.any fun e => e.1 / 64 ≤ off / 64 && off / 64 ≤ (e.1 + e.2 - 1) / 64 then { r with changed := true } else r

/-- The column controller sees every write to its bank memory (R98, R377). -/
def State.touchCol (s : State) (pa : Nat) : State :=
  match region pa with
  | .bank c off =>
    let x := s.col c
    if x.frontRec.src = .none ∧ x.backRec.src = .none then s
    else s.setCol c { x with frontRec := x.frontRec.touch off, backRec := x.backRec.touch off }
  | _ => s

/-- A cipher block takes the key of a slot before a write of some of its bytes: the others are what that key reads of them. -/
def State.rekey (s : State) (key block : Nat) : State :=
  let k := s.keyNo key
  match assocGet 0 s.blockKey block with
  | 0 => { s with blockKey := assocSet s.blockKey block (k + 1) }
  | w + 1 =>
    if w = k then s
    else { s with mem := s.mem.putBytes (block * 16) (recrypt w k (block * 16) (s.mem.bytes (block * 16) 16)),
                  blockKey := assocSet s.blockKey block (k + 1) }

/-- Writes bytes of one line at its home. The line's other cipher blocks keep their ciphertext. -/
def State.homeWriteLine (s : State) (key pa : Nat) (bs : List Byte) : State :=
  if encrypted pa then
    let s := (List.range ((pa + bs.length - 1) / 16 - pa / 16 + 1)).foldl (fun t i => t.rekey key (pa / 16 + i)) s
    { s with mem := s.mem.putBytes pa bs }.touchCol pa
  else match region pa with
  | .cxl => match s.windowAt pa with
    | some w => { s with host := s.host.putBytes (w.host + (pa - w.dev)) bs }
    | none => s
  | _ => { s with mem := s.mem.putBytes pa bs }

/-- Writes the masked bytes of a line at its home. -/
def State.homeWriteMask (s : State) (key line : Nat) (data : BitVec 512) (m : BitVec 64) : State :=
  (List.range 64).foldl
    (fun s i => if m.getLsbD i then s.homeWriteLine key (line * 64 + i) [byteAt data i] else s) s

/-! Charging (R216). -/

/-- Counts an event for a partition. -/
def State.charge (s : State) (p : Nat) (f : Stats → Stats) : State := s.modPart p fun q => { q with stats := f q.stats }

/-- A hit by a partition other than the one recorded. -/
def State.chargeHit (s : State) (owner p : Nat) : State :=
  if owner = p then s
  else (s.charge owner fun t => { t with shared := t.shared + 1 }).charge p fun t => { t with shared := t.shared + 1 }

/-- A sector written back on a partition's behalf. -/
def State.chargeWb (s : State) (p : Nat) : State := s.charge p fun t => { t with wb := t.wb + 1 }

/-! The L2s and their directory. -/

/-- The sector a cluster's L2 holds. -/
def Cluster.sector (x : Cluster) (line : Nat) : Option Sector := x.l2.find? fun t => t.line == line
/-- Replaces or removes a sector. -/
def Cluster.setSector (x : Cluster) (t : Sector) : Cluster := { x with l2 := t :: x.l2.filter fun u => u.line != t.line }
def Cluster.dropSector (x : Cluster) (line : Nat) : Cluster := { x with l2 := x.l2.filter fun u => u.line != line }

/-- Clusters whose L2 holds a line. -/
def State.holders (s : State) (line : Nat) : List Nat :=
  s.clusters.filterMap fun e => if (e.2.sector line).isSome then some e.1 else none

/-- Writes a sector's dirty bytes to its home. -/
def State.writeBack (s : State) (t : Sector) (p : Nat) : State :=
  if t.dirty then (s.homeWriteMask t.key t.line t.data (BitVec.allOnes 64)).chargeWb p else s

/-- The directory recalls a line from one L2 (R112): its dirty bytes go home; the copy is invalidated, or kept shared. -/
def State.recallFrom (s : State) (line p : Nat) (keep : Bool) (clu : Nat) : State :=
  match (s.cluster clu).sector line with
  | none => s
  | some t =>
    let s := s.writeBack t p
    if keep then s.modCluster clu (·.setSector { t with dirty := false, excl := false })
    else s.modCluster clu (·.dropSector line)

/-- Recalls a line from every L2 but one. -/
def State.recallOthers (s : State) (line p : Nat) (keep : Bool) (but : Nat) : State :=
  ((s.holders line).filter (· != but)).foldl (fun s k => s.recallFrom line p keep k) s

/-- Recalls a line from every L2 (R112: before an access at the home). -/
def State.recall (s : State) (line p : Nat) : State :=
  (s.holders line).foldl (fun s k => s.recallFrom line p false k) s

/-- The L1 lines of a core. -/
def Core.l1At (x : Core) (line : Nat) : Option L1Line := x.l1.find? fun t => t.line == line
def Core.setL1 (x : Core) (t : L1Line) : Core := { x with l1 := t :: x.l1.filter fun u => u.line != t.line }
def Core.dropL1 (x : Core) (line : Nat) : Core := { x with l1 := x.l1.filter fun u => u.line != line }

/-- The core whose L1 holds a line for accesses by `core` (R110). -/
def State.l1Core (s : State) (core line : Nat) : Nat :=
  if (s.cluster (clusterOf core)).pool then coreAt (clusterOf core) (line % 8) else core

/-- Places bytes of an L1 line in a sector that the cluster's L2 already holds. The sector keeps the key slot of the page that first
filled it, and so does an L1 line: under that slot it is written back, where pages of two slots reach one line (DESIGN CHOICE,
log 28: R124 does not say which of them then counts). -/
def State.sectorWrite (s : State) (clu line : Nat) (data : BitVec 512) (m : BitVec 64) : State :=
  match (s.cluster clu).sector line with
  | none => s
  | some t => s.modCluster clu (·.setSector { t with data := mergeLine t.data data m, dirty := true, excl := true })

/-- A cluster's L2 takes a line, shared or exclusive, in the room it has: other L2s give up what the directory recalls (R112),
and a sector that is missing is filled from the home. -/
def State.l2Take (s : State) (clu key p line : Nat) (excl : Bool) : State :=
  match (s.cluster clu).sector line with
  | some t =>
    if t.excl || !excl then s
    else (s.recallOthers line p false clu).modCluster clu (·.setSector { t with excl := true })
  | none =>
    let s := s.recallOthers line p (!excl) clu
    let t : Sector := { line := line, data := s.homeLine key line, dirty := false, excl := excl, key := key, part := p }
    (s.modCluster clu (·.setSector t)).charge p fun u => { u with l2fill := u.l2fill + 1 }

/-- An L1 copy's dirty bytes merge into its cluster's L2, which takes the line exclusively, and the copy goes (R111). -/
def State.l1Sink (s : State) (clu line p core : Nat) : State :=
  match (s.core core).l1At line with
  | none => s
  | some t =>
    let s := if t.dirty = 0 then s else (s.l2Take clu t.key p line true).sectorWrite clu line t.data t.dirty
    s.modCore core (·.dropL1 line)

/-- Evicts a 256-byte line of a cluster's L2 (R111): the dirty bytes of every L1 copy merge first, then dirty sectors go home. -/
def State.l2Evict (s : State) (clu line4 p : Nat) : State :=
  (List.range 4).foldl (fun s i =>
    ((List.range 8).foldl (fun s j => s.l1Sink clu (line4 * 4 + i) p (clu * 8 + j)) s).recallFrom (line4 * 4 + i) p false clu) s

/-- Slice of a line (R111). -/
def sliceOf (line : Nat) : Nat := (line / 4 % 8) ^^^ (line / 32 % 8)

/-- The 256-byte lines that a slice of a cluster's L2 holds. It holds those of its valid sectors and, since it is inclusive of the
cluster's L1 lines, those of which an L1 has a line. A store miss in an L1 and a recall of the directory leave such a line without
the sector: sectors have valid bits of their own (R109, R111, R112). -/
def State.sliceLines (s : State) (clu slice : Nat) : List Nat :=
  let l1 := (List.range 8).flatMap fun j => (s.core (clu * 8 + j)).l1.map (·.line)
  ((((s.cluster clu).l2.map (·.line) ++ l1).filter fun l => sliceOf l == slice).map (· / 4)).eraseDups

/-- Makes room in a slice of 4,096 lines. The victim is not architectural, and the manual gives a slice no sets: any of its lines
may give way (log 2). -/
def State.l2Room (s : State) (clu line p : Nat) : State :=
  let ls := s.sliceLines clu (sliceOf line)
  if ls.contains (line / 4) || decide (ls.length < 4096) then s
  else (s.l2Evict clu (ls.getD (Config.victim s.tick % ls.length) 0) p).bump

/-- A demand access makes a cluster's L2 hold a line, shared or exclusive (R112), and counts a hit (R216). -/
def State.l2Fill (s : State) (clu key p line : Nat) (excl : Bool) : State :=
  match (s.cluster clu).sector line with
  | some t => (s.chargeHit t.part p).l2Take clu key p line excl
  | none => (s.l2Room clu line p).l2Take clu key p line excl

/-- Reads a line in a cluster's L2 that holds it. -/
def State.l2Data (s : State) (clu line : Nat) : BitVec 512 := (((s.cluster clu).sector line).map (·.data)).getD 0

/-- Merges bytes into a line of a cluster's L2, which takes it exclusively (R111, R128). -/
def State.l2Merge (s : State) (clu key p line : Nat) (data : BitVec 512) (m : BitVec 64) : State :=
  let s := if ((s.cluster clu).sector line).isSome then s else s.l2Room clu line p
  (s.l2Take clu key p line true).sectorWrite clu line data m

/-! The L1s. -/

/-- Merges the dirty bytes of a core's L1 copy into its L2 (R109), a write-back charged to `p` (R216); the copy stays, clean. -/
def State.l1Merge (s : State) (core line p : Nat) : State :=
  match (s.core core).l1At line with
  | none => s
  | some t =>
    if t.dirty = 0 then s
    else ((s.l2Merge (clusterOf core) t.key p line t.data t.dirty).modCore core (·.setL1 { t with dirty := 0 })).chargeWb p

/-- Merges and invalidates a core's L1 copy. -/
def State.l1Flush (s : State) (core line p : Nat) : State := (s.l1Merge core line p).modCore core (·.dropL1 line)

/-- Merges every dirty byte of a core's L1 (R131). -/
def State.l1MergeAll (s : State) (core p : Nat) : State :=
  (s.core core).l1.foldl (fun s t => s.l1Merge core t.line p) s

/-- Invalidates every L1 byte that is not dirty (R131). -/
def Core.dropClean (x : Core) : Core :=
  { x with l1 := (x.l1.filter fun t => t.dirty != 0).map fun t => { t with valid := t.dirty } }

/-- The cores whose L1s an ordering instruction of a core reaches (R131). -/
def State.l1Group (s : State) (core : Nat) : List Nat :=
  if (s.cluster (clusterOf core)).pool then (List.range 8).map fun j => clusterOf core * 8 + j else [core]

/-- L1 ways and set of a line (R104). -/
def State.l1Ways (s : State) (core : Nat) : Nat := 20 - (s.core core).spw
def State.l1Set (s : State) (core line : Nat) : Nat :=
  if (s.cluster (clusterOf core)).pool then line / 8 % 256 else line % 256

/-- Makes room in the set of a line. The replacement order is not architectural (R104). -/
def State.l1Room (s : State) (core line p : Nat) : State :=
  let same := (s.core core).l1.filter fun t => s.l1Set core t.line == s.l1Set core line && t.line != line
  if same.length < s.l1Ways core then s
  else
    let v := (same.map (·.line)).getD (Config.l1Victim s.tick % same.length) 0
    (s.l1Flush core v p).bump

/-- Fills the missing bytes of a core's L1 line from the L2 (R109). -/
def State.l1Fill (s : State) (core key p line : Nat) : State :=
  let h := s.l1Core core line
  let s := s.l2Fill (clusterOf core) key p line false
  let fresh := s.l2Data (clusterOf core) line
  let t : L1Line := match (s.core h).l1At line with
    | some t => { t with data := mergeLine fresh t.data t.dirty, valid := BitVec.allOnes 64 }
    | none => { line := line, valid := BitVec.allOnes 64, dirty := 0, data := fresh, key := key, part := p }
  ((s.l1Room h line p).modCore h (·.setL1 t)).charge p fun u => { u with l1fill := u.l1fill + 1 }

/-- Are the masked bytes valid in a core's L1? -/
def State.l1Has (s : State) (core line : Nat) (m : BitVec 64) : Bool :=
  match (s.core (s.l1Core core line)).l1At line with
  | some t => t.valid &&& m == m
  | none => false

/-- A cached line as the core's L1 gives it, after a fill where bytes are missing (R129). -/
def State.l1Touch (s : State) (core key p line : Nat) (m : BitVec 64) : State :=
  if s.l1Has core line m then
    match (s.core (s.l1Core core line)).l1At line with
    | some t => s.chargeHit t.part p
    | none => s
  else s.l1Fill core key p line

/-- The data of a core's L1 copy. -/
def State.l1Data (s : State) (core line : Nat) : BitVec 512 :=
  (((s.core (s.l1Core core line)).l1At line).map (·.data)).getD 0

/-- A store into a core's L1: a hit sets dirty bits; a miss allocates without a fill (R109), in a line for which the L2 has room (R111). -/
def State.l1Store (s : State) (core key p line : Nat) (data : BitVec 512) (m : BitVec 64) : State :=
  let h := s.l1Core core line
  match (s.core h).l1At line with
  | some t =>
    (s.chargeHit t.part p).modCore h
      (·.setL1 { t with data := mergeLine t.data data m, valid := t.valid ||| m, dirty := t.dirty ||| m })
  | none =>
    ((s.l2Room (clusterOf core) line p).l1Room h line p).modCore h
      (·.setL1 { line := line, valid := m, dirty := m, data := data, key := key, part := p })

/-! The coherent view: what a read at the cluster L2 or wider, at the home after a recall, or of a snapshot returns. -/

/-- The dirty copy of a line that an L2 owns. -/
def State.dirtySector (s : State) (line : Nat) : Option Sector :=
  (s.clusters.filterMap fun e => (e.2.sector line).filter (·.dirty)).head?
/-- A byte at the coherence point: the dirty copy of the L2 that owns its line, else the home. A copy whose slot is another is
read as what the home would give once it is written back (R124). -/
def State.cohByte (s : State) (key pa : Nat) : Byte :=
  match s.dirtySector (pa / 64) with
  | some t =>
    if t.key = key || !encrypted pa then byteAt t.data (pa % 64)
    else (recrypt (s.keyNo t.key) (s.keyNo key) (pa / 16 * 16)
      ((List.range 16).map fun i => byteAt t.data (pa % 64 / 16 * 16 + i))).getD (pa % 16) 0
  | none => s.homeByte key pa

/-- Bytes at the coherence point. -/
def State.cohBytes (s : State) (key pa : Nat) : Nat → List Byte
  | 0 => []
  | n + 1 => s.cohByte key pa :: s.cohBytes key (pa + 1) n

/-- The recall before a write at the home (R100): every L1 copy merges, every L2 writes back, every copy goes. -/
def State.recallAll (s : State) (line p : Nat) : State :=
  let s := s.cores.foldl (fun s e => s.l1Sink (clusterOf e.1) line p e.1) s
  s.recall line p

/-- A write at the home on a partition's behalf (R100), byte by byte over its lines. -/
def State.homeWrite (s : State) (key p pa : Nat) : List Byte → State
  | [] => s
  | b :: bs => ((s.recallAll (pa / 64) p).homeWriteLine key pa [b]).homeWrite key p (pa + 1) bs

/-- The little-endian number at the coherence point. -/
def State.cohNat (s : State) (key pa n : Nat) : Nat := natOfBytes (s.cohBytes key pa n)

/-- Memory as it stands at the coherence point: the snapshot of R139, in plaintext of the blocks' own slots. -/
def State.cohMemory (s : State) : Memory :=
  s.clusters.foldl (fun m e => e.2.l2.foldl (fun m t =>
    if t.dirty then m.putBytes (t.line * 64) (bytesOfNat 64 t.data.toNat) else m) m) s.mem
/-- The keys of its cipher blocks. -/
def State.cohKeys (s : State) : Assoc Nat :=
  s.clusters.foldl (fun m e => e.2.l2.foldl (fun m t =>
    if t.dirty then (List.range 4).foldl (fun m i => assocSet m (t.line * 4 + i) (s.keyNo t.key + 1)) m else m) m) s.blockKey

end Sys2Proof.Machine
end

