-- ==== Sys2Proof/Machine/Tables.lean ====
section
/-! DEFINITION. The device tables, held as bytes of the device table region, their fields and the rules of stores to them
(R28, R114, R165 to R191), and the event queues (R166). -/
namespace Sys2Proof.Machine

/-! Addresses (Table 7-1). -/
def tblBase : Nat := 0x80000000000
/-- Translation descriptor of a partition (Table 4-4). -/
def tdAddr (p : Nat) : Nat := tblBase + p * 64
/-- Event queue descriptor (Table 6-6). -/
def eqAddr (p q : Nat) : Nat := tblBase + 0x1000 + p * 128 + q * 64
/-- Partition table descriptor (Table 7-4). -/
def pdAddr (p : Nat) : Nat := tblBase + 0x4000 + p * 64
/-- Issue slot entry (Table 7-5). -/
def slotAddr (n : Nat) : Nat := tblBase + 0x10000 + n * 32
/-- Coolant allocation entry (Table 7-12). -/
def coolAddr (z : Nat) : Nat := tblBase + 0x20000 + z * 16
/-- Publish group entry (Table 7-13). -/
def grpAddr (g : Nat) : Nat := tblBase + 0x30000 + g * 32
/-- Request table entry (Table 7-8). -/
def reqAddr (r : Nat) : Nat := tblBase + 0x40000 + r * 64
/-- Lease table entry (Table 7-7). -/
def leaseAddr (p r : Nat) : Nat := tblBase + 0x100000 + p * 4096 + r * 16

namespace State

/-- A field of `n` bytes at a table address. -/
def tget (s : State) (a n : Nat) : Nat := s.mem.nat a n
/-- Hardware's or the dealer's write of a field of `n` bytes. -/
def tput (s : State) (a n v : Nat) : State := { s with mem := s.mem.putNat a n v }

/-- KEYDEF of a partition (R125). -/
def keydef (s : State) (p : Nat) : Nat := bitsOf (s.tget (tdAddr p) 8) 58 52

/-! Issue slots (R170 to R172). -/
def slotState (s : State) (c : Nat) : Nat := s.tget (slotAddr c + 15) 1 % 8
def slotPart (s : State) (c : Nat) : Nat := s.tget (slotAddr c + 16) 1 % 64
def slotLaunch (s : State) (c : Nat) : Nat := s.tget (slotAddr c + 8) 4
def slotImage (s : State) (c : Nat) : Nat := s.tget (slotAddr c) 8
def slotBindset (s : State) (c : Nat) : Nat := s.tget (slotAddr c + 20) 1
def slotCtl (s : State) (c : Nat) : Nat := s.tget (slotAddr c + 17) 1 % 16
def slotPri (s : State) (c : Nat) : Nat := s.tget (slotAddr c + 14) 1 % 128
def slotTabBase (s : State) (c : Nat) : Nat := s.tget (slotAddr c + 18) 1 % 64
def slotTabCount (s : State) (c : Nat) : Nat := s.tget (slotAddr c + 19) 1 % 128
/-- STATE and TIME of a slot change together (Table 7-5). -/
def setSlotState (s : State) (c v : Nat) : State := (s.tput (slotAddr c + 15) 1 v).tput (slotAddr c + 24) 8 s.now

/-- The slot's drain counter (R171): load and store queue entries, engine commands and unperformed writes of the context. Far and
uncached writes stand in the store queue until they are performed, the copy engine's in the command that makes them. -/
def drainOf (s : State) (c : Nat) : Nat :=
  let x := s.ctx c
  x.sq.length + (x.wq.filter (·.lq)).length +
    (x.streams.toList.map fun k => k.queue.length + k.started.length).sum
/-- DRAIN as the table shows it. -/
def syncDrain (s : State) (c : Nat) : State := s.tput (slotAddr c + 22) 2 (s.drainOf c)

/-- Is a context bound to a launch (R39)? -/
def boundTo (s : State) (c l : Nat) : Bool := s.slotState c == 1 && s.slotLaunch c == l

/-! Requests (R176 to R179). -/
def reqFirst (s : State) (p : Nat) : Nat := s.tget (pdAddr p) 2
def reqCnt (s : State) (p : Nat) : Nat := s.tget (pdAddr p + 2) 2
def grpFirst (s : State) (p : Nat) : Nat := s.tget (pdAddr p + 4) 2
def grpCnt (s : State) (p : Nat) : Nat := s.tget (pdAddr p + 6) 2
def reqIn (s : State) (p r : Nat) : Bool := s.reqFirst p ≤ r && r < s.reqFirst p + s.reqCnt p
def grpIn (s : State) (p g : Nat) : Bool := s.grpFirst p ≤ g && g < s.grpFirst p + s.grpCnt p
def reqState (s : State) (r : Nat) : Nat := s.tget (reqAddr r + 63) 1 % 4
def reqRun (s : State) (r : Nat) : Nat := s.tget (reqAddr r + 60) 3
def reqDrain (s : State) (r : Nat) : Nat := s.tget (reqAddr r + 46) 2
def reqLayers (s : State) (r : Nat) : Nat := s.tget (reqAddr r + 40) 2
def reqHeads (s : State) (r : Nat) : Nat := s.tget (reqAddr r + 42) 1
def reqMaxblk (s : State) (r : Nat) : Nat := s.tget (reqAddr r + 44) 2
def reqLength (s : State) (r : Nat) : Nat := s.tget (reqAddr r + 32) 4
def reqFloor (s : State) (r : Nat) : Nat := s.tget (reqAddr r + 36) 4
def reqKey (s : State) (r : Nat) : Nat := s.tget (reqAddr r + 8) 8
def reqCtr (s : State) (r : Nat) : Nat := s.tget (reqAddr r + 16) 8
def reqCtrBase (s : State) (r : Nat) : Nat := s.tget (reqAddr r + 24) 8
def reqRoot (s : State) (r : Nat) : Nat := s.tget (reqAddr r) 8 % 2 ^ 52
def reqPglist (s : State) (r : Nat) : Nat := s.tget (reqAddr r + 48) 8 % 2 ^ 52
def reqPgcount (s : State) (r : Nat) : Nat := s.tget (reqAddr r + 56) 2
def reqPgused (s : State) (r : Nat) : Nat := s.tget (reqAddr r + 58) 2
def setReqRun (s : State) (r v : Nat) : State := s.tput (reqAddr r + 60) 3 v
def setReqCtr (s : State) (r v : Nat) : State := s.tput (reqAddr r + 16) 8 v
def setReqCtrBase (s : State) (r v : Nat) : State := s.tput (reqAddr r + 24) 8 v
def setReqLength (s : State) (r v : Nat) : State := s.tput (reqAddr r + 32) 4 v
def setReqDrain (s : State) (r v : Nat) : State := s.tput (reqAddr r + 46) 2 v
def setReqPgused (s : State) (r v : Nat) : State := s.tput (reqAddr r + 58) 2 v

/-! Publish groups (R190, R191). -/
def grpValid (s : State) (g : Nat) : Bool := bitOf (s.tget (grpAddr g + 28) 1) 0
def grpDom (s : State) (g : Nat) : Bool := bitOf (s.tget (grpAddr g + 28) 1) 1
def grpCur (s : State) (g : Nat) : Bool := bitOf (s.tget (grpAddr g + 28) 1) 2
def grpVis (s : State) (g : Nat) : Nat := s.tget (grpAddr g) 8
def grpBuf (s : State) (g : Nat) (b : Bool) : Nat := s.tget (grpAddr g + (if b then 16 else 8)) 8
def grpSize (s : State) (g : Nat) : Nat := s.tget (grpAddr g + 24) 4 * 4096
/-- The valid groups: those whose byte 28 is listed in memory with V set. -/
def activeGroups (s : State) : List Nat :=
  s.mem.filterMap fun c =>
    if grpAddr 0 ≤ c.1 && c.1 < grpAddr 256 && (c.1 - grpAddr 0) % 32 == 28 && c.2.getLsbD 0
    then some ((c.1 - grpAddr 0) / 32) else none
/-- The valid group whose visible range holds an address (R136). -/
def groupAt (s : State) (pa : Nat) : Option Nat :=
  s.activeGroups.find? fun g => s.grpVis g ≤ pa && pa < s.grpVis g + s.grpSize g
/-- Is a buffer of a group latched by a context or a running command (R137)? -/
def latched (s : State) (g : Nat) (b : Bool) : Bool :=
  s.ctxs.any fun e => e.2.latches.contains (g, b) ||
    e.2.streams.toList.any fun k => k.started.any fun d => d.groups.contains (g, b)

/-! Leases (R173 to R175). -/
def leaseHeld (s : State) (p r : Nat) : Bool := bitOf (s.tget (leaseAddr p r + 8) 8) 63
def leaseWait (s : State) (p r : Nat) : Bool := bitOf (s.tget (leaseAddr p r + 8) 8) 62
def leaseLeft (s : State) (p r : Nat) : Nat := bitsOf (s.tget (leaseAddr p r + 8) 8) 46 40
def leaseW0 (s : State) (p r : Nat) : Nat := s.tget (leaseAddr p r) 8
/-- Writes word 1 of a lease table entry. -/
def setLease (s : State) (p r : Nat) (held wait : Bool) (left ctx : Nat) : State :=
  s.tput (leaseAddr p r + 8) 8
    ((if held then 2 ^ 63 else 0) + (if wait then 2 ^ 62 else 0) + left % 128 * 2 ^ 40
      + (if held then s.pkg % 64 * 2 ^ 17 + ctx % 2048 else 0))
def setLeaseWait (s : State) (p r : Nat) (wait : Bool) : State :=
  s.tput (leaseAddr p r + 8) 8 (setBitsOf (s.tget (leaseAddr p r + 8) 8) 62 62 (if wait then 1 else 0))
def setLeaseLeft (s : State) (p r left : Nat) : State :=
  s.tput (leaseAddr p r + 8) 8 (setBitsOf (s.tget (leaseAddr p r + 8) 8) 46 40 left)
def setLeaseCtx (s : State) (p r ctx : Nat) : State :=
  s.tput (leaseAddr p r + 8) 8 (setBitsOf (s.tget (leaseAddr p r + 8) 8) 10 0 ctx)

/-! Coolant (R188, R189). -/
def coolState (s : State) (z : Nat) : Nat := bitsOf (s.tget (coolAddr z + 3) 1) 5 4
def coolShare (s : State) (z : Nat) : Nat := s.tget (coolAddr z + 1) 1
def coolFloor (s : State) (z : Nat) : Nat := s.tget (coolAddr z + 2) 1
def coolOwned (s : State) (z : Nat) : Bool := bitOf (s.tget (coolAddr z) 1) 7
def coolOwner (s : State) (z : Nat) : Nat := s.tget (coolAddr z) 1 % 64
def zoneGranted (s : State) (p z : Nat) : Bool := s.coolOwned z && s.coolOwner z == p
/-- Does a zone grant coolant to a partition (R189)? -/
def coolGrants (s : State) (p z : Nat) : Bool :=
  s.zoneGranted p z && s.coolState z == 2 && decide (s.coolFloor z ≤ s.coolShare z) && decide (1 ≤ s.coolShare z)

/-! Event queues (R165, R166). -/

/-- The 32 bytes of an event record (Table 6-7). -/
def eventBytes (s : State) (kind cause sub loc value launch seq : Nat) : List Byte :=
  bytesOfNat 8 s.now ++ bytesOfNat 1 kind ++ bytesOfNat 1 cause ++ bytesOfNat 2 sub ++ bytesOfNat 4 loc
    ++ bytesOfNat 8 value ++ bytesOfNat 4 launch ++ bytesOfNat 2 seq ++ [0, 0]

/-- Writes one record at TAIL, then advances TAIL (R166). -/
def eventPut (s : State) (p q kind cause sub loc value launch : Nat) : State :=
  let d := eqAddr p q
  let w0 := s.tget d 8
  let tail := s.tget (d + 8) 4
  let base := bitsOf w0 51 6 * 64
  let s := s.homeWrite (s.keydef p) p (canon (base + tail % 2 ^ bitsOf w0 5 1 * 32))
    (s.eventBytes kind cause sub loc value launch tail)
  s.tput (d + 8) 4 (tail + 1)

/-- Counts a lost record. -/
def eventLost (s : State) (p q : Nat) : State := s.tput (eqAddr p q + 16) 8 (s.tget (eqAddr p q + 16) 8 + 1)

/-- LOST as it stood when the last record was written. -/
def lostSeen (s : State) (p q : Nat) : Nat := if q = 0 then (s.part p).lostSeen0 else (s.part p).lostSeen1
def setLostSeen (s : State) (p q v : Nat) : State :=
  s.modPart p fun x => if q = 0 then { x with lostSeen0 := v } else { x with lostSeen1 := v }

/-- A producer's event (R166): written, or counted in LOST; a record of kind 0x7F goes first when records were lost. -/
def event (s : State) (p q kind cause sub loc value launch : Nat) : State :=
  let d := eqAddr p q
  let w0 := s.tget d 8
  let n := bitsOf w0 5 1
  let lost := s.tget (d + 16) 8
  let used := (s.tget (d + 8) 4 + 2 ^ 32 - s.tget (d + 12) 4) % 2 ^ 32
  if !bitOf w0 0 || n < 6 || n > 16 || used ≥ 2 ^ n then s.eventLost p q
  else if lost = s.lostSeen p q then s.eventPut p q kind cause sub loc value launch
  else
    let s := (s.eventPut p q 0x7F 0 0 0 lost 0xFFFFFFFF).setLostSeen p q lost
    if used + 1 ≥ 2 ^ n then s.eventLost p q else s.eventPut p q kind cause sub loc value launch

/-- An event in every open partition that meets a condition. -/
def eventAll (s : State) (cond : Nat → Bool) (q kind cause sub loc value launch : Nat) : State :=
  (List.range 64).foldl
    (fun t p => if (s.part p).isOpen && cond p then t.event p q kind cause sub loc value launch else t) s

/-! Loads and stores of the tables (R168). -/

/-- The kind of table at an offset, its entry's index and its entry's size. -/
inductive Table where
  | trans | queues | parts | slots | coolant | groups | requests | leases
  deriving DecidableEq, Repr

/-- Table, entry index, entry address and offset within the entry. -/
def tableAt (off : Nat) : Option (Table × Nat × Nat × Nat) :=
  if off < 0x1000 then some (.trans, off / 64, tblBase + off / 64 * 64, off % 64)
  else if off < 0x3000 then some (.queues, (off - 0x1000) / 64, tblBase + off / 64 * 64, off % 64)
  else if 0x4000 ≤ off ∧ off < 0x5000 then some (.parts, (off - 0x4000) / 64, tblBase + off / 64 * 64, off % 64)
  else if 0x10000 ≤ off ∧ off < 0x20000 then some (.slots, (off - 0x10000) / 32, tblBase + off / 32 * 32, off % 32)
  else if 0x20000 ≤ off ∧ off < 0x21000 then some (.coolant, (off - 0x20000) / 16, tblBase + off / 16 * 16, off % 16)
  else if 0x30000 ≤ off ∧ off < 0x32000 then some (.groups, (off - 0x30000) / 32, tblBase + off / 32 * 32, off % 32)
  else if 0x40000 ≤ off ∧ off < 0x80000 then some (.requests, (off - 0x40000) / 64, tblBase + off / 64 * 64, off % 64)
  else if 0x100000 ≤ off ∧ off < 0x140000 then some (.leases, (off - 0x100000) / 16, tblBase + off / 16 * 16, off % 16)
  else none

/-- The ownership rule of each table. -/
def tableOwned (s : State) (p : Nat) : Table → Nat → Bool
  | .trans, i => i == p
  | .queues, i => i / 2 == p
  | .parts, i => i == p
  | .slots, i => s.slotPart i == p && s.slotState i != 0
  | .coolant, i => s.zoneGranted p i
  | .groups, i => s.grpIn p i
  | .requests, i => s.reqIn p i
  | .leases, i => i / 256 == p

/-- Bit ranges as a mask. -/
def rangesMask (l : List (Nat × Nat)) : Nat := l.foldl (fun m r => m ||| (2 ^ (r.1 + 1) - 2 ^ r.2)) 0

/-- The RSV bits of an entry. -/
def Table.rsv : Table → Nat
  | .trans => rangesMask [(511, 480), (447, 416), (319, 313), (267, 256), (255, 64), (63, 59), (11, 1)]
  | .queues => rangesMask [(511, 192), (63, 52)]
  | .parts => rangesMask [(511, 192), (191, 145), (127, 116), (69, 64)]
  | .slots | .coolant => 0
  | .groups => rangesMask [(255, 232), (231, 227)]
  | .requests => rangesMask [(511, 506), (447, 436), (351, 344), (63, 52)]
  | .leases => rangesMask [(62, 52), (31, 25), (15, 9)]

/-- The HW bits of an entry. -/
def Table.hw : Table → Nat
  | .trans => rangesMask [(479, 448)]
  | .queues => rangesMask [(191, 128), (95, 64)]
  | .parts => rangesMask [(63, 0)]
  | .slots => 2 ^ 256 - 1
  | .coolant => 2 ^ 128 - 1
  | .groups => rangesMask [(226, 226)]
  | .requests => rangesMask [(503, 480), (383, 368), (255, 192)]
  | .leases => rangesMask [(127, 64)]

/-- A byte of a table as a load sees it: the coolant table shows its zone's registers (Table 7-12). -/
def tableByte (s : State) (a : Nat) : Byte :=
  if coolAddr 0 ≤ a ∧ a < coolAddr 256 then
    let z := s.zone ((a - coolAddr 0) / 16)
    match (a - coolAddr 0) % 16 with
    | 3 => BitVec.ofNat 8 (bitsOf (s.mem.get a).toNat 7 4 * 16 + z.valve.toNat % 16)
    | 4 => byteAt z.hi 0 | 5 => byteAt z.hi 1 | 6 => byteAt z.lo 0 | 7 => byteAt z.lo 1
    | _ => s.mem.get a
  else if slotAddr 0 ≤ a ∧ a < slotAddr 2048 ∧ ((a - slotAddr 0) % 32 = 22 ∨ (a - slotAddr 0) % 32 = 23) then
    byteAt (BitVec.ofNat 16 (s.drainOf ((a - slotAddr 0) / 32))) (a % 2)
  else s.mem.get a

/-- Do two ranges overlap? -/
def overlap (a n b m : Nat) : Bool := decide (a < b + m) && decide (b < a + n)

/-- The checks of a store that sets V of a group (R191), on the entry's bytes as they would be. -/
def groupOk (s : State) (g e : Nat) : Bool :=
  let vis := e % 2 ^ 64
  let a := e / 2 ^ 64 % 2 ^ 64
  let b := e / 2 ^ 128 % 2 ^ 64
  let pages := e / 2 ^ 192 % 2 ^ 32
  let n := pages * 4096
  let ok := fun x => x % 4096 == 0 && decide (x < 2 ^ 52) && lowRangeOk x n
  let mine := [vis, a, b]
  decide (1 ≤ pages) && decide (pages ≤ 2 ^ 20) && mine.all ok
    && !overlap vis n a n && !overlap vis n b n && !overlap a n b n
    && s.activeGroups.all fun h => h == g || mine.all fun x =>
      !overlap x n (s.grpVis h) (s.grpSize h) && !overlap x n (s.grpBuf h false) (s.grpSize h)
        && !overlap x n (s.grpBuf h true) (s.grpSize h)

/-- Is a SPLICE or REPAIR of a partition running (R169)? -/
def repairRunning (s : State) (p : Nat) : Bool :=
  s.ctxs.any fun e => e.2.partNo == p && e.2.streams.toList.any fun k =>
    k.started.any fun d => d.word == .splice || d.word == .repair

/-- A table's own rule for a store that turns the entry's number `old` into `new` (R114, R125, R165, R169, R174, R177, R191).
`lo` and `n` are the bytes stored. Only the base of a structure is checked, and a KVROOT or PGLIST that is not aligned is stored and used as it
stands (DESIGN CHOICE, log 28: R125 says nothing of a structure that runs past its column or the underdeck, R176 of one that is not aligned). -/
def tableRule (s : State) (p : Nat) (t : Table) (i lo n old new : Nat) : Bool :=
  match t with
  | .trans => true
  | .queues => isLow (bitsOf new 51 6 * 64)
  | .slots | .coolant => false
  | .parts =>
    let touches := fun a b => decide (lo ≤ b) && decide (a < lo + n)
    !((touches 8 14 || touches 16 18) && s.repairRunning p) && isLow (bitsOf new 115 70 * 64)
  | .groups =>
    if bitOf old 224 then old % 2 ^ 224 == new % 2 ^ 224 && bitOf old 225 == bitOf new 225
    else !bitOf new 224 || s.groupOk i new
  | .requests =>
    let st := bitsOf old 505 504
    let st' := bitsOf new 505 504
    let touched := fun a b => lo ≤ b && a < lo + n
    isLow (new % 2 ^ 52) && isLow (bitsOf new 435 384) &&
    (if st = 0 then
      st' == 0 || (st' == 1 && bitsOf new 367 352 != 0 && bitsOf new 343 336 != 0 && bitsOf new 335 320 != 0
        && new % 2 ^ 52 != 0)
    else if st = 1 then
      !touched 0 35 && !touched 40 62 && (!touched 63 63 || st' == 2)
    else false)
  | .leases => !bitOf old 127 && !bitOf old 126

/-- A supervisor's load of a table: the value, or PROTECT (R168). -/
def tableLoad (s : State) (p a n : Nat) : Option Nat :=
  match tableAt (a - tblBase) with
  | none => none
  | some (t, i, _, _) =>
    if s.tableOwned p t i then some (natOfBytes ((List.range n).map fun j => s.tableByte (a + j))) else none

/-- A supervisor's store to a table: the state after it, or none for PROTECT with nothing changed (R168). Setting V of a
group clears CUR (R191). -/
def tableStore (s : State) (p a n v : Nat) : Option State :=
  match tableAt (a - tblBase) with
  | none => none
  | some (t, i, ea, lo) =>
    let size := match t with | .slots | .groups => 32 | .coolant | .leases => 16 | _ => 64
    let old := s.tget ea size
    let hw := t.hw
    let written := (2 ^ (8 * n) - 1) * 2 ^ (8 * lo)
    let raw := (v % 2 ^ (8 * n)) * 2 ^ (8 * lo)
    let allHw := (List.range n).any fun j =>
      let d := 255 - bitsOf t.rsv (8 * (lo + j) + 7) (8 * (lo + j))
      d != 0 && bitsOf hw (8 * (lo + j) + 7) (8 * (lo + j)) == d
    let keep := 2 ^ (8 * size) - 1 - (written - (written &&& hw))
    let new := (old &&& keep) ||| (raw &&& (written - (written &&& hw)))
    if s.tableOwned p t i && !allHw && (raw &&& t.rsv) == 0 && s.tableRule p t i lo n old new then
      let new := if t == .groups && !bitOf old 224 && bitOf new 224 then setBitsOf new 226 226 0 else new
      some (s.tput ea size new)
    else none

end State

end Sys2Proof.Machine
end

