-- ==== Sys2Proof/Machine/Walk.lean ====
section
/-! DEFINITION. Translation: the walk, the TLBs, the walk cache, steering by publish groups, and the hardware's own reads and
writes by virtual address (R113 to R122, R136, R145). -/
namespace Sys2Proof.Machine

/-- A translated access: physical address in canonical form, page type and key slot. -/
structure Access where
  pa : Nat
  uncached : Bool
  key : Nat
  deriving DecidableEq, Repr

/-- Is a virtual address in the scratchpad window (R107)? -/
def inScratch (va : Nat) : Bool := va / 2 ^ 48 % 512 == 0x1FF
/-- Window offset of a scratchpad address. -/
def scratchOff (va : Nat) : Nat := va % 2 ^ 48

/-- Is a page-table entry malformed at its level (Table 4-5)? -/
def pteBad (pte level : Nat) : Bool :=
  bitsOf pte 63 60 != 0 || bitOf pte 11 || bitOf pte 4 ||
  (if bitOf pte 5 then
    decide (3 ≤ level) || decide (2 ≤ bitsOf pte 7 6) || (if level = 2 then decide (6 ≤ bitsOf pte 10 8) else bitsOf pte 10 8 != 0)
  else level == 0 || bitsOf pte 59 52 != 0 || bitsOf pte 10 6 != 0 || bitsOf pte 3 1 != 0)

/-- Does a page allow an access (R117)? -/
def permits (super : Bool) (acc : AccessKind) (u w x : Bool) : Bool :=
  (super || u) && (acc != .store || w) && (acc != .fetch || x)

/-- The walk from a level down (R117): the entry found and the tables passed, or the cause. -/
def State.walkFrom (s : State) (p : Nat) (super : Bool) (acc : AccessKind) (va : Nat) :
    Nat → Nat → Except Byte (TlbEntry × List WalkEntry)
  | 0, _ => .error 0x09
  | l + 1, table =>
    let pte := s.cohNat (s.keydef p) (canon (table + 8 * (va / 2 ^ (12 + 9 * l) % 512))) 8
    let frame := bitsOf pte 51 12 * 4096
    if !isLow table then .error 0x09
    else if !bitOf pte 0 then .error 0x09
    else if pteBad pte l then .error 0x09
    else if bitOf pte 5 then
      let size := 2 ^ (12 + 9 * l) * (if l = 2 then 2 ^ bitsOf pte 10 8 else 1)
      let u := bitOf pte 3
      let w := bitOf pte 1
      let x := bitOf pte 2
      let key := if bitOf pte 59 then bitsOf pte 58 52 else s.keydef p
      if frame % size != 0 then .error 0x09
      else if s.inHole frame size then .error 0x09
      else if !permits super acc u w x then .error 0x0A
      else if key != 0 && !(s.part p).keys.getLsbD key then .error 0x0A
      else .ok ({ part := p, va := va / size * size, size := size, pa := frame, uncached := bitsOf pte 7 6 == 1, key := key,
                  u := u, w := w, x := x }, [])
    else
      match s.walkFrom p super acc va l frame with
      | .error e => .error e
      | .ok (t, path) => .ok (t, { part := p, level := l, idx := va / 2 ^ (12 + 9 * l), table := frame } :: path)

/-- The lowest table that the walk cache holds for an address, with the levels left to walk (R120). -/
def State.cachedTable (s : State) (p va : Nat) : Option (Nat × Nat) :=
  [1, 2, 3, 4].findSome? fun l =>
    ((s.walkCache.find? fun e => e.part == p && e.level == l && e.idx == va / 2 ^ (12 + 9 * l)).map fun e => (l, e.table))

/-- The walk of a virtual address (R117), with ROOT, V and KEYDEF read afresh (R115). -/
def State.walk (s : State) (p : Nat) (super : Bool) (acc : AccessKind) (va : Nat) :
    Except Byte (TlbEntry × List WalkEntry) :=
  let d := s.tget (tdAddr p) 64
  if va ≥ 2 ^ 57 then .error 0x09
  else if !bitOf d 0 || d &&& Table.trans.rsv != 0 then .error 0x09
  else match s.cachedTable p va with
    | some (l, table) => s.walkFrom p super acc va l table
    | none => s.walkFrom p super acc va 5 (bitsOf d 51 12 * 4096)

/-- The access that a TLB entry gives. -/
def TlbEntry.access (t : TlbEntry) (va : Nat) : Access :=
  { pa := canon (t.pa + (va - t.va)), uncached := t.uncached, key := t.key }

/-- Does a TLB entry translate an access with the permission it needs? An entry of narrower permission is walked again
(R119). -/
def TlbEntry.hits (t : TlbEntry) (p : Nat) (super : Bool) (acc : AccessKind) (va : Nat) : Bool :=
  t.part == p && decide (t.va ≤ va) && decide (va < t.va + t.size) && permits super acc t.u t.w t.x

/-- Keeps a list within a capacity by dropping a victim. -/
def within {α : Type} (cap v : Nat) (l : List α) : List α := if l.length ≤ cap then l else l.eraseIdx (1 + v % cap)

/-- Enters a translation in a cluster's TLB, and the tables passed in the walk cache, to whose size the manual sets no limit (DESIGN CHOICE,
log 28). -/
def State.clusterFill (s : State) (clu : Nat) (t : TlbEntry) (path : List WalkEntry) : State :=
  let s := { s with walkCache := path.foldl (fun l e => if l.contains e then l else e :: l) s.walkCache }
  (s.modCluster clu fun x => { x with tlb := within 2048 (Config.victim s.tick) (t :: x.tlb.filter (· != t)) }).bump

/-- The addresses of the entries that a walk reads from a level down. -/
def State.walkReads (s : State) (p va : Nat) : Nat → Nat → List Nat
  | 0, _ => []
  | l + 1, table =>
    let a := canon (table + 8 * (va / 2 ^ (12 + 9 * l) % 512))
    let pte := s.cohNat (s.keydef p) a 8
    if !isLow table then []
    else if bitOf pte 0 && !pteBad pte l && !bitOf pte 5 then a :: s.walkReads p va l (bitsOf pte 51 12 * 4096)
    else [a]
/-- A walk for a cluster reads its entries through that cluster's L2 (Table 4-2), whose fills and hits are charged to the partition
walked (R216). -/
def State.walkRead (s : State) (clu p va : Nat) : State :=
  let d := s.tget (tdAddr p) 64
  let (l, table) := (s.cachedTable p va).getD (5, bitsOf d 51 12 * 4096)
  (s.walkReads p va l table).foldl (fun t a => t.l2Fill clu (t.keydef p) p (a / 64) false) s

/-! The walkers (R121). -/

/-- The cluster whose oldest waiting page a free walker takes: the next in round-robin order that has one. -/
def State.nextWaiting (s : State) : Option Nat :=
  ((List.range 64).map fun i => (s.walkNext + i) % 64).find? fun c => !(s.cluster c).waiting.isEmpty
/-- The oldest waiting page of a cluster leaves the list. -/
def State.dropWaiting (s : State) (clu : Nat) : State :=
  { s.modCluster clu fun x => { x with waiting := x.waiting.drop 1 } with walkNext := (clu + 1) % 64 }
/-- A walker takes the oldest page that a cluster waits for. Where the walk finds a page, the cluster's TLB takes it. -/
def State.walkWaiting (s : State) (clu : Nat) : State :=
  match (s.cluster clu).waiting with
  | [] => s
  | (p, vpn, super) :: _ =>
    let s := (s.dropWaiting clu).walkRead clu p (vpn * 4096)
    match s.walk p super .load (vpn * 4096) with
    | .error _ => s
    | .ok (t, path) => s.clusterFill clu t path
/-- The walkers take waiting pages in their order until they reach a page of a cluster, which leaves the list. -/
def State.walkersReach (clu p vpn : Nat) : Nat → State → State
  | 0, s => s
  | f + 1, s =>
    match s.nextWaiting with
    | none => s
    | some c =>
      if c = clu && ((s.cluster c).waiting.head?.map fun e => (e.1, e.2.1)) == some (p, vpn) then s.dropWaiting clu
      else State.walkersReach clu p vpn f (s.walkWaiting c)
/-- A cluster waits for a page: a miss joins a page already awaiting, or enters the list. -/
def State.awaitPage (s : State) (clu p vpn : Nat) (super : Bool) : State :=
  s.modCluster clu fun x =>
    if x.waiting.any fun e => e.1 == p && e.2.1 == vpn then x else { x with waiting := x.waiting ++ [(p, vpn, super)] }

/-- Translation through the TLB of a cluster, which its cores and engines share (R120): a miss waits for the walkers, which take
the pages in their order (R121) and make its walk at once when its turn comes. -/
def State.clusterXlate (s : State) (clu p : Nat) (super : Bool) (acc : AccessKind) (va : Nat) : Except Byte TlbEntry × State :=
  if va ≥ 2 ^ 57 then (.error 0x09, s)
  else match (s.cluster clu).tlb.find? fun t => t.hits p super acc va with
  | some t => (.ok t, s)
  | none =>
    let s := (State.walkersReach clu p (va / 4096) 2112 (s.awaitPage clu p (va / 4096) super)).walkRead clu p va
    match s.walk p super acc va with
    | .error e => (.error e, s)
    | .ok (t, path) => (.ok t, s.clusterFill clu t path)

/-- Translation for a core (R113, R120): the TLB of the core, then as for its cluster, which fills the core's. -/
def State.translate (s : State) (core p : Nat) (super : Bool) (acc : AccessKind) (va : Nat) : Except Byte Access × State :=
  match (s.core core).tlb.find? fun t => t.hits p super acc va with
  | some t => (.ok (t.access va), s)
  | none => match s.clusterXlate (clusterOf core) p super acc va with
    | (.error e, s) => (.error e, s)
    | (.ok t, s) => (.ok (t.access va), s.modCore core fun x => { x with tlb := within 64 (Config.victim s.tick) (t :: x.tlb) })

/-- Is a miss to a 33rd distinct page of a cluster held (R121)? -/
def State.walkHeldAt (s : State) (clu p : Nat) (super : Bool) (acc : AccessKind) (va : Nat) : Bool :=
  let x := s.cluster clu
  decide (32 ≤ x.waiting.length) && !(x.waiting.any fun e => e.1 == p && e.2.1 == va / 4096) &&
    !x.tlb.any (·.hits p super acc va)
/-- The same for an access of a core, whose own TLB answers first. -/
def State.walkHeld (s : State) (core p : Nat) (super : Bool) (acc : AccessKind) (va : Nat) : Bool :=
  s.walkHeldAt (clusterOf core) p super acc va && !(s.core core).tlb.any (·.hits p super acc va)

/-- The buffer of a group that an access reaches (R136): the latched one, else the current one. -/
def State.steerTo (s : State) (latches : List (Nat × Bool)) (pa : Nat) : Nat × Option (Nat × Bool) :=
  match s.groupAt pa with
  | none => (pa, none)
  | some g =>
    let b := ((latches.find? fun e => e.1 == g).map (·.2)).getD (s.grpCur g)
    (s.grpBuf g b + (pa - s.grpVis g), some (g, b))

/-- Steers a context's access and latches the buffer at its first access through the range (R137). -/
def State.steer (s : State) (c : Nat) (a : Access) : Access × State :=
  match s.steerTo (s.ctx c).latches a.pa with
  | (_, none) => (a, s)
  | (pa, some e) =>
    ({ a with pa := pa },
      if (s.ctx c).latches.contains e then s else s.modCtx c fun x => { x with latches := e :: x.latches })

/-! Accesses by virtual address that hardware makes for a partition: records, images, launch records, key-value lists of
documents. They are made at the coherence point. -/

/-- A range cut at 4 KiB boundaries, with a bound on the pieces. -/
def piecesOf : Nat → Nat → Nat → List (Nat × Nat)
  | 0, _, _ => []
  | f + 1, va, n =>
    if n = 0 then []
    else
      let k := min n (4096 - va % 4096)
      (va, k) :: piecesOf f (va + k) (n - k)

/-- The pieces of a range. -/
def pieces (va n : Nat) : List (Nat × Nat) := piecesOf (n / 4096 + 2) va n

/-- May an access reach its place? A device table only at supervisor level (R168), a peer package only over a route (R407):
otherwise PROTECT. -/
def State.placeOk (s : State) (super : Bool) (pa : Nat) : Bool :=
  match region pa with
  | .table _ => super
  | .peer q _ => s.reaches q
  | _ => true

/-- Translation without a TLB, steered to current buffers. -/
def State.vPa (s : State) (p : Nat) (super : Bool) (acc : AccessKind) (va : Nat) : Except Byte Access :=
  match s.walk p super acc va with
  | .error e => .error e
  | .ok (t, _) =>
    let a := t.access va
    if s.placeOk super a.pa then .ok { a with pa := (s.steerTo [] a.pa).1 } else .error 0x0A

/-- Does a latch hold a buffer that a copy to a range would write, as translation stands (R137)? It writes the shadow of a group of its
partition. -/
def State.writesLatched (s : State) (p : Nat) (super : Bool) (va n : Nat) : Bool :=
  !inScratch va && (pieces va n).any fun pc => match s.walk p super .store pc.1 with
    | .error _ => false
    | .ok (t, _) => match s.groupAt (t.access pc.1).pa with
      | some g => s.grpIn p g && s.latched g (!s.grpCur g)
      | none => false

/-- Bytes at a place: a device table as `tab` shows it, other memory at the coherence point. -/
def State.placeRead (s : State) (tab : Nat → Nat → Option (List Byte)) (a : Access) (n : Nat) : Option (List Byte) :=
  match region a.pa with
  | .table _ => tab a.pa n
  | _ => some (s.cohBytes a.key a.pa n)
/-- Bytes of a device table as a partition's loads see them, none where an entry is not the partition's (R168). -/
def State.tableView (s : State) (p pa n : Nat) : Option (List Byte) :=
  (List.range n).mapM fun i => (s.tableLoad p (pa + i) 1).map (BitVec.ofNat 8)
/-- The lines that a range touches. -/
def State.linesOf (pa n : Nat) : List Nat := (List.range ((pa + n - 1) / 64 - pa / 64 + 1)).map (pa / 64 + ·)
/-- Before a read at the home the directory recalls every sector of a range that an L2 owns exclusively (R100, R112), for a partition. -/
def State.busRecall (s : State) (p pa n : Nat) : State :=
  (linesOf pa n).foldl (fun t l => if t.clusters.any fun e => ((e.2.sector l).map (·.excl)).getD false then t.recall l p else t) s
/-- A read of memory by the engines of a cluster: at its L2, which takes what it misses (R135, R216), or, for an uncached page or a
peer's memory, at the home after a recall (R103, R112). -/
def State.clusterRead (s : State) (clu p : Nat) (a : Access) (n : Nat) : List Byte × State :=
  let home := a.uncached || (match region a.pa with | .peer _ _ => true | _ => false)
  let r := (linesOf a.pa n).foldl (init := (([] : List Byte), s)) fun r l =>
    if home then
      let t := r.2.recall l p
      (r.1 ++ t.homeBytes a.key (l * 64) 64, t)
    else
      let t := r.2.l2Fill clu a.key p l false
      (r.1 ++ bytesOfBV 64 (t.l2Data clu l), t)
  ((r.1.drop (a.pa % 64)).take n, r.2)
/-- The same at any place: a device table shows a partition what its loads see. -/
def State.engineRead (s : State) (clu p : Nat) (a : Access) (n : Nat) : Option (List Byte × State) :=
  match region a.pa with
  | .table _ => (s.tableView p a.pa n).map (·, s)
  | _ => some (s.clusterRead clu p a n)
/-- A write at a place, none where a rule of a device table forbids it (R168). -/
def State.placeWrite (s : State) (p : Nat) (a : Access) (bs : List Byte) : Option State :=
  match region a.pa with
  | .table _ => bs.zipIdx.foldlM (init := s) fun t b => t.tableStore p (a.pa + b.2) 1 b.1.toNat
  | _ => some (s.homeWrite a.key p a.pa bs)

/-- Reads bytes at virtual addresses. -/
def State.vReadBy (s : State) (tab : Nat → Nat → Option (List Byte)) (p : Nat) (super : Bool) (va n : Nat) :
    Except Byte (List Byte) :=
  (pieces va n).foldlM (init := []) fun acc pc =>
    match s.vPa p super .load pc.1 with
    | .error e => .error e
    | .ok a => match s.placeRead tab a pc.2 with
      | some bs => .ok (acc ++ bs)
      | none => .error 0x0A
def State.vRead (s : State) (p : Nat) (super : Bool) (va n : Nat) : Except Byte (List Byte) :=
  s.vReadBy (s.tableView p) p super va n

/-- Writes bytes at virtual addresses, at their homes; none of them where any page refuses. -/
def State.vWrite (s : State) (p : Nat) (super : Bool) (va : Nat) (bs : List Byte) : Except Byte State :=
  match (pieces va bs.length).mapM fun pc => (s.vPa p super .store pc.1).map fun a => (pc, a) with
  | .error e => .error e
  | .ok l => match l.foldlM (init := s) fun t e => t.placeWrite p e.2 ((bs.drop (e.1.1 - va)).take e.1.2) with
    | some t => .ok t
    | none => .error 0x0A

/-- The address at which a read fails: the start of the first piece that does. -/
def State.vBad (s : State) (p : Nat) (super : Bool) (va n : Nat) : Nat :=
  (((pieces va n).find? fun pc => match s.vRead p super pc.1 pc.2 with | .ok _ => false | .error _ => true).map (·.1)).getD va
/-- A little-endian field at a virtual address. -/
def State.vNat (s : State) (p : Nat) (super : Bool) (va n : Nat) : Except Byte Nat := (s.vRead p super va n).map natOfBytes
/-- A field of a record or an image. Hardware writes records and checks images as a whole, and neither can stand in a device
table: there the read gives PROTECT (log 28). -/
def State.vField (s : State) (p : Nat) (super : Bool) (va n : Nat) : Except Byte Nat :=
  (s.vReadBy (fun _ _ => none) p super va n).map natOfBytes

/-! Shootdown (R122). -/

/-- Does an entry overlap the pages of a shootdown? CNT 0 means the whole partition. -/
def shotDown (va cnt base size : Nat) : Bool := cnt == 0 || State.overlap base size va (cnt * 4096)

/-- Removes every entry of a partition that overlaps the range, in every TLB and in the walk cache. -/
def State.tlbRemove (s : State) (p va cnt : Nat) : State :=
  let gone := fun (t : TlbEntry) => t.part == p && shotDown va cnt t.va t.size
  { s with
    cores := s.cores.map fun e => (e.1, { e.2 with tlb := e.2.tlb.filter fun t => !gone t }),
    clusters := s.clusters.map fun e => (e.1, { e.2 with tlb := e.2.tlb.filter fun t => !gone t }),
    walkCache := s.walkCache.filter fun e =>
      !(e.part == p && shotDown va cnt (e.idx * 2 ^ (12 + 9 * e.level)) (2 ^ (12 + 9 * e.level))) }

end Sys2Proof.Machine
end

