-- ==== Sys2Proof/Machine/Units.lean ====
section
/-! DEFINITION. Continuation records, ready queues, completion counters, launches, graphs and phases, leases at their end,
the finish of a unit, CANCEL and the removal of a context (R29 to R43, R150 to R152, R197 to R203, R264 to R269, R334, R375). -/
namespace Sys2Proof.Machine

/-- Scopes .clu and wider, which act on the L1 (R131). -/
def atLeastClu : Scope → Bool
  | .ctx | .core => false
  | .clu | .stk | .pkg | .dom | .sys => true
/-- Scopes wider than .clu. -/
def widerThanClu : Scope → Bool
  | .ctx | .core | .clu => false
  | .stk | .pkg | .dom | .sys => true
/-! Continuation records (Table 1-4), as a 512-bit number. -/

/-- The fields of a record. -/
structure Rec where
  pc : Nat := 0
  frame : Nat := 0
  launch : Nat := 0
  yield : Nat := 0
  pri : Nat := 0
  spec : Bool := false
  state : Nat := 0
  wait : Nat := 0
  a0 : Nat := 0
  a1 : Nat := 0
  links : Nat := 0
  run : Nat := 0
  iter : Nat := 0
  rest : Nat := 0
  deriving DecidableEq, Repr

def Rec.ofNat (n : Nat) : Rec :=
  { pc := bitsOf n 63 0, frame := bitsOf n 127 64, launch := bitsOf n 159 128, yield := bitsOf n 175 160,
    pri := bitsOf n 182 176, spec := bitOf n 183, state := bitsOf n 191 184, wait := bitsOf n 255 192,
    a0 := bitsOf n 319 256, a1 := bitsOf n 383 320, links := bitsOf n 447 384, run := bitsOf n 471 448,
    iter := bitsOf n 479 472, rest := bitsOf n 511 480 }

def Rec.toNat (r : Rec) : Nat :=
  r.pc + r.frame * 2 ^ 64 + r.launch * 2 ^ 128 + r.yield * 2 ^ 160 + r.pri * 2 ^ 176 + (if r.spec then 2 ^ 183 else 0)
    + r.state * 2 ^ 184 + r.wait * 2 ^ 192 + r.a0 * 2 ^ 256 + r.a1 * 2 ^ 320 + r.links * 2 ^ 384 + r.run * 2 ^ 448
    + r.iter * 2 ^ 472 + r.rest * 2 ^ 480

/-- Kind, object and target of a wait condition (Table 1-4). -/
def waitKind (w : Nat) : Nat := bitsOf w 63 56
def waitObj (w : Nat) : Nat := bitsOf w 55 32
def waitTarget (w : Nat) : Nat := bitsOf w 31 0
/-- Does the object of a wait have a bit that Table 1-5 gives as zero? -/
def waitObjBad (w : Nat) : Bool :=
  (waitKind w == 3 && (bitOf (waitObj w) 23 || bitsOf (waitObj w) 7 5 != 0)) || (waitKind w == 4 && waitObj w ≥ 256)

/-- The links field (R266). -/
def linksOf (graph phase job : Nat) : Nat := graph + phase * 2 ^ 16 + job * 2 ^ 24
def Rec.graph (r : Rec) : Nat := bitsOf r.links 15 0
def Rec.phaseNo (r : Rec) : Nat := bitsOf r.links 23 16
def Rec.job (r : Rec) : Nat := bitsOf r.links 29 24

namespace State

/-- Reads a record (R29), none where its address does not translate. -/
def readRec (s : State) (p va : Nat) : Option Rec :=
  match s.vField p true va 64 with
  | .ok n => some (Rec.ofNat n)
  | .error _ => none
/-- Writes a record; nothing where its address does not translate. -/
def writeRec (s : State) (p va : Nat) (r : Rec) : State :=
  match s.vWrite p true va (bytesOfNat 64 r.toNat) with
  | .ok t => t
  | .error _ => s
/-- Writes byte 23 of a record (R29). -/
def setRecState (s : State) (p va st : Nat) : State :=
  match s.vWrite p true (va + 23) [BitVec.ofNat 8 st] with
  | .ok t => t
  | .error _ => s
/-- The state byte of a record. -/
def recState (s : State) (p va : Nat) : Nat := ((s.readRec p va).map (·.state)).getD 0

/-! Images (Table 9-1). -/
def imgField (s : State) (p img off n : Nat) : Nat :=
  match s.vField p true (img + off) n with
  | .ok v => v
  | .error _ => 0
/-- Entry i of the section table: KIND, FLAGS, OFFSET, SIZE and whether its reserved fields are zero (Table 9-2). -/
def imgSection (s : State) (p img i : Nat) : Nat × Nat × Nat × Nat × Bool :=
  let a := s.imgField p img 16 4 + 32 * i
  (s.imgField p img a 2, s.imgField p img (a + 2) 2, s.imgField p img (a + 8) 4, s.imgField p img (a + 12) 4,
    s.imgField p img (a + 4) 4 == 0 && s.imgField p img (a + 16) 16 == 0)
/-- Offset and size of the first section of a kind. -/
def imgFind (s : State) (p img kind : Nat) : Option (Nat × Nat) :=
  (List.range (s.imgField p img 20 2)).findSome? fun i =>
    let e := s.imgSection p img i
    if e.1 = kind then some (e.2.2.1, e.2.2.2.1) else none
/-- The control section's address and size. -/
def ctlSection (s : State) (p img : Nat) : Nat × Nat :=
  match s.imgFind p img 1 with
  | some (o, n) => (img + o, n)
  | none => (img, 0)
/-- SAVE, RESTORE, FRAME and the reserved word of a yield table entry (Table 7-16). -/
def yieldEntry (s : State) (p img y : Nat) : Nat × Nat × Nat × Nat :=
  let a := s.imgField p img 36 4 + 16 * y
  (s.imgField p img a 4, s.imgField p img (a + 4) 4, s.imgField p img (a + 8) 4, s.imgField p img (a + 12) 4)
def yieldCnt (s : State) (p img : Nat) : Nat := s.imgField p img 40 4
/-- Is a yield index usable (R31, R195)? R195's list of what makes the records that name an entry malformed has the offsets and the reserved
field; here a FRAME that is no multiple of 64 or above 2^24, and an entry 0 that is not empty, do so too (DESIGN CHOICE, log 28). -/
def yieldOk (s : State) (p img y : Nat) : Bool :=
  let n := (s.ctlSection p img).2
  let e := s.yieldEntry p img y
  let off := fun o => o == 0xFFFFFFFF || (o % 16 == 0 && decide (o < n))
  decide (y < s.yieldCnt p img) && off e.1 && off e.2.1 && e.2.2.2 == 0 && e.2.2.1 % 64 == 0 && decide (e.2.2.1 ≤ 2 ^ 24)
    && (y != 0 || (e.1 == 0xFFFFFFFF && e.2.1 == 0xFFFFFFFF && e.2.2.1 == 0))
/-- The largest FRAME of an image's yield table (R373). -/
def maxFrame (s : State) (p img : Nat) : Nat :=
  (List.range (s.yieldCnt p img)).foldl (fun m y => max m (s.yieldEntry p img y).2.2.1) 0
/-- F(i) for the pool slot of a record (R373). -/
def frameAddr (s : State) (p l recVa : Nat) : Nat :=
  let r := (s.launch l).fields
  r.rpool + r.rpooln * 64 + (recVa - r.rpool) / 64 * (s.maxFrame p r.image + 35840)

/-- Is a record malformed (R31)? -/
def recBad (s : State) (p : Nat) (r : Rec) (img : Nat) : Bool :=
  r.rest != 0 || bitsOf r.links 63 30 != 0 || r.pc % 16 != 0 || decide (7 ≤ r.state) || decide (7 ≤ waitKind r.wait)
    || (waitKind r.wait == 6 && !r.spec) || waitObjBad r.wait || !s.yieldOk p img r.yield

/-! Ready queues (R150). -/

/-- The cores of a cluster that belong to a launch's bind set, from a core clockwise. -/
def bindRing (s : State) (l core : Nat) : List Nat :=
  let clu := clusterOf core
  ((List.range 8).map fun i => coreAt clu ((stopOf core + i) % 8)).filter fun n =>
    (List.range 4).any fun c => s.boundTo (n * 4 + c) l
/-- Has a core been fenced (R172)? -/
def coreFenced (s : State) (core : Nat) : Bool := s.slotState (core * 4) == 4
/-- The cores whose queues take an entry meant for a core, in order: that core, and clockwise from it the others of the bind set. A
fenced core picks nothing up, so its units go to any core of the bind set (R378), and where its cluster has none left, to any of the launch
(DESIGN CHOICE, log 28). -/
def queueRing (s : State) (l core : Nat) : List Nat :=
  if s.coreFenced core then s.bindRing l core ++ ((s.launch l).ctxs.filter fun c => s.boundTo c l).map coreOf
  else core :: s.bindRing l core
/-- Is there room for an entry, and does none wait for one already (R150)? -/
def queueRoom (s : State) (l core : Nat) : Bool :=
  (s.queueRing l core).any (fun n => decide ((s.core n).ready.length < 64)) ||
    (decide ((s.cluster (clusterOf core)).spill.length < 512) && (s.cluster (clusterOf core)).late.isEmpty)
/-- Enters a record in a ready queue: its own core's, else the next of the bind set with room, else the spill list. Where that is
full too, the record waits for an entry, and counts as ready meanwhile. -/
def enqueue (s : State) (e : Ready) : State :=
  match (s.queueRing e.launch.toNat e.home).find? fun n => (s.core n).ready.length < 64 with
  | some n => s.modCore n fun x => { x with ready := x.ready ++ [e] }
  | none => s.modCluster (clusterOf e.home) fun x =>
    if x.spill.length < 512 ∧ x.late = [] then { x with spill := x.spill ++ [e] } else { x with late := x.late ++ [e] }
/-- Removes a record's entries from every ready queue and spill list (R151). -/
def dequeue (s : State) (p va : Nat) : State :=
  let keep := fun (e : Ready) => !(e.part == p && e.recVa == va)
  { s with cores := s.cores.map fun e => (e.1, { e.2 with ready := e.2.ready.filter keep }),
           clusters := s.clusters.map fun e => (e.1, { e.2 with spill := e.2.spill.filter keep, late := e.2.late.filter keep }) }

/-! Waiting records (R30, R201). -/

/-- The context on which a record's unit runs. -/
def ctxOfRec (s : State) (p va : Nat) : Option Nat :=
  (s.ctxs.find? fun e => match e.2.running with | some u => u.part == p && u.recVa == va | none => false).map (·.1)
/-- The suspended records of bound launches that no context runs: partition and address. -/
def suspended (s : State) : List (Nat × Nat) :=
  s.launches.flatMap fun e =>
    if e.2.bound && !e.2.complete then
      (List.range e.2.fields.rpooln).filterMap fun i =>
        let va := e.2.fields.rpool + 64 * i
        match s.readRec e.2.part va with
        | some r => if r.state = 3 ∧ r.launch = e.1 ∧ (s.ctxOfRec e.2.part va).isNone then some (e.2.part, va) else none
        | none => none
    else []
/-- The core that wrote a record back. -/
def homeOf (s : State) (p va : Nat) : Nat := (assocGet ({} : Kept) (s.part p).kept va).home
/-- May a record with a wait be picked up in the bind set to which it goes back, that of the launch in the cluster of the core `home` (R39)?
One that waits on a barrier only by the barrier's owning core, where that is in the bind set (R260, Table 1-5). -/
def barBound (s : State) (l w home : Nat) : Bool :=
  let own := bitsOf (waitObj w) 16 8
  waitKind w != 3 || (bitsOf (waitObj w) 22 17 == s.pkg && clusterOf own == clusterOf home
    && (List.range 4).any fun i => s.boundTo (own * 4 + i) l)
/-- Whether a record's lease was granted while its save sequence ran: that has satisfied its wait (R434). -/
def granted (s : State) (p va w : Nat) : Bool := waitKind w == 4 && (assocGet ({} : Kept) (s.part p).kept va).met
def setGranted (s : State) (p va : Nat) (b : Bool) : State :=
  s.modPart p fun q => { q with kept := assocSet q.kept va { assocGet {} q.kept va with met := b } }
/-- A suspended record's wait is satisfied: it becomes ready on the queue of the core that wrote it back. Where no queue has room,
that is delayed (R150). A wait on a barrier whose core is not in the bind set stays suspended until CANCEL (R260). -/
def wakeRec (s : State) (p va : Nat) : State :=
  match s.readRec p va with
  | none => s
  | some r =>
    let home := s.homeOf p va
    if !s.barBound r.launch r.wait home then s
    else if s.queueRoom r.launch home then
      (s.setRecState p va 1).enqueue
        { recVa := va, part := p, launch := BitVec.ofNat 32 r.launch, pri := r.pri, time := s.now, home := home }
    else s.setGranted p va true
/-- Makes ready the suspended records whose wait condition an event has satisfied (R30): those of a partition that a test of the
wait condition selects. -/
def wakeWhere (s : State) (p : Nat) (sat : Nat → Bool) : State :=
  s.suspended.foldl (fun t e =>
    if e.1 = p ∧ (((t.readRec p e.2).map fun r => sat r.wait).getD false) = true then t.wakeRec p e.2 else t) s

/-! Completion counters (R197 to R201). -/

/-- The word a read returns (R197). -/
def counterWord (c : Counter) : Word :=
  BitVec.ofNat 64 (c.status * 2 ^ 62 + (if c.err then 2 ^ 61 else 0) + c.live % 2 ^ 24 * 2 ^ 32 + c.done.toNat)
/-- An event of a counter: it takes a new value, and the waits on it are tested (R201): suspended records of wait kind 1 and contexts
that hold on it. -/
def counterEvent (s : State) (p n : Nat) (x : Counter) : State :=
  let met := fun (t : Nat) => decide (t ≤ x.done.toNat)
  let held := fun (e : Nat × Ctx) => match e.2.cntOn with
    | some (m, t, false) => if m = n ∧ e.2.partNo = p ∧ met t = true then (e.1, { e.2 with cntOn := some (m, t, true) }) else e
    | _ => e
  let s := s.setCounter p n x
  ({ s with ctxs := s.ctxs.map held }).wakeWhere p fun w => waitKind w == 1 && waitObj w == n && met (waitTarget w)
/-- An item of a level finishes (R199). -/
def countItem (s : State) (p n : Nat) (err : Bool) : State :=
  let c := s.counter p n
  s.counterEvent p n { c with done := c.done + 1, live := c.live - 1, err := c.err || err }
/-- Every item of a level that has not finished does so at once. -/
def countAll (s : State) (p n : Nat) : State :=
  let c := s.counter p n
  s.counterEvent p n { c with done := c.done + BitVec.ofNat 32 c.live, live := 0 }
/-- Items begin. -/
def countLive (s : State) (p n k : Nat) : State :=
  let c := s.counter p n
  s.setCounter p n { c with live := c.live + k }
/-- Opens a level's counter (R198). -/
def openCounter (s : State) (p n kind live : Nat) (encl : Option Nat) : State :=
  s.setCounter p n { done := 0, live := live, status := 1, err := false, cancelled := false, kind := kind, encl := encl }
/-- A level completes: STATUS 2, or 3 where it was cancelled (R199). -/
def closeCounter (s : State) (p n : Nat) : State :=
  let c := s.counter p n
  s.setCounter p n { c with status := if c.cancelled then 3 else 2 }
def markCancelled (s : State) (p n : Nat) (err : Bool) : State :=
  let c := s.counter p n
  s.setCounter p n { c with cancelled := true, err := c.err || err }

/-! Launch records (Table 10-4). -/

/-- The fields of a launch record read as a number. -/
def parseLaunch (addr n : Nat) : LaunchRec :=
  let f := fun b k => n / 2 ^ (8 * b) % 2 ^ (8 * k)
  { addr := addr, kind := f 0 1 % 8, pri := f 1 1, cnt := f 2 2, encl := f 4 2, ninit := f 6 2, image := f 8 8,
    entry := f 16 4, rpooln := f 20 4, rpool := f 24 8, arg0 := BitVec.ofNat 64 (f 32 8), arg1 := BitVec.ofNat 64 (f 40 8),
    clumask := f 48 8, rects := (bytesOfNat 4 (f 56 4)).map (·.toNat), spbytes := f 60 4, ctlp := f 64 1, tabbase := f 65 1,
    tabcount := f 66 1, maxctx := f 68 4, list := f 72 8, listn := f 80 4, succ := f 88 8 }

/-- Is a record of a kind well formed in itself (R264, R267)? `n` is the record as a number. -/
def launchOk (r : LaunchRec) (n : Nat) : Bool :=
  let f := fun b k => n / 2 ^ (8 * b) % 2 ^ (8 * k)
  f 96 32 == 0 && f 84 4 == 0 && f 67 1 == 0 && f 0 1 < 4 && decide (r.pri < 128) &&
  match r.kind with
  | 0 => f 72 24 == 0 && decide (r.cnt ≤ 1023) && decide (1 ≤ r.ninit) && decide (r.ninit ≤ 2048) && decide (1 ≤ r.rpooln)
      && decide (r.rpooln ≤ 2 ^ 24) && decide (1 ≤ r.maxctx) && decide (r.maxctx ≤ 2048) && decide (r.tabbase < 64)
      && decide (r.tabcount ≤ 64) && decide (r.tabbase + r.tabcount ≤ 64) && bitsOf r.ctlp 6 4 == 0 && !bitOf r.ctlp 2
      && r.image % 64 == 0 && r.rpool % 64 == 0 && r.entry % 16 == 0
  | 1 => f 6 66 == 0 && decide (r.cnt ≤ 1023) && decide (1 ≤ r.listn) && decide (r.listn ≤ 65535)
  | 2 => f 6 66 == 0 && decide (r.cnt ≤ 254) && decide (1 ≤ r.listn) && decide (r.listn ≤ 255) && r.succ == 0
  | _ => f 6 66 == 0 && f 72 24 == 0 && decide (r.cnt ≤ 62) && r.encl == 0xFFFF

/-- Reads bytes for a LAUNCH: a failure comes with its address (Table 13-1). -/
def readAt (s : State) (p : Nat) (super : Bool) (va n : Nat) : Except (Byte × Nat) (List Byte) :=
  match s.vRead p super va n with
  | .ok bs => .ok bs
  | .error e => .error (e, s.vBad p super va n)
/-- Reads a record: its fields where it is well formed, nothing where it is not, an error where it cannot be read. -/
def readLaunch (s : State) (p : Nat) (super : Bool) (addr : Nat) : Except (Byte × Nat) (Option LaunchRec) :=
  match s.readAt p super addr 128 with
  | .error e => .error e
  | .ok bs =>
    let n := natOfBytes bs
    let r := parseLaunch addr n
    .ok (if launchOk r n then some r else none)

/-- Reads a node (Table 10-5) with its successors, none where it is malformed. -/
def readNode (s : State) (p : Nat) (super : Bool) (r : LaunchRec) (i : Nat) : Except (Byte × Nat) (Option Node) := do
  let n := natOfBytes (← s.readAt p super (r.list + 32 * i) 32)
  let f := fun b k => n / 2 ^ (8 * b) % 2 ^ (8 * k)
  let ns := f 4 2
  let sb ← if ns = 0 then pure [] else s.readAt p super (r.succ + 2 * f 8 4) (2 * ns)
  let succ := (List.range ns).map fun j => natOfBytes ((sb.drop (2 * j)).take 2)
  let copy := f 0 1 == 1
  let ok := f 0 1 ≤ 1 && f 1 1 == 0 && f 6 2 == 0 && succ.all (fun j => decide (j < r.listn) && j != i) &&
    (if copy then f 12 4 != 0 else f 12 4 == 0 && f 24 8 == 0)
  let sub ← if copy then pure true else do
    let q ← s.readLaunch p super (f 16 8)
    pure (match q with | some q => q.kind == 0 | none => false)
  return if ok && sub then
    some { copy := copy, a := f 16 8, b := f 24 8, bytes := f 12 4, succ := succ, pred := f 2 2 } else none

/-- Reads a graph's nodes and checks them (R267): the index of the first offending node, or the nodes. -/
def readGraph (s : State) (p : Nat) (super : Bool) (r : LaunchRec) : Except (Byte × Nat) (Except Nat (List Node)) := do
  let ns ← (List.range r.listn).mapM fun i => s.readNode p super r i
  let edges := fun i => ((ns.map fun o => match o with | some n => (n.succ.filter (· == i)).length | none => 0)).sum
  let bad := (List.range r.listn).find? fun i => match ns.getD i none with
    | some n => decide (n.pred < edges i)
    | none => true
  return match bad with
    | some i => .error i
    | none => .ok (ns.filterMap id)

/-- The next launch number (R264: zero is never assigned). -/
def takeLaunchNo (s : State) : Nat × State :=
  (s.nextLaunch.toNat, { s with nextLaunch := if s.nextLaunch + 1 = 0 then 1 else s.nextLaunch + 1 })

/-- Enters a launch in the launch queue (R152). -/
def queueLaunch (s : State) (l pri : Nat) : State :=
  { s with launchq := s.launchq ++ [(l, pri)] }
/-- Must a launch or node wait inside the dealer: is the launch queue full, or does another wait already (R152)? -/
def queueFull (s : State) : Bool := decide (4096 ≤ s.launchq.length) || !s.nodeWait.isEmpty
/-- A launch loses a bound context (R370, R378, Table 7-6): it is no longer fully bound, so it stands in the launch queue
again until it is (R152), or waits inside the dealer for an entry. -/
def loseContext (s : State) (c l : Nat) : State :=
  let x := s.launch l
  let s := s.modLaunch l fun y => { y with ctxs := y.ctxs.filter (· != c) }
  if x.complete || x.cancelled || s.launchq.any (fun e => e.1 == l) || s.nodeWait.contains (.launch l)
      || !s.launches.any (fun e => e.1 == l) then s
  else if s.queueFull then { s with nodeWait := s.nodeWait ++ [.launch l] }
  else s.queueLaunch l x.fields.pri

/-- Opens a KIND 0 launch and enters it in the launch queue (R198, R268). A LAUNCH has waited for an entry; a job's launch for which
there is none waits inside the dealer as a node does (R152). -/
def openLaunch (s : State) (p : Nat) (r : LaunchRec) (super : Bool) (graph phase job : Nat) (node : Option (Nat × Nat)) :
    Nat × State :=
  let (l, s) := s.takeLaunchNo
  let s := s.openCounter p r.cnt 0 r.ninit (if node.isNone && r.encl != 0xFFFF then some r.encl else none)
  let s := s.setLaunch l { part := p, fields := r, super := super, graph := graph, phase := phase, job := job, node := node }
  (l, if s.launchq.length < 4096 then s.queueLaunch l r.pri else { s with nodeWait := s.nodeWait ++ [.launch l] })

/-- The enclosing phase and job numbers of a graph. -/
def graphLinks (s : State) (p g : Nat) : Nat × Nat :=
  let gr := s.graph p g
  let ph := gr.phase.getD 0xFF
  let job := match gr.phase with
    | some h => (s.phase p h).job.getD 0x3F
    | none => ((s.counter p g).encl).getD 0x3F
  (ph, job)

/-- Node `i` of a graph takes a state. -/
def setNode (s : State) (p g i : Nat) (f : Node → Node) : State :=
  let gr := s.graph p g
  s.setGraph p g { gr with nodes := gr.nodes.modify i f }

/-- Nodes reachable from a set along successor edges, in at most `fuel` rounds. -/
def followers (ns : List Node) : Nat → List Nat → List Nat
  | 0, l => l
  | f + 1, l =>
    let more := (l.flatMap fun i => ((ns[i]?).map (·.succ)).getD []).filter fun j => !l.contains j
    if more.isEmpty then l else followers ns f (l ++ more.eraseDups)

/-- A graph completes (R199, R203): its counter closes, its nodes are released, and it counts in its phase or job. A cancelled one
cancels the later graphs of its phase (R38). -/
def finishGraph (s : State) (p g : Nat) : State :=
  let c := s.counter p g
  let gr := s.graph p g
  let s := (s.closeCounter p g).setGraph p g { gr with isOpen := false, nodes := [] }
  match gr.phase with
  | some h => if c.cancelled then (s.countItem p h false).markCancelled p h false else s.countItem p h false
  | none => match c.encl with
    | some j => s.countItem p j false
    | none => s

/-- The nodes of a graph that have been cancelled wait for the launch queue no longer (R152). -/
def dropWaiters (s : State) (p g : Nat) : State :=
  { s with nodeWait := s.nodeWait.filter fun w => match w with
    | .node q h i => !(q == p && h == g && ((((s.graph p g).nodes[i]?).map fun n => n.st != 1).getD true))
    | .launch _ => true }
/-- A node leaves its graph unfinished: it and every node that follows it are cancelled and counted (R38). -/
def cancelNode (s : State) (p g i : Nat) (err : Bool) : State :=
  let gr := s.graph p g
  let gone := (followers gr.nodes gr.nodes.length [i]).filter fun j =>
    match gr.nodes[j]? with | some n => decide (n.st < 3) && (j == i || n.st != 2) | none => false
  let s := gone.foldl (fun t j => (t.setNode p g j fun n => { n with st := 4 }).countItem p g (err && j == i)) s
  (s.markCancelled p g false).dropWaiters p g

/-- A ready launch node becomes a launch (R265); a malformed one is cancelled with ERR, and one that has been cancelled starts nothing. So is
one whose CNT is open then (DESIGN CHOICE, log 28: R198's PROTECT speaks of a LAUNCH). -/
def startNode (s : State) (p g i : Nat) : State :=
  match (s.graph p g).nodes[i]? with
  | none => s
  | some n =>
    if 2 ≤ n.st then s
    else match s.readLaunch p true n.a with
    | .ok (some r) =>
      if r.kind = 0 ∧ (s.counter p r.cnt).status ≠ 1 then
        let (ph, job) := s.graphLinks p g
        let (l, s) := s.openLaunch p r false g ph job (some (g, i))
        s.setNode p g i fun n => { n with st := 2, launch := BitVec.ofNat 32 l }
      else s.cancelNode p g i true
    | _ => s.cancelNode p g i true
/-- A node whose count is zero is ready (R37, R152): its entry is read again, and one that is malformed now is cancelled with ERR (R267); a
launch node enters the launch queue, or waits inside the dealer. -/
def readyNode (s : State) (p g i : Nat) : State :=
  match s.readNode p true (s.graph p g).src i with
  | .ok (some n) =>
    let s := s.setNode p g i fun m => { n with pred := m.pred, st := m.st, launch := m.launch }
    if n.copy then s.setNode p g i fun n => { n with st := 1 }
    else if s.queueFull then
      { (s.setNode p g i fun n => { n with st := 1 }) with nodeWait := s.nodeWait ++ [.node p g i] }
    else s.startNode p g i
  | _ => s.cancelNode p g i true

/-- Opens a graph with its nodes (R203, R268): its counter and the nodes with count zero. -/
def openGraph (s : State) (p : Nat) (r : LaunchRec) (ns : List Node) (phase : Option Nat) : State :=
  let encl := if phase.isNone && r.encl != 0xFFFF then some r.encl else none
  let s := (s.openCounter p r.cnt 1 ns.length encl).setGraph p r.cnt { src := r, nodes := ns, phase := phase, isOpen := true }
  (List.range ns.length).foldl (fun t i => match (t.graph p r.cnt).nodes[i]? with
    | some n => if n.pred = 0 ∧ n.st = 0 then t.readyNode p r.cnt i else t
    | none => t) s

/-- Opens the next graph of a phase, or counts a malformed one as finished with ERR (R36, R267); it does so with one whose CNT is open
(DESIGN CHOICE, log 28). -/
def nextGraph (s : State) (p h : Nat) : State :=
  let ph := s.phase p h
  match ph.graphs[ph.index]? with
  | none => s
  | some a =>
    let s := s.setPhase p h { ph with index := ph.index + 1 }
    match s.readLaunch p true a with
    | .ok (some r) =>
      if r.kind = 1 ∧ (s.counter p r.cnt).status ≠ 1 then
        match s.readGraph p true r with
        | .ok (.ok ns) => s.openGraph p r ns (some h)
        | _ => (s.countItem p h true).markCancelled p h true
      else (s.countItem p h true).markCancelled p h true
    | _ => (s.countItem p h true).markCancelled p h true

/-- The graphs of a phase that have not opened are counted as finished: the phase was cancelled (R38). -/
def dropGraphs (s : State) (p h : Nat) : State :=
  let ph := s.phase p h
  (List.range (ph.graphs.length - ph.index)).foldl (fun t _ => t.countItem p h false)
    (s.setPhase p h { ph with index := ph.graphs.length })

/-- The completion of a phase counter ends the coolant requests that name it (R290). -/
def endFlows (s : State) (p h : Nat) : State :=
  { s with zones := s.zones.map fun e => match e.2.flow with
    | some (q, _, ph) => if q = p ∧ ph = h then (e.1, { e.2 with flow := none }) else e
    | none => e }
/-- A phase completes (R199): with it the coolant requests that name it end, and it counts in its job. -/
def finishPhase (s : State) (p h : Nat) : State :=
  let encl := (s.counter p h).encl
  let s := ((s.closeCounter p h).setPhase p h { s.phase p h with isOpen := false }).endFlows p h
  match encl with
  | some j => s.countItem p j false
  | none => s
/-- Is it a phase's turn (R36)? The phases of a job run in the order in which they opened. -/
def phaseTurn (s : State) (p h : Nat) : Bool :=
  let x := s.phase p h
  x.job.isNone || s.phases.all fun e =>
    !(e.1 / 1024 == p && e.2.isOpen && e.2.job == x.job && decide (e.2.seq < x.seq))
/-- Can an open phase go on: no graph of it is open, and graphs are left to open or to drop, or every one has finished? -/
def phaseGoes (s : State) (p h : Nat) : Bool :=
  let x := s.phase p h
  let c := s.counter p h
  !(s.graphs.any fun e => e.1 / 1024 == p && e.2.isOpen && e.2.phase == some h) &&
    (if x.index < x.graphs.length then c.cancelled || s.phaseTurn p h else c.live == 0)
/-- A phase goes on (R36, R38): the next graph opens, or nothing more does once it is cancelled; at the end it completes. -/
def phaseStep (s : State) (p h : Nat) : State :=
  let x := s.phase p h
  if x.index < x.graphs.length then (if (s.counter p h).cancelled then s.dropGraphs p h else s.nextGraph p h)
  else s.finishPhase p h
/-- The next graph of a partition that completes, or phase that goes on, and the state after it. -/
def levelStep (s : State) (p : Nat) : Option State :=
  match s.graphs.find? fun e => e.1 / 1024 == p && e.2.isOpen && (s.counter p (e.1 % 1024)).live == 0 with
  | some e => some (s.finishGraph p (e.1 % 1024))
  | none => (s.phases.find? fun e => e.1 / 1024 == p && e.2.isOpen && s.phaseGoes p (e.1 % 1024)).map fun e =>
    s.phaseStep p (e.1 % 1024)
def settleFrom (p : Nat) : Nat → State → State
  | 0, s => s
  | f + 1, s => match s.levelStep p with
    | none => s
    | some t => settleFrom p f t
/-- Graphs and phases of a partition complete and go on as far as they can, after an item of one has finished: each graph still to
come takes two steps, each phase at most two more. -/
def settle (s : State) (p : Nat) : State :=
  settleFrom p (2 * ((s.phases.map fun e => e.2.graphs.length + 1).sum + s.graphs.length)) s

/-- A launch or node that waits inside the dealer enters the launch queue as an entry frees (R152). -/
def admitWaiting (s : State) : State :=
  if 4096 ≤ s.launchq.length then s
  else match s.nodeWait with
    | [] => s
    | .node p g i :: ns => ({ s with nodeWait := ns }.startNode p g i).settle p
    | .launch l :: ns => { s with nodeWait := ns }.queueLaunch l (s.launch l).fields.pri
/-- A launch leaves the launch queue, and what waits enters. -/
def leaveQueue (s : State) (l : Nat) : State :=
  let s := { s with launchq := s.launchq.filter (fun e => e.1 != l), nodeWait := s.nodeWait.filter (· != .launch l) }
  (List.range s.nodeWait.length).foldl (fun t _ => t.admitWaiting) s

/-- A node completes: its successors' counts go down, those at zero become ready (R37). -/
def completeNode (s : State) (p g i : Nat) : State :=
  match (s.graph p g).nodes[i]? with
  | none => s
  | some n =>
    let s := (s.setNode p g i fun n => { n with st := 3 }).countItem p g false
    let s := n.succ.foldl (fun t j =>
      let t := t.setNode p g j fun m => { m with pred := m.pred - 1 }
      match (t.graph p g).nodes[j]? with
      | some m => if m.pred = 0 ∧ m.st = 0 then t.readyNode p g j else t
      | none => t) s
    s.settle p

/-! Leases at their end (R175, R333, R334). -/

/-- The mark of a lease's slots in `slotOwn`. -/
def leaseMark (p rect : Nat) : Nat := p * 256 + rect + 1
/-- Ends a held lease: the table entry and the lease slots are released, and slot contents are lost. -/
def endLease (s : State) (p rect : Nat) : State :=
  let s := s.setLease p rect false ((s.part p).reqs.any fun q => q.rect == rect) 0 0
  { s with slotOwn := s.slotOwn.map fun e => if e.2 = leaseMark p rect then (e.1, 0) else e }
/-- Withdraws the requests of a context or record for a rectangle; WAIT clears when no other waits. -/
def withdraw (s : State) (p rect : Nat) (who : LeaseReq → Bool) : State :=
  let s := s.modPart p fun q => { q with reqs := q.reqs.filter fun r => !(r.rect == rect && who r) }
  if (s.part p).reqs.any fun r => r.rect == rect then s else s.setLeaseWait p rect false
/-- Ends whatever lease or request a context's matrix stream has (R334). -/
def dropLease (s : State) (c : Nat) : State :=
  let p := (s.ctx c).partNo
  match (s.ctx c).lease with
  | .none => s
  | .held r _ _ => (s.endLease p r).modCtx c fun x => { x with lease := .none, losing := false }
  | .requested r _ => (s.withdraw p r fun q => q.ctx == some c).modCtx c fun x => { x with lease := .none }
  | .lost _ => s.modCtx c fun x => { x with lease := .none }
/-- Ends the parked lease or request of a record (R434, R372). -/
def dropParked (s : State) (p va : Nat) : State :=
  let s := ((s.part p).parked.filter fun k => k.recVa == va).foldl (fun t k => t.endLease p k.rect) s
  let s := s.modPart p fun q => { q with parked := q.parked.filter fun k => k.recVa != va }
  ((s.part p).reqs.filter fun q => q.ctx.isNone && q.recVa == va).foldl
    (fun t q => t.withdraw p q.rect fun r => r.ctx.isNone && r.recVa == va) s

/-! The finish of a unit (R32, R199, R278, R280). -/

/-- The open run whose guess unit a record is. -/
def guessOf (s : State) (p va : Nat) : Option Nat :=
  ((s.part p).runs.find? fun e => e.2.isOpen && e.2.guess == va && e.2.guessState == 0).map (·.1)

/-- A unit enters state 4, 5 or 6 (R32): its record, its launch's counter on the first such entry, and its run. The shadow of a
cancelled or discarded iteration is discarded (R38). -/
def finishRec (s : State) (p va st : Nat) (err : Bool) : State :=
  match s.readRec p va with
  | none => s
  | some r =>
    let before := r.state == 0 || (decide (4 ≤ r.state) && decide (r.state ≤ 6))
    let s := (s.setRecState p va st).dequeue p va
    let s := if before then s else s.countItem p (s.launch r.launch).fields.cnt err
    if r.spec then
      s.modRun p r.run fun x => { x with iters := x.iters.modify r.iter fun i =>
        { i with finished := st, shadow := if st = 4 then i.shadow else [] } }
    else s
/-- The state in which a unit that has been marked to stop ends: 6 for an iteration whose run is closed (R283), else 5. -/
def stopState (s : State) (c : Nat) (u : Running) : Nat := if (s.ctx c).spec && !(s.run u.part u.run).isOpen then 6 else 5
/-- A unit is discarded, where Table 1-6 has the move to state 6. -/
def discardRec (s : State) (p va : Nat) : State :=
  let st := s.recState p va
  if 1 ≤ st ∧ st ≤ 4 then s.finishRec p va 6 false else s

/-- The guess unit's finish (R278): its iterations become ready in one event, or are discarded. `home` is the core that finished it: on its
ready queue they stand, for no core has written them back (DESIGN CHOICE, log 28; R150 names the core that wrote a record back). -/
def finishGuess (s : State) (p run st home : Nat) : State :=
  let s := s.modRun p run fun x => { x with guessState := st }
  (s.run p run).iters.foldl (fun t i =>
    if st = 4 then
      match t.readRec p i.recVa with
      | some r =>
        if r.state = 3 then
          (t.setRecState p i.recVa 1).enqueue
            { recVa := i.recVa, part := p, launch := BitVec.ofNat 32 r.launch, pri := r.pri, time := t.now, home := home }
        else t
      | none => t
    else t.discardRec p i.recVa) s

/-- A unit finishes, with what follows for a run whose guess it is. -/
def finishUnit (s : State) (p va st : Nat) (err : Bool) (home : Nat) : State :=
  let g := s.guessOf p va
  let s := s.finishRec p va st err
  match g with
  | some run => s.finishGuess p run st home
  | none => s

/-- A context becomes idle: what belongs to the slot and to the hardware stays (R274, R365), and so does whatever the manual names no
change of at HALT or SUSPEND: PINNED, valid bits, sync flags and parameter stacks (R10, Table 3-4), and the data queues (R157, log 28). -/
def idleCtx (s : State) (c : Nat) : State :=
  s.modCtx c fun x =>
    { x with running := none, seq := .none, wq := [],
             streams := x.streams.map fun k => { k with forked := false, ended := true, queue := [], started := [], fetch := [], fault := none },
             lease := .none, losing := false, latches := [], barPhase := none, barOn := none, barLost := false, asked := none, cntOn := none,
             preempt := none, cancel := none, abortOnly := false, stall := 0 }
/-- A write-back empties the data queues (R260). -/
def emptyQueues (s : State) (c : Nat) : State :=
  s.modCtx c fun x => { x with qin := Vector.replicate 4 [], qout := Vector.replicate 4 [] }
/-- Pre-emption and removal empty the data queues and the parameter stacks and clear the sync flags (R83, R84, R157, R375). -/
def clearCtx (s : State) (c : Nat) : State :=
  ((s.idleCtx c).emptyQueues c).modCtx c fun x =>
    { x with flags := Vector.replicate 64 0, streams := x.streams.map fun k => { k with stack := [] } }

/-! Draining a context's store queue to the core (R126, R128). -/

/-- Does a scope act on the L1 of a core (R131)? -/
def scopeActs (s : State) (core : Nat) (sc : Scope) : Bool :=
  if (s.cluster (clusterOf core)).pool then widerThanClu sc else atLeastClu sc
/-- The L1 action of a release at a scope for a partition (R131): every dirty byte of the core's L1, or of the pooled L1, merges into
the L2. -/
def mergeCore (s : State) (core p : Nat) (sc : Scope) : State :=
  if s.scopeActs core sc then (s.l1Group core).foldl (fun t n => t.l1MergeAll n p) s else s
/-- The same for a context. -/
def mergeAt (s : State) (c : Nat) (sc : Scope) : State := s.mergeCore (coreOf c) (s.ctx c).partNo sc
/-- Performs a store at core scope, or at the home where it is uncached (R128). -/
def performStore (s : State) (c : Nat) (e : SqEntry) : State :=
  let p := (s.ctx c).partNo
  let line := e.pa / 64
  if e.uncached then ((s.farSend e.pa).recall line p).homeWriteLine e.key e.pa (bytesOfNat e.size e.val.toNat)
  else s.l1Store (coreOf c) e.key p line (BitVec.ofNat 512 (e.val.toNat % 2 ^ (8 * e.size) * 2 ^ (8 * (e.pa % 64))))
    (byteMask (e.pa % 64) e.size)
/-- Performs one store-queue entry: a store at core scope, a ST.REL at its scope after what stands before it (R130, R131), a FLUSH
or DISCARD at its scope (R141). -/
def performSq (s : State) (c : Nat) (e : SqEntry) : State :=
  let core := coreOf c
  let p := (s.ctx c).partNo
  let line := e.pa / 64
  match e.kind with
  | .store => s.performStore c e
  | .release sc =>
    let s := (s.mergeAt c sc).performStore c e
    if s.scopeActs core sc then s.l1Merge (s.l1Core core line) line p else s
  | .flush sc =>
    match sc with
    | .ctx | .core => s.l1Flush (s.l1Core core line) line p
    | .clu => (List.range 8).foldl (fun t j => t.l1Flush (clusterOf core * 8 + j) line p) s
    | _ => s.recallAll line p
  | .discard sc =>
    match sc with
    | .ctx | .core => s.modCore (s.l1Core core line) (·.dropL1 line)
    | .clu =>
      ((List.range 8).foldl (fun t j => t.modCore (clusterOf core * 8 + j) (·.dropL1 line)) s).modCluster
        (clusterOf core) (·.dropSector line)
    | _ => { s with cores := s.cores.map fun e => (e.1, e.2.dropL1 line),
                    clusters := s.clusters.map fun e => (e.1, e.2.dropSector line) }

/-- Performs the head of a context's store queue; a store to a peer package waits for room among the far requests (R164). -/
def performHead (s : State) (c : Nat) : State :=
  match (s.ctx c).sq with
  | [] => s
  | e :: es => if e.kind.stores && !s.farRoom e.pa then s else (s.modCtx c fun x => { x with sq := es }).performSq c e

/-- Performs a context's whole store queue in order. -/
def drainSq (s : State) (c : Nat) : State :=
  (s.ctx c).sq.foldl (fun t e => t.performSq c e) (s.modCtx c fun x => { x with sq := [] })


end State
end Sys2Proof.Machine
end

