-- ==== Sys2Proof/Machine/Kv.lean ====
section
/-! DEFINITION. Key-value page tables and lists (R180 to R185). -/
namespace Sys2Proof.Machine

/-- A key-value entry from its 16 bytes (Table 7-9). -/
def KvEntry.ofNat (n : Nat) : KvEntry :=
  { valid := bitOf n 64, posbase := bitsOf n 127 96, prov := bitsOf n 95 80, frontier := bitsOf n 79 72,
    stale := bitOf n 67, spl := bitOf n 66, tent := bitOf n 65, col := bitsOf n 63 52, page := bitsOf n 50 40,
    run := bitsOf n 39 16, iter := bitsOf n 15 13, count := bitsOf n 12 6, first := bitsOf n 5 0,
    reserved := bitsOf n 71 68 != 0 || bitOf n 51 }
/-- Its encoding. -/
def KvEntry.toNat (e : KvEntry) : Nat :=
  e.posbase % 2 ^ 32 * 2 ^ 96 + e.prov % 2 ^ 16 * 2 ^ 80 + e.frontier % 256 * 2 ^ 72 + (if e.stale then 2 ^ 67 else 0)
    + (if e.spl then 2 ^ 66 else 0) + (if e.tent then 2 ^ 65 else 0) + (if e.valid then 2 ^ 64 else 0)
    + e.col % 4096 * 2 ^ 52 + e.page % 2048 * 2 ^ 40 + e.run % 2 ^ 24 * 2 ^ 16 + e.iter % 8 * 2 ^ 13 + e.count % 128 * 64
    + e.first % 64
/-- Malformed entries (R180). -/
def KvEntry.bad (e : KvEntry) : Bool :=
  e.reserved || e.count == 0 || decide (64 < e.count) || decide (64 < e.first + e.count) || decide (1536 ≤ e.page)
    || (e.tent && e.spl)

namespace State

/-- Address of entry b of the list of layer l and head h (R180). -/
def kvAddr (s : State) (r l h b : Nat) : Nat := canon (s.reqRoot r + ((l * s.reqHeads r + h) * s.reqMaxblk r + b) * 16)
/-- An entry as it stands at the home, with the partition's KEYDEF (R125). -/
def kvEntry (s : State) (p r l h b : Nat) : KvEntry := KvEntry.ofNat (s.cohNat (s.keydef p) (s.kvAddr r l h b) 16)
/-- The list: entries up to the first with V = 0 (R180). -/
def kvListFrom (s : State) (p r l h : Nat) : Nat → Nat → List KvEntry
  | 0, _ => []
  | n + 1, b =>
    let e := s.kvEntry p r l h b
    if e.valid then e :: s.kvListFrom p r l h n (b + 1) else []
def kvList (s : State) (p r l h : Nat) : List KvEntry := s.kvListFrom p r l h (s.reqMaxblk r) 0
/-- A read of a list by a vertical-bus word: its entries, with the one that ends it, are recalled (R100). -/
def seeList (s : State) (p r l h : Nat) : State :=
  (List.range (min (s.reqMaxblk r) ((s.kvList p r l h).length + 1))).foldl (fun t b => t.busRecall p (t.kvAddr r l h b) 16) s
/-- The lists of every head of some layers. -/
def seeLists (s : State) (p r : Nat) (ls : List Nat) : State :=
  ls.foldl (fun t l => (List.range (t.reqHeads r)).foldl (fun t h => t.seeList p r l h) t) s
/-- Writes a list, with V = 0 in the places that an old list of `old` entries leaves free. -/
def kvWrite (s : State) (p r l h old : Nat) (es : List KvEntry) : State :=
  (es ++ List.replicate (old - es.length) ({} : KvEntry)).zipIdx.foldl
    (fun (t : State) (e : KvEntry × Nat) => t.homeWrite (t.keydef p) p (t.kvAddr r l h e.2) (bytesOfNat 16 (e.1.toNat))) s
/-- Changes the list of every layer and head of a request, as one event (R145). -/
def kvMapAll (s : State) (p r : Nat) (f : Nat → Nat → List KvEntry → List KvEntry) : State :=
  (List.range (s.reqLayers r)).foldl (fun t l => (List.range (t.reqHeads r)).foldl (fun t h =>
    let es := t.kvList p r l h
    let es' := f l h es
    let t := t.seeList p r l h
    if es' = es then t else t.kvWrite p r l h es.length es') t) s
/-- Do positions rise strictly along a list (R181)? -/
def posRise : List KvEntry → Bool
  | [] => true
  | [_] => true
  | a :: b :: es => decide (a.posbase + a.count ≤ b.posbase) && posRise (b :: es)

/-- Accepted tentative entries lose their marks and merge into the committed entry before them; the others go (R185). -/
def commitList (run a : Nat) : List KvEntry → List KvEntry → List KvEntry
  | acc, [] => acc.reverse
  | acc, e :: es =>
    if e.tent && e.run == run then
      if e.iter < a then
        let e' := { e with tent := false, run := 0, iter := 0 }
        match acc with
        | b :: rest =>
          if !b.tent && !b.spl && b.col == e.col && b.page == e.page && b.first + b.count == e.first
          then commitList run a ({ b with count := b.count + 1 } :: rest) es
          else commitList run a (e' :: acc) es
        | [] => commitList run a (e' :: acc) es
      else commitList run a acc es
    else commitList run a (e :: acc) es

/-! Wait conditions (Table 1-5). -/

/-- PHASE of a barrier by package, core and number; barriers of peers stand in `peerBars`. -/
def barrier (s : State) (pkg core b : Nat) : Barrier :=
  if pkg = s.pkg then vget {} (s.core core).bars b else assocGet {} s.peerBars ((pkg * 512 + core) * 32 + b)
def setBarrier (s : State) (pkg core b : Nat) (x : Barrier) : State :=
  if pkg = s.pkg then s.modCore core fun n => { n with bars := vset n.bars b x }
  else { s with peerBars := assocSet s.peerBars ((pkg * 512 + core) * 32 + b) x }

/-- Does a wait condition hold (R30)? `recVa` is the record's address, `c` the context that holds it, if any. -/
def condHolds (s : State) (p recVa : Nat) (c : Option Nat) (w : Nat) : Bool :=
  let o := waitObj w
  match waitKind w with
  | 0 => true
  | 1 => decide (waitTarget w ≤ (s.counter p o).done.toNat)
  | 2 => (s.part p).flags.getLsbD o
  | 3 => (s.barrier (bitsOf o 22 17) (bitsOf o 16 8) (bitsOf o 4 0)).phase.toNat != waitTarget w
  | 4 => match c with
    | some c => (match (s.ctx c).lease with | .held r _ _ => r == o | _ => false)
    | none => (s.part p).parked.any fun k => k.recVa == recVa && k.rect == o
  | 5 => s.reqIn p o && (List.range (s.reqLayers o)).all fun l => (List.range (s.reqHeads o)).all fun h =>
    (s.kvList p o l h).all fun e => !e.spl || e.frontier == 255 || decide (waitTarget w < e.frontier)
  | 6 => (s.run p o).guessState == 4
  | _ => false

end State

/-- The barrier descriptor of a wait condition (Table 13-1): BAR, CORE and PKG stand in the wait object; N and TAG do not, and their
bits are free (log 5). -/
def waitDesc (w : Nat) : Word := BitVec.ofNat 64 (waitObj w % 2 ^ 23) ||| (Config.descRest w &&& 0x7FFFF800000)

end Sys2Proof.Machine
end

