-- ==== Sys2Proof/Machine/Ops.lean ====
section
/-! DEFINITION. The named operations every meaning is built from: the effects in flight of a context, ordering actions, the
removal of a context, CANCEL, taking a trap and returning from one, and the monad in which meanings are written. -/
namespace Sys2Proof.Machine

/-- Scopes .pkg and wider, which release publish latches (R137). -/
def atLeastPkg : Scope → Bool
  | .ctx | .core | .clu | .stk => false
  | .pkg | .dom | .sys => true

namespace State

/-! Effects in flight (R73, R74, R82, R108). -/

/-- Writes the masked bits of a slot row, which takes the tag and becomes valid (R78). -/
def writeRow (s : State) (w : RowWrite) : State :=
  let r := s.row w.row
  s.setRow w.row { data := (r.data &&& ~~~w.mask) ||| (w.data &&& w.mask), tag := w.tag, valid := true }

/-- An effect takes place. -/
def applyEffect (s : State) (c : Nat) : Effect → State
  | .g r v => s.modCtx c fun x => { x with g := x.g.set r v }
  | .mask k v => s.modCtx c fun x => { x with k := x.k.set k v }
  | .rows ws => ws.foldl writeRow s
  | .nothing => s

/-- Applies, in program order, the effects that a condition selects, and removes them. -/
def applyWhere (s : State) (c : Nat) (sel : PendWrite → Bool) : State :=
  let q := (s.ctx c).wq
  (q.filter sel).foldl (fun t w => t.applyEffect c w.eff) (s.modCtx c fun x => { x with wq := q.filter fun w => !sel w })

/-- Performs scratchpad stores that were issued at least four cycles ago (R108). -/
def applySps (s : State) (c : Nat) : State :=
  let x := s.ctx c
  let old := fun (e : SpStore) => decide (e.issued + 4 ≤ x.cycle)
  let s := s.modCore (coreOf c) fun n =>
    { n with sp := (x.sps.filter old).foldl (fun m e => m.putNat e.off e.size e.val.toNat) n.sp }
  s.modCtx c fun x => { x with sps := x.sps.filter fun e => !old e }

/-- ACLK cycles pass for a context: the effects that fall due take place. -/
def tickCtx (s : State) (c n : Nat) : State :=
  let s := s.modCtx c fun x => { x with cycle := x.cycle + n }
  let now := (s.ctx c).cycle
  (s.applyWhere c fun w => match w.due with | some d => decide (d ≤ now) | none => false).applySps c

/-- The vector unit drains (R82, R363): every vector operation of the context completes, and the cycles that takes pass. -/
def drainVec (s : State) (c : Nat) : State :=
  let x := s.ctx c
  let last := (x.wq.filter (·.vec)).foldl (fun m w => max m (w.due.getD m)) x.cycle
  (s.tickCtx c (last - x.cycle)).applyWhere c (·.vec)

/-- A load of a context takes its value: the latency monitors of the core sample it (R211). -/
def sampleLoad (s : State) (c : Nat) (w : PendWrite) : State :=
  if w.load then s.monSample 1 (coreOf c) ((s.ctx c).cycle - w.issued : Nat) else s
/-- Every effect in flight takes place: pending registers complete and the vector unit drains (R370, step 2). -/
def drainAll (s : State) (c : Nat) : State :=
  let x := s.ctx c
  let last := x.wq.foldl (fun m w => max m (w.due.getD m)) (x.sps.foldl (fun m e => max m (e.issued + 4)) x.cycle)
  let s := s.tickCtx c (last - x.cycle)
  ((s.ctx c).wq.foldl (fun t w => t.sampleLoad c w) s).applyWhere c fun _ => true

/-- The scratchpad stores in flight are performed, in the cycles that takes. -/
def drainSps (s : State) (c : Nat) : State :=
  let x := s.ctx c
  s.tickCtx c (x.sps.foldl (fun m e => max m (e.issued + 4)) x.cycle - x.cycle)

/-! Ordering actions (R130 to R134). -/

/-- A release at a scope: earlier stores are performed, and dirty bytes merge where the scope says so. -/
def release (s : State) (c : Nat) (sc : Scope) : State := ((s.drainSq c).drainSps c).mergeAt c sc
/-- An acquire at a scope: clean L1 bytes go, and at .pkg and wider the publish latches (R137). -/
def acquire (s : State) (c : Nat) (sc : Scope) : State :=
  let s := if s.scopeActs (coreOf c) sc then (s.l1Group (coreOf c)).foldl (fun t n => t.modCore n (·.dropClean)) s else s
  if atLeastPkg sc then s.modCtx c fun x => { x with latches := [] } else s

/-! Commands that end without commit. -/

/-- The request a started command names (R176). -/
def cmdReq (d : Cmd) : Option Nat :=
  match d.word with
  | .kvapp | .qk | .sv | .splice | .repair | .draw => some ((d.ops.headD 0).toNat % 4096)
  | _ => none
/-- The rings that a command names (R85, Table 12-3). -/
def cmdRings (d : Cmd) : List Nat :=
  let op := fun i => (d.ops.getD i 0).toNat
  match d.word with
  | .mma _ | .putr => [op 0]
  | .kvapp | .qk | .sv => [op 2]
  | .xout _ => if op 0 % 16 < 8 then [op 0 % 16] else []
  | .getr => [op 1]
  | .repair => [bitsOf (op 0) 18 16, bitsOf (op 0) 22 20]
  | _ => []
/-- Does an uncompleted command of a core name a ring (R85)? -/
def ringBusy (s : State) (core n : Nat) : Bool :=
  (List.range 4).any fun i => (s.ctx (core * 4 + i)).streams.toList.any fun k =>
    (k.queue ++ k.started).any fun d => (cmdRings d).contains n
/-- A retiring request with DRAIN zero becomes free, with RUN and CTRBASE zero (R178). -/
def reqFree (s : State) (r : Nat) : State :=
  if s.reqState r = 2 ∧ s.reqDrain r = 0 then ((s.tput (reqAddr r + 63) 1 0).setReqRun r 0).setReqCtrBase r 0 else s
/-- A started command of a request ends: its DRAIN falls by one, and the event that brings it to zero frees a retiring request
(R215). -/
def reqDone (s : State) (d : Cmd) : State :=
  match cmdReq d with
  | some r => (s.setReqDrain r (s.reqDrain r - 1)).reqFree r
  | none => s
/-- Ends every command of a context without commit and empties its streams (R38, R154, R375). -/
def flushStreams (s : State) (c : Nat) : State :=
  let s := (s.ctx c).streams.toList.foldl (fun t k => k.started.foldl reqDone t) s
  s.modCtx c fun x => { x with streams := x.streams.map fun k =>
    { k with queue := [], started := [], fetch := [], forked := false, ended := true } }

/-! Removal of a context (R375, R376). -/

/-- Removes a context: its results in flight are discarded, its streams flushed, its stores performed with the release of its
launch's completion (R134), its lease ended; the unit's record takes state 5 with ERR. No general register is valid after it. -/
def removeCtx (s : State) (c : Nat) (pc : Nat) (a0 a1 : Nat) (err : Bool) : State :=
  match (s.ctx c).running with
  | none => s
  | some u =>
    let s := s.modCtx c fun x => { x with wq := [] }
    let s := (((s.flushStreams c).release c .pkg).dropLease c).dropParked u.part u.recVa
    let s := match s.readRec u.part u.recVa with
      | some r => s.writeRec u.part u.recVa { r with pc := pc, a0 := a0, a1 := a1 }
      | none => s
    ((s.finishUnit u.part u.recVa 5 err (coreOf c)).clearCtx c).modCtx c fun x => { x with valid := 0 }

/-! Taking a trap (R363 to R368) and returning from one (R366). -/

/-- The word that TRAP.CAUSE takes (Table 3-7). -/
def causeWord (t : Trap) : Word :=
  t.code.setWidth 64 ||| t.sub.setWidth 64 <<< 8 ||| t.syl.setWidth 64 <<< 16 ||| t.stream.setWidth 64 <<< 20
    ||| (BitVec.ofBool t.eng).setWidth 64 <<< 23

/-- A trap in a speculative iteration (R280): the unit finishes in state 4 with the fault held. -/
def holdFault (s : State) (c : Nat) (t : Trap) (pc : Word) (u : Running) : State :=
  let s := s.modRun u.part u.run fun x => { x with iters := x.iters.modify u.iter fun i => { i with fault := some (t.code, pc, t.val) } }
  let s := (s.flushStreams c).release c .pkg
  (((s.dropLease c).dropParked u.part u.recVa).finishUnit u.part u.recVa 4 false (coreOf c)).idleCtx c

/-- Does an address lie in the frames of a record's pool slot (R373)? -/
def inFrame (s : State) (u : Running) (l va : Nat) : Bool :=
  let f := s.frameAddr u.part l u.recVa
  decide (f ≤ va) && decide (va < f + s.maxFrame u.part u.image + 35840)

/-- Takes a trap in a context (R363): the vector unit drains; the trap registers are written with the bundle's address, the
level becomes supervisor, and fetch goes on at TRAP.VEC. A write-back whose frame faults removes the context (R373). A trap with no
usable TRAP.VEC, or raised in a handler, removes the context (R365); a trap of a speculative iteration is held (R280). -/
def enterTrap (s : State) (c : Nat) (t : Trap) (pc : Word) : State :=
  let s := (s.drainVec c).modCtx c fun x => 
    { (if t.code = 0x13 then { x with barPhase := none, barOn := none, barLost := false } else x) with cntOn := none }
  let s := match (s.ctx c).running with
    | some u => if s.recState u.part u.recVa = 3 then s.setRecState u.part u.recVa 2 else s
    | none => s
  let x := s.ctx c
  match x.running with
  | some u =>
    if x.seq matches .save .. && (t.code == 0x09 || t.code == 0x0A) && s.inFrame u x.launch.toNat t.val.toNat then
      s.removeCtx c pc.toNat (causeWord t).toNat (s.frameAddr u.part x.launch.toNat u.recVa) true
    else if x.spec then s.holdFault c t pc u
    else if x.intrap ∨ x.trapVec = 0 ∨ x.vecPart ≠ some u.part then
      s.removeCtx c pc.toNat (causeWord t).toNat t.val.toNat true
    else s.setCtx c { x with trapCause := causeWord t, trapPc := pc, trapVal := t.val, intrap := true, priv := true,
                             pc := x.trapVec }
  | none => s.setCtx c { x with trapCause := causeWord t, trapPc := pc, trapVal := t.val, intrap := true, priv := true,
                                pc := x.trapVec }

/-- Returns from a trap (R366): INTRAP clears, the level is the unit's again, and fetch goes on at TRAP.PC. -/
def exitTrap (s : State) (c : Nat) : State :=
  s.modCtx c fun x => { x with intrap := false, priv := (x.running.map (·.level)).getD false, pc := x.trapPc }

/-! CANCEL (R38, R200). -/

/-- Cancels a unit: a ready or suspended record takes state 5 at once; a unit on a context is marked and stops at its next
boundary. -/
def cancelRec (s : State) (p va : Nat) : State :=
  match s.ctxOfRec p va with
  | some c => s.modCtx c fun x =>
    { x with cancel := if x.abortOnly then some s.now else x.cancel.or (some s.now), abortOnly := false }
  | none => match s.readRec p va with
    | some r =>
      if r.state = 1 ∨ r.state = 3 then (s.dropParked p va).finishUnit p va 5 false 0 else s
    | none => s

/-- The lists and counters of the requests that a run drew on or appended to, with `a` accepted iterations (R179, R185,
R208). `its` are the run's iterations. -/
def closeReqs (s : State) (p run a : Nat) (commit : Bool) (reqs : List Nat) (its : List Iter) : State :=
  reqs.foldl (fun t r =>
    if t.reqRun r != run then t
    else
      let t := t.kvMapAll p r fun _ _ es => commitList run a [] es
      let acc := its.take a
      let drew := (acc.zipIdx.filter fun i => i.1.drew.contains r).map (·.2)
      let base := t.reqCtrBase r
      let t := t.setReqCtr r (match drew.getLast? with | some i => base + (i + 1) | none => base)
      let n := (acc.filter fun i => i.appended.contains (r, 0)).length
      let t := if commit then t.setReqLength r (t.reqLength r + n) else t
      t.setReqRun r 0) s

/-- Aborts a run (R283): units not on a context end at once, running ones are marked to stop, with no bound on the time that takes (R375's
is of a CANCEL), shadows are discarded, and the
requests stand as before the run; faults held by its iterations are suppressed (R213). -/
def abortRun (s : State) (p run : Nat) : State :=
  let x := s.run p run
  let s := x.iters.foldl (fun t i =>
    match t.ctxOfRec p i.recVa with
    | some c => t.modCtx c fun y => { y with cancel := y.cancel.or (some t.now), abortOnly := y.cancel.isNone || y.abortOnly }
    | none =>
      let st := t.recState p i.recVa
      if st = 1 ∨ st = 3 then (t.dropParked p i.recVa).finishRec p i.recVa 6 false
      else if st = 4 then t.setRecState p i.recVa 6 else t) s
  let s := if x.guessState = 0 then s.cancelRec p x.guess else s
  let s := s.closeReqs p run 0 false x.reqs x.iters
  let supp := (x.iters.filter (·.fault.isSome)).length
  let s := s.charge p fun u =>
    { u with rejected := u.rejected + BitVec.ofNat 64 x.width, faultSupp := u.faultSupp + BitVec.ofNat 64 supp }
  s.modRun p run fun y =>
    { y with isOpen := false, iters := y.iters.map fun i => { i with shadow := [] } }

/-- Aborts the open runs of a launch, each as RUN.ABORT does (R283). -/
def closeRunsOf (s : State) (p l : Nat) : State :=
  ((s.part p).runs.filter fun e => e.2.isOpen && e.2.launch.toNat == l).foldl (fun t e => t.abortRun p e.1) s

/-- Cancels a launch and every unit of it; it leaves the launch queue (R152). -/
def cancelLaunchNo (s : State) (l : Nat) : State :=
  let x := s.launch l
  if x.complete || x.cancelled then s
  else
    let p := x.part
    let n := x.fields.cnt
    let s := ((s.modLaunch l fun y => { y with cancelled := true }).markCancelled p n false).closeRunsOf p l
    let s := s.leaveQueue l
    if x.bound then
      (List.range x.fields.rpooln).foldl (fun t i =>
        let va := x.fields.rpool + 64 * i
        match t.readRec p va with
        | some r => if r.launch = l ∧ 1 ≤ r.state ∧ r.state ≤ 3 then t.cancelRec p va else t
        | none => t) s
    else s.countAll p n

/-- Cancels a graph: nodes that have not started are cancelled, running launches are cancelled. -/
def cancelGraphNo (s : State) (p g : Nat) : State :=
  let gr := s.graph p g
  if !gr.isOpen then s
  else
    let s := s.markCancelled p g false
    let all := fun (t : State) (f : State → Nat → Node → State) => (List.range gr.nodes.length).foldl (fun u i =>
      match (u.graph p g).nodes[i]? with
      | some n => f u i n
      | none => u) t
    let s := (all s fun t i n =>
      if n.st ≤ 1 then (t.setNode p g i fun m => { m with st := 4 }).countItem p g false else t).dropWaiters p g
    (all s fun t _ n => if n.st = 2 then t.cancelLaunchNo n.launch.toNat else t).settle p

/-- Cancels a phase: graphs that have not opened count as finished, the open one is cancelled. -/
def cancelPhaseNo (s : State) (p h : Nat) : State :=
  let ph := s.phase p h
  if !ph.isOpen then s
  else
    let s := (s.markCancelled p h false).dropGraphs p h
    let gs := (s.graphs.filter fun e => e.1 / 1024 == p && e.2.isOpen && e.2.phase == some h).map (·.1 % 1024)
    (gs.foldl (fun t g => t.cancelGraphNo p g) s).settle p

/-- Cancels a job: every launch, graph and phase that names it. -/
def cancelJobNo (s : State) (p j : Nat) : State :=
  let c := s.counter p j
  if c.status ≠ 1 ∨ c.kind ≠ 3 ∨ c.cancelled then s
  else
    let s := s.markCancelled p j false
    let hs := (s.phases.filter fun e => e.1 / 1024 == p && e.2.isOpen && e.2.job == some j).map (·.1 % 1024)
    let s := hs.foldl (fun t h => t.cancelPhaseNo p h) s
    let gs := (s.graphs.filter fun e => e.1 / 1024 == p && e.2.isOpen && e.2.phase.isNone &&
      (s.counter p (e.1 % 1024)).encl == some j).map (·.1 % 1024)
    let s := gs.foldl (fun t g => t.cancelGraphNo p g) s
    let ls := (s.launches.filter fun e => e.2.part == p && e.2.node.isNone && e.2.fields.encl == j && !e.2.complete).map (·.1)
    ls.foldl (fun t l => t.cancelLaunchNo l) s

end State

/-! The monad of meanings. -/

/-- Why an instruction stops: a trap with its cause and TRAP.VAL; it waits, or waits until a cycle (R244); it holds its context and keeps what it has
changed (R261); for an engine word, an engine fault with its subcode; or the delivery of the fault that stream `k` holds
(R368). -/
inductive Stop where
  | trap (code : Byte) (val : Word)
  | stall
  | stallTo (cycle : Nat)
  | hold
  | engine (sub : Byte)
  | held (k : Nat)
  deriving DecidableEq, Repr

/-- A meaning in the making: it reads and changes the state, or stops. -/
abbrev M := EStateM Stop State

/-- The result type of a meaning. -/
abbrev Out := Host.Outcome State Fault Refusal

def gets {α : Type} (f : State → α) : M α := do return f (← get)
def upd (f : State → State) : M Unit := modify f
def trap {α : Type} (code : Byte) (val : Word) : M α := throw (.trap code val)
def stall {α : Type} : M α := throw .stall
/-- Raises a trap where a check fails. -/
def need (ok : Bool) (code : Byte) (val : Word) : M Unit := if ok then pure () else trap code val
/-- Waits where a condition fails. -/
def await (ok : Bool) : M Unit := if ok then pure () else stall
/-- Raises an engine fault where a check fails. -/
def needE (ok : Bool) (sub : Byte) : M Unit := if ok then pure () else throw (.engine sub)

/-- Syllable `k` of the bundle being executed, zero-extended: TRAP.VAL of ILLEGAL, PRIV and SPEC.ILLEGAL (Table 13-1). -/
def syllable (k : Nat) : M Word := gets fun s => (s.raw.extractLsb' (32 * k) 32).setWidth 64

/-- A trap's record for a syllable. -/
def trapOf (code : Byte) (val : Word) (k : BitVec 2) : Trap := { code := code, val := val, syl := k }

/-- A trap that is taken after its bundle retires (R364): TRAP.PC is the next bundle. In an iteration the fault is held with the
bundle's own address (R280). -/
def retireTrap (code : Byte) (val : Word) : M Unit :=
  upd fun s =>
    let t : Trap := { code := code, val := val, retired := true }
    { s.enterTrap s.cur t (if s.me.spec then s.me.pc else s.me.pc + 16) with mark := .trap t }

/-- Delivery clears a held fault, and the faulted stream counts as ended (R368). -/
def State.clearFault (s : State) (c i : Nat) : State :=
  s.modCtx c fun x => { x with streams := vset x.streams i { x.streams.toList.getD i {} with fault := none, ended := true, stopped := true } }

/-- Runs the meaning of a syllable in slot `k`: a trap is entered on the state as it stood (R72). -/
def runSyl (k : BitVec 2) (m : M Unit) (s : State) : Out :=
  match m.run { s with mark := .ok } with
  | .ok _ t => .next t
  | .error .stall _ => .next { s with mark := .stall }
  | .error (.stallTo n) _ => .next { s with mark := .stallTo n }
  | .error .hold t => .next { t with mark := .hold }
  | .error (.trap code val) _ =>
    .next { s.enterTrap s.cur (trapOf code val k) s.me.pc with mark := .trap (trapOf code val k) }
  | .error (.held i) _ =>
    let f := ((s.me.streams.toList.getD i {}).fault).getD { code := 0, sub := 0, off := 0 }
    let t : Trap := { code := f.code, val := BitVec.ofNat 64 f.off, eng := true, stream := BitVec.ofNat 3 i, sub := f.sub }
    .next { (s.clearFault s.cur i).enterTrap s.cur t s.me.pc with mark := .trap t }
  | .error (.engine _) _ => .next { s with mark := .stall }

/-- Cause code of an engine fault subcode (Table 12-9). -/
def engineCode (sub : Byte) : Byte :=
  match sub.toNat with
  | 0x09 => 0x18 | 0x0A => 0x0F | 0x0B => 0x05 | 0x0C => 0x04 | 0x0E => 0x0E | 0x0F => 0x0E | 0x10 => 0x0E | 0x11 => 0x09
  | 0x12 => 0x0A | 0x13 => 0x0A | 0x15 => 0x10 | 0x16 => 0x11 | 0x1A => 0x08 | _ => 0x0C

/-- A stream of a context. -/
def Ctx.stream (x : Ctx) (k : Nat) : Stream := x.streams.toList.getD k {}
def State.modStream (s : State) (c k : Nat) (f : Stream → Stream) : State :=
  s.modCtx c fun x => { x with streams := vset x.streams k (f (x.stream k)) }
/-- The stream being executed. -/
def State.myStream (s : State) : Stream := s.me.stream s.curK
def State.modMyStream (s : State) (f : Stream → Stream) : State := s.modStream s.cur s.curK f

/-- A stream takes a fault (R326) at a command: the later commands in its queue are discarded, it fetches nothing more, and
the fault is held with the offset of the faulting word. A fault already held stays. -/
def State.streamFault (s : State) (c k : Nat) (sub : Byte) (off : Nat) : State :=
  s.modStream c k fun x =>
    { x with fault := x.fault.or (some { code := engineCode sub, sub := sub, off := off }), queue := [], fetch := [], stopped := true }
/-- A stream takes a fault at a word: the commands before the word are not later ones and go on (R326). -/
def State.wordFault (s : State) (c k : Nat) (sub : Byte) : State :=
  s.modStream c k fun x =>
    { x with fault := x.fault.or (some { code := engineCode sub, sub := sub, off := x.pos }), fetch := [], stopped := true }

/-- Runs the meaning of an engine word: a fault stops its stream with nothing else changed (R236). -/
def runWord (m : M Unit) (s : State) : Out :=
  match m.run { s with mark := .ok } with
  | .ok _ t => .next t
  | .error (.engine sub) _ => .next { s.wordFault s.cur s.curK sub with mark := .ok }
  | .error _ _ => .next { s with mark := .stall }

/-- Runs an event, which always answers a next state: where its condition does not hold, the state as it stands. -/
def runEvent (f : State → State) (s : State) : Out := .next { f s with mark := .ok }

/-! General registers (R71 to R74, R243, R244). -/

/-- Is a write to a register in flight from an older bundle of a scoreboarded producer (R73)? -/
def Ctx.pendingG (x : Ctx) (r : Reg) : Bool :=
  x.wq.any fun w => w.due.isNone && decide (w.issued < x.cycle) && (match w.eff with | .g q _ => q == r | _ => false)
/-- Is an older fixed-latency write to a register still outstanding, and when is the last due? -/
def Ctx.lateG (x : Ctx) (r : Reg) : Option Nat :=
  x.wq.foldl (fun m w => match w.eff, w.due with
    | .g q _, some d => if q == r && decide (w.issued < x.cycle) then some (max d (m.getD 0)) else m
    | _, _ => m) none

/-- INVALID.REG of the sources of a syllable, which comes before every wait and every early read of them (R72, R226). -/
def sources (l : List Reg) : M Unit := do
  let x ← gets State.me
  match l.find? fun r => r != 0 && !x.valid.getLsbD r.val with
  | some r => trap 0x03 (BitVec.ofNat 64 r.val)
  | none => return ()

/-- Reads a register: INVALID.REG, a stall while it is pending, STALL.SHORT under CHK, or its value. -/
def rdG (r : Reg) : M Word := do
  let x ← gets State.me
  if r = 0 then return 0
  need (x.valid.getLsbD r.val) 0x03 (BitVec.ofNat 64 r.val)
  await (!x.pendingG r)
  need (!(x.chk && (x.lateG r).isSome)) 0x06 (BitVec.ofNat 64 r.val)
  return x.reg r

/-- A register's value where it can be read, none where it is invalid; a stall while it is pending. -/
def peekG (r : Reg) : M (Option Word) := do
  let x ← gets State.me
  if r = 0 then return some 0
  await (!x.pendingG r)
  return if x.valid.getLsbD r.val then some (x.reg r) else none

/-- A write with a fixed latency that would take effect before an older one to the same place stalls until the older has taken effect, in
the cycle `due` (R244). A scoreboarded write has no latency, and arrives after it. -/
def afterOlder (due lat : Option Nat) : M Unit := do
  let x ← gets State.me
  match due, lat with
  | some n, some k => if x.cycle + k < n then throw (.stallTo n) else return ()
  | _, _ => return ()
/-- Waits until a write to a register may issue (R73, R244): one of latency `lat`, or a scoreboarded one. -/
def destG (r : Reg) (lat : Option Nat) : M Unit := do
  let x ← gets State.me
  if r = 0 then return ()
  await (!x.pendingG r)
  afterOlder (x.lateG r) lat

/-- Issues an effect of the executing context. -/
def issue (e : Effect) (lat : Option Nat) (vec : Bool := false) (div : Bool := false)
    (load : Bool := false) (lq : Bool := false) : M Unit :=
  upd fun s => s.modMe fun x =>
    { x with wq := x.wq ++ [{ eff := e, issued := x.cycle, due := lat.map (x.cycle + ·), vec := vec, div := div, load := load,
                              lq := lq }] }

/-- Marks a register valid (R72). -/
def Ctx.setValid (x : Ctx) (r : Reg) : Ctx := { x with valid := x.valid ||| (1#32 <<< r.val) }

/-- Writes a register with a fixed latency; a write to g0 is discarded (R71). The valid bit is set at issue, for which the manual
gives no time (DESIGN CHOICE, log 28). -/
def wrG (r : Reg) (v : Word) (lat : Nat) (div : Bool := false) : M Unit := do
  destG r (some lat)
  if r = 0 then (if div then issue .nothing (some lat) false true else return ())
  else
    upd fun s => s.modMe (·.setValid r)
    issue (.g r v) (some lat) false div

/-- Writes a register as a scoreboarded producer (R73). A load's latency is sampled; `lq` marks an entry of the load queue. -/
def wrLater (r : Reg) (v : Word) (load : Bool := false) (lq : Bool := load) : M Unit := do
  destG r none
  if r = 0 then issue .nothing none false false load lq
  else
    upd fun s => s.modMe (·.setValid r)
    issue (.g r v) none false false load lq

/-- The LIMM of the bundle extends a signed field (R228). -/
def immS {n : Nat} (v : BitVec n) : M Word := do
  match (← get).limm with
  | some h => return (h ++ v).signExtend 64
  | none => return v.signExtend 64
/-- The LIMM of the bundle extends an unsigned field (R228). -/
def immU {n : Nat} (v : BitVec n) : M Nat := do
  match (← get).limm with
  | some h => return (h ++ v).toNat
  | none => return v.toNat

/-- SPEC.ILLEGAL inside a speculative iteration (Table 10-8). -/
def noSpec (k : Nat) : M Unit := do
  let x ← gets State.me
  if x.spec then trap 0x11 (← syllable k) else return ()
/-- PRIV at user level. -/
def needPriv (k : Nat) : M Unit := do
  let x ← gets State.me
  if x.priv then return () else trap 0x02 (← syllable k)

/-- Performs a release or acquire of the executing context. -/
def rel (sc : Scope) : M Unit := upd fun s => s.release s.cur sc
def acq (sc : Scope) : M Unit := upd fun s => s.acquire s.cur sc

end Sys2Proof.Machine
end

