-- ==== Sys2Proof/Machine/Operands.lean ====
section
/-! DEFINITION. The operands of vector syllables: the window into the tableau with its rows, columns and diagonals, the data
queues, the specials, every check of an operand in the order of R300, and the write of a destination (R75 to R82, R155 to
R157, R291 to R300). -/
namespace Sys2Proof.Machine

/-! Elements of a row (R44). -/

/-- Element `i` of width `b` bits. -/
def rowElem (b : Nat) (r : Row) (i : Nat) : Nat := (r.toNat >>> (b * i)) % 2 ^ b
/-- The first `n` elements. -/
def rowElems (b n : Nat) (r : Row) : List Nat := (List.range n).map (rowElem b r)
/-- The number whose consecutive `b`-bit digits are the elements. -/
def packElems (b : Nat) : List Nat → Nat
  | [] => 0
  | v :: l => v % 2 ^ b + packElems b l * 2 ^ b
/-- A row with elements from 0 upward and zeros after them. -/
def rowOf (b : Nat) (l : List Nat) : Row := BitVec.ofNat 2048 (packElems b l)

/-! The window (R75, R76). -/

namespace State

/-- Row key of a window row of the executing context. -/
def winKey (s : State) (i : Nat) : Nat := tabKey s.myCore (s.me.tabBase + i)
/-- A window row's committed value. -/
def winRow (s : State) (i : Nat) : SlotRow := s.row (s.winKey i)

/-- First window row and count of the tableau rows that a matrix command holds as a working copy while it runs (R25, R80). -/
def cmdTabRows (s : State) (core : Nat) (d : Cmd) : Nat × Nat :=
  let op := fun i => (d.ops.getD i 0).toNat
  let g := (vget {} (s.core core).rings (op 2)).tsize
  match d.word with
  | .mma _ => if op 2 = 1 then (op 3 % 64, op 1) else (0, 0)
  | .qk => (op 3 % 64, g)
  | .sv => (op 3 % 64, 2 * g)
  | .draw => (op 1 % 64, 1)
  | _ => (0, 0)
/-- Is a physical tableau row of a core held by a running matrix command of the core? -/
def rowHeld (s : State) (core phys : Nat) : Bool :=
  (List.range 4).any fun i =>
    let x := s.ctx (core * 4 + i)
    (x.stream 0).started.any fun d =>
      let (a, n) := s.cmdTabRows core d
      decide (x.tabBase + a ≤ phys) && decide (phys < x.tabBase + a + n)

end State

/-- Does an effect write a row? -/
def Effect.writesRow (e : Effect) (key : Nat) : Bool :=
  match e with
  | .rows ws => ws.any fun w => w.row == key
  | _ => false
/-- Is a row pending from an older scoreboarded vector syllable (R299)? -/
def Ctx.pendingRow (x : Ctx) (key : Nat) : Bool :=
  x.wq.any fun w => w.due.isNone && decide (w.issued < x.cycle) && w.eff.writesRow key
/-- When the last older fixed-latency write to a row is due. -/
def Ctx.lateRow (x : Ctx) (key : Nat) : Option Nat :=
  x.wq.foldl (fun m w => match w.due with
    | some d => if w.eff.writesRow key && decide (w.issued < x.cycle) then some (max d (m.getD 0)) else m
    | none => m) none
/-- Is an older compare's write to a mask still outstanding (R311)? -/
def Ctx.lateMask (x : Ctx) (m : Fin 4) : Bool :=
  x.wq.any fun w => decide (w.issued < x.cycle) && (match w.eff with | .mask k _ => k == m | _ => false)
/-- A row as the context's older bundles leave it once their vector syllables have completed: what an operand read before the
bundle's own syllables act sees (R74, R224). -/
def Ctx.settled (x : Ctx) (key : Nat) (r : SlotRow) : SlotRow :=
  (x.wq.filter fun w => decide (w.issued < x.cycle)).foldl (fun r w => match w.eff with
    | .rows ws => ws.foldl (fun r v => if v.row = key
        then { data := (r.data &&& ~~~v.mask) ||| (v.data &&& v.mask), tag := v.tag, valid := true } else r) r
    | _ => r) r

/-! Operands. -/

/-- The special index of an operand (R155, R292). -/
def VOp.special (o : VOp) : Word := (o.code.setWidth 64) - 0xC0
/-- The operand code, as TRAP.VAL shows it. -/
def codeWord (o : VOp) : Word := o.code.setWidth 64
/-- Columns and diagonals (R76). -/
def isView : VOp → Bool
  | .col _ | .dg _ => true
  | _ => false
/-- The container that element i of a view occupies in window row i (R76). -/
def containerOf (o : VOp) (i : Nat) : Nat :=
  match o with
  | .col c => c.val
  | .dg d => (i + d.val) % 64
  | _ => 0
/-- The window rows that an operand touches. -/
def rowsOf (s : State) : VOp → List Nat
  | .row i => [i.val]
  | .col _ | .dg _ => List.range s.me.tabCount
  | _ => []
/-- Elements that an operand of a format has: COUNT for a view, else the row count (R291). -/
def countOf (s : State) (o : VOp) (f : Fmt) : Nat := if isView o then s.me.tabCount else f.perRow
/-- The element count of an instruction whose operands share a format (R291). -/
def elemCount (s : State) (f : Fmt) (os : List VOp) : Nat := if os.any isView then s.me.tabCount else f.perRow

/-- An operand with its format: whether every format that must be 32 bits for a view is, and whether tags go unchecked. -/
structure Opd where
  op : VOp
  fmt : Fmt
  is32 : Bool
  raw : Bool := false
  deriving DecidableEq, Repr

/-- An operand of an instruction with one format. -/
def opd (o : VOp) (f : Fmt) : Opd := { op := o, fmt := f, is32 := f.is32 }

/-- Window and view violations (R75, R76, R291, R292). -/
def Opd.shapeBad (s : State) (o : Opd) : Bool :=
  match o.op with
  | .row i => decide (s.me.tabCount ≤ i.val)
  | .col _ | .dg _ => s.me.tabCount == 0 || !o.is32
  | .alo | .ahi | .vzero | .vones => o.fmt == .f4b
  | .qin _ | .qout _ | .vdisc => false
/-- The first row of the window that fails a source's or a destination's tag check (R77, R78), as a physical row. -/
def Opd.rowBad (s : State) (o : Opd) : Option Word :=
  (rowsOf s o.op).findSome? fun i =>
    let r := s.winRow i
    if i < s.me.tabCount && !(r.valid && (o.raw || r.tag == o.fmt.code)) then some (BitVec.ofNat 64 (s.me.tabBase + i)) else none
/-- A source's tag failure; `k` is how many entries earlier sources of the syllable pop from the same queue (R155). -/
def Opd.tagBad (s : State) (o : Opd) (k : Nat) : Option Word :=
  match o.op with
  | .qin q => match s.me.qin[q][k]? with
    | some e => if o.raw || e.tag == o.fmt.code then none else some (VOp.special o.op)
    | none => none
  | _ => o.rowBad s

/-- Pairs each source with the number of entries that the sources before it pop from its queue. -/
def withPops : List VOp → List Opd → List (Opd × Nat)
  | _, [] => []
  | seen, o :: l => (o, (seen.filter (· == o.op)).length) :: withPops (o.op :: seen) l

/-- Does an access stream of a context count as forked (R157)? -/
def Ctx.accessForked (x : Ctx) : Bool :=
  (x.streams.toList.drop 2).any fun k => k.forked && !k.stopped && k.fault.isNone && !(k.ended && k.queue.isEmpty && k.started.isEmpty)

/-- Raises the first trap of a list of failures. -/
def trapFirst (code : Byte) (l : List (Option Word)) : M Unit :=
  match l.findSome? id with
  | some v => trap code v
  | none => return ()

/-- Every check of a vector syllable in the order of R300: tags, shapes in the order D, X, Y, queues, early reads; then the
waits for a destination (R80, R244, R297). Of several operands that fail one check X goes before Y, Y before D and the mask last, but for SHAPE; an
operand's SHAPE goes before a latch parameter's (DESIGN CHOICE, log 21: R300 orders the fields for SHAPE alone, and no latch parameter among
them). `merge` says that the destination's rows must already be valid with its format; `mask` that the current mask is read; `lat` is the
latency, none for a scoreboarded form; `shape` is a latch parameter's violation, and `noViews` says that the element count allows no column or
diagonal (R310). -/
def vcheck (d : Option Opd) (merge : Bool) (srcs : List Opd) (mask : Bool) (lat : Option Nat) (shape : Option Word := none)
    (noViews : Bool := false) : M Unit := do
  let s ← get
  let x := s.me
  let all := d.toList ++ srcs
  let keys := fun (o : Opd) => (rowsOf s o.op).map s.winKey
  await (all.all fun o => (keys o).all fun r => !x.pendingRow r)
  trapFirst 0x04 ((withPops [] srcs).map (fun e => e.1.tagBad s e.2) ++
    d.toList.map fun o => if merge || isView o.op then o.rowBad s else none)
  trapFirst 0x05 (all.map (fun o => if o.shapeBad s || noViews && isView o.op then some (codeWord o.op) else none) ++ [shape])
  let empty := (withPops [] srcs).filter fun e => match e.1.op with | .qin q => decide (x.qin[q].length ≤ e.2) | _ => false
  let full := d.toList.filter fun o => match o.op with | .qout q => decide (8 ≤ x.qout[q].length) | _ => false
  match (empty.map (·.1) ++ full).head? with
  | some o => if x.accessForked then stall else trap 0x19 (VOp.special o.op)
  | none => pure ()
  if x.chk then
    trapFirst 0x06 (srcs.map (fun o => if (keys o).any fun r => (x.lateRow r).isSome then some (codeWord o.op) else none) ++
      [if mask && x.lateMask x.sel then some (0xF0 + BitVec.ofNat 64 x.sel.val) else none])
  await (d.toList.all fun o => (rowsOf s o.op).all fun i => !s.rowHeld s.myCore (x.tabBase + i))
  for o in d.toList do
    for i in rowsOf s o.op do afterOlder (x.lateRow (s.winKey i)) lat

/-- 1 as an element (R292). -/
def oneOf : Fmt → Nat
  | .f32 => 0x3F800000 | .bf16 => 0x3F80 | .f8a => 0x38 | .f8b => 0x3C
  | .f4b => 0 | .i8 => 1 | .i8u => 1 | .i32 => 1 | .i32u => 1

/-- The bytes of a row or queue operand. -/
def vdata (s : State) (o : VOp) (k : Nat) : Row :=
  match o with
  | .row i => (s.winRow i).data
  | .qin q => ((s.me.qin[q][k]?).map (·.data)).getD 0
  | _ => 0
/-- The first `n` elements that an operand supplies (R76, R291, R292). -/
def velems (s : State) (o : VOp) (f : Fmt) (n k : Nat) : List Nat :=
  match o with
  | .row _ | .qin _ => rowElems f.bits n (vdata s o k)
  | .col _ | .dg _ => (List.range n).map fun i => rowElem 32 (s.winRow i).data (containerOf o i)
  | .alo => List.replicate n (s.me.alo.toNat % 2 ^ f.bits)
  | .ahi => List.replicate n (s.me.ahi.toNat % 2 ^ f.bits)
  | .vones => List.replicate n (oneOf f)
  | .vzero | .qout _ | .vdisc => List.replicate n 0

/-- The current mask's bits 0 to n − 1 (R81). -/
def maskBits (s : State) (n : Nat) : List Bool :=
  let m := s.me.k[s.me.sel]
  (List.range n).map fun i => m.getLsbD i

/-- Pops the queue operands of a syllable (R155). -/
def popAll (srcs : List VOp) : M Unit :=
  upd fun s => srcs.foldl (fun t o => match o with
    | .qin q => t.modMe fun x => { x with qin := x.qin.set q (x.qin[q].drop 1) }
    | _ => t) s

/-- Issues an effect of the vector unit; `lat` is none for a scoreboarded form (R299). -/
def issueVec (e : Effect) (lat : Option Nat) : M Unit := issue e lat true

/-- Writes a destination (R78, R156, R294, R297): `none` marks an element that is off; what lies beyond is zero. -/
def vwrite (d : VOp) (f : Fmt) (lat : Option Nat) (rs : List (Option Nat)) : M Unit := do
  let s ← get
  let b := f.bits
  match d with
  | .row i =>
    let off := rowOf b (rs.map fun r => if r.isNone then 2 ^ b - 1 else 0)
    issueVec (.rows [{ row := s.winKey i, data := rowOf b (rs.map (·.getD 0)), mask := ~~~off, tag := f.code }]) lat
  | .col _ | .dg _ =>
    issueVec (.rows (rs.zipIdx.filterMap fun e => e.1.map fun v =>
      { row := s.winKey e.2, data := BitVec.ofNat 2048 (v <<< (32 * containerOf d e.2)),
        mask := BitVec.ofNat 2048 ((2 ^ 32 - 1) <<< (32 * containerOf d e.2)), tag := f.code })) lat
  | .qout q =>
    upd fun s => s.modMe fun x =>
      { x with qout := x.qout.set q (x.qout[q] ++ [{ tag := f.code, data := rowOf b (rs.map (·.getD 0)) }]) }
    issueVec .nothing lat
  | _ => issueVec .nothing lat
/-- Writes a whole row or queue entry. -/
def vwriteRow (d : VOp) (f : Fmt) (lat : Option Nat) (data : Row) : M Unit := do
  let s ← get
  match d with
  | .row i => issueVec (.rows [{ row := s.winKey i, data := data, mask := BitVec.allOnes 2048, tag := f.code }]) lat
  | .qout q =>
    upd fun s => s.modMe fun x => { x with qout := x.qout.set q (x.qout[q] ++ [{ tag := f.code, data := data }]) }
    issueVec .nothing lat
  | _ => issueVec .nothing lat

/-- Off elements marked (R295). -/
def merged (on : List Bool) (rs : List Nat) : List (Option Nat) := (on.zip rs).map fun e => if e.1 then some e.2 else none

end Sys2Proof.Machine
end

