-- ==== Sys2Proof/Machine/LoadStore.lean ====
section
/-! DEFINITION. Scalar memory access: addresses, checks, the store queue with forwarding, the scratchpad, run shadows, loads,
stores, LDC, ordering instructions and cache control (R107 to R109, R126 to R142, R168, R251 to R256, R279). -/
namespace Sys2Proof.Machine

/-- Where a scalar access goes once its address has passed every check. -/
inductive Place where
  | scratch (off : Nat)
  | table (pa : Nat)
  | mem (a : Access)
  deriving DecidableEq, Repr

/-- ga plus the extended immediate in units of the access size (R251). -/
def addrOf (a : Reg) (imm : BitVec 10) (size : Nat) : M Word := do
  let x ← rdG a
  let i ← immS imm
  return x + i * BitVec.ofNat 64 size

/-- WATCH (Table 3-7): does an access overlap the watched range? -/
def Ctx.watched (x : Ctx) (va size : Nat) (ld st : Bool) : Bool :=
  ((ld && x.watchCtl.getLsbD 0) || (st && x.watchCtl.getLsbD 1)) && State.overlap x.watchBase.toNat (2 ^ bitsOf x.watchCtl.toNat 7 3) va size

/-- Stores of the context to the scratchpad that overlap the aligned 8-byte words of an access (R108). -/
def Ctx.spPending (x : Ctx) (off size : Nat) : Bool :=
  x.sps.any fun e => State.overlap (e.off / 8 * 8) 8 (off / 8 * 8) (max size 8)

/-- Translates for the executing context (R113); a miss to a 33rd page waits (R121). -/
def translateM (acc : AccessKind) (va : Word) : M Access := do
  let s ← get
  let p := s.myPart
  await (!s.walkHeld s.myCore p s.me.priv acc va.toNat)
  match s.translate s.myCore p s.me.priv acc va.toNat with
  | (.error e, _) => trap e va
  | (.ok a, t) => set t; return a

/-- The checks of an access, in the order of R226: alignment, scratchpad range, translation and permission, WATCH. What R168 refuses of a device
table at supervisor level is known with the access itself, after the watch (DESIGN CHOICE, log 21: R226 names PROTECT before WATCH, R251
checks the watch before the access). -/
def checkAccess (acc : AccessKind) (va : Word) (size : Nat) (ld st : Bool) : M Place := do
  need (va.toNat % size == 0) 0x08 va
  let place ← (do
    if decide (va.toNat < 2 ^ 57) && inScratch va.toNat then
      let s ← get
      let off := scratchOff va.toNat
      need (decide (off + size ≤ (s.core s.myCore).spSize)) 0x18 va
      return Place.scratch off
    else
      let a ← translateM acc va
      match region a.pa with
      | .table _ =>
        let s ← get
        need s.me.priv 0x0A va
        return Place.table a.pa
      | .peer p _ =>
        let s ← get
        need (s.reaches p) 0x0A va
        return Place.mem a
      | _ => return Place.mem a : M Place)
  let s ← get
  need (!s.me.watched va.toNat size ld st) 0x16 va
  return place

/-- Steers a memory access of the executing context (R136). -/
def steerM (a : Access) : M Access := do
  let s ← get
  let (a', t) := s.steer s.cur a
  set t
  return a'

/-- Peer windows are never cached (R103). -/
def isUncached (a : Access) : Bool :=
  a.uncached || (match region a.pa with | .peer _ _ => true | _ => false)

/-- The bytes an access finds in memory below the store queue, with the caches' changes. -/
def memBytes (a : Access) (size : Nat) : M (List Byte) := do
  let s ← get
  let line := a.pa / 64
  if isUncached a then
    await (s.farRoom a.pa)
    let t := (s.farSend a.pa).recall line s.myPart
    set t
    return t.homeBytes a.key a.pa size
  else
    let t := s.l1Touch s.myCore a.key s.myPart line (byteMask (a.pa % 64) size)
    set t
    return (List.range size).map fun i => byteAt (t.l1Data s.myCore line) (a.pa % 64 + i)

/-- The byte of the youngest older store of the context at an address (R126). -/
def Ctx.forwarded (x : Ctx) (pa : Nat) : Option Byte :=
  x.sq.foldl (fun m e =>
    if e.kind.stores && decide (e.pa ≤ pa) && decide (pa < e.pa + e.size)
    then some (BitVec.ofNat 8 (e.val.toNat / 2 ^ (8 * (pa - e.pa)))) else m) none

/-- The shadow of the executing iteration (R142). -/
def State.myShadow (s : State) : List (Nat × Byte × Nat) :=
  match s.me.running with
  | some u => if s.me.spec then (((s.run u.part u.run).iters[u.iter]?).map (·.shadow)).getD [] else []
  | none => []
/-- The shadow's latest byte at an address. -/
def shadowByte (sh : List (Nat × Byte × Nat)) (pa : Nat) : Option Byte :=
  sh.foldl (fun m e => if e.1 = pa then some e.2.1 else m) none

/-- What a load of the executing context sees (R126, R142): its own stores and shadow over memory. -/
def loadBytes (a : Access) (size : Nat) : M (List Byte) := do
  let bs ← memBytes a size
  let s ← get
  let x := s.me
  let sh := s.myShadow
  return bs.zipIdx.map fun b => ((shadowByte sh (a.pa + b.2)).or (x.forwarded (a.pa + b.2))).getD b.1

/-- The bytes that a place gives to a load. -/
def placeBytes (va : Word) (size : Nat) : Place → M Nat
  | .scratch off => do
    let s ← get
    need (!(s.me.pend && s.me.spPending off size)) 0x07 va
    return (s.core s.myCore).sp.nat off size
  | .table pa => do
    let s ← get
    match s.tableLoad s.myPart pa size with
    | some v => return v
    | none => trap 0x0A va
  | .mem a => do
    let a ← steerM a
    return natOfBytes (← loadBytes a size)

/-- The entries of the load queue (R126). -/
def Ctx.loads (x : Ctx) : Nat := (x.wq.filter (·.lq)).length

/-- A load to a register that reads no memory now: no error in bank memory can meet it (R379). -/
def State.dropLoad (s : State) (d : Reg) : State := s.modMe fun x => { x with loadAt := x.loadAt.filter (·.1 != d.val) }
/-- Does the home itself give a load its byte at an address: neither the iteration's shadow, nor a store that waits in the queue, nor a
dirty byte of the core's L1 or of its cluster's L2? -/
def State.fromHome (s : State) (a : Access) (pa : Nat) : Bool :=
  (shadowByte s.myShadow pa).isNone && (s.me.forwarded pa).isNone &&
    (isUncached a ||
      !((((s.core (s.l1Core s.myCore (pa / 64))).l1At (pa / 64)).map fun t => t.dirty.getLsbD (pa % 64)).getD false ||
        (((s.cluster (clusterOf s.myCore)).sector (pa / 64)).map (·.dirty)).getD false))
/-- Notes where a load to a register reads, unless every byte is valid in the core's L1: an error in bank memory may yet meet it
(R379). An LDC takes no byte of the home as it stands (R139). -/
def State.noteLoad (s : State) (d : Reg) (a : Access) (size : Nat) (signed : Bool) (snap : Bool := false) : State :=
  let pa := (s.steerTo s.me.latches a.pa).1
  if !isUncached a && s.l1Has s.myCore (pa / 64) (byteMask (pa % 64) size) then s.dropLoad d
  else
    let home := (List.range size).foldl (fun m i => if !snap && s.fromHome a (pa + i) then m ||| (1#8 <<< i) else m) 0#8
    s.modMe fun x =>
      { x with loadAt := assocSet x.loadAt d.val { pa := pa, size := size, key := a.key, signed := signed, home := home } }
/-- Does an extension by mnemonic take the sign? -/
def extSigned (size : Nat) (ext : Nat → Word) : Bool := size != 8 && (ext (2 ^ (8 * size) - 1)).msb
/-- The same for the place of an access. -/
def noteM (d : Reg) (size : Nat) (ext : Nat → Word) : Place → M Unit
  | .mem a => upd fun s => s.noteLoad d a size (extSigned size ext)
  | _ => upd fun s => s.dropLoad d

/-- A load of `size` bytes at an address, extended by `ext`. -/
def loadTo (d : Reg) (va : Word) (size : Nat) (ext : Nat → Word) : M Unit := do
  let place ← checkAccess .load va size true false
  let x ← gets State.me
  await (decide (x.loads < 12))
  destG d none
  noteM d size ext place
  let v ← placeBytes va size place
  wrLater d (ext v) true

/-- Sign and zero extension by mnemonic (R251). -/
def sx (size v : Nat) : Word := sextBytes v size
def zx (v : Nat) : Word := BitVec.ofNat 64 v

/-- A load with an immediate offset (R251). -/
def loadImm (size : Nat) (ext : Nat → Word) (d a : Reg) (imm : BitVec 10) : M Unit := do
  let va ← addrOf a imm size
  loadTo d va size ext

def execLdB (d a : Reg) (imm : BitVec 10) (s : State) : Out := runSyl 0 (loadImm 1 (sx 1) d a imm) s
def execLdH (d a : Reg) (imm : BitVec 10) (s : State) : Out := runSyl 0 (loadImm 2 (sx 2) d a imm) s
def execLdW (d a : Reg) (imm : BitVec 10) (s : State) : Out := runSyl 0 (loadImm 4 (sx 4) d a imm) s
def execLdD (d a : Reg) (imm : BitVec 10) (s : State) : Out := runSyl 0 (loadImm 8 zx d a imm) s
def execLdBz (d a : Reg) (imm : BitVec 10) (s : State) : Out := runSyl 0 (loadImm 1 zx d a imm) s
def execLdHz (d a : Reg) (imm : BitVec 10) (s : State) : Out := runSyl 0 (loadImm 2 zx d a imm) s
def execLdWz (d a : Reg) (imm : BitVec 10) (s : State) : Out := runSyl 0 (loadImm 4 zx d a imm) s

/-- Appends a store to an iteration's shadow, at most 256 lines (R279). -/
def shadowStore (va : Word) (a : Access) (bs : List Byte) : M Unit := do
  let s ← get
  match s.me.running with
  | none => return ()
  | some u =>
    let sh := s.myShadow ++ bs.zipIdx.map fun b => (a.pa + b.2, b.1, a.key)
    need (decide (((sh.map (·.1 / 64)).eraseDups).length ≤ 256)) 0x12 va
    upd fun s => s.modRun u.part u.run fun r => { r with iters := r.iters.modify u.iter fun i => { i with shadow := sh } }

/-- A store to the scratchpad: performed four cycles after issue (R108). -/
def scratchStore (off size : Nat) (v : Word) : M Unit :=
  upd fun s => s.modMe fun x => { x with sps := x.sps ++ [{ off := off, size := size, val := v, issued := x.cycle }] }

/-- A store to a device table takes effect at once, after the context's older stores (R168). -/
def tableStoreM (va : Word) (pa size : Nat) (v : Word) : M Unit := do
  let s ← get
  if s.me.spec then trap 0x11 (← syllable 0)
  else
    let s := s.drainSq s.cur
    match s.tableStore s.myPart pa size v.toNat with
    | some t => set t
    | none => trap 0x0A va

/-- A store with an entry of the given kind in the store queue: it waits for room there, and goes to the shadow in an iteration. -/
def queueStore (kind : SqKind) (va : Word) (acc : Access) (size : Nat) (v : Word) : M Unit := do
  let s ← get
  if s.me.spec then
    let a ← steerM acc
    shadowStore va a (bytesOfNat size v.toNat)
  else
    await (decide (s.me.sq.length < 12))
    let a ← steerM acc
    upd fun s => s.modMe fun x =>
      { x with sq := x.sq ++ [{ kind := kind, pa := a.pa, size := size, val := v, uncached := isUncached a, key := a.key }] }

/-- A store of the low `size` bytes of a register, which is read once the access has passed its checks (R226). -/
def storeAt (va : Word) (size : Nat) (d : Reg) : M Unit := do
  let place ← checkAccess .store va size false true
  let v ← rdG d
  match place with
  | .scratch off => scratchStore off size v
  | .table pa => tableStoreM va pa size v
  | .mem a => queueStore .store va a size v

/-- A store with an immediate offset (R251). -/
def storeImm (size : Nat) (d a : Reg) (imm : BitVec 10) : M Unit := do
  sources [a, d]
  let va ← addrOf a imm size
  storeAt va size d

def execStB (d a : Reg) (imm : BitVec 10) (s : State) : Out := runSyl 0 (storeImm 1 d a imm) s
def execStH (d a : Reg) (imm : BitVec 10) (s : State) : Out := runSyl 0 (storeImm 2 d a imm) s
def execStW (d a : Reg) (imm : BitVec 10) (s : State) : Out := runSyl 0 (storeImm 4 d a imm) s
def execStD (d a : Reg) (imm : BitVec 10) (s : State) : Out := runSyl 0 (storeImm 8 d a imm) s

/-- LDC (R139, R252): the value at the launch's snapshot point, from bank memory and the underdeck only. Its access hits and fills the
caches as a load's does (Table 4-2, R216). -/
def loadConst (size : Nat) (ext : Nat → Word) (d a : Reg) (imm : BitVec 10) : M Unit := do
  let va ← addrOf a imm size
  need (va.toNat % size == 0) 0x08 va
  need (!(decide (va.toNat < 2 ^ 57) && inScratch va.toNat)) 0x0A va
  let acc ← translateM .load va
  need (isLow acc.pa) 0x0A va
  let x ← gets State.me
  need (!x.watched va.toNat size true false) 0x16 va
  await (decide (x.loads < 12))
  destG d none
  upd fun s => s.noteLoad d acc size false true
  let acc ← steerM acc
  let _ ← memBytes acc size
  let s ← get
  let l := s.launch x.launch.toNat
  wrLater d (ext (natOfBytes ({ s with mem := l.snap, blockKey := l.snapKey }.homeBytes acc.key acc.pa size))) true

def execLdcW (d a : Reg) (imm : BitVec 10) (s : State) : Out := runSyl 0 (loadConst 4 (sx 4) d a imm) s
def execLdcD (d a : Reg) (imm : BitVec 10) (s : State) : Out := runSyl 0 (loadConst 8 zx d a imm) s

/-- Clean bytes of one line leave the core's L1, so that a read takes them from the L2. -/
def State.freshen (s : State) (core line : Nat) : State :=
  let h := s.l1Core core line
  match (s.core h).l1At line with
  | some t => s.modCore h (·.setL1 { t with valid := t.dirty })
  | none => s

/-- LD.ACQ (R130, R131, R253): the value comes from the scope's point, and clean L1 data goes. -/
def loadAcq (size : Nat) (ext : Nat → Word) (d a : Reg) (sc : Scope) : M Unit := do
  let va ← rdG a
  let place ← checkAccess .load va size true false
  let x ← gets State.me
  await (decide (x.loads < 12))
  destG d none
  match place with
  | .mem acc =>
    noteM d size ext place
    let acc ← steerM acc
    upd fun s => if s.scopeActs s.myCore sc then s.freshen s.myCore (acc.pa / 64) else s
  | _ => noteM d size ext place
  let v ← placeBytes va size place
  acq sc
  wrLater d (ext v) true

def execLdAcqW (d a : Reg) (sc : Scope) (s : State) : Out := runSyl 0 (loadAcq 4 (sx 4) d a sc) s
def execLdAcqD (d a : Reg) (sc : Scope) (s : State) : Out := runSyl 0 (loadAcq 8 zx d a sc) s

/-- ST.REL (R126, R130, R131, R253) takes its place in the store queue, from which it is performed at its scope after every
earlier store; earlier loads and scratchpad stores are performed when it issues. At .ctx it is a plain store. -/
def storeRel (size : Nat) (d a : Reg) (sc : Scope) : M Unit := do
  sources [a, d]
  let va ← rdG a
  if sc = .ctx then storeAt va size d
  else
    let place ← checkAccess .store va size false true
    let v ← rdG d
    match place with
    | .scratch off => do rel sc; scratchStore off size v
    | .table pa => do rel sc; tableStoreM va pa size v
    | .mem acc =>
      let x ← gets State.me
      if x.spec then rel sc else upd fun s => s.drainSps s.cur
      queueStore (.release sc) va acc size v

def execStRelW (d a : Reg) (sc : Scope) (s : State) : Out := runSyl 0 (storeRel 4 d a sc) s
def execStRelD (d a : Reg) (sc : Scope) (s : State) : Out := runSyl 0 (storeRel 8 d a sc) s

/-- QSYNC and FENCE (R130, R131): a release and an acquire at the scope. -/
def execQsync (sc : Scope) (s : State) : Out := runSyl 0 (do rel sc; acq sc) s
def execFence (sc : Scope) (s : State) : Out := runSyl 0 (do rel sc; acq sc) s
/-- IFENCE (R140): the core's instruction buffer is invalidated. -/
def execIfence (s : State) : Out := runSyl 0 (upd fun s => s.modCore s.myCore fun n => { n with ibuf := [] }) s

/-- DISCARD and FLUSH (R141, R255) take their place in the store queue. -/
def cacheOp (kind : SqKind) (acc : AccessKind) (a : Reg) : M Unit := do
  let va ← rdG a
  let s ← get
  if decide (va.toNat < 2 ^ 57) && inScratch va.toNat then noSpec 0
  else
    let t ← translateM acc va
    noSpec 0
    await (decide (s.me.sq.length < 12))
    match region t.pa with
    | .table _ | .peer _ _ => return ()
    | _ =>
      let t ← steerM t
      upd fun s => s.modMe fun x =>
        { x with sq := x.sq ++ [{ kind := kind, pa := t.pa / 64 * 64, size := 0, val := 0, uncached := false, key := t.key }] }

def execDiscard (a : Reg) (sc : Scope) (s : State) : Out := runSyl 0 (cacheOp (.discard sc) .store a) s
def execFlush (a : Reg) (sc : Scope) (s : State) : Out := runSyl 0 (cacheOp (.flush sc) .load a) s

/-- PREF (R256): requests a line; it never traps for its address. A page that no TLB holds is left to the walkers (R121). -/
def prefetch (a : Reg) (imm : BitVec 10) : M Unit := do
  let va ← addrOf a imm 64
  let s ← get
  let n := va.toNat
  let p := s.myPart
  if n ≥ 2 ^ 57 || inScratch n then return ()
  else
    match ((s.core s.myCore).tlb ++ (s.cluster (clusterOf s.myCore)).tlb).find? fun t => t.hits p s.me.priv .load n with
    | some t =>
      let acc := t.access n
      let pa := (s.steerTo s.me.latches acc.pa).1
      match region pa with
      | .bank _ _ | .under _ _ | .cxl =>
        if acc.uncached then return ()
        else upd fun s => s.l1Touch s.myCore acc.key p (pa / 64) (BitVec.allOnes 64)
      | _ => return ()
    | none =>
      upd fun s => s.modCluster (clusterOf s.myCore) fun x =>
        if x.waiting.length < 32 && !x.waiting.any (fun e => e.1 == p && e.2.1 == n / 4096)
        then { x with waiting := x.waiting ++ [(p, n / 4096, s.me.priv)] } else x

def execPref (a : Reg) (imm : BitVec 10) (s : State) : Out := runSyl 0 (prefetch a imm) s

end Sys2Proof.Machine
end

