-- ==== Sys2Proof/Machine/Work.lean ====
section
/-! DEFINITION. Units and launches: SPAWN, SUSPEND, HALT, FORK, RDV, LAUNCH, CANCEL and the completion counters
(R33 to R38, R193 to R202, R221, R259 to R270). -/
namespace Sys2Proof.Machine

namespace State

/-- May a pool slot be allocated (R33)? -/
def slotFree (s : State) (p va : Nat) : Bool :=
  match s.readRec p va with
  | some r => (r.state == 0 || decide (4 ≤ r.state && r.state ≤ 6)) && !(r.spec && (s.run p r.run).isOpen)
  | none => false
/-- The lowest allocatable slots of a pool, at most `need` of them. -/
def freeSlots (s : State) (p va : Nat) : Nat → Nat → List Nat
  | 0, _ => []
  | n + 1, need =>
    if need = 0 then []
    else if s.slotFree p va then va :: s.freeSlots p (va + 64) n (need - 1) else s.freeSlots p (va + 64) n need

/-- Stops a cancelled context at its boundary (R38, R269): commands end without commit, what is pending drains, the lease
ends, and the unit finishes in state 5. -/
def stopCancelled (s : State) (c st : Nat) : State :=
  match (s.ctx c).running with
  | none => s
  | some u =>
    let s := (s.flushStreams c).drainAll c
    let s := ((s.dropLease c).dropParked u.part u.recVa).release c .pkg
    (s.finishUnit u.part u.recVa st false (coreOf c)).idleCtx c

/-- Is every forked stream of a context drained (R328): END executed and every command completed? -/
def streamsDrained (s : State) (c : Nat) : Bool :=
  (s.ctx c).streams.toList.all fun k => !k.forked || (k.ended && k.queue.isEmpty && k.started.isEmpty)

/-- Is the context free of pending registers and vector operations of earlier bundles (R260, R262)? -/
def quiet (s : State) (c : Nat) : Bool :=
  !(s.ctx c).wq.any fun w => (w.due.isNone || w.vec) && decide (w.issued < (s.ctx c).cycle)

/-- Writes a suspended unit back (R34, R260): the record, its state, the data queues emptied, and the context becomes idle. A record
that cannot be written removes the context (R373). A yielding unit is ready at once, and one whose condition holds where a queue
has room. Where the entry's FRAME is 0 the record has no frame, and its Frame is written 0 (DESIGN CHOICE, log 28: R260 gives it no address
then). -/
def suspendUnit (s : State) (c : Nat) (w : Word) (yield : Nat) (resume : Word) : State :=
  match (s.ctx c).running with
  | none => s
  | some u =>
    let s := (s.drainAll c).release c .clu
    let frame := if (s.yieldEntry u.part u.image yield).2.2.1 = 0 then 0
      else s.frameAddr u.part (s.ctx c).launch.toNat u.recVa
    let l := (s.ctx c).launch
    let holds := (s.condHolds u.part u.recVa none w.toNat && s.barBound l.toNat w.toNat (coreOf c)) || s.granted u.part u.recVa w.toNat
    let ready := waitKind w.toNat == 0 || (holds && s.queueRoom l.toNat (coreOf c))
    match (s.readRec u.part u.recVa).map fun r => s.vWrite u.part true u.recVa (bytesOfNat 64 ({ r with
        pc := resume.toNat, frame := frame, yield := yield, wait := w.toNat, state := if ready then 1 else 3 } : Rec).toNat) with
    | some (.ok s) =>
      let s := ((s.idleCtx c).emptyQueues c).modPart u.part fun q =>
        { q with kept := assocSet q.kept u.recVa { home := coreOf c, met := holds && !ready } }
      if ready then s.enqueue { recVa := u.recVa, part := u.part, launch := l, pri := u.pri, time := s.now, home := coreOf c } else s
    | _ => s.removeCtx c resume.toNat 0x09 u.recVa true

def rectW (s : State) (p rect : Nat) : Nat := bitsOf (s.leaseW0 p rect) 41 32
def rectH (s : State) (p rect : Nat) : Nat := bitsOf (s.leaseW0 p rect) 51 42
/-- The column at a row and column of a rectangle (R18). -/
def rectAt (s : State) (p rect i j : Nat) : Nat :=
  s.colOf (bitsOf (s.leaseW0 p rect) 8 0 + i) (bitsOf (s.leaseW0 p rect) 24 16 + j)
/-- The columns of a rectangle, row by row. -/
def rectColumns (s : State) (p rect : Nat) : List Nat :=
  (List.range (s.rectH p rect)).flatMap fun i => (List.range (s.rectW p rect)).map (s.rectAt p rect i)
/-- The chain-end edges of a rectangle, by row (R20). -/
def rectEdges (s : State) (p rect : Nat) : List Nat :=
  (List.range (s.rectH p rect)).map fun i => rowOfCol (s.rectAt p rect i (s.rectW p rect - 1))
/-- Does a rectangle reach past an edge of this package: 0 north, 1 east, 2 south, 3 west? -/
def rectCrosses (s : State) (p rect edge : Nat) : Bool :=
  let w0 := s.leaseW0 p rect
  let (oy, ox) := pkgOrigin s.pkg
  match edge with
  | 0 => decide (bitsOf w0 8 0 < oy)
  | 1 => decide (ox + 64 < bitsOf w0 24 16 + s.rectW p rect)
  | 2 => decide (oy + 64 < bitsOf w0 8 0 + s.rectH p rect)
  | _ => decide (bitsOf w0 24 16 < ox)
/-- The packages of the block that a rectangle and this package span, by their places in the domain (R405). -/
def rectBlock (s : State) (p rect : Nat) : List Nat :=
  let w0 := s.leaseW0 p rect
  let span := fun own lo n => between (min own (lo / 64)) (max own ((lo + n - 1) / 64)) 1
  (span (s.pkg / 8) (bitsOf w0 8 0) (s.rectH p rect)).flatMap fun r =>
    (span (s.pkg % 8) (bitsOf w0 24 16) (s.rectW p rect)).map (8 * r + ·)
/-- Do the chains or multicasts of a rectangle cross the link at edge `d` of a package: the one by which this package is left, or one between
two others of the block (DEDUCED, log 18)? -/
def rectSpans (s : State) (p rect q d : Nat) : Bool :=
  if q = s.pkg then s.rectCrosses p rect d
  else
    let b := s.rectBlock p rect
    b.contains q && (match beyond q d with | some n => b.contains n | none => false)
/-- Are there chains and multicasts for a rectangle (R405, R407): a package at every place of the block that it and this package span, and
every link that they cross up? -/
def rectLinked (s : State) (p rect : Nat) : Bool :=
  let b := s.rectBlock p rect
  s.inDomain b && (List.range 4).all fun d => (s.pkg :: b).all fun q => !s.rectSpans p rect q d || s.linkUp q d
/-- Does a lease table entry pass R174 for a leasing core, its position included (R19)? -/
def rectOk (s : State) (p rect core : Nat) : Bool :=
  let w0 := s.leaseW0 p rect
  let w := s.rectW p rect
  let h := s.rectH p rect
  let x := bitsOf w0 24 16
  bitOf w0 63 && decide (1 ≤ w) && decide (w ≤ 512) && decide (1 ≤ h) && decide (h ≤ 512)
    && decide (x + w ≤ 512) && decide (bitsOf w0 8 0 + h ≤ 512) && s.rectLinked p rect
    && (s.rectColumns p rect).all (fun c => s.colAllowed p c && !(s.col c).lost)
    && decide ((x + w - 1) / 32 ≤ ((pkgOrigin s.pkg).2 + (stackOffset (stackOf core)).2) / 32)

/-- Adds a request for a rectangle and sets WAIT. -/
def addReq (s : State) (p rect : Nat) (ctx : Option Nat) (recVa pri : Nat) : State :=
  (s.modPart p fun q => { q with reqs := q.reqs ++ [{ rect := rect, ctx := ctx, recVa := recVa, pri := pri, since := s.now }] }).setLeaseWait p rect true
/-- A parked lease for which another request waits ends at once, and its unit is left requesting the rectangle (R372, R434). -/
def endParked (s : State) (p rect : Nat) : State :=
  match (s.part p).parked.find? fun k => k.rect == rect with
  | none => s
  | some k =>
    if !s.leaseWait p rect then s
    else ((s.endLease p rect).modPart p fun x => { x with parked := x.parked.erase k }).addReq p rect none k.recVa
      (((s.readRec p k.recVa).map (·.pri)).getD 0)
/-- Requests a rectangle (R331, R434); a lease parked on it ends. -/
def requestLease (s : State) (p rect : Nat) (ctx : Option Nat) (recVa pri : Nat) : State :=
  (s.addReq p rect ctx recVa pri).endParked p rect

end State

/-- Delivers a held engine fault at a bundle (R368): matrix first, then copy, acc0 to acc3. -/
def deliverHeld : M Unit := do
  let s ← get
  match (List.range 6).find? fun k => (s.me.stream k).fault.isSome with
  | some k => throw (.held k)
  | none => return ()

/-- Holds the context until a condition holds (R261): byte 23 of the record is 3 meanwhile and 2 again at the end. -/
def holdUntil (cond : State → Bool) : M Unit := do
  let s ← get
  match s.me.running with
  | none => if cond s then return () else throw .hold
  | some u =>
    let st := s.recState u.part u.recVa
    if cond s then
      if st = 3 then upd fun s => s.setRecState u.part u.recVa 2 else return ()
    else
      if st ≠ 3 then upd fun s => s.setRecState u.part u.recVa 3
      throw .hold

/-- SPAWN (R259). -/
def spawn (d a b : Reg) : M Unit := do
  sources [d, a, b]
  let pc ← rdG d
  need (pc.toNat % 16 == 0) 0x08 pc
  let x ← rdG a
  let y ← rdG b
  noSpec 0
  let s ← get
  match s.me.running with
  | none => stall
  | some u =>
    let l := s.launch s.me.launch.toNat
    await (s.queueRoom s.me.launch.toNat s.myCore)
    match s.freeSlots u.part l.fields.rpool l.fields.rpooln 1 with
    | [] => stall
    | va :: _ =>
      let links := ((s.readRec u.part u.recVa).map (·.links)).getD (linksOf 0xFFFF 0xFF 0x3F)
      upd fun s =>
        let s := s.release s.cur .clu
        let s := s.writeRec u.part va
          { pc := pc.toNat, launch := s.me.launch.toNat, pri := u.pri, state := 1, a0 := x.toNat, a1 := y.toNat, links := links }
        let s := s.countLive u.part l.fields.cnt 1
        s.enqueue { recVa := va, part := u.part, launch := s.me.launch, pri := u.pri, time := s.now, home := s.myCore }

def execSpawn (d a b : Reg) (s : State) : Out := runSyl 0 (spawn d a b) s

/-- Notes the counter and target that a held instruction waits for (R201). -/
def Ctx.waitOn (x : Ctx) (n t : Nat) : Ctx := if x.cntOn.isSome then x else { x with cntOn := some (n, t, false) }
/-- Has an event of the counter satisfied the wait? -/
def Ctx.waitMet (x : Ctx) : Bool := match x.cntOn with | some (_, _, b) => b | none => false
/-- Does a stream hold or request no lease (R434)? -/
def Lease.idle : Lease → Bool
  | .none | .lost _ => true
  | .held _ _ _ | .requested _ _ => false

/-- SUSPEND of a pinned unit (R35, R260): it is held in place until its condition holds. Its publish latches are released (R137). -/
def suspendPinned (ga : Word) (u : Running) : M Unit := do
  let w := ga.toNat
  let kind := waitKind w
  let s ← get
  if kind = 3 then need (!s.me.barLost) 0x13 (waitDesc w)
  if kind = 4 ∧ s.me.asked ≠ some (waitObj w) then
    upd fun s => (s.requestLease u.part (waitObj w) (some s.cur) u.recVa u.pri).modMe fun x =>
      { x with lease := .requested (waitObj w) s.now, asked := some (waitObj w) }
  upd fun s => s.modMe fun x => { x with latches := [] }
  if kind = 1 then upd fun s => s.modMe (·.waitOn (waitObj w) (waitTarget w))
  if kind = 3 then upd fun s => s.modMe fun x =>
    { x with barOn := some (bitsOf (waitObj w) 22 17 * 512 + bitsOf (waitObj w) 16 8) }
  if kind = 0 then return ()
  holdUntil fun s => s.condHolds u.part u.recVa (some s.cur) w || s.me.waitMet
  upd fun s => s.modMe fun x => { x with asked := none, cntOn := none, barOn := none }
  if kind = 1 ∨ kind = 2 then acq .pkg

/-- SUSPEND (R260), its checks in the order of R226: ILLEGAL of the operands, and of a pinned unit whose stream has a lease (R434), goes
first. -/
def suspend (a : Reg) (imm : BitVec 10) : M Unit := do
  let yield ← immU imm
  let known ← peekG a
  let s ← get
  match s.me.running with
  | none => stall
  | some u =>
    let ok := fun (f : Nat → Bool) => (known.map fun g => f g.toNat).getD true
    need (ok fun w => decide (waitKind w < 6)) 0x01 (known.getD 0)
    need (decide (yield < s.yieldCnt u.part u.image)) 0x01 (BitVec.ofNat 64 yield)
    need (ok fun w => !waitObjBad w) 0x01 (known.getD 0)
    need (ok fun w => !(s.me.pinned && waitKind w == 4 && s.me.asked != some (waitObj w) && !s.me.lease.idle)) 0x01 (known.getD 0)
    let ga ← rdG a
    let w := ga.toNat
    need (waitKind w != 4 || s.rectOk u.part (waitObj w) s.myCore) 0x0A ga
    need (waitKind w != 5 || s.reqIn u.part (waitObj w)) 0x0A (BitVec.ofNat 64 (waitObj w))
    deliverHeld
    await (s.quiet s.cur)
    if s.me.pinned then suspendPinned ga u
    else
      let save := (s.yieldEntry u.part u.image yield).1
      upd fun s =>
        let s := (s.dropLease s.cur).modMe fun x => { x with latches := [] }
        let s := if waitKind w = 4 then (s.setGranted u.part u.recVa false).requestLease u.part (waitObj w) none u.recVa u.pri else s
        if save = 0xFFFFFFFF then { s.suspendUnit s.cur ga yield (s.me.pc + 16) with mark := .gone }
        else
          { s.modMe fun x => { x with seq := .save ga yield (x.pc + 16) } with
            npc := some (BitVec.ofNat 64 ((s.ctlSection u.part u.image).1 + save)) }

def execSuspend (a : Reg) (imm : BitVec 10) (s : State) : Out := runSyl 0 (suspend a imm) s

/-- HALT (R262). In a save or restore sequence it ends the sequence (log 12). Vector syllables of its own bundle complete first (R82). -/
def halt : M Unit := do
  let s ← get
  match s.me.running with
  | none => return ()
  | some u =>
    match s.me.seq with
    | .save w y r =>
      await (s.quiet s.cur)
      upd fun s => { s.suspendUnit s.cur w y r with mark := .gone }
    | .restore r =>
      await (s.quiet s.cur)
      upd fun s => { (s.drainVec s.cur).modMe fun x => { x with seq := .none } with npc := some r }
    | .none =>
      deliverHeld
      await (s.quiet s.cur)
      await (s.streamsDrained s.cur)
      upd fun s =>
        let s := ((s.drainAll s.cur).dropLease s.cur).release s.cur .pkg
        { (s.finishUnit u.part u.recVa 4 false s.myCore).idleCtx s.cur with mark := .gone }

def execHalt (s : State) : Out := runSyl 0 halt s

/-! FORK and RDV (R193, R221, R263). -/

/-- A sync table entry as a number. -/
def State.syncEntry (s : State) (p img i : Nat) : Nat := s.imgField p img (s.imgField p img 28 4 + 8 * i) 8
/-- The first sync table entry that fails R193's checks. -/
def State.syncBad (s : State) (p img : Nat) : Option Nat :=
  (List.range (s.imgField p img 32 4)).find? fun i =>
    let e := s.syncEntry p img i
    let key := fun e => bitsOf e 63 48 * 64 + bitsOf e 5 0
    decide (6 ≤ bitsOf e 34 32) || decide (6 ≤ bitsOf e 26 24) || bitsOf e 39 35 != 0 || bitsOf e 31 27 != 0 || bitsOf e 23 6 != 0
      || (i != 0 && decide (key e ≤ key (s.syncEntry p img (i - 1))))
/-- The entry of a flag in a set. -/
def State.syncOf (s : State) (p img set f : Nat) : Option Nat :=
  ((List.range (s.imgField p img 32 4)).map fun i => s.syncEntry p img i).find? fun e =>
    bitsOf e 63 48 == set && bitsOf e 5 0 == f
/-- A fork table entry: SET, MASK, the six entries, and whether it is well formed in itself (Table 9-3). -/
def State.forkEntry (s : State) (p img i : Nat) : Nat × Nat × List Nat × Bool :=
  let n := s.imgField p img (s.imgField p img 24 4 + 32 * i) 32
  let mask := bitsOf n 23 16
  let es := (List.range 6).map fun k => bitsOf n (32 * k + 63) (32 * k + 32)
  let ok := bitsOf n 31 24 == 0 && bitsOf n 255 224 == 0 && decide (mask < 64) && (List.range 6).all fun k =>
    if bitOf mask k then
      match s.imgFind p img (k + 2) with
      | some (_, size) => decide (es.getD k 0 < size / 2)
      | none => false
    else true
  (bitsOf n 15 0, mask, es, ok)

/-- FORK (R263), its checks in the order of R226: ILLEGAL, then a held fault (R368). The streams it starts get empty stacks; the others keep
theirs (R83). -/
def fork (imm : BitVec 15) : M Unit := do
  let set' ← immU imm
  let s ← get
  match s.me.running with
  | none => stall
  | some u =>
    if s.me.pinned then trap 0x01 (← syllable 0)
    match s.syncBad u.part u.image with
    | some i => trap 0x01 (BitVec.ofNat 64 i)
    | none => pure ()
    let es := ((List.range (s.imgField u.part u.image 22 2)).map fun i => s.forkEntry u.part u.image i).filter (·.1 == set')
    match es with
    | [(_, mask, entries, true)] =>
      deliverHeld
      upd fun s =>
        let s := s.release s.cur .pkg
        s.modMe fun x =>
          { x with
            pinned := true, forkSet := set', hist := Vector.replicate 32 0,
            flags := Vector.ofFn fun (f : Fin 64) =>
              BitVec.ofNat 8 (((s.syncOf u.part u.image set' f.val).map fun e => bitsOf e 47 40).getD 0),
            streams := Vector.ofFn fun (k : Fin 6) =>
              let old := x.streams[k]
              match bitOf mask k.val, s.imgFind u.part u.image (k.val + 2) with
              | true, some (off, size) =>
                { forked := true, base := u.image + off, len := size / 2, pos := entries.getD k.val 0,
                  fetchAt := entries.getD k.val 0, nest := old.nest }
              | _, _ => { old with forked := false, ended := true } }
    | _ => trap 0x01 (BitVec.ofNat 64 set')

def execFork (imm : BitVec 15) (s : State) : Out := runSyl 0 (fork imm) s

/-- RDV (R263, R135). -/
def rdv : M Unit := do
  let s ← get
  deliverHeld
  if s.me.pinned then
    await (s.streamsDrained s.cur)
    upd fun s => s.modMe fun x => { x with pinned := false }
    acq .pkg

def execRdv (s : State) : Out := runSyl 0 rdv s

/-! LAUNCH (R264 to R268). -/

/-- The job counter that a stand-alone record names, if it is one (R267). -/
def State.enclOk (s : State) (p : Nat) (r : LaunchRec) : Bool :=
  r.encl == 0xFFFF || ((s.counter p r.encl).status == 1 && (s.counter p r.encl).kind == 3 && decide (r.encl < 1024))

/-- Reads the structures a record names and checks them (R267): the first offending address, or the nodes of a graph. -/
def State.checkNamed (s : State) (p : Nat) (super : Bool) (r : LaunchRec) :
    Except (Byte × Nat) (Except Nat (List Node)) := do
  match r.kind with
  | 1 =>
    match ← s.readGraph p super r with
    | .error i => return .error (r.list + 32 * i)
    | .ok ns => return .ok ns
  | 2 =>
    let as ← (List.range r.listn).mapM fun i => (s.readAt p super (r.list + 8 * i) 8).map natOfBytes
    let bad ← as.mapM fun a => do
      match ← s.readLaunch p super a with
      | some g =>
        if g.kind = 1 then
          match ← s.readGraph p super g with
          | .error i => pure (some (g.list + 32 * i))
          | .ok _ => pure none
        else pure (some a)
      | none => pure (some a)
    match (bad.filterMap id).head? with
    | some a => return .error a
    | none => return .ok []
  | _ => return .ok []

/-- Opens the level of a checked record; the answer is what gd takes. -/
def State.openLevel (s : State) (p : Nat) (r : LaunchRec) (ns : List Node) (super : Bool) : Nat × State :=
  let s := if r.encl != 0xFFFF then s.countLive p r.encl 1 else s
  match r.kind with
  | 0 => s.openLaunch p r super 0xFFFF 0xFF (if r.encl = 0xFFFF then 0x3F else r.encl) none
  | 1 => (r.cnt, (s.openGraph p r ns none).settle p)
  | 2 =>
    let gs := (List.range r.listn).map fun i => match s.vNat p true (r.list + 8 * i) 8 with | .ok a => a | .error _ => 0
    let encl := if r.encl = 0xFFFF then none else some r.encl
    let s := (s.openCounter p r.cnt 2 r.listn encl).setPhase p r.cnt 
      { graphs := gs, job := encl, seq := (s.phases.map (·.2.seq)).foldl max 0 + 1, isOpen := true }
    (r.cnt, s.settle p)
  | _ => (r.cnt, s.openCounter p r.cnt 3 0 none)

/-- LAUNCH (R264), its checks in the order of R226: what R267 refuses, PRIV, then an address that cannot be read. -/
def launch (d a : Reg) : M Unit := do
  let ga ← rdG a
  need (ga.toNat % 64 == 0) 0x08 ga
  let s ← get
  let p := s.myPart
  let super := s.me.priv
  let s := s.release s.cur .pkg
  match s.readLaunch p super ga.toNat with
  | .error (e, at') => trap e (BitVec.ofNat 64 at')
  | .ok none => trap 0x01 ga
  | .ok (some r) =>
    need (s.enclOk p r) 0x01 ga
    let named := s.checkNamed p super r
    match named with
    | .ok (.error bad) => trap 0x01 (BitVec.ofNat 64 bad)
    | _ => pure ()
    if 2 ≤ r.kind then needPriv 0
    match named with
    | .error (e, at') => trap e (BitVec.ofNat 64 at')
    | .ok (.error bad) => trap 0x01 (BitVec.ofNat 64 bad)
    | .ok (.ok ns) =>
      noSpec 0
      need ((s.counter p r.cnt).status != 1) 0x0A (BitVec.ofNat 64 r.cnt)
      await (!s.queueFull)
      destG d (some 1)
      set s
      let (v, t) := s.openLevel p r ns super
      set t
      wrG d (BitVec.ofNat 64 v) 1

def execLaunch (d a : Reg) (s : State) : Out := runSyl 0 (launch d a) s

/-! CANCEL (R269). -/

/-- A context whose own unit has been cancelled stops at the CANCEL (R269). -/
def afterCancel : M Unit :=
  upd fun s => if s.me.cancel.isSome then { s.stopCancelled s.cur 5 with mark := .gone } else s

def cancelUnitM (a : Reg) : M Unit := do
  let ga ← rdG a
  need (ga.toNat % 64 == 0) 0x08 ga
  let s ← get
  let p := s.myPart
  match s.vPa p s.me.priv .load ga.toNat with
  | .error e => trap e ga
  | .ok _ => pure ()
  noSpec 0
  match s.readRec p ga.toNat with
  | none => return ()
  | some r =>
    need (!(s.launches.any fun e => e.1 == r.launch) || (s.launch r.launch).part == p) 0x0A ga
    upd fun s => s.cancelRec p ga.toNat
    afterCancel
def cancelLaunchM (a : Reg) : M Unit := do
  let ga ← rdG a
  noSpec 0
  let s ← get
  let known := s.launches.any fun e => e.1 == ga.toNat
  need (!known || (s.launch ga.toNat).part == s.myPart) 0x0A ga
  if known then upd fun s => s.cancelLaunchNo ga.toNat
  afterCancel
/-- A level named by its counter number. -/
def cancelCounterM (a : Reg) (super : Bool) (kind : Nat) (f : State → Nat → Nat → State) : M Unit := do
  if super then needPriv 0
  let ga ← rdG a
  noSpec 0
  need (decide (ga.toNat < 1024)) 0x0A ga
  upd fun s =>
    let c := s.counter s.myPart ga.toNat
    if c.status = 1 ∧ c.kind = kind then f s s.myPart ga.toNat else s
  afterCancel

def execCancelUnit (a : Reg) (s : State) : Out := runSyl 0 (cancelUnitM a) s
def execCancelLaunch (a : Reg) (s : State) : Out := runSyl 0 (cancelLaunchM a) s
def execCancelGraph (a : Reg) (s : State) : Out := runSyl 0 (cancelCounterM a false 1 State.cancelGraphNo) s
def execCancelPhase (a : Reg) (s : State) : Out := runSyl 0 (cancelCounterM a true 2 State.cancelPhaseNo) s
def execCancelJob (a : Reg) (s : State) : Out := runSyl 0 (cancelCounterM a true 3 State.cancelJobNo) s

/-! Completion counters (R270). -/

/-- CNT.ADD (R202, R270). The old word is written with a latency of 1, as an integer syllable writes (DESIGN CHOICE, log 28: Table 10-1 and
the list below it name neither CNT.ADD nor LAUNCH, BAR.ARR, RUN.BEGIN and RUN.COMMIT). -/
def cntAdd (d a b : Reg) : M Unit := do
  sources [a, b]
  let n ← rdG a
  let v ← rdG b
  noSpec 0
  need (decide (n.toNat < 1024)) 0x0A n
  let s ← get
  let p := s.myPart
  let c := s.counter p n.toNat
  let add : BitVec 32 := v.setWidth 32
  need (add == 0 || c.status != 1) 0x0A n
  destG d (some 1)
  rel .pkg
  upd fun s => s.counterEvent p n.toNat { s.counter p n.toNat with done := c.done + add }
  wrG d (State.counterWord c) 1
/-- CNT.WAIT (R201, R270). -/
def cntWait (a b : Reg) : M Unit := do
  sources [a, b]
  let n ← rdG a
  let v ← rdG b
  need (decide (n.toNat < 1024)) 0x0A n
  upd fun s => s.modMe (·.waitOn n.toNat (v.toNat % 2 ^ 32))
  holdUntil fun s => decide (v.toNat % 2 ^ 32 ≤ (s.counter s.myPart n.toNat).done.toNat) || s.me.waitMet
  upd fun s => s.modMe fun x => { x with cntOn := none }
  acq .pkg

def execCntAdd (d a b : Reg) (s : State) : Out := runSyl 0 (cntAdd d a b) s
def execCntWait (a b : Reg) (s : State) : Out := runSyl 0 (cntWait a b) s

end Sys2Proof.Machine
end

