-- ==== Sys2Proof/Machine/Stream.lean ====
section
/-! DEFINITION. Engine streams: fetching words, the stack and flow words, sync flags, and how a launch word hands a command to
its engine's queue (R83, R84, R153, R193, R194, R234 to R236, R325 to R330). -/
namespace Sys2Proof.Machine

/-! Fetch. -/

/-- Does a stream execute words now (R38, R325, R326, R370)? -/
def Ctx.streamRuns (x : Ctx) (k : Nat) : Bool :=
  let t := x.stream k
  x.running.isSome && x.cancel.isNone && x.preempt.isNone && t.forked && !t.ended && t.fault.isNone

/-- What a stream's fetch gives: it waits for a walk, it faults, or bytes with the state after the fetch. -/
inductive WordFetch where
  | wait
  | fault (sub : Byte)
  | bytes (bs : List Byte) (s : State)
  deriving DecidableEq, Repr

/-- The bytes of a stream's words from `pos` on that lie in one page, at most 32 words (R153), through the cluster's TLB (R120)
and the buffer that the context has latched (R137). -/
def State.streamBytes (s : State) (c : Nat) (t : Stream) : WordFetch :=
  let va := t.base + 2 * t.pos
  let n := min (min 64 (2 * (t.len - t.pos))) (4096 - va % 4096)
  let x := s.ctx c
  let super := (x.running.map (·.level)).getD false
  let clu := clusterOf (coreOf c)
  if s.walkHeldAt clu x.partNo super .load va then .wait
  else match s.clusterXlate clu x.partNo super .load va with
    | (.error e, _) => .fault (if e = 0x09 then 0x11 else 0x12)
    | (.ok e, s) =>
      let (a, s) := s.steer c (e.access va)
      if !s.placeOk super a.pa then .fault 0x12
      else match s.engineRead clu x.partNo a n with
        | some (bs, s) => .bytes bs s
        | none => .fault 0x12

/-- Pairs of bytes as words. -/
def wordsOf : List Byte → List (BitVec 16)
  | a :: b :: l => (b ++ a) :: wordsOf l
  | _ => []

/-- Fills an empty fetch queue: it waits, it faults with a subcode, or the state after it. -/
def State.fillFetch (s : State) (c k : Nat) : Option (Except Byte State) :=
  let t := (s.ctx c).stream k
  if !t.fetch.isEmpty then some (.ok s)
  else if t.len ≤ t.pos then some (.error 0x01)
  else match s.streamBytes c t with
    | .wait => none
    | .fault e => some (.error e)
    | .bytes bs s => some (.ok (s.modStream c k fun t =>
        let ws := wordsOf bs
        { t with fetch := ws, fetchAt := t.pos + ws.length }))

/-- Does a stream accept a launch word of this opcode (R234)? Stream 0 is matrix, 1 copy, 2 to 5 access. -/
def classOk (k : Nat) (op : Nat) : Bool :=
  if op < 0xA0 then true
  else if op < 0xC0 then k == 0
  else if op < 0xE0 then k == 1
  else decide (2 ≤ k)
/-- The subcode of a word that does not decode (R236, Table 9-15): the opcode, the class, then the modifier. -/
def badWord (k : Nat) (w : BitVec 16) : Byte :=
  let op := w.toNat / 256
  if (0x9A ≤ op && op ≤ 0x9F) || (0xAF ≤ op && op ≤ 0xBF) || (0xCA ≤ op && op ≤ 0xDF) || 0xE5 ≤ op then 0x01
  else if !classOk k op then 0x04 else 0x05

/-- A stream's next turn: it fetches and executes the word at its position. -/
def wordStep (ex : Instr → State → Out) (c k : Nat) (s : State) : Out :=
  if !(s.ctx c).streamRuns k then .next s
  else
    let s := { s with cur := c, curK := k, mark := .ok }
    match s.fillFetch c k with
    | none => .next { s with mark := .stall }
    | some (.error e) => .next (s.wordFault c k e)
    | some (.ok t) =>
      match t.myStream.fetch with
      | [] => .next t
      | w :: _ =>
        match decodeWord w with
        | some i => ex i t
        | none => .next (t.wordFault c k (badWord k w))

/-! The parts of words. -/

/-- The stream goes on with the next word. -/
def wordDone : M Unit :=
  upd fun s => s.modMyStream fun t => { t with pos := t.pos + 1, fetch := t.fetch.drop 1 }
/-- The parameter stack, its top first. -/
def stack : M (List Word) := gets fun s => s.myStream.stack
def setStackTo (l : List Word) : M Unit := upd fun s => s.modMyStream fun t => { t with stack := l }
/-- A push: subcode 0x02 on a stack of depth 8. -/
def pushW (v : Word) : M Unit := do
  let l ← stack
  needE (decide (l.length < 8)) 0x02
  setStackTo (v :: l)
/-- A stack word with one entry to replace. -/
def stackWord (f : List Word → Option (List Word)) : M Unit := do
  match f (← stack) with
  | some l => setStackTo l; wordDone
  | none => throw (.engine 0x03)

/-- Has every earlier command of the stream completed (R329)? -/
def streamIdle : M Bool := gets fun s => s.myStream.queue.isEmpty && s.myStream.started.isEmpty

/-- The sync table entry of a flag in the set that the context forked: producer and consumer. -/
def syncEnds (f : BitVec 6) : M (Option (Nat × Nat)) := do
  let s ← get
  return (s.me.running.bind fun u => s.syncOf u.part u.image s.me.forkSet f.toNat).map fun e => (bitsOf e 26 24, bitsOf e 34 32)
/-- The token count of a flag. -/
def tokens (f : BitVec 6) : M Nat := gets fun s => (vget 0 s.me.flags f.toNat).toNat
def setTokens (f : BitVec 6) (n : Nat) : M Unit :=
  upd fun s => s.modMe fun x => { x with flags := vset x.flags f.toNat (BitVec.ofNat 8 n) }

/-! Stack and flow words (Tables 9-13, 12-2). -/

def execLit (i : BitVec 15) (s : State) : Out := runWord (do pushW (i.setWidth 64); wordDone) s
def execExt (i : BitVec 12) (s : State) : Out := runWord (stackWord fun
  | a :: l => some ((a <<< 12 ||| i.setWidth 64) :: l)
  | [] => none) s
def execEngineNop (s : State) : Out := runWord wordDone s
def execDup (s : State) : Out := runWord (do
  match ← stack with
  | [] => throw (.engine 0x03)
  | a :: _ => pushW a; wordDone) s
def execDrop (s : State) : Out := runWord (stackWord fun
  | _ :: l => some l
  | [] => none) s
def execSwap (s : State) : Out := runWord (stackWord fun
  | b :: a :: l => some (a :: b :: l)
  | _ => none) s
def execOver (s : State) : Out := runWord (do
  match ← stack with
  | _ :: a :: _ => pushW a; wordDone
  | _ => throw (.engine 0x03)) s
def execEngineAdd (s : State) : Out := runWord (stackWord fun
  | b :: a :: l => some ((a + b) :: l)
  | _ => none) s

/-- SIG (R84, R194, R329). -/
def execSig (f : BitVec 6) (s : State) : Out := runWord (do
  match ← syncEnds f with
  | none => throw (.engine 0x07)
  | some (prod, _) =>
    needE (prod == (← get).curK) 0x07
    await (← streamIdle)
    let n ← tokens f
    needE (decide (n < 255)) 0x06
    setTokens f (n + 1)
    wordDone) s
/-- WAITT (R84, R194, R329). -/
def execWaitt (f : BitVec 6) (s : State) : Out := runWord (do
  match ← syncEnds f with
  | none => throw (.engine 0x07)
  | some (_, cons) =>
    needE (cons == (← get).curK) 0x07
    let n ← tokens f
    await (n != 0)
    setTokens f (n - 1)
    wordDone) s
/-- LOOP (R329): a distance that reaches before the section start is a modifier fault. -/
def execLoop (d : BitVec 8) (s : State) : Out := runWord (do
  let t ← gets State.myStream
  needE (decide (d.toNat ≤ t.pos)) 0x05
  match t.stack with
  | [] => throw (.engine 0x03)
  | a :: l =>
    if a.toNat ≤ 1 then
      setStackTo l
      wordDone
    else
      upd fun s => s.modMyStream fun t =>
        { t with stack := (a - 1) :: l, pos := t.pos - d.toNat, fetchAt := t.pos - d.toNat, fetch := [] }) s
/-- END (R329). -/
def execEndW (s : State) : Out := runWord (upd fun s => s.modMyStream fun t =>
  { t with pos := t.pos + 1, fetch := [], ended := true }) s

/-! Launch words. -/

/-- A field limit of Table 12-3: subcode 0x08. -/
def field (ok : Bool) : M Unit := needE ok 0x08
/-- Bits hi:lo of an operand. -/
def opBits (v : Word) (hi lo : Nat) : Nat := bitsOf v.toNat hi lo
/-- Are the bits outside a mask of fields zero? -/
def onlyBits (v : Word) (m : Nat) : Bool := v.toNat &&& m == v.toNat

/-- A launch word (R325, R326): class, stack, the checks of its operands with the first pushed first; then it waits while its
command queue holds four entries, pops, and enters the queue. -/
def launchWord (op : Nat) (n : Nat) (i : Instr) (check : List Word → M Unit) : M Unit := do
  let s ← get
  needE (classOk s.curK op) 0x04
  let l ← stack
  needE (decide (n ≤ l.length)) 0x03
  let ops := (l.take n).reverse
  check ops
  await (decide (s.myStream.queue.length < 4))
  upd fun s => s.modMyStream fun t => { t with stack := t.stack.drop n, queue := t.queue ++ [{ word := i, off := t.pos, ops := ops }] }
  wordDone

/-- An operand by place. -/
def nth (l : List Word) (i : Nat) : Word := l.getD i 0

end Sys2Proof.Machine
end

