-- ==== Sys2Proof/Machine/Engine.lean ====
section
/-! DEFINITION. What the engine commands share: rings, leases and their slots, slot rows, the resources that keep commands
apart, and reads and writes over the vertical bus (R24, R25, R79, R85, R100, R138, R158, R175, R327, R330 to R335). -/
namespace Sys2Proof.Machine

/-! Rings. -/

namespace State

/-- A ring of a core. -/
def ring (s : State) (core n : Nat) : Ring := vget {} (s.core core).rings n
/-- Bytes of the tile that a free-running count names. -/
def tileOff (r : Ring) (count : Nat) : Nat := r.off + count % r.tiles * (r.tsize * 256)
/-- The rows of the tile at HEAD. -/
def headTile (s : State) (core n : Nat) : List Row :=
  let r := s.ring core n
  (List.range r.tsize).map fun j =>
    BitVec.ofNat 2048 ((s.core core).sp.nat (tileOff r r.head + 256 * j) 256)
/-- Writes scratchpad bytes. -/
def spWrite (s : State) (core off : Nat) (bs : List Byte) : State :=
  s.modCore core fun x => { x with sp := x.sp.putBytes off bs }
/-- A ring's pointers take new values, which its occupancy monitors sample (R211). -/
def setPtr (s : State) (core n head tail : Nat) : State :=
  let s := s.modCore core fun x => { x with rings := vset x.rings n { vget {} x.rings n with ptr := ptrOf head tail } }
  s.monSample 3 (core * 8 + n) (s.ring core n).occ
/-- A consumer advances HEAD (R138). -/
def ringTake (s : State) (core n : Nat) : State :=
  let r := s.ring core n
  s.setPtr core n (r.head + 1) r.tail
/-- A producer fills the tile at TAIL with rows and advances TAIL (R138). -/
def ringGive (s : State) (core n : Nat) (rows : List Row) : State :=
  let r := s.ring core n
  let s := s.spWrite core (tileOff r r.tail) (rows.flatMap fun w => bytesOfNat 256 w.toNat)
  s.setPtr core n r.head (r.tail + 1)

end State

/-- Rings that a command fills, and rings that it drains. -/
def producedBy (d : Cmd) : List Nat :=
  let op := fun i => (d.ops.getD i 0).toNat
  match d.word with
  | .getr => [op 1]
  | .xout _ => if op 0 % 16 < 8 then [op 0 % 16] else []
  | .repair => [bitsOf (op 0) 22 20]
  | _ => []
def consumedBy (d : Cmd) : List Nat :=
  let op := fun i => (d.ops.getD i 0).toNat
  match d.word with
  | .mma _ | .putr => [op 0]
  | .kvapp | .qk | .sv => [op 2]
  | .repair => [bitsOf (op 0) 18 16]
  | _ => []
/-- Is it this command's turn at a ring (R158)? No command of the core that started earlier still uses the ring alike. -/
def State.ringTurn (s : State) (core : Nat) (uses : Cmd → List Nat) (n since : Nat) : Bool :=
  (List.range 4).all fun i => (s.ctx (core * 4 + i)).streams.toList.all fun k =>
    k.started.all fun d => !(uses d).contains n || d.ready || decide (since ≤ d.since)
/-- The checks of a ring that a command uses (R85): extent, then TILES. -/
def useRing (n : Nat) : M Ring := do
  let s ← get
  let r := s.ring s.myCore n
  needE (decide (r.off + r.tiles * r.tsize * 256 ≤ (s.core s.myCore).spSize)) 0x09
  needE (r.tiles != 0) 0x0A
  return r
/-- Waits for a tile to consume. -/
def awaitTile (d : Cmd) (n : Nat) : M Unit := do
  let s ← get
  await (s.ringTurn s.myCore consumedBy n d.since)
  await ((s.ring s.myCore n).occ != 0)
/-- Waits for room to produce a tile. -/
def awaitRoom (d : Cmd) (n : Nat) : M Unit := do
  let s ← get
  await (s.ringTurn s.myCore producedBy n d.since)
  let r := s.ring s.myCore n
  await (decide (r.occ < r.tiles))

/-! Leases (R175, R331 to R334). -/

/-- Does a command need the stream's lease (Table 12-1)? -/
def needsLease (d : Cmd) : Bool :=
  let sel0 := fun i => !(d.ops.getD i 0).getLsbD 8
  match d.word with
  | .unlease | .wload _ | .wswap | .mma _ | .qk | .sv => true
  | .aclr => sel0 0
  | .ackpt | .acload => sel0 1
  | .xout _ => sel0 2 && (d.ops.getD 0 0).toNat % 16 != 9
  | _ => false
/-- The rectangle held, for a command that needs it (R332): subcode 0x0E without a lease, 0x10 after its loss; it waits for a
grant. -/
def heldRect : M Nat := do
  let s ← get
  match s.me.lease with
  | .none => throw (.engine 0x0E)
  | .lost _ => throw (.engine 0x10)
  | .requested _ _ => stall
  | .held _ 0 _ => stall
  | .held r _ _ => return r
/-- Has LEFT of a held lease come to 0? -/
def Lease.spent : Lease → Bool
  | .held _ 0 _ => true
  | _ => false
/-- A command that needs the lease starts: LEFT goes down, and is reloaded at 0 unless another request waits (R175). -/
def useLease : M Unit := upd fun s =>
  match s.me.lease with
  | .held r left limit =>
    let n := if left = 1 ∧ !s.leaseWait s.myPart r then limit else left - 1
    (s.setLeaseLeft s.myPart r n).modMe fun x => { x with lease := .held r n limit }
  | _ => s

namespace State

/-- The lease slot of a rectangle at an edge. -/
def leaseSlot (s : State) (p rect edge : Nat) : Nat :=
  ([4, 5, 6, 7].find? fun k => assocGet 0 s.slotOwn (edge * 8 + k) == leaseMark p rect).getD 4
/-- The physical rows of lease-slot row `a` of a rectangle, one per chain end in rectangle-row order. -/
def leaseRows (s : State) (p rect a : Nat) : List Nat :=
  (s.rectEdges p rect).map fun e => rowKey e (s.leaseSlot p rect e) a
/-- Physical rows of slot rows `a` … `a` + `n` − 1, row by row: lease-slot rows or window rows of the executing context. -/
def slotKeys (s : State) (sel : Bool) (a n : Nat) : List Nat :=
  if sel then (List.range n).map fun i => s.winKey (a + i)
  else match s.me.lease with
    | .held r _ _ => (List.range n).flatMap fun i => s.leaseRows s.myPart r (a + i)
    | _ => []
/-- Physical rows per slot row. -/
def slotHeight (s : State) (sel : Bool) : Nat :=
  if sel then 1 else match s.me.lease with
    | .held r _ _ => s.rectH s.myPart r
    | _ => 1

end State

/-- The accrow operand: row and SEL (Table 12-3). -/
def accRow (v : Word) : Nat × Bool := (opBits v 5 0, v.getLsbD 8)
/-- The bounds of slot rows (R75, R330): subcode 0x0B. -/
def rowsIn (sel : Bool) (a n : Nat) : M Unit := do
  let s ← get
  needE (decide (a + n ≤ (if sel then s.me.tabCount else 64))) 0x0B
/-- An ACLR or ACLOAD waits until no running command holds a working copy of a row that it writes (R25); so does an XOUT into window rows,
which are written by R80 (R210, R342). -/
def awaitRows (sel : Bool) (a n : Nat) : M Unit := do
  let s ← get
  await (!sel || (List.range n).all fun i => !s.rowHeld s.myCore (s.me.tabBase + a + i))

/-! Resources (Table 12-1). -/

/-- What a matrix command holds until it completes; `grant` stands for a LEASE that waits. -/
inductive Res where
  | back
  | front
  | leaseRows (lo n : Nat)
  | tabRows (lo n : Nat)
  | request (r : Nat)
  | histAdd
  | histRead
  | grant
  | everything
  deriving DecidableEq, Repr

/-- Rows named through a SEL bit. -/
def selRows (sel : Bool) (lo n : Nat) : Res := if sel then .tabRows lo n else .leaseRows lo n
/-- The resources of a command. An MMA whose last activation row has passed its tiles holds F no longer (R340). -/
def resOf (s : State) (d : Cmd) : List Res :=
  let op := fun i => (d.ops.getD i 0).toNat
  let acc := fun i => accRow (d.ops.getD i 0)
  let g := fun i => (s.ring s.myCore (op i)).tsize
  match d.word with
  | .lease => [.grant]
  | .unlease => [.everything]
  | .wload _ => [.back]
  | .wswap => [.back, .front]
  | .mma _ => (if d.ready then [] else [.front]) ++ [selRows (op 2 == 1) (acc 3).1 (op 1)]
  | .aclr => [selRows (acc 0).2 (acc 0).1 (op 1)]
  | .ackpt | .acload => [selRows (acc 1).2 (acc 1).1 (op 2)]
  | .xout h =>
    (if h then [.histAdd] else []) ++
    (if op 0 % 16 = 9 then [.histRead, .tabRows (acc 2).1 1]
     else selRows (acc 2).2 (acc 2).1 (op 1) ::
       (if op 0 % 16 = 8 then [.tabRows (bitsOf (op 0) 13 8) (op 1 * s.slotHeight false)] else []))
  | .kvapp | .splice | .repair => [.request (op 0 % 4096)]
  | .qk | .sv => [.back, .front, .request (op 0 % 4096), .tabRows (acc 3).1 (if d.word = .qk then g 2 else 2 * g 2)]
  | .draw => [.request (op 0 % 4096), .tabRows (acc 1).1 (1 + ceilDiv (op 2) 64)]
  | _ => []
/-- Does a resource that a command needs conflict with one that a started command holds? Every later command waits for a
LEASE's grant, and an UNLEASE waits for every earlier one. -/
def Res.clash : Res → Res → Bool
  | .everything, _ => true
  | _, .everything => true
  | _, .grant => true
  | .back, .back => true
  | .front, .front => true
  | .leaseRows a n, .leaseRows b m => State.overlap a n b m
  | .tabRows a n, .tabRows b m => State.overlap a n b m
  | .request r, .request q => r == q
  | .histAdd, .histRead => true
  | .histRead, .histAdd => true
  | .histRead, .histRead => true
  | _, _ => false
/-- The grid columns (stack × 32 + x) in which a command of a context carries its activation rows north or south (R23): those of its
rectangle, unless that is the injecting core's own grid row; none once its last row has passed. -/
def laneCols (s : State) (c : Nat) (d : Cmd) : List Nat :=
  let x := s.ctx c
  match d.word, x.lease with
  | .mma _, .held r _ _ | .qk, .held r _ _ | .sv, .held r _ _ =>
    let cols := s.rectColumns x.partNo r
    if d.ready || cols.all fun k => rowOfCol k == edgeOf (coreOf c) then []
    else (cols.map fun k => k / 1024 * 32 + k % 32).eraseDups
  | _, _ => []
/-- Does a grid column that a command needs have none of its four column lanes free (R23)? A lane is held by one command. -/
def lanesHeld (s : State) (d : Cmd) : Bool :=
  let held := s.ctxs.flatMap fun e => (e.2.stream 0).started.flatMap fun k => laneCols s e.1 k
  (laneCols s s.cur d).any fun g => decide (4 ≤ (held.filter (· == g)).length)
/-- Must a command of the executing stream wait for a started one (R327), or for a multicast lane (R23)? Copy and access streams run
one at a time. -/
def mustWait (s : State) (d : Cmd) : Bool :=
  let st := s.myStream.started
  if s.curK = 0 then (st.any fun e => (resOf s d).any fun a => (resOf s e).any fun b => a.clash b) || lanesHeld s d
  else !st.isEmpty

/-! Zones, rails, trips and phases as they hold commands back (R382, R385 to R387, R394). -/

/-- A command that uses columns waits at its start until every one of their zones is wet (R394). A peer
package sees to its own. -/
def awaitWet (cols : List Nat) : M Unit := do
  let s ← get
  await (cols.all fun c => s.coolState (zoneOfCol c) == 2 || decide (4096 ≤ c))
/-- May the tile sequencers of a rectangle inject a row (R382, R385)? No column of their grid rows is tripped, and no domain
changes rail. -/
def State.injects (s : State) (cols : List Nat) : Bool :=
  let rows := cols.map rowOfCol
  s.cols.all (fun e => !(e.2.trip && rows.contains (rowOfCol e.1))) && cols.all fun c => !(s.cluster (clusterOfCol c)).busy
/-- The phase of a column's domain, and the column's parity (R386). -/
def State.phaseOf (s : State) (col : Nat) : Bool × Bool :=
  ((s.cluster (clusterOfCol col)).phases % 2 == 1, (col % 1024 / 32 + col % 32) % 2 == 1)
/-- Does the array of a column accept rows (Table 14-2)? -/
def State.arrayPhase (s : State) (col : Nat) : Bool :=
  let ctl := (s.stack (col / 1024)).phaseCtl
  let (p, q) := s.phaseOf col
  if ctl.getLsbD 2 then p == q else if ctl.getLsbD 3 then !p else true
/-- Do the latch-load beats of a column move (Table 14-2)? -/
def State.beatPhase (s : State) (col : Nat) : Bool :=
  let ctl := (s.stack (col / 1024)).phaseCtl
  let (p, q) := s.phaseOf col
  if !ctl.getLsbD 3 then true else if ctl.getLsbD 2 then p != q else p

/-! The vertical bus (R98, R100, R335). -/

namespace State

/-- Reads bytes at the home with KEYDEF, after the directory's recall (R100). -/
def busRead (s : State) (p pa n : Nat) : List Byte × State :=
  let s := s.busRecall p pa n
  (s.homeBytes (s.keydef p) pa n, s)
/-- Writes bytes at the home with KEYDEF, after a recall of every cached copy. -/
def busWrite (s : State) (p pa : Nat) (bs : List Byte) : State := s.homeWrite (s.keydef p) p pa bs
/-- Reads of several ranges, each of an address and bytes, by a vertical-bus word. -/
def busSee (s : State) (p : Nat) (l : List (Nat × Nat)) : State := l.foldl (fun t e => t.busRecall p e.1 e.2) s
/-- Column-view address of a column offset: in the window of its package where the column is a peer's. -/
def colPa (col off : Nat) : Nat :=
  (if col < 4096 then 0 else 0x400000000000 + (col / 4096 - 1) * 2 ^ 40) + col % 4096 * 2 ^ 27 + off

end State

/-! The crossing FIFO of a column (R159, R160). -/

namespace State

/-- Does the compute-die side of a column's FIFO move (R160)? -/
def crosses (s : State) (col : Nat) : Bool := !(s.cluster (clusterOfCol col)).busy
/-- One upward beat: a line of the column read over the vertical bus. -/
def busBeat (s : State) (p line : Nat) : BitVec 512 × State :=
  let (bs, s) := s.busRead p (line * 64) 64
  (BitVec.ofNat 512 (natOfBytes bs), s)
/-- The bus side pushes beats of a command. -/
def pushBeats (s : State) (p col tag : Nat) (lines : List Nat) : State :=
  lines.foldl (fun s l =>
    let (b, s) := s.busBeat p l
    s.modCol col fun x => { x with fifo := x.fifo ++ [{ up := true, tag := tag, data := b }] }) s

end State

/-- The beats of an upward transfer from `lines` of a column that can move now. While the domain changes rail, the bus side fills
the 16 entries of the FIFO; otherwise what stands there leaves in order, and the rest passes through. The answer is the bytes
once the whole transfer has crossed, and the command. A beat left by a command that is gone is dropped as it leaves. -/
def crossUp (d : Cmd) (col : Nat) (lines : List Nat) : M (Option (List Byte) × Cmd) := do
  let s ← get
  let rest := lines.drop d.sent
  if s.crosses col then
    await (rest.isEmpty || s.beatPhase col)
    let s := s.pushBeats s.myPart col d.since rest
    let mine := (s.col col).fifo.filter fun b => b.up && b.tag == d.since
    set (s.modCol col fun x => { x with fifo := [] })
    return (some (mine.flatMap fun b => bytesOfBV 64 b.data), { d with sent := 0 })
  else
    let now := rest.take (16 - (s.col col).fifo.length)
    await (!now.isEmpty && s.beatPhase col)
    set (s.pushBeats s.myPart col d.since now)
    return (none, { d with sent := d.sent + now.length })
/-- What a step sends reaches columns in turn: now those for which `ok` holds, which `taken` notes; the answer says whether all have it,
and a step that finds none waits. -/
def takeWhere (d : Cmd) (cols : List Nat) (ok : State → Nat → Bool) : M (Bool × Cmd) := do
  let s ← get
  let now := d.taken ++ cols.filter fun c => !d.taken.contains c && ok s c
  await (d.taken.length < now.length || cols.all d.taken.contains)
  return if cols.all now.contains then (true, { d with taken := [] }) else (false, { d with taken := now })
/-- Downward beats to columns move when each may push and its phase allows them (R160, R386); they cross in the same step. -/
def takeDown (d : Cmd) (cols : List Nat) : M (Bool × Cmd) := takeWhere d cols fun s c => s.crosses c && s.beatPhase c

/-! Traffic over the links (R164, R405). -/

/-- A step of an engine waits where a link queue that was full before it would take more; what passes the depth of a queue leaves in
the step. -/
def linked {α : Type} (m : M α) : M α := do
  let s ← get
  let r ← m
  let t ← get
  await (t.linkq.all fun e => decide (t.linkCount e.1 e.2 ≤ s.linkCount e.1 e.2) || s.linkRoom e.1 e.2)
  if t.linkq != s.linkq then set t.linkTrim
  return r
/-- Activation rows of a rectangle that leaves the package join the column multicast of every edge it crosses, and where it goes on
east, its partial sums join the chain's. -/
def State.sendRows (s : State) (p rect n : Nat) (sums : Bool) : State :=
  let out := (List.range 4).filter fun e => s.rectCrosses p rect e
  let l := out.map (·, LinkClass.rows) ++ if sums && out.contains 1 then [(1, LinkClass.sums)] else []
  { s with linkq := s.linkq ++ (List.replicate n l).flatten }

/-! Rows into the arrays (R386, R387). -/

/-- An activation row reaches columns: it passes those whose phase allows it, and the answer says whether all have taken it. A row
that none may take waits. -/
def takeRow (d : Cmd) (cols : List Nat) : M (Bool × Cmd) := takeWhere d cols State.arrayPhase

/-! Accesses by virtual address (R117, R120, R135, R168, R356). -/

/-- The level at which the unit's engines translate. -/
def State.unitSuper (s : State) : Bool := (s.me.running.map (·.level)).getD false
/-- The subcode of a translation cause. -/
def walkSub (e : Byte) : Byte := if e = 0x09 then 0x11 else 0x12
/-- Is a virtual address in the scratchpad window? -/
def isWindow (va : Nat) : Bool := decide (va < 2 ^ 57) && inScratch va
/-- A scratchpad range of the core: its offset, or subcode 0x09 (R107). -/
def spRange (va n : Nat) : M Nat := do
  let s ← get
  needE (decide (scratchOff va + n ≤ (s.core s.myCore).spSize)) 0x09
  return scratchOff va
/-- Translation of an engine's address through the cluster's TLB; a miss to a 33rd page waits (R120, R121). -/
def engineXlate (acc : AccessKind) (va : Nat) : M Access := do
  let s ← get
  let clu := clusterOf s.myCore
  await (!s.walkHeldAt clu s.myPart s.unitSuper acc va)
  match s.clusterXlate clu s.myPart s.unitSuper acc va with
  | (.error e, _) => throw (.engine (walkSub e))
  | (.ok t, s) =>
    let a := t.access va
    needE (s.placeOk s.unitSuper a.pa) 0x12
    set (match region a.pa with
      | .peer p _ => s.linkPush (s.edgeTo p) .requests
      | _ => s)
    return a
/-- Reads one piece inside a page, steered to the buffer that the command has latched (R137). -/
def readPiece (d : Cmd) (va n : Nat) : M (List Byte × Cmd) := do
  let a ← engineXlate .load va
  let s ← get
  let (pa, g) := s.steerTo d.groups a.pa
  let d := match g with
    | some e => if d.groups.contains e then d else { d with groups := e :: d.groups }
    | none => d
  match s.engineRead (clusterOf s.myCore) s.myPart { a with pa := pa } n with
  | some (bs, t) => set t; return (bs, d)
  | none => throw (.engine 0x12)
/-- Reads a source: the scratchpad window, or memory by virtual address. -/
def readSrc (d : Cmd) (va n : Nat) : M (List Byte × Cmd) := do
  if isWindow va then
    let off ← spRange va n
    let s ← get
    return ((s.core s.myCore).sp.bytes off n, d)
  else
    (pieces va n).foldlM (init := (([] : List Byte), d)) fun acc pc => do
      let (bs, d) ← readPiece acc.2 pc.1 pc.2
      return (acc.1 ++ bs, d)
/-- The bytes at hand of a source of `total` bytes from which `done` have been used, at least the next `n` of it: those of `buf`, which
have been read, and more where they are too few. A read takes whole 64-byte lines, so that each line is read once (R127, R141). -/
def readLines (d : Cmd) (buf : List Byte) (src total done n : Nat) : M (List Byte × Cmd) := do
  let from' := done + buf.length
  let upto := min total ((src + done + n + 63) / 64 * 64 - src)
  if upto ≤ from' then return (buf, d)
  else
    let (bs, d) ← readSrc d (src + from') (upto - from')
    return (buf ++ bs, d)
/-- Reads the next `n` bytes of a source; what is left of its last line waits in `ahead`. -/
def readAhead (d : Cmd) (src total done n : Nat) : M (List Byte × Cmd) := do
  let (all, d) ← readLines d d.ahead src total done n
  return (all.take n, { d with ahead := all.drop n })
/-- The next entry of a table of `n` addresses; its line waits in `tab`. -/
def tableEntry (d : Cmd) (a n : Nat) : M (Nat × Cmd) := do
  let (all, d) ← readLines d d.tab a (8 * n) (8 * d.prog) 8
  return (natOfBytes (all.take 8), { d with tab := all })

/-! Operand fields. -/

/-- rows: 1 to 64. -/
def rowsField (v : Word) : M Unit := field (decide (1 ≤ v.toNat) && decide (v.toNat ≤ 64))
def ringField (v : Word) : M Unit := field (decide (v.toNat < 8))
def accField (v : Word) : M Unit := field (onlyBits v 0x13F)
def reqField (v : Word) : M Unit := field (decide (v.toNat < 4096))

end Sys2Proof.Machine
end

