-- ==== Sys2Proof/Machine/Matrix.lean ====
section
/-! DEFINITION. Matrix words on leases, latches and slot rows: LEASE, UNLEASE, WLOAD, WSWAP, MMA, ACLR, XOUT, ACKPT and
ACLOAD (R17 to R25, R48, R58 to R62, R79, R101, R209, R210, R331 to R343). Each word has its issue checks; each command has a
start, which checks the state of the moment, and a step, which makes progress and at the end commits. -/
namespace Sys2Proof.Machine

/-- The rectangle of a running command: subcode 0x10 once it is lost. -/
def curRect : M Nat := do
  let s ← get
  match s.me.lease with
  | .held r _ _ => return r
  | .lost _ => throw (.engine 0x10)
  | _ => stall

/-! Leases. -/

def execLease (s : State) : Out := runWord (launchWord 0xA0 1 .lease fun l => field (decide ((nth l 0).toNat < 256))) s
def execUnlease (s : State) : Out := runWord (launchWord 0xA1 1 .unlease fun l => field (decide ((nth l 0).toNat < 256))) s

/-- LEASE starts: it requests the rectangle (R331). -/
def startLease (d : Cmd) : M Cmd := do
  let s ← get
  let r := (nth d.ops 0).toNat
  needE (match s.me.lease with | .none | .lost _ => true | _ => false) 0x0E
  needE (s.rectOk s.myPart r s.myCore) 0x0F
  awaitWet (s.rectColumns s.myPart r)
  let u := s.me.running
  upd fun s => (s.requestLease s.myPart r (some s.cur) ((u.map (·.recVa)).getD 0) ((u.map (·.pri)).getD 0)).modMe fun x =>
    { x with lease := .requested r s.now }
  return d
/-- The grant completes it. -/
def stepLease (_ : Cmd) : M (Option Cmd) := do
  let s ← get
  match s.me.lease with
  | .held _ _ _ => return none
  | _ => stall
/-- UNLEASE starts once every earlier command has completed (R333). -/
def startUnlease (d : Cmd) : M Cmd := do
  let s ← get
  match s.me.lease with
  | .held r _ _ => needE (r == (nth d.ops 0).toNat) 0x0E; useLease
  | .requested r _ => needE (r == (nth d.ops 0).toNat) 0x0E
  | .lost _ => throw (.engine 0x10)
  | .none => throw (.engine 0x0E)
  return d
/-- The lease ends, or the request is withdrawn. -/
def stepUnlease (_ : Cmd) : M (Option Cmd) := do
  upd fun s => s.dropLease s.cur
  return none

/-! Weight latches. -/

/-- Bytes of a tile image (Table 12-4). -/
def tileBytes (fmt : Nat) : Nat := if fmt = 4 then 2560 else if fmt = 1 then 8192 else 4096
/-- Element k of image row n as a latch cell: an F4B cell holds its code and its block's scale (R48). -/
def imageCell (fmt : Nat) (bs : List Byte) (n k : Nat) : Nat :=
  let at' := fun i => (bs.getD i 0).toNat
  if fmt = 4 then
    let c := at' (40 * n + k / 2)
    (if k % 2 = 0 then c % 16 else c / 16) + 16 * at' (40 * n + 32 + k / 8)
  else if fmt = 1 then at' (2 * (64 * n + k)) + 256 * at' (2 * (64 * n + k) + 1)
  else at' (64 * n + k)
/-- A latch loaded from a tile image, transposed with .T (R336). -/
def latchOf (fmt : Nat) (t : Bool) (band : BitVec 16) (bs : List Byte) : Latch :=
  { fmt := BitVec.ofNat 4 fmt, band := band,
    elems := BitVec.ofNat 65536 (packElems 16 ((List.range 4096).map fun i =>
      let n := i / 64
      let k := i % 64
      if t then imageCell fmt bs k n else imageCell fmt bs n k)) }
/-- Element (n, k) of a latch. -/
def Latch.cell (l : Latch) (n k : Nat) : Nat := (l.elems.extractLsb' (16 * (64 * n + k)) 16).toNat

def execWload (t : Bool) (s : State) : Out := runWord (launchWord 0xA2 2 (.wload t) fun l => do
  let b := nth l 0
  let fmt := (nth l 1).toNat
  field (onlyBits b 0xFFFF07FFFFFF && decide (1 ≤ fmt) && decide (fmt ≤ 5))
  field (decide (opBits b 47 32 < 32768) && (fmt == 4 || opBits b 47 32 == 0))
  needE (opBits b 26 0 % 64 == 0) 0x1A
  field (decide (opBits b 26 0 + tileBytes fmt < 96 * 2 ^ 20))
  needE (!(t && fmt == 4)) 0x0D) s

/-- A word that reads or writes the columns of the held rectangle needs them granted (R335). -/
def columnsGranted (rect : Nat) : M Unit := do
  let s ← get
  needE ((s.rectColumns s.myPart rect).all fun c => s.colAllowed s.myPart c) 0x12
/-- The wait of R394 for the columns of a rectangle. -/
def awaitRectWet (rect : Nat) : M Unit := do
  let s ← get
  awaitWet (s.rectColumns s.myPart rect)
def startWload (d : Cmd) : M Cmd := do
  let r ← heldRect
  columnsGranted r
  awaitRectWet r
  useLease
  return d
/-- A tile's back latch is filled from an image that has crossed (R336). The band scale of an F4B tile is one more beat. -/
def State.loadTile (s : State) (t : Bool) (off idx fmt c : Nat) (bs : List Byte) : State :=
  let (band, s) := if fmt = 4 then s.busRead s.myPart (State.colPa c (0x5FF0000 + 2 * idx)) 2 else ([0x80, 0x3F], s)
  s.modCol c fun x =>
    { x with back := latchOf fmt t (BitVec.ofNat 16 (natOfBytes band)) bs,
             backRec := { src := .weight off (BitVec.ofNat 4 fmt) t idx } }
/-- The beats that can move cross from the next column; once a column's image is whole its latch is loaded, and the command
completes after the last. -/
def stepWload (t : Bool) (d : Cmd) : M (Option Cmd) := do
  let r ← curRect
  let s ← get
  let cols := s.rectColumns s.myPart r
  match cols[d.prog]? with
  | none => return none
  | some c =>
    let off := opBits (nth d.ops 0) 26 0
    let fmt := (nth d.ops 1).toNat
    match ← crossUp d c (State.linesOf (State.colPa c off) (tileBytes fmt)) with
    | (none, d) => return some d
    | (some bs, d) =>
      upd fun s => s.loadTile t off (opBits (nth d.ops 0) 47 32) fmt c bs
      return if d.prog + 1 < cols.length then some { d with prog := d.prog + 1 } else none

def execWswap (s : State) : Out := runWord (launchWord 0xA3 0 .wswap fun _ => pure ()) s
def startWswap (d : Cmd) : M Cmd := do
  let r ← heldRect
  awaitRectWet r
  useLease
  return d
/-- Front and back exchange, with their tags, scales and load records (R17, R337). -/
def Column.swapLatches (x : Column) : Column :=
  { x with front := x.back, back := x.front, frontRec := x.backRec, backRec := x.frontRec }
def stepWswap (_ : Cmd) : M (Option Cmd) := do
  let r ← curRect
  upd fun s => (s.rectColumns s.myPart r).foldl (fun s c => s.modCol c Column.swapLatches) s
  return none

/-! MMA. -/

/-- Table 2-4: the slot row format of a pair of weight tag and activation format. -/
def pairFmt (w : Nat) (a : Fmt) : Option Fmt :=
  match w, a with
  | 2, .f8a | 2, .f8b | 2, .bf16 | 3, .f8a | 3, .f8b | 3, .bf16 | 4, .f8a | 4, .f8b | 4, .bf16 => some .f32
  | 5, .i8 | 5, .i8u => some .i32
  | 1, .bf16 => some .f32
  | _, _ => none

/-- The value of a narrow floating weight cell; an F4B value includes its block scale (R59). -/
def weightVal (fmt : Nat) (c : Nat) : FVal :=
  if fmt = 4 then (e2m1 (c % 16)).mul (e3m5 (c / 16)) else if fmt = 3 then f8b.value (c % 256) else f8a.value (c % 256)
/-- The partial sum of a narrow pair from its 64 exact products (R59). -/
def narrowSum (ps : List FVal) (band : FVal) : Nat :=
  let pos := ps.contains (.inf false)
  let neg := ps.contains (.inf true)
  if ps.any (·.isNaN) || (pos && neg) then f32.nanCode
  else if pos || neg then f32Round ((FVal.inf neg).mul band)
  else f32Round ((ps.foldl FVal.add (.fin false 0 0)).mul band)
/-- A tile's partial sum for output n of one activation row of 64 codes (R59 to R61). -/
def tileSum (l : Latch) (af : Fmt) (act : List Nat) (n : Nat) : Nat :=
  let w := l.fmt.toNat
  if w = 5 then
    (((act.zipIdx.map fun (a : Nat × Nat) => Fmt.i8.intOf (l.cell n a.2 % 256) * af.intOf a.1).sum) % 2 ^ 32).toNat
  else if w = 1 then
    tree f32Add 0 (act.zipIdx.map fun a => f32Round ((bf16.value (l.cell n a.2)).mul (bf16.value a.1)))
  else narrowSum (act.zipIdx.map fun a => (weightVal w (l.cell n a.2)).mul (af.value a.1)) (bf16.value l.band.toNat)
/-- One addition of a chain or at an edge (R20, R60, R62). -/
def sumAdd (f : Fmt) (a b : Nat) : Nat := if f = .i32 then (a + b) % 2 ^ 32 else f32Add a b
/-- The chain of one rectangle row for output n: from west to east, the first partial passes unchanged (R20). -/
def chain (f af : Fmt) (tiles : List Latch) (act : List Nat) (n : Nat) : Nat :=
  match tiles.zipIdx with
  | [] => 0
  | t :: ts => ts.foldl (fun c e => sumAdd f c (tileSum e.1 af ((act.drop (64 * e.2)).take 64) n))
      (tileSum t.1 af (act.take 64) n)
/-- The front latches of a rectangle row, west to east. -/
def State.rowLatches (s : State) (p rect i : Nat) : List Latch :=
  (List.range (s.rectW p rect)).map fun j => (s.col (s.rectAt p rect i j)).front
/-- Format of a ring's tiles. -/
def Ring.format (r : Ring) : Fmt := (Fmt.ofCode r.fmt).getD .f4b
/-- Ring rows of one activation row (R338). -/
def actRows (w : Nat) (f : Fmt) : Nat := ceilDiv (8 * w * f.bits) 256
/-- The elements of an activation row from its ring rows. -/
def actElems (w : Nat) (f : Fmt) (rows : List Row) : List Nat :=
  (rows.flatMap fun r => rowElems f.bits (2048 / f.bits) r).take (64 * w)

def execMma (z : Bool) (s : State) : Out := runWord (launchWord 0xA4 4 (.mma z) fun l => do
  ringField (nth l 0)
  rowsField (nth l 1)
  field (decide ((nth l 2).toNat < 2))
  field (onlyBits (nth l 3) 0x3F)) s

/-- The fields of an MMA: ring, rows, slotsel and accrow. -/
def mmaOps (d : Cmd) : Nat × Nat × Bool × Nat :=
  ((nth d.ops 0).toNat, (nth d.ops 1).toNat, (nth d.ops 2).toNat == 1, (nth d.ops 3).toNat)
/-- The start checks of R339, and the working copies of R25. A replayed command keeps the tiles it has taken (log 16). -/
def startMma (z : Bool) (d : Cmd) : M Cmd := do
  let (ring, rows, tab, acc) := mmaOps d
  let rect ← heldRect
  awaitRectWet rect
  let r ← useRing ring
  let s ← get
  let p := s.myPart
  let pairs := (s.rectColumns p rect).map fun c => pairFmt (s.col c).front.fmt.toNat r.format
  needE (!pairs.isEmpty && pairs.all Option.isSome) 0x0D
  needE (r.tsize % actRows (s.rectW p rect) r.format == 0) 0x0A
  rowsIn tab acc rows
  needE (!tab || s.rectEdges p rect == [edgeOf s.myCore]) 0x0E
  let f := ((pairs.headD none)).getD .f32
  let keys := s.slotKeys tab acc rows
  needE (z || keys.all fun k => (s.row k).valid && (s.row k).tag == f.code) 0x0C
  upd fun s => keys.foldl (fun t k =>
    t.setWork k { data := if z then 0 else (t.row k).data, tag := f.code, valid := true }) s
  useLease
  return { d with caps := f.code.setWidth 64 :: d.caps.drop 1 }
/-- Adds one activation row into the working rows of slot row `a` (R339). -/
def State.mmaRow (s : State) (p rect : Nat) (f af : Fmt) (act : List Nat) (keys : List Nat) : State :=
  keys.zipIdx.foldl (fun t e =>
    let tiles := t.rowLatches p rect e.2
    let w := t.workRow e.1
    let sums := (rowElems 32 64 w.data).zipIdx.map fun v => sumAdd f v.1 (chain f af tiles act v.2)
    t.setWork e.1 { w with data := rowOf 32 sums }) s
/-- A row as 32 words, and back. -/
def wordsOfRow (r : Row) : List Word := (List.range 32).map fun i => r.extractLsb' (64 * i) 64
def rowOfWords (l : List Word) : Row := BitVec.ofNat 2048 (packElems 64 (l.map (·.toNat)))
/-- The rows of the tile that a replayed MMA took at this place before it was aborted, empty where it takes one anew. -/
def mmaTiles (r : Ring) (d : Cmd) : List Row :=
  if (d.prog + 1) * r.tsize * 32 + 1 ≤ d.caps.length then
    (List.range r.tsize).map fun j => rowOfWords ((d.caps.drop (1 + 32 * (d.prog * r.tsize + j))).take 32)
  else []
/-- One tile of activation rows enters, as the phases of the columns let them take it (R387), or the command commits every row at every edge as one event (R25, R338, R339). -/
def stepMma (d : Cmd) : M (Option Cmd) := do
  let (ring, rows, tab, acc) := mmaOps d
  let rect ← curRect
  if d.ready then
    upd fun s => (s.slotKeys tab acc rows).foldl (fun t k => t.setRow k (t.workRow k)) s
    return none
  else
    let s ← get
    let p := s.myPart
    let again := mmaTiles (s.ring s.myCore ring) d
    if again.isEmpty then awaitTile d ring
    await (s.injects (s.rectColumns p rect))
    let (go, d) ← takeRow d (s.rectColumns p rect)
    if !go then return some d
    let r := s.ring s.myCore ring
    let n := actRows (s.rectW p rect) r.format
    let per := r.tsize / n
    let f := (Fmt.ofCode ((nth d.caps 0).setWidth 4)).getD .f32
    let tile := if again.isEmpty then s.headTile s.myCore ring else again
    let first := d.prog * per
    upd fun s =>
      ((List.range (min per (rows - first))).foldl (fun t j =>
        let act := actElems (t.rectW p rect) r.format ((tile.drop (j * n)).take n)
        t.mmaRow p rect f r.format act (t.slotKeys tab (acc + first + j) 1)) s)
    upd fun s => s.sendRows p rect (min per (rows - first)) true
    if again.isEmpty then upd fun s => s.ringTake s.myCore ring
    return some { d with prog := d.prog + 1, ready := decide (rows ≤ first + per),
                         caps := if again.isEmpty then d.caps ++ tile.flatMap wordsOfRow else d.caps }

/-! Slot rows. -/

def execAclr (s : State) : Out := runWord (launchWord 0xA5 2 .aclr fun l => do
  accField (nth l 0)
  rowsField (nth l 1)) s
/-- The lease, for a word with SEL 0. -/
def leaseIfSlot (sel : Bool) : M Unit := do
  if sel then pure () else
    let _ ← heldRect
    pure ()
def startAclr (d : Cmd) : M Cmd := do
  let (a, sel) := accRow (nth d.ops 0)
  let n := (nth d.ops 1).toNat
  leaseIfSlot sel
  rowsIn sel a n
  awaitRows sel a n
  if sel then pure () else useLease
  return d
/-- ACLR (R79, R341). -/
def stepAclr (d : Cmd) : M (Option Cmd) := do
  let (a, sel) := accRow (nth d.ops 0)
  upd fun s => (s.slotKeys sel a (nth d.ops 1).toNat).foldl (fun t k =>
    t.setRow k { data := 0, tag := if (t.row k).valid then (t.row k).tag else 0, valid := true }) s
  return none

def execXout (h : Bool) (s : State) : Out := runWord (launchWord 0xA6 3 (.xout h) fun l => do
  let dst := nth l 0
  let k := opBits dst 3 0
  field (onlyBits dst (if k = 8 then 0x3F0F else 0xF) && decide (k ≤ 9))
  rowsField (nth l 1)
  accField (nth l 2)
  field (k != 8 || !(nth l 2).getLsbD 8)
  field (k != 9 || ((nth l 1).toNat == 1 && !h))) s
/-- The fields of an XOUT: destination kind, first window row, rows, accrow, SEL. -/
def xoutOps (d : Cmd) : Nat × Nat × Nat × Nat × Bool :=
  let (a, sel) := accRow (nth d.ops 2)
  (opBits (nth d.ops 0) 3 0, opBits (nth d.ops 0) 13 8, (nth d.ops 1).toNat, a, sel)
/-- The start checks of R342 and R210. -/
def startXout (d : Cmd) : M Cmd := do
  let (k, w, n, a, sel) := xoutOps d
  if k = 9 then
    rowsIn true a 1
    awaitRows true a 1
    return d
  else
    leaseIfSlot sel
    rowsIn sel a n
    let s ← get
    let h := s.slotHeight sel
    let keys := s.slotKeys sel a n
    needE (keys.all fun q => (s.row q).valid) 0x0C
    if k = 8 then
      needE (decide (w + n * h ≤ s.me.tabCount)) 0x0B
      awaitRows true w (n * h)
    else
      let r ← useRing k
      needE (keys.all (fun q => (s.row q).tag == r.fmt) && r.tsize % h == 0) 0x0A
    if sel then pure () else useLease
    return d
/-- Counts the FP32 elements of moved rows in the histogram (R66, R209). -/
def Ctx.countRows (x : Ctx) (rows : List SlotRow) : Ctx :=
  let cs := (rows.filter fun r => r.tag == Fmt.f32.code).flatMap fun r => rowElems 32 64 r.data
  { x with hist := cs.foldl (fun v c =>
      let b := histBin c
      vset v b (if vget 0 v b = BitVec.allOnes 32 then BitVec.allOnes 32 else vget 0 v b + 1)) x.hist }
/-- XOUT (R342): one ring tile at a time, or one event for the tableau and the histogram. -/
def stepXout (hist : Bool) (d : Cmd) : M (Option Cmd) := do
  let (k, w, n, a, sel) := xoutOps d
  let s ← get
  if k = 9 then
    let data := rowOf 32 (s.me.hist.toList.map (·.toNat))
    upd fun s => (s.setRow (s.winKey a) { data := data, tag := Fmt.i32u.code, valid := true }).modMe fun x =>
      { x with hist := Vector.replicate 32 0 }
    return none
  else
    let rows := (s.slotKeys sel a n).map s.row
    if k = 8 then
      upd fun s => rows.zipIdx.foldl (fun t e => t.setRow (t.winKey (w + e.2)) e.1) s
      if hist then upd fun s => s.modMe fun x => x.countRows rows
      return none
    else
      awaitRoom d k
      let r := s.ring s.myCore k
      let part := ((rows.drop (d.prog * r.tsize)).take r.tsize).map (·.data)
      upd fun s => s.ringGive s.myCore k (part ++ List.replicate (r.tsize - part.length) 0)
      if rows.length ≤ (d.prog + 1) * r.tsize then
        if hist then upd fun s => s.modMe fun x => x.countRows rows
        return none
      else return some { d with prog := d.prog + 1 }

/-- The address of a checkpoint: in the scratchpad window, then 64-byte aligned (R343, Table 12-3). -/
def ckptChecks (l : List Word) : M Unit := do
  needE (decide ((nth l 0).toNat < 2 ^ 57) && inScratch (nth l 0).toNat) 0x09
  needE ((nth l 0).toNat % 64 == 0) 0x1A
  accField (nth l 1)
  rowsField (nth l 2)
def execAckpt (s : State) : Out := runWord (launchWord 0xA7 3 .ackpt ckptChecks) s
def execAcload (s : State) : Out := runWord (launchWord 0xA8 3 .acload ckptChecks) s

/-- Bytes of a checkpoint image of `n` physical rows, padded to whole lines (R343). -/
def ckptSize (n : Nat) : Nat := ceilDiv (n * 257) 64 * 64
/-- The start checks of ACKPT and ACLOAD. -/
def startCkpt (write : Bool) (d : Cmd) : M Cmd := do
  let (a, sel) := accRow (nth d.ops 1)
  let n := (nth d.ops 2).toNat
  leaseIfSlot sel
  rowsIn sel a n
  let s ← get
  needE (decide (scratchOff (nth d.ops 0).toNat + ckptSize (n * s.slotHeight sel) ≤ (s.core s.myCore).spSize)) 0x09
  if write then pure () else awaitRows sel a n
  if sel then pure () else useLease
  return d
/-- ACKPT: rows, then meta bytes, then zeros. -/
def stepAckpt (d : Cmd) : M (Option Cmd) := do
  let (a, sel) := accRow (nth d.ops 1)
  upd fun s =>
    let rows := (s.slotKeys sel a (nth d.ops 2).toNat).map s.row
    let bs := (rows.flatMap fun r => bytesOfNat 256 r.data.toNat) ++
      rows.map fun r => BitVec.ofNat 8 (r.tag.toNat + if r.valid then 128 else 0)
    s.spWrite s.myCore (scratchOff (nth d.ops 0).toNat) (bs ++ List.replicate (ckptSize rows.length - bs.length) 0)
  return none
/-- ACLOAD: a malformed meta byte refuses the whole image with subcode 0x08. -/
def stepAcload (d : Cmd) : M (Option Cmd) := do
  let (a, sel) := accRow (nth d.ops 1)
  let s ← get
  let keys := s.slotKeys sel a (nth d.ops 2).toNat
  let off := scratchOff (nth d.ops 0).toNat
  let sp := (s.core s.myCore).sp
  let metas := (List.range keys.length).map fun i => (sp.get (off + keys.length * 256 + i)).toNat
  needE (metas.all fun m => bitsOf m 6 4 == 0 && decide (m % 16 < 9)) 0x08
  upd fun s => keys.zipIdx.foldl (fun t e =>
    let m := metas.getD e.2 0
    t.setRow e.1 { data := BitVec.ofNat 2048 (sp.nat (off + e.2 * 256) 256), tag := BitVec.ofNat 4 m, valid := bitOf m 7 }) s
  return none

end Sys2Proof.Machine
end

