-- ==== Sys2Proof/Machine/VecArith.lean ====
section
/-! DEFINITION. The vector arithmetic syllable: element-wise arithmetic, unary forms, conversions, functions, rotation and
compares (R302 to R306, R309 to R311). -/
namespace Sys2Proof.Machine

/-! One element. -/

/-- An element operation of Table 11-2: exact in the floating formats and rounded once, modulo 2^b in the integer ones. -/
def arith2 (f : Fmt) (fl : FVal → FVal → FVal) (it : Int → Int → Int) (x y : Nat) : Nat :=
  if f.isInt then (it (f.intOf x) (f.intOf y) % (2 ^ f.bits : Nat)).toNat
  else f.float.roundTo false (fl (f.value x) (f.value y))
def addE (f : Fmt) : Nat → Nat → Nat := arith2 f FVal.add (· + ·)
def subE (f : Fmt) : Nat → Nat → Nat := arith2 f (fun a b => a.add b.neg) (· - ·)
def mulE (f : Fmt) : Nat → Nat → Nat := arith2 f FVal.mul (· * ·)
def maxE (f : Fmt) : Nat → Nat → Nat := arith2 f FVal.maxV max
def minE (f : Fmt) : Nat → Nat → Nat := arith2 f FVal.minV min
/-- d ± x × y with one rounding. -/
def fmaE (f : Fmt) (sub : Bool) (d x y : Nat) : Nat :=
  if f.isInt then
    let p := f.intOf x * f.intOf y
    ((f.intOf d + if sub then -p else p) % (2 ^ f.bits : Nat)).toNat
  else
    let p := (f.value x).mul (f.value y)
    f.float.roundTo false ((f.value d).add (if sub then p.neg else p))
/-- Comparisons of R311. -/
def eqE (f : Fmt) (x y : Nat) : Bool := if f.isInt then f.intOf x == f.intOf y else (f.value x).eq (f.value y)
def ltE (f : Fmt) (x y : Nat) : Bool := if f.isInt then decide (f.intOf x < f.intOf y) else (f.value x).lt (f.value y)
def leE (f : Fmt) (x y : Nat) : Bool := if f.isInt then decide (f.intOf x ≤ f.intOf y) else (f.value x).le (f.value y)
/-- Integer forms of R303. -/
def addsE (f : Fmt) (x y : Nat) : Nat := f.satInt (f.intOf x + f.intOf y)
def shlE (f : Fmt) (x y : Nat) : Nat := if y < f.bits then x * 2 ^ y % 2 ^ f.bits else 0
def shrE (f : Fmt) (x y : Nat) : Nat :=
  if f.isSigned then ((f.intOf x / (2 ^ min y f.bits : Nat)) % (2 ^ f.bits : Nat)).toNat
  else if y < f.bits then x / 2 ^ y else 0
/-- Sign operations of R304. -/
def absE (f : Fmt) (x : Nat) : Nat :=
  if f.isInt then ((f.intOf x).natAbs) % 2 ^ f.bits
  else if (f.value x).isNaN then f.float.nanCode else x % 2 ^ (f.bits - 1)
def negE (f : Fmt) (x : Nat) : Nat :=
  if f.isInt then ((-f.intOf x) % (2 ^ f.bits : Nat)).toNat
  else if (f.value x).isNaN then f.float.nanCode else Nat.xor x (2 ^ (f.bits - 1))
def scaleE (f : Fmt) (s : Int) (x : Nat) : Nat := f.float.roundTo false ((f.value x).scale s)

/-! Latencies (Table 10-1). -/
def vlatShort : Nat := 4
def vlatMul : Nat := 6
def vlatFun : Nat := 10

/-! Element-wise forms (R296). -/

/-- D X Y with one format: checks, pops, the operation, the write. -/
def ew2 (f : Fmt) (lat : Nat) (op : Nat → Nat → Nat) (d x y : VOp) : M Unit := do
  let s ← get
  let n := elemCount s f [d, x, y]
  let on := maskBits s n
  vcheck (some (opd d f)) (on.any (!·)) [opd x f, opd y f] true lat
  let xs := velems s x f n 0
  let ys := velems s y f n (if x = y then 1 else 0)
  popAll [x, y]
  vwrite d f (some lat) (merged on ((xs.zip ys).map fun e => op e.1 e.2))
/-- D X Y with D also a source (VFMA, VFMS). -/
def ew3 (f : Fmt) (lat : Nat) (op : Nat → Nat → Nat → Nat) (d x y : VOp) : M Unit := do
  let s ← get
  let n := elemCount s f [d, x, y]
  let on := maskBits s n
  vcheck (some (opd d f)) (on.any (!·)) [opd x f, opd y f, opd d f] true lat
  let xs := velems s x f n 0
  let ys := velems s y f n (if x = y then 1 else 0)
  let ds := velems s d f n 0
  popAll [x, y]
  vwrite d f (some lat) (merged on ((ds.zip (xs.zip ys)).map fun e => op e.1 e.2.1 e.2.2))
/-- D X with one format. -/
def ew1 (f : Fmt) (lat : Nat) (op : Nat → Nat) (d x : VOp) : M Unit := do
  let s ← get
  let n := elemCount s f [d, x]
  let on := maskBits s n
  vcheck (some (opd d f)) (on.any (!·)) [opd x f] true lat
  let xs := velems s x f n 0
  popAll [x]
  vwrite d f (some lat) (merged on (xs.map op))

def execVadd (f : Fmt) (d x y : VOp) (s : State) : Out := runSyl 2 (ew2 f vlatShort (addE f) d x y) s
def execVsub (f : Fmt) (d x y : VOp) (s : State) : Out := runSyl 2 (ew2 f vlatShort (subE f) d x y) s
def execVmul (f : Fmt) (d x y : VOp) (s : State) : Out := runSyl 2 (ew2 f vlatMul (mulE f) d x y) s
def execVfma (f : Fmt) (d x y : VOp) (s : State) : Out := runSyl 2 (ew3 f vlatMul (fmaE f false) d x y) s
def execVfms (f : Fmt) (d x y : VOp) (s : State) : Out := runSyl 2 (ew3 f vlatMul (fmaE f true) d x y) s
def execVmax (f : Fmt) (d x y : VOp) (s : State) : Out := runSyl 2 (ew2 f vlatShort (maxE f) d x y) s
def execVmin (f : Fmt) (d x y : VOp) (s : State) : Out := runSyl 2 (ew2 f vlatShort (minE f) d x y) s
def execVadds (f : Fmt) (d x y : VOp) (s : State) : Out := runSyl 2 (ew2 f vlatShort (addsE f) d x y) s
def execVand (f : Fmt) (d x y : VOp) (s : State) : Out := runSyl 2 (ew2 f vlatShort Nat.land d x y) s
def execVor (f : Fmt) (d x y : VOp) (s : State) : Out := runSyl 2 (ew2 f vlatShort Nat.lor d x y) s
def execVxor (f : Fmt) (d x y : VOp) (s : State) : Out := runSyl 2 (ew2 f vlatShort Nat.xor d x y) s
def execVshl (f : Fmt) (d x y : VOp) (s : State) : Out := runSyl 2 (ew2 f vlatShort (shlE f) d x y) s
def execVshr (f : Fmt) (d x y : VOp) (s : State) : Out := runSyl 2 (ew2 f vlatShort (shrE f) d x y) s
def execVrcpstep (d x y : VOp) (s : State) : Out := runSyl 2 (ew2 .f32 vlatMul (stepF32 false) d x y) s
def execVrsqstep (d x y : VOp) (s : State) : Out := runSyl 2 (ew2 .f32 vlatMul (stepF32 true) d x y) s
def execVexp2 (d x : VOp) (s : State) : Out := runSyl 2 (ew1 .f32 vlatFun exp2F32 d x) s
def execVlog2 (d x : VOp) (s : State) : Out := runSyl 2 (ew1 .f32 vlatFun log2F32 d x) s
def execVrcpA (d x : VOp) (s : State) : Out := runSyl 2 (ew1 .f32 vlatMul rcpApprox d x) s
def execVrsqA (d x : VOp) (s : State) : Out := runSyl 2 (ew1 .f32 vlatMul rsqApprox d x) s
def execVabs (f : Fmt) (d x : VOp) (s : State) : Out := runSyl 2 (ew1 f vlatShort (absE f) d x) s
def execVneg (f : Fmt) (d x : VOp) (s : State) : Out := runSyl 2 (ew1 f vlatShort (negE f) d x) s

/-- The low 40 bytes of a row: an F4B row (R48). -/
def f4bRow (r : Row) : Row := r &&& BitVec.ofNat 2048 (2 ^ 320 - 1)

/-- VMOV (R304); an F4B row moves whole and ignores the mask. -/
def vmovM (f : Fmt) (d x : VOp) : M Unit := do
  if f == .f4b then
    vcheck (some (opd d f)) false [opd x f] false vlatShort
    let s ← get
    let data := f4bRow (vdata s x 0)
    popAll [x]
    vwriteRow d f (some vlatShort) data
  else ew1 f vlatShort id d x
def execVmov (f : Fmt) (d x : VOp) (s : State) : Out := runSyl 2 (vmovM f d x) s

/-- VCLAMP (R304): bounds from the latch; a NaN bound gives the default NaN. -/
def vclampM (f : Fmt) (d x : VOp) : M Unit := do
  let s ← get
  let lo := s.me.alo.toNat % 2 ^ f.bits
  let hi := s.me.ahi.toNat % 2 ^ f.bits
  ew1 f vlatShort (fun v => minE f (maxE f v lo) hi) d x
def execVclamp (f : Fmt) (d x : VOp) (s : State) : Out := runSyl 2 (vclampM f d x) s

/-- VSCALE (R304): the exponent is a.lo[15:0], signed. -/
def vscaleM (f : Fmt) (d x : VOp) : M Unit := do
  let s ← get
  ew1 f vlatMul (scaleE f (s.me.alo.setWidth 16).toInt) d x
def execVscale (f : Fmt) (d x : VOp) (s : State) : Out := runSyl 2 (vscaleM f d x) s

/-! Conversions (R305, R306). -/

/-- The 64 values of an F4B row with band scale 1.0. -/
def f4bValues (r : Row) : List FVal :=
  (List.range 64).map fun i => (e2m1 (rowElem 4 r i)).mul (e3m5 (rowElem 8 r (32 + i / 8)))
/-- An F4B row from 64 values and a band scale (R54). -/
def f4bPack (b : FVal) (xs : List FVal) : Row :=
  let blocks := (List.range 8).map fun j => f4bBlock b ((xs.drop (8 * j)).take 8)
  BitVec.ofNat 2048 (packElems 4 (blocks.flatMap (·.2)) + packElems 8 (blocks.map (·.1)) * 2 ^ 256)

/-- VCVT and VCVT.SAT. -/
def vcvtM (sat : Bool) (f : Fmt) (d x : VOp) (src : Fmt) : M Unit := do
  let s ← get
  let is32 := f.is32 && src.is32
  let n := min (countOf s d f) (countOf s x src)
  let on := maskBits s n
  let dst : Opd := { op := d, fmt := f, is32 := is32 }
  let from' : Opd := { op := x, fmt := src, is32 := is32 }
  if f == .f4b then
    vcheck (some dst) false [from'] false vlatMul
    let xs := (velems s x src 64 0).map src.value
    popAll [x]
    vwriteRow d f (some vlatMul) (f4bPack (bf16.value (s.me.alo.toNat % 65536)) xs)
  else
    vcheck (some dst) (on.any (!·)) [from'] true vlatMul
    let rs := if src == .f4b
      then (f4bValues (vdata s x 0)).map fun v => if f.isInt then f.ofFloat v else f.float.roundTo sat v
      else (velems s x src n 0).map (cvtElem f src sat)
    popAll [x]
    vwrite d f (some vlatMul) (merged on (rs.take n))
def execVcvt (f : Fmt) (d x : VOp) (src : Fmt) (s : State) : Out := runSyl 2 (vcvtM false f d x src) s
def execVcvtSat (f : Fmt) (d x : VOp) (src : Fmt) (s : State) : Out := runSyl 2 (vcvtM true f d x src) s

/-! Rotation (R310). -/

/-- Adjacent pairs rotated by pairs of cosine and sine. -/
def rotPairs (f : Fmt) : List Nat → List Nat → List Nat
  | a :: b :: xs, c :: s :: ys =>
    let v := f.value
    f.float.roundTo false (((v a).mul (v c)).add ((v b).mul (v s)).neg) ::
      f.float.roundTo false (((v a).mul (v s)).add ((v b).mul (v c))) :: rotPairs f xs ys
  | _, _ => []
/-- VROT. -/
def vrotM (f : Fmt) (d x y : VOp) : M Unit := do
  let s ← get
  let n := elemCount s f [d, x, y]
  let on := maskBits s n
  vcheck (some (opd d f)) (on.any (!·)) [opd x f, opd y f] true vlatMul none (n % 2 == 1)
  let xs := velems s x f n 0
  let ys := velems s y f n (if x = y then 1 else 0)
  popAll [x, y]
  vwrite d f (some vlatMul) (merged on (rotPairs f xs ys))
def execVrotF32 (d x y : VOp) (s : State) : Out := runSyl 2 (vrotM .f32 d x y) s
def execVrotBf16 (d x y : VOp) (s : State) : Out := runSyl 2 (vrotM .bf16 d x y) s

/-! Compares (R311). -/

/-- A compare writes its mask whole after four cycles. -/
def vcmpM (f : Fmt) (op : Nat → Nat → Bool) (m : Fin 4) (x y : VOp) : M Unit := do
  let s ← get
  let n := elemCount s f [x, y]
  let on := maskBits s n
  vcheck none false [opd x f, opd y f] true vlatShort
  let xs := velems s x f n 0
  let ys := velems s y f n (if x = y then 1 else 0)
  popAll [x, y]
  let bits := (on.zip (xs.zip ys)).map fun e => if e.1 && op e.2.1 e.2.2 then 1 else 0
  issueVec (.mask m (BitVec.ofNat 256 (packElems 1 bits))) (some vlatShort)
def execVcmpEq (f : Fmt) (m : Fin 4) (x y : VOp) (s : State) : Out := runSyl 2 (vcmpM f (eqE f) m x y) s
def execVcmpLt (f : Fmt) (m : Fin 4) (x y : VOp) (s : State) : Out := runSyl 2 (vcmpM f (ltE f) m x y) s
def execVcmpLe (f : Fmt) (m : Fin 4) (x y : VOp) (s : State) : Out := runSyl 2 (vcmpM f (leE f) m x y) s

end Sys2Proof.Machine
end

