-- ==== Sys2Proof/Machine/VecPermute.lean ====
section
/-! DEFINITION. The vector permute syllable: masks, shuffles, packing, reductions, searches, scans, top-k and random numbers
(R307, R308, R312 to R324). -/
namespace Sys2Proof.Machine

/-- VMASK (R312): the selector changes from the next bundle onward. -/
def execVmask (m : Fin 4) (s : State) : Out := runSyl 3 (upd fun s => s.modMe fun x => { x with sel := m }) s

/-- VSHUF (R313): raw elements of X in the order of Y. -/
def vshufM (f : Fmt) (d x y : VOp) : M Unit := do
  let s ← get
  let n := elemCount s f [d, x, y]
  let on := maskBits s n
  let raw := fun o => { opd o f with raw := match o with | .row _ | .col _ | .dg _ => true | _ => false }
  vcheck (some (opd d f)) (on.any (!·)) [raw x, raw y] true vlatShort
  let xs := velems s x f n 0
  let ys := velems s y f n (if x = y then 1 else 0)
  popAll [x, y]
  vwrite d f (some vlatShort) (merged on (ys.map fun j => xs.getD j 0))
def execVshuf (f : Fmt) (d x y : VOp) (s : State) : Out := runSyl 3 (vshufM f d x y) s

/-- VSEL (R314): the mask selects and D is written whole. -/
def vselM (f : Fmt) (d x y : VOp) : M Unit := do
  let s ← get
  let n := elemCount s f [d, x, y]
  let on := maskBits s n
  vcheck (some (opd d f)) false [opd x f, opd y f] true vlatShort
  let xs := velems s x f n 0
  let ys := velems s y f n (if x = y then 1 else 0)
  popAll [x, y]
  vwrite d f (some vlatShort) ((on.zip (xs.zip ys)).map fun e => some (if e.1 then e.2.1 else e.2.2))
def execVsel (f : Fmt) (d x y : VOp) (s : State) : Out := runSyl 3 (vselM f d x y) s

/-! Forms whose one result goes to every element of D (R317 to R319). -/

/-- Latency of a reduction over n elements. -/
def vlatRed (n : Nat) : Nat := 4 + 2 * ceilLog2 n
/-- A form over the elements of X, and of Y where there is one, with the mask; the result is written to all of D. -/
def reduceM (f rf : Fmt) (d x : VOp) (y : Option VOp) (op : List Bool → List Nat → List Nat → Nat) : M Unit := do
  let s ← get
  let n := elemCount s f (x :: y.toList)
  let on := maskBits s n
  vcheck (some (opd d rf)) false (opd x f :: y.toList.map fun o => opd o f) true (vlatRed n)
  let xs := velems s x f n 0
  let ys := match y with | some y => velems s y f n (if x = y then 1 else 0) | none => []
  popAll (x :: y.toList)
  vwrite d rf (some (vlatRed n)) (List.replicate (countOf s d rf) (some (op on xs ys)))

/-- An element of a narrow floating format as FP32 (R56). -/
def toF32 (f : Fmt) (v : Nat) : Nat := if f == .f32 then v else cvtElem .f32 f false v
/-- A floating reduction by the tree of R56 with identity `e` for elements that are off. -/
def redFloat (f : Fmt) (op : Nat → Nat → Nat) (e : Nat) (on : List Bool) (xs : List Nat) : Nat :=
  f32Canon (tree op e ((on.zip xs).map fun p => if p.1 then toF32 f p.2 else e))
/-- An integer reduction, as a 32-bit pattern. -/
def redInt (f : Fmt) (op : Int → Int → Int) (e : Int) (on : List Bool) (xs : List Nat) : Nat :=
  (((on.zip xs).foldl (fun acc p => if p.1 then op acc (f.intOf p.2) else acc) e) % (2 ^ 32 : Nat)).toNat
/-- Result format of the reductions (Table 11-5). -/
def redFmt : Fmt → Fmt
  | .f32 | .bf16 | .f8a | .f8b | .f4b => .f32
  | .i8 | .i32 => .i32
  | .i8u | .i32u => .i32u
/-- Least and greatest values of an integer format. -/
def leastOf (f : Fmt) : Int := if f.isSigned then -(2 ^ (f.bits - 1) : Nat) else 0
def greatestOf (f : Fmt) : Int := if f.isSigned then (2 ^ (f.bits - 1) : Nat) - 1 else (2 ^ f.bits : Nat) - 1

def execVredSum (f : Fmt) (d x : VOp) (s : State) : Out := runSyl 3 (reduceM f (redFmt f) d x none fun on xs _ =>
  if f.isInt then redInt f (· + ·) 0 on xs else redFloat f f32Add f32NegZero on xs) s
def execVredMax (f : Fmt) (d x : VOp) (s : State) : Out := runSyl 3 (reduceM f (redFmt f) d x none fun on xs _ =>
  if f.isInt then redInt f max (leastOf f) on xs else redFloat f f32Max 0xFF800000 on xs) s
def execVredMin (f : Fmt) (d x : VOp) (s : State) : Out := runSyl 3 (reduceM f (redFmt f) d x none fun on xs _ =>
  if f.isInt then redInt f min (greatestOf f) on xs else redFloat f f32Min 0x7F800000 on xs) s

/-- The index of the largest number that is on, or all ones (R318). -/
def argmaxOf (f : Fmt) (on : List Bool) (xs : List Nat) : Nat :=
  match ((on.zip xs).zipIdx.filter fun e => e.1.1 && !(f.value e.1.2).isNaN).foldl (fun (m : Option (Nat × Nat)) e =>
    match m with
    | none => some (e.1.2, e.2)
    | some b => if FVal.below (f.value b.1) (f.value e.1.2) then some (e.1.2, e.2) else some b) none with
  | some b => b.2
  | none => 0xFFFFFFFF
def execVargmax (f : Fmt) (d x : VOp) (s : State) : Out :=
  runSyl 3 (reduceM f .i32u d x none fun on xs _ => argmaxOf f on xs) s
/-- The first index that is on and equal, or all ones (R319). -/
def findOf (f : Fmt) (on : List Bool) (xs ys : List Nat) : Nat :=
  ((on.zip (xs.zip ys)).findIdx? fun e => e.1 && eqE f e.2.1 e.2.2).getD 0xFFFFFFFF
def execVfind (f : Fmt) (d x y : VOp) (s : State) : Out := runSyl 3 (reduceM f .i32u d x (some y) (findOf f)) s

/-- VSCAN.SUM (R320): strictly left to right; D is written whole. -/
def vscanM (f : Fmt) (d x : VOp) : M Unit := do
  let s ← get
  let n := elemCount s f [d, x]
  let on := maskBits s n
  let lat := ceilDiv n 16 + 4
  vcheck (some (opd d f)) false [opd x f] true lat
  let off := if f == .f32 then f32NegZero else 0
  let xs := (on.zip (velems s x f n 0)).map fun e => if e.1 then e.2 else off
  popAll [x]
  vwrite d f (some lat) ((if f == .f32 then scanF32 xs else scanFrom (fun a b => (a + b) % 2 ^ 32) 0 xs).map some)
def execVscanSum (f : Fmt) (d x : VOp) (s : State) : Out := runSyl 3 (vscanM f d x) s

/-- Ranking of VTOPK (R321): numbers by descending value and ascending index, then NaNs by ascending index. -/
def rankTop (on : List Bool) (xs : List Nat) : List Nat :=
  let l := ((on.zip xs).zipIdx.filter (·.1.1)).map fun e => (e.1.2, e.2)
  (sortCands (l.filter fun e => !(f32Val e.1).isNaN)).map (·.2) ++ (l.filter fun e => (f32Val e.1).isNaN).map (·.2)
/-- VTOPK: the elements of X that it ranks are as many as R291 gives, D being a column or diagonal included. -/
def vtopkM (d x : VOp) : M Unit := do
  let s ← get
  let n := elemCount s .f32 [d, x]
  let on := maskBits s n
  vcheck (some (opd d .i32u)) false [opd x .f32] true none
  let k := s.me.alo.toNat % 128
  let k := if k = 0 ∨ n < k then n else k
  let order := (rankTop on (velems s x .f32 n 0)).take k
  popAll [x]
  vwrite d .i32u none ((List.range (countOf s d .i32u)).map fun r => some
    (match order[r]? with
      | some i => (s.me.ahi.toNat % 2 ^ 32 + i) % 2 ^ 32
      | none => 0xFFFFFFFF))
def execVtopk (d x : VOp) (s : State) : Out := runSyl 3 (vtopkM d x) s

/-- VIDX (R316). -/
def vidxM (f : Fmt) (d : VOp) : M Unit := do
  let s ← get
  let n := elemCount s f [d]
  let on := maskBits s n
  vcheck (some (opd d f)) (on.any (!·)) [] true vlatShort
  vwrite d f (some vlatShort) (merged on ((List.range n).map fun i => (s.me.alo.toNat + i) % 2 ^ f.bits))
def execVidx (f : Fmt) (d : VOp) (s : State) : Out := runSyl 3 (vidxM f d) s

/-- VBCAST (R315). -/
def vbcastM (f : Fmt) (d x : VOp) : M Unit := do
  let s ← get
  let n := elemCount s f [d, x]
  let on := maskBits s n
  let nx := countOf s x f
  let j := s.me.alo.toNat % 256
  vcheck (some (opd d f)) (on.any (!·)) [opd x f] true vlatShort (if nx ≤ j then some 0xD0 else none)
  let v := (velems s x f nx 0).getD j 0
  popAll [x]
  vwrite d f (some vlatShort) (merged on (List.replicate n v))
def execVbcast (f : Fmt) (d x : VOp) (s : State) : Out := runSyl 3 (vbcastM f d x) s

/-- The source format and part that a.lo names for VPACK and VUNPACK (Table 11-1). -/
def packParams (s : State) : Option Fmt × Nat × Bool :=
  (Fmt.ofCode (s.me.alo.setWidth 4), bitsOf s.me.alo.toNat 5 4, s.me.alo.getLsbD 6)
/-- Pairs of Table 11-4. -/
def packPair (dst src : Fmt) : Bool :=
  match dst, src with
  | .bf16, .f32 | .f8a, .f32 | .f8b, .f32 | .f8a, .bf16 | .f8b, .bf16 => true
  | .i8, .i32 | .i8, .i32u | .i8u, .i32 | .i8u, .i32u => true
  | _, _ => false
/-- Pairs of R308. -/
def unpackPair (dst src : Fmt) : Bool :=
  match dst, src with
  | .f32, .bf16 | .f32, .f8a | .f32, .f8b | .bf16, .f8a | .bf16, .f8b => true
  | .i32, .i8 | .i32, .i8u | .i32u, .i8u => true
  | _, _ => false

/-- VPACK (R307): elements outside the part are off. -/
def vpackM (f : Fmt) (d x y : VOp) : M Unit := do
  let s ← get
  let (sf?, p, sat) := packParams s
  let sf := sf?.getD f
  let ns := sf.perRow
  let nd := f.perRow
  let bad := sf?.isNone || !packPair f sf || decide (nd < (p + 1) * (2 * ns))
  let base := p * 2 * ns
  let on := (maskBits s nd).zipIdx.map fun e => e.1 && decide (base ≤ e.2) && decide (e.2 < base + 2 * ns)
  let src := fun o : VOp => { op := o, fmt := sf, is32 := false, raw := sf?.isNone : Opd }
  vcheck (some { opd d f with is32 := false }) (on.any (!·)) [src x, src y] true vlatShort (if bad then some 0xD0 else none)
  let xs := velems s x sf ns 0 ++ velems s y sf ns (if x = y then 1 else 0)
  popAll [x, y]
  vwrite d f (some vlatShort) (merged on ((List.range nd).map fun i => cvtElem f sf sat (xs.getD (i - base) 0)))
def execVpack (f : Fmt) (d x y : VOp) (s : State) : Out := runSyl 3 (vpackM f d x y) s

/-- VUNPACK (R308). -/
def vunpackM (f : Fmt) (d x : VOp) : M Unit := do
  let s ← get
  let (sf?, p, _) := packParams s
  let sf := sf?.getD f
  let nd := f.perRow
  let bad := sf?.isNone || !unpackPair f sf || decide (sf.perRow < (p + 1) * nd)
  let on := maskBits s nd
  let src : Opd := { op := x, fmt := sf, is32 := false, raw := sf?.isNone }
  let dst : Opd := { op := d, fmt := f, is32 := false }
  vcheck (some dst) (on.any (!·)) [src] true vlatShort (if bad then some 0xD0 else none)
  let xs := velems s x sf sf.perRow 0
  popAll [x]
  vwrite d f (some vlatShort) (merged on ((List.range nd).map fun i => cvtElem f sf false (xs.getD (p * nd + i) 0)))
def execVunpack (f : Fmt) (d x : VOp) (s : State) : Out := runSyl 3 (vunpackM f d x) s

/-! Random numbers (R322 to R324). -/

/-- The value of a draw in the result format. -/
def randElem (f : Fmt) (v : BitVec 32) : Nat := if f == .f32 then uniform v else v.toNat
/-- VRAND in latch mode. -/
def vrandLatchM (f : Fmt) (d : VOp) : M Unit := do
  let s ← get
  let n := elemCount s f [d]
  let on := maskBits s n
  vcheck (some (opd d f)) (on.any (!·)) [] true none
  vwrite d f none (merged on ((List.range n).map fun i => randElem f (draw32 s.me.alo (s.me.ahi + BitVec.ofNat 64 i))))
def execVrandLatch (f : Fmt) (d : VOp) (s : State) : Out := runSyl 3 (vrandLatchM f d) s

/-- The counter of a draw on a request by a context, with the state after it (R179, R207): none where the request serves
another run, or where the iteration has drawn already. -/
def State.takeCtr (s : State) (c r : Nat) : Option (Word × State) :=
  let x := s.ctx c
  match x.spec, x.running with
  | true, some u =>
    let it := (s.run u.part u.run).iters.getD u.iter {}
    let owner := s.reqRun r
    if (owner ≠ 0 ∧ owner ≠ u.run) ∨ it.drew.contains r then none
    else
      let s := if owner = 0 then (s.setReqCtrBase r (s.reqCtr r)).setReqRun r u.run else s
      let s := s.modRun u.part u.run fun q =>
        { q with reqs := if q.reqs.contains r then q.reqs else r :: q.reqs,
                 iters := q.iters.modify u.iter fun i => { i with drew := r :: i.drew } }
      some (BitVec.ofNat 64 (s.reqCtrBase r + u.iter), s)
  | _, _ =>
    if s.reqRun r ≠ 0 then none
    else some (BitVec.ofNat 64 (s.reqCtr r), s.setReqCtr r (s.reqCtr r + 1))

/-- VRAND in request mode (R323): one draw for every element of D. -/
def vrandRequestM (f : Fmt) (d : VOp) : M Unit := do
  let s ← get
  let n := elemCount s f [d]
  vcheck (some (opd d f)) false [] false none
  let r := s.me.ahi.toNat % 4096
  let val := BitVec.ofNat 64 r
  need (s.me.ahi.toNat == r && s.reqIn s.myPart r && s.reqState r == 1) 0x0A val
  match s.takeCtr s.cur r with
  | none => trap 0x11 val
  | some (ctr, t) =>
    set t
    let v := randElem f (draw32 (BitVec.ofNat 64 (s.reqKey r)) ctr)
    vwrite d f none (List.replicate n (some v))
def execVrandRequest (f : Fmt) (d : VOp) (s : State) : Out := runSyl 3 (vrandRequestM f d) s

end Sys2Proof.Machine
end

