-- ==== Sys2Proof/Machine/Attn.lean ====
section
/-! DEFINITION. Key-value words: KVAPP, QK, SV and DRAW (R144 to R146, R179 to R184, R207, R344 to R349, R355). -/
namespace Sys2Proof.Machine

/-! Requests. -/

/-- A command names a request of its partition that is active (R169, R177): subcode 0x13. -/
def useRequest (r : Nat) : M Unit := do
  let s ← get
  needE (s.reqIn s.myPart r && s.reqState r == 1) 0x13
/-- The run and iteration of the executing unit. -/
def State.myIter (s : State) : Option (Nat × Nat) :=
  match s.me.running with
  | some u => if s.me.spec then some (u.run, u.iter) else none
  | none => none
/-- Does the request serve another run than the unit's, or a run at all where the unit is outside one (R179)? -/
def ownedElsewhere (s : State) (r : Nat) : Bool :=
  s.reqRun r != 0 && (match s.myIter with | some (run, _) => s.reqRun r != run | none => true)
/-- A command on a request starts: DRAIN goes up (R176). -/
def drainUp (r : Nat) : M Unit := upd fun s => s.setReqDrain r (s.reqDrain r + 1)

/-! Pages (R344). -/

/-- The column-view address of an entry's page. -/
def KvEntry.pa (e : KvEntry) : Nat := State.colPa e.col (e.page * 65536)
/-- Byte of key element `e` and of value element `e` of a token slot. -/
def keyOff (slot e : Nat) : Nat := 8192 * (e / 64) + 128 * (e % 64) + 2 * slot
def valOff (slot e : Nat) : Nat := 16384 + 8192 * (e / 64) + 128 * slot + 2 * (e % 64)
/-- Element `e` of a ring row of BF16 elements. -/
def rowBf16 (r : Row) (e : Nat) : Nat := rowElem 16 r e
/-- Writes the key and value of one head's token (R344). -/
def State.writeToken (s : State) (p : Nat) (e : KvEntry) (slot : Nat) (key val : Row) : State :=
  (List.range 128).foldl (fun t i =>
    (t.busWrite p (e.pa + keyOff slot i) (bytesOfNat 2 (rowBf16 key i))).busWrite p (e.pa + valOff slot i)
      (bytesOfNat 2 (rowBf16 val i))) s

/-! KVAPP (R346). -/

def layerN (v : Word) : Nat × Nat := (opBits v 15 0, opBits v 22 16)
def execKvapp (s : State) : Out := runWord (launchWord 0xA9 3 .kvapp fun l => do
  reqField (nth l 0)
  field (onlyBits (nth l 1) 0x7FFFFF && decide (1 ≤ (layerN (nth l 1)).2) && decide ((layerN (nth l 1)).2 ≤ 64))
  ringField (nth l 2)) s

/-- The page descriptor after `used` claimed ones (R183): column and page, none where the list is exhausted. The manual gives no
consequence for a descriptor whose bits 31:28 or 15:11 are not zero, and the model ignores them (DESIGN CHOICE, log 28). -/
def State.pageDesc (s : State) (p r used : Nat) : Option (Nat × Nat) :=
  if s.reqPgcount r ≤ used then none
  else
    let v := s.cohNat (s.keydef p) (canon (s.reqPglist r + 4 * used)) 4
    some (bitsOf v 27 16, bitsOf v 10 0)
/-- The last committed entry of a list. -/
def lastCommitted (es : List KvEntry) : Option KvEntry := (es.filter fun e => !e.tent).getLast?
/-- The position after a list's last committed token. -/
def nextPos (es : List KvEntry) : Nat := ((lastCommitted es).map fun e => e.posbase + e.count).getD 0
/-- Appends one token outside a run: the pages claimed, the list, and the entry and slot of the token (R183, R346). -/
def appendToken (desc : Nat → Option (Nat × Nat)) (used : Nat) (es : List KvEntry) :
    Option (Nat × List KvEntry × KvEntry × Nat) :=
  match es.getLast? with
  | some e =>
    if e.first + e.count < 64 ∧ !e.spl ∧ !e.tent then
      some (used, es.dropLast ++ [{ e with count := e.count + 1 }], e, e.first + e.count)
    else (desc used).map fun d =>
      let n : KvEntry := { valid := true, posbase := nextPos es, col := d.1, page := d.2, count := 1 }
      (used + 1, es ++ [n], n, 0)
  | none => (desc used).map fun d =>
      let n : KvEntry := { valid := true, posbase := 0, col := d.1, page := d.2, count := 1 }
      (used + 1, [n], n, 0)
/-- Inserts a tentative entry after the committed ones and those of lower iterations (R184). -/
def insertTent (n : KvEntry) (es : List KvEntry) : List KvEntry :=
  let k := ((es.zipIdx.filter fun e => !e.1.tent || (e.1.run == n.run && decide (e.1.iter < n.iter))).map (·.2 + 1)).getLast?.getD 0
  es.take k ++ n :: es.drop k
/-- Appends iteration `j`'s token of a run of width `w` (R184). -/
def appendTent (desc : Nat → Option (Nat × Nat)) (run j w used : Nat) (es : List KvEntry) :
    Option (Nat × List KvEntry × KvEntry × Nat) :=
  let mk := fun (c p f : Nat) => ({ valid := true, tent := true, run := run, iter := j, posbase := nextPos es + j, col := c,
                                    page := p, first := f, count := 1 } : KvEntry)
  let fresh := match es.find? fun e => e.tent && e.run == run with
    | some e => some (used, mk e.col e.page j)
    | none => (desc used).map fun d => (used + 1, mk d.1 d.2 j)
  let pick := match lastCommitted es with
    | some l => if !l.spl ∧ l.first + l.count + j + w ≤ 64 then some (used, mk l.col l.page (l.first + l.count + j)) else fresh
    | none => fresh
  pick.map fun e => (e.1, insertTent e.2 es, e.2, e.2.first)

/-- The appends of a KVAPP: pages claimed, the lists by head, and for each token and head its entry and slot. -/
structure AppendPlan where
  used : Nat
  lists : List (List KvEntry)
  places : List (List (KvEntry × Nat))
  deriving DecidableEq, Repr

/-- One token in the list of every head, in head order. -/
def planToken (app : Nat → List KvEntry → Option (Nat × List KvEntry × KvEntry × Nat)) (a : AppendPlan) : Option AppendPlan :=
  (a.lists.foldlM (init := (({ used := a.used, lists := [], places := [] } : AppendPlan), ([] : List (KvEntry × Nat))))
    fun acc es => (app acc.1.used es).map fun r =>
      ({ acc.1 with used := r.1, lists := acc.1.lists ++ [r.2.1] }, acc.2 ++ [r.2.2])).map
    fun r => { r.1 with places := a.places ++ [r.2] }
/-- The plan of a KVAPP on the tables as they stand, or the subcode of its failure (R180, R183, R335). -/
def State.kvPlan (s : State) (p r layer n : Nat) (it : Option (Nat × Nat)) : Except Byte AppendPlan :=
  let lists := (List.range (s.reqHeads r)).map fun h => s.kvList p r layer h
  if lists.any (·.any KvEntry.bad) then .error 0x14
  else
    let app := match it with
      | none => appendToken (s.pageDesc p r)
      | some (run, j) => appendTent (s.pageDesc p r) run j (s.run p run).width
    match (List.range n).foldlM (init := ({ used := s.reqPgused r, lists := lists, places := [] } : AppendPlan))
        fun a _ => planToken app a with
    | none => .error 0x14
    | some a =>
      if a.lists.any fun es => decide (s.reqMaxblk r < es.length) then .error 0x14
      else if a.places.any (·.any fun e => e.1.bad) then .error 0x14
      else if a.places.all (·.all fun e => s.colGranted p e.1.col) then .ok a else .error 0x12
/-- The reads of a KVAPP's plan (R100): the lists of every head of the layer, and the page descriptors up to the count `used`. -/
def State.seePlan (s : State) (p r layer used : Nat) : State :=
  (s.seeLists p r [layer]).busSee p ((List.range (used - s.reqPgused r)).map fun i => (canon (s.reqPglist r + 4 * (s.reqPgused r + i)), 4))
/-- Raises an engine fault for a failed computation. -/
def liftE {α : Type} (e : Except Byte α) : M α :=
  match e with
  | .ok v => pure v
  | .error b => throw (.engine b)
/-- Has an iteration appended at a layer of a request? -/
def State.iterAppended (s : State) (p run j r layer : Nat) : Bool :=
  (((s.run p run).iters[j]?).map fun i => i.appended.contains (r, layer)).getD false

/-- The start checks of R346. -/
def startKvapp (d : Cmd) : M Cmd := do
  let r := (nth d.ops 0).toNat
  let (layer, n) := layerN (nth d.ops 1)
  useRequest r
  let s ← get
  needE (!ownedElsewhere s r) 0x17
  needE (match s.myIter with | some (run, j) => n == 1 && !s.iterAppended s.myPart run j r layer | none => true) 0x16
  let ring ← useRing (nth d.ops 2).toNat
  needE (decide (s.reqHeads r ≤ 32)) 0x14
  needE (ring.fmt == Fmt.bf16.code && ring.tsize == 2 * s.reqHeads r) 0x0A
  needE (decide (layer < s.reqLayers r)) 0x14
  let a ← liftE (s.kvPlan s.myPart r layer n s.myIter)
  awaitWet (a.places.flatMap fun l => l.map (·.1.col))
  upd fun s => s.seePlan s.myPart r layer a.used
  drainUp r
  return d
/-- One tile is taken, or the tokens are written and the lists change as one event (R145, R179, R184, R346). -/
def stepKvapp (d : Cmd) : M (Option Cmd) := do
  let r := (nth d.ops 0).toNat
  let (layer, n) := layerN (nth d.ops 1)
  let ring := (nth d.ops 2).toNat
  if d.prog < n then
    awaitTile d ring
    let s ← get
    let ws := (s.headTile s.myCore ring).flatMap wordsOfRow
    upd fun s => s.ringTake s.myCore ring
    return some { d with prog := d.prog + 1, caps := d.caps ++ ws, ready := decide (n ≤ d.prog + 1) }
  else
    let s ← get
    let p := s.myPart
    let it := s.myIter
    needE (!ownedElsewhere s r) 0x17
    let heads := s.reqHeads r
    let plan ← liftE (s.kvPlan p r layer n it)
    let (go, d) ← takeDown d (plan.places.flatMap fun l => l.map (·.1.col))
    if !go then return some d
    let row := fun (i : Nat) => rowOfWords ((d.caps.drop (32 * i)).take 32)
    upd fun s =>
      let s := s.seePlan p r layer plan.used
      let s := plan.places.zipIdx.foldl (fun t tok => tok.1.zipIdx.foldl (fun t h =>
        t.writeToken p h.1.1 h.1.2 (row (tok.2 * 2 * heads + 2 * h.2)) (row (tok.2 * 2 * heads + 2 * h.2 + 1))) t) s
      let s := plan.lists.zipIdx.foldl (fun t e => t.kvWrite p r layer e.2 (t.kvList p r layer e.2).length e.1) s
      let s := s.setReqPgused r plan.used
      match it with
      | none => if layer = 0 then s.setReqLength r (s.reqLength r + n) else s
      | some (run, j) =>
        let s := if s.reqRun r = 0 then (s.setReqCtrBase r (s.reqCtr r)).setReqRun r run else s
        s.modRun p run fun q =>
          { q with reqs := if q.reqs.contains r then q.reqs else r :: q.reqs,
                   iters := q.iters.modify j fun i => { i with appended := (r, layer) :: i.appended } }
    return none

/-! QK and SV (R347 to R349). -/

/-- The layer operand of QK and SV: layer, head, first entry, entries. -/
def spanOf (v : Word) : Nat × Nat × Nat × Nat := (opBits v 15 0, opBits v 23 16, opBits v 39 24, opBits v 47 40)
def attnChecks (l : List Word) : M Unit := do
  reqField (nth l 0)
  let (_, _, _, nb) := spanOf (nth l 1)
  field (onlyBits (nth l 1) 0xFFFFFFFFFFFF && decide (1 ≤ nb) && decide (nb ≤ 64))
  ringField (nth l 2)
  accField (nth l 3)
def execQk (s : State) : Out := runWord (launchWord 0xAA 4 .qk attnChecks) s
def execSv (s : State) : Out := runWord (launchWord 0xAB 4 .sv attnChecks) s

/-- Is an entry visible to an attention word (R144)? -/
def visibleTo (it : Option (Nat × Nat)) (e : KvEntry) : Bool :=
  !e.tent || (match it with | some (run, j) => e.run == run && decide (e.iter ≤ j) | none => false)
/-- Must an iteration wait for a lower one to append at a layer (R144)? -/
def State.lowerPending (s : State) (p r layer : Nat) : Option (Nat × Nat) → Bool
  | none => false
  | some (run, j) =>
    let x := s.run p run
    x.isOpen && (List.range j).any fun i =>
      !s.iterAppended p run i r layer && (match x.iters[i]? with | some t => t.finished == 0 | none => false)
/-- The visible entries of a span (R347): subcode 0x14 for a span past the list, a malformed entry, positions that do not
rise, more than 64 tokens or a column outside the rectangle. -/
def attnSpan (r rect : Nat) (op : Word) : M (List KvEntry) := do
  let s ← get
  let (layer, h, b0, nb) := spanOf op
  needE (decide (layer < s.reqLayers r) && decide (h < s.reqHeads r)) 0x14
  let es := s.kvList s.myPart r layer h
  upd fun s => s.seeList s.myPart r layer h
  needE (decide (b0 + nb ≤ es.length)) 0x14
  let span := (es.drop b0).take nb
  needE (!span.any KvEntry.bad) 0x14
  let vis := span.filter (visibleTo s.myIter)
  needE (State.posRise vis && decide ((vis.map (·.count)).sum ≤ 64)) 0x14
  needE (vis.all fun e => (s.rectColumns s.myPart rect).contains e.col) 0x14
  needE (vis.all fun e => s.colGranted s.myPart e.col) 0x12
  return vis

/-- The start of QK and SV. `per` is how many window rows a ring row takes. -/
def startAttn (per : Nat) (d : Cmd) : M Cmd := do
  let r := (nth d.ops 0).toNat
  let rect ← heldRect
  awaitRectWet rect
  useRequest r
  let ring ← useRing (nth d.ops 2).toNat
  needE (ring.fmt == Fmt.bf16.code && decide (1 ≤ ring.tsize) && decide (ring.tsize * per ≤ 64)) 0x0A
  let (acc, _) := accRow (nth d.ops 3)
  rowsIn true acc (per * ring.tsize)
  let s ← get
  if per = 2 then
    needE ((s.slotKeys true acc (2 * ring.tsize)).all fun k => (s.row k).valid && (s.row k).tag == Fmt.f32.code) 0x0C
  let (layer, _, _, _) := spanOf (nth d.ops 1)
  await (!s.lowerPending s.myPart r layer s.myIter)
  let es ← attnSpan r rect (nth d.ops 1)
  useLease
  drainUp r
  return { d with ents := es }

/-- The live entry of the page and slot that an entry was read with. -/
def sameBlock (e f : KvEntry) : Bool :=
  f.col == e.col && f.page == e.page && decide (e.first ≤ f.first) && decide (f.first < e.first + e.count)
/-- Does the repair hold a read at a layer back (R146)? Frontier 255 means that the block is repaired at every layer. -/
def blocked (layer : Nat) (e : KvEntry) : Bool := (e.spl && e.frontier != 255 && decide (e.frontier ≤ layer)) || e.stale
/-- Must an attention word stall at an entry? -/
def State.attnBlocked (s : State) (p r layer h : Nat) (e : KvEntry) : Bool :=
  blocked layer e && blocked layer (((s.kvList p r layer h).find? (sameBlock e)).getD e)

/-- The rotary position of a key (R345): the pair (k[2m], k[2m + 1]) rotated by the angle of `pos`. -/
def rotPair (pos m a b : Nat) : Nat × Nat :=
  let (cs, sn) := cosSin pos m
  let v := bf16.value
  let c := f32Val cs
  let n := f32Val sn
  (bf16.roundTo false (((v a).mul c).add ((v b).mul n).neg), bf16.roundTo false (((v a).mul n).add ((v b).mul c)))
/-- A rotated key of 128 elements. -/
def rotKey (pos : Nat) (k : List Nat) : List Nat :=
  (List.range 64).flatMap fun m =>
    let (a, b) := rotPair pos m (k.getD (2 * m) 0) (k.getD (2 * m + 1) 0)
    [a, b]
/-- The 128 elements of token slot `t` in the two chunks of a page, read as key or as value. -/
def chunkToken (value : Bool) (bs : List Byte) (t : Nat) : List Nat :=
  (List.range 128).map fun e =>
    let o := if value then valOff t e - 16384 else keyOff t e
    (bs.getD o 0).toNat + 256 * (bs.getD (o + 1) 0).toNat
/-- A back latch as the load of chunk 1 leaves it (R344, R347): the rotated keys of the entry's slots, or the values. -/
def chunkLatch (value : Bool) (bs : List Byte) (toks : List (Nat × List Nat)) : Latch :=
  { fmt := Fmt.bf16.code, band := 0x3F80,
    elems := BitVec.ofNat 65536 (packElems 16 ((List.range 4096).map fun i =>
      let n := i / 64
      let k := i % 64
      let slot := if value then k else n
      let e := 64 + (if value then n else k)
      match toks.find? fun t => t.1 == slot with
      | some t => t.2.getD e 0
      | none => (chunkToken value bs slot).getD e 0)) }
/-- The lines of the two key chunks, or the two value chunks, of an entry's page. -/
def chunkLines (value : Bool) (e : KvEntry) : List Nat := State.linesOf (e.pa + if value then 16384 else 0) 16384
/-- The tokens of an entry from its chunks, with their slots: keys rotated, values as they stand. -/
def entryTokens (value : Bool) (e : KvEntry) (bs : List Byte) : List (Nat × List Nat) :=
  (List.range e.count).map fun i =>
    let k := chunkToken value bs (e.first + i)
    (e.first + i, if value then k else rotKey (e.posbase + i) k)
/-- Loads the chunks of one entry that have crossed: its tokens' vectors, and the back latch of its column (R345, R347). -/
def State.loadEntry (s : State) (value : Bool) (e : KvEntry) (bs : List Byte) : List (List Nat) × State :=
  let toks := entryTokens value e bs
  (toks.map (·.2), s.modCol e.col fun x =>
    { x with back := chunkLatch value bs toks,
             backRec := { src := .kv e.page e.first e.count 1 e.posbase value } })

/-- −∞ as FP32. -/
def negInf : Nat := 0xFF800000
/-- A score (R348). -/
def score (q k : List Nat) : Nat :=
  let part := fun c => tree f32Add 0 ((List.range 64).map fun i =>
    f32Round ((bf16.value (q.getD (64 * c + i) 0)).mul (bf16.value (k.getD (64 * c + i) 0))))
  f32Add (part 0) (part 1)
/-- The rows that QK commits: window row g holds the scores of query g. -/
def qkRow (q : Row) (keys : List (List Nat)) : SlotRow :=
  let sc := keys.map (score (rowElems 16 128 q))
  { data := rowOf 32 (sc ++ List.replicate (64 - sc.length) negInf), tag := Fmt.f32.code, valid := true }
/-- The row that SV commits for ring row P and half c (R349). -/
def svRow (old : SlotRow) (pr : Row) (vals : List (List Nat)) (c : Nat) : SlotRow :=
  let p := rowElems 16 64 pr
  { old with data := rowOf 32 ((rowElems 32 64 old.data).zipIdx.map fun o =>
      f32Add o.1 (tree f32Add 0 ((List.range 64).map fun j =>
        match vals[j]? with
        | some v => f32Round ((bf16.value (p.getD j 0)).mul (bf16.value (v.getD (64 * c + o.2) 0)))
        | none => 0))) }
/-- The captured vectors of a command, 128 elements each, four to a word. -/
def packVec (v : List Nat) : List Word :=
  (List.range 32).map fun i => BitVec.ofNat 64 (packElems 16 ((v.drop (4 * i)).take 4))
def unpackVecs (n : Nat) (ws : List Word) : List (List Nat) :=
  (List.range n).map fun j => ((ws.drop (32 * j)).take 32).flatMap fun w => (List.range 4).map fun i => w.toNat / 2 ^ (16 * i) % 65536

/-- QK and SV: the entries are loaded one by one, each when the repair allows its read; then the tile is taken and the rows
commit as one event. -/
def stepAttn (value : Bool) (d : Cmd) : M (Option Cmd) := do
  let s ← get
  let p := s.myPart
  let r := (nth d.ops 0).toNat
  let ring := (nth d.ops 2).toNat
  let (layer, h, _, _) := spanOf (nth d.ops 1)
  let rect ← curRect
  match d.ents[d.prog]? with
  | some e =>
    await (!s.attnBlocked p r layer h e)
    upd fun s => if blocked layer e then s.seeList p r layer h else s
    match ← crossUp d e.col (chunkLines value e) with
    | (none, d) => return some d
    | (some bs, d) =>
      let (vs, t) := (← get).loadEntry value e bs
      set t
      return some { d with prog := d.prog + 1, caps := d.caps ++ vs.flatMap packVec }
  | none =>
    awaitTile d ring
    await (s.injects (s.rectColumns p rect))
    let (go, d) ← takeRow d (s.rectColumns p rect)
    if !go then return some d
    let tile := s.headTile s.myCore ring
    let vecs := unpackVecs (d.ents.map (·.count)).sum d.caps
    upd fun s => s.sendRows p rect tile.length false
    let (acc, _) := accRow (nth d.ops 3)
    upd fun s =>
      (tile.zipIdx.foldl (fun t q =>
        if value then [0, 1].foldl (fun t c =>
          let k := t.winKey (acc + 2 * q.2 + c)
          t.setRow k (svRow (t.row k) q.1 vecs c)) t
        else t.setRow (t.winKey (acc + q.2)) (qkRow q.1 vecs)) s).ringTake s.myCore ring
    return none

/-! DRAW (R355). -/

def execDraw (s : State) : Out := runWord (launchWord 0xAE 3 .draw fun l => do
  reqField (nth l 0)
  accField (nth l 1)
  field ((nth l 1).getLsbD 8)
  field (decide (1 ≤ (nth l 2).toNat) && decide ((nth l 2).toNat ≤ 4032))) s
/-- Why a draw on a request is refused (R179, R207). -/
def drawRefused (s : State) (r : Nat) : Option Byte :=
  if ownedElsewhere s r then some 0x17
  else match s.myIter with
    | some (run, j) =>
      if (((s.run s.myPart run).iters[j]?).map fun i => i.drew.contains r).getD false then some 0x16 else none
    | none => none
def startDraw (d : Cmd) : M Cmd := do
  let r := (nth d.ops 0).toNat
  let (acc, _) := accRow (nth d.ops 1)
  let n := 1 + ceilDiv (nth d.ops 2).toNat 64
  useRequest r
  rowsIn true acc n
  let s ← get
  needE ((s.slotKeys true acc n).all fun k => (s.row k).valid && (s.row k).tag == Fmt.f32.code) 0x0C
  match drawRefused s r with
  | some sub => throw (.engine sub)
  | none => pure ()
  drainUp r
  return d
/-- The parameter row after a draw. -/
def drawRow (row : Row) (m chosen u : Nat) (ctr : Word) : Row :=
  let e := rowElems 32 64 row
  rowOf 32 ((((e.set 4 ((chosen + e.getD 2 0) % 2 ^ 32)).set 5 m).set 6 u).set 7 (ctr.toNat % 2 ^ 32))
def stepDraw (d : Cmd) : M (Option Cmd) := do
  let s ← get
  let r := (nth d.ops 0).toNat
  let (acc, _) := accRow (nth d.ops 1)
  let n := (nth d.ops 2).toNat
  match drawRefused s r with
  | some sub => throw (.engine sub)
  | none => pure ()
  match s.takeCtr s.cur r with
  | none => throw (.engine 0x16)
  | some (ctr, t) =>
    let prm := s.winRow acc
    let e := rowElems 32 64 prm.data
    let logits := (List.range n).map fun i => rowElem 32 (s.winRow (acc + 1 + i / 64)).data (i % 64)
    let q := softmax (logits.map fun x => f32Mul x (e.getD 1 0))
    let u := uniform (draw32 (BitVec.ofNat 64 (s.reqKey r)) ctr)
    let (m, c) := topP q.zipIdx (e.getD 0 0) u
    set (t.setRow (s.winKey acc) { prm with data := drawRow prm.data m c.2 u ctr })
    return none

end Sys2Proof.Machine
end

