-- ==== Sys2Proof/Machine/Repair.lean ====
section
/-! DEFINITION. SPLICE and REPAIR (R146, R147, R182, R186, R187, R350 to R354). -/
namespace Sys2Proof.Machine

/-! Provenance (Table 7-11). -/

/-- A provenance entry as a number, none at or beyond PROVN. -/
def State.provEntry (s : State) (p i : Nat) : Option Nat :=
  if s.tget (pdAddr p + 16) 4 % 2 ^ 17 ≤ i then none
  else some (s.cohNat (s.keydef p) (canon (bitsOf (s.tget (pdAddr p + 8) 8) 51 6 * 64 + 64 * i)) 64)
/-- A read of a provenance entry by a vertical-bus word is preceded by its recall (R100). -/
def State.seeProv (s : State) (p i : Nat) : State :=
  if (s.provEntry p i).isNone then s else s.busRecall p (canon (bitsOf (s.tget (pdAddr p + 8) 8) 51 6 * 64 + 64 * i)) 64
/-- Does a block's provenance pass R187? -/
def State.provOk (s : State) (p r i : Nat) : Bool :=
  match s.provEntry p i with
  | none => false
  | some n => bitOf n 256 && bitsOf n 303 258 == 0 && bitsOf n 511 384 == 0
      && bitsOf n 255 192 == (s.part p).modelId.toNat && decide (s.reqFloor r ≤ bitsOf n 383 352)
/-- The check layer of a block: CHKL where CK is set, else the captured REPAIR.LAYER. The entry is read as it stands at each token, and one
at or beyond PROVN by then gives REPAIR.LAYER and PREPOS 0 (DESIGN CHOICE, log 28: R187 gives no time for the read). -/
def State.checkLayer (s : State) (p prov layer : Nat) : Nat :=
  match s.provEntry p prov with
  | some n => if bitOf n 257 then bitsOf n 319 304 else layer
  | none => layer
def State.prepos (s : State) (p prov : Nat) : Nat := ((s.provEntry p prov).map fun n => bitsOf n 351 320).getD 0

/-! SPLICE (R350). -/

def execSplice (s : State) : Out := runWord (launchWord 0xAC 4 .splice fun l => do
  reqField (nth l 0)
  field (decide ((nth l 1).toNat < 2 ^ 32))
  needE ((nth l 2).toNat % 16 == 0) 0x1A
  field (decide (1 ≤ (nth l 3).toNat) && decide ((nth l 3).toNat ≤ 256))) s

/-- Inserts blocks of `c` tokens at position `q` of a list (R182). -/
def spliceList (q c : Nat) (new : List KvEntry) (es : List KvEntry) : List KvEntry :=
  let before := es.filterMap fun e =>
    if e.posbase + e.count ≤ q then some e
    else if e.posbase < q then some { e with count := q - e.posbase } else none
  let after := es.filterMap fun e =>
    if q ≤ e.posbase then some { e with posbase := e.posbase + c }
    else if q < e.posbase + e.count then
      some { e with first := e.first + (q - e.posbase), count := e.posbase + e.count - q, posbase := q + c }
    else none
  before ++ new ++ after
/-- The lists of a request after a splice, by list number, or none where one outgrows MAXBLK or is malformed. -/
def State.spliced (s : State) (p r q : Nat) (new : List KvEntry) : Option (List (List KvEntry)) :=
  let n := s.reqLayers r * s.reqHeads r
  let c := ((new.zipIdx.filter fun e => e.2 % n == 0).map (·.1.count)).sum
  let ls := (List.range n).map fun i =>
    let es := s.kvList p r (i / s.reqHeads r) (i % s.reqHeads r)
    (es, spliceList q c ((new.zipIdx.filter fun e => e.2 % n == i).map (·.1)) es)
  if ls.all fun l => !l.1.any KvEntry.bad && decide (l.2.length ≤ s.reqMaxblk r) then some (ls.map (·.2)) else none
/-- Is a REPAIR of a request running, and is one inside a block and layer (R147)? -/
def State.repairOn (s : State) (r : Nat) (inside : Bool) : Bool :=
  s.ctxs.any fun e => (e.2.stream 0).started.any fun d =>
    d.word == .repair && (nth d.ops 0).toNat % 4096 == r && (!inside || d.repair.asked || d.repair.token != 0)

/-- Reads and checks the document list, the page descriptors and the provenance (R350). The new entries stand block by block,
each block's in list order. Bits of a page descriptor outside its two fields are ignored (log 28). -/
def readBlocks (d : Cmd) (r q doclist count : Nat) : M (List KvEntry) := do
  let s ← get
  let n := s.reqLayers r * s.reqHeads r
  let (bs, d) ← readSrc d doclist (16 * count)
  let docs := (List.range count).map fun b => natOfBytes ((bs.drop (16 * b)).take 16)
  needE (docs.all fun d => decide (1 ≤ bitsOf d 87 80) && decide (bitsOf d 87 80 ≤ 64) && bitsOf d 127 88 == 0) 0x08
  needE (docs.all fun d => s.provOk s.myPart r (bitsOf d 79 64)) 0x15
  let blocks ← docs.zipIdx.mapM fun b => do
    let (ds, _) ← readSrc d (bitsOf b.1 63 0) (4 * n)
    let pos := q + ((docs.take b.2).map fun e => bitsOf e 87 80).sum
    return (List.range n).map fun i =>
      let v := natOfBytes ((ds.drop (4 * i)).take 4)
      ({ valid := true, spl := true, posbase := pos, prov := bitsOf b.1 79 64, col := bitsOf v 27 16, page := bitsOf v 10 0,
         count := bitsOf b.1 87 80 } : KvEntry)
  let es := blocks.flatMap id
  needE (!es.any KvEntry.bad) 0x14
  needE (es.all fun e => s.colGranted s.myPart e.col) 0x12
  return es
def startSplice (d : Cmd) : M Cmd := do
  let r := (nth d.ops 0).toNat
  let q := (nth d.ops 1).toNat
  let s ← get
  needE (!s.me.spec) 0x16
  useRequest r
  needE (s.reqRun r == 0) 0x17
  needE (decide (q ≤ s.reqLength r)) 0x08
  let es ← readBlocks d r q (nth d.ops 2).toNat (nth d.ops 3).toNat
  upd fun s => (es.foldl (fun t e => t.seeProv s.myPart e.prov) s).seeLists s.myPart r (List.range (s.reqLayers r))
  awaitWet (es.map (·.col))
  needE (s.spliced s.myPart r q es).isSome 0x14
  drainUp r
  return { d with ents := es }
/-- Every list changes in one event, with LENGTH (R182, R350). -/
def stepSplice (d : Cmd) : M (Option Cmd) := do
  let r := (nth d.ops 0).toNat
  let q := (nth d.ops 1).toNat
  let s ← get
  let p := s.myPart
  await (!s.repairOn r true)
  match s.spliced p r q d.ents with
  | none => throw (.engine 0x14)
  | some ls =>
    let n := s.reqLayers r * s.reqHeads r
    let firsts := (d.ents.zipIdx.filter fun e => e.2 % n == 0).map (·.1)
    let (go, d) ← takeDown d (firsts.map (·.col))
    if !go then return some d
    upd fun s =>
      let s := s.seeLists p r (List.range (s.reqLayers r))
      let s := firsts.foldl (fun t e => t.busWrite p (e.pa + 32768) (List.replicate 16 0)) s
      let s := ls.zipIdx.foldl (fun t l =>
        let a := l.2 / t.reqHeads r
        let h := l.2 % t.reqHeads r
        t.kvWrite p r a h (t.kvList p r a h).length l.1) s
      s.setReqLength r (s.reqLength r + (firsts.map (·.count)).sum)
    return none

/-! REPAIR (R351 to R354). -/

def execRepair (s : State) : Out := runWord (launchWord 0xAD 3 .repair fun l => do
  field (onlyBits (nth l 0) 0x770FFF)
  field (decide ((nth l 1).toNat < 65536) && decide ((nth l 2).toNat < 65536) && decide ((nth l 1).toNat ≤ (nth l 2).toNat))) s

/-- The fields of a REPAIR: request, input ring, output ring, first and last layer. -/
def repairOps (d : Cmd) : Nat × Nat × Nat × Nat × Nat :=
  let o := nth d.ops 0
  (opBits o 11 0, opBits o 18 16, opBits o 22 20, (nth d.ops 1).toNat, (nth d.ops 2).toNat)
/-- REPAIR.THRESH and REPAIR.LAYER as captured at start. -/
def repairThresh (d : Cmd) : Nat := (nth d.caps 0).toNat
def repairLayer (d : Cmd) : Nat := (nth d.caps 1).toNat

/-- A REPAIR starts (R351): it reads the request's whole table, once, and captures its registers. One that a pre-emption saved
(R354) has both already, and its position. -/
def startRepair (d : Cmd) : M Cmd := do
  let (r, ri, ro, first, last) := repairOps d
  let s ← get
  needE (!s.me.spec) 0x16
  useRequest r
  let ir ← useRing ri
  let or' ← useRing ro
  needE (decide (s.reqHeads r ≤ 32)) 0x19
  needE (or'.fmt == Fmt.i32u.code && ir.fmt == Fmt.bf16.code && ir.tsize == 2 * s.reqHeads r) 0x0A
  needE (decide (last < s.reqLayers r)) 0x19
  await (!s.repairOn r false)
  let lists := if d.caps.isEmpty then (List.range (s.reqLayers r * s.reqHeads r)).map fun i =>
    s.kvList s.myPart r (i / s.reqHeads r) (i % s.reqHeads r) else d.lists
  let es := lists.headD []
  needE (!es.any KvEntry.bad) 0x14
  awaitWet (es.map (·.col))
  drainUp r
  if d.caps.isEmpty then
    upd fun s => s.seeLists s.myPart r (List.range (s.reqLayers r))
    let blocks := es.filter fun e => e.spl || e.stale
    return { d with lists := lists, ents := blocks, caps := [(s.part s.myPart).thresh, (s.part s.myPart).repairLayer],
                    repair := { layer := first, progress := blocks.zipIdx.map fun e => (e.2, if e.1.spl then e.1.frontier else 0) } }
  else return d

/-- The place of a block in the list for layer 0, head 0, as read at the start. -/
def blockIndex (d : Cmd) (e : KvEntry) : Nat := ((d.lists.headD []).findIdx? (· == e)).getD 0
/-- Token `i` of a block in the list for layer `l` and head `h`, as read at the start (R351): the entry with the same POSBASE, and
the slot. -/
def tokenIn (heads : Nat) (d : Cmd) (l h : Nat) (e : KvEntry) (i : Nat) : Option (KvEntry × Nat) :=
  ((d.lists.getD (l * heads + h) []).find? fun g => g.posbase == e.posbase).map fun g => (g, g.first + i)

namespace State

/-- The entries of the list for layer 0, head 0 in which a block stands now. -/
def liveParts (s : State) (p r : Nat) (e : KvEntry) : List KvEntry := (s.kvList p r 0 0).filter (sameBlock e)
/-- MARK and MEAS of a block's page. -/
def markBits (s : State) (p : Nat) (e : KvEntry) : Nat := s.cohNat (s.keydef p) (e.pa + 32768) 8
def measBits (s : State) (p : Nat) (e : KvEntry) : Nat := s.cohNat (s.keydef p) (e.pa + 32776) 8
def setMarks (s : State) (p : Nat) (e : KvEntry) (mark meas : Nat) : State :=
  s.busWrite p (e.pa + 32768) (bytesOfNat 8 mark ++ bytesOfNat 8 meas)
/-- The mask of a block's tokens in MARK and MEAS. -/
def blockMask (e : KvEntry) : Nat := (2 ^ e.count - 1) * 2 ^ e.first
/-- Changes a block's entries in every list of the table as it stands, as one event (R145). -/
def mapBlock (s : State) (p r : Nat) (e : KvEntry) (f : KvEntry → KvEntry) : State :=
  let bases := (s.liveParts p r e).map (·.posbase)
  s.kvMapAll p r fun _ _ es => es.map fun g => if bases.contains g.posbase && (g.spl || g.stale) then f g else g
/-- A measured block without a marked token is repaired at every layer (R352), unless a fenced column has made it stale since. -/
def settleBlock (s : State) (p r : Nat) (e : KvEntry) : State :=
  s.mapBlock p r e fun g => if g.stale then g else { g with frontier := 255 }
/-- A block's progress goes from `old` to `new` (R353): the frontier of a spliced block, unless a fenced column has set it back since;
at 255 it is no longer stale. -/
def advanceBlock (s : State) (p r : Nat) (e : KvEntry) (old new : Nat) : State :=
  s.mapBlock p r e fun g =>
    if g.spl && g.frontier != old then g
    else { g with frontier := if g.spl then new else g.frontier, stale := g.stale && new != 255 }
/-- Does REPAIR process a block at all (R353)? -/
def blockTaken (s : State) (d : Cmd) (e : KvEntry) : Bool :=
  let (r, _, _, first, last) := repairOps d
  e.spl || (first == 0 && last + 1 == s.reqLayers r)
/-- The next token of a block whose bit in `m` is set, from token `i` on. -/
def nextToken (e : KvEntry) (m i : Nat) : Option Nat :=
  (List.range e.count).find? fun j => decide (i ≤ j) && bitOf m (e.first + j)

end State

/-- What a REPAIR does next. -/
inductive RepairAct where
  | restart
  | markStale
  | emit (stage layer token : Nat)
  | take
  | settle
  | advance
  | pass
  | nextLayer
  | done
  deriving DecidableEq, Repr

/-- The next action of a running REPAIR at its position (R352 to R354). -/
def repairNext (s : State) (d : Cmd) : RepairAct :=
  let (_, _, _, _, last) := repairOps d
  let p := s.myPart
  let q := d.repair
  if q.restart then .restart
  else if q.asked then .take
  else match d.ents[q.block]? with
    | none => if q.stage = 2 ∧ last ≤ q.layer then .done else .nextLayer
    | some e =>
      if !s.blockTaken d e then .pass
      else if q.stage = 1 then
        if e.stale then .markStale
        else if e.frontier ≠ 0 ∨ State.blockMask e &&& s.measBits p e = State.blockMask e then .pass
        else match State.nextToken e (2 ^ 64 - 1 - s.measBits p e) q.token with
          | some i => .emit 1 (s.checkLayer p e.prov (repairLayer d)) i
          | none => .settle
      else if q.token = 0 ∧ (s.markBits p e &&& State.blockMask e = 0 ∨ assocGet 0 q.progress q.block ≠ q.layer) then .pass
      else match State.nextToken e (s.markBits p e) q.token with
        | some i => .emit 2 q.layer i
        | none => .advance

/-- A descriptor tile of the output ring (Table 12-6). -/
def repairTile (tsize : Nat) (cs : List Nat) : List Row := rowOf 32 cs :: List.replicate (tsize - 1) 0
/-- The deviation of a measured key (R352). -/
def keyDeviation (tile : List Row) (stored : List (List Nat)) : Nat :=
  let devs := stored.zipIdx.flatMap fun h => h.1.zipIdx.map fun e =>
    f32Round ((bf16.value (rowBf16 (tile.getD (2 * h.2) 0) e.2)).add (bf16.value e.1).neg).abs
  devs.foldl f32Max 0
/-- Is a measured token marked (R352)? -/
def repairMarks (th dev : Nat) : Bool :=
  let t := f32Val th
  let d := f32Val dev
  !t.isNaN && t != .inf false && (t.lt (.fin false 0 0) || d.isNaN || t.lt d)
/-- The stored keys of a token, by head, from its entries and slots there. -/
def storedKeys (s : State) (p : Nat) (gs : List (KvEntry × Nat)) : List (List Nat) :=
  gs.map fun g => (List.range 128).map fun k => s.cohNat (s.keydef p) (g.1.pa + keyOff g.2 k) 2
/-- A token's entries and slots at a layer, by head: subcode 0x14 where a list has none, 0x12 for a column not granted (R335). -/
def tokenPlaces (d : Cmd) (l : Nat) (e : KvEntry) (i : Nat) : M (List (KvEntry × Nat)) := do
  let s ← get
  let heads := s.reqHeads (repairOps d).1
  match (List.range heads).mapM fun h => tokenIn heads d l h e i with
  | none => throw (.engine 0x14)
  | some gs =>
    needE (gs.all fun g => s.colGranted s.myPart g.1.col) 0x12
    return gs

/-- The ranges of a block that a step of a REPAIR reads at their homes: MARK and MEAS of its page, and the keys of a token's places, two bytes
each. -/
def repairReads (e : KvEntry) (gs : List (KvEntry × Nat)) : List (Nat × Nat) :=
  (e.pa + 32768, 16) :: gs.flatMap fun g => (List.range 128).map fun k => (g.1.pa + keyOff g.2 k, 2)
/-- The position after the block in progress. -/
def nextBlock (d : Cmd) : Cmd := { d with repair := { d.repair with block := d.repair.block + 1, token := 0, asked := false } }

/-- One action of a REPAIR. -/
def stepRepair (d : Cmd) : M (Option Cmd) := do
  let (r, ri, ro, first, _) := repairOps d
  let s ← get
  let p := s.myPart
  let q := d.repair
  let e := d.ents.getD q.block {}
  let act := repairNext s d
  needE (match act with | .restart | .nextLayer | .done => true | _ => !s.blockTaken d e || s.colGranted p e.col) 0x12
  upd fun s => match act with
    | .restart | .nextLayer | .done => s
    | _ => if s.blockTaken d e then (s.busSee p (repairReads e [])).seeProv p e.prov else s
  match act with
  | .restart =>
    awaitRoom d ro
    let layer := if q.stage = 1 then s.checkLayer p e.prov (repairLayer d) else q.layer
    upd fun s =>
      let x := s.ring s.myCore ri
      let s := s.setPtr s.myCore ri x.tail x.tail
      s.ringGive s.myCore ro (repairTile (s.ring s.myCore ro).tsize [3, layer, 0, 0, 0xFFFFFFFF, 0, blockIndex d e, 0])
    return some { d with repair := { q with restart := false, asked := false, token := 0 } }
  | .markStale =>
    let (_, d) ← takeDown d [e.col]
    upd fun s => s.setMarks p e (s.markBits p e ||| State.blockMask e) (s.measBits p e ||| State.blockMask e)
    return some (nextBlock d)
  | .emit stage layer i =>
    if stage = 1 then needE (decide (layer < s.reqLayers r)) 0x19
    awaitRoom d ro
    let pos := e.posbase + i
    let pre := if e.spl then s.prepos p e.prov + i else pos
    upd fun s => s.ringGive s.myCore ro (repairTile (s.ring s.myCore ro).tsize
      [stage, layer, pos, pre, if e.spl then e.prov else 0xFFFFFFFF, i, blockIndex d e, 0])
    return some { d with repair := { q with asked := true, token := i } }
  | .take =>
    awaitTile d ri
    let tile := s.headTile s.myCore ri
    if q.stage = 1 then
      let gs ← tokenPlaces d (s.checkLayer p e.prov (repairLayer d)) e q.token
      let (go, d) ← takeDown d (e.col :: gs.map (·.1.col))
      if !go then return some d
      let bit := 2 ^ (e.first + q.token)
      let mark := if repairMarks (repairThresh d) (keyDeviation tile (storedKeys s p gs)) then bit else 0
      let m := (s.markBits p e &&& (2 ^ 64 - 1 - bit)) ||| mark
      let meas := s.measBits p e ||| bit
      let all := State.blockMask e &&& meas == State.blockMask e
      let clean := all && m &&& State.blockMask e == 0
      upd fun s =>
        let s := s.busSee p (repairReads e gs)
        let s := (s.setMarks p e m meas).ringTake s.myCore ri
        if clean then s.settleBlock p r e else s
      let d := if clean then { d with repair := { q with progress := assocSet q.progress q.block 255 } } else d
      return some (if all then nextBlock d else { d with repair := { q with asked := false, token := q.token + 1 } })
    else
      let gs ← tokenPlaces d q.layer e q.token
      let (go, d) ← takeDown d (gs.map (·.1.col))
      if !go then return some d
      upd fun s => (gs.zipIdx.foldl (fun t g =>
        t.writeToken p g.1.1 g.1.2 (tile.getD (2 * g.2) 0) (tile.getD (2 * g.2 + 1) 0)) s).ringTake s.myCore ri
      return some { d with repair := { q with asked := false, token := q.token + 1 } }
  | .settle =>
    let clean := s.markBits p e &&& State.blockMask e == 0
    upd fun s => if clean then s.settleBlock p r e else s
    return some (nextBlock (if clean then { d with repair := { q with progress := assocSet q.progress q.block 255 } } else d))
  | .advance =>
    let v := if q.layer + 1 = s.reqLayers r then 255 else q.layer + 1
    let (_, d) ← takeDown d (if v = 255 then [e.col] else [])
    upd fun s =>
      let s := s.advanceBlock p r e q.layer v
      if v = 255 then s.setMarks p e (s.markBits p e &&& (2 ^ 64 - 1 - State.blockMask e)) (s.measBits p e) else s
    return some (nextBlock { d with repair := { q with progress := assocSet q.progress q.block v } })
  | .pass => return some (nextBlock d)
  | .nextLayer =>
    return some { d with repair := { q with stage := 2, layer := if q.stage = 1 then first else q.layer + 1, block := 0, token := 0 } }
  | .done => return none

/-- The position that a REPAIR has reached (R354): past the last block of a layer, the first of the next; none past the last layer, or without
blocks. -/
def repairReached (d : Cmd) : Option RepairPos :=
  let (_, _, _, first, last) := repairOps d
  let q := d.repair
  if (d.ents[q.block]?).isSome then some q
  else if d.ents.isEmpty || (q.stage == 2 && decide (last ≤ q.layer)) then none
  else some { q with stage := 2, layer := if q.stage = 1 then first else q.layer + 1, block := 0 }
/-- REPAIR stops at once at a pre-emption; its position is saved with the command (R354). A stale block that is processed inside the
command alone, and that the command has reached, restarts from layer 0. Where nothing is left to do nothing is left to restart. -/
def repairStopped (d : Cmd) : Cmd :=
  match repairReached d with
  | none => { d with repair := { d.repair with asked := false, token := 0, restart := false }, sent := 0, taken := [] }
  | some q =>
    let e := d.ents.getD q.block {}
    let back := q.stage = 2 && e.stale && !e.spl && assocGet 0 q.progress q.block == q.layer
    let q := { q with asked := false, token := 0, restart := true }
    { d with repair := if back then { q with layer := 0, progress := assocSet q.progress q.block 0 } else q, sent := 0, taken := [] }

end Sys2Proof.Machine
end

