-- ==== Sys2Proof/Machine/Copy.lean ====
section
/-! DEFINITION. Copy words (R135 to R137, R356 to R358, R360): GET, PUT, GETR, PUTR, FILL, GATHER, SCATTER, PUBLISH, XFER and
REDUCE. A long copy makes its progress page piece by page piece. -/
namespace Sys2Proof.Machine

/-! Sources and destinations (R356). -/

/-- Where a piece of a destination lies. -/
inductive Dest where
  | sp (off : Nat)
  | shadow (group : Nat) (buf : Bool) (key pa : Nat)
  deriving DecidableEq, Repr
/-- The group whose shadow a copy writes at a place: a valid group of the partition (R356). -/
def State.destGroup (s : State) (pa : Nat) : Option Nat := (s.groupAt pa).filter fun g => s.grpIn s.myPart g
/-- A destination piece inside a page: the scratchpad where the word allows it, or the shadow of a valid group of the partition.
`grp` is the group in which the destination began: a range that goes on past its end is refused there (R356). -/
def destPiece (spOk : Bool) (grp : Option Nat) (va n : Nat) : M Dest := do
  if isWindow va then
    needE (spOk && grp.isNone) 0x12
    let off ← spRange va n
    return .sp off
  else
    let a ← engineXlate .store va
    let s ← get
    match s.destGroup a.pa with
    | none => throw (.engine 0x12)
    | some g =>
      needE ((match grp with | some h => h == g | none => true) && decide (a.pa + n ≤ s.grpVis g + s.grpSize g)) 0x12
      let b := !s.grpCur g
      return .shadow g b a.key (s.grpBuf g b + (a.pa - s.grpVis g))
/-- The group of a destination piece. -/
def Dest.group : Dest → Option Nat
  | .sp _ => none
  | .shadow g _ _ _ => some g
/-- Waits while a latch holds the buffer (R137). -/
def awaitDest : Dest → M Unit
  | .sp _ => return ()
  | .shadow g b _ _ => do
    let s ← get
    await (!s.latched g b)
/-- Writes a piece: in the scratchpad, or performed at .pkg in the shadow (R135). -/
def writeDest (t : Dest) (bs : List Byte) : M Unit :=
  upd fun s => match t with
    | .sp off => s.spWrite s.myCore off bs
    | .shadow _ _ key pa => s.homeWrite key s.myPart pa bs
/-- The destination pieces of a range, all in the group of its first byte or all in the scratchpad. -/
def destPieces (spOk : Bool) (grp : Option Nat) (va n : Nat) : M (List (Dest × Nat × Nat)) := do
  let r ← (pieces va n).foldlM (init := (([] : List (Dest × Nat × Nat)), grp)) fun acc pc => do
    let t ← destPiece spOk acc.2 pc.1 pc.2
    return (acc.1 ++ [(t, pc)], acc.2.or t.group)
  return r.1
/-- Writes a range from bytes at hand, waiting for every piece first; the answer is the group written. -/
def writeRange (spOk : Bool) (grp : Option Nat) (va : Nat) (bs : List Byte) : M (Option Nat) := do
  let l ← destPieces spOk grp va bs.length
  for e in l do awaitDest e.1
  for e in l do writeDest e.1 ((bs.drop (e.2.1 - va)).take e.2.2)
  return grp.or (l.findSome? fun e => e.1.group)
/-- Every buffer that a range would write, as translation stands: a start waits for the latches on all of them (R137, R356). -/
def awaitShadows (va n : Nat) : M Unit := do
  let s ← get
  await (!s.writesLatched s.myPart s.unitSuper va n)
/-- The start check of a destination: its first piece, and the latches on all that it would write. -/
def startDest (spOk : Bool) (va n : Nat) : M Unit := do
  let t ← destPiece spOk none va (min n (4096 - va % 4096))
  awaitDest t
  awaitShadows va n
/-- The length of the next step of a copy after `done` of `n` bytes: inside a page of `a`, so that it ends at a line's end. -/
def stepLen (a n done : Nat) : Nat := min (n - done) (4096 - (a + done) % 4096)
/-- The group in which a copy's destination began, as the first step has noted it (in `caps`, plus one). -/
def Cmd.destGrp (d : Cmd) : Option Nat := match (nth d.caps 0).toNat with | 0 => none | g + 1 => some g
def Cmd.setDestGrp (d : Cmd) (g : Option Nat) : Cmd :=
  { d with caps := match g with | some g => [BitVec.ofNat 64 (g + 1)] | none => [] }

/-- Raises subcode 0x16 in a speculative iteration (R360). -/
def notInIter : M Unit := do
  let s ← get
  needE (!s.me.spec) 0x16
/-- The first piece of a destination of FILL, SCATTER or AQ.DRAIN, which raise subcode 0x16 in an iteration where it is a shadow (R360). -/
def iterDest (va n : Nat) : M Dest := do
  let t ← destPiece true none va (min n (4096 - va % 4096))
  if t.group.isSome then notInIter
  return t

/-- Limits of a count (Table 12-7). -/
def countField (v : Word) (hi : Nat) : M Unit := field (decide (1 ≤ v.toNat) && decide (v.toNat ≤ hi))

/-! The words. -/

def execGet (s : State) : Out := runWord (launchWord 0xC0 3 .get fun l => countField (nth l 2) (2 ^ 32 - 1)) s
def execPut (s : State) : Out := runWord (launchWord 0xC1 3 .put fun l => do
  needE (isWindow (nth l 0).toNat) 0x09
  countField (nth l 2) (2 ^ 32 - 1)) s
def execGetr (s : State) : Out := runWord (launchWord 0xC2 3 .getr fun l => do
  ringField (nth l 1)
  countField (nth l 2) (2 ^ 32 - 1)) s
def execPutr (s : State) : Out := runWord (launchWord 0xC3 3 .putr fun l => do
  ringField (nth l 0)
  countField (nth l 2) (2 ^ 32 - 1)) s
def execFill (s : State) : Out := runWord (launchWord 0xC4 3 .fill fun l => do
  field ((nth l 2).toNat != 0 && (nth l 2).toNat % 8 == 0)
  needE ((nth l 0).toNat % 8 == 0) 0x1A) s
def execGather (s : State) : Out := runWord (launchWord 0xC5 4 .gather fun l => do
  countField (nth l 2) (2 ^ 20)
  countField (nth l 3) 65536) s
def execScatter (s : State) : Out := runWord (launchWord 0xC6 4 .scatter fun l => do
  countField (nth l 2) (2 ^ 20)
  countField (nth l 3) 65536) s
def execPublish (s : State) : Out := runWord (launchWord 0xC7 1 .publish fun _ => pure ()) s
def execXfer (s : State) : Out := runWord (launchWord 0xC8 3 .xfer fun l => field ((nth l 2).toNat != 0)) s

/-- Source, destination, length and whether the scratchpad may be the destination, of GET, PUT and XFER. -/
def copyOps (d : Cmd) : Nat × Nat × Nat × Bool :=
  let a := (nth d.ops 0).toNat
  let b := (nth d.ops 1).toNat
  match d.word with
  | .xfer => (b, a, (nth d.ops 2).toNat, false)
  | .put => (a, b, (nth d.ops 2).toNat, false)
  | _ => (a, b, (nth d.ops 2).toNat, true)
/-- GET, PUT and XFER start when no latch holds a buffer that they would write. -/
def startCopy (d : Cmd) : M Cmd := do
  let (_, dst, n, spOk) := copyOps d
  if spOk then pure () else notInIter
  startDest spOk dst n
  return d
def stepCopy (d : Cmd) : M (Option Cmd) := do
  let (src, dst, n, spOk) := copyOps d
  let k := stepLen src n d.prog
  let (bs, d) ← readSrc d (src + d.prog) k
  let g ← writeRange spOk d.destGrp (dst + d.prog) bs
  return if n ≤ d.prog + k then none else some ({ d with prog := d.prog + k }.setDestGrp g)

/-- The 8-byte value of FILL repeated over `n` bytes. -/
def fillBytes (v : Word) (n : Nat) : List Byte := (List.range n).map fun i => byteAt v (i % 8)
def startFill (d : Cmd) : M Cmd := do
  let dst := (nth d.ops 0).toNat
  let n := (nth d.ops 2).toNat
  awaitDest (← iterDest dst n)
  awaitShadows dst n
  return d
def stepFill (d : Cmd) : M (Option Cmd) := do
  let dst := (nth d.ops 0).toNat
  let n := (nth d.ops 2).toNat
  let k := stepLen dst n d.prog
  let g ← writeRange true d.destGrp (dst + d.prog) (fillBytes (nth d.ops 1) k)
  return if n ≤ d.prog + k then none else some ({ d with prog := d.prog + k }.setDestGrp g)

def startGetr (d : Cmd) : M Cmd := do
  let _ ← useRing (nth d.ops 1).toNat
  return d
/-- One tile from memory (R158). -/
def stepGetr (d : Cmd) : M (Option Cmd) := do
  let n := (nth d.ops 1).toNat
  awaitRoom d n
  let s ← get
  let size := (s.ring s.myCore n).tsize * 256
  let (bs, d') ← readAhead d (nth d.ops 0).toNat ((nth d.ops 2).toNat * size) (d.prog * size) size
  upd fun s => s.ringGive s.myCore n ((List.range (size / 256)).map fun j =>
    BitVec.ofNat 2048 (natOfBytes ((bs.drop (256 * j)).take 256)))
  return if (nth d.ops 2).toNat ≤ d.prog + 1 then none else some { d' with prog := d.prog + 1 }
def startPutr (d : Cmd) : M Cmd := do
  notInIter
  let _ ← useRing (nth d.ops 0).toNat
  let s ← get
  startDest false (nth d.ops 1).toNat ((nth d.ops 2).toNat * ((s.ring s.myCore (nth d.ops 0).toNat).tsize * 256))
  return d
/-- One tile to a shadow. -/
def stepPutr (d : Cmd) : M (Option Cmd) := do
  let n := (nth d.ops 0).toNat
  awaitTile d n
  let s ← get
  let tile := s.headTile s.myCore n
  let g ← writeRange false d.destGrp ((nth d.ops 1).toNat + d.prog * (tile.length * 256))
    (tile.flatMap fun r => bytesOfNat 256 r.toNat)
  upd fun s => s.ringTake s.myCore n
  return if (nth d.ops 2).toNat ≤ d.prog + 1 then none else some ({ d with prog := d.prog + 1 }.setDestGrp g)

def startGather (d : Cmd) : M Cmd := do
  startDest true (nth d.ops 1).toNat ((nth d.ops 2).toNat * (nth d.ops 3).toNat)
  return d
/-- One element of a gather. -/
def stepGather (d : Cmd) : M (Option Cmd) := do
  let size := (nth d.ops 3).toNat
  let n := (nth d.ops 2).toNat
  let (a, d) ← tableEntry d (nth d.ops 0).toNat n
  let (bs, d) ← readSrc d a size
  let g ← writeRange true d.destGrp ((nth d.ops 1).toNat + d.prog * size) bs
  return if n ≤ d.prog + 1 then none else some ({ d with prog := d.prog + 1, tab := d.tab.drop 8 }.setDestGrp g)
/-- The addresses in a table of a GATHER or SCATTER of a context, those that can be read as translation stands. -/
def State.tableAddrs (s : State) (c a n : Nat) : List Nat :=
  let x := s.ctx c
  (List.range n).filterMap fun i =>
    if isWindow a then some ((s.core (coreOf c)).sp.nat (scratchOff a + 8 * i) 8)
    else (s.vNat x.partNo ((x.running.map (·.level)).getD false) (a + 8 * i) 8).toOption
def startScatter (d : Cmd) : M Cmd := do
  let n := (nth d.ops 2).toNat
  let (a, d) ← tableEntry d (nth d.ops 1).toNat n
  let size := (nth d.ops 3).toNat
  awaitDest (← iterDest a size)
  let s ← get
  for va in s.tableAddrs s.cur (nth d.ops 1).toNat n do awaitShadows va size
  return d
/-- One element of a scatter. -/
def stepScatter (d : Cmd) : M (Option Cmd) := do
  let size := (nth d.ops 3).toNat
  let n := (nth d.ops 2).toNat
  let (a, d) ← tableEntry d (nth d.ops 1).toNat n
  let _ ← iterDest a size
  let (bs, d) ← readAhead d (nth d.ops 0).toNat (n * size) (d.prog * size) size
  let _ ← writeRange true none a bs
  return if n ≤ d.prog + 1 then none else some { d with prog := d.prog + 1, tab := d.tab.drop 8 }

/-- PUBLISH starts: the group must be the partition's and valid (R357). -/
def startPublish (d : Cmd) : M Cmd := do
  notInIter
  let g := (nth d.ops 0).toNat
  let s ← get
  needE (decide (g < 256) && s.grpIn s.myPart g && s.grpValid g) 0x13
  return d
/-- The exchange of current and shadow (R137). -/
def State.flipGroup (s : State) (g : Nat) : State :=
  s.tput (grpAddr g + 28) 1 ((s.tget (grpAddr g + 28) 1) ^^^ 4)
def stepPublish (d : Cmd) : M (Option Cmd) := do
  upd fun s => s.flipGroup (nth d.ops 0).toNat
  return none

/-! REDUCE (R358). -/

def execReduce (s : State) : Out := runWord (launchWord 0xC9 4 .reduce fun l => do
  needE (isWindow (nth l 0).toNat) 0x09
  needE ((nth l 0).toNat % 4 == 0) 0x1A
  countField (nth l 1) 65536
  field ((nth l 1).toNat % 4 == 0)
  let op := nth l 2
  field (onlyBits op 0x1FFFF01FFFF0F && decide (opBits op 3 0 < 4) && decide (opBits op 48 32 ≤ opBits op 24 8))
  field (onlyBits (nth l 3) 0x7FFF)) s

/-- Collective number, route, operation with N, rank and bytes. -/
def reduceOps (d : Cmd) : Nat × Nat × Word × Nat × Nat :=
  let op := nth d.ops 2
  (opBits (nth d.ops 3) 11 0, opBits (nth d.ops 3) 14 12, op &&& 0x1FFFF0F, opBits op 48 32, (nth d.ops 1).toNat)
def State.collective (s : State) (p n : Nat) : Collective := assocGet {} (s.part p).collectives n
def State.setCollective (s : State) (p n : Nat) (x : Collective) : State :=
  s.modPart p fun q => { q with collectives := assocSet q.collectives n x }
/-- Does a participant of the partition still wait for the result of a collective? -/
def State.reducing (s : State) (p n : Nat) : Bool :=
  s.ctxs.any fun e => e.2.partNo == p && e.2.streams.toList.any fun k => k.started.any fun d =>
    d.word == .reduce && (reduceOps d).1 == n
/-- An arrival (R358): none for a mismatch or a rank that has arrived. -/
def State.arrive (s : State) (p n route : Nat) (op : Word) (bytes : Nat) (x : Contribution) : Option State :=
  let c := s.collective p n
  if c.parts.isEmpty then
    some (s.setCollective p n { op := op, bytes := bytes, route := route, parts := [x], result := none })
  else if c.op = op ∧ c.bytes = bytes ∧ c.route = route ∧ !c.parts.any (·.rank == x.rank) then
    some (s.setCollective p n { c with parts := c.parts ++ [x] })
  else none
/-- Is a collective of a route tag lost: over Tazal, while no route remains to a package of the domain (R407, log 18)? -/
def State.routeLost (s : State) (route : Nat) : Bool := route == 7 && s.peers.any fun p => !s.reaches p
/-- A stream takes BARRIER at a command that ends without its result (R407). -/
def State.barrierFault (s : State) (c k off : Nat) : State :=
  s.modStream c k fun x =>
    { x with fault := x.fault.or (some { code := 0x13, sub := 0, off := off }), queue := [], fetch := [], stopped := true }
/-- REDUCE starts: its contribution arrives, once the previous use of the number is over; over Tazal it joins the collectives of
every link that leads to a peer. -/
def startReduce (d : Cmd) : M Cmd := do
  notInIter
  let (n, route, op, rank, bytes) := reduceOps d
  let off ← spRange (nth d.ops 0).toNat bytes
  let s ← get
  let p := s.myPart
  let c := s.collective p n
  await (c.result.isNone || !s.reducing p n)
  let s := if c.result.isSome then s.setCollective p n {} else s
  if s.routeLost route then
    set s
    return d
  match s.arrive p n route op bytes { rank := rank, owner := some (s.cur, s.curK), data := (s.core s.myCore).sp.bytes off bytes } with
  | some t =>
    set (if route = 7 then t.peerEdges.foldl (fun u e => u.linkPush e .collectives) t else t)
    return d
  | none => throw (.engine 0x18)
/-- The participant's buffer takes the result; one whose route is lost ends with BARRIER. -/
def stepReduce (d : Cmd) : M (Option Cmd) := do
  let (n, route, _, _, bytes) := reduceOps d
  let s ← get
  match (s.collective s.myPart n).result with
  | none =>
    await (s.routeLost route)
    upd fun s => s.barrierFault s.cur s.curK d.off
    return none
  | some bs =>
    let off ← spRange (nth d.ops 0).toNat bytes
    upd fun s => s.spWrite s.myCore off bs
    return none

/-- One element of a reduction over 4-byte codes in rank order (R56, R358). A NaN result is the canonical one, of one participant too (R45). -/
def reduceElem (op : Nat) (l : List Nat) : Nat :=
  match op with
  | 0 => f32Canon (tree f32Add 0 l)
  | 1 => tree (fun a b => (a + b) % 2 ^ 32) 0 l
  | 2 => f32Canon (tree f32Max 0 l)
  | _ => f32Canon (tree f32Min 0 l)
/-- Places a contribution in rank order. -/
def insertRank (x : Contribution) : List Contribution → List Contribution
  | [] => [x]
  | y :: l => if x.rank < y.rank then x :: y :: l else y :: insertRank x l
/-- When every contribution has arrived, the result stands for every participant. -/
def State.reduceComplete (s : State) (p n : Nat) : State :=
  let c := s.collective p n
  if c.result.isSome || c.parts.isEmpty || c.parts.length != bitsOf c.op.toNat 24 8 + 1 then s
  else
    let parts := c.parts.foldr insertRank []
    let r := (List.range (c.bytes / 4)).flatMap fun i =>
      bytesOfNat 4 (reduceElem (bitsOf c.op.toNat 3 0) (parts.map fun x => natOfBytes ((x.data.drop (4 * i)).take 4)))
    s.setCollective p n { c with result := some r }

end Sys2Proof.Machine
end

