-- ==== Sys2Proof/Machine/Access.lean ====
section
/-! DEFINITION. Access words: the address nest of each access stream, AQ.EMIT, AQ.DRAIN and AQ.WAIT (R155, R157, R359). -/
namespace Sys2Proof.Machine

/-! The nest. -/

/-- A level of a nest by number. -/
def Nest.level (n : Nest) (i : Nat) : NestLevel :=
  match i with | 0 => n.l0 | 1 => n.l1 | 2 => n.l2 | _ => n.l3
def Nest.setLevel (n : Nest) (i : Nat) (l : NestLevel) : Nest :=
  match i with
  | 0 => { n with l0 := l } | 1 => { n with l1 := l } | 2 => { n with l2 := l } | _ => { n with l3 := l }
/-- The position goes back to the first address. -/
def Nest.rewind (n : Nest) : Nest :=
  [0, 1, 2, 3].foldl (fun m i => m.setLevel i { m.level i with idx := 0 }) n
/-- The address at the position. -/
def Nest.addr (n : Nest) : Word :=
  [0, 1, 2, 3].foldl (fun a i => a + BitVec.ofNat 64 (n.level i).idx * (n.level i).stride) n.base
/-- The position moves on from level `i` up, level 0 fastest; after the last address it is the first again. -/
def Nest.stepFrom (n : Nest) : List Nat → Nest
  | [] => n
  | i :: is =>
    let l := n.level i
    if l.idx + 1 < l.count then n.setLevel i { l with idx := l.idx + 1 }
    else (n.setLevel i { l with idx := 0 }).stepFrom is
def Nest.next (n : Nest) : Nest := n.stepFrom [0, 1, 2, 3]

/-- Changes the executing stream's nest. -/
def modNest (f : Nest → Nest) : M Unit := upd fun s => s.modMyStream fun t => { t with nest := f t.nest }

/-! The words. -/

def execAqBase (s : State) : Out := runWord (launchWord 0xE0 1 .aqBase fun l => do
  field (opBits (nth l 0) 59 57 == 0 && decide (opBits (nth l 0) 63 60 < 9))
  needE (opBits (nth l 0) 56 0 % 64 == 0) 0x1A) s
def execAqDim (s : State) : Out := runWord (launchWord 0xE1 3 .aqDim fun l => do
  field (decide ((nth l 0).toNat < 4))
  countField (nth l 1) (2 ^ 32)
  field ((nth l 2).toNat % 64 == 0)) s
def execAqEmit (q : Fin 4) (s : State) : Out := runWord (launchWord 0xE2 1 (.aqEmit q) fun l => countField (nth l 0) (2 ^ 24)) s
def execAqDrain (m : Fin 4) (s : State) : Out := runWord (launchWord 0xE3 1 (.aqDrain m) fun l => countField (nth l 0) (2 ^ 24)) s
def execAqWait (s : State) : Out := runWord (launchWord 0xE4 0 .aqWait fun _ => pure ()) s

def stepAqBase (d : Cmd) : M (Option Cmd) := do
  let v := nth d.ops 0
  modNest fun n => { n with base := BitVec.ofNat 64 (opBits v 56 0), fmt := BitVec.ofNat 4 (opBits v 63 60) }.rewind
  return none
def stepAqDim (d : Cmd) : M (Option Cmd) := do
  modNest fun n => (n.setLevel (nth d.ops 0).toNat { count := (nth d.ops 1).toNat, stride := nth d.ops 2 }).rewind
  return none
/-- One entry into an input queue. -/
def stepAqEmit (q : Fin 4) (d : Cmd) : M (Option Cmd) := do
  let s ← get
  await (decide (s.me.qin[q].length < 8))
  let n := s.myStream.nest
  let (bs, d) ← readSrc d n.addr.toNat 256
  upd fun s => s.modMe fun x =>
    { x with qin := x.qin.set q (x.qin[q] ++ [{ tag := n.fmt, data := BitVec.ofNat 2048 (natOfBytes bs) }]) }
  modNest Nest.next
  return if (nth d.ops 0).toNat ≤ d.prog + 1 then none else some { d with prog := d.prog + 1 }
/-- One entry out of an output queue, once the vector unit has written it. -/
def stepAqDrain (m : Fin 4) (d : Cmd) : M (Option Cmd) := do
  let s ← get
  match s.me.qout[m] with
  | [] => stall
  | e :: es =>
    await (!s.me.wq.any fun w => w.vec && w.eff == .nothing)
    let a := s.myStream.nest.addr.toNat
    let _ ← iterDest a 256
    let _ ← writeRange true none a (bytesOfNat 256 e.data.toNat)
    upd fun s => s.modMe fun x => { x with qout := x.qout.set m es }
    modNest Nest.next
    return if (nth d.ops 0).toNat ≤ d.prog + 1 then none else some { d with prog := d.prog + 1 }

end Sys2Proof.Machine
end

