-- ==== Sys2Proof/Machine/Flags.lean ====
section
/-! DEFINITION. Comparisons. The machine has no flags (R246): a comparison writes 1 or 0 to a register, or bits of a mask. -/
namespace Sys2Proof.Machine

/-- 1 or 0, as comparisons write it (Table 10-2). -/
def boolWord (b : Bool) : Word := if b then 1 else 0

/-- CMP.EQ and its kin (Table 10-2). -/
def cmpEqW (a b : Word) : Word := boolWord (a == b)
def cmpNeW (a b : Word) : Word := boolWord (a != b)
def cmpLtW (a b : Word) : Word := boolWord (a.slt b)
def cmpLtuW (a b : Word) : Word := boolWord (a.ult b)
def cmpLeW (a b : Word) : Word := boolWord (a.sle b)
def cmpLeuW (a b : Word) : Word := boolWord (a.ule b)

/-- Signed and unsigned minimum and maximum (Table 10-2). -/
def minW (a b : Word) : Word := if a.slt b then a else b
def maxW (a b : Word) : Word := if a.slt b then b else a
def minuW (a b : Word) : Word := if a.ult b then a else b
def maxuW (a b : Word) : Word := if a.ult b then b else a

/-- Conditions of the branches (R249). -/
def isNeg (a : Word) : Bool := a.msb

end Sys2Proof.Machine
end

