-- ==== Sys2Proof/Machine/Atomics.lean ====
section
/-! DEFINITION. Atomics and CAS (R107, R109, R133, R257, R258). -/
namespace Sys2Proof.Machine

/-- Bytes of a width. -/
def Width.size : Width → Nat
  | .w => 4 | .d => 8
/-- The low bytes of a value, sign-extended: how signed atomics compare and how the old value returns. -/
def narrowS (z : Width) (v : Word) : Word := sextBytes (v.toNat % 2 ^ (8 * Width.size z)) (Width.size z)
def narrowU (z : Width) (v : Word) : Word := BitVec.ofNat 64 (v.toNat % 2 ^ (8 * Width.size z))

/-- Replaces bytes at the memory home or the cluster L2, as the scope says (R133), and answers the old bytes. -/
def atomicMem (acc : Access) (size : Nat) (sc : Scope) (f : Nat → Nat) : M Nat := do
  let s ← get
  let core := s.myCore
  let p := s.myPart
  let line := acc.pa / 64
  await (s.farRoom acc.pa)
  let far := match region acc.pa with | .cxl => false | _ => isUncached acc || widerThanClu sc
  let s := s.l1Flush (s.l1Core core line) line p
  if far then
    let s := (s.farSend acc.pa).recall line p
    let old := natOfBytes (s.homeBytes acc.key acc.pa size)
    set (s.homeWriteLine acc.key acc.pa (bytesOfNat size (f old)))
    return old
  else
    let s := s.l2Fill (clusterOf core) acc.key p line true
    let old := natOfBytes ((List.range size).map fun i => byteAt (s.l2Data (clusterOf core) line) (acc.pa % 64 + i))
    set (s.sectorWrite (clusterOf core) line (BitVec.ofNat 512 (f old % 2 ^ (8 * size) * 2 ^ (8 * (acc.pa % 64))))
      (byteMask (acc.pa % 64) size))
    return old

/-- An atomic: checks, the data operands, release, the indivisible change, acquire; the old value returns extended (R257). -/
def atomic (z : Width) (sc : Scope) (d : Reg) (va : Word) (zero : Bool) (data : M (Word → Word)) : M Unit := do
  let size := Width.size z
  let place ← checkAccess .store va size true true
  let f ← data
  let x ← gets State.me
  match place with
  | .table _ => do noSpec 0; trap 0x0A va
  | .scratch _ => pure ()
  | .mem _ => noSpec 0
  await (decide (x.loads < 12) && decide (x.sq.length < 12))
  destG d none
  rel sc
  let g := fun (old : Nat) => (f (BitVec.ofNat 64 old)).toNat % 2 ^ (8 * size)
  let old ← (match place with
    | .scratch off => do
      let s ← get
      let old := (s.core s.myCore).sp.nat off size
      upd fun s => s.modCore s.myCore fun n => { n with sp := n.sp.putNat off size (g old) }
      return old
    | .mem acc => do
      let acc ← steerM acc
      atomicMem acc size sc g
    | .table _ => return 0 : M Nat)
  acq sc
  wrLater d (if zero then BitVec.ofNat 64 old else sextBytes old size) false true

/-- The common form of AMO: operands ga and gb. -/
def amo (z : Width) (sc : Scope) (d a b : Reg) (zero : Bool) (f : Word → Word → Word) : M Unit := do
  sources [a, b]
  let va ← rdG a
  atomic z sc d va zero do
    let v ← rdG b
    return fun old => f old v

def execAmoAdd (z : Width) (sc : Scope) (d a b : Reg) (s : State) : Out := runSyl 0 (amo z sc d a b false (· + ·)) s
def execAmoMin (z : Width) (sc : Scope) (d a b : Reg) (s : State) : Out := runSyl 0 (amo z sc d a b false (fun x y => minW (narrowS z x) (narrowS z y))) s
def execAmoMax (z : Width) (sc : Scope) (d a b : Reg) (s : State) : Out := runSyl 0 (amo z sc d a b false (fun x y => maxW (narrowS z x) (narrowS z y))) s
def execAmoMinu (z : Width) (sc : Scope) (d a b : Reg) (s : State) : Out := runSyl 0 (amo z sc d a b true (fun x y => minuW (narrowU z x) (narrowU z y))) s
def execAmoMaxu (z : Width) (sc : Scope) (d a b : Reg) (s : State) : Out := runSyl 0 (amo z sc d a b true (fun x y => maxuW (narrowU z x) (narrowU z y))) s
def execAmoAnd (z : Width) (sc : Scope) (d a b : Reg) (s : State) : Out := runSyl 0 (amo z sc d a b false (· &&& ·)) s
def execAmoOr (z : Width) (sc : Scope) (d a b : Reg) (s : State) : Out := runSyl 0 (amo z sc d a b false (· ||| ·)) s
def execAmoXor (z : Width) (sc : Scope) (d a b : Reg) (s : State) : Out := runSyl 0 (amo z sc d a b false (· ^^^ ·)) s
def execAmoSwap (z : Width) (sc : Scope) (d a b : Reg) (s : State) : Out := runSyl 0 (amo z sc d a b false (fun _ y => y)) s
/-- CAS (R258): gd is the expected value and takes the old one. -/
def execCas (z : Width) (sc : Scope) (d a b : Reg) (s : State) : Out :=
  runSyl 0 (do
    sources [a, b, d]
    let va ← rdG a
    atomic z sc d va false do
      let v ← rdG b
      let e ← rdG d
      return fun old => if narrowU z old = narrowU z e then v else old) s

end Sys2Proof.Machine
end

