-- ==== Sys2Proof/Machine/Branch.lean ====
section
/-! DEFINITION. NOP, branches, jumps and calls (R223, R249, R250). A taken transfer is left in `npc`, which takes effect last
in the bundle (R224). -/
namespace Sys2Proof.Machine

/-- A transfer to an address. -/
def goTo (target : Word) : M Unit := upd fun s => { s with npc := some target }
/-- PC + 16 × offset (R227, R249). -/
def relTarget (off : Word) : M Word := do return (← get).me.pc + 16 * off
/-- A conditional branch. -/
def branchIf (f : Word → Bool) (a : Reg) (off : BitVec 15) : M Unit := do
  let x ← rdG a
  let o ← immS off
  if f x then goTo (← relTarget o) else return ()
/-- The link register takes the address after the bundle (R71). -/
def link : M Unit := do
  let pc ← gets fun s => s.me.pc
  wrG 31 (pc + 16) 1
/-- A register target must be a bundle address (R249). -/
def regTarget (a : Reg) : M Word := do
  let x ← rdG a
  need (x.toNat % 16 == 0) 0x08 x
  return x

def execNop (s : State) : Out := runSyl 0 (pure ()) s
def execBrEqz (a : Reg) (off : BitVec 15) (s : State) : Out := runSyl 0 (branchIf (· == 0) a off) s
def execBrNez (a : Reg) (off : BitVec 15) (s : State) : Out := runSyl 0 (branchIf (· != 0) a off) s
def execBrLtz (a : Reg) (off : BitVec 15) (s : State) : Out := runSyl 0 (branchIf isNeg a off) s
def execBrGez (a : Reg) (off : BitVec 15) (s : State) : Out := runSyl 0 (branchIf (fun x => !isNeg x) a off) s
def execJmp (off : BitVec 20) (s : State) : Out := runSyl 0 (do goTo (← relTarget (← immS off))) s
def execCall (off : BitVec 20) (s : State) : Out := runSyl 0 (do link; goTo (← relTarget (← immS off))) s
def execJmpi (a : Reg) (s : State) : Out := runSyl 0 (do goTo (← regTarget a)) s
def execCalli (a : Reg) (s : State) : Out := runSyl 0 (do let t ← regTarget a; link; goTo t) s

end Sys2Proof.Machine
end

