-- ==== Sys2Proof/Machine/Signature.lean ====
section
/-! DEFINITION. The check of an image's signature (R222) and the signing of a report (R409): SHA-384 and ECDSA over P-384, as FIPS 180-4, FIPS 186-5 and
SP 800-186 define them (log 4). Numbers in byte strings stand most significant byte first. -/
namespace Sys2Proof.Machine

/-- The number that a byte string gives, most significant byte first. -/
def natOfBig (bs : List Byte) : Nat := bs.foldl (fun n b => n * 256 + b.toNat) 0
/-- The `k` bytes of a number, most significant first. -/
def bigBytes (k n : Nat) : List Byte := (bytesOfNat k n).reverse

/-! SHA-384. -/

/-- The first 80 primes. -/
def shaPrimes : List Nat :=
  (List.range 410).filter fun n => decide (2 ≤ n) && (List.range 21).all fun d => decide (d < 2) || n == d || n % d != 0
/-- The greatest number below 2^k whose power `e` is at most `n`, found bit by bit from `acc`. -/
def rootBits (e n : Nat) : Nat → Nat → Nat
  | 0, acc => acc
  | k + 1, acc => rootBits e n k (if (acc + 2 ^ k) ^ e ≤ n then acc + 2 ^ k else acc)
/-- The first 64 bits of the fraction of the root `e` of a number. -/
def fracRoot (e n : Nat) : Word := BitVec.ofNat 64 (rootBits e (n * 2 ^ (64 * e)) 72 0)
/-- The round constants and the initial value. -/
def shaK : List Word := shaPrimes.map (fracRoot 3)
def shaInit : List Word := ((shaPrimes.drop 8).take 8).map (fracRoot 2)

/-- The functions of the message schedule and of a round. -/
def shaMix0 (x : Word) : Word := x.rotateRight 1 ^^^ x.rotateRight 8 ^^^ (x >>> 7)
def shaMix1 (x : Word) : Word := x.rotateRight 19 ^^^ x.rotateRight 61 ^^^ (x >>> 6)
def shaSum0 (x : Word) : Word := x.rotateRight 28 ^^^ x.rotateRight 34 ^^^ x.rotateRight 39
def shaSum1 (x : Word) : Word := x.rotateRight 14 ^^^ x.rotateRight 18 ^^^ x.rotateRight 41
/-- The schedule of a block, latest word first, lengthened by `n` words. -/
def shaSchedule : Nat → List Word → List Word
  | 0, ws => ws
  | n + 1, ws =>
    shaSchedule n ((shaMix1 (ws.getD 1 0) + ws.getD 6 0 + shaMix0 (ws.getD 14 0) + ws.getD 15 0) :: ws)
/-- One round, with the sum of its constant and schedule word. -/
def shaRound (h : List Word) (kw : Word) : List Word :=
  match h with
  | [a, b, c, d, e, f, g, x] =>
    let t1 := x + shaSum1 e + ((e &&& f) ^^^ (~~~e &&& g)) + kw
    let t2 := shaSum0 a + ((a &&& b) ^^^ (a &&& c) ^^^ (b &&& c))
    [t1 + t2, a, b, c, d + t1, e, f, g]
  | _ => h
/-- One block of 128 bytes. -/
def shaBlock (ks h : List Word) (block : List Byte) : List Word :=
  let w0 := (List.range 16).map fun i => BitVec.ofNat 64 (natOfBig ((block.drop (8 * i)).take 8))
  let ws := (shaSchedule 64 w0.reverse).reverse
  List.zipWith (· + ·) h ((List.zipWith (· + ·) ks ws).foldl shaRound h)
/-- `n` blocks in turn. -/
def shaBlocks (ks : List Word) : Nat → List Word → List Byte → List Word
  | 0, h, _ => h
  | n + 1, h, bs => shaBlocks ks n (shaBlock ks h (bs.take 128)) (bs.drop 128)
/-- The padding of a message of `n` bytes. -/
def shaPad (n : Nat) : List Byte := 0x80 :: List.replicate ((239 - n % 128) % 128) 0 ++ bigBytes 16 (8 * n)
/-- The digest of a message, 48 bytes. -/
def sha384 (m : List Byte) : List Byte :=
  let bs := m ++ shaPad m.length
  ((shaBlocks shaK (bs.length / 128) shaInit bs).take 6).flatMap fun w => bigBytes 8 w.toNat

/-! P-384. -/

/-- The field, the coefficient b, the order and the base point of the curve. -/
def p384 : Nat := 2 ^ 384 - 2 ^ 128 - 2 ^ 96 + 2 ^ 32 - 1
def p384B : Nat := 0xB3312FA7E23EE7E4988E056BE3F82D19181D9C6EFE8141120314088F5013875AC656398D8A2ED19D2A85C8EDD3EC2AEF
def p384N : Nat := 0xFFFFFFFFFFFFFFFFFFFFFFFFFFFFFFFFFFFFFFFFFFFFFFFFC7634D81F4372DDF581A0DB248B0A77AECEC196ACCC52973
def p384G : Nat × Nat :=
  (0xAA87CA22BE8B05378EB1C71EF320AD746E1D3B628BA79B9859F741E082542A385502F25DBF55296C3A545E3872760AB7,
   0x3617DE4A96262C6F5D9E98BF9292DC29F8F41DBD289A147CE9DA3113B5F0B8C00A60B1CE1D7E819D7A431D7C90EA0E5F)

/-- A power modulo `m`, over the low `k` bits of the exponent. -/
def powMod (m : Nat) : Nat → Nat → Nat → Nat
  | 0, _, _ => 1
  | k + 1, x, e => (if e % 2 = 1 then x else 1) * powMod m k (x * x % m) (e / 2) % m
/-- The inverse modulo a prime below 2^384. -/
def invMod (m x : Nat) : Nat := powMod m 384 x (m - 2)
/-- The sum of two points of the curve; none is the point at infinity. -/
def ecAdd : Option (Nat × Nat) → Option (Nat × Nat) → Option (Nat × Nat)
  | none, q => q
  | p, none => p
  | some (x1, y1), some (x2, y2) =>
    if x1 = x2 ∧ (y1 + y2) % p384 = 0 then none
    else
      let slope := if x1 = x2 then (3 * (x1 * x1) + p384 - 3) * invMod p384 (2 * y1) % p384
        else (y2 + p384 - y1) * invMod p384 (x2 + p384 - x1) % p384
      let x3 := (slope * slope + 2 * p384 - x1 - x2) % p384
      some (x3, (slope * (x1 + p384 - x3) + p384 - y1) % p384)
/-- A multiple of a point, over the low `k` bits of the factor. -/
def ecMul : Nat → Nat → Option (Nat × Nat) → Option (Nat × Nat)
  | 0, _, _ => none
  | k + 1, n, q => ecAdd (if n % 2 = 1 then q else none) (ecMul k (n / 2) (ecAdd q q))
/-- The point that a public key of 97 bytes gives in uncompressed form, none where it is no point of the curve. -/
def keyPoint (key : List Byte) : Option (Nat × Nat) :=
  let x := natOfBig ((key.drop 1).take 48)
  let y := natOfBig (key.drop 49)
  if key.length = 97 ∧ key.head? = some 4 ∧ x < p384 ∧ y < p384 ∧ y * y % p384 = (x * x * x + (p384 - 3) * x + p384B) % p384
  then some (x, y) else none
/-- The public point of a private key, which is taken into the range from 1 to the order less 1. -/
def publicPoint (d : Nat) : Nat × Nat := (ecMul 384 (1 + d % (p384N - 1)) (some p384G)).getD (0, 0)
/-- The signature (r, s) of a message under a private key, with the secret number `k` of the signature. -/
def ecdsaSign (m : List Byte) (d k : Nat) : Nat × Nat :=
  let d := 1 + d % (p384N - 1)
  let r := (publicPoint k).1 % p384N
  (r, (natOfBig (sha384 m) + r * d) * invMod p384N (1 + k % (p384N - 1)) % p384N)
/-- Does a signature (r, s) of a message verify under a public key? -/
def ecdsaVerifies (m : List Byte) (r s : Nat) (key : List Byte) : Bool :=
  match keyPoint key with
  | none => false
  | some q =>
    let w := invMod p384N s
    let u := natOfBig (sha384 m) * w % p384N
    let v := r * w % p384N
    decide (0 < r) && decide (r < p384N) && decide (0 < s) && decide (s < p384N) &&
      match ecAdd (ecMul 384 u (some p384G)) (ecMul 384 v (some q)) with
      | none => false
      | some (x, _) => x % p384N == r

end Sys2Proof.Machine
end

