-- ==== Sys2Proof/Machine/Dealer.lean ====
section
/-! DEFINITION. The dealer at work on launches: image checks, binding, the changes of a core at a bind, completion of launches,
copy nodes and jobs (R36, R37, R39, R42, R43, R75, R105, R106, R139, R170 to R172, R199, R218 to R222, R265, R268, R412, R416). -/
namespace Sys2Proof.Machine

namespace State

/-! The check of an image (R218 to R220, R222). -/

/-- Does a table or section start at a multiple of 64 and lie within the image? -/
def extentOk (size : Nat) (e : Nat × Nat) : Bool := e.1 % 64 == 0 && decide (e.1 + e.2 ≤ size)
/-- Does no extent overlap another? -/
def disjoint : List (Nat × Nat) → Bool
  | [] => true
  | e :: l => (l.all fun f => e.2 == 0 || f.2 == 0 || !overlap e.1 e.2 f.1 f.2) && disjoint l
/-- The header, tables and sections of an image (Tables 9-1 and 9-2). -/
def imageForm (s : State) (p img : Nat) : Bool :=
  let f := s.imgField p img
  let size := f 8 4
  let nsec := f 20 2
  let secs := (List.range nsec).map fun i => s.imgSection p img i
  let kinds := secs.map (·.1)
  let tabs := [(f 22 2, f 24 4, 32), (f 32 4, f 28 4, 8), (f 48 4, f 44 4, 32)]
  f 0 4 == 0x31494D49 && f 4 2 == 1 && f 6 2 == 0 && f 52 4 == 0 && f 56 8 == 0 && size % 64 == 0 && decide (256 ≤ size)
    && f 12 4 == size - 256 && decide (1 ≤ nsec) && decide (nsec ≤ 16) && decide (f 32 4 ≤ 65536)
    && decide (1 ≤ f 40 4) && decide (f 40 4 ≤ 65536) && decide (f 48 4 ≤ 65535)
    && (tabs.all fun t => t.1 != 0 || t.2.1 == 0)
    && (secs.all fun e => (e.1 == 16 || (decide (1 ≤ e.1) && decide (e.1 ≤ 7))) && decide (e.2.1 < 2) && e.2.2.2.2
      && (if e.1 = 1 then e.2.2.2.1 % 16 == 0 else e.1 == 16 || e.2.2.2.1 % 2 == 0))
    && kinds.count 1 == 1 && ([2, 3, 4, 5, 6, 7].all fun k => decide (kinds.count k ≤ 1))
    && (let ext := (0, 64) :: (f 16 4, 32 * nsec) :: (f 36 4, 16 * f 40 4) :: (f 12 4, 256) ::
          ((tabs.filter fun t => t.1 != 0).map fun t => (t.2.1, t.1 * t.2.2)) ++ secs.map fun e => (e.2.2.1, e.2.2.2.1)
        ext.all (extentOk size) && disjoint ext)
/-- The signature block (Table 9-4) under a key that the dealer holds for the partition. -/
def imageSigned (s : State) (p img : Nat) : Bool :=
  let off := s.imgField p img 12 4
  match s.vRead p true img off, s.vRead p true (img + off) 256 with
  | .ok bs, .ok sig =>
    natOfBytes (sig.take 4) == 1 && natOfBytes ((sig.drop 4).take 4) == 0 && natOfBytes (sig.drop 152) == 0
      && (s.part p).pubkeys.any fun k => sha384 k == (sig.drop 8).take 48
        && ecdsaVerifies bs (natOfBig ((sig.drop 56).take 48)) (natOfBig ((sig.drop 104).take 48)) k
  | _, _ => false
/-- The result of the check, which the dealer keeps per image and partition (R219): 1 passed, 2 failed. -/
def checkImage (s : State) (p img : Nat) : Bool × State :=
  match assocGet 0 (s.part p).images img with
  | 0 =>
    let ok := s.imageForm p img && s.imageSigned p img
    (ok, s.modPart p fun q => { q with images := assocSet q.images img (if ok then 1 else 2) })
  | v => (v == 1, s)

/-! Slots (R43, R172). -/

/-- SPW and pooling that a launch asks for. -/
def wantSpw (x : Launch) : Nat := x.fields.spbytes / 16384
def wantPool (x : Launch) : Bool := bitOf x.fields.ctlp 7
/-- The ways that become scratchpad give up their lines (R106). In which way a line lies is not architectural (R104): the model's
lines carry no way, and a set gives up victims until the rest fit (log 2). -/
def l1Trim (core p : Nat) : Nat → State → State
  | 0, s => s
  | f + 1, s =>
    match (s.core core).l1.find? fun t => s.l1Ways core <
        ((s.core core).l1.filter fun u => s.l1Set core u.line == s.l1Set core t.line).length with
    | none => s
    | some t =>
      let same := (s.core core).l1.filter fun u => s.l1Set core u.line == s.l1Set core t.line
      let v := (same.map (·.line)).getD (Config.l1Victim s.tick % same.length) t.line
      l1Trim core p f (s.l1Flush core v p).bump
/-- SPLIT changes at a bind (R105, R106, R110): pooling first, then the boundary; another partition's scratchpad bytes go, and
with them its instruction buffer (R140). A partition that was closed and opened again counts as another one (DESIGN CHOICE, log 28: R106 does
not say). -/
def splitCore (s : State) (core p spw : Nat) (pool : Bool) : State :=
  let clu := clusterOf core
  let s := if (s.cluster clu).pool = pool then s
    else ((List.range 8).foldl (fun t j => (t.core (clu * 8 + j)).l1.foldl (fun u e => u.l1Flush (clu * 8 + j) e.line p) t)
      s).modCluster clu fun x => { x with pool := pool }
  let same := (s.core core).part == some p
  let s := s.modCore core fun x =>
    { x with spw := spw, part := some p, ibuf := if same then x.ibuf else [],
             sp := if same then x.sp.filter fun c => decide (c.1 < spw * 16384) else [] }
  l1Trim core p (s.core core).l1.length s
/-- A bind record takes effect (R43, R75, R172, R274): the window is cleared where another launch had it, the message queue is
emptied, SPLIT changes, and the launch's snapshot is taken at the first one. -/
def bindEffect (s : State) (c : Nat) : State :=
  let l := s.slotLaunch c
  let x := s.launch l
  let core := coreOf c
  let base := s.slotTabBase c
  let n := s.slotTabCount c
  let s := s.setSlotState c 1
  let s := s.splitCore core x.part (wantSpw x) (wantPool x)
  let rows := (List.range n).map (base + ·)
  let s := rows.foldl (fun t r =>
    if assocGet 0 (t.core core).tabOwner r = l then t
    else (t.setRow (tabKey core r) {}).modCore core fun k => { k with tabOwner := assocSet k.tabOwner r l }) s
  let s := s.modCtx c fun k => { k with msgq := [], tabBase := base, tabCount := n }
  if x.snapped then s
  else s.modLaunch l fun y => { y with snapped := true, snap := s.cohMemory, snapKey := s.cohKeys }
/-- A slot's DRAIN is zero (R43, R172, R215): a retiring slot becomes free, and a waiting bind record takes effect; where its launch
has completed meanwhile, the slot retires at once. -/
def slotDrained (s : State) (c : Nat) : State :=
  if s.drainOf c ≠ 0 ∨ (s.ctx c).running.isSome then s
  else if s.slotState c = 2 then s.setSlotState c 0
  else if s.slotState c = 3 then
    let t := s.bindEffect c
    if (t.launch (t.slotLaunch c)).complete then (t.setSlotState c 2).setSlotState c 0 else t
  else s
/-- A slot retires (Table 7-6), and is free at once where nothing is left to drain. -/
def retireSlot (s : State) (c : Nat) : State := (s.setSlotState c 2).slotDrained c

/-! What follows a level's end (R36, R37, R199, R404). -/

/-- A launch completes: its runs are aborted, the stores of its units are performed at .pkg (R134), its slots retire, its counter
closes, and its node, job or phase counts it. A bind record of it that waits in state 3 waits on for its slot to drain. -/
def finishLaunch (s : State) (l : Nat) : State :=
  let x := s.launch l
  let p := x.part
  let n := x.fields.cnt
  let s := s.closeRunsOf p l
  let s := x.used.foldl (fun t k => t.mergeCore k p .pkg) s
  let gone := (s.counter p n).cancelled
  let encl := (s.counter p n).encl
  let s := (s.closeCounter p n).modLaunch l fun y => { y with complete := true }
  let s := x.ctxs.foldl (fun t c => if t.boundTo c l then t.retireSlot c else t) s
  let s := s.leaveQueue l
  match x.node, encl with
  | some (g, i), _ => if gone then (s.cancelNode p g i false).settle p else s.completeNode p g i
  | none, some j => s.countItem p j false
  | none, none => s
/-- Are all the units of a launch finished, its contexts idle and their engine queues drained (R36)? A launch that was never
bound ends so only when it is cancelled. -/
def launchDone (s : State) (l : Nat) : Bool :=
  let x := s.launch l
  s.launches.any (fun e => e.1 == l) && !x.complete && (x.bound || x.cancelled)
    && (s.counter x.part x.fields.cnt).live == 0
    && x.ctxs.all fun c => !s.boundTo c l || ((s.ctx c).running.isNone && (s.ctx c).streams.toList.all fun k =>
      k.queue.isEmpty && k.started.isEmpty)
/-- A launch that the dealer never binds (R416): no record is allocated, and every initial unit counts as finished. -/
def rejectLaunch (s : State) (l : Nat) (err : Bool) : State :=
  let x := s.launch l
  (((s.countAll x.part x.fields.cnt).markCancelled x.part x.fields.cnt err).modLaunch l fun y => { y with cancelled := true }).finishLaunch l

/-- Is a counter that of an open job, submitted or opened by a KIND 3 LAUNCH (R198)? -/
def jobOpen (s : State) (p j : Nat) : Bool := (s.counter p j).status == 1 && (s.counter p j).kind == 3
/-- The dealer ends a job (R404): the final word of its counter goes to the job-end word, and vector 1 is sent. -/
def endJob (s : State) (p j : Nat) : State :=
  let s := s.closeCounter p j
  let x := s.job p j
  let w := counterWord (s.counter p j)
  let s := if x.endw = 0 then s else { s with host := s.host.putNat x.endw 8 w.toNat }
  { (s.setJob p j {}) with msix := s.msix ++ [1] }
/-- A submitted job ends once its supervisor's launch has completed and its LIVE is 0. -/
def jobEnds (s : State) (p j : Nat) : State :=
  let x := s.job p j
  if x.isOpen && (s.launch x.launch.toNat).complete && (s.counter p j).live == 0 then s.endJob p j else s

/-! Copy nodes (R265). -/

/-- Where a copy node writes byte ranges of B: home or group shadow, with the slot. A scratchpad, table or peer destination is
refused. -/
def copyDest (s : State) (p va : Nat) : Except Byte Access :=
  if inScratch va then .error 0x0A
  else match s.walk p true .store va with
    | .error e => .error e
    | .ok (t, _) =>
      let a := t.access va
      match region a.pa with
      | .table _ | .peer _ _ => .error 0x0A
      | _ => .ok (match s.groupAt a.pa with
        | some g => if s.grpIn p g then { a with pa := s.grpBuf g (!s.grpCur g) + (a.pa - s.grpVis g) } else a
        | none => a)
/-- The copy, or the cause of its failure. -/
def copyRange (s : State) (p a b n : Nat) : Except Byte State :=
  if inScratch a then .error 0x0A
  else match s.vRead p true a n, (pieces b n).mapM fun e => (s.copyDest p e.1).map fun d => (e, d) with
    | .error e, _ => .error e
    | _, .error e => .error e
    | .ok bs, .ok ds => .ok (ds.foldl (fun t e => t.homeWrite e.2.key p e.2.pa ((bs.drop (e.1.1 - b)).take e.1.2)) s)
/-- A ready copy node is performed; it waits while a latch holds a buffer that it would write (R137). -/
def runCopyNode (s : State) (p g i : Nat) : State :=
  match (s.graph p g).nodes[i]? with
  | none => s
  | some n =>
    if n.copy && n.st == 1 && (s.graph p g).isOpen then
      match s.copyRange p n.a n.b n.bytes with
      | .ok t => if s.writesLatched p true n.b n.bytes then s else t.completeNode p g i
      | .error _ => (s.cancelNode p g i true).settle p
    else s

/-! Binding. -/

/-- The columns of a launch: those of the rectangles that RECTS names. -/
def launchColumns (s : State) (l : Nat) : List Nat :=
  let x := s.launch l
  (x.fields.rects.filter fun r => r != 0xFF && bitOf (s.leaseW0 x.part r) 63).flatMap fun r => s.rectColumns x.part r
/-- Do rows 1 to 4 of Table 1-7 allow a bind? The zone of a peer's column is for its own package to see to. -/
def unheld (s : State) (l : Nat) : Bool :=
  let x := s.launch l
  let cols := s.launchColumns l
  !x.cancelled && !x.complete && cols.all (fun c => decide (4096 ≤ c) || s.coolGrants x.part (zoneOfCol c))
    && cols.all fun c => (s.col c).comp != .hot && !(s.col c).fail
/-- Is a context idle with drained engine queues, and bound to nothing? -/
def ctxFree (s : State) (c : Nat) : Bool := s.slotState c == 0 && (s.ctx c).running.isNone && s.drainOf c == 0
/-- Are all contexts of a core, or of a cluster, free? -/
def coreFree (s : State) (core : Nat) : Bool := (List.range 4).all fun i => s.ctxFree (core * 4 + i)
def clusterFree (s : State) (clu : Nat) : Bool := (List.range 8).all fun i => s.coreFree (clu * 8 + i)
/-- Do a cluster's bound slots all belong to one partition? -/
def clusterOnly (s : State) (clu p : Nat) : Bool :=
  (List.range 32).all fun i => s.slotState (clu * 32 + i) == 0 || s.slotPart (clu * 32 + i) == p
/-- May a launch use a core (R105, grant, CLUMASK)? -/
def coreUsable (s : State) (l core : Nat) : Bool :=
  let x := s.launch l
  let clu := clusterOf core
  let k := s.core core
  s.coreGranted x.part core && (x.fields.clumask == 0 || bitOf x.fields.clumask clu)
    && (s.clusterFree clu || (wantPool x == (s.cluster clu).pool && (!wantPool x || s.clusterOnly clu x.part)))
    && (s.coreFree core || (wantSpw x == k.spw && k.part == some x.part))
/-- The cores in the order of R412. -/
def coreOrder : List Nat := (List.range 64).flatMap fun clu => (List.range 8).map fun i => coreAt clu i
/-- What a slot must be to take a bind record: free; else, still draining (R43); else, draining with the waiting record of a launch of
lower priority, which the new one replaces (R172). -/
inductive SlotKind where
  | free | draining | waiting
  deriving DecidableEq, Repr
/-- Contexts of a core that a launch may take, of a kind. -/
def openSlots (s : State) (l core : Nat) (kind : SlotKind) : List Nat :=
  ((List.range 4).map (core * 4 + ·)).filter fun c => (s.ctx c).running.isNone && match kind with
    | .free => s.slotState c == 0
    | .draining => s.slotState c == 2 && s.drainOf c != 0
    | .waiting => s.slotState c == 3 && s.drainOf c != 0
        && decide ((s.launch (s.slotLaunch c)).fields.pri < (s.launch l).fields.pri)
/-- The contexts chosen for a launch (R412), at most `n`: of the first kind that has any. -/
def chooseContexts (s : State) (l n : Nat) : List Nat :=
  let cores := coreOrder.filter fun c => s.coreUsable l c
  let pick := fun kind => (List.range 4).flatMap fun k => cores.filterMap fun c => (s.openSlots l c kind)[k]?
  let cs := match pick .free, pick .draining with
    | [], [] => pick .waiting
    | [], ds => ds
    | fs, _ => fs
  cs.take n

/-- Writes a bind record (Table 7-5). A waiting one that it replaces goes, and its launch to the launch queue (R172). -/
def writeBind (s : State) (l c bindset : Nat) : State :=
  let x := s.launch l
  let a := slotAddr c
  let f := x.fields
  let waits := 2 ≤ s.slotState c
  let s := if s.slotState c = 3 then s.loseContext c (s.slotLaunch c) else s
  let s := (((((s.tput a 8 f.image).tput (a + 8) 6 l).tput (a + 14) 1 f.pri).tput (a + 16) 1 x.part).tput (a + 17) 1
    (f.ctlp % 16)).tput (a + 18) 1 f.tabbase
  let s := ((s.tput (a + 19) 1 f.tabcount).tput (a + 20) 1 bindset).tput (a + 21) 1 (wantSpw x + if wantPool x then 128 else 0)
  if !waits then s.bindEffect c else if s.slotState c = 3 then s else s.setSlotState c 3
/-- BINDSET of a cluster among chosen contexts (R39). -/
def bindsetOf (cs : List Nat) (clu : Nat) : Nat :=
  (List.range 8).foldl (fun m i => if cs.any fun c => coreOf c == coreAt clu i then m + 2 ^ i else m) 0

/-- Places the initial records of a launch on the cores of its bind set in turn (R268, R412). One for which there is no entry waits for
it (R150). -/
def placeRecords (s : State) (l : Nat) (cores : List Nat) (slots : List Nat) : State :=
  let x := s.launch l
  let p := x.part
  let f := x.fields
  let off := match s.imgFind p f.image 1 with | some (o, _) => o | none => 0
  slots.zipIdx.foldl (init := s) fun t e =>
    (t.writeRec p e.1
      { pc := f.image + off + f.entry, launch := l, pri := f.pri, state := 1, a0 := f.arg0.toNat,
        a1 := (f.arg1 + BitVec.ofNat 64 e.2).toNat, links := linksOf x.graph x.phase x.job }).enqueue
      { recVa := e.1, part := p, launch := BitVec.ofNat 32 l, pri := f.pri, time := t.now, home := cores.getD (e.2 % cores.length) 0 }
/-- The contexts of a launch that choose a record in the event that places them (R412): first those that have one of their own core's
queue to take, then the others, each in the order of context numbers, by which a lower number takes what two choose (R40). -/
def choosers (s : State) (l : Nat) : List Nat :=
  let idle := (List.range 2048).filter fun c => (s.launch l).ctxs.contains c && s.boundTo c l && (s.ctx c).running.isNone
  let own := fun (c : Nat) =>
    decide ((idle.filter fun d => coreOf d == coreOf c && decide (d < c)).length
      < ((s.core (coreOf c)).ready.filter fun e => e.launch.toNat == l).length)
  idle.filter own ++ idle.filter fun c => !own c

/-- The checks of a first bind that refuse a launch for good (R105, R219, R416): the launch refused, or the state to go on
with. -/
def firstChecks (s : State) (l : Nat) : Except State State :=
  let x := s.launch l
  if x.bound then .ok s
  else if x.fields.spbytes % 16384 ≠ 0 ∨ 18 * 16384 < x.fields.spbytes then
    .error ((s.event x.part 1 0x21 0x18 0 0xFFFFFFFF x.fields.spbytes l).rejectLaunch l false)
  else
    let (ok, t) := s.checkImage x.part x.fields.image
    if ok then .ok t else .error (t.rejectLaunch l true)

/-- The slots that a launch's initial records take at its first bind (R268). -/
def initSlots (s : State) (l : Nat) : List Nat :=
  let x := s.launch l
  if x.bound then [] else s.freeSlots x.part x.fields.rpool x.fields.rpooln x.fields.ninit
/-- Has a launch the slots for its initial records, or had them: otherwise it is held (R42, R268)? -/
def poolReady (s : State) (l : Nat) : Bool := (s.launch l).bound || decide ((s.launch l).fields.ninit ≤ (s.initSlots l).length)
/-- Binds a launch now, none where no bind is possible: no context, or too few record slots. A launch that still wants
contexts goes behind the launches of its priority (R41: round robin). -/
def tryBind (s : State) (l : Nat) : Option State :=
  let x := s.launch l
  if !s.unheld l then none
  else
    let cs := s.chooseContexts l (x.fields.maxctx - x.ctxs.length)
    if cs.isEmpty then none
    else
      let all := x.ctxs ++ cs
      let slots := s.initSlots l
      if !s.poolReady l then none
      else
        let s := s.modLaunch l fun y => { y with bound := true, ctxs := all }
        let s := cs.foldl (fun t c => t.writeBind l c (bindsetOf all (clusterOf (coreOf c)))) s
        let cores := coreOrder.filter fun k => all.any fun c => coreOf c == k
        let q := s.launchq.filter fun e => e.1 != l
        let s := s.placeRecords l cores slots
        some (if x.fields.maxctx ≤ all.length then s.leaveQueue l
          else { s with launchq := q ++ s.launchq.filter fun e => e.1 == l })

/-- Is no launch ahead of an entry of the launch queue bindable now (R42, R152)? Higher priority goes first, then age. -/
def nextInQueue (s : State) (l : Nat) : Bool :=
  match s.launchq.find? fun e => e.1 == l with
  | none => false
  | some (_, pri) =>
    (s.launchq.filter fun e => decide (pri < e.2)).all (fun e => (s.tryBind e.1).isNone)
      && ((s.launchq.takeWhile fun e => e.1 != l).filter fun e => e.2 == pri).all fun e => (s.tryBind e.1).isNone

/-- The dealer binds a launch from the launch queue, or refuses it at its first bind. At a first bind its idle contexts choose next. -/
def bindLaunch (s : State) (l : Nat) : State :=
  if !s.unheld l || !s.nextInQueue l then s
  else match s.firstChecks l with
    | .error t => t
    | .ok t => match t.tryBind l with
      | none => t
      | some u => if (t.launch l).bound then u else { u with agenda := (u.choosers l).map (.event <| .pickUp ·) ++ u.agenda }

end State

/-! The events. -/

def execLaunchCompletion (l : Nat) (s : State) : Out := runEvent (fun s => if s.launchDone l then s.finishLaunch l else s) s
def execCopyNode (part graph node : Nat) (s : State) : Out := runEvent (·.runCopyNode part graph node) s
def execJobCompletion (part ctr : Nat) (s : State) : Out := runEvent (·.jobEnds part ctr) s
def execDealerBind (l : Nat) (s : State) : Out := runEvent (·.bindLaunch l) s
def execSlotDrainZero (c : Nat) (s : State) : Out := runEvent (·.slotDrained c) s

end Sys2Proof.Machine
end

