-- ==== Sys2Proof/Machine/EngineRun.lean ====
section
/-! DEFINITION. The engines at work: the start of the command at the head of a queue, the progress and commit of a started
command, and the events named after particular steps of them (R25, R146, R154, R326 to R328, R332, R353, R358). -/
namespace Sys2Proof.Machine

/-- The start checks of a command; the answer is the command with what it captures. -/
def startCmd (d : Cmd) : M Cmd := linked <|
  match d.word with
  | .lease => startLease d
  | .unlease => startUnlease d
  | .wload _ => startWload d
  | .wswap => startWswap d
  | .mma z => startMma z d
  | .aclr => startAclr d
  | .xout _ => startXout d
  | .ackpt => startCkpt true d
  | .acload => startCkpt false d
  | .kvapp => startKvapp d
  | .qk => startAttn 1 d
  | .sv => startAttn 2 d
  | .splice => startSplice d
  | .repair => startRepair d
  | .draw => startDraw d
  | .get | .put | .xfer => startCopy d
  | .getr => startGetr d
  | .putr => startPutr d
  | .fill => startFill d
  | .gather => startGather d
  | .scatter => startScatter d
  | .publish => startPublish d
  | .reduce => startReduce d
  | _ => pure d
/-- One step of a started command: what remains of it, or none once it has committed. -/
def stepCmd (d : Cmd) : M (Option Cmd) := linked <|
  match d.word with
  | .lease => stepLease d
  | .unlease => stepUnlease d
  | .wload t => stepWload t d
  | .wswap => stepWswap d
  | .mma _ => stepMma d
  | .aclr => stepAclr d
  | .xout h => stepXout h d
  | .ackpt => stepAckpt d
  | .acload => stepAcload d
  | .kvapp => stepKvapp d
  | .qk => stepAttn false d
  | .sv => stepAttn true d
  | .splice => stepSplice d
  | .repair => stepRepair d
  | .draw => stepDraw d
  | .get | .put | .xfer => stepCopy d
  | .getr => stepGetr d
  | .putr => stepPutr d
  | .fill => stepFill d
  | .gather => stepGather d
  | .scatter => stepScatter d
  | .publish => stepPublish d
  | .reduce => stepReduce d
  | .aqBase => stepAqBase d
  | .aqDim => stepAqDim d
  | .aqEmit q => stepAqEmit q d
  | .aqDrain m => stepAqDrain m d
  | _ => pure none

namespace State

/-- May the engines of a context start commands (R38, R370)? -/
def enginesStart (s : State) (c : Nat) : Bool :=
  let x := s.ctx c
  x.running.isSome && x.cancel.isNone && x.preempt.isNone

/-! Aborting and replaying commands (R25, R175, R332, R354, R377, R379, R393). -/

/-- The ranges of virtual addresses that a copy or access command names, with those that the table of a GATHER or SCATTER gives. -/
def cmdRanges (s : State) (c k : Nat) (d : Cmd) : List (Nat × Nat) :=
  let op := fun i => (nth d.ops i).toNat
  let tile := fun n => (s.ring (coreOf c) n).tsize * 256
  match d.word with
  | .get | .put | .xfer => [(op 0, op 2), (op 1, op 2)]
  | .fill => [(op 0, op 2)]
  | .getr => [(op 0, op 2 * tile (op 1))]
  | .putr => [(op 1, op 2 * tile (op 0))]
  | .gather => (op 0, 8 * op 2) :: (op 1, op 2 * op 3) :: (s.tableAddrs c (op 0) (op 2)).map (·, op 3)
  | .scatter => (op 0, op 2 * op 3) :: (op 1, 8 * op 2) :: (s.tableAddrs c (op 1) (op 2)).map (·, op 3)
  | .aqEmit _ | .aqDrain _ => [(((s.ctx c).stream k).nest.addr.toNat, 256)]
  | _ => []
/-- The columns whose banks hold a virtual address, as translation stands: of both buffers where it goes through a publish group. -/
def vaColumns (s : State) (p va : Nat) : List Nat :=
  match s.walk p true .load va with
  | .error _ => []
  | .ok (t, _) =>
    let pa := (t.access va).pa
    let pas := match s.groupAt pa with
      | some g => [false, true].map fun b => s.grpBuf g b + (pa - s.grpVis g)
      | none => [pa]
    pas.filterMap fun a => match region (canon a) with
      | .bank col _ => some col
      | _ => none
/-- The columns that a command of stream `k` of a context uses (R335, R356, R394). -/
def cmdColumns (s : State) (c k : Nat) (d : Cmd) : List Nat :=
  let p := (s.ctx c).partNo
  let held := match (s.ctx c).lease with
    | .held r _ _ | .requested r _ => s.rectColumns p r
    | _ => []
  match d.word with
  | .lease => s.rectColumns p (nth d.ops 0).toNat
  | .wload _ | .wswap | .mma _ | .qk | .sv => held
  | .kvapp =>
    let t := { s with cur := c }
    let (layer, n) := layerN (nth d.ops 1)
    match t.kvPlan p (nth d.ops 0).toNat layer n t.myIter with
    | .ok a => a.places.flatMap fun l => l.map (·.1.col)
    | .error _ => []
  | .splice | .repair => d.ents.map (·.col)
  | _ => (s.cmdRanges c k d).flatMap fun e => if isWindow e.1 then [] else (pieces e.1 e.2).flatMap fun pc => s.vaColumns p pc.1
/-- A command as it stands in its queue after an abort (log 16). What a copy or access command has done stays done, and it goes on
from there. -/
def replayed (d : Cmd) : Cmd :=
  match d.word with
  | .mma _ => { d with prog := 0, ready := false, sent := 0, taken := [], last := false }
  | .kvapp => { d with ready := false, sent := 0, taken := [] }
  | .qk | .sv => { d with prog := 0, caps := [], ents := [], sent := 0, taken := [], last := false }
  | .repair => { d with sent := 0, taken := [] }
  | .get | .put | .xfer | .fill | .getr | .putr | .gather | .scatter | .aqEmit _ | .aqDrain _ => { d with ahead := [], tab := [] }
  | _ => { d with prog := 0, ents := [], sent := 0, taken := [], last := false }
/-- The held lease of a lost column ends at a boundary of its stream's commands (R21): where none that needs it runs. Its slots go, and
the stream keeps the mark of the loss. -/
def endLosing (s : State) (c : Nat) : State :=
  let x := s.ctx c
  match x.lease with
  | .held r _ _ =>
    if x.losing && !(x.stream 0).started.any needsLease then
      (s.endLease x.partNo r).modCtx c fun y => { y with lease := .lost r, losing := false }
    else s
  | _ => s
/-- The started commands of a stream that a condition selects go back to the head of their queue unstarted: DRAIN and LEFT count
them no longer, and a LEASE that waits withdraws its request. A REDUCE has made its contribution, and stays. -/
def requeue (s : State) (c k : Nat) (sel : Cmd → Bool) : State :=
  let goes := fun (d : Cmd) => sel d && d.word != .reduce
  let ab := ((s.ctx c).stream k).started.filter goes
  if ab.isEmpty then s
  else
    let s := ab.foldl reqDone s
    let s := if ab.any fun d => d.word == .lease then s.dropLease c else s
    let s := match (s.ctx c).lease with
      | .held r left limit =>
        let n := min limit (left + (ab.filter needsLease).length)
        (s.setLeaseLeft (s.ctx c).partNo r n).modCtx c fun x => { x with lease := .held r n limit }
      | _ => s
    (s.modStream c k fun t => { t with started := t.started.filter fun d => !goes d, queue := ab.map replayed ++ t.queue }).endLosing c
/-- Every started command of the first `n` streams of a context that uses one of the columns is aborted. -/
def abortOn (s : State) (n : Nat) (cols : List Nat) : State :=
  s.ctxs.foldl (fun t e => (List.range n).foldl (fun u k =>
    u.requeue e.1 k fun d => (s.cmdColumns e.1 k d).any cols.contains) t) s
/-- The command that brought LEFT to 0 has gone: the lease ends, and the stream requests the rectangle again behind the waiters (R175,
R332). Other started commands that need the lease stand in the queue again, to run under the new grant (log 28). -/
def endTurn (s : State) (c : Nat) : State :=
  let s := s.requeue c 0 needsLease
  let x := s.ctx c
  match x.lease with
  | .held r _ _ =>
    let u := x.running
    ((s.endLease x.partNo r).requestLease x.partNo r (some c) ((u.map (·.recVa)).getD 0) ((u.map (·.pri)).getD 0)).modCtx c fun y =>
      { y with lease := .requested r s.now }
  | _ => s
/-- A started command leaves its stream. Where it brought LEFT to 0 the turn ends, unless a command that follows it to its end still runs. -/
def dropCmd (s : State) (c k n : Nat) (d : Cmd) : State :=
  let s := (s.modStream c k fun t => { t with started := t.started.eraseIdx n }).reqDone d
  if (s.ctx c).losing then s.endLosing c
  else if d.last && !((s.ctx c).stream k).started.any (·.last) then s.endTurn c else s
/-- A started command that faults leaves its stream, and the stream faults (R326). The other started commands run to their ends: where it
brought LEFT to 0, the turn ends after the last of those that need the lease (R175). -/
def faultCmd (s : State) (c k n : Nat) (d : Cmd) (sub : Byte) : State :=
  let s := if d.last then s.modStream c k fun t =>
    { t with started := t.started.map fun e => if needsLease e then { e with last := true } else e } else s
  let s := s.dropCmd c k n d
  s.streamFault c k sub d.off

/-- What an engine would do with the head of a context's command queue (R326, R327): nothing while it must wait or the stream's lease is
about to end with a lost column, or start it, or fault at its start checks. -/
def tryHead (s : State) (c k : Nat) : Option (Except Byte (Cmd × State)) :=
  match ((s.ctx c).stream k).queue with
  | [] => none
  | d :: _ =>
    let s' := { s with cur := c, curK := k }
    if !s.enginesStart c || mustWait s' d || (k == 0 && (s.ctx c).losing) then none
    else match (startCmd { d with since := s.tick }).run s' with
      | .ok e t => some (.ok ({ e with last := needsLease e && t.me.lease.spent }, t))
      | .error (.engine sub) _ => some (.error sub)
      | .error _ _ => none

/-- Is it a context's turn at the engine of its core (R153)? The engine serves the four contexts round robin: none that comes before
this one in its order can start a command now. -/
def engineTurn (s : State) (c k : Nat) : Bool :=
  let core := coreOf c
  let next := vget 0 (s.core core).serve k
  (List.range ((c % 4 + 4 - next % 4) % 4)).all fun i => (s.tryHead (core * 4 + (next + i) % 4) k).isNone

/-- The head of a command queue starts, faults at its start checks, or waits. -/
def startHead (s : State) (c k : Nat) : State :=
  if !s.engineTurn c k then s
  else
    let served := fun (t : State) => t.modCore (coreOf c) fun x => { x with serve := vset x.serve k ((c + 1) % 4) }
    match s.tryHead c k with
    | none => s
    | some (.ok (e, t)) =>
      served ((t.modStream c k fun x => { x with queue := x.queue.drop 1, started := x.started ++ [e] }).bump)
    | some (.error sub) =>
      served (s.streamFault c k sub ((((s.ctx c).stream k).queue.map (·.off)).headD 0))

/-- A step of a REPAIR tests the waits for its frontiers (R30). -/
def afterRepair (s : State) (c : Nat) (d : Cmd) : State :=
  let p := (s.ctx c).partNo
  if d.word = .repair then s.wakeWhere p fun w => waitKind w == 5 && s.condHolds p 0 none w else s
/-- A started command makes its next step: it goes on, commits and leaves, faults and leaves, or waits. A cancelled unit's
commands make no further step (R38), nor does a REPAIR that a pre-emption has stopped (R370). -/
def stepStarted (s : State) (c k n : Nat) : State :=
  match ((s.ctx c).stream k).started[n]? with
  | none => s
  | some d =>
    let s' := { s with cur := c, curK := k }
    let x := s.ctx c
    if x.cancel.isSome || (d.word == .repair && x.preempt.isSome && !x.intrap) then s
    else match (stepCmd d).run s' with
      | .ok (some e) t => (t.modStream c k fun x => { x with started := x.started.set n e }).afterRepair c d
      | .ok none t => (t.dropCmd c k n d).afterRepair c d
      | .error (.engine sub) _ => s.faultCmd c k n d sub
      | .error _ _ => s

/-- The started command `n` of a stream. -/
def startedCmd (s : State) (c k n : Nat) : Option Cmd := ((s.ctx c).stream k).started[n]?

/-- The stalled QK or SV at place `n` of a context's matrix stream resumes at its entry (R146). -/
def attnResume (s : State) (c n : Nat) : State :=
  match s.startedCmd c 0 n with
  | some d => if (d.word == .qk || d.word == .sv) && (d.ents[d.prog]?).isSome then s.stepStarted c 0 n else s
  | none => s
/-- The REPAIR at place `n` makes its next step where that is the action named. -/
def repairStep (s : State) (c n : Nat) (act : RepairAct) : State :=
  match s.startedCmd c 0 n with
  | some d =>
    if d.word == .repair && repairNext { s with cur := c, curK := 0 } d == act then s.stepStarted c 0 n else s
  | none => s

end State

/-! The events. -/

def execEngineCommandStart (c k : Nat) (s : State) : Out := runEvent (·.startHead c k) s
def execEngineCommandCommit (c k n : Nat) (s : State) : Out := runEvent (·.stepStarted c k n) s
def execAttentionStallResume (c n : Nat) (s : State) : Out := runEvent (·.attnResume c n) s
def execRepairAnswerTake (c n : Nat) (s : State) : Out := runEvent (·.repairStep c n .take) s
def execFrontierAdvance (c n : Nat) (s : State) : Out := runEvent (·.repairStep c n .advance) s
def execReduceCollectiveComplete (part tag : Nat) (s : State) : Out := runEvent (·.reduceComplete part tag) s

end Sys2Proof.Machine
end

