-- ==== Sys2Proof/Machine/Bundle.lean ====
section
/-! DEFINITION. Fetching a bundle and issuing it as one step: the bundle-wide checks, the order of syllables, the order of
traps, the stall count and single stepping (R140, R223 to R228, R250, R261, R363, R364, R370). -/
namespace Sys2Proof.Machine

/-! Fetch. -/

/-- What a fetch gives: it waits for a walk, it faults, or the bits with the state after the fetch. -/
inductive Fetched where
  | wait
  | fault (code : Byte)
  | bits (b : BitVec 128) (s : State)
  deriving DecidableEq, Repr

/-- A bundle's bits from its 64-byte line. -/
def bundleIn (line : BitVec 512) (pa : Nat) : BitVec 128 := line.extractLsb' (8 * (pa % 64)) 128

/-- Fetches through the core's instruction buffer of 256 lines, which the L2 fills and stores do not invalidate (R140). -/
def State.fetchLine (s : State) (core p : Nat) (a : Access) : BitVec 512 × State :=
  let line := a.pa / 64
  match (s.core core).ibuf.find? fun e => e.line == line with
  | some e => (e.data, s)
  | none =>
    if isUncached a then
      let t := s.recall line p
      (t.homeLine a.key line, t)
    else
      let t := s.l2Fill (clusterOf core) a.key p line false
      let d := t.l2Data (clusterOf core) line
      (d, t.modCore core fun n => { n with ibuf := within 256 (Config.victim t.tick) ({ line := line, data := d } :: n.ibuf) })

/-- Fetches the bundle at a context's pc (R140, R250). A scratchpad address holds no code; a device table is read as a load reads
it and never cached (R94, R168); a peer without a route gives PROTECT (R407). -/
def State.fetchBundle (s : State) (c : Nat) : Fetched :=
  let x := s.ctx c
  let core := coreOf c
  let va := x.pc.toNat
  if va < 2 ^ 57 ∧ inScratch va then .fault 0x0A
  else if s.walkHeld core x.partNo x.priv .fetch va then .wait
  else
    match s.translate core x.partNo x.priv .fetch va with
    | (.error e, _) => .fault e
    | (.ok a, t) =>
      match region a.pa with
      | .table _ => match if x.priv then t.tableLoad x.partNo a.pa 16 else none with
        | some n => .bits (BitVec.ofNat 128 n) t
        | none => .fault 0x0A
      | .peer q _ => if t.reaches q then
          let (l, t) := t.fetchLine core x.partNo a
          .bits (bundleIn l a.pa) t
        else .fault 0x0A
      | _ =>
        let (a, t) := t.steer c a
        let (l, t) := t.fetchLine core x.partNo a
        .bits (bundleIn l a.pa) t

/-! The checks of a whole bundle (R225, R228). -/

/-- The g register that a control syllable names as its destination; CALL and CALLI name g31. -/
def ctlDest : Instr → Reg
  | .call _ | .calli _ => 31
  | .launch d _ | .cntAdd d _ _ | .ldB d _ _ | .ldH d _ _ | .ldW d _ _ | .ldD d _ _ | .ldBz d _ _ | .ldHz d _ _ | .ldWz d _ _
  | .ldcW d _ _ | .ldcD d _ _ | .ldAcqW d _ _ | .ldAcqD d _ _ | .amoAdd _ _ d _ _ | .amoMin _ _ d _ _ | .amoMax _ _ d _ _
  | .amoMinu _ _ d _ _ | .amoMaxu _ _ d _ _ | .amoAnd _ _ d _ _ | .amoOr _ _ d _ _ | .amoXor _ _ d _ _ | .amoSwap _ _ d _ _
  | .cas _ _ d _ _ | .barArr d _ | .recv d _ | .recvPoll d _ | .runBegin d _ _ | .runCommit d _ | .vstat d | .vget _ d _ _
  | .mfs d _ => d
  | _ => 0
/-- The g register that an integer syllable names as its destination. -/
def intDest : Instr → Reg
  | .add d _ _ | .sub d _ _ | .mul d _ _ | .mulh d _ _ | .mulhu d _ _ | .div d _ _ | .divu d _ _ | .rem d _ _ | .remu d _ _
  | .and d _ _ | .or d _ _ | .xor d _ _ | .andn d _ _ | .orn d _ _ | .shl d _ _ | .shr d _ _ | .sar d _ _ | .rotl d _ _
  | .clz d _ | .ctz d _ | .popc d _ | .min d _ _ | .max d _ _ | .minu d _ _ | .maxu d _ _ | .sel d _ _ _ | .cmpEq d _ _
  | .cmpNe d _ _ | .cmpLt d _ _ | .cmpLtu d _ _ | .cmpLe d _ _ | .cmpLeu d _ _ | .bext d _ _ | .bins d _ _ | .sext d _ _
  | .zext d _ _ | .lea d _ _ _ | .mov d _ | .addi d _ _ | .andi d _ _ | .ori d _ _ | .xori d _ _ | .shli d _ _ | .shri d _ _
  | .sari d _ _ | .cmpiEq d _ _ | .cmpiLt d _ _ | .cmpiLtu d _ _ => d
  | _ => 0
/-- The tableau operand that a vector syllable names as its destination: a row, a column or a diagonal. -/
def tabDest (i : Instr) : Option VOp :=
  (match i with
  | .vadd _ d _ _ | .vsub _ d _ _ | .vmul _ d _ _ | .vfma _ d _ _ | .vfms _ d _ _ | .vmax _ d _ _ | .vmin _ d _ _
  | .vadds _ d _ _ | .vand _ d _ _ | .vor _ d _ _ | .vxor _ d _ _ | .vshl _ d _ _ | .vshr _ d _ _ | .vrotF32 d _ _
  | .vrotBf16 d _ _ | .vrcpstep d _ _ | .vrsqstep d _ _ | .vcvt _ d _ _ | .vcvtSat _ d _ _ | .vmov _ d _ | .vabs _ d _
  | .vneg _ d _ | .vclamp _ d _ | .vscale _ d _ | .vexp2 d _ | .vlog2 d _ | .vrcpA d _ | .vrsqA d _ | .vshuf _ d _ _
  | .vsel _ d _ _ | .vredSum _ d _ | .vredMax _ d _ | .vredMin _ d _ | .vscanSum _ d _ | .vtopk d _ | .vargmax _ d _
  | .vfind _ d _ _ | .vidx _ d | .vbcast _ d _ | .vpack _ d _ _ | .vunpack _ d _ | .vrandLatch _ d | .vrandRequest _ d => some d
  | _ => none).filter fun o => match o with | .row _ | .col _ | .dg _ => true | _ => false
/-- Do syllables 2 and 3 name destinations that R225 refuses together? -/
def destClash (a b : Instr) : Bool :=
  match tabDest a, tabDest b with
  | some (.row i), some (.row j) => i == j
  | some _, some _ => true
  | _, _ => false

/-- How a LIMM may extend a control syllable (R228): not at all, freely, or with so many meaningful bits in all of an
immediate of width `w` and value `v`. -/
inductive Ext where
  | no
  | free
  | bits (n w v : Nat)
  deriving DecidableEq, Repr

/-- The extension of each control syllable: C.RRI, C.RI, C.B and C.J carry an immediate. -/
def extOf : Instr → Ext
  | .brEqz _ _ | .brNez _ _ | .brLtz _ _ | .brGez _ _ | .jmp _ | .call _ | .ldB _ _ _ | .ldH _ _ _ | .ldW _ _ _ | .ldD _ _ _
  | .ldBz _ _ _ | .ldHz _ _ _ | .ldWz _ _ _ | .stB _ _ _ | .stH _ _ _ | .stW _ _ _ | .stD _ _ _ | .ldcW _ _ _ | .ldcD _ _ _
  | .pref _ _ | .trap _ | .brk _ => .free
  | .suspend _ i => .bits 16 10 i.toNat
  | .runBegin _ _ i => .bits 16 10 i.toNat
  | .fork i => .bits 16 15 i.toNat
  | .cancelUnit _ => .bits 10 10 0
  | .cancelLaunch _ => .bits 10 10 1
  | .cancelGraph _ => .bits 10 10 2
  | .cancelPhase _ => .bits 10 10 3
  | .cancelJob _ => .bits 10 10 4
  | .vput _ _ _ r | .vget _ _ _ r => .bits 10 10 r.val
  | .mfs _ n | .mts n _ => .bits 15 15 n.toNat
  | _ => .no
/-- The syllable at which a LIMM makes the bundle ILLEGAL, if it does. An immediate with more bits than its field has meaning for is reported
at syllable 0, which carries it (DESIGN CHOICE, log 28: R228 names no syllable). -/
def limmBad (i : Instr) (imm : BitVec 24) : Option (Fin 4) :=
  match extOf i with
  | .no => some 1
  | .free => none
  | .bits n w v => if 2 ^ n ≤ imm.toNat * 2 ^ w + v then some 0 else none

/-- The value of a LIMM in syllable 1. -/
def limmOf : Option Instr → Option (BitVec 24)
  | some (.limm v) => some v
  | _ => none

/-- Is the bundle ILLEGAL at a syllable (R225, R227, R228)? -/
def illegalAt (b : Bundle) (k : Fin 4) : Bool :=
  let lim := match b.ctl, limmOf b.int with
    | some c, some v => limmBad c v
    | _, _ => none
  match k with
  | 0 => b.ctl.isNone || lim == some 0
  | 1 => b.int.isNone || lim == some 1 ||
    (match b.ctl, b.int with | some c, some i => intDest i != 0 && ctlDest c == intDest i | _, _ => false)
  | 2 => b.var.isNone
  | _ => b.vpe.isNone || (match b.var, b.vpe with | some v, some p => destClash v p | _, _ => false)

/-- The syllable in a slot, NOP where it does not decode. -/
def slotInstr (b : Bundle) (k : Fin 4) : Instr :=
  (match k with | 0 => b.ctl | 1 => b.int | 2 => b.var | _ => b.vpe).getD .nop

/-! Issue. -/

/-- What a syllable in a slot does: ILLEGAL, with the syllable as TRAP.VAL for slots 0 and 1 and zero for vector syllables
(Table 13-1), or its meaning. -/
def slotRun (ex : Instr → State → Out) (b : Bundle) (k : Fin 4) (s : State) : Out :=
  if illegalAt b k then
    let v : Word := if k.val < 2 then (s.raw.extractLsb' (32 * k.val) 32).setWidth 64 else 0
    let t := trapOf 0x01 v (BitVec.ofFin k)
    .next { s with mark := .trap t }
  else ex (slotInstr b k) s

/-- Does a syllable's end keep its bundle from issuing? -/
def Mark.stops : Mark → Bool
  | .stall | .stallTo _ => true
  | .trap t => !t.retired
  | .ok | .hold | .gone => false

/-- The bundle does not issue: a trap is taken on the state before it, or a cycle passes, or the cycles until an older write has taken
effect (R244). -/
def State.notIssued (s0 t : State) (pc : Word) : State :=
  match t.mark with
  | .trap tr => if tr.eng then t else { s0.enterTrap s0.cur tr pc with mark := .trap tr }
  | .stallTo n => { s0.tickCtx s0.cur (n - s0.me.cycle) with mark := .stall }
  | m => { s0.tickCtx s0.cur 1 with mark := m }

/-- The bundle has issued: fetch goes on at the target or the next bundle, the stall count begins, and CTX.CTL.STEP traps
(R223, R224, R364). -/
def State.issued (tf : State) (pc : Word) (stall : Nat) (step : Bool) : State :=
  let c := tf.cur
  match tf.mark with
  | .ok =>
    let next := tf.npc.getD (pc + 16)
    let t := ({ tf.modCtx c fun x => { x with pc := next, stall := stall } with npc := none }).tickCtx c 1
    if step then
      let tr : Trap := { code := 0x15, val := pc, retired := true }
      { t.enterTrap c tr next with mark := .trap tr }
    else t
  | m => { ({ tf with npc := none }.modCtx c fun x => { x with stall := stall }).tickCtx c 1 with mark := m }

/-- Every syllable of the bundle has passed its checks: it issues; or, where it traps after retiring in an iteration, it changes
nothing and its fault is held (R280). -/
def State.retires (s0 tf : State) (pc : Word) (stall : Nat) : State :=
  let held := match tf.mark with
    | .trap t => some t
    | .ok => if s0.me.stepping then some { code := 0x15, val := pc, retired := true } else none
    | _ => none
  match s0.me.spec, held with
  | true, some t => { s0.enterTrap s0.cur t pc with mark := .trap t }
  | _, _ => tf.issued pc stall s0.me.stepping

/-- Continues with the state of an outcome. -/
def andThen (o : Out) (f : State → Out) : Out :=
  match o with
  | .next s => f s
  | .fault r => .fault r
  | .refused r => .refused r

/-- Issues a decoded bundle (R224, R226): the four syllables are checked in slot order, syllables 1, 2 and 3 take effect, and
syllable 0 takes effect last. A blocking instruction that holds keeps its own changes only (R261). -/
def issueBundle (ex : Instr → State → Out) (b : Bundle) (s0 : State) : Out :=
  let pc := s0.me.pc
  andThen (slotRun ex b 0 s0) fun t0 => if t0.mark.stops then .next (s0.notIssued t0 pc) else
  andThen (slotRun ex b 1 s0) fun t1 => if t1.mark.stops then .next (s0.notIssued t1 pc) else
  andThen (slotRun ex b 2 t1) fun t2 => if t2.mark.stops then .next (s0.notIssued t2 pc) else
  andThen (slotRun ex b 3 t2) fun t3 => if t3.mark.stops then .next (s0.notIssued t3 pc) else
  if t0.mark = .hold then .next { t0.tickCtx t0.cur 1 with mark := .hold, npc := none }
  else andThen (slotRun ex b 0 t3) fun tf => .next (s0.retires tf pc b.stall.toNat)

/-- May a context issue (R38, R223, R370)? It runs a unit, which is neither cancelled nor, outside a handler, being
pre-empted, the stall count of the bundle before has passed, and its domain's clock runs (R382). -/
def State.mayIssue (s : State) (c : Nat) : Bool :=
  let x := s.ctx c
  x.running.isSome && x.cancel.isNone && (x.preempt.isNone || x.intrap) && x.stall == 0
    && !(s.cluster (clusterOf (coreOf c))).busy

/-- A context's next turn: it fetches and issues the bundle at its pc. A unit that waited as a record on a barrier lost
meanwhile raises BARRIER instead (R206). -/
def bundleStep (ex : Instr → State → Out) (c : Nat) (s : State) : Out :=
  if !s.mayIssue c then .next s
  else
    let s := { s with cur := c, npc := none, limm := none, mark := .ok }
    if s.me.barLost && s.me.barOn.isNone then
      let w := (s.me.running.bind fun u => (s.readRec u.part u.recVa).map (·.wait)).getD 0
      let t := trapOf 0x13 (waitDesc w) 0
      .next { s.enterTrap c t s.me.pc with mark := .trap t }
    else match s.fetchBundle c with
    | .wait => .next { s.tickCtx c 1 with mark := .stall }
    | .fault e =>
      let t := trapOf e s.me.pc 0
      .next { s.enterTrap c t s.me.pc with mark := .trap t }
    | .bits raw t =>
      let b := decodeBundle raw
      issueBundle ex b { t with raw := raw, limm := limmOf b.int }

end Sys2Proof.Machine
end

