-- ==== Sys2Proof/Machine/Runs.lean ====
section
/-! DEFINITION. Speculative runs: RUN.BEGIN, ACCEPT, RUN.COMMIT and RUN.ABORT (R142, R143, R185, R196, R208, R213, R277 to
R284). -/
namespace Sys2Proof.Machine

namespace State

/-- A run table entry as ITER, GUESS, CARRYSZ, WIDTH and YIELD, none where R196 refuses it. An ITER or GUESS
offset inside the section that is no multiple of 16 is refused as one outside it is (DESIGN CHOICE, log 28: R196's list has only the
latter). -/
def runEntry (s : State) (p img i : Nat) : Option (Nat × Nat × Nat × Nat × Nat) :=
  let n := s.imgField p img (s.imgField p img 44 4 + 32 * i) 32
  let f := fun b k => n / 2 ^ (8 * b) % 2 ^ (8 * k)
  let size := (s.ctlSection p img).2
  if decide (i < s.imgField p img 48 4) && f 8 4 == 0 && f 17 1 == 0 && f 20 12 == 0 && decide (1 ≤ f 16 1) && decide (f 16 1 ≤ 8)
      && f 12 4 % 8 == 0 && decide (8 ≤ f 12 4) && decide (f 12 4 ≤ 4096) && f 0 4 % 16 == 0 && decide (f 0 4 < size)
      && f 4 4 % 16 == 0 && decide (f 4 4 < size)
  then some (f 0 4, f 4 4, f 12 4, f 16 1, f 18 2) else none

/-- The first run number from `n` that no open run has (R277, step 2), counting from 2^24 − 1 to 1. -/
def freeRunNo (s : State) (p : Nat) : Nat → Nat → Nat
  | 0, n => n
  | f + 1, n =>
    let n := if n = 0 ∨ 2 ^ 24 ≤ n then 1 else n
    if (s.run p n).isOpen then s.freeRunNo p f (n + 1) else n

/-- The open runs of a launch. -/
def openRuns (s : State) (p : Nat) (l : BitVec 32) : Nat := ((s.part p).runs.filter fun e => e.2.isOpen && e.2.launch == l).length

end State

/-- RUN.BEGIN (R277). The first of the k + 1 slots is the guess unit's. -/
def runBegin (d a : Reg) (imm : BitVec 10) : M Unit := do
  let idx ← immU imm
  let s ← get
  match s.me.running with
  | none => stall
  | some u =>
    let p := u.part
    match s.runEntry p u.image idx with
    | none => trap 0x01 (BitVec.ofNat 64 idx)
    | some (iter, guess, size, k, yield) =>
      let ga ← rdG a
      need (ga.toNat % 64 == 0) 0x08 ga
      need (!inScratch ga.toNat) 0x0A ga
      need (!s.me.spec && decide (s.openRuns p s.me.launch < 16)) 0x12 (BitVec.ofNat 64 idx)
      let l := s.launch s.me.launch.toNat
      await (s.queueRoom s.me.launch.toNat s.myCore)
      destG d (some 1)
      match s.freeSlots p l.fields.rpool l.fields.rpooln (k + 1) with
      | [] => stall
      | g :: its =>
        await (its.length == k)
        let no := s.freeRunNo p 2048 (s.part p).nextRun
        let links := ((s.readRec p u.recVa).map (·.links)).getD (linksOf 0xFFFF 0xFF 0x3F)
        let ctl := (s.ctlSection p u.image).1
        let base : Rec := { launch := s.me.launch.toNat, pri := u.pri, links := links }
        upd fun s =>
          let s := s.writeRec p g { base with pc := ctl + guess, state := 1, a0 := ga.toNat, a1 := k }
          let s := its.zipIdx.foldl (fun t e => t.writeRec p e.1
            { base with pc := ctl + iter, yield := yield, spec := true, state := 3, wait := 6 * 2 ^ 56 + no * 2 ^ 32,
                        a0 := ga.toNat + e.2 * size, a1 := e.2, run := no, iter := e.2 }) s
          let s := s.countLive p l.fields.cnt (k + 1)
          let s := s.setRun p no
            { launch := s.me.launch, width := k, carrySz := size, base := ga.toNat, guess := g,
              iters := its.map fun va => { recVa := va }, isOpen := true }
          let s := s.modPart p fun q => { q with nextRun := no + 1 }
          let s := s.charge p fun t => { t with runs := t.runs + 1, iters := t.iters + BitVec.ofNat 64 k }
          s.enqueue { recVa := g, part := p, launch := s.me.launch, pri := u.pri, time := s.now, home := s.myCore }
        wrG d (BitVec.ofNat 64 no) 1

/-! ACCEPT (R281). -/

/-- Bytes as the iteration sees memory, in 8-byte loads. -/
def specBytes (va : Nat) : Nat → M (List Byte)
  | 0 => return []
  | n + 1 => do
    let place ← checkAccess .load (BitVec.ofNat 64 va) 8 true false
    let v ← placeBytes (BitVec.ofNat 64 va) 8 place
    let rest ← specBytes (va + 8) n
    return bytesOfNat 8 v ++ rest

/-- Do two FP32 elements match within a tolerance (R281)? -/
def tolMatch (tol x y : Nat) : Bool :=
  x == y ||
    match f32Val x, f32Val y with
    | .nan, _ => false
    | _, .nan => false
    | .inf a, .inf b => if a == b then (FVal.fin false 0 0).le (f32Val tol) else (f32Val tol) == .inf false
    | a, b => (a.add b.neg).abs.le (f32Val tol)
/-- 32-bit elements of a byte list. -/
def words32 (bs : List Byte) : List Nat := (List.range (bs.length / 4)).map fun i => natOfBytes ((bs.drop (4 * i)).take 4)

/-- ACCEPT.EQ and ACCEPT.TOL, their checks in the order of R226: those of the addresses read, then the tolerance's register and SPEC.ILLEGAL of
a second one. -/
def accept (a : Reg) (how : M (List Byte → List Byte → Bool)) : M Unit := do
  let ga ← rdG a
  need (ga.toNat % 8 == 0) 0x08 ga
  let s ← get
  match s.me.running with
  | none => stall
  | some u =>
    if !s.me.spec then trap 0x11 (← syllable 0)
    let r := s.run u.part u.run
    let it := r.iters.getD u.iter {}
    let mine ← specBytes ga.toNat (r.carrySz / 8)
    let next ← (if u.iter + 1 < r.width then do
        let s ← get
        match s.vRead u.part s.me.priv (r.base + (u.iter + 1) * r.carrySz) r.carrySz with
        | .error e => trap e (BitVec.ofNat 64 (r.base + (u.iter + 1) * r.carrySz))
        | .ok bs => return some bs
      else return none : M (Option (List Byte)))
    let same ← how
    let ok := (next.map (same mine)).getD true
    if it.accept.isSome then trap 0x11 (← syllable 0)
    upd fun s => s.modRun u.part u.run fun r =>
      { r with iters := r.iters.modify u.iter fun i => { i with accept := some ok, carryOut := mine } }

def execAcceptEq (a : Reg) (s : State) : Out := runSyl 0 (accept a (return fun x y => x == y)) s
def execAcceptTol (a b : Reg) (s : State) : Out := runSyl 0 (do
  sources [a, b]
  accept a do
    let tol ← rdG b
    return fun x y => ((words32 x).zip (words32 y)).all fun e => tolMatch (tol.toNat % 2 ^ 32) e.1 e.2) s

/-! RUN.COMMIT and RUN.ABORT (R282, R283). -/

/-- The run that ga names: an open run of the issuer's launch, or PROTECT. In an iteration SPEC.ILLEGAL comes first (DESIGN CHOICE, log 21: both
stand in step 6 of R226, which does not rank them). -/
def openRun (a : Reg) : M Nat := do
  let ga ← rdG a
  noSpec 0
  let s ← get
  let r := s.run s.myPart ga.toNat
  need (decide (ga.toNat < 2 ^ 24) && r.isOpen && r.launch == s.me.launch) 0x0A ga
  return ga.toNat

/-- How many iterations a closed run accepts, and the faulted one among them (R282). -/
def accepted : List Iter → Nat → Nat × Option Nat
  | [], j => (j, none)
  | i :: l, j => if i.fault.isSome then (j + 1, some j) else if i.accept = some true then accepted l (j + 1) else (j + 1, none)

/-- The changes of a commit with `a` accepted iterations and the faulted one `f` (R143, R282). -/
def State.commitRun (s : State) (p no a : Nat) (f : Option Nat) : State :=
  let r := s.run p no
  let s := (r.iters.take a).foldl (fun t i => i.shadow.foldl (fun t e => t.homeWrite e.2.2 p e.1 [e.2.1]) t) s
  let s := s.closeReqs p no a true r.reqs r.iters
  let s := match f with
    | some j => match r.iters[j]? with
      | some i => match s.readRec p i.recVa, i.fault with
        | some x, some (_, pc, val) => s.writeRec p i.recVa { x with pc := pc.toNat, a0 := val.toNat }
        | _, _ => s
      | none => s
    | none => s
  let s := (r.iters.drop a).foldl (fun t i => t.discardRec p i.recVa) s
  let supp := ((r.iters.drop a).filter (·.fault.isSome)).length
  let s := s.charge p fun t =>
    { t with accepted := t.accepted + BitVec.ofNat 64 a, rejected := t.rejected + BitVec.ofNat 64 (r.width - a),
             faultSupp := t.faultSupp + BitVec.ofNat 64 supp }
  let s := if supp = 0 then s else s.event p 1 0x27 0 0 s.cur supp r.launch.toNat
  s.modRun p no fun x => { x with isOpen := false, iters := x.iters.map fun i => { i with shadow := [] } }

/-- RUN.COMMIT (R282). -/
def runCommit (d a : Reg) : M Unit := do
  let no ← openRun a
  destG d (some 1)
  let s ← get
  let p := s.myPart
  holdUntil fun s => (s.run p no).guessState != 0 && (s.run p no).iters.all fun i => i.finished != 0
  let r := s.run p no
  if r.guessState ≠ 4 then
    upd fun s => s.abortRun p no
    wrG d 0 1
  else
    let (n, f) := accepted r.iters 0
    let last := r.iters.getD (n - 1) {}
    rel .pkg
    let carry := f.isNone && last.accept.isSome
    let s ← get
    if carry then
      match s.vWrite p s.me.priv r.base last.carryOut with
      | .error e => trap e (BitVec.ofNat 64 r.base)
      | .ok _ => pure ()
    upd fun s =>
      let s := s.commitRun p no n f
      if carry then (match s.vWrite p s.me.priv r.base last.carryOut with | .ok t => t | .error _ => s) else s
    wrG d (BitVec.ofNat 64 n) 1
    match f with
    | some j =>
      let i := r.iters.getD j {}
      match i.fault with
      | some (code, _, _) => retireTrap code (BitVec.ofNat 64 i.recVa)
      | none => return ()
    | none => return ()

/-- RUN.ABORT (R283). -/
def runAbort (a : Reg) : M Unit := do
  let no ← openRun a
  upd fun s => s.abortRun s.myPart no

def execRunBegin (d a : Reg) (imm : BitVec 10) (s : State) : Out := runSyl 0 (runBegin d a imm) s
def execRunCommit (d a : Reg) (s : State) : Out := runSyl 0 (runCommit d a) s
def execRunAbort (a : Reg) (s : State) : Out := runSyl 0 (runAbort a) s

end Sys2Proof.Machine
end

