-- ==== Sys2Proof/Machine/Sync.lean ====
section
/-! DEFINITION. Barriers, flags and messages (R134, R161 to R163, R204 to R206, R271 to R276). -/
namespace Sys2Proof.Machine

/-! Barriers. -/

/-- The fields of a barrier descriptor (Table 10-7). -/
structure BarDesc where
  n : Nat
  tag : BitVec 3
  pkg : Nat
  core : Nat
  bar : Nat
  deriving DecidableEq, Repr

def BarDesc.ofWord (w : Word) : BarDesc :=
  { n := bitsOf w.toNat 42 26 + 1, tag := w.extractLsb' 23 3, pkg := bitsOf w.toNat 22 17, core := bitsOf w.toNat 16 8,
    bar := bitsOf w.toNat 4 0 }

/-- The scope judged from a descriptor (Table 5-3). -/
def barScope (s : State) (b : BarDesc) : Scope :=
  if b.tag = 7 then .dom else if b.pkg = s.pkg ∧ stackOf b.core = stackOf s.myCore then .stk else .pkg

/-- The checks of R271 on a descriptor, in the order of R226: ILLEGAL of its reserved bits. -/
def barBits (ga : Word) : M BarDesc := do
  if bitsOf ga.toNat 63 43 != 0 || bitsOf ga.toNat 7 5 != 0 then trap 0x01 (← syllable 0)
  return BarDesc.ofWord ga
/-- The rest of R271: a barrier lost while the context was held at it (R206, R407), the owner's grant or its place in the domain, the use in an
iteration where `arrives` marks an instruction that it forbids, the route to its package (R407) and the shape of the barrier. -/
def barAllowed (ga : Word) (b : BarDesc) (arrives : Bool) : M Unit := do
  let s ← get
  need (!s.me.barLost) 0x13 ga
  need (if b.pkg = s.pkg then s.coreGranted s.myPart b.core else s.peers.contains b.pkg) 0x0A ga
  if arrives then noSpec 0
  need (b.pkg == s.pkg || s.reaches b.pkg) 0x13 ga
  need (b.tag == 7 || (decide (b.n ≤ 2048) && b.pkg == s.pkg)) 0x13 ga
/-- Reads a descriptor with all its checks. -/
def barDesc (a : Reg) (arrives : Bool) : M (Word × BarDesc) := do
  let ga ← rdG a
  let b ← barBits ga
  barAllowed ga b arrives
  return (ga, b)

/-- One arrival (R204, R205): the barrier afterwards. -/
def Barrier.arrive (x : Barrier) (n : Nat) (tag : BitVec 3) : Barrier :=
  let x := if x.arrived = 0 then { x with n := n, tag := tag } else x
  if x.arrived + 1 = x.n then { n := 0, tag := 0, arrived := 0, phase := x.phase + 1 }
  else { x with arrived := x.arrived + 1 }
/-- Does an arrival differ from the values set in the phase (R204)? -/
def Barrier.differs (x : Barrier) (n : Nat) (tag : BitVec 3) : Bool := x.arrived != 0 && (x.n != n || x.tag != tag)

/-- The suspended records of every partition that wait on a barrier and that its phase has satisfied become ready (R30). -/
def State.wakeBar (s : State) (pkg core bar : Nat) : State :=
  let ph := (s.barrier pkg core bar).phase.toNat
  s.parts.foldl (fun t e => t.wakeWhere e.1 fun w => waitKind w == 3 && waitObj w == pkg * 2 ^ 17 + core * 2 ^ 8 + bar
    && waitTarget w != ph) s

/-- An arrival for another package joins the collectives on its way (R164). -/
def State.barSend (s : State) (pkg : Nat) : State := if pkg = s.pkg then s else s.linkPush (s.edgeTo pkg) .collectives
/-- Arrives at a barrier after its release, once the way to its package has room; the answer is the phase arrived in. -/
def barArrive (ga : Word) (b : BarDesc) : M (BitVec 32) := do
  let s ← get
  let x := s.barrier b.pkg b.core b.bar
  need (!x.differs b.n b.tag) 0x13 ga
  await (b.pkg == s.pkg || s.linkRoom (s.edgeTo b.pkg) .collectives)
  rel (barScope s b)
  upd fun s => ((s.barSend b.pkg).setBarrier b.pkg b.core b.bar (x.arrive b.n b.tag)).wakeBar b.pkg b.core b.bar
  return x.phase

/-- Waits until a barrier's phase differs from a target (R272); a barrier lost meanwhile raises BARRIER (R206, R407). -/
def barHold (ga : Word) (b : BarDesc) (target : Word) : M Unit := do
  let s ← get
  need (!s.me.barLost) 0x13 ga
  upd fun s => s.modMe fun x => { x with barOn := some (b.pkg * 512 + b.core) }
  holdUntil fun s => (s.barrier b.pkg b.core b.bar).phase.setWidth 64 != target
  upd fun s => s.modMe fun x => { x with barOn := none }
  acq (barScope s b)

/-- BAR.ARR. -/
def barArr (d a : Reg) : M Unit := do
  let (ga, b) ← barDesc a true
  destG d (some 1)
  let ph ← barArrive ga b
  wrG d (ph.setWidth 64) 1
/-- BAR.WAIT. -/
def barWait (a g : Reg) : M Unit := do
  let b ← barBits ((← peekG a).getD 0)
  sources [a, g]
  let ga ← rdG a
  let t ← rdG g
  barAllowed ga b false
  barHold ga b t
/-- BAR.SYNC: the arrival is made once, and its phase is kept until the wait ends (R261). -/
def barSync (a : Reg) : M Unit := do
  let (ga, b) ← barDesc a true
  let s ← get
  let ph ← (match s.me.barPhase with
    | some ph => pure ph
    | none => barArrive ga b : M (BitVec 32))
  upd fun s => s.modMe fun x => { x with barPhase := some ph }
  barHold ga b (ph.setWidth 64)
  upd fun s => s.modMe fun x => { x with barPhase := none }

def execBarArr (d a : Reg) (s : State) : Out := runSyl 0 (barArr d a) s
def execBarWait (a b : Reg) (s : State) : Out := runSyl 0 (barWait a b) s
def execBarSync (a : Reg) (s : State) : Out := runSyl 0 (barSync a) s

/-! Flags (R273). -/

/-- The flag number in ga. -/
def flagNo (a : Reg) : M Nat := do
  let ga ← rdG a
  need (decide (ga.toNat < 4096)) 0x0A ga
  return ga.toNat
/-- Sets or clears a flag of a partition. -/
def State.setFlag (s : State) (p f : Nat) (v : Bool) : State :=
  s.modPart p fun q => { q with flags := if v then q.flags ||| (1#4096 <<< f) else q.flags &&& ~~~(1#4096 <<< f) }

def execFlagSet (a : Reg) (s : State) : Out := runSyl 0 (do
  let f ← flagNo a
  noSpec 0
  rel .pkg
  upd fun s => (s.setFlag s.myPart f true).wakeWhere s.myPart fun w => waitKind w == 2 && waitObj w == f) s
def execFlagClr (a : Reg) (s : State) : Out := runSyl 0 (do
  let f ← flagNo a
  noSpec 0
  upd fun s => s.setFlag s.myPart f false) s
def execFlagWait (a : Reg) (s : State) : Out := runSyl 0 (do
  let f ← flagNo a
  holdUntil fun s => (s.part s.myPart).flags.getLsbD f
  acq .pkg) s

/-! Messages (R274 to R276). -/

/-- Flits of a packet, header included. -/
def Packet.flits (p : Packet) : Nat := bitsOf p.hdr.toNat 7 5 + 1
/-- Is there room for a packet in a context's message queue of 16 flits? -/
def Ctx.msgRoom (x : Ctx) (p : Packet) : Bool := decide ((x.msgq.map (·.flits)).sum + p.flits ≤ 16)
/-- Is a context bound to a launch of a packet's partition (R274)? -/
def State.msgBound (s : State) (c : Nat) (p : Packet) : Bool := s.slotState c == 1 && s.slotPart c == p.part
/-- The stop at which a flit stands that has come `h` hops clockwise. -/
def Flight.stopAt (f : Flight) (h : Nat) : Nat := (f.src + h) % 8
/-- Has it crossed the dateline, the link from stop 7 to stop 0? It then stands in VC1, else in VC0 (R162). -/
def Flight.crossed (f : Flight) (h : Nat) : Bool := decide (8 ≤ f.src + h)
/-- How many hops a packet goes. -/
def Flight.dist (f : Flight) : Nat := (f.pkt.dstStop + 8 - f.src) % 8
/-- Is a packet part of the way into a channel of a stop? Its flits travel contiguously (R162). -/
def Flight.entering (f : Flight) (stop : Nat) (vc1 : Bool) : Bool :=
  (List.range 8).any fun h => f.stopAt h == stop && f.crossed h == vc1 && f.hops.any (h ≤ ·) && f.hops.any (· < h)
/-- Flits in a channel of a stop's input buffer (Table 6-4). -/
def Cluster.used (x : Cluster) (stop : Nat) (vc1 : Bool) : Nat :=
  (x.flights.map fun f => (f.hops.filter fun h => decide (0 < h) && f.stopAt h == stop && f.crossed h == vc1).length).sum
/-- Is flight `n`, whose flit has come `h` hops, not the head of the channel of the stop it has come to (R163, R274)? Its header stands there
behind a packet whose header has gone on from there or came there earlier. -/
def Cluster.behind (x : Cluster) (n h : Nat) : Bool :=
  match x.flights[n]? with
  | none => false
  | some f =>
    let here := fun (g : Flight) (k : Nat) => g.stopAt k == f.stopAt h && g.crossed k == f.crossed h
    decide (0 < h) && f.hops.head? == some h && x.flights.zipIdx.any fun e => e.2 != n
      && e.1.hops.any (fun k => decide (0 < k) && here e.1 k)
      && (!(e.1.hops.head?.map (here e.1)).getD false || decide (e.1.entered < f.entered))
/-- The place in flight `n` of the flit that can move a hop on, with the hops it has come (R162): the flits before it are ahead of it,
its packet is the head of the channel it stands in, the next stop's channel has a free slot of its four, and no other packet is part of the way into it. -/
def Cluster.movable (x : Cluster) (n : Nat) : List (Nat × Nat) :=
  match x.flights[n]? with
  | none => []
  | some f => (f.hops.zipIdx.filter fun e =>
      let stop := f.stopAt (e.1 + 1)
      let vc1 := f.crossed (e.1 + 1)
      decide (e.1 < f.dist) && (f.hops.take e.2).all (e.1 < ·) && !x.behind n e.1 && decide (x.used stop vc1 < 4)
        && (e.2 != 0 || !(x.flights.eraseIdx n).any fun g => g.entering stop vc1)).map fun e => (e.2, e.1)
/-- The class of a flit on a link: VC1 goes before VC0, and VC0 before new injection (R162). -/
def Flight.rank (f : Flight) (h : Nat) : Nat := if h = 0 then 0 else if f.crossed h then 2 else 1
/-- Does no flit of another packet take the link of a flit first: one of a higher class, or of the same class and an older packet? -/
def Cluster.wins (x : Cluster) (n : Nat) (f : Flight) (h : Nat) : Bool :=
  x.flights.zipIdx.all fun e => e.2 == n || (x.movable e.2).all fun m =>
    !(e.1.stopAt m.2 == f.stopAt h && (decide (f.rank h < e.1.rank m.2) || (e.1.rank m.2 == f.rank h && decide (e.2 < n))))
/-- Flight `n` moves one flit a hop on, none where none of its flits can move. -/
def Cluster.advance (x : Cluster) (n : Nat) : Option Cluster :=
  match x.flights[n]? with
  | none => none
  | some f => ((x.movable n).find? fun m => x.wins n f m.2).map fun m =>
      { x with flights := x.flights.set n { f with
          hops := f.hops.set m.1 (m.2 + 1),
          entered := if m.1 = 0 then (x.flights.map (·.entered)).foldl max 0 + 1 else f.entered } }
/-- A packet's injection begins: its header takes the first link, none where that is not possible. -/
def Cluster.inject (x : Cluster) (f : Flight) : Option Cluster := { x with flights := x.flights ++ [f] }.advance x.flights.length
/-- Puts a packet in a destination context's queue, or discards it where the binding refuses it. -/
def State.deliver (s : State) (c : Nat) (p : Packet) : State :=
  if s.msgBound c p then s.modCtx c fun x => { x with msgq := x.msgq ++ [p] } else s

/-- A scratchpad address of a message instruction: 16-byte aligned and in the window. -/
def msgAddr (a : Reg) : M (Word × Nat) := do
  let va ← rdG a
  need (va.toNat % 16 == 0) 0x08 va
  need (decide (va.toNat < 2 ^ 57) && inScratch va.toNat) 0x18 va
  return (va, scratchOff va.toNat)
/-- A number of scratchpad bytes from an offset must lie in the core's scratchpad: of none, the offset itself must (DESIGN CHOICE, log 28:
no rule tells of a SEND without payload, or a RECV that finds no message yet, at an offset beyond the scratchpad). -/
def msgRange (va : Word) (off n : Nat) : M Unit := do
  let s ← get
  need (decide (off + n ≤ (s.core s.myCore).spSize)) 0x18 va

/-- SEND (R275). Its header is injected at once; the flits behind it follow by themselves (log 28). Its payload is read as the scratchpad
stands: with CTX.CTL.PEND set, a word whose store is still pending raises no PENDING.READ (DESIGN CHOICE, log 28: R108 names a load, and
Table 3-5 a read). -/
def send (a b : Reg) : M Unit := do
  let known ← peekG a
  if bitsOf (known.getD 0).toNat 63 16 != 0 then trap 0x01 (← syllable 0)
  sources [a, b]
  let (va, off) ← msgAddr b
  let len := bitsOf (known.getD 0).toNat 7 5
  msgRange va off (16 * len)
  let ga ← rdG a
  noSpec 0
  let s ← get
  let core := s.myCore
  let clu := clusterOf core
  let dst := coreAt clu (bitsOf ga.toNat 4 2) * 4 + bitsOf ga.toNat 1 0
  let hdr : Word := BitVec.ofNat 64 (2 ^ 63 + bitsOf ga.toNat 15 8 * 256 + len * 32 + stopOf core * 4 + s.cur % 4)
  let p : Packet := { hdr := hdr, payload := (s.core core).sp.bytes off (16 * len), part := s.myPart,
                      dstStop := bitsOf ga.toNat 4 2, dstCtx := dst }
  if p.dstStop = stopOf core then
    await (!s.msgBound dst p || (s.ctx dst).msgRoom p)
    rel .clu
    upd fun s => s.deliver dst p
  else
    let f : Flight := { pkt := p, src := stopOf core, hops := List.replicate p.flits 0 }
    await ((s.cluster clu).inject f).isSome
    rel .clu
    upd fun s => s.modCluster clu fun x => (x.inject f).getD x

/-- Takes the packet at the head of the queue: payload to the scratchpad, header to gd (R276). `lq` says that it holds an entry of the
load queue, as RECV.POLL does (R126). -/
def takeMsg (d : Reg) (va : Word) (off : Nat) (p : Packet) (lq : Bool := false) : M Unit := do
  msgRange va off p.payload.length
  noSpec 0
  destG d none
  upd fun s =>
    let s := (s.drainSps s.cur).modMe fun x => { x with msgq := x.msgq.drop 1 }
    s.modCore s.myCore fun n => { n with sp := n.sp.putBytes off p.payload }
  acq .clu
  wrLater d p.hdr false lq

/-- RECV. -/
def recv (d a : Reg) : M Unit := do
  let (va, off) ← msgAddr a
  msgRange va off 0
  let s ← get
  match s.me.msgq with
  | p :: _ =>
    holdUntil fun _ => true
    takeMsg d va off p
  | [] =>
    noSpec 0
    holdUntil fun _ => false
/-- RECV.POLL. -/
def recvPoll (d a : Reg) : M Unit := do
  let (va, off) ← msgAddr a
  msgRange va off 0
  let s ← get
  match s.me.msgq with
  | p :: _ =>
    await (decide (s.me.loads < 12))
    takeMsg d va off p true
  | [] =>
    noSpec 0
    await (decide (s.me.loads < 12))
    wrLater d 0 false true

def execSend (a b : Reg) (s : State) : Out := runSyl 0 (send a b) s
def execRecv (d a : Reg) (s : State) : Out := runSyl 0 (recv d a) s
def execRecvPoll (d a : Reg) (s : State) : Out := runSyl 0 (recvPoll d a) s

end Sys2Proof.Machine
end

