-- ==== Sys2Proof/Machine/System.lean ====
section
/-! DEFINITION. System registers and system instructions: TRAP, BREAK, ERET, MFS, MTS, WAIT, FLOW.REQ (R8, R12, R13, R86 to
R93, R138, R217, R287 to R290). -/
namespace Sys2Proof.Machine

/-- A system register (Table 3-3). -/
inductive SysReg where
  | ctxCtl | ctxStat | ctxId | ctxTab | trapCause | trapPc | trapVal | trapVec | trapScr | watchAddr | watchCtl
  | split | leaseMax | repairThresh | repairLayer | modelId | timebase
  | ringBase (n : Nat) | ringShape (n : Nat) | ringPtr (n : Nat)
  | cadence (i : Nat) | phaseCtl (i : Nat) | railSel (i : Nat) | valve (z : Nat) | thermHi (z : Nat) | thermLo (z : Nat)
  | thermRd (c : Nat)
  deriving DecidableEq, Repr

/-- Register of a number; every other number is reserved (R86, Table 3-3). -/
def SysReg.ofNum (n : Nat) : Option SysReg :=
  match n with
  | 0x0000 => some .ctxCtl | 0x0001 => some .ctxStat | 0x0002 => some .ctxId | 0x0003 => some .ctxTab
  | 0x0008 => some .trapCause | 0x0009 => some .trapPc | 0x000A => some .trapVal | 0x000B => some .trapVec
  | 0x000C => some .trapScr | 0x0010 => some .watchAddr | 0x0011 => some .watchCtl
  | 0x0100 => some .split | 0x0101 => some .leaseMax | 0x0102 => some .repairThresh | 0x0103 => some .repairLayer
  | 0x0104 => some .modelId | 0x0108 => some .timebase
  | n =>
    if 0x0200 ≤ n ∧ n < 0x0208 then some (.ringBase (n - 0x0200))
    else if 0x0208 ≤ n ∧ n < 0x0210 then some (.ringShape (n - 0x0208))
    else if 0x0210 ≤ n ∧ n < 0x0218 then some (.ringPtr (n - 0x0210))
    else if 0x1000 ≤ n ∧ n < 0x1080 then some (.cadence (n - 0x1000))
    else if 0x1080 ≤ n ∧ n < 0x1084 then some (.phaseCtl (n - 0x1080))
    else if 0x1090 ≤ n ∧ n < 0x10D0 then some (.railSel (n - 0x1090))
    else if 0x1100 ≤ n ∧ n < 0x1200 then some (.valve (n - 0x1100))
    else if 0x1200 ≤ n ∧ n < 0x1300 then some (.thermHi (n - 0x1200))
    else if 0x1300 ≤ n ∧ n < 0x1400 then some (.thermLo (n - 0x1300))
    else if 0x2000 ≤ n ∧ n < 0x3000 then some (.thermRd (n - 0x2000))
    else none

/-- May a register be read at user level (Table 3-3)? -/
def SysReg.userRead : SysReg → Bool
  | .trapCause | .trapPc | .trapVal | .trapVec | .trapScr | .watchAddr | .watchCtl | .phaseCtl _ | .railSel _ | .valve _
  | .thermHi _ | .thermLo _ | .thermRd _ => false
  | _ => true
/-- The level a write needs: user, supervisor, or none that a program has (dealer, or no MTS at all). -/
def SysReg.writeLevel : SysReg → Option Bool
  | .ctxCtl | .ringBase _ | .ringShape _ | .ringPtr _ => some false
  | .trapCause | .trapPc | .trapVal | .trapVec | .trapScr | .watchAddr | .watchCtl | .leaseMax | .repairThresh
  | .repairLayer | .modelId => some true
  | _ => none
/-- Is an instance granted to a partition (R86)? Rows, clusters, zones and columns are granted; a stack's register is not. -/
def SysReg.granted (s : State) (p : Nat) : SysReg → Bool
  | .cadence i => s.rowGranted p i
  | .railSel i => s.clusterGranted p i
  | .valve z | .thermHi z | .thermLo z => s.zoneGranted p z
  | .thermRd c => s.colGranted p c
  | _ => true
/-- The value that MFS reads. -/
def SysReg.read (s : State) : SysReg → Word
  | .ctxCtl => s.me.ctl | .ctxStat => s.me.stat | .ctxId => Machine.ctxId s.pkg s.cur | .ctxTab => s.me.tab
  | .trapCause => s.me.trapCause | .trapPc => s.me.trapPc | .trapVal => s.me.trapVal | .trapVec => s.me.trapVec
  | .trapScr => s.me.trapScr | .watchAddr => s.me.watchBase | .watchCtl => s.me.watchCtl
  | .split => s.split s.myCore
  | .leaseMax => (s.part s.myPart).leaseMax | .repairThresh => (s.part s.myPart).thresh
  | .repairLayer => (s.part s.myPart).repairLayer | .modelId => (s.part s.myPart).modelId
  | .timebase => s.timebase
  | .ringBase n => (vget {} (s.core s.myCore).rings n).base
  | .ringShape n => (vget {} (s.core s.myCore).rings n).shape
  | .ringPtr n => (vget {} (s.core s.myCore).rings n).ptr
  | .cadence i => (s.gridRow i).cadence
  | .phaseCtl i => (s.stack i).phaseCtl
  | .railSel i => (s.cluster i).railSel
  | .valve z => (s.zone z).valve | .thermHi z => (s.zone z).hi | .thermLo z => (s.zone z).lo
  | .thermRd c => (s.col c).thermRd
/-- Bits of a register that are not reserved (Tables 3-5 to 3-10). -/
def SysReg.fields : SysReg → Word
  | .ctxCtl => 0xB
  | .ctxStat => 0x1FFFFFFFFF
  | .ctxId => 0x3F3F07FF
  | .ctxTab => 0x7F3F
  | .trapCause => 0xF3FFFF
  | .trapPc | .trapVec => BitVec.allOnes 64 - 15
  | .watchCtl => 0xFB
  | .leaseMax => 0x7F
  | .repairThresh => 0xFFFFFFFF
  | .repairLayer => 0xFFFF
  | .ringBase _ => 0x7FF00
  | .ringShape _ => 0xF0FFFF
  | .ringPtr _ => 0xFFFFFFFF
  | .split => 0x9F
  | .cadence _ => 0x1F
  | .phaseCtl _ => 0xFFFF000C
  | .railSel _ => 3
  | .valve _ => 0xF
  | .thermHi _ | .thermLo _ => 0xFFFF
  | .thermRd _ => 0x1FFFF
  | .trapVal | .trapScr | .watchAddr | .modelId | .timebase => BitVec.allOnes 64
/-- Field values that an MTS refuses with ILLEGAL. The reserved STREAM codes 6 and 7 of TRAP.CAUSE are no reserved field (R8): an MTS
stores them (DESIGN CHOICE, log 28: Table 3-7 states no fate for them). -/
def SysReg.valueOk (v : Word) : SysReg → Bool
  | .watchCtl => decide (bitsOf v.toNat 7 3 ≤ 12)
  | .leaseMax => decide (1 ≤ v.toNat) && decide (v.toNat ≤ 64)
  | .ringShape _ => decide (bitsOf v.toNat 23 20 < 9) && decide (1 ≤ bitsOf v.toNat 7 0) && decide (bitsOf v.toNat 7 0 ≤ 64)
  | _ => true
/-- A ring of the executing core. -/
def State.modRing (s : State) (core n : Nat) (f : Ring → Ring) : State :=
  s.modCore core fun x => { x with rings := vset x.rings n (f (vget {} x.rings n)) }
/-- The write of an accepted value. -/
def SysReg.write (v : Word) (s : State) : SysReg → State
  | .ctxCtl => s.modMe fun x => { x with ctl := v }
  | .trapCause => s.modMe fun x => { x with trapCause := v }
  | .trapPc => s.modMe fun x => { x with trapPc := v }
  | .trapVal => s.modMe fun x => { x with trapVal := v }
  | .trapVec => s.modMe fun x => { x with trapVec := v, vecPart := some x.partNo }
  | .trapScr => s.modMe fun x => { x with trapScr := v }
  | .watchAddr => s.modMe fun x => { x with watchAddr := v }
  | .watchCtl => s.modMe fun x => { x with watchCtl := v }
  | .leaseMax => s.modPart s.myPart fun q => { q with leaseMax := v }
  | .repairThresh => s.modPart s.myPart fun q => { q with thresh := v }
  | .repairLayer => s.modPart s.myPart fun q => { q with repairLayer := v }
  | .modelId => s.modPart s.myPart fun q => { q with modelId := v }
  | .ringBase n => s.modRing s.myCore n fun r => { r with base := v }
  | .ringShape n => s.modRing s.myCore n fun r => { r with shape := v }
  | .ringPtr n =>
    let t := s.modRing s.myCore n fun r => { r with ptr := v }
    t.monSample 3 (s.myCore * 8 + n) (vget {} (t.core s.myCore).rings n).occ
  | _ => s

/-- MFS (R288). A read of RING.PTR is an acquire .core, of the scratchpad alone, which holds nothing back (R138). -/
def mfs (d : Reg) (num : BitVec 15) : M Unit := do
  let n := num.toNat
  match SysReg.ofNum n with
  | none => trap 0x01 (← syllable 0)
  | some r =>
    let s ← get
    need (s.me.priv || r.userRead) 0x02 (BitVec.ofNat 64 n)
    need (r.granted s s.myPart) 0x0A (BitVec.ofNat 64 n)
    wrG d (r.read s) 2

/-- The ring number of a ring register. -/
def SysReg.ring : SysReg → Option Nat
  | .ringBase n | .ringShape n | .ringPtr n => some n
  | _ => none

/-- MTS (R288), in the order of R226: ILLEGAL for a reserved number, a reserved field or a refused value, PRIV, then RING. A write of
RING.PTR is a release .core of everything the context has stored (R138). -/
def mts (num : BitVec 15) (d : Reg) : M Unit := do
  let n := num.toNat
  match SysReg.ofNum n with
  | none => trap 0x01 (← syllable 0)
  | some r =>
    match ← peekG d with
    | some v => if v &&& ~~~r.fields != 0 || !r.valueOk v then trap 0x01 (← syllable 0)
    | none => pure ()
    let s ← get
    need (match r.writeLevel with | some super => !super || s.me.priv | none => false) 0x02 (BitVec.ofNat 64 n)
    let v ← rdG d
    match r.ring with
    | some k =>
      let ring := vget {} (s.core s.myCore).rings k
      need (!State.ringBusy s s.myCore k && (r != .ringPtr k || decide ({ ring with ptr := v }.occ ≤ ring.tiles))) 0x0F
        (BitVec.ofNat 64 n)
      if r == .ringPtr k then rel .core
    | none => pure ()
    upd fun s => r.write v s

def execMfs (d : Reg) (num : BitVec 15) (s : State) : Out := runSyl 0 (mfs d num) s
def execMts (num : BitVec 15) (d : Reg) (s : State) : Out := runSyl 0 (mts num d) s

/-- TRAP and BREAK: TRAP.VAL is the code, which a LIMM extends (R228, R287, R364). -/
def trapCode (cause : Byte) (code : BitVec 15) : M Unit := do
  let v ← immU code
  retireTrap cause (BitVec.ofNat 64 v)
def execTrap (code : BitVec 15) (s : State) : Out := runSyl 0 (trapCode 0x14 code) s
def execBrk (code : BitVec 15) (s : State) : Out := runSyl 0 (trapCode 0x15 code) s

/-- ERET (R366): ILLEGAL outside a handler, then PRIV. -/
def eret : M Unit := do
  let s ← get
  if !s.me.intrap then trap 0x01 (← syllable 0)
  needPriv 0
  let pc := s.me.trapPc
  upd fun s => { s.exitTrap s.cur with npc := some pc }
def execEret (s : State) : Out := runSyl 0 eret s

/-- WAIT (R289). -/
def execWait (a : Reg) (s : State) : Out := runSyl 0 (do
  let t ← rdG a
  holdUntil fun s => decide (t.toNat ≤ s.timebase.toNat)) s

/-- FLOW.REQ (R290): the dealer takes the request; share 0 releases a standing one. -/
def flowReq (a b : Reg) : M Unit := do
  let x ← peekG a
  let y ← peekG b
  if bitsOf (x.getD 0).toNat 63 8 != 0 || bitsOf (y.getD 0).toNat 63 16 != 0 then trap 0x01 (← syllable 0)
  needPriv 0
  sources [a, b]
  let ga ← rdG a
  let gb ← rdG b
  let s ← get
  let z := ga.toNat
  need (s.zoneGranted s.myPart z) 0x0A ga
  noSpec 0
  let share := bitsOf gb.toNat 7 0
  upd fun s => s.modZone z fun x =>
    { x with flow := if share = 0 then none else some (s.myPart, share, bitsOf gb.toNat 15 8) }
def execFlowReq (a b : Reg) (s : State) : Out := runSyl 0 (flowReq a b) s

end Sys2Proof.Machine
end

