-- ==== Sys2Proof/Machine/Flow.lean ====
section
/-! DEFINITION. Events of a single context and of its cluster: stall counts, results that arrive, stores performed, trap entry,
the end of a hold, messages, the spill list, and time (R73, R74, R82, R126, R150, R162, R163, R217, R223, R261, R363). -/
namespace Sys2Proof.Machine

namespace State

/-- The stall count of the bundle issued last passes (R223). -/
def stallExpiry (s : State) (c : Nat) : State :=
  (s.tickCtx c (s.ctx c).stall).modCtx c fun x => { x with stall := 0 }

/-- The cycle passes in which the next fixed-latency result of a context falls due (R74, R243). -/
def latencyElapsed (s : State) (c : Nat) : State :=
  let x := s.ctx c
  match (x.wq.filterMap (·.due)).foldl (fun m d => some (match m with | none => d | some e => min d e)) none with
  | none => s
  | some d => s.tickCtx c (d - x.cycle)

/-- Scoreboarded write `n` of a context arrives (R73), after every older write to its destination (R244), unless its slot has left state 1 (R171); loads are sampled by the latency
monitors of the core (R211). -/
def scoreboardArrives (s : State) (c n : Nat) : State :=
  let x := s.ctx c
  match ((List.range x.wq.length).filter fun i => ((x.wq[i]?).map (·.due)) == some none)[n]? with
  | none => s
  | some i =>
    match x.wq[i]? with
    | none => s
    | some w =>
      if (x.wq.take i).any fun e => e.eff.meets w.eff then s
      else
        let s := s.modCtx c fun y => { y with wq := y.wq.eraseIdx i }
        let s := if 2 ≤ s.slotState c then s else s.applyEffect c w.eff
        (s.sampleLoad c w).slotDrained c

/-- Trap entry of a context that runs a unit (R363). -/
def trapTaken (s : State) (c : Nat) (cause : Byte) (syl : Fin 4) (val : Word) : State :=
  if (s.ctx c).running.isSome then s.enterTrap c (trapOf cause val (BitVec.ofFin syl)) (s.ctx c).pc else s

end State

/-- Causes that a bundle delivers to its context (Table 7-14). -/
def bundleCause (cause : Byte) : Bool :=
  [0x01, 0x02, 0x03, 0x04, 0x05, 0x06, 0x07, 0x08, 0x09, 0x0A, 0x0F, 0x11, 0x12, 0x13, 0x14, 0x15, 0x16, 0x18, 0x19].contains
    cause.toNat

/-! Blocking instructions (R261). -/

/-- The meaning of a blocking instruction, none for any other syllable. -/
def blockingMeaning (i : Instr) (s : State) : Option Out :=
  match i with
  | .cntWait a b => some (execCntWait a b s)
  | .flagWait a => some (execFlagWait a s)
  | .barWait a b => some (execBarWait a b s)
  | .barSync a => some (execBarSync a s)
  | .recv d a => some (execRecv d a s)
  | .wait a => some (execWait a s)
  | .runCommit d a => some (execRunCommit d a s)
  | .suspend a imm => some (execSuspend a imm s)
  | _ => none
/-- Would the blocking instruction of the bundle at a context's pc go on now? -/
def State.holdOver (s : State) (c : Nat) : Bool :=
  match s.fetchBundle c with
  | .bits raw t =>
    let b := decodeBundle raw
    match b.ctl.bind fun i => blockingMeaning i { t with cur := c, npc := none, raw := raw, limm := limmOf b.int } with
    | some (.next r) => (match r.mark with | .hold | .stall | .stallTo _ => false | .ok | .gone | .trap _ => true)
    | _ => false
  | _ => false
/-- A held blocking instruction whose condition holds retires: byte 23 of its record becomes 2, and its bundle issues as the
very next step. -/
def State.blockingRetires (s : State) (c : Nat) : State :=
  match (s.ctx c).running with
  | none => s
  | some u =>
    if s.mayIssue c && s.recState u.part u.recVa == 3 && s.holdOver c then
      { s.setRecState u.part u.recVa 2 with agenda := .bundle c :: s.agenda }
    else s

/-! Messages (R162, R163, R274). -/

namespace State

/-- A packet on a cluster's ring moves (R162, R163, R274): its flits one hop on, or, once its header has come to the destination stop
and it is the head of its channel there, the packet off the ring. There it is discarded where the binding refuses it, and waits where the queue has no room for it. -/
def moveMessage (s : State) (clu n : Nat) : State :=
  let x := s.cluster clu
  match x.flights[n]? with
  | none => s
  | some f =>
    let off := fun (t : State) => t.modCluster clu fun y => { y with flights := y.flights.eraseIdx n }
    if f.hops.head? = some f.dist ∧ x.behind n f.dist = false then
      if !s.msgBound f.pkt.dstCtx f.pkt then off s
      else if (s.ctx f.pkt.dstCtx).msgRoom f.pkt then (off s).deliver f.pkt.dstCtx f.pkt
      else s.modCluster clu fun y => (y.advance n).getD y
    else s.modCluster clu fun y => (y.advance n).getD y

/-- The oldest entry of a cluster's spill list for which a ready queue of its bind set has room moves there; where none moves, the
oldest record that waits for an entry takes one, which is made then (R150). -/
def spillMove (s : State) (clu : Nat) : State :=
  let fits := fun (e : Ready) => (s.queueRing e.launch.toNat e.home).any fun n => (s.core n).ready.length < 64
  let letIn := fun (t : State) => match (t.cluster clu).late with
    | [] => t
    | e :: es =>
      let u := t.modCluster clu fun y => { y with late := [] }
      if u.queueRoom e.launch.toNat e.home then (u.enqueue { e with time := if e.resumed then e.time else s.now }).modCluster clu fun y => { y with late := es } else t
  match (s.cluster clu).spill.findIdx? fits with
  | none => letIn s
  | some i =>
    match (s.cluster clu).spill[i]? with
    | none => s
    | some e => (s.modCluster clu fun y => { y with spill := y.spill.eraseIdx i }).enqueue e

/-! Waiting records (R30, R32). -/

/-- A suspended record whose condition holds, or was satisfied while no queue had room, becomes ready on the queue of the core that
wrote it back. -/
def waitSatisfied (s : State) (n : Nat) : State :=
  match s.suspended[n]? with
  | none => s
  | some (p, va) =>
    match s.readRec p va with
    | none => s
    | some r => if s.condHolds p va none r.wait || (assocGet ({} : Kept) (s.part p).kept va).met then s.wakeRec p va else s

/-- The monitors of crossing FIFOs sample their occupancy at each MCLK cycle, which is a nanosecond (R211, R381). -/
def sampleFifos (s : State) : State :=
  let take := fun (m : Monitor) => if m.part.isSome && m.src == 2 then monTake m ((s.col m.loc).fifo.length) else m
  { s with stks := s.stks.map fun e => (e.1, { e.2 with monitors := e.2.monitors.map fun m => (m.1, take m.2) }) }
/-- One nanosecond passes (R217). -/
def tickTime (s : State) : State := { s.sampleFifos with timebase := s.timebase + 1 }

end State

/-! The events. -/

def execStallCountExpiry (c : Nat) (s : State) : Out := runEvent (·.stallExpiry c) s
def execExposedLatencyElapsed (c : Nat) (s : State) : Out := runEvent (·.latencyElapsed c) s
def execScoreboardWrite (c n : Nat) (s : State) : Out := runEvent (·.scoreboardArrives c n) s
def execVectorUnitIdle (c : Nat) (s : State) : Out := runEvent (·.drainVec c) s
def execStorePerformed (c : Nat) (s : State) : Out := runEvent (fun s => (s.performHead c).slotDrained c) s
def execTrapEntry (c : Nat) (cause : Byte) (syl : Fin 4) (val : Word) (s : State) : Out :=
  runEvent (fun s => if bundleCause cause then s.trapTaken c cause syl val else s) s
def execBlockingInstructionRetire (c : Nat) (s : State) : Out := runEvent (·.blockingRetires c) s
def execMessageDelivery (clu n : Nat) (s : State) : Out := runEvent (·.moveMessage clu n) s
def execSpillListMove (clu : Nat) (s : State) : Out := runEvent (·.spillMove clu) s
def execWaitConditionSatisfied (n : Nat) (s : State) : Out := runEvent (·.waitSatisfied n) s
def execTimebaseTick (s : State) : Out := runEvent (·.tickTime) s

end Sys2Proof.Machine
end

