-- ==== Sys2Proof/Machine/Switch.lean ====
section
/-! DEFINITION. Leases granted and parked, pick-up, pre-emption and the end of cancelled units (R19, R24, R34, R38, R40, R41,
R79, R101, R175, R331, R332, R369 to R375, R434). -/
namespace Sys2Proof.Machine

namespace State

/-! Leases (R24, R331, R434). -/

/-- Rectangles of a partition that are leased. -/
def heldRects (s : State) (p : Nat) : List Nat := (List.range 256).filter fun r => s.leaseHeld p r
/-- Is a lease slot free at an edge, and which is the lowest (R24)? -/
def freeLeaseSlot (s : State) (edge : Nat) : Option Nat := [4, 5, 6, 7].find? fun k => assocGet 0 s.slotOwn (edge * 8 + k) == 0
/-- Can a rectangle be granted now: its chains and multicasts exist (R407), it overlaps no leased one, and every chain-end edge has a free lease slot? -/
def grantable (s : State) (p rect : Nat) : Bool :=
  let cols := s.rectColumns p rect
  !cols.isEmpty && s.rectLinked p rect && (s.heldRects p).all (fun r => !(s.rectColumns p r).any cols.contains)
    && (s.rectEdges p rect).all fun e => (s.freeLeaseSlot e).isSome
/-- Is a request ahead of another: higher priority, or as high and older (R331)? -/
def ahead (a b : LeaseReq) : Bool := decide (b.pri < a.pri) || (a.pri == b.pri && decide (a.since < b.since))
/-- The waiting requests of every partition. -/
def allReqs (s : State) : List (Nat × LeaseReq) := s.parts.flatMap fun e => e.2.reqs.map fun r => (e.1, r)
/-- Do two rectangles contend: for a column, or for the lease slots of a chain-end edge? -/
def contend (s : State) (p r q t : Nat) : Bool :=
  (s.rectColumns p r).any (s.rectColumns q t).contains || (s.rectEdges p r).any (s.rectEdges q t).contains
/-- The request for a rectangle that is served next: none that could be granted, and that contends with it, is ahead. -/
def nextReq (s : State) (p rect : Nat) : Option LeaseReq :=
  ((s.part p).reqs.filter (·.rect == rect)).find? fun q => s.allReqs.all fun e =>
    !(ahead e.2 q && (e.1 == p && e.2.rect == rect || (s.grantable e.1 e.2.rect && s.contend p rect e.1 e.2.rect)))
/-- Clears the latches of columns that another partition held last (R101): elements zero, tag I8. The rule names no band scale, and the
old one stays (log 28). -/
def clearLatches (s : State) (p : Nat) (cols : List Nat) : State :=
  cols.foldl (fun t c => t.modCol c fun x =>
    if x.lastPart = some p ∨ x.lastPart = none then { x with lastPart := some p }
    else { x with lastPart := some p, front := { band := x.front.band }, back := { band := x.back.band },
                  frontRec := {}, backRec := {} }) s
/-- Takes the lease slots of a rectangle and clears their rows (R24, R79). -/
def takeSlots (s : State) (p rect : Nat) : State :=
  (s.rectEdges p rect).foldl (fun t e =>
    match t.freeLeaseSlot e with
    | none => t
    | some k =>
      let t := { t with slotOwn := assocSet t.slotOwn (e * 8 + k) (leaseMark p rect) }
      (List.range 64).foldl (fun u r => u.setRow (rowKey e k r) {}) t) s
/-- Grants a waiting request (R175, R331): the table is written, the slots are taken, and the lease belongs to the stream. For a
suspended record it is parked, with context number 0 in HCTX (log 28), and makes the record ready, now or when its save sequence ends
(R434); where another request waits
for the rectangle it then ends at once (R372). -/
def grantLease (s : State) (p rect : Nat) : State :=
  if !s.grantable p rect then s
  else match s.nextReq p rect with
    | none => s
    | some q =>
      let limit := (s.part p).leaseMax.toNat
      let s := s.modPart p fun x => { x with reqs := x.reqs.erase q }
      let s := s.setLease p rect true ((s.part p).reqs.any fun r => r.rect == rect) limit (q.ctx.getD 0)
      let s := (s.takeSlots p rect).clearLatches p (s.rectColumns p rect)
      match q.ctx with
      | some c =>
        let s := s.monSample 5 (p * 256 + rect) (s.aclkCycles (clusterOf (coreOf c)) (s.now - q.since))
        s.modCtx c fun x => { x with lease := .held rect limit limit }
      | none =>
        let s := s.modPart p fun x =>
          { x with parked := x.parked ++ [{ rect := rect, recVa := q.recVa, left := limit, limit := limit }] }
        let s := if s.recState p q.recVa = 3 then s.wakeRec p q.recVa else s.setGranted p q.recVa true
        s.endParked p rect

/-! Pre-emption blocks (Table 13-3). -/

/-- A REPAIR that a pre-emption stopped: it has its position. -/
def isStopped (d : Cmd) : Bool := d.word = .repair && !d.caps.isEmpty
/-- A queued command in 64 bytes: word, offset, four operands, and the position of a REPAIR (log 15). -/
def cmdBytes (d : Cmd) : List Byte :=
  let q := d.repair
  bytesOfNat 4 (((encodeWord d.word).getD 0).toNat) ++ bytesOfNat 4 d.off
    ++ (List.range 4).flatMap (fun i => bytesOfNat 8 (nth d.ops i).toNat)
    ++ bytesOfNat 1 (if isStopped d then q.stage else 0) ++ bytesOfNat 1 d.ops.length ++ bytesOfNat 2 q.layer
    ++ bytesOfNat 4 q.block ++ bytesOfNat 16 0
/-- The command that 64 bytes hold, none where the entry is empty. What the bytes do not hold comes with the command kept beside
them, where it is the same one; the position of a REPAIR comes from the bytes. -/
def cmdOf (n : Nat) (kept : Option Cmd) : Option Cmd :=
  let f := fun b k => n / 2 ^ (8 * b) % 2 ^ (8 * k)
  match decodeWord (BitVec.ofNat 16 (f 0 2)) with
  | none => none
  | some w =>
    let fresh : Cmd := { word := w, off := f 4 4, ops := (List.range (f 41 1)).map fun i => BitVec.ofNat 64 (f (8 + 8 * i) 8) }
    if f 0 2 = 0 then none
    else match kept with
      | none => some fresh
      | some d =>
        if d.word = w ∧ d.off = fresh.off ∧ d.ops = fresh.ops ∧ isStopped d = (f 40 1 != 0) then
          some (if isStopped d then { d with repair := { d.repair with stage := f 40 1, layer := f 42 2, block := f 44 4 } } else d)
        else some fresh
/-- Zeros up to a length. -/
def padTo (n : Nat) (l : List Byte) : List Byte := l ++ List.replicate (n - l.length) 0
/-- The block of a context (Table 13-3). -/
def blockBytes (s : State) (c : Nat) : List Byte :=
  let x := s.ctx c
  let ks := x.streams.toList
  let lease := match x.lease with | .none => 0 | .held _ _ _ => 1 | _ => 2
  let (rect, left) := match x.lease with | .held r l _ => (r, l) | .requested r _ => (r, 0) | .lost r => (r, 0) | .none => (0, 0)
  let qs := x.qin.toList ++ x.qout.toList
  padTo 64 (bytesOfNat 8 x.pc.toNat ++ bytesOfNat 2 (coreOf c) ++ bytesOfNat 1 (if (x.running.map (·.level)).getD false then 1 else 0)
      ++ bytesOfNat 1 x.sel.val ++ bytesOfNat 4 x.valid.toNat ++ bytesOfNat 1 (x.ctl.toNat % 16)
      ++ bytesOfNat 1 ((if x.pinned then 1 else 0) + 2 * lease) ++ bytesOfNat 1 rect ++ bytesOfNat 1 left
      ++ bytesOfNat 4 (if x.barPhase.isSome then 1 else 0) ++ bytesOfNat 4 ((x.barPhase.getD 0).toNat))
    ++ (List.range 32).flatMap (fun i => bytesOfNat 8 (if i = 0 then 0 else (vget 0 x.g i).toNat))
    ++ x.k.toList.flatMap (fun m => bytesOfNat 32 m.toNat)
    ++ padTo 64 (bytesOfNat 8 x.alo.toNat ++ bytesOfNat 8 x.ahi.toNat)
    ++ x.hist.toList.flatMap (fun v => bytesOfNat 4 v.toNat)
    ++ x.flags.toList
    ++ qs.flatMap (fun q => bytesOfNat 8 (q.length + (q.zipIdx.map fun e => e.1.tag.toNat * 16 ^ (e.2 + 1)).sum))
    ++ ks.flatMap (fun t => padTo 64 (t.stack.reverse.flatMap fun v => bytesOfNat 8 v.toNat))
    ++ padTo 64 (ks.flatMap fun t => bytesOfNat 4 (t.stack.length + if t.ended then 16 else 0) ++ bytesOfNat 4 t.pos)
    ++ padTo 64 (ks.zipIdx.flatMap fun t => match t.1.fault with
      | none => bytesOfNat 8 0
      | some f => bytesOfNat 4 (f.code.toNat + f.sub.toNat * 256 + t.2 * 2 ^ 20 + 2 ^ 23 + 2 ^ 31) ++ bytesOfNat 4 f.off)
    ++ ks.flatMap (fun t => padTo 256 ((t.queue.take 4).flatMap cmdBytes))
    ++ padTo 256 ((List.range x.tabCount).map fun i =>
      let r := s.row (tabKey (coreOf c) (x.tabBase + i))
      BitVec.ofNat 8 (r.tag.toNat + if r.valid then 128 else 0))
    ++ padTo 16384 ((List.range x.tabCount).flatMap fun i => bytesOfNat 256 (s.row (tabKey (coreOf c) (x.tabBase + i))).data.toNat)
    ++ qs.flatMap (fun q => padTo 2048 (q.flatMap fun e => bytesOfNat 256 e.data.toNat))

/-- A field of the block's bytes. -/
def blk (bs : List Byte) (off n : Nat) : Nat := natOfBytes ((bs.drop off).take n)
/-- The entries of a saved data queue: queue `n` of q0 to q3, o0 to o3. -/
def blkQueue (bs : List Byte) (n : Nat) : List QEntry :=
  let m := blk bs (0x2C0 + 8 * n) 8
  (List.range (m % 16)).map fun e =>
    { tag := BitVec.ofNat 4 (m / 16 ^ (e + 1)), data := BitVec.ofNat 2048 (blk bs (0x4C00 + (8 * n + e) * 256) 256) }
/-- A saved stream, with its section in the image and what is kept beside the block: the commands beyond the fourth too. -/
def blkStream (s : State) (p img : Nat) (bs : List Byte) (kept : Kept) (k : Nat) : Stream :=
  let st := blk bs (0x480 + 8 * k) 4
  let ft := blk bs (0x4C0 + 8 * k) 8
  let sec := s.imgFind p img (k + 2)
  let cmds := kept.queues.getD k []
  { forked := (kept.marks.getD k (false, false)).1, stopped := (kept.marks.getD k (false, false)).2, ended := bitOf st 4, base := ((sec.map fun e => img + e.1)).getD 0,
    len := ((sec.map fun e => e.2 / 2)).getD 0, pos := blk bs (0x484 + 8 * k) 4, fetchAt := blk bs (0x484 + 8 * k) 4,
    stack := ((List.range (st % 16)).map fun i => BitVec.ofNat 64 (blk bs (0x300 + 64 * k + 8 * i) 8)).reverse,
    queue := ((List.range 4).filterMap fun i => cmdOf (blk bs (0x500 + 256 * k + 64 * i) 64) cmds[i]?) ++ cmds.drop 4,
    nest := kept.nests.getD k {},
    fault := if bitOf ft 31 then
      some { code := BitVec.ofNat 8 ft, sub := BitVec.ofNat 8 (ft / 256), off := ft / 2 ^ 32 } else none }
/-- Loads a block into a context (R374), its window rows by R80. Bit 2 of CTX.CTL is reserved, and stays zero (R8). -/
def loadBlock (s : State) (c p img : Nat) (bs : List Byte) (k : Kept) : State :=
  let pinned := bitOf (blk bs 17 1) 0
  let s := s.modCtx c fun x =>
    { x with
      pc := BitVec.ofNat 64 (blk bs 0 8), sel := ⟨blk bs 11 1 % 4, Nat.mod_lt _ (by decide)⟩,
      valid := BitVec.ofNat 32 (blk bs 12 4), ctl := BitVec.ofNat 64 (blk bs 16 1) &&& 0xB, pinned := pinned,
      barPhase := if bitOf (blk bs 20 1) 0 then some (BitVec.ofNat 32 (blk bs 24 4)) else none,
      g := Vector.ofFn fun (i : Fin 32) => BitVec.ofNat 64 (blk bs (0x40 + 8 * i.val) 8),
      k := Vector.ofFn fun (i : Fin 4) => BitVec.ofNat 256 (blk bs (0x140 + 32 * i.val) 32),
      alo := BitVec.ofNat 64 (blk bs 0x1C0 8), ahi := BitVec.ofNat 64 (blk bs 0x1C8 8),
      hist := Vector.ofFn fun (i : Fin 32) => BitVec.ofNat 32 (blk bs (0x200 + 4 * i.val) 4),
      flags := Vector.ofFn fun (i : Fin 64) => BitVec.ofNat 8 (blk bs (0x280 + i.val) 1),
      qin := Vector.ofFn fun (i : Fin 4) => blkQueue bs i.val,
      qout := Vector.ofFn fun (i : Fin 4) => blkQueue bs (4 + i.val),
      streams := Vector.ofFn fun (i : Fin 6) => s.blkStream p img bs k i.val,
      forkSet := k.forkSet, seq := k.seq, barOn := k.barOn, asked := k.asked, running := x.running.map fun u => { u with block := true } }
  (List.range (s.ctx c).tabCount).foldl (fun t i =>
    let m := blk bs (0xB00 + i) 1
    t.setRow (tabKey (coreOf c) ((t.ctx c).tabBase + i))
      { data := BitVec.ofNat 2048 (blk bs (0xC00 + 256 * i) 256), tag := BitVec.ofNat 4 m, valid := bitOf m 7 }) s
/-- The core named in the block that a record's frame points to (R374). -/
def blockCore (s : State) (p : Nat) (r : Rec) : Nat :=
  match s.vNat p true (r.frame - 1 + 8) 2 with
  | .ok n => n
  | .error _ => 512

/-! Pick-up (R34, R40, R374, R434). -/

/-- May a core's context take a record (R40, R374)? A barrier wait pins it to the barrier's owner until the barrier is lost (R206,
R407), a pre-emption block to the core named in it unless that has been fenced since (R378). -/
def eligible (s : State) (core l : Nat) (e : Ready) : Bool :=
  e.launch.toNat == l && match s.readRec e.part e.recVa with
  | none => true
  | some r =>
    (waitKind r.wait != 3 || (assocGet ({} : Kept) (s.part e.part).kept e.recVa).barLost
        || (bitsOf (waitObj r.wait) 16 8 == core && bitsOf (waitObj r.wait) 22 17 == s.pkg))
      && (r.frame % 2 == 0 || s.blockCore e.part r == core || s.coreFenced (s.blockCore e.part r)
        || (assocGet ({} : Kept) (s.part e.part).kept e.recVa).freed)
/-- Is an entry before another: of higher priority, or as high and older, or of one age and that of a pre-empted unit (R40, R430)? -/
def Ready.before (a b : Ready) : Bool :=
  decide (b.pri < a.pri) || (a.pri == b.pri && (decide (a.time < b.time) || (a.time == b.time && a.resumed && !b.resumed)))
/-- The oldest entries of the highest priority among those that a condition selects. -/
def bestReady (es : List Ready) (ok : Ready → Bool) : List Ready :=
  let l := es.filter ok
  l.filter fun e => l.all fun b => !Ready.before b e
/-- The record that an idle context chooses, with the core whose queue holds it (R40); of entries of one age either may come first
(log 6). -/
def chooseRecord (s : State) (c l : Nat) : Option (Nat × Ready) :=
  let core := coreOf c
  (core :: s.bindRing l core).findSome? fun n =>
    match bestReady (s.core n).ready fun e => s.eligible core l e with
    | [] => none
    | [e] => some (n, e)
    | e :: es => some (n, (e :: es).getD (Config.choose s.tick (es.length + 1) % (es.length + 1)) e)
/-- The lease or request that a record brings to its context (R372, R434). -/
def takeLease (s : State) (c p va : Nat) (asks : Option Nat) : State :=
  match (s.part p).parked.find? fun k => k.recVa == va with
  | some k =>
    ((s.modPart p fun x => { x with parked := x.parked.erase k }).setLeaseCtx p k.rect c).modCtx c fun x =>
      { x with lease := .held k.rect k.left k.limit }
  | none => match (s.part p).reqs.find? fun q => q.ctx.isNone && q.recVa == va with
    | some q =>
      (s.modPart p fun x => { x with reqs := x.reqs.map fun r => if r = q then { r with ctx := some c } else r }).modCtx c fun x =>
        { x with lease := .requested q.rect q.since }
    | none => match asks with
      | some r =>
        if !s.rectLinked p r || (s.rectColumns p r).any (fun k => (s.col k).lost) then s.modCtx c fun x => { x with lease := .lost r } else
        (s.requestLease p r (some c) va (((s.readRec p va).map (·.pri)).getD 0)).modCtx c fun x =>
          { x with lease := .requested r s.now }
      | none => s
/-- The state of a context at pick-up (R34, R72, R81, R82, R90, R362). -/
def startUnit (s : State) (c p va l : Nat) (r : Rec) (age : Nat) : State :=
  let img := s.slotImage c
  let level := (s.launch l).super
  s.modCtx c fun x =>
    { x with
      running := some { recVa := va, part := p, image := img, pri := r.pri, run := r.run, iter := r.iter, level := level,
                        age := age },
      launch := BitVec.ofNat 32 l, spec := r.spec, priv := level, intrap := false, pinned := false,
      ctl := BitVec.ofNat 64 (s.slotCtl c), valid := 6,
      g := (x.g.set 1 (BitVec.ofNat 64 r.a0)).set 2 (BitVec.ofNat 64 r.a1),
      k := Vector.replicate 4 (BitVec.allOnes 256), sel := 0, alo := 0, ahi := 0, wq := [], seq := .none, stall := 0,
      latches := [], pc := BitVec.ofNat 64 r.pc }
/-- The restore sequence of a yield index goes first (R34, R195). -/
def startRestore (s : State) (c p : Nat) (r : Rec) : State :=
  let img := s.slotImage c
  let off := (s.yieldEntry p img r.yield).2.1
  if off = 0xFFFFFFFF then s
  else s.modCtx c fun x =>
    { x with seq := .restore (BitVec.ofNat 64 r.pc), pc := BitVec.ofNat 64 ((s.ctlSection p img).1 + off) }
/-- An idle bound context takes a record (R34): state 2, its state, an acquire .clu (R134), and an acquire
.pkg for units of a graph and after a wait of kind 1 or 2. A malformed record is cancelled and reported (R31). Of a record whose
address no longer translates the manual says nothing: its entry goes, with the same event, and no unit is counted (log 28). -/
def pickUp (s : State) (c : Nat) : State :=
  if (s.ctx c).running.isSome || s.slotState c != 1 then s
  else
    let l := s.slotLaunch c
    match s.chooseRecord c l with
    | none => s
    | some (n, e) =>
      let p := e.part
      let s := (s.modCore n fun x => { x with ready := x.ready.erase e }).bump
      match s.readRec p e.recVa with
      | none => s.event p 1 0x20 0x01 0 c e.recVa l
      | some r =>
        if s.recBad p r (s.slotImage c) then
          (s.finishUnit p e.recVa 5 true (coreOf c)).event p 1 0x20 0x01 0 c e.recVa l
        else if r.state ≠ 1 then s
        else
          let s := (s.setRecState p e.recVa 2).startUnit c p e.recVa l r e.time
          let kept := assocGet ({} : Kept) (s.part p).kept e.recVa
          let s := (s.modCtx c fun x => { x with barLost := kept.barLost }).modPart p fun q =>
            if kept.barLost then { q with kept := assocSet q.kept e.recVa { kept with barLost := false } } else q
          let s :=
            if r.frame % 2 = 1 then
              match s.vRead p true (r.frame - 1) 35840 with
              | .error _ => s
              | .ok bs =>
                let s := (s.loadBlock c p (s.slotImage c) bs kept).writeRec p e.recVa
                  { r with frame := r.frame - 1, state := 2 }
                if kept.seq matches .save .. then s
                else s.takeLease c p e.recVa (if bitsOf (blk bs 17 1) 2 1 = 0 then none else some (blk bs 18 1))
            else (s.startRestore c p r).takeLease c p e.recVa none
          let s := s.acquire c .clu
          let s := s.modLaunch l fun x => { x with used := if x.used.contains (coreOf c) then x.used else x.used ++ [coreOf c] }
          if r.graph = 0xFFFF ∧ waitKind r.wait ≠ 1 ∧ waitKind r.wait ≠ 2 then s else s.acquire c .pkg

/-! Pre-emption (R41, R369 to R373). -/

/-- Does a waiting launch call for a context (R41, R369)? It is of the same partition, asks for the SPLIT that stands, has a
higher priority, is not held (R42), and no context is free for it or on its way to be, while the context's unit has the lowest priority among
the candidates. -/
def calledFor (s : State) (c : Nat) : Bool :=
  match (s.ctx c).running with
  | none => false
  | some u =>
    s.launchq.any fun e =>
      let x := s.launch e.1
      let fits := fun (d : Nat) =>
        match (s.ctx d).running with
        | none => false
        | some v => v.part == x.part && s.slotState d == 1
            && (x.fields.clumask == 0 || bitOf x.fields.clumask (clusterOf (coreOf d)))
            && wantSpw x == (s.core (coreOf d)).spw && wantPool x == (s.cluster (clusterOf (coreOf d))).pool
      let ok := fun (d : Nat) => fits d && (s.ctx d).preempt.isNone
      let coming := s.ctxs.any fun d => (d.2.preempt.isSome && fits d.1)
        || (s.slotState d.1 == 2 && s.coreUsable e.1 (coreOf d.1))
      decide (u.pri < e.2) && ok c && !coming && s.unheld e.1 && s.poolReady e.1 && (s.chooseContexts e.1 1).isEmpty
        && s.ctxs.all fun d => !ok d.1 || (match d.2.running with | some v => decide (u.pri ≤ v.pri) | none => true)
/-- The end of step 2: a REPAIR, which the mark has stopped, goes back to its queue; one that an abort had put there (log 16) stops too. -/
def stopRepairs (s : State) (c : Nat) : State :=
  let t := (s.ctx c).stream 0
  let rs := t.started.filter fun d => d.word == .repair
  let s := rs.foldl reqDone s
  s.modStream c 0 fun t =>
    { t with started := t.started.filter (fun d => d.word != .repair),
             queue := rs.map repairStopped ++ t.queue.map fun d => if isStopped d then repairStopped d else d }
/-- Step 3: a lease held is parked, or ends at once where WAIT is set; a request waits on with the record (R372). -/
def parkLease (s : State) (c p va : Nat) : State :=
  match (s.ctx c).lease with
  | .held r left limit =>
    let waits := s.leaseWait p r
    let s := s.modPart p fun x => { x with parked := x.parked ++ [{ rect := r, recVa := va, left := left, limit := limit }] }
    (s.endParked p r).modCtx c fun x => { x with lease := if waits then .requested r s.now else .held r left limit }
  | .requested _ _ =>
    let f := fun (q : LeaseReq) => if q.ctx = some c then { q with ctx := none, recVa := va } else q
    s.modPart p fun x => { x with reqs := x.reqs.map f }
  | _ => s
/-- Steps 3 to 6 of Table 13-2. A block or record that cannot be written removes the context (R373). The entry has the age of the one from which
the unit was taken, and goes before others of that age: R430 decides that a pre-empted iteration resumes before the iterations that became
ready with it (DEDUCED, log 6; R150 gives an entry the time at which it was made). -/
def writeOut (s : State) (c : Nat) (u : Running) : State :=
  let s := s.parkLease c u.part u.recVa
  let x := s.ctx c
  let l := x.launch.toNat
  let at' := s.frameAddr u.part l u.recVa + s.maxFrame u.part u.image
  let k : Kept := { home := coreOf c, met := (assocGet ({} : Kept) (s.part u.part).kept u.recVa).met, forkSet := x.forkSet, nests := x.streams.toList.map (·.nest), seq := x.seq,
                    barOn := x.barOn, barLost := x.barLost, asked := x.asked,
                    marks := x.streams.toList.map fun t => (t.forked, t.stopped), queues := x.streams.toList.map (·.queue) }
  let written := match s.vWrite u.part true at' (s.blockBytes c), s.readRec u.part u.recVa with
    | .ok t, some r => match t.vWrite u.part true u.recVa
        (bytesOfNat 64 ({ r with pc := x.pc.toNat, frame := at' + 1, state := 1 } : Rec).toNat) with
      | .ok t => some t
      | .error _ => none
    | _, _ => none
  match written with
  | some t =>
    let t := ((t.release c .clu).clearCtx c).modPart u.part fun q => { q with kept := assocSet q.kept u.recVa k }
    ((t.enqueue { recVa := u.recVa, part := u.part, launch := x.launch, pri := u.pri, time := u.age, home := coreOf c, resumed := true }).retireSlot
      c).loseContext c l
  | none =>
    ((s.dropParked u.part u.recVa).modCtx c fun y => { y with lease := .none }).removeCtx c x.pc.toNat 0x17 at' true
/-- The next step of a pre-emption: the mark, its end after 1 ms (R370), or, once the started commands but for a REPAIR have gone
and no handler runs, the write-out. A unit that is cancelled meanwhile stops as one (R38, R283). -/
def preemptStep (s : State) (c : Nat) : State :=
  let x := s.ctx c
  match x.running, x.preempt with
  | some _, none =>
    if x.cancel.isNone && s.calledFor c then s.modCtx c fun y => { y with preempt := some s.now } else s
  | some u, some t =>
    if t + 1000000 ≤ s.now then s.modCtx c fun y => { y with preempt := none }
    else if x.intrap || x.cancel.isSome || x.streams.toList.any fun t => t.started.any fun d => d.word != .repair then s
    else ((s.stopRepairs c).drainAll c).writeOut c u
  | none, _ => s
/-- A pre-emption that has not come to its write-out within 1 ms is abandoned (R370). -/
def preemptAbandoned (s : State) (c : Nat) : State :=
  match (s.ctx c).preempt with
  | some t => if t + 1000000 ≤ s.now then s.modCtx c fun y => { y with preempt := none } else s
  | none => s

/-! The end of a cancelled unit (R38, R375). -/

/-- A unit that was marked to stop reaches its boundary: of one marked by a CANCEL, within 1 ms (R375). -/
def cancelEnds (s : State) (c : Nat) : State :=
  match (s.ctx c).cancel, (s.ctx c).running with
  | some t, some u => if !(s.ctx c).abortOnly && decide (t + 1000000 ≤ s.now) then s else s.stopCancelled c (s.stopState c u)
  | _, _ => s
/-- A cancelled unit that has not come to its boundary within 1 ms is removed; one that a RUN.ABORT alone has marked is not (R283, R375). -/
def cancelRemoved (s : State) (c : Nat) : State :=
  match (s.ctx c).cancel with
  | some t => if !(s.ctx c).abortOnly && decide (t + 1000000 ≤ s.now) then s.removeCtx c (s.ctx c).pc.toNat 0 0 true else s
  | none => s

end State

/-! The events. -/

def execLeaseGrant (part rect : Nat) (s : State) : Out := runEvent (·.grantLease part rect) s
def execParkedLeaseEnd (part rect : Nat) (s : State) : Out := runEvent (·.endParked part rect) s
def execPickUp (c : Nat) (s : State) : Out := runEvent (·.pickUp c) s
def execPreemption (c : Nat) (s : State) : Out := runEvent (·.preemptStep c) s
def execPreemptionAbandon (c : Nat) (s : State) : Out := runEvent (·.preemptAbandoned c) s
def execCancelBoundaryReached (c : Nat) (s : State) : Out := runEvent (·.cancelEnds c) s
def execCancelRemovalTimeout (c : Nat) (s : State) : Out := runEvent (·.cancelRemoved c) s

end Sys2Proof.Machine
end

