-- ==== Sys2Proof/Machine/Heat.lean ====
section
/-! DEFINITION. Rails, cadence, phasing, sensors and coolant: the dealer's registers and the events of the sensors, supplies and
valves (R93, R189, R290, R381 to R396, R399). What a sensor or a supply does is the argument of its event. -/
namespace Sys2Proof.Machine

namespace State

/-! Events of the power and thermal queue (Table 6-8). -/

/-- An event of a column, a cluster or a zone, for every partition to which it is granted. LAUNCH is all ones in each, and so it is in an
event of kind 0x24 for an aborted command, whose launch is known: Table 6-7 allows either (DESIGN CHOICE, log 28). -/
def columnEvent (s : State) (q kind sub col value : Nat) : State :=
  s.eventAll (fun p => s.colGranted p col) q kind 0 sub col value 0xFFFFFFFF
def clusterEvent (s : State) (kind sub clu value : Nat) : State :=
  s.eventAll (fun p => s.clusterGranted p clu) 0 kind 0 sub clu value 0xFFFFFFFF
def zoneEvent (s : State) (kind cause sub z value : Nat) : State :=
  s.eventAll (fun p => s.zoneGranted p z) 0 kind cause sub z value 0xFFFFFFFF

/-! Cadence (R384, R385). -/

/-- Does a partition hold a lease that covers a column of a grid row? -/
def leasesRow (s : State) (p r : Nat) : Bool :=
  (s.heldRects p).any fun rect => (s.rectColumns p rect).any fun c => rowOfCol c == r
/-- The dealer writes CADENCE; a change is reported. -/
def writeCadence (s : State) (r v : Nat) : State :=
  if (s.gridRow r).cadence.toNat = v then s
  else
    let s := s.modGridRow r fun x => { x with cadence := BitVec.ofNat 64 v }
    s.eventAll (fun p => s.leasesRow p r) 0 0x05 0 v r v 0xFFFFFFFF
/-- A change of CADENCE that a supply failure does not forbid (R399). -/
def setCadence (s : State) (r v : Nat) : State := if s.supplyBad then s else s.writeCadence r v
/-- The grid rows of a cluster. -/
def rowsOfCluster (clu : Nat) : List Nat := [clu * 2, clu * 2 + 1]
/-- The first alarm doubles the CADENCE of both grid rows, at most 16. -/
def alarmRaised (s : State) (clu : Nat) : State :=
  if (s.cluster clu).alarm then s
  else (rowsOfCluster clu).foldl (fun t r =>
    let v := (t.gridRow r).cadence.toNat
    (t.modGridRow r fun x => { x with alarmBase := some (x.alarmBase.getD v) }).setCadence r (min 16 (2 * v)))
    (s.modCluster clu fun x => { x with alarm := true })
/-- One step of CADENCE towards the value to which it returns. -/
def cadenceTowards (s : State) (r base : Nat) : State :=
  let v := (s.gridRow r).cadence.toNat
  if base < v then s.setCadence r (v - 1) else s
/-- The alarm clears, or has been clear for another 50 µs. -/
def alarmCleared (s : State) (clu : Nat) : State :=
  let x := s.cluster clu
  if x.alarm then s.modCluster clu fun y => { y with alarm := false, alarmAt := s.now }
  else if x.alarmAt + 50000 ≤ s.now then
    (rowsOfCluster clu).foldl (fun t r =>
      match (t.gridRow r).alarmBase with
      | none => t
      | some b =>
        let t := t.cadenceTowards r b
        t.modGridRow r fun y => { y with alarmBase := if y.cadence.toNat ≤ b then none else some b })
      (s.modCluster clu fun y => { y with alarmAt := s.now })
  else s
/-- The dealer answers a column's entry into the hot state, once. -/
def hotRaise (s : State) (col : Nat) : State :=
  let x := s.col col
  if x.comp = .hot ∧ !x.raised then
    let r := rowOfCol col
    let v := (s.gridRow r).cadence.toNat
    ((s.modCol col fun y => { y with raised := true }).modGridRow r fun y =>
      { y with hotBase := some (y.hotBase.getD v) }).setCadence r (min 16 (v + 2))
  else s
/-- CADENCE goes down by one where no column of the grid row is hot, 100 µs after the last of them returned to normal and after
each step. -/
def hotStepDown (s : State) (col : Nat) : State :=
  let r := rowOfCol col
  let g := s.gridRow r
  match g.hotBase with
  | none => s
  | some b =>
    if (List.range 32).all (fun x => (s.col (r * 32 + x)).comp != .hot) && decide (g.stepAt + 100000 ≤ s.now) then
      let s := (s.cadenceTowards r b).modGridRow r fun y => { y with stepAt := s.now }
      s.modGridRow r fun y => { y with hotBase := if y.cadence.toNat ≤ b then none else some b }
    else s

/-! Sensors (R385, R388, R389). -/

/-- A temperature reading or threshold as a number of sixteenths of a degree. -/
def degrees (v : BitVec 16) : Int := v.toInt
def hiOf (s : State) (col : Nat) : Int := degrees ((s.zone (zoneOfCol col)).hi.setWidth 16)
def loOf (s : State) (col : Nat) : Int := degrees ((s.zone (zoneOfCol col)).lo.setWidth 16)
/-- The transition of Table 14-3 that a sample asks for: next state and event kind. -/
def compNext (c : Comp) (v hi lo : Int) : Option (Comp × Nat) :=
  match c with
  | .normal => if hi ≤ v then some (.hot, 1) else if v ≤ lo then some (.cold, 2) else none
  | .hot => if v ≤ hi - 0x20 then some (.normal, 3) else none
  | .cold => if lo + 0x20 ≤ v then some (.normal, 3) else none
/-- Has the comparator held its state for 10 µs? -/
def compHeld (s : State) (col : Nat) : Bool := decide ((s.col col).compAt + 10000 ≤ s.now)
/-- One sample of a column's sensor: the reading, or a failed self-check. The trip is reported by an event of kind 0x01 for
the sample at which it acts, beside what the comparator reports. VALUE takes the 16 bits of the reading with zeros above them: the manual gives no extension of
a negative one (log 28). -/
def sampleColumn (s : State) (col : Nat) (v : BitVec 16) (ok : Bool) : State :=
  if !ok then
    let s := s.modCol col fun x => { x with fail := true }
    (s.columnEvent 0 4 0 col (s.col col).temp.toNat).monSample 4 col (degrees (s.col col).temp)
  else
    let trips := decide (0x690 ≤ degrees v) && !(s.col col).trip
    let move := if s.compHeld col then compNext (s.col col).comp (degrees v) (s.hiOf col) (s.loOf col) else none
    let s := s.modCol col fun x =>
      { x with temp := v, fail := false,
               trip := if 0x690 ≤ degrees v then true else if degrees v ≤ 0x670 then false else x.trip }
    let s := match move with
      | none => s
      | some (c, k) =>
        let s := if (s.col col).comp = Comp.hot then s.modGridRow (rowOfCol col) fun x => { x with stepAt := s.now } else s
        (s.modCol col fun x => { x with comp := c, compAt := s.now, raised := false }).columnEvent 0 k 0 col v.toNat
    let s := if trips && (move.map (·.2)) != some 1 then s.columnEvent 0 1 0 col v.toNat else s
    s.monSample 4 col (degrees v)

/-! Rails and phases (R382, R386). -/

/-- A dealer's write of RAIL.SEL.LOW: refused while BUSY, and nothing where the value stands. -/
def writeRail (s : State) (clu : Nat) (low : Bool) : State :=
  let x := s.cluster clu
  if x.busy || x.low == low then s else s.modCluster clu fun y => { y with low := low, busy := true }
/-- A write that a supply failure does not forbid. -/
def setRail (s : State) (clu : Nat) (low : Bool) : State := if s.supplyBad then s else s.writeRail clu low
/-- The switch completes; phases are counted afresh. -/
def railDone (s : State) (clu : Nat) : State :=
  if (s.cluster clu).busy then
    let s := s.modCluster clu fun y => { y with busy := false, phases := 0, phaseAt := s.now }
    s.clusterEvent 0x06 (s.cluster clu).railSel.toNat clu (s.cluster clu).railSel.toNat
  else s
/-- The highest reading of a cluster's columns. -/
def heatOf (s : State) (clu : Nat) : Int :=
  (List.range 64).foldl (fun m i => max m (degrees (s.col (clu * 64 + i)).temp)) (degrees 0x8000)
/-- Is a cluster the hottest of those on the high rail? -/
def isHottest (s : State) (clu : Nat) : Bool :=
  !(s.cluster clu).low && (List.range 64).all fun d => (s.cluster d).low || decide (s.heatOf d ≤ s.heatOf clu)
/-- Package power above the limit moves the hottest cluster to the low rail, one cluster every 10 µs. -/
def overPower (s : State) (clu : Nat) : State :=
  if s.powerLimit = 0 ∨ !s.isHottest clu ∨ s.supplyBad ∨ (s.cluster clu).busy ∨ s.powerAt.any (fun t => s.now < t + 10000) then s
  else { s.setRail clu true with powerAt := some s.now }
/-- A dealer's write of PHASE.CTL; PERIOD must be non-zero where COL or BANK is set (R93). -/
def writePhase (s : State) (stk : Nat) (v : Word) : State :=
  let n := v.toNat
  if v &&& ~~~0xFFFF000C#64 != 0 || (bitsOf n 3 2 != 0 && bitsOf n 31 16 == 0) then s
  else
    let s := s.modStack stk fun x => { x with phaseCtl := v }
    (List.range 16).foldl (fun t i => t.modCluster (stk * 16 + i) fun y => { y with phases := 0, phaseAt := t.now }) s
/-- ACLK cycles of a domain since its phases began. -/
def phaseCycles (s : State) (clu : Nat) : Nat := s.aclkCycles clu (s.now - (s.cluster clu).phaseAt)
/-- The next phase of a domain begins once PERIOD cycles have passed. -/
def nextPhase (s : State) (clu : Nat) : State :=
  let x := s.cluster clu
  let period := bitsOf (s.stack (clu / 16)).phaseCtl.toNat 31 16
  if period ≠ 0 ∧ !x.busy ∧ (x.phases + 1) * period ≤ s.phaseCycles clu then
    s.modCluster clu fun y => { y with phases := y.phases + 1 }
  else s

/-! The coolant table (R188, R189, R390). -/

/-- STATE of a zone changes: TIME goes with it, and the move is reported. -/
def moveZone (s : State) (z st : Nat) : State :=
  let s := (s.tput (coolAddr z + 3) 1 (setBitsOf (s.tget (coolAddr z + 3) 1) 5 4 st)).tput (coolAddr z + 8) 8 s.now
  s.zoneEvent 0x07 0 st z (s.zone z).valve.toNat
/-- VALVE.POS changes, and the move is reported. -/
def moveValve (s : State) (z pos : Nat) : State :=
  if (s.zone z).valve.toNat = pos then s
  else
    let s := s.modZone z fun x => { x with valve := BitVec.ofNat 64 pos, setAt := s.now }
    s.zoneEvent 0x07 0 (s.coolState z) z pos
/-- SHARE changes, and the change is reported. -/
def moveShare (s : State) (z share : Nat) : State :=
  if s.coolShare z = share then s else (s.tput (coolAddr z + 1) 1 share).zoneEvent 0x08 0 0 z share
/-- VALVE.POS for a share. -/
def valveFor (share : Nat) : Nat := min 15 (ceilDiv (15 * share) 8)
/-- Is the sum of SHARE at most 256 with a new share of a zone? -/
def shareFits (s : State) (z share : Nat) : Bool :=
  decide (((List.range 256).map fun y => if y = z then share else s.coolShare y).sum ≤ 256)
/-- Does bound work use a column of a zone: a lease held there, or a bound launch whose columns lie there? -/
def zoneWorks (s : State) (z : Nat) : Bool :=
  let cols := colsOfZone z
  (List.range 64).any (fun p => (s.part p).isOpen && (s.heldRects p).any fun r => (s.rectColumns p r).any cols.contains)
    || s.launches.any fun e => e.2.bound && !e.2.complete && (s.launchColumns e.1).any cols.contains
/-- The dealer sets a wet zone's SHARE and FLOOR, and VALVE with them. -/
def setShare (s : State) (z share floor : Nat) : State :=
  if s.coolState z = 2 ∧ s.shareFits z share ∧ (floor ≤ share ∨ !s.zoneWorks z) then
    ((s.moveShare z share).tput (coolAddr z + 2) 1 floor).moveValve z (valveFor share)
  else s
/-- The dealer answers a standing FLOW.REQ: it raises SHARE towards the share wanted as far as it can give, and where that is not
the whole the event logs FLOW and the share that the zone has then. -/
def answerFlow (s : State) (z give : Nat) : State :=
  match (s.zone z).flow with
  | none => s
  | some (p, want, _) =>
    let aim := min want give
    let s := if s.coolShare z < aim then s.setShare z aim (s.coolFloor z) else s
    s.event p 0 0x08 (if want ≤ s.coolShare z then 0 else 0x1A) 0 z (s.coolShare z) 0xFFFFFFFF

/-! Evacuation and refill (R391 to R396). -/

/-- Does a started command use a column of a zone? -/
def zoneBusy (s : State) (z : Nat) : Bool :=
  let cols := colsOfZone z
  s.ctxs.any fun e => (e.2.stream 0).started.any fun d => (s.cmdColumns e.1 0 d).any cols.contains
/-- A zone in state 3 begins step 2 of Table 14-5. -/
def evacuate (s : State) (z : Nat) : State :=
  (s.moveZone z 3).modZone z fun x => { x with step := 2, stepAt := s.now, failed := false }
/-- Steps 3 to 5: chains drained, arrays fenced, the valve told to close. -/
def purge (s : State) (z : Nat) : State :=
  let s := s.modZone z fun x => { x with fence := true }
  (s.moveValve z 0).modZone z fun x => { x with step := 5, stepAt := s.now }
/-- The valve has its 2 ms to close, the purge its 50 ms; each step begins where the bound of the one before it ends. -/
def purged (s : State) (z : Nat) : State :=
  let x := s.zone z
  let lasts := if x.step = 5 then 2000000 else 50000000
  if x.stepAt + lasts ≤ s.now then s.modZone z fun y => { y with step := x.step + 1, stepAt := x.stepAt + lasts } else s
/-- The dealer starts an evacuation; a zone in step 2 goes on once no started command uses its columns, and then through steps 5 and
6. For a zone that fills, it is a failed refill (R392). -/
def evacStart (s : State) (z : Nat) : State :=
  match s.coolState z with
  | 2 | 1 => s.evacuate z
  | 3 =>
    match (s.zone z).step with
    | 2 => if s.zoneBusy z then s else s.purge z
    | 5 | 6 => s.purged z
    | _ => s
  | _ => s
/-- Step 2 has lasted 20 µs: what has not committed is aborted. -/
def evacTimeout (s : State) (z : Nat) : State :=
  let x := s.zone z
  if s.coolState z = 3 ∧ x.step = 2 ∧ x.stepAt + 20000 ≤ s.now then (s.abortOn 1 (colsOfZone z)).purge z else s
/-- The dealer starts to refill a dry zone for a grant: steps 1 and 2 of Table 14-6. A zone that evacuates takes it when it is
dry. -/
def refill (s : State) (z share floor : Nat) : State :=
  if s.coolState z = 3 then s.modZone z fun x => { x with wants := some (share, floor) }
  else if s.coolState z = 0 ∧ s.coolOwned z ∧ s.shareFits z share then
    let s := (((s.moveZone z 1).moveShare z share).tput (coolAddr z + 2) 1 floor).moveValve z 15
    s.modZone z fun x => { x with step := 2, stepAt := s.now, wants := none }
  else s
/-- What the dealer reports over the management connection: supplies (1), a zone that does not dry (1000 + zone), a boot step
(2000 + step). -/
def report (s : State) (v : Nat) : State := { s with mgmt := s.mgmt ++ [v] }
/-- Step 7 is not met within 200 ms. -/
def evacFail (s : State) (z : Nat) : State :=
  let x := s.zone z
  if s.coolState z = 3 ∧ x.step = 7 ∧ !x.failed ∧ x.stepAt + 200000000 ≤ s.now then
    (s.modZone z fun x => { x with failed := true }).report (1000 + z)
  else s
/-- The outlet has read no liquid for 100 µs of step 7: step 8, and after a failure the later confirmation. A reading that comes after
the 200 ms of step 7 finds it failed. A refill that waits for the zone begins. -/
def evacDry (s : State) (z : Nat) : State :=
  let x := s.zone z
  if !x.failed && decide (x.stepAt + 200000000 < s.now) then s.evacFail z
  else if s.coolState z = 3 ∧ x.step = 7 ∧ x.stepAt + 100000 ≤ s.now then
    let s := ((s.moveZone z 0).moveShare z 0).modZone z fun y => { y with step := 0, failed := false, wants := none }
    match x.wants with
    | some (share, floor) => s.refill z share floor
    | none => s
  else s
/-- The bound of a step of Table 14-6. -/
def refillBound (step : Nat) : Nat :=
  match step with
  | 3 => 40000000
  | 5 => 1000000
  | _ => 2000000
/-- Has the step of a refill exceeded its bound? -/
def refillLate (s : State) (z : Nat) : Bool := let x := s.zone z; decide (x.stepAt + refillBound x.step < s.now)
/-- A refill fails where a step exceeds its bound. -/
def refillFails (s : State) (z : Nat) : State := if s.coolState z = 1 ∧ s.refillLate z then s.evacuate z else s
/-- The step of a refill is done: the valve stands at 15, the outlet has read liquid for 1 ms, the valve stands at its share, every
sensor of the zone reads below THERM.HI; after the last one the zone is wet. One that comes after its bound is a failure. -/
def refillDone (s : State) (z : Nat) : State :=
  let x := s.zone z
  let go := fun (t : State) (n : Nat) => t.modZone z fun y => { y with step := n, stepAt := s.now }
  if s.coolState z ≠ 1 then s
  else if s.refillLate z then s.evacuate z
  else match x.step with
    | 2 => go s 3
    | 3 => if x.stepAt + 1000000 ≤ s.now then go (s.moveValve z (valveFor (s.coolShare z))) 4 else s
    | 4 => go s 5
    | _ =>
      if (colsOfZone z).all fun c => decide (degrees (s.col c).temp < s.hiOf c) then
        (s.modZone z fun y => { y with fence := false, step := 0 }).moveZone z 2
      else s
/-- A valve that reports another position 5 ms after it was set: reported, and its zone is evacuated. -/
def valveMismatch (s : State) (z pos : Nat) : State :=
  let x := s.zone z
  if x.valve.toNat ≠ pos ∧ x.setAt + 5000000 ≤ s.now then
    let s := s.zoneEvent 0x07 0 pos z x.valve.toNat
    if s.coolState z = 2 ∨ s.coolState z = 1 then s.evacuate z else s
  else s

/-! The supply (R399). -/

/-- A supply leaves its limits: every domain is held on the low rail at CADENCE 16. -/
def supplyFails (s : State) : State :=
  if s.supplyBad then s
  else
    let s := (List.range 64).foldl (fun t c =>
      let was := (t.cluster c).low
      let t := if (t.cluster c).busy then t.modCluster c fun y => { y with low := true } else t.writeRail c true
      t.modCluster c fun y => { y with held := some was }) s
    let s := (List.range 128).foldl (fun t r =>
      (t.modGridRow r fun y => { y with held := some y.cadence }).writeCadence r 16) s
    { s with supplyBad := true }.report 1
/-- The supply is back: rails and CADENCE return to what they were. -/
def supplyBack (s : State) : State :=
  if !s.supplyBad then s
  else
    let s := { s with supplyBad := false }
    let s := (List.range 64).foldl (fun t c =>
      match (t.cluster c).held with
      | none => t
      | some low =>
        let t := t.modCluster c fun y => { y with held := none }
        if (t.cluster c).busy then t.modCluster c fun y => { y with low := low } else t.writeRail c low) s
    (List.range 128).foldl (fun t r =>
      match (t.gridRow r).held with
      | none => t
      | some v => (t.modGridRow r fun y => { y with held := none }).writeCadence r v.toNat) s

/-! The dealer's register writes (R93). -/

/-- THERM.HI or THERM.LO of a zone, where LO stays at least 2 °C below HI. -/
def setTherm (s : State) (z : Nat) (hi lo : Word) : State :=
  if degrees (lo.setWidth 16) + 0x20 ≤ degrees (hi.setWidth 16) then s.modZone z fun x => { x with hi := hi, lo := lo } else s
/-- A dealer's write of a register: an out-of-range value is refused and changes nothing. VALVE goes with the zone's entry, so that a
write by itself finds it at its share; the threshold of a column's error counter has no number (R214). -/
def dealerWrite (s : State) (reg : DealerReg) (v : Word) : State :=
  let n := v.toNat
  match reg with
  | .beatThreshold col => if 1 ≤ n ∧ n ≤ 65535 then s.modCol col fun x => { x with thresh := n } else s
  | .special num =>
    match SysReg.ofNum num.toNat with
    | some (.cadence r) => if 1 ≤ n ∧ n ≤ 16 then s.setCadence r n else s
    | some (.phaseCtl i) => s.writePhase i v
    | some (.railSel c) => if n ≤ 1 then s.setRail c (n == 1) else s
    | some (.valve z) => if s.coolState z = 2 ∧ n = valveFor (s.coolShare z) then s.moveValve z n else s
    | some (.thermHi z) => if n < 65536 then s.setTherm z v (s.zone z).lo else s
    | some (.thermLo z) => if n < 65536 then s.setTherm z (s.zone z).hi v else s
    | _ => s

end State

/-! The events. -/

def execSensorSample (col : Nat) (v : BitVec 16) (ok : Bool) (s : State) : Out := runEvent (·.sampleColumn col v ok) s
def execHotColumnCadenceRaise (col : Nat) (s : State) : Out := runEvent (·.hotRaise col) s
def execCurrentAlarm (clu : Nat) (s : State) : Out := runEvent (·.alarmRaised clu) s
def execCurrentAlarmCleared (clu : Nat) (s : State) : Out := runEvent (·.alarmCleared clu) s
def execCadenceStepDown (col : Nat) (s : State) : Out := runEvent (·.hotStepDown col) s
def execPackagePowerOverLimit (clu : Nat) (s : State) : Out := runEvent (·.overPower clu) s
def execRailSwitch (clu : Nat) (low : Bool) (s : State) : Out := runEvent (·.setRail clu low) s
def execRailSwitchComplete (clu : Nat) (s : State) : Out := runEvent (·.railDone clu) s
def execPhaseCtlWrite (stk : Nat) (v : Word) (s : State) : Out := runEvent (·.writePhase stk v) s
def execPhaseBoundary (clu : Nat) (s : State) : Out := runEvent (·.nextPhase clu) s
def execValveWrite (z : Nat) (share : CoolShare) (s : State) : Out :=
  runEvent (·.setShare z share.share.toNat share.floor.toNat) s
def execValveReportMismatch (z : Nat) (pos : BitVec 4) (s : State) : Out := runEvent (·.valveMismatch z pos.toNat) s
def execFlowRequestAnswer (z : Nat) (give : Byte) (s : State) : Out := runEvent (·.answerFlow z give.toNat) s
def execDealerRegisterWrite (reg : DealerReg) (v : Word) (s : State) : Out := runEvent (·.dealerWrite reg v) s
def execEvacuationStart (z : Nat) (s : State) : Out := runEvent (·.evacStart z) s
def execEvacuationCommitTimeout (z : Nat) (s : State) : Out := runEvent (·.evacTimeout z) s
def execEvacuationDry (z : Nat) (s : State) : Out := runEvent (·.evacDry z) s
def execEvacuationFailed (z : Nat) (s : State) : Out := runEvent (·.evacFail z) s
def execRefillStart (z : Nat) (share floor : Byte) (s : State) : Out := runEvent (·.refill z share.toNat floor.toNat) s
def execRefillComplete (z : Nat) (s : State) : Out := runEvent (·.refillDone z) s
def execRefillFail (z : Nat) (s : State) : Out := runEvent (·.refillFails z) s
def execSupplyOutOfLimits (s : State) : Out := runEvent (·.supplyFails) s
def execSupplyReturn (s : State) : Out := runEvent (·.supplyBack) s

end Sys2Proof.Machine
end

