-- ==== Sys2Proof/Machine/Contain.lean ====
section
/-! DEFINITION. Containment: corrected beats and lane repair, uncorrectable errors, the fencing of columns and cores, and Tazal
links that go down (R16, R21, R146, R172, R206, R214, R377 to R379, R397, R398, R407). -/
namespace Sys2Proof.Machine

namespace State

/-! The loss of a column (R21). -/

/-- The contexts whose streams hold the lease of a rectangle. -/
def leaseHolders (s : State) (p rect : Nat) : List (Nat × Ctx) :=
  s.ctxs.filter fun e => match e.2.lease with
    | .held r _ _ => e.2.partNo == p && r == rect
    | _ => false
/-- Ends the held lease of a rectangle as lost: at the next boundary of its holder's commands (R21), a parked one at once; an event of
kind 0x23 names the rectangle, at the loss of each of its columns. -/
def loseLease (s : State) (p rect col : Nat) : State :=
  let hs := s.leaseHolders p rect
  let s := s.modPart p fun q => { q with parked := q.parked.filter fun k => k.rect != rect }
  let s := if hs.isEmpty then s.endLease p rect
    else hs.foldl (fun t e => (t.modCtx e.1 fun x => { x with losing := true }).endLosing e.1) s
  s.event p 1 0x23 0 0 col rect 0xFFFFFFFF
/-- Ends the requests for a rectangle as lost. -/
def loseRequests (s : State) (p rect : Nat) : State :=
  let lose := fun (e : Nat × Ctx) => match e.2.lease with
    | .requested r _ => if e.2.partNo = p ∧ r = rect then (e.1, { e.2 with lease := .lost rect }) else e
    | _ => e
  let s := { s with ctxs := s.ctxs.map lose }
  s.withdraw p rect fun _ => true
/-- The rectangles that a partition holds or asks for and that cover a column. -/
def coveringHeld (s : State) (p col : Nat) : List Nat := (s.heldRects p).filter fun r => (s.rectColumns p r).contains col
def coveringAsked (s : State) (p col : Nat) : List Nat :=
  (((s.part p).reqs.map (·.rect)).eraseDups).filter fun r => (s.rectColumns p r).contains col
/-- A logical column is lost. Where no lease covers it, the event names no rectangle (log 5). -/
def loseColumn (s : State) (col : Nat) : State :=
  let open' := (List.range 64).filter fun p => (s.part p).isOpen
  let held := open'.flatMap fun p => (s.coveringHeld p col).map fun r => (p, r)
  let asked := open'.flatMap fun p => (s.coveringAsked p col).map fun r => (p, r)
  let s := s.modCol col fun x => { x with lost := true, markedAt := none }
  let s := asked.foldl (fun t e => t.loseRequests e.1 e.2) s
  if held.isEmpty then (s.columnEvent 1 0x23 0 col (Config.freeWord s.tick).toNat).bump
  else held.foldl (fun t e => t.loseLease e.1 e.2 col) s

/-! Fencing of a column (R377, Table 13-5). -/

/-- The physical position of a logical column (R16). -/
def physical (s : State) (col : Nat) : Nat :=
  let x := col % 32
  match (s.gridRow (rowOfCol col)).unusable with
  | some u => if u ≤ x then x + 1 else x
  | none => x
/-- Is a kitty free in the grid row of a column? -/
def kittyFree (s : State) (col : Nat) : Bool :=
  let g := s.gridRow (rowOfCol col)
  !g.kittyUsed && g.unusable.isNone
/-- The home copy that holds a line of bank memory, with the partition that registered it. -/
def homeCopyOf (s : State) (line : Nat) : Option (Nat × HomeCopy) :=
  (List.range 64).findSome? fun p =>
    ((s.part p).homecopies.find? fun h => h.base ≤ line * 64 && line * 64 < h.base + h.size).map fun h => (p, h)
/-- Restores an unreadable line from its home copy (step 3). -/
def restoreLine (s : State) (line : Nat) : State :=
  match s.homeCopyOf line with
  | none => s
  | some (p, h) =>
    let a := h.copy + (line * 64 - h.base)
    s.homeWrite (s.keydef p) p (line * 64) (if h.host then s.host.bytes a 64 else match s.vRead p true a 64 with | .ok bs => bs | .error _ => [])
/-- Step 4: a latch loaded again from its source, as the column controller's record gives it. -/
def reloaded (s : State) (p col : Nat) (old : Latch) : LatchSrc → Latch
  | .none => old
  | .weight off fmt turned idx =>
    let key := s.keydef p
    let band := if fmt = 4 then natOfBytes (s.homeBytes key (colPa col (0x5FF0000 + 2 * idx)) 2) else 0x3F80
    latchOf fmt.toNat turned (BitVec.ofNat 16 band) (s.homeBytes key (colPa col off) (tileBytes fmt.toNat))
  | .kv page first count _ posbase value =>
    let e : KvEntry := { col := col, page := page, first := first, count := count, posbase := posbase }
    chunkLatch value (s.homeBytes (s.keydef p) (e.pa + if value then 16384 else 0) 16384) (entryTokens value e
      (s.homeBytes (s.keydef p) (e.pa + if value then 16384 else 0) 16384))
/-- Both latches of the kitty's tile are loaded again (step 4). Those of a partition that has been closed no program reads: they stay. -/
def reloadTile (s : State) (col : Nat) : State :=
  match (s.col col).lastPart with
  | none => s
  | some p => if 64 ≤ p then s else s.modCol col fun x =>
    { x with front := s.reloaded p col x.front x.frontRec.src, back := s.reloaded p col x.back x.backRec.src }
/-- Step 5: the blocks that the column held become STALE with FRONTIER 0, in every list (R146), one event per request. -/
def staleColumn (s : State) (col : Nat) : State :=
  (List.range 64).foldl (fun t p =>
    if (t.part p).isOpen then
      (List.range (t.reqCnt p)).foldl (fun u i =>
        let r := t.reqFirst p + i
        if u.reqState r = 0 then u
        else
          let hit := fun (e : KvEntry) => e.valid && e.col == col
          let bases := (List.range (u.reqLayers r)).flatMap fun l => (List.range (u.reqHeads r)).flatMap fun h =>
            ((u.kvList p r l h).filter hit).map (·.posbase)
          if bases = [] then u
          else u.kvMapAll p r fun _ _ es => es.map fun e =>
            if e.valid && bases.contains e.posbase then { e with stale := true, frontier := 0 } else e) t
    else t) s
/-- Fences a column; `bad` are the lines of its banks that do not read. Its commands are aborted and stand in their queues to be
replayed. -/
def fenceColumn (s : State) (col : Nat) (bad : List Nat) : State :=
  let x := s.col col
  if x.lost then s
  else
    let s := s.abortOn 6 [col]
    if !s.kittyFree col || x.frontRec.changed || x.backRec.changed || bad.any (fun l => (s.homeCopyOf l).isNone) then
      s.loseColumn col
    else
      let pos := s.physical col
      let s := (s.modCol col fun y => { y with kitty := true, corr := 0, markedAt := none, lanes := [] }).modGridRow (rowOfCol col)
        fun g => { g with kittyUsed := true }
      let s := ((bad.foldl restoreLine s).reloadTile col).staleColumn col
      s.columnEvent 1 0x22 0 col pos

/-! Corrected beats and the bus test (R214, R397, R398). -/

/-- A corrected beat is counted; at the threshold the bus is marked. -/
def correctBeat (s : State) (col : Nat) : State :=
  s.modCol col fun x =>
    let n := min 65535 (x.corr + 1)
    { x with corr := n, markedAt := if x.thresh ≤ n then x.markedAt.or (some s.now) else x.markedAt }
/-- The contexts whose stream holds a lease over a column. -/
def ownersOf (s : State) (col : Nat) : List Nat :=
  (s.ctxs.filter fun e => match e.2.lease with
    | .held r _ _ => (s.rectColumns e.2.partNo r).contains col
    | _ => false).map (·.1)
/-- Does a lease wait under R394: not every column of its rectangle is in a wet zone, and no command of the stream that uses the
lease runs? -/
def leaseWaits (s : State) (c : Nat) : Bool :=
  match (s.ctx c).lease with
  | .held r _ _ => (s.rectColumns (s.ctx c).partNo r).any (fun k => decide (k < 4096) && s.coolState (zoneOfCol k) != 2)
      && !((s.ctx c).stream 0).started.any needsLease
  | _ => false
/-- Is a column at a context-switch boundary of its owner (R397): no running stream leases it, or its lease waits? -/
def atBoundary (s : State) (col : Nat) : Bool := (s.ownersOf col).all s.leaseWaits
/-- The test of a marked bus (R398): each failing lane takes the lowest unused spare, a lane that a spare already stands for another
one; without one the column is fenced. A test that repairs nothing writes one event that says so. -/
def testBus (s : State) (col : Nat) (failing : List Nat) : State :=
  let x := s.col col
  if x.markedAt.isNone || !s.atBoundary col then s
  else
    let new := failing.eraseDups.filter fun l => decide (l < 592)
    let fixed := new.take (16 - x.lanes.length)
    let s := s.modCol col fun y => { y with corr := 0, markedAt := none, lanes := x.lanes ++ fixed }
    let s := fixed.foldl (fun t l => t.columnEvent 1 0x26 0 col l) s
    let s := if fixed.isEmpty then s.columnEvent 1 0x26 0 col 0xFFFFFFFF else s
    if fixed.length < new.length then s.fenceColumn col [] else s
/-- No boundary within 100 ms of the mark: the owning unit is pre-empted. -/
def testDeadline (s : State) (col : Nat) : State :=
  match (s.col col).markedAt with
  | some t =>
    if t + 100000000 ≤ s.now then
      (s.ownersOf col).foldl (fun u c => u.modCtx c fun y => { y with preempt := y.preempt.or (some s.now) }) s
    else s
  | none => s

/-! Uncorrectable errors (R379). -/

/-- A started command meets an error: it is aborted and replayed, and on the third recurrence the column is fenced. -/
def errCommand (s : State) (c k n col pa : Nat) : State :=
  match s.startedCmd c k n with
  | none => s
  | some d =>
    let s := s.columnEvent 1 0x24 0 col pa
    if 3 ≤ d.tries then s.fenceColumn col [pa / 64]
    else
      let up := fun (e : Cmd) => if e = d then { e with tries := e.tries + 1 } else e
      (s.modStream c k fun t => { t with started := t.started.map up }).requeue c k fun e => e == up d
/-- What a load gives once the line it meets has been filled again (R379, R380): a byte that the home gave it, and that the refill has changed
there, is the byte of the refilled home; every other byte is as the load read it. `old` is the state before the refill. -/
def refilled (s old : State) (c : Nat) (w : PendWrite) : PendWrite :=
  match w.eff with
  | .g r v =>
    let l := assocGet ({} : LoadSrc) (s.ctx c).loadAt r.val
    if l.size = 0 then w
    else
      let bs := (List.range l.size).map fun i =>
        let b := s.homeByte l.key (l.pa + i)
        if l.home.getLsbD i && b != old.homeByte l.key (l.pa + i) then b else byteAt v i
      { w with eff := .g r (if l.signed then sextBytes (natOfBytes bs) l.size else BitVec.ofNat 64 (natOfBytes bs)) }
  | _ => w
/-- Has a write in flight come from a load of memory that the L1 did not give? -/
def fromMemory (s : State) (c : Nat) (w : PendWrite) : Bool :=
  w.load && w.due.isNone && (match w.eff with
    | .g r _ => (assocGet ({} : LoadSrc) (s.ctx c).loadAt r.val).size != 0
    | _ => false)
/-- The oldest load of a context that reads memory meets an error: its register stays pending, and it is replayed; on the third recurrence the column is
fenced, and the load completes from the refilled data. -/
def errLoad (s : State) (c col pa : Nat) : State :=
  match (s.ctx c).wq.find? (s.fromMemory c) with
  | none => s
  | some w =>
    let up := fun (f : PendWrite → PendWrite) (s : State) =>
      s.modCtx c fun x => { x with wq := x.wq.map fun e => if e = w then f e else e }
    if 3 ≤ w.tries then
      let t := s.fenceColumn col [pa / 64]
      up (t.refilled s c) t
    else up (fun e => { e with tries := e.tries + 1 }) s
/-- Cancels a launch with ERR set. -/
def cancelWithErr (s : State) (l : Nat) : State :=
  let s := s.cancelLaunchNo l
  let x := s.launch l
  let c := s.counter x.part x.fields.cnt
  s.setCounter x.part x.fields.cnt { c with err := true }
/-- The partition that owns a cluster's dirty copy of a line. -/
def dirtyOwner (s : State) (clu line : Nat) : Option Nat :=
  (((s.cluster clu).sector line).bind fun t => if t.dirty then some t.part else none).or
    ((List.range 8).findSome? fun i => ((s.core (clu * 8 + i)).l1At line).bind fun t =>
      if t.dirty != 0 then some t.part else none)
/-- Dirty data with no other copy is lost: every launch of its partition with a unit bound in the cluster is cancelled. -/
def errDirty (s : State) (clu col pa : Nat) : State :=
  let line := canon pa / 64
  match s.dirtyOwner clu line with
  | none => s
  | some p =>
    let ls := (s.launches.filter fun e => e.2.part == p && !e.2.complete &&
      e.2.ctxs.any fun c => s.boundTo c e.1 && clusterOf (coreOf c) == clu).map (·.1)
    let s := (s.modCluster clu (·.dropSector line))
    let s := (List.range 8).foldl (fun t i => t.modCore (clu * 8 + i) (·.dropL1 line)) s
    let s := ls.foldl cancelWithErr s
    s.event p 1 0x24 0 0 col pa 0xFFFFFFFF
def uncorrectable (s : State) (site : ErrorSite) (col : Nat) (addr : Word) : State :=
  match site with
  | .command c k n => s.errCommand c k n col (canon addr.toNat)
  | .load c => s.errLoad c col (canon addr.toNat)
  | .dirty clu => s.errDirty clu col addr.toNat

/-! Fencing of a core (R172, R206, R378). -/

/-- Every unit that waits on a barrier of the given owners raises BARRIER when it next issues: contexts held at a BAR
instruction, pre-empted ones, and suspended records, which become ready (R206, R407). -/
def loseBarriers (s : State) (owner : Nat → Bool) : State :=
  let on := fun (o : Option Nat) => match o with | some v => owner v | none => false
  let held := fun (e : Nat × Ctx) => if on e.2.barOn then (e.1, { e.2 with barLost := true }) else e
  let kept := fun (k : Nat × Kept) => if on k.2.barOn then (k.1, { k.2 with barLost := true }) else k
  let part := fun (e : Nat × Part) => (e.1, { e.2 with kept := e.2.kept.map kept })
  let s := { s with ctxs := s.ctxs.map held, parts := s.parts.map part }
  s.suspended.foldl (fun t e =>
    match t.readRec e.1 e.2 with
    | none => t
    | some r =>
      if waitKind r.wait = 3 ∧ owner (bitsOf (waitObj r.wait) 22 17 * 512 + bitsOf (waitObj r.wait) 16 8) then
        let k := assocGet ({} : Kept) (t.part e.1).kept e.2
        let t := (t.setRecState e.1 e.2 1).modPart e.1 fun q => { q with kept := assocSet q.kept e.2 { k with barLost := true } }
        t.enqueue { recVa := e.2, part := e.1, launch := BitVec.ofNat 32 r.launch, pri := r.pri, time := t.now, home := k.home }
      else t) s
/-- Takes a unit off a fenced core: its commands end without commit, its stores are performed, the lease or request of its stream or of its
record ends (R334), and its record goes back to state 1 as last written, with its pre-emption block where it came from one. A unit that is marked
to stop ends. What R375 clears of a removed context is cleared. -/
def unseat (s : State) (c : Nat) : State :=
  match (s.ctx c).running with
  | none => s
  | some u =>
    let s := s.modCtx c fun x => { x with wq := [] }
    let s := ((((s.flushStreams c).drainSq c).drainSps c).dropLease c).dropParked u.part u.recVa
    if (s.ctx c).cancel.isSome then (s.finishUnit u.part u.recVa (s.stopState c u) false (coreOf c)).clearCtx c
    else
      let l := (s.ctx c).launch
      let s := match s.readRec u.part u.recVa with
        | some r => s.writeRec u.part u.recVa { r with state := 1, frame := if u.block then r.frame + 1 else r.frame }
        | none => s
      (s.clearCtx c).enqueue { recVa := u.recVa, part := u.part, launch := l, pri := u.pri, time := s.now, home := coreOf c }
/-- The pre-emption blocks that a core wrote are no longer tied to it (R378). -/
def freeBlocks (s : State) (core : Nat) : State :=
  let free := fun (k : Nat × Kept) => if k.2.home = core then (k.1, { k.2 with freed := true }) else k
  { s with parts := s.parts.map fun e => (e.1, { e.2 with kept := e.2.kept.map free }) }
/-- Fences a core. -/
def fenceCore (s : State) (core : Nat) : State :=
  if s.coreFenced core then s
  else
    let cs := (List.range 4).map (core * 4 + ·)
    let moved := (cs.filter fun c => (s.ctx c).running.isSome).length
    let waiting := (s.core core).ready
    let s := s.freeBlocks core
    let s := cs.foldl (fun t c =>
      let t' := t.setSlotState c 4
      if t.slotState c == 1 || t.slotState c == 3 then t'.loseContext c (t.slotLaunch c) else t') s
    let s := cs.foldl (fun t c => (t.unseat c).modCtx c fun x => { x with msgq := [] }) s
    let s := (s.core core).l1.foldl (fun t e => t.l1Flush core e.line e.part) s
    let s := s.loseBarriers fun o => o == s.pkg * 512 + core
    let s := s.modCore core fun x =>
      { x with ready := [], sp := [], part := none, ibuf := [], tlb := [], bars := Vector.replicate 32 {} }
    let s := (List.range 64).foldl (fun t r => t.setRow (tabKey core r) {}) s
    let s := waiting.foldl enqueue s
    s.eventAll (fun p => s.coreGranted p core) 1 0x25 0 0 core moved 0xFFFFFFFF
/-- The dealer returns a repaired core to service: its fenced slots become free. -/
def returnCore (s : State) (core : Nat) : State :=
  (List.range 4).foldl (fun t i => if t.slotState (core * 4 + i) = 4 then t.setSlotState (core * 4 + i) 0 else t) s

/-! Links (R407). -/

/-- The link that an event names: 0 to 3 an edge of this package, 4 + 4 q + d edge d of package q. One that leads to this package is named by
the edge here. -/
def linkNo (s : State) (e : Nat) : Nat × Nat :=
  if e < 4 then (s.pkg, e)
  else if beyond ((e - 4) / 4) ((e - 4) % 4) = some s.pkg then (s.pkg, (e - 2) % 4)
  else ((e - 4) / 4, (e - 4) % 4)
/-- Notes a link as down; what a link of this package had to send has been replayed another way, or ends with its lease. -/
def linkOff (s : State) (q d : Nat) : State :=
  if q = s.pkg then { s with links := vset s.links d false, linkq := s.linkq.filter (·.1 != d) }
  else match beyond q d with
    | some n => { s with farDown := s.farDown ++ [(min q n, d % 2 == 0)] }
    | none => s
/-- A link goes down (R407), of this package or between two others: the leases whose rectangles cross it, and the requests that wait for
one, end as lost columns, and waits on barriers of packages to which no route remains end with BARRIER; so do the collectives over Tazal, at
their next step. -/
def dropLink (s : State) (edge : Nat) : State :=
  let (q, d) := s.linkNo edge
  if !s.linkUp q d then s
  else
    let before := s.peers.filter s.reaches
    let s := s.linkOff q d
    let crossed := fun (f : State → Nat → List Nat) => (List.range 64).flatMap fun p =>
      if (s.part p).isOpen then ((f s p).filter fun r => s.rectSpans p r q d).map fun r => (p, r) else []
    let asked := crossed fun t p => ((t.part p).reqs.map (·.rect)).eraseDups
    let held := crossed heldRects
    let s := asked.foldl (fun t e => t.loseRequests e.1 e.2) s
    let s := held.foldl (fun t e => t.loseLease e.1 e.2 ((t.rectColumns e.1 e.2).headD 0)) s
    let gone := before.filter fun p => !s.reaches p
    if gone = [] then s else s.loseBarriers fun o => gone.contains (o / 512)

end State

/-! The events. -/

def execCorrectedBeat (col : Nat) (s : State) : Out := runEvent (·.correctBeat col) s
def execBusTest (col : Nat) (failing : List Nat) (s : State) : Out := runEvent (·.testBus col failing) s
def execBusTestDeadline (col : Nat) (s : State) : Out := runEvent (·.testDeadline col) s
def execUncorrectableError (site : ErrorSite) (col : Nat) (addr : Word) (s : State) : Out :=
  runEvent (·.uncorrectable site col addr) s
def execColumnFence (col : Nat) (s : State) : Out := runEvent (·.fenceColumn col []) s
def execCoreFence (core : Nat) (s : State) : Out := runEvent (·.fenceCore core) s
def execCoreReturnToService (core : Nat) (s : State) : Out := runEvent (·.returnCore core) s
def execLinkDown (edge : Nat) (s : State) : Out := runEvent (·.dropLink edge) s

end Sys2Proof.Machine
end

