-- ==== Sys2Proof/Machine/HostIf.lean ====
section
/-! DEFINITION. The host, the peers and the dealer's commands: snoops and HDM accesses, far requests, collectives of other
packages, boot, and the commands of the mailbox and of the command rings (R11, R103, R124, R197, R211, R212, R214, R401 to R411). -/
namespace Sys2Proof.Machine

/-- One of a list, as the dealer chooses (log 6). -/
def State.pick (s : State) (l : List Nat) : Option (Nat × State) :=
  match l with
  | [] => none
  | [n] => some (n, s)
  | n :: _ => some (l.getD (Config.choose s.tick l.length % l.length) n, s.bump)

namespace State

/-! The host and the peers. -/

/-- The device address of a host address in a far-memory window. -/
def farAddr (s : State) (a : Nat) : Option Nat :=
  ((s.windows.filterMap (·.2)).find? fun w => w.host ≤ a && a < w.host + w.size).map fun w => w.dev + (a - w.host)
/-- A host snoop of a line by host address (R103): L1 copies merge, dirty bytes go to the host, and the copies go, or stay clean
and shared. The write-backs count for the partitions that filled the copies (DESIGN CHOICE, log 28: R216 lists no host snoop). -/
def snoop (s : State) (a : Nat) (excl : Bool) : State :=
  match s.farAddr a with
  | none => s
  | some d =>
    let line := d / 64
    let s := s.cores.foldl (fun t e => t.l1Sink (clusterOf e.1) line ((((e.2.l1At line).map (·.part))).getD 0) e.1) s
    (s.holders line).foldl (fun t k => t.recallFrom line ((((t.cluster k).sector line).map (·.part)).getD 0) (!excl) k) s
/-- The HDM range that holds an access of the host. -/
def hdmAt (s : State) (a n : Nat) : Option Window :=
  (s.hdms.filterMap (·.2)).find? fun w => w.host ≤ a && a + n ≤ w.host + w.size
/-- The parts of a range of device addresses that each stand in one place of the column view: the spread view goes on in the next
column after each 64 KiB (R97). Each is its address and size. -/
def spreadParts (a n : Nat) : List (Nat × Nat) :=
  let k := 65536 - a % 65536
  if n ≤ k then [(canon a, n)] else [(canon a, k), (canon (a + k), n - k)]
/-- A host access through an HDM range, at the home (R401); outside every range it returns all ones and stores nothing. -/
def hdmAccess (s : State) (a n : Nat) (store : Bool) (v : Word) : State :=
  match s.hdmAt a n with
  | none => if store then s else { s with hdmData := BitVec.allOnes 64 }
  | some w =>
    let parts := spreadParts (w.dev + (a - w.host)) n
    if store then
      (parts.foldl (fun (r : State × List Byte) e => (r.1.homeWrite w.key w.part e.1 (r.2.take e.2), r.2.drop e.2))
        (s, bytesOfNat n v.toNat)).1
    else
      let s := parts.foldl (fun t e => t.busRecall w.part e.1 e.2) s
      { s with hdmData := BitVec.ofNat 64 (natOfBytes (parts.flatMap fun e => bytesOfNat e.2 (s.cohNat w.key e.1 e.2))) }
/-- The bytes that a far request leaves, from the bytes it finds: numbers of `z` bytes. -/
def farNew (op : FarOp) (z : Width) (old v : Word) : Word :=
  match op with
  | .load => old
  | .store | .swap => v
  | .add => old + v
  | .min => minW (narrowS z old) (narrowS z v)
  | .max => maxW (narrowS z old) (narrowS z v)
  | .minu => minuW (narrowU z old) (narrowU z v)
  | .maxu => maxuW (narrowU z old) (narrowU z v)
  | .and => old &&& v
  | .or => old ||| v
  | .xor => old ^^^ v
  | .cas e => if narrowU z old = narrowU z e then v else old
/-- A far access of a peer to region 0 of this package, performed at the home as one access of its size (R103, R133): what it
finds is the answer, which joins the far responses of a link (log 6: the manual does not say how a request names the link it came by);
where that queue is full the request is not accepted (R164). A write-back that its recall makes counts for partition 0 (DESIGN CHOICE, log 28:
R216 charges the requesting partition, and names none for a peer). -/
def farRequest (s : State) (op : FarOp) (pa n key : Nat) (v : Word) : State :=
  let edge := Config.choose s.tick 4 % 4
  if !lowRangeOk pa n || !s.linkRoom edge .responses then s
  else
    let s := s.busRecall 0 pa n
    let old := s.cohNat key pa n
    let s := (({ s with farData := BitVec.ofNat 64 old } : State).linkPush edge .responses).bump
    if op = .load then s
    else s.homeWrite key 0 pa (bytesOfNat n (farNew op (if n = 8 then .d else .w) (BitVec.ofNat 64 old) v).toNat)
/-- A barrier arrival or a REDUCE contribution of another package (R204, R358). An arrival that differs is refused there. -/
def peerArrives (s : State) (a : PeerArrival) : State :=
  match a with
  | .barrier d =>
    let b := BarDesc.ofWord d
    let x := s.barrier b.pkg b.core b.bar
    if b.tag != 7 || x.differs b.n b.tag then s else s.setBarrier b.pkg b.core b.bar (x.arrive b.n b.tag)
  | .reduce p tag op data =>
    let n := opBits tag 11 0
    let c := s.collective p n
    if opBits tag 14 12 ≠ 7 ∨ (c.result.isSome ∧ s.reducing p n) then s
    else
      let s := if c.result.isSome then s.setCollective p n {} else s
      (s.arrive p n 7 (op &&& 0x1FFFF0F) data.length { rank := opBits op 48 32, owner := none, data := data }).getD s

/-! Boot (R2, R408). -/

/-- The first sample of a column's sensor, with its self-check (R388): a sample that fails leaves the reading 0x0000. -/
def firstSample (s : State) (e : Nat × BitVec 16 × Bool) : State :=
  if 4096 ≤ e.1 then s else s.modCol e.1 fun x =>
    if e.2.2 then { x with temp := e.2.1, trip := decide (0x690 ≤ degrees e.2.1) } else { x with fail := true }
/-- A package reset: everything is at its reset value but the host's memory, what the configuration record gives, the key slots'
history and the model's own fields, and each sensor that `sensors` lists has taken its first sample (log 10); then the boot sequence of
Table 15-5, which stops at the first of its steps 1 to 6 that fails and reports it: step n as the number 2000 + n (log 4). -/
def resetPackage (s : State) : State :=
  let rows := s.gridRows.map fun e => (e.1, ({ unusable := e.2.unusable } : GridRow))
  let t : State := { host := s.host, gridRows := rows, peers := s.peers, pkg := s.pkg, keyGen := s.keyGen, agenda := s.agenda,
                     tick := s.tick, sensors := s.sensors }
  let t := s.sensors.foldl firstSample t
  match ((List.range 6).map (· + 1)).find? fun n => !Config.bootStep n with
  | none => { t with booted := true }
  | some n => t.report (2000 + n)

end State

/-! Command blocks (R402, R403, R410). -/

/-- A field of a block or descriptor: `k` bytes at byte `b`. -/
def blockField (n b k : Nat) : Nat := n / 2 ^ (8 * b) % 2 ^ (8 * k)
/-- Are byte ranges of a block zero? -/
def zeroBytes (n : Nat) (l : List (Nat × Nat)) : Bool := l.all fun r => blockField n r.1 (r.2 + 1 - r.1) == 0
/-- May only the host issue a command (Table 15-3)? -/
def hostOnly (code : Nat) : Bool := !([7, 8, 9, 10].contains code)
/-- Does a host block name no partition (Table 15-7): POWER.LIMIT, and RANGE.SET but for an HDM range? -/
def unnamed (n : Nat) : Bool := blockField n 0 1 == 12 || (blockField n 0 1 == 5 && blockField n 8 1 != 2)
/-- Does a host block name a partition that must be open? A RANGE.SET does so for an HDM range alone. -/
def namesPart (n : Nat) : Bool :=
  match blockField n 0 1 with
  | 1 | 11 | 12 => false
  | 5 => blockField n 8 1 == 2
  | _ => true

/-- What a command answers: status, result and the state after it. -/
abbrev Answer := Nat × Nat × State

namespace State

/-- The mailbox register at a byte offset, as the host reads it (Table 15-2): MBX.DB, the ignored bits of MBX.CMD (R4) and the reserved
bytes read as zero. -/
def mbxRead (s : State) (off : Nat) : Word :=
  match off with
  | 0x00 => s.mbxCmd
  | 0x10 => s.mbxStat
  | _ => 0
/-- Is a host command in progress (MBX.STAT.BUSY)? -/
def mbxBusy (s : State) : Bool := s.mbxStat.getLsbD 0
/-- A GO that arrives while BUSY is set is ignored, and LOST says so. -/
def goLost (s : State) : State := if s.mbxBusy then { s with mbxStat := s.mbxStat ||| 4 } else s
/-- A host write of MBX.STAT: DONE and LOST are cleared by ones. -/
def mbxStatWrite (s : State) (v : Word) : State := { s with mbxStat := s.mbxStat &&& ~~~(v &&& 6) }
/-- The host writes a mailbox register (R402). A GO that is accepted starts the command at the address that stands in MBX.CMD then. -/
def mbxWrite (s : State) (off : Nat) (v : Word) : State :=
  match off with
  | 0x00 => { s with mbxCmd := v &&& ~~~63 }
  | 0x08 => if !v.getLsbD 0 then s else if s.mbxBusy then s.goLost else { s with mbxGo := s.mbxCmd, mbxStat := s.mbxStat ||| 1 }
  | 0x10 => s.mbxStatWrite v
  | _ => s
/-- Performs a host block (R402), where the package has booted: the command in progress, or one whose CMD and GO are written with
it; the completion word, DONE and vector 0 follow, and BUSY clears. A block of another known command is not taken. -/
def hostCommand (s : State) (a : Word) (code : Nat) (ok : Nat → Bool) (act : Bool → Nat → Nat → State → Answer) : State :=
  let at' := a.toNat / 64 * 64
  let n := s.host.nat at' 64
  let c := blockField n 0 1
  let p := blockField n 1 1
  if !s.booted || (s.mbxBusy && s.mbxGo != a) || (c != code && decide (1 ≤ c) && decide (c ≤ 12)) then s
  else
    let s := if s.mbxBusy then s else { s with mbxCmd := a &&& ~~~63, mbxGo := a }
    let partOk := c == 11 || (if unnamed n then p == 0 else decide (p < 64))
    let r : Answer :=
      if c != code || !partOk || !ok n then (1, 0, s)
      else if namesPart n && !(s.part p).isOpen then (2, 0, s)
      else act true p n s
    { r.2.2 with host := r.2.2.host.putNat (at' + 56) 8 (r.1 + r.2.1 * 256), mbxStat := r.2.2.mbxStat &&& ~~~1 ||| 2,
                 msix := r.2.2.msix ++ [0] }
/-- The address of a byte of a partition's command ring: RING may name either view of bank memory. -/
def ringAt (s : State) (p off : Nat) : Nat := canon ((s.part p).ring + off)
/-- TAIL and HEAD of a partition's command ring. -/
def ringTail (s : State) (p : Nat) : Nat := s.cohNat (s.keydef p) (s.ringAt p 0) 4
def ringHead (s : State) (p : Nat) : Nat := s.cohNat (s.keydef p) (s.ringAt p 4) 4
/-- Has a partition's command ring a block that the dealer has not taken? -/
def ringWaiting (s : State) (p : Nat) : Bool := s.ringTail p != s.ringHead p
/-- The address of the block at HEAD. -/
def ringBlock (s : State) (p : Nat) : Nat := s.ringAt p (64 + 64 * (s.ringHead p % (s.part p).ringN))
/-- The code of the block at HEAD of a partition's command ring. -/
def ringCode (s : State) (p : Nat) : Nat := s.cohNat (s.keydef p) (s.ringBlock p) 1
/-- Takes the block at HEAD of a partition's command ring (R403). -/
def ringCommand (s : State) (p code : Nat) (ok : Nat → Bool) (act : Bool → Nat → Nat → State → Answer) : State :=
  let key := s.keydef p
  let at' := s.ringBlock p
  let n := s.cohNat key at' 64
  let c := blockField n 0 1
  if !s.booted || !(s.part p).isOpen || !s.ringWaiting p || (c != code && decide (1 ≤ c) && decide (c ≤ 12)) then s
  else
    let s := s.homeWrite key p (s.ringAt p 4) (bytesOfNat 4 (s.ringHead p + 1))
    let r : Answer :=
      if c == code && hostOnly c then (2, 0, s)
      else if c != code || !ok n then (1, 0, s)
      else act false p n s
    r.2.2.homeWrite key p (at' + 56) (bytesOfNat 8 (r.1 + r.2.1 * 256))
/-- A command from either source. `ok` are the checks of the block's form, `act` the command. -/
def command (s : State) (src : CmdSource) (code : Nat) (ok : Nat → Bool) (act : Bool → Nat → Nat → State → Answer) : State :=
  match src with
  | .host a => s.hostCommand a code ok act
  | .ring p => s.ringCommand p code ok act
/-- Writes bytes where a command says: host memory, or the partition's virtual space. -/
def cmdWrite (s : State) (host : Bool) (p a : Nat) (bs : List Byte) : Option State :=
  if host then some { s with host := s.host.putBytes a bs }
  else match s.vWrite p true a bs with
    | .ok t => some t
    | .error _ => none

/-! PART.OPEN and PART.CLOSE (R11, R124, R411). -/

/-- Is an address of bank memory or of the underdeck in a grant? -/
def inGrant (cols : BitVec 4096) (udFirst udCnt a : Nat) : Bool :=
  match lowRegion a with
  | .bank c _ => decide (a < 2 ^ 39) && cols.getLsbD c
  | .under _ _ => decide (udFirst ≤ (a - 2 ^ 39) / 2 ^ 21) && decide ((a - 2 ^ 39) / 2 ^ 21 < udFirst + udCnt)
  | _ => false
/-- Does a range of the spread view end in it, and the columns over which it is spread, 64 KiB at a time (R97)? -/
def inSpread (a n : Nat) : Bool := decide (0x18000000000 ≤ a) && decide (a + n ≤ 0x18000000000 + 384 * 2 ^ 30)
def spreadColumns (a n : Nat) : List Nat :=
  let d := a - 0x18000000000
  (List.range (min 4096 ((d % 65536 + n + 65535) / 65536))).map fun i => (d / 65536 + i) % 4096
/-- Does a range of memory, in either view of bank memory or the underdeck, lie in a grant? -/
def rangeInGrant (cols : BitVec 4096) (udFirst udCnt a n : Nat) : Bool :=
  if inSpread a n then (spreadColumns a n).all fun c => cols.getLsbD c
  else lowRangeOk a n && inGrant cols udFirst udCnt a && inGrant cols udFirst udCnt (a + n - 1) &&
    (List.range (n / 2 ^ 21)).all fun i => inGrant cols udFirst udCnt (a + i * 2 ^ 21)
/-- Do two ranges that are not empty overlap? -/
def meet (a n b m : Nat) : Bool := n != 0 && m != 0 && overlap a n b m
/-- Drops bytes of memory, with the slots of their lines: they read as zero again. -/
def wipe (s : State) (f : Nat → Bool) : State :=
  { s with mem := s.mem.filter (fun c => !f c.1), blockKey := s.blockKey.filter fun e => !f (e.1 * 16) }
/-- Writes back and drops every cached line that a condition selects. -/
def flushLines (s : State) (f : Nat → Bool) : State :=
  let lines := (s.cores.flatMap fun e => e.2.l1.map (·.line)) ++ s.clusters.flatMap fun e => e.2.l2.map (·.line)
  (lines.filter f).eraseDups.foldl (fun t l =>
    t.recallAll l (((t.clusters.findSome? fun e => (e.2.sector l).map (·.part))).getD 0)) s

def partOpenOk (n : Nat) : Bool := zeroBytes n [(2, 7), (16, 55)]
/-- PART.OPEN: the grant is read and checked against every open partition (R411; a descriptor that is malformed besides has status 1,
R410), memory is zeroed (R11), the flags are clear (R273), and the zones take their owner. Registers and tables keep their values: no list of what
changes them names PART.OPEN (R10). -/
def openPart (_ : Bool) (p n : Nat) (s : State) : Answer :=
  let g := s.host.nat (blockField n 8 8) 704
  let f := blockField g
  let cols := BitVec.ofNat 4096 g
  let cores := BitVec.ofNat 512 (f 512 64)
  let zones := BitVec.ofNat 256 (f 576 32)
  let keys := BitVec.ofNat 128 (f 608 16) &&& ~~~1#128
  let (reqF, reqN, grpF, grpN) := (f 624 2, f 626 2, f 628 2, f 630 2)
  let (udF, udN, ring, ringN) := (f 632 4, f 636 4, f 640 8, f 648 2)
  let bad := f 650 54 != 0 || ringN == 0 || decide (256 < ringN) || ring % 64 != 0 || decide (4096 < reqF + reqN)
    || decide (256 < grpF + grpN) || decide (2048 < udF + udN)
  let clash := fun q =>
    let x := s.part q
    x.isOpen && (cols &&& x.cols != 0 || cores &&& x.cores != 0 || zones &&& x.zones != 0 || keys &&& x.keys != 0
      || meet reqF reqN (s.reqFirst q) (s.reqCnt q) || meet grpF grpN (s.grpFirst q) (s.grpCnt q)
      || meet udF udN x.udFirst x.udCnt)
  if (s.part p).isOpen || (List.range 64).any clash || !rangeInGrant cols udF udN ring (64 + 64 * ringN) then (2, 0, s)
  else if bad then (1, 0, s)
  else
    let mine := inGrant cols udF udN
    let s := (s.flushLines fun l => mine (l * 64)).wipe mine
    let s := s.modPart p fun x => { x with isOpen := true, cols := cols, cores := cores, zones := zones, keys := keys, udFirst := udF,
                                           udCnt := udN, ring := ring, ringN := ringN, flags := 0 }
    let s := (((s.tput (pdAddr p) 2 reqF).tput (pdAddr p + 2) 2 reqN).tput (pdAddr p + 4) 2 grpF).tput (pdAddr p + 6) 2 grpN
    let s := (List.range 256).foldl (fun t z => if zones.getLsbD z then t.tput (coolAddr z) 1 (128 + p) else t) s
    (0, 0, s)

def partCloseOk (n : Nat) : Bool := zeroBytes n [(2, 55)]
/-- Ends everything that runs for a partition. -/
def stopPart (s : State) (p : Nat) : State :=
  let s := (List.range 63).foldl (fun t j => t.cancelJobNo p j) s
  let ls := (s.launches.filter fun e => e.2.part == p && !e.2.complete).map (·.1)
  let s := ls.foldl cancelLaunchNo s
  let s := s.ctxs.foldl (fun t e =>
    match e.2.running with
    | some u => if u.part = p then t.stopCancelled e.1 5 else t
    | none => t) s
  let s := ls.foldl (fun t l => if (t.launch l).complete then t else t.finishLaunch l) s
  (List.range 63).foldl (fun t j => if t.jobOpen p j then t.endJob p j else t) s
/-- PART.CLOSE: the jobs are cancelled, its slots retire, cached lines of the partition are written back and dropped, its key slots
get fresh keys (R124), its zones are released and evacuated, and its state goes but for its registers, counters and flags: no list of what
changes them names PART.CLOSE (R10). A core's bytes and a column's latches are then of no partition that can be opened (log 28). With it goes what was kept of its images: the partition releases every page it holds (R219, log 28). -/
def closePart (_ : Bool) (p _n : Nat) (s : State) : Answer :=
  let s := s.stopPart p
  let s := (List.range 2048).foldl (fun t c =>
    if t.slotPart c ≠ p then t else if t.slotState c = 1 then t.retireSlot c else t.slotDrained c) s
  let mine := (s.cores.flatMap fun e => (e.2.l1.filter fun l => l.part == p).map (·.line))
    ++ s.clusters.flatMap fun e => (e.2.l2.filter fun l => l.part == p).map (·.line)
  let s := (s.flushLines fun l => mine.contains l).tlbRemove p 0 0
  let s := (List.range 256).foldl (fun t z =>
    if (t.part p).zones.getLsbD z then
      let t := if t.coolState z = 1 ∨ t.coolState z = 2 then t.evacuate z else t
      (t.tput (coolAddr z) 1 0).modZone z fun x => { x with flow := none }
    else t) s
  let x := s.part p
  let s := (List.range 128).foldl (fun t k =>
    if x.keys.getLsbD k then { t with keyGen := assocSet t.keyGen k (assocGet 0 t.keyGen k + 1) } else t) s
  let mons := fun (e : Nat × Stack) => (e.1, { e.2 with monitors := e.2.monitors.filter fun m => m.2.part != some p })
  let cores := fun (e : Nat × Core) => (e.1, if e.2.part = some p then { e.2 with part := none } else e.2)
  let cols := fun (e : Nat × Column) => (e.1, if e.2.lastPart = some p then { e.2 with lastPart := some 64 } else e.2)
  let hdm := fun (e : Nat × Option Window) => (e.1, e.2.filter fun w => w.part != p)
  let s := { s with
    stks := s.stks.map mons, hdms := s.hdms.map hdm,
    cores := s.cores.map cores, cols := s.cols.map cols,
    launches := s.launches.filter (fun e => e.2.part != p), launchq := s.launchq.filter (fun e => (s.launch e.1).part != p),
    nodeWait := s.nodeWait.filter (fun w => match w with | .node q _ _ => q != p | .launch l => (s.launch l).part != p),
    graphs := s.graphs.filter (fun e => e.1 / 1024 != p),
    phases := s.phases.filter (fun e => e.1 / 1024 != p), jobs := s.jobs.filter fun e => e.1 / 1024 != p }
  (0, 0, s.setPart p { leaseMax := x.leaseMax, thresh := x.thresh, repairLayer := x.repairLayer, modelId := x.modelId,
                       counters := x.counters, flags := x.flags, nextRun := x.nextRun, stats := x.stats })

/-! JOB.SUBMIT and JOB.END (R404). -/

def jobSubmitOk (n : Nat) : Bool := zeroBytes n [(2, 7), (24, 55)] && blockField n 16 8 % 8 == 0
/-- The job counters that a submission may take: not open, and not the launch's own. Those below the launch's own come first, so that a
program that numbers its levels upwards finds the next ones free (DEDUCED, log 17: with the counters of Table 16-10 the job's is none of
those that the program opens). -/
def freeJobs (s : State) (p cnt : Nat) : List Nat :=
  let free := (List.range 63).filter fun j => (s.counter p j).status != 1 && j != cnt
  match free.filter (· < cnt) with
  | [] => free
  | js => js
/-- The cause for which LAUNCH would refuse the record, or its fields. -/
def submitCheck (s : State) (p a : Nat) : Except Nat LaunchRec :=
  if a % 64 ≠ 0 then .error 0x08
  else match s.readLaunch p true a with
    | .error e => .error e.1.toNat
    | .ok none => .error 0x01
    | .ok (some r) =>
      if r.kind ≠ 0 then .error 0x01
      else if (s.counter p r.cnt).status = 1 then .error 0x0A
      else .ok r
/-- Where a record stands in the signed bytes of its own image, the image is checked, and the result kept (R219), before the dealer writes
the record's ENCL: of programs that stand so on writable pages the manual gives runs (DEDUCED from R414, R418 and R422, log 17). -/
def sealImage (s : State) (p : Nat) (r : LaunchRec) : State :=
  if r.image ≤ r.addr + 5 ∧ r.addr + 4 < r.image + s.imgField p r.image 12 4 then (s.checkImage p r.image).2 else s
/-- JOB.SUBMIT: a job counter opens as a KIND 3 LAUNCH would open it, the record's ENCL names it, where the page lets it be written,
and the record is launched at supervisor level in it. A launch for which the queue has no entry waits inside the dealer (R152). -/
def submitJob (_ : Bool) (p n : Nat) (s : State) : Answer :=
  match s.submitCheck p (blockField n 8 8) with
  | .error e => (2, e, s)
  | .ok r =>
    match s.pick (s.freeJobs p r.cnt) with
    | none => (2, 0x0A, s)
    | some (j, s) =>
      let s := s.sealImage p r
      let s := s.openCounter p j 3 0 none
      let s := match s.vWrite p true (r.addr + 4) (bytesOfNat 2 j) with
        | .ok t => t
        | .error _ => s
      let (l, s) := s.openLevel p { r with encl := j } [] true
      (0, j, s.setJob p j { launch := BitVec.ofNat 32 l, endw := blockField n 16 8, isOpen := true })
def jobEndOk (n : Nat) : Bool := zeroBytes n [(2, 7), (10, 55)] && decide (blockField n 8 2 < 1024)
/-- JOB.END: the job is cancelled, and the dealer ends it. A number that is no open job's is outside its range (R410). -/
def cancelEndJob (_ : Bool) (p n : Nat) (s : State) : Answer :=
  let j := blockField n 8 2
  if s.jobOpen p j then (0, 0, (s.cancelJobNo p j).endJob p j) else (1, 0, s)

/-! RANGE.SET (R401). -/

/-- The fields of a RANGE.SET: KIND, INDEX, KEY, DEV, HOST and SIZE. -/
def rangeArgs (n : Nat) : Nat × Nat × Nat × Nat × Nat × Nat :=
  let f := blockField n
  (f 8 1, f 9 1, f 10 1, f 16 8, f 24 8, f 32 8)
def rangeSetOk (n : Nat) : Bool :=
  let (kind, idx, key, dev, host, size) := rangeArgs n
  zeroBytes n [(2, 7), (11, 15), (40, 55)] && decide (kind ≤ 2) && decide (idx < 16) && (kind == 2 || key == 0) &&
    decide (key < 128) && decide (host + size ≤ 2 ^ 64) &&
    (match kind with
    | 1 => dev % 2 ^ 30 == 0 && size % 2 ^ 30 == 0 && size != 0 && decide (0x100000000000 ≤ dev)
        && decide (dev + size ≤ 0x400000000000)
    | 2 => size % 2 ^ 21 == 0 && size != 0 && (lowRangeOk dev size || inSpread dev size)
    | _ => true)
/-- Cached lines of a far-memory window go home before the window changes. -/
def dropWindow (s : State) (i : Nat) : State :=
  match assocGet none s.windows i with
  | some w =>
    let t := s.flushLines fun l => decide (w.dev ≤ l * 64) && decide (l * 64 < w.dev + w.size)
    { t with windows := assocSet t.windows i none }
  | none => s
/-- Sets a window or a range, or clears both of an index (log 17). -/
def setRange (_ : Bool) (p n : Nat) (s : State) : Answer :=
  let (kind, idx, key, dev, host, size) := rangeArgs n
  let x := s.part p
  let w : Window := { dev := dev, host := host, size := size, part := p, key := key }
  match kind with
  | 1 => let t := s.dropWindow idx; (0, 0, { t with windows := assocSet t.windows idx (some w) })
  | 2 =>
    if rangeInGrant x.cols x.udFirst x.udCnt dev size && (key == 0 || x.keys.getLsbD key) then
      (0, 0, { s with hdms := assocSet s.hdms idx (some w) })
    else (2, 0, s)
  | _ => let t := s.dropWindow idx; (0, 0, { t with hdms := assocSet t.hdms idx none })

/-! Keys, home copies, monitors, statistics, attestation and power (R211, R212, R214, R222, R377, R409). -/

def keyAddOk (n : Nat) : Bool := zeroBytes n [(2, 7), (16, 55)]
def addKey (_ : Bool) (p n : Nat) (s : State) : Answer :=
  let ks := (s.part p).pubkeys
  if 8 ≤ ks.length then (2, 0, s)
  else (0, ks.length, s.modPart p fun x => { x with pubkeys := ks ++ [s.host.bytes (blockField n 8 8) 97] })

def homecopyOk (n : Nat) : Bool :=
  let (b, z) := (blockField n 8 8, blockField n 16 8)
  zeroBytes n [(2, 7), (32, 55)] && z % 65536 == 0 && z != 0 && decide (b + z ≤ 2 ^ 39) && lowRangeOk b z
def addCopy (host : Bool) (p n : Nat) (s : State) : Answer :=
  let (b, z, a) := (blockField n 8 8, blockField n 16 8, blockField n 24 8)
  let readable := host || (pieces a z).all fun q => match s.vPa p true .load q.1 with | .ok _ => true | .error _ => false
  if !s.colGranted p (b / 2 ^ 27) || !readable then (2, 0, s)
  else (0, 0, s.modPart p fun x => { x with homecopies := { base := b, size := z, copy := a, host := host } :: x.homecopies })

def monAssignOk (n : Nat) : Bool :=
  zeroBytes n [(2, 7), (10, 11), (24, 55)] && decide (blockField n 9 1 < 4) && blockField n 20 4 != 0
/-- Does a source belong to a partition: a granted core or column, one of the eight rings of a granted core, or a rectangle? -/
def sourceGranted (s : State) (p src w : Nat) : Bool :=
  match src with
  | 1 => decide (w < 512) && s.coreGranted p w
  | 2 | 4 => decide (w < 4096) && s.colGranted p w
  | 3 => decide (w < 4096) && s.coreGranted p (w / 8)
  | 5 => decide (w < 256) && bitOf (s.leaseW0 p w) 63 && (s.rectColumns p w).all (s.colAllowed p)
  | _ => false
/-- MON.ASSIGN: a free monitor of the stack is assigned. -/
def assignMonitor (_ : Bool) (p n : Nat) (s : State) : Answer :=
  let (src, stk, w) := (blockField n 8 1, blockField n 9 1, blockField n 12 4)
  let free := (List.range 64).filter fun m => (assocGet ({} : Monitor) (s.stack stk).monitors m).part.isNone
  if !s.sourceGranted p src w then (2, 0, s)
  else match s.pick free with
    | none => (2, 0, s)
    | some (m, s) =>
      let x : Monitor := { part := some p, src := src, loc := if src = 5 then p * 256 + w else w,
                           low := BitVec.ofNat 32 (blockField n 16 4), step := BitVec.ofNat 32 (blockField n 20 4) }
      (0, stk * 64 + m, s.modStack stk fun y => { y with monitors := assocSet y.monitors m x })
def monReadOk (n : Nat) : Bool :=
  zeroBytes n [(2, 7), (11, 15), (24, 55)] && decide (blockField n 8 2 < 256) && decide (blockField n 10 1 < 2)
/-- The 128 bytes of a monitor record (Table 8-4). -/
def monitorBytes (s : State) (m : Monitor) : List Byte :=
  bytesOfNat 8 s.now ++ bytesOfNat 8 (m.src % 16 + (if m.src = 5 then m.loc % 256 else m.loc) * 65536)
    ++ bytesOfNat 4 m.low.toNat ++ bytesOfNat 4 m.step.toNat ++ bytesOfNat 4 m.min.toNat ++ bytesOfNat 4 m.max.toNat
    ++ bytesOfNat 8 m.samples.toNat ++ bytesOfNat 8 0 ++ m.bins.toList.flatMap (fun v => bytesOfNat 4 v.toNat) ++ bytesOfNat 16 0
def readMonitor (host : Bool) (p n : Nat) (s : State) : Answer :=
  let k := blockField n 8 2
  let m := assocGet ({} : Monitor) (s.stack (k / 64)).monitors (k % 64)
  if m.part ≠ some p then (2, 0, s)
  else match s.cmdWrite host p (blockField n 16 8) (s.monitorBytes m) with
    | none => (2, 0, s)
    | some t =>
      if blockField n 10 1 = 1 then
        (0, 0, t.modStack (k / 64) fun y => { y with monitors := y.monitors.filter fun e => e.1 != k % 64 })
      else (0, 0, t)

def statsOk (n : Nat) : Bool :=
  zeroBytes n [(2, 15), (28, 55)] && decide (blockField n 26 2 ≤ 4096) && decide (blockField n 24 2 + blockField n 26 2 ≤ 4096)
/-- The statistics record, with the corrected-error counts of a range of columns. -/
def statsBytes (s : State) (p first cnt : Nat) : List Byte :=
  let t := (s.part p).stats
  bytesOfNat 8 s.now ++ [t.l1fill, t.l2fill, t.shared, t.wb, t.runs, t.iters, t.accepted, t.rejected, t.faultSupp].flatMap
      (fun v => bytesOfNat 8 v.toNat) ++ bytesOfNat 48 0
    ++ (List.range cnt).flatMap fun i => bytesOfNat 2 (s.col (first + i)).corr
def readStats (host : Bool) (p n : Nat) (s : State) : Answer :=
  let (first, cnt) := (blockField n 24 2, blockField n 26 2)
  match s.cmdWrite host p (blockField n 16 8) (s.statsBytes p first cnt) with
    | none => (2, 0, s)
    | some t => (0, 0, t)

/-- The ordering code that the configuration record gives the part (R3), in ASCII, zero-padded to 16 bytes: KG4P-384 or
KG4M-384. -/
def orderingCode : List Byte :=
  (if Config.isKg4m then [75, 71, 52, 77] else [75, 71, 52, 80]) ++ [45, 51, 56, 52] ++ List.replicate 8 0
/-- The private attestation key, derived from the fused secret and what boot has measured (R408). -/
def attestKey : Nat := Config.attestSecret (sha384 Config.recordBytes) (sha384 Config.firmwareBytes)
/-- The spare map and the list of fenced columns, lost ones and those that a kitty stands in for, in bytes (log 4). -/
def mapBytes (s : State) : List Byte :=
  Config.mapBytes (s.gridRows.filterMap fun e => e.2.unusable.map fun x => (e.1, x))
    ((s.cols.filter fun e => e.2.lost || e.2.kitty).map (·.1))
/-- Bytes 0 to 351 of the report of Table 15-6, which are signed. -/
def signedBytes (s : State) (n : Nat) : List Byte :=
  let q := publicPoint attestKey
  orderingCode ++ (List.range 16).map Config.serialByte ++ bytesOfNat 48 (blockField n 8 48)
    ++ sha384 Config.recordBytes ++ sha384 Config.firmwareBytes ++ sha384 s.mapBytes ++ bigBytes 48 q.1 ++ bigBytes 48 q.2
    ++ bytesOfNat 8 s.now ++ bytesOfNat 24 0
/-- The report of Table 15-6. What the record, the firmware, the secrets and the serial number are is free (log 4). -/
def reportBytes (s : State) (n : Nat) : List Byte :=
  let m := s.signedBytes n
  let sig := ecdsaSign m attestKey (Config.signSecret s.tick)
  m ++ bigBytes 48 sig.1 ++ bigBytes 48 sig.2 ++ bytesOfNat 64 0
def attestOk (n : Nat) : Bool := blockField n 1 7 % 512 == 0
def writeReport (_ : Bool) (_p n : Nat) (s : State) : Answer :=
  (0, 0, { s with host := s.host.putBytes (blockField n 1 7) (s.reportBytes n) }.bump)

def powerLimitOk (n : Nat) : Bool := zeroBytes n [(1, 7), (12, 55)]
def setPower (_ : Bool) (_p n : Nat) (s : State) : Answer := (0, 0, { s with powerLimit := blockField n 8 4 })

end State

/-! The events. -/

def execHostSnoop (pa : Word) (excl : Bool) (s : State) : Out := runEvent (·.snoop pa.toNat excl) s
def execHostHdmAccess (pa : Word) (size : Nat) (store : Bool) (v : Word) (s : State) : Out :=
  runEvent (·.hdmAccess pa.toNat size store v) s
def execPackageReset (s : State) : Out := runEvent State.resetPackage s
/-- A GO written while BUSY is set (R402). -/
def execMailboxGoLost (s : State) : Out := runEvent (·.goLost) s
/-- A host write of MBX.STAT: DONE and LOST are cleared by ones. -/
def execMailboxStatClear (v : Word) (s : State) : Out := runEvent (·.mbxStatWrite v) s
def execPartOpen (src : CmdSource) (s : State) : Out := runEvent (·.command src 1 State.partOpenOk State.openPart) s
def execPartClose (src : CmdSource) (s : State) : Out := runEvent (·.command src 2 State.partCloseOk State.closePart) s
def execJobSubmit (src : CmdSource) (s : State) : Out := runEvent (·.command src 3 State.jobSubmitOk State.submitJob) s
def execJobEnd (src : CmdSource) (s : State) : Out := runEvent (·.command src 4 State.jobEndOk State.cancelEndJob) s
def execRangeSet (src : CmdSource) (s : State) : Out := runEvent (·.command src 5 State.rangeSetOk State.setRange) s
def execKeyAdd (src : CmdSource) (s : State) : Out := runEvent (·.command src 6 State.keyAddOk State.addKey) s
def execHomecopy (src : CmdSource) (s : State) : Out := runEvent (·.command src 7 State.homecopyOk State.addCopy) s
def execMonAssign (src : CmdSource) (s : State) : Out := runEvent (·.command src 8 State.monAssignOk State.assignMonitor) s
def execMonRead (src : CmdSource) (s : State) : Out := runEvent (·.command src 9 State.monReadOk State.readMonitor) s
def execStats (src : CmdSource) (s : State) : Out := runEvent (·.command src 10 State.statsOk State.readStats) s
def execAttest (src : CmdSource) (s : State) : Out := runEvent (·.command src 11 State.attestOk State.writeReport) s
def execPowerLimit (src : CmdSource) (s : State) : Out := runEvent (·.command src 12 State.powerLimitOk State.setPower) s
/-- The dealer performs a block as the command that its code names. -/
def commandTurn (src : CmdSource) (code : Nat) (s : State) : Out :=
  match code with
  | 1 => execPartOpen src s
  | 2 => execPartClose src s
  | 3 => execJobSubmit src s
  | 4 => execJobEnd src s
  | 5 => execRangeSet src s
  | 6 => execKeyAdd src s
  | 7 => execHomecopy src s
  | 8 => execMonAssign src s
  | 9 => execMonRead src s
  | 11 => execAttest src s
  | 12 => execPowerLimit src s
  | _ => execStats src s
/-- The dealer takes the next block of a partition's command ring (R403). -/
def ringTurn (p : Nat) (s : State) : Out := commandTurn (.ring p) (s.ringCode p) s
/-- The dealer performs the host command in progress (R402). -/
def mailboxTurn (s : State) : Out :=
  commandTurn (.host s.mbxGo) (blockField (s.host.nat (s.mbxGo.toNat / 64 * 64) 64) 0 1) s
def execPeerFarRequest (op : FarOp) (pa : Word) (size : Nat) (key : Fin 128) (v : Word) (s : State) : Out :=
  runEvent (·.farRequest op pa.toNat size key.val v) s
def execPeerCollectiveArrival (a : PeerArrival) (s : State) : Out := runEvent (·.peerArrives a) s

end Sys2Proof.Machine
end

