-- ==== Sys2Proof/Machine/Integer.lean ====
section
/-! DEFINITION. The integer syllable (R246 to R248, Table 10-2), with the latencies of Table 10-1. -/
namespace Sys2Proof.Machine

/-! The operations on 64-bit values. -/

def mulhW (a b : Word) : Word := (a.signExtend 128 * b.signExtend 128).extractLsb' 64 64
def mulhuW (a b : Word) : Word := (a.setWidth 128 * b.setWidth 128).extractLsb' 64 64
/-- R247: division by zero gives all ones; −2^63 by −1 wraps. -/
def divW (a b : Word) : Word := if b = 0 then BitVec.allOnes 64 else a.sdiv b
def divuW (a b : Word) : Word := if b = 0 then BitVec.allOnes 64 else a / b
/-- R247: a remainder by zero is the dividend. -/
def remW (a b : Word) : Word := if b = 0 then a else a.srem b
def remuW (a b : Word) : Word := if b = 0 then a else a % b
/-- Shift amounts are gb[5:0] (Table 10-2). -/
def shAmt (b : Word) : Nat := b.toNat % 64
def shlW (a b : Word) : Word := a <<< shAmt b
def shrW (a b : Word) : Word := a >>> shAmt b
def sarW (a b : Word) : Word := a.sshiftRight (shAmt b)
def rotlW (a b : Word) : Word := a.rotateLeft (shAmt b)
def clzW (a : Word) : Word := BitVec.ofNat 64 (((List.range 64).find? fun i => a.getLsbD (63 - i)).getD 64)
def ctzW (a : Word) : Word := BitVec.ofNat 64 (((List.range 64).find? fun i => a.getLsbD i).getD 64)
def popcW (a : Word) : Word := BitVec.ofNat 64 ((List.range 64).countP fun i => a.getLsbD i)
/-- Position and width of BEXT and BINS (R248). -/
def fieldPos (b : Word) : Nat := b.toNat % 64
def fieldWidth (b : Word) : Nat := min 64 (bitsOf b.toNat 14 8)
def lowMask (w : Nat) : Word := BitVec.ofNat 64 (2 ^ w - 1)
def bextW (a b : Word) : Word := (a >>> fieldPos b) &&& lowMask (fieldWidth b)
def binsW (d a b : Word) : Word :=
  let m := lowMask (fieldWidth b) <<< fieldPos b
  (d &&& ~~~m) ||| ((a <<< fieldPos b) &&& m)
/-- ga[n−1:0] sign-extended; n is 1 to 64. -/
def sextW (n : BitVec 7) (a : Word) : Word := (a <<< (64 - n.toNat)).sshiftRight (64 - n.toNat)
def zextW (n : BitVec 7) (a : Word) : Word := a &&& lowMask n.toNat

/-! Shapes. -/

/-- Two sources, one destination. -/
def int2 (f : Word → Word → Word) (lat : Nat) (d a b : Reg) : M Unit := do
  sources [a, b]
  let x ← rdG a
  let y ← rdG b
  wrG d (f x y) lat
/-- One source. -/
def int1 (f : Word → Word) (d a : Reg) : M Unit := do
  let x ← rdG a
  wrG d (f x) 1
/-- One source and a sign-extended immediate (R227). -/
def intI (f : Word → Word → Word) (d a : Reg) (imm : BitVec 14) : M Unit := int1 (f · (imm.signExtend 64)) d a
/-- The divider of a context serves one division at a time (R244). -/
def divFree : M Unit := do
  let x ← gets State.me
  await (!x.wq.any fun w => w.div)
def intDiv (f : Word → Word → Word) (d a b : Reg) : M Unit := do
  sources [a, b]
  let x ← rdG a
  let y ← rdG b
  divFree
  wrG d (f x y) 20 true

def execAdd (d a b : Reg) (s : State) : Out := runSyl 1 (int2 (· + ·) 1 d a b) s
def execSub (d a b : Reg) (s : State) : Out := runSyl 1 (int2 (· - ·) 1 d a b) s
def execMul (d a b : Reg) (s : State) : Out := runSyl 1 (int2 (· * ·) 3 d a b) s
def execMulh (d a b : Reg) (s : State) : Out := runSyl 1 (int2 mulhW 3 d a b) s
def execMulhu (d a b : Reg) (s : State) : Out := runSyl 1 (int2 mulhuW 3 d a b) s
def execAnd (d a b : Reg) (s : State) : Out := runSyl 1 (int2 (· &&& ·) 1 d a b) s
def execOr (d a b : Reg) (s : State) : Out := runSyl 1 (int2 (· ||| ·) 1 d a b) s
def execXor (d a b : Reg) (s : State) : Out := runSyl 1 (int2 (· ^^^ ·) 1 d a b) s
def execAndn (d a b : Reg) (s : State) : Out := runSyl 1 (int2 (fun x y => x &&& ~~~y) 1 d a b) s
def execOrn (d a b : Reg) (s : State) : Out := runSyl 1 (int2 (fun x y => x ||| ~~~y) 1 d a b) s
def execShl (d a b : Reg) (s : State) : Out := runSyl 1 (int2 shlW 1 d a b) s
def execShr (d a b : Reg) (s : State) : Out := runSyl 1 (int2 shrW 1 d a b) s
def execSar (d a b : Reg) (s : State) : Out := runSyl 1 (int2 sarW 1 d a b) s
def execRotl (d a b : Reg) (s : State) : Out := runSyl 1 (int2 rotlW 1 d a b) s
def execMin (d a b : Reg) (s : State) : Out := runSyl 1 (int2 minW 1 d a b) s
def execMax (d a b : Reg) (s : State) : Out := runSyl 1 (int2 maxW 1 d a b) s
def execMinu (d a b : Reg) (s : State) : Out := runSyl 1 (int2 minuW 1 d a b) s
def execMaxu (d a b : Reg) (s : State) : Out := runSyl 1 (int2 maxuW 1 d a b) s
def execCmpEq (d a b : Reg) (s : State) : Out := runSyl 1 (int2 cmpEqW 1 d a b) s
def execCmpNe (d a b : Reg) (s : State) : Out := runSyl 1 (int2 cmpNeW 1 d a b) s
def execCmpLt (d a b : Reg) (s : State) : Out := runSyl 1 (int2 cmpLtW 1 d a b) s
def execCmpLtu (d a b : Reg) (s : State) : Out := runSyl 1 (int2 cmpLtuW 1 d a b) s
def execCmpLe (d a b : Reg) (s : State) : Out := runSyl 1 (int2 cmpLeW 1 d a b) s
def execCmpLeu (d a b : Reg) (s : State) : Out := runSyl 1 (int2 cmpLeuW 1 d a b) s
def execBext (d a b : Reg) (s : State) : Out := runSyl 1 (int2 bextW 1 d a b) s
def execDiv (d a b : Reg) (s : State) : Out := runSyl 1 (intDiv divW d a b) s
def execDivu (d a b : Reg) (s : State) : Out := runSyl 1 (intDiv divuW d a b) s
def execRem (d a b : Reg) (s : State) : Out := runSyl 1 (intDiv remW d a b) s
def execRemu (d a b : Reg) (s : State) : Out := runSyl 1 (intDiv remuW d a b) s
def execClz (d a : Reg) (s : State) : Out := runSyl 1 (int1 clzW d a) s
def execCtz (d a : Reg) (s : State) : Out := runSyl 1 (int1 ctzW d a) s
def execPopc (d a : Reg) (s : State) : Out := runSyl 1 (int1 popcW d a) s
def execMov (d a : Reg) (s : State) : Out := runSyl 1 (int1 id d a) s
def execAddi (d a : Reg) (imm : BitVec 14) (s : State) : Out := runSyl 1 (intI (· + ·) d a imm) s
def execAndi (d a : Reg) (imm : BitVec 14) (s : State) : Out := runSyl 1 (intI (· &&& ·) d a imm) s
def execOri (d a : Reg) (imm : BitVec 14) (s : State) : Out := runSyl 1 (intI (· ||| ·) d a imm) s
def execXori (d a : Reg) (imm : BitVec 14) (s : State) : Out := runSyl 1 (intI (· ^^^ ·) d a imm) s
def execCmpiEq (d a : Reg) (imm : BitVec 14) (s : State) : Out := runSyl 1 (intI cmpEqW d a imm) s
def execCmpiLt (d a : Reg) (imm : BitVec 14) (s : State) : Out := runSyl 1 (intI cmpLtW d a imm) s
def execCmpiLtu (d a : Reg) (imm : BitVec 14) (s : State) : Out := runSyl 1 (intI cmpLtuW d a imm) s
def execShli (d a : Reg) (n : BitVec 6) (s : State) : Out := runSyl 1 (int1 (· <<< n.toNat) d a) s
def execShri (d a : Reg) (n : BitVec 6) (s : State) : Out := runSyl 1 (int1 (· >>> n.toNat) d a) s
def execSari (d a : Reg) (n : BitVec 6) (s : State) : Out := runSyl 1 (int1 (·.sshiftRight n.toNat) d a) s
def execSext (d a : Reg) (n : BitVec 7) (s : State) : Out := runSyl 1 (int1 (sextW n) d a) s
def execZext (d a : Reg) (n : BitVec 7) (s : State) : Out := runSyl 1 (int1 (zextW n) d a) s
def execLea (d a b : Reg) (sh : BitVec 3) (s : State) : Out := runSyl 1 (int2 (fun x y => x + (y <<< sh.toNat)) 1 d a b) s
/-- SEL: ga where gc is not zero, else gb; all three are sources. -/
def execSel (d a b c : Reg) (s : State) : Out :=
  runSyl 1 (do sources [a, b, c]; let x ← rdG a; let y ← rdG b; let z ← rdG c; wrG d (if z ≠ 0 then x else y) 1) s
/-- BINS reads its destination as a source (R248). -/
def execBins (d a b : Reg) (s : State) : Out :=
  runSyl 1 (do sources [a, b, d]; let x ← rdG a; let y ← rdG b; let z ← rdG d; wrG d (binsW z x y) 1) s
/-- LIMM writes no register; it extends the immediate of syllable 0 of its bundle (R228). -/
def execLimm (imm : BitVec 24) (s : State) : Out := runSyl 1 (upd fun s => { s with limm := some imm }) s

end Sys2Proof.Machine
end

