-- ==== Sys2Proof/Machine/TableEvents.lean ====
section
/-! DEFINITION. Events of the walkers, of shootdowns and of the device tables (R114, R121, R122, R149, R168, R177, R178, R191). -/
namespace Sys2Proof.Machine

namespace State

/-- A free walker takes the oldest page that a cluster waits for, where it is that cluster's turn (R121). -/
def walkTurn (s : State) (clu : Nat) : State := if s.nextWaiting == some clu then s.walkWaiting clu else s

/-! Shootdown (R122, R149). -/

/-- REQ and DONE of a translation descriptor. -/
def shootReq (s : State) (p : Nat) : Nat := s.tget (tdAddr p + 48) 4
def shootDone (s : State) (p : Nat) : Nat := s.tget (tdAddr p + 56) 4
/-- The started copy and access commands of a partition that name an address of a range. -/
def copiesOver (s : State) (p va cnt : Nat) : List (Nat × Nat × Instr × List Word) :=
  (s.ctxs.filter fun e => e.2.partNo == p).flatMap fun e => [1, 2, 3, 4, 5].flatMap fun k =>
    ((e.2.stream k).started.filter fun d => (s.cmdRanges e.1 k d).any fun r => shotDown va cnt r.1 r.2).map fun d =>
      (e.1, k, d.word, d.ops)
/-- The addresses through which a translated access reaches an address of the column view or the underdeck: either view of bank
memory (R97), and the visible range of a publish group that has it in a buffer (R136), in either view too. -/
def namesOf (s : State) (a : Nat) : List Nat :=
  let views := fun (x : Nat) =>
    match lowRegion x with
    | .bank c off => [x, 0x18000000000 + (off / 65536 * 4096 + c) * 65536 + off % 65536]
    | _ => [x]
  let steered := fun (x : Nat) => (List.range 256).flatMap fun g => [false, true].filterMap fun b =>
    if s.grpBuf g b ≤ x && x < s.grpBuf g b + s.grpSize g then some (s.grpVis g + (x - s.grpBuf g b)) else none
  views a ++ ((views a).flatMap steered).flatMap fun v => v :: views (canon v)
/-- Is a line reached through frames whose translation was removed? -/
def inFrames (s : State) (fs : List (Nat × Nat)) (line : Nat) : Bool :=
  !fs.isEmpty && (s.namesOf (line * 64)).any fun n => fs.any fun f => overlap f.1 f.2 n 64
/-- The open runs of a partition whose iterations hold stores to the frames in their shadows: those are performed or dropped when the run
closes (R278, R283). -/
def runsOver (s : State) (p : Nat) (fs : List (Nat × Nat)) : List Nat :=
  ((s.part p).runs.filter fun e => e.2.isOpen && e.2.iters.any fun i => i.shadow.any fun b => s.inFrames fs (canon b.1 / 64)).map (·.1)
/-- A request is taken: VA, CNT and REQ are read together, and every overlapping entry of the partition goes. -/
def shootTake (s : State) (p : Nat) : State :=
  if (s.part p).shootdown.isSome || s.shootReq p == s.shootDone p then s
  else
    let va := bitsOf (s.tget (tdAddr p + 32) 8) 56 12 * 4096
    let cnt := s.tget (tdAddr p + 40) 8
    let gone := fun (t : TlbEntry) => t.part == p && shotDown va cnt t.va t.size
    let ts := (s.cores.flatMap (·.2.tlb) ++ s.clusters.flatMap (·.2.tlb)).filter gone
    let d : Shootdown := { va := va, cnt := cnt, req := s.shootReq p, frames := (ts.map fun t => (t.pa, t.size)).eraseDups,
                           copies := s.copiesOver p va cnt, runs := s.runsOver p (ts.map fun t => (t.pa, t.size)).eraseDups }
    (s.tlbRemove p va cnt).modPart p fun x => { x with shootdown := some d }
/-- Every access translated by a removed entry is performed at its home: the partition's store queues that hold one drain, and cached
dirty lines of the frames are written back. -/
def shootPerform (s : State) (p : Nat) (fs : List (Nat × Nat)) : State :=
  let s := s.ctxs.foldl (fun t e =>
    if e.2.partNo == p && e.2.sq.any (fun q => s.inFrames fs (canon q.pa / 64)) then t.drainSq e.1 else t) s
  let lines := (s.cores.flatMap fun e => e.2.l1.map (·.line)) ++ (s.clusters.flatMap fun e => e.2.l2.map (·.line))
  (lines.filter (s.inFrames fs)).eraseDups.foldl (fun t l => t.recallAll l p) s
/-- Does a copy or access command that the shootdown awaits still run, or a run with a store that it awaits? -/
def shootAwaits (s : State) (p : Nat) (d : Shootdown) : Bool :=
  d.runs.any (fun n => (s.run p n).isOpen) || d.copies.any fun e => ((s.ctx e.1).stream e.2.1).started.any fun x => x.word == e.2.2.1 && x.ops == e.2.2.2
/-- DONE := REQ once that is so, and the commands that were translated by a removed entry have ended. -/
def shootEnd (s : State) (p : Nat) : State :=
  match (s.part p).shootdown with
  | none => s
  | some d =>
    if s.shootAwaits p d then s
    else ((s.shootPerform p d.frames).tput (tdAddr p + 56) 4 d.req).modPart p fun x => { x with shootdown := none }

/-! Request slots (R177, R178). -/

/-- A request becomes active where R177 accepts it. -/
def reqActivate (s : State) (r : Nat) : State :=
  if s.reqState r = 0 ∧ s.reqMaxblk r ≠ 0 ∧ s.reqHeads r ≠ 0 ∧ s.reqLayers r ≠ 0 ∧ s.reqRoot r ≠ 0
  then s.tput (reqAddr r + 63) 1 1 else s
/-- An active request starts to retire. -/
def reqRetire (s : State) (r : Nat) : State := if s.reqState r = 1 then s.tput (reqAddr r + 63) 1 2 else s
/-! Publish groups (R191). -/

/-- Steering of a group starts: its ranges pass the checks, and buffer A is current. -/
def grpEnable (s : State) (g : Nat) : State :=
  if !s.grpValid g && s.groupOk g (s.tget (grpAddr g) 32)
  then s.tput (grpAddr g + 28) 1 (1 + if s.grpDom g then 2 else 0) else s
/-- Steering of a group ends for new accesses. -/
def grpDisable (s : State) (g : Nat) : State :=
  if s.grpValid g then s.tput (grpAddr g + 28) 1 (s.tget (grpAddr g + 28) 1 - 1) else s

/-- A supervisor's store to the device tables from the executing context (R168), or its trap. -/
def tableStoreBy (s : State) (va : Word) (size : Nat) (val : Word) : State :=
  let x := s.me
  let stop := fun (code : Byte) => s.enterTrap s.cur (trapOf code va 0) x.pc
  if x.running.isNone || !(size == 1 || size == 2 || size == 4 || size == 8) then s
  else if va.toNat % size ≠ 0 then stop 0x08
  else match s.vPa x.partNo x.priv .store va.toNat with
    | .error e => stop e
    | .ok a =>
      match region a.pa with
      | .table _ =>
        if !x.priv then stop 0x0A
        else match s.tableStore x.partNo a.pa size val.toNat with
          | some t => t
          | none => stop 0x0A
      | _ => s

end State

/-! The events. -/

def execPageWalk (clu : Nat) (s : State) : Out := runEvent (·.walkTurn clu) s
def execShootdownRequest (part : Nat) (s : State) : Out := runEvent (·.shootTake part) s
def execShootdownComplete (part : Nat) (s : State) : Out := runEvent (·.shootEnd part) s
def execRequestActivate (slot : Nat) (s : State) : Out := runEvent (·.reqActivate slot) s
def execRequestRetire (slot : Nat) (s : State) : Out := runEvent (·.reqRetire slot) s
def execRequestSlotFree (slot : Nat) (s : State) : Out := runEvent (·.reqFree slot) s
def execPublishGroupEnable (g : Nat) (s : State) : Out := runEvent (·.grpEnable g) s
def execPublishGroupDisable (g : Nat) (s : State) : Out := runEvent (·.grpDisable g) s
def execDeviceTableStore (va : Word) (size : Nat) (val : Word) (s : State) : Out := runEvent (·.tableStoreBy va size val) s

end Sys2Proof.Machine
end

