-- ==== Sys2Proof/Machine/VecIf.lean ====
section
/-! DEFINITION. The control syllable's side of the vector unit: VSEND, VFENCE, VSTAT, VPUT and VGET (R82, R285, R286). -/
namespace Sys2Proof.Machine

/-- The vector busy flag as it stands before the bundle (R82). -/
def Ctx.vecBusy (x : Ctx) : Bool := x.wq.any fun w => w.vec && decide (w.issued < x.cycle)

def execVsend (a b : Reg) (s : State) : Out := runSyl 0 (do
  sources [a, b]
  let lo ← rdG a
  let hi ← rdG b
  upd fun s => s.modMe fun x => { x with alo := lo, ahi := hi }) s
def execVfence (s : State) : Out := runSyl 0 (do await (!(← get).me.vecBusy)) s
def execVstat (d : Reg) (s : State) : Out := runSyl 0 (do
  let x ← gets State.me
  wrG d (if x.vecBusy then 1 else 0) 2) s

/-- Bytes of a container and the row, after the checks of R286: the row's index in the window, its committed value after the
context's earlier vector syllables, and the container number. -/
def pieceOf (z : Width) (a : Reg) (row : Fin 64) : M (SlotRow × Nat × Nat) := do
  let size := match z with | .w => 4 | .d => 8
  let s ← get
  let x := s.me
  await (!x.pendingRow (s.winKey row.val))
  let r := x.settled (s.winKey row.val) (s.winRow row.val)
  need (decide (x.tabCount ≤ row.val) || r.valid) 0x04 (BitVec.ofNat 64 (x.tabBase + row.val))
  need (decide (row.val < x.tabCount)) 0x05 (BitVec.ofNat 64 row.val)
  let c ← rdG a
  need (decide (c.toNat < 256 / size)) 0x05 (BitVec.ofNat 64 row.val)
  need (r.tag != 4 || decide (c.toNat * size + size ≤ 40)) 0x05 (BitVec.ofNat 64 row.val)
  return (r, size, c.toNat)

/-- Issues an effect ahead of what the bundle's other syllables have issued: syllable 0 of a bundle is older than they are. -/
def Ctx.issueFirst (x : Ctx) (w : PendWrite) : Ctx :=
  { x with wq := x.wq.filter (fun e => decide (e.issued < x.cycle)) ++ w :: x.wq.filter fun e => decide (x.cycle ≤ e.issued) }

/-- VPUT (R286): one row event, after every earlier vector syllable of the context. -/
def vput (z : Width) (d a : Reg) (row : Fin 64) : M Unit := do
  sources [d, a]
  let (r, size, c) ← pieceOf z a row
  let v ← rdG d
  let s ← get
  await (!s.me.vecBusy && !s.rowHeld s.myCore (s.me.tabBase + row.val))
  let b := 8 * size
  let w : RowWrite := { row := s.winKey row.val, data := BitVec.ofNat 2048 ((v.toNat % 2 ^ b) <<< (b * c)),
                        mask := BitVec.ofNat 2048 ((2 ^ b - 1) <<< (b * c)), tag := r.tag }
  upd fun s => s.modMe fun x => x.issueFirst { eff := .rows [w], issued := x.cycle, due := some (x.cycle + 1), vec := true }
/-- VGET (R286). -/
def vgetM (z : Width) (d a : Reg) (row : Fin 64) : M Unit := do
  sources [a]
  let (r, size, c) ← pieceOf z a row
  destG d none
  wrLater d (BitVec.ofNat 64 (rowElem (8 * size) r.data c))

def execVput (z : Width) (d a : Reg) (row : Fin 64) (s : State) : Out := runSyl 0 (vput z d a row) s
def execVget (z : Width) (d a : Reg) (row : Fin 64) (s : State) : Out := runSyl 0 (vgetM z d a row) s

end Sys2Proof.Machine
end

