-- ==== Sys2Proof/Machine/Dispatch.lean ====
section
/-! DEFINITION. The dispatch of every row of the opcode table to its meaning. -/
namespace Sys2Proof.Machine

/-- Runs one operation or event: a syllable acts on the context `s.cur`, an engine word on stream `s.curK` of it. -/
def exec (i : Instr) (s : State) : Host.Outcome State Fault Refusal :=
  match i with
  | .nop => Sys2Proof.Machine.execNop s
  | .brEqz a off => Sys2Proof.Machine.execBrEqz a off s
  | .brNez a off => Sys2Proof.Machine.execBrNez a off s
  | .brLtz a off => Sys2Proof.Machine.execBrLtz a off s
  | .brGez a off => Sys2Proof.Machine.execBrGez a off s
  | .jmp off => Sys2Proof.Machine.execJmp off s
  | .call off => Sys2Proof.Machine.execCall off s
  | .jmpi a => Sys2Proof.Machine.execJmpi a s
  | .calli a => Sys2Proof.Machine.execCalli a s
  | .spawn d a b => Sys2Proof.Machine.execSpawn d a b s
  | .suspend a imm => Sys2Proof.Machine.execSuspend a imm s
  | .halt => Sys2Proof.Machine.execHalt s
  | .fork set => Sys2Proof.Machine.execFork set s
  | .rdv => Sys2Proof.Machine.execRdv s
  | .launch d a => Sys2Proof.Machine.execLaunch d a s
  | .cancelUnit a => Sys2Proof.Machine.execCancelUnit a s
  | .cancelLaunch a => Sys2Proof.Machine.execCancelLaunch a s
  | .cancelGraph a => Sys2Proof.Machine.execCancelGraph a s
  | .cancelPhase a => Sys2Proof.Machine.execCancelPhase a s
  | .cancelJob a => Sys2Proof.Machine.execCancelJob a s
  | .cntAdd d a b => Sys2Proof.Machine.execCntAdd d a b s
  | .cntWait a b => Sys2Proof.Machine.execCntWait a b s
  | .ldB d a imm => Sys2Proof.Machine.execLdB d a imm s
  | .ldH d a imm => Sys2Proof.Machine.execLdH d a imm s
  | .ldW d a imm => Sys2Proof.Machine.execLdW d a imm s
  | .ldD d a imm => Sys2Proof.Machine.execLdD d a imm s
  | .ldBz d a imm => Sys2Proof.Machine.execLdBz d a imm s
  | .ldHz d a imm => Sys2Proof.Machine.execLdHz d a imm s
  | .ldWz d a imm => Sys2Proof.Machine.execLdWz d a imm s
  | .stB d a imm => Sys2Proof.Machine.execStB d a imm s
  | .stH d a imm => Sys2Proof.Machine.execStH d a imm s
  | .stW d a imm => Sys2Proof.Machine.execStW d a imm s
  | .stD d a imm => Sys2Proof.Machine.execStD d a imm s
  | .ldcW d a imm => Sys2Proof.Machine.execLdcW d a imm s
  | .ldcD d a imm => Sys2Proof.Machine.execLdcD d a imm s
  | .ldAcqW d a sc => Sys2Proof.Machine.execLdAcqW d a sc s
  | .ldAcqD d a sc => Sys2Proof.Machine.execLdAcqD d a sc s
  | .stRelW d a sc => Sys2Proof.Machine.execStRelW d a sc s
  | .stRelD d a sc => Sys2Proof.Machine.execStRelD d a sc s
  | .qsync sc => Sys2Proof.Machine.execQsync sc s
  | .fence sc => Sys2Proof.Machine.execFence sc s
  | .ifence => Sys2Proof.Machine.execIfence s
  | .discard a sc => Sys2Proof.Machine.execDiscard a sc s
  | .flush a sc => Sys2Proof.Machine.execFlush a sc s
  | .pref a imm => Sys2Proof.Machine.execPref a imm s
  | .amoAdd z sc d a b => Sys2Proof.Machine.execAmoAdd z sc d a b s
  | .amoMin z sc d a b => Sys2Proof.Machine.execAmoMin z sc d a b s
  | .amoMax z sc d a b => Sys2Proof.Machine.execAmoMax z sc d a b s
  | .amoMinu z sc d a b => Sys2Proof.Machine.execAmoMinu z sc d a b s
  | .amoMaxu z sc d a b => Sys2Proof.Machine.execAmoMaxu z sc d a b s
  | .amoAnd z sc d a b => Sys2Proof.Machine.execAmoAnd z sc d a b s
  | .amoOr z sc d a b => Sys2Proof.Machine.execAmoOr z sc d a b s
  | .amoXor z sc d a b => Sys2Proof.Machine.execAmoXor z sc d a b s
  | .amoSwap z sc d a b => Sys2Proof.Machine.execAmoSwap z sc d a b s
  | .cas z sc d a b => Sys2Proof.Machine.execCas z sc d a b s
  | .barArr d a => Sys2Proof.Machine.execBarArr d a s
  | .barWait a b => Sys2Proof.Machine.execBarWait a b s
  | .barSync a => Sys2Proof.Machine.execBarSync a s
  | .flagSet a => Sys2Proof.Machine.execFlagSet a s
  | .flagClr a => Sys2Proof.Machine.execFlagClr a s
  | .flagWait a => Sys2Proof.Machine.execFlagWait a s
  | .send a b => Sys2Proof.Machine.execSend a b s
  | .recv d a => Sys2Proof.Machine.execRecv d a s
  | .recvPoll d a => Sys2Proof.Machine.execRecvPoll d a s
  | .runBegin d a imm => Sys2Proof.Machine.execRunBegin d a imm s
  | .acceptEq a => Sys2Proof.Machine.execAcceptEq a s
  | .acceptTol a b => Sys2Proof.Machine.execAcceptTol a b s
  | .runCommit d a => Sys2Proof.Machine.execRunCommit d a s
  | .runAbort a => Sys2Proof.Machine.execRunAbort a s
  | .vsend a b => Sys2Proof.Machine.execVsend a b s
  | .vfence => Sys2Proof.Machine.execVfence s
  | .vstat d => Sys2Proof.Machine.execVstat d s
  | .vput z d a row => Sys2Proof.Machine.execVput z d a row s
  | .vget z d a row => Sys2Proof.Machine.execVget z d a row s
  | .trap code => Sys2Proof.Machine.execTrap code s
  | .eret => Sys2Proof.Machine.execEret s
  | .mfs d num => Sys2Proof.Machine.execMfs d num s
  | .mts num d => Sys2Proof.Machine.execMts num d s
  | .brk code => Sys2Proof.Machine.execBrk code s
  | .wait a => Sys2Proof.Machine.execWait a s
  | .flowReq a b => Sys2Proof.Machine.execFlowReq a b s
  | .add d a b => Sys2Proof.Machine.execAdd d a b s
  | .sub d a b => Sys2Proof.Machine.execSub d a b s
  | .mul d a b => Sys2Proof.Machine.execMul d a b s
  | .mulh d a b => Sys2Proof.Machine.execMulh d a b s
  | .mulhu d a b => Sys2Proof.Machine.execMulhu d a b s
  | .div d a b => Sys2Proof.Machine.execDiv d a b s
  | .divu d a b => Sys2Proof.Machine.execDivu d a b s
  | .rem d a b => Sys2Proof.Machine.execRem d a b s
  | .remu d a b => Sys2Proof.Machine.execRemu d a b s
  | .and d a b => Sys2Proof.Machine.execAnd d a b s
  | .or d a b => Sys2Proof.Machine.execOr d a b s
  | .xor d a b => Sys2Proof.Machine.execXor d a b s
  | .andn d a b => Sys2Proof.Machine.execAndn d a b s
  | .orn d a b => Sys2Proof.Machine.execOrn d a b s
  | .shl d a b => Sys2Proof.Machine.execShl d a b s
  | .shr d a b => Sys2Proof.Machine.execShr d a b s
  | .sar d a b => Sys2Proof.Machine.execSar d a b s
  | .rotl d a b => Sys2Proof.Machine.execRotl d a b s
  | .clz d a => Sys2Proof.Machine.execClz d a s
  | .ctz d a => Sys2Proof.Machine.execCtz d a s
  | .popc d a => Sys2Proof.Machine.execPopc d a s
  | .min d a b => Sys2Proof.Machine.execMin d a b s
  | .max d a b => Sys2Proof.Machine.execMax d a b s
  | .minu d a b => Sys2Proof.Machine.execMinu d a b s
  | .maxu d a b => Sys2Proof.Machine.execMaxu d a b s
  | .sel d a b c => Sys2Proof.Machine.execSel d a b c s
  | .cmpEq d a b => Sys2Proof.Machine.execCmpEq d a b s
  | .cmpNe d a b => Sys2Proof.Machine.execCmpNe d a b s
  | .cmpLt d a b => Sys2Proof.Machine.execCmpLt d a b s
  | .cmpLtu d a b => Sys2Proof.Machine.execCmpLtu d a b s
  | .cmpLe d a b => Sys2Proof.Machine.execCmpLe d a b s
  | .cmpLeu d a b => Sys2Proof.Machine.execCmpLeu d a b s
  | .bext d a b => Sys2Proof.Machine.execBext d a b s
  | .bins d a b => Sys2Proof.Machine.execBins d a b s
  | .sext d a n => Sys2Proof.Machine.execSext d a n s
  | .zext d a n => Sys2Proof.Machine.execZext d a n s
  | .lea d a b sh => Sys2Proof.Machine.execLea d a b sh s
  | .mov d a => Sys2Proof.Machine.execMov d a s
  | .addi d a imm => Sys2Proof.Machine.execAddi d a imm s
  | .andi d a imm => Sys2Proof.Machine.execAndi d a imm s
  | .ori d a imm => Sys2Proof.Machine.execOri d a imm s
  | .xori d a imm => Sys2Proof.Machine.execXori d a imm s
  | .shli d a n => Sys2Proof.Machine.execShli d a n s
  | .shri d a n => Sys2Proof.Machine.execShri d a n s
  | .sari d a n => Sys2Proof.Machine.execSari d a n s
  | .cmpiEq d a imm => Sys2Proof.Machine.execCmpiEq d a imm s
  | .cmpiLt d a imm => Sys2Proof.Machine.execCmpiLt d a imm s
  | .cmpiLtu d a imm => Sys2Proof.Machine.execCmpiLtu d a imm s
  | .limm imm => Sys2Proof.Machine.execLimm imm s
  | .vadd f d x y => Sys2Proof.Machine.execVadd f d x y s
  | .vsub f d x y => Sys2Proof.Machine.execVsub f d x y s
  | .vmul f d x y => Sys2Proof.Machine.execVmul f d x y s
  | .vfma f d x y => Sys2Proof.Machine.execVfma f d x y s
  | .vfms f d x y => Sys2Proof.Machine.execVfms f d x y s
  | .vmax f d x y => Sys2Proof.Machine.execVmax f d x y s
  | .vmin f d x y => Sys2Proof.Machine.execVmin f d x y s
  | .vcmpEq f m x y => Sys2Proof.Machine.execVcmpEq f m x y s
  | .vcmpLt f m x y => Sys2Proof.Machine.execVcmpLt f m x y s
  | .vcmpLe f m x y => Sys2Proof.Machine.execVcmpLe f m x y s
  | .vadds f d x y => Sys2Proof.Machine.execVadds f d x y s
  | .vand f d x y => Sys2Proof.Machine.execVand f d x y s
  | .vor f d x y => Sys2Proof.Machine.execVor f d x y s
  | .vxor f d x y => Sys2Proof.Machine.execVxor f d x y s
  | .vshl f d x y => Sys2Proof.Machine.execVshl f d x y s
  | .vshr f d x y => Sys2Proof.Machine.execVshr f d x y s
  | .vrotF32 d x y => Sys2Proof.Machine.execVrotF32 d x y s
  | .vrotBf16 d x y => Sys2Proof.Machine.execVrotBf16 d x y s
  | .vrcpstep d x y => Sys2Proof.Machine.execVrcpstep d x y s
  | .vrsqstep d x y => Sys2Proof.Machine.execVrsqstep d x y s
  | .vcvt f d x src => Sys2Proof.Machine.execVcvt f d x src s
  | .vcvtSat f d x src => Sys2Proof.Machine.execVcvtSat f d x src s
  | .vmov f d x => Sys2Proof.Machine.execVmov f d x s
  | .vabs f d x => Sys2Proof.Machine.execVabs f d x s
  | .vneg f d x => Sys2Proof.Machine.execVneg f d x s
  | .vclamp f d x => Sys2Proof.Machine.execVclamp f d x s
  | .vscale f d x => Sys2Proof.Machine.execVscale f d x s
  | .vexp2 d x => Sys2Proof.Machine.execVexp2 d x s
  | .vlog2 d x => Sys2Proof.Machine.execVlog2 d x s
  | .vrcpA d x => Sys2Proof.Machine.execVrcpA d x s
  | .vrsqA d x => Sys2Proof.Machine.execVrsqA d x s
  | .vmask m => Sys2Proof.Machine.execVmask m s
  | .vshuf f d x y => Sys2Proof.Machine.execVshuf f d x y s
  | .vsel f d x y => Sys2Proof.Machine.execVsel f d x y s
  | .vredSum f d x => Sys2Proof.Machine.execVredSum f d x s
  | .vredMax f d x => Sys2Proof.Machine.execVredMax f d x s
  | .vredMin f d x => Sys2Proof.Machine.execVredMin f d x s
  | .vscanSum f d x => Sys2Proof.Machine.execVscanSum f d x s
  | .vtopk d x => Sys2Proof.Machine.execVtopk d x s
  | .vargmax f d x => Sys2Proof.Machine.execVargmax f d x s
  | .vfind f d x y => Sys2Proof.Machine.execVfind f d x y s
  | .vidx f d => Sys2Proof.Machine.execVidx f d s
  | .vbcast f d x => Sys2Proof.Machine.execVbcast f d x s
  | .vpack f d x y => Sys2Proof.Machine.execVpack f d x y s
  | .vunpack f d x => Sys2Proof.Machine.execVunpack f d x s
  | .vrandLatch f d => Sys2Proof.Machine.execVrandLatch f d s
  | .vrandRequest f d => Sys2Proof.Machine.execVrandRequest f d s
  | .lit n => Sys2Proof.Machine.execLit n s
  | .ext n => Sys2Proof.Machine.execExt n s
  | .sig f => Sys2Proof.Machine.execSig f s
  | .waitt f => Sys2Proof.Machine.execWaitt f s
  | .loop d => Sys2Proof.Machine.execLoop d s
  | .wload t => Sys2Proof.Machine.execWload t s
  | .mma z => Sys2Proof.Machine.execMma z s
  | .xout h => Sys2Proof.Machine.execXout h s
  | .aqEmit q => Sys2Proof.Machine.execAqEmit q s
  | .aqDrain m => Sys2Proof.Machine.execAqDrain m s
  | .stallCountExpiry c => Sys2Proof.Machine.execStallCountExpiry c s
  | .scoreboardWrite c n => Sys2Proof.Machine.execScoreboardWrite c n s
  | .vectorUnitIdle c => Sys2Proof.Machine.execVectorUnitIdle c s
  | .trapEntry c cause syl val => Sys2Proof.Machine.execTrapEntry c cause syl val s
  | .pickUp c => Sys2Proof.Machine.execPickUp c s
  | .waitConditionSatisfied n => Sys2Proof.Machine.execWaitConditionSatisfied n s
  | .blockingInstructionRetire c => Sys2Proof.Machine.execBlockingInstructionRetire c s
  | .messageDelivery clu n => Sys2Proof.Machine.execMessageDelivery clu n s
  | .spillListMove clu => Sys2Proof.Machine.execSpillListMove clu s
  | .launchCompletion l => Sys2Proof.Machine.execLaunchCompletion l s
  | .copyNode part graph node => Sys2Proof.Machine.execCopyNode part graph node s
  | .jobCompletion part ctr => Sys2Proof.Machine.execJobCompletion part ctr s
  | .dealerBind l => Sys2Proof.Machine.execDealerBind l s
  | .slotDrainZero c => Sys2Proof.Machine.execSlotDrainZero c s
  | .preemption c => Sys2Proof.Machine.execPreemption c s
  | .preemptionAbandon c => Sys2Proof.Machine.execPreemptionAbandon c s
  | .parkedLeaseEnd part rect => Sys2Proof.Machine.execParkedLeaseEnd part rect s
  | .cancelBoundaryReached c => Sys2Proof.Machine.execCancelBoundaryReached c s
  | .cancelRemovalTimeout c => Sys2Proof.Machine.execCancelRemovalTimeout c s
  | .engineCommandStart c k => Sys2Proof.Machine.execEngineCommandStart c k s
  | .engineCommandCommit c k n => Sys2Proof.Machine.execEngineCommandCommit c k n s
  | .leaseGrant part rect => Sys2Proof.Machine.execLeaseGrant part rect s
  | .attentionStallResume c n => Sys2Proof.Machine.execAttentionStallResume c n s
  | .repairAnswerTake c n => Sys2Proof.Machine.execRepairAnswerTake c n s
  | .frontierAdvance c n => Sys2Proof.Machine.execFrontierAdvance c n s
  | .reduceCollectiveComplete part tag => Sys2Proof.Machine.execReduceCollectiveComplete part tag s
  | .pageWalk clu => Sys2Proof.Machine.execPageWalk clu s
  | .shootdownRequest part => Sys2Proof.Machine.execShootdownRequest part s
  | .shootdownComplete part => Sys2Proof.Machine.execShootdownComplete part s
  | .requestActivate slot => Sys2Proof.Machine.execRequestActivate slot s
  | .requestRetire slot => Sys2Proof.Machine.execRequestRetire slot s
  | .requestSlotFree slot => Sys2Proof.Machine.execRequestSlotFree slot s
  | .publishGroupEnable g => Sys2Proof.Machine.execPublishGroupEnable g s
  | .publishGroupDisable g => Sys2Proof.Machine.execPublishGroupDisable g s
  | .deviceTableStore va size val => Sys2Proof.Machine.execDeviceTableStore va size val s
  | .timebaseTick => Sys2Proof.Machine.execTimebaseTick s
  | .exposedLatencyElapsed c => Sys2Proof.Machine.execExposedLatencyElapsed c s
  | .storePerformed c => Sys2Proof.Machine.execStorePerformed c s
  | .sensorSample col reading ok => Sys2Proof.Machine.execSensorSample col reading ok s
  | .hotColumnCadenceRaise col => Sys2Proof.Machine.execHotColumnCadenceRaise col s
  | .currentAlarm clu => Sys2Proof.Machine.execCurrentAlarm clu s
  | .currentAlarmCleared clu => Sys2Proof.Machine.execCurrentAlarmCleared clu s
  | .cadenceStepDown col => Sys2Proof.Machine.execCadenceStepDown col s
  | .packagePowerOverLimit clu => Sys2Proof.Machine.execPackagePowerOverLimit clu s
  | .railSwitch clu low => Sys2Proof.Machine.execRailSwitch clu low s
  | .railSwitchComplete clu => Sys2Proof.Machine.execRailSwitchComplete clu s
  | .phaseCtlWrite stk val => Sys2Proof.Machine.execPhaseCtlWrite stk val s
  | .phaseBoundary clu => Sys2Proof.Machine.execPhaseBoundary clu s
  | .valveWrite z share => Sys2Proof.Machine.execValveWrite z share s
  | .valveReportMismatch z pos => Sys2Proof.Machine.execValveReportMismatch z pos s
  | .flowRequestAnswer z give => Sys2Proof.Machine.execFlowRequestAnswer z give s
  | .dealerRegisterWrite reg val => Sys2Proof.Machine.execDealerRegisterWrite reg val s
  | .evacuationStart z => Sys2Proof.Machine.execEvacuationStart z s
  | .evacuationCommitTimeout z => Sys2Proof.Machine.execEvacuationCommitTimeout z s
  | .evacuationDry z => Sys2Proof.Machine.execEvacuationDry z s
  | .evacuationFailed z => Sys2Proof.Machine.execEvacuationFailed z s
  | .refillStart z share floor => Sys2Proof.Machine.execRefillStart z share floor s
  | .refillComplete z => Sys2Proof.Machine.execRefillComplete z s
  | .refillFail z => Sys2Proof.Machine.execRefillFail z s
  | .correctedBeat col => Sys2Proof.Machine.execCorrectedBeat col s
  | .busTest col failing => Sys2Proof.Machine.execBusTest col failing s
  | .busTestDeadline col => Sys2Proof.Machine.execBusTestDeadline col s
  | .uncorrectableError site col addr => Sys2Proof.Machine.execUncorrectableError site col addr s
  | .columnFence col => Sys2Proof.Machine.execColumnFence col s
  | .coreFence core => Sys2Proof.Machine.execCoreFence core s
  | .coreReturnToService core => Sys2Proof.Machine.execCoreReturnToService core s
  | .linkDown edge => Sys2Proof.Machine.execLinkDown edge s
  | .hostSnoop pa excl => Sys2Proof.Machine.execHostSnoop pa excl s
  | .hostHdmAccess pa size store val => Sys2Proof.Machine.execHostHdmAccess pa size store val s
  | .packageReset => Sys2Proof.Machine.execPackageReset s
  | .mailboxGoLost => Sys2Proof.Machine.execMailboxGoLost s
  | .partOpen src => Sys2Proof.Machine.execPartOpen src s
  | .partClose src => Sys2Proof.Machine.execPartClose src s
  | .jobSubmit src => Sys2Proof.Machine.execJobSubmit src s
  | .jobEnd src => Sys2Proof.Machine.execJobEnd src s
  | .rangeSet src => Sys2Proof.Machine.execRangeSet src s
  | .keyAdd src => Sys2Proof.Machine.execKeyAdd src s
  | .homecopy src => Sys2Proof.Machine.execHomecopy src s
  | .monAssign src => Sys2Proof.Machine.execMonAssign src s
  | .monRead src => Sys2Proof.Machine.execMonRead src s
  | .stats src => Sys2Proof.Machine.execStats src s
  | .attest src => Sys2Proof.Machine.execAttest src s
  | .powerLimit src => Sys2Proof.Machine.execPowerLimit src s
  | .supplyOutOfLimits => Sys2Proof.Machine.execSupplyOutOfLimits s
  | .supplyReturn => Sys2Proof.Machine.execSupplyReturn s
  | .peerFarRequest op pa size key val => Sys2Proof.Machine.execPeerFarRequest op pa size key val s
  | .peerCollectiveArrival a => Sys2Proof.Machine.execPeerCollectiveArrival a s
  | .mailboxStatClear val => Sys2Proof.Machine.execMailboxStatClear val s
  | .engineNop => Sys2Proof.Machine.execEngineNop s
  | .dup => Sys2Proof.Machine.execDup s
  | .drop => Sys2Proof.Machine.execDrop s
  | .swap => Sys2Proof.Machine.execSwap s
  | .over => Sys2Proof.Machine.execOver s
  | .engineAdd => Sys2Proof.Machine.execEngineAdd s
  | .endW => Sys2Proof.Machine.execEndW s
  | .lease => Sys2Proof.Machine.execLease s
  | .unlease => Sys2Proof.Machine.execUnlease s
  | .wswap => Sys2Proof.Machine.execWswap s
  | .aclr => Sys2Proof.Machine.execAclr s
  | .ackpt => Sys2Proof.Machine.execAckpt s
  | .acload => Sys2Proof.Machine.execAcload s
  | .kvapp => Sys2Proof.Machine.execKvapp s
  | .qk => Sys2Proof.Machine.execQk s
  | .sv => Sys2Proof.Machine.execSv s
  | .splice => Sys2Proof.Machine.execSplice s
  | .repair => Sys2Proof.Machine.execRepair s
  | .draw => Sys2Proof.Machine.execDraw s
  | .get => Sys2Proof.Machine.execGet s
  | .put => Sys2Proof.Machine.execPut s
  | .getr => Sys2Proof.Machine.execGetr s
  | .putr => Sys2Proof.Machine.execPutr s
  | .fill => Sys2Proof.Machine.execFill s
  | .gather => Sys2Proof.Machine.execGather s
  | .scatter => Sys2Proof.Machine.execScatter s
  | .publish => Sys2Proof.Machine.execPublish s
  | .xfer => Sys2Proof.Machine.execXfer s
  | .reduce => Sys2Proof.Machine.execReduce s
  | .aqBase => Sys2Proof.Machine.execAqBase s
  | .aqDim => Sys2Proof.Machine.execAqDim s
  | .aqWait => Sys2Proof.Machine.execAqWait s

end Sys2Proof.Machine
end

