-- ==== Sys2Proof/Machine/Turn.lean ====
section
/-! DEFINITION. What the package does next, where nothing is set down for it: the turns that are open to it, of which one is
taken (log 7). And the placing of an instruction where the next turn runs it (log 8). -/
namespace Sys2Proof.Machine

namespace State

/-- The turns open to a context. -/
def ctxTurns (s : State) (c : Nat) (x : Ctx) : List Turn :=
  let on := fun (b : Bool) (t : Turn) => if b then [t] else []
  let ev := fun (b : Bool) (i : Instr) => on b (.event i)
  on (s.mayIssue c) (.bundle c)
    ++ ev (x.stall != 0) (.stallCountExpiry c)
    ++ ev (x.wq.any (·.due.isSome)) (.exposedLatencyElapsed c)
    ++ ev (x.wq.any (·.due.isNone)) (.scoreboardWrite c 0)
    ++ ev (x.wq.any (·.vec)) (.vectorUnitIdle c)
    ++ ev (!x.sq.isEmpty || !x.sps.isEmpty) (.storePerformed c)
    ++ ev (x.running.isSome && x.preempt.isNone && s.calledFor c) (.preemption c)
    ++ ev x.preempt.isSome (.preemption c) ++ ev x.preempt.isSome (.preemptionAbandon c)
    ++ ev x.cancel.isSome (.cancelBoundaryReached c) ++ ev x.cancel.isSome (.cancelRemovalTimeout c)
    ++ (match x.running with
      | some u => ev (s.recState u.part u.recVa == 3) (.blockingInstructionRetire c)
      | none => [])
    ++ ev (s.slotState c == 1 && x.running.isNone) (.pickUp c)
    ++ ev ((s.slotState c == 2 || s.slotState c == 3) && s.drainOf c == 0) (.slotDrainZero c)
    ++ x.streams.toList.zipIdx.flatMap fun k =>
      on (x.streamRuns k.2) (.word c k.2) ++ ev (!k.1.queue.isEmpty) (.engineCommandStart c k.2)
        ++ (List.range k.1.started.length).map fun n => .event (.engineCommandCommit c k.2 n)
/-- The turns open to a cluster. -/
def clusterTurns (clu : Nat) (x : Cluster) : List Turn :=
  let ev := fun (b : Bool) (i : Instr) => if b then [Turn.event i] else []
  (List.range x.flights.length).map (fun n => .event (.messageDelivery clu n))
    ++ ev (!x.spill.isEmpty || !x.late.isEmpty) (.spillListMove clu) ++ ev (!x.waiting.isEmpty) (.pageWalk clu)
    ++ ev x.busy (.railSwitchComplete clu)
/-- The turns that a launch opens: its binding and its completion. -/
def launchTurns (s : State) (l : Nat) (x : Launch) : List Turn :=
  let ev := fun (b : Bool) (i : Instr) => if b then [Turn.event i] else []
  ev (!x.complete && s.launchq.any fun e => e.1 == l) (.dealerBind l)
    ++ ev (s.launchDone l) (.launchCompletion l)
/-- The turns of a partition: its command ring, requests that have drained (R178), leases, shootdowns, collectives. -/
def partTurns (s : State) (p : Nat) (x : Part) : List Turn :=
  (if s.ringWaiting p then [Turn.ring p] else [])
    ++ ((List.range (s.reqCnt p)).map (s.reqFirst p + ·)).filterMap (fun r =>
      if s.reqState r == 2 && s.reqDrain r == 0 then some (.event (.requestSlotFree r)) else none)
    ++ x.reqs.map (fun q => .event (.leaseGrant p q.rect)) ++ x.parked.map (fun k => .event (.parkedLeaseEnd p k.rect))
    ++ (if x.shootdown.isSome then [.event (.shootdownComplete p)] else [.event (.shootdownRequest p)])
    ++ x.collectives.map fun c => .event (.reduceCollectiveComplete p c.1)
/-- The turns of a column: the dealer's answers to the hot state (R384). -/
def colTurns (s : State) (c : Nat) (x : Column) : List Turn :=
  (if x.comp == .hot && !x.raised then [Turn.event (.hotColumnCadenceRaise c)] else [])
    ++ (if (s.gridRow (rowOfCol c)).hotBase.isSome then [Turn.event (.cadenceStepDown c)] else [])
/-- The turns of a zone: the steps of its sequences that need no reading from outside, and the answer to a FLOW.REQ (R290,
R393). A standing request may be answered again, and the release of one gets no answer (DESIGN CHOICE, log 28: R290 says of neither). -/
def zoneTurns (s : State) (z : Nat) (x : Zone) : List Turn :=
  let ev := fun (b : Bool) (i : Instr) => if b then [Turn.event i] else []
  let out := s.coolState z == 3
  ev (out && (x.step == 2 || x.step == 5 || x.step == 6)) (.evacuationStart z) ++ ev (out && x.step == 2) (.evacuationCommitTimeout z)
    ++ ev (out && x.step == 7) (.evacuationFailed z)
    ++ (if x.flow.isSome then (List.range 256).map fun g => Turn.event (.flowRequestAnswer z (BitVec.ofNat 8 g)) else [])
/-- Every turn open to the package; that time passes is always one. -/
def turns (s : State) : List Turn :=
  .event .timebaseTick ::
    s.ctxs.flatMap (fun e => s.ctxTurns e.1 e.2) ++ s.clusters.flatMap (fun e => clusterTurns e.1 e.2)
    ++ s.launches.flatMap (fun e => s.launchTurns e.1 e.2)
    ++ (s.parts.filter (·.2.isOpen)).flatMap (fun e => s.partTurns e.1 e.2)
    ++ s.cols.flatMap (fun e => s.colTurns e.1 e.2) ++ s.zones.flatMap (fun e => s.zoneTurns e.1 e.2)
    ++ s.stks.flatMap (fun e => if bitsOf e.2.phaseCtl.toNat 31 16 == 0 then [] else
        (List.range 16).map fun i => .event (.phaseBoundary (e.1 * 16 + i)))
    ++ (List.range s.suspended.length).map (fun n => .event (.waitConditionSatisfied n))
    ++ s.graphs.flatMap (fun e => (e.2.nodes.zipIdx.filter fun n => n.1.copy && n.1.st == 1).map fun n =>
        .event (.copyNode (e.1 / 1024) (e.1 % 1024) n.2))
    ++ ((s.jobs.filter (·.2.isOpen)).map fun e => .event (.jobCompletion (e.1 / 1024) (e.1 % 1024)))
    ++ (((List.range 4).filter fun e => s.linkq.any (·.1 == e)).map .link)
    ++ if s.mbxBusy then [.mailbox] else []

/-- Does a turn take place? A package that has not booted does nothing but its reset and boot (R2, R408). -/
def awake (s : State) (t : Turn) : Bool :=
  match t with
  | .boot | .event .packageReset => true
  | _ => s.booted
/-- The next turn: the first of the agenda, else one of the open turns, by a free choice where there are several. Before the boot
that is the boot. -/
def nextTurn (s : State) : Turn × State :=
  match s.agenda with
  | t :: ts => (t, { s with agenda := ts })
  | [] =>
    if !s.booted then (.boot, s)
    else match s.turns with
    | [t] => (t, s)
    | l => (l.getD (Config.choose s.tick l.length % l.length) (.event .timebaseTick), s.bump)

/-! Placing an instruction (log 8). -/

/-- A unit of partition 0 that runs on a context and is not held back. -/
def seat (x : Ctx) : Ctx :=
  { x with running := some (x.running.getD { recVa := 0, part := 0, image := 0, pri := 0, run := 0, iter := 0, level := false }),
           cancel := none, preempt := none, stall := 0, barLost := false }
/-- The engine stream that takes a word: matrix, copy or the first access stream, by its class (R234). -/
def streamFor (w : BitVec 16) : Nat := if w.toNat / 256 < 0xC0 then 0 else if w.toNat / 256 < 0xE0 then 1 else 2
/-- The word stands at the head of its stream's fetch queue on context 0, and the stream has the next turn. -/
def placeWord (s : State) (w : BitVec 16) : State :=
  let k := streamFor w
  let s := (s.modCtx 0 seat).modStream 0 k fun t => { t with forked := true, ended := false, fault := none, fetch := [w] }
  { s with agenda := [.word 0 k], booted := true }
/-- The bundle stands in memory at context 0's pc, in a page that the core's TLB maps, and the context has the next turn. -/
def placeBundle (s : State) (b : BitVec 128) : State :=
  let s := s.modCtx 0 fun x => { seat x with pc := x.pc &&& 0xFFFFFFFFFFF0 }
  let va := (s.ctx 0).pc.toNat
  let pa := va % 4096
  let page : TlbEntry := { part := (s.ctx 0).partNo, va := va / 4096 * 4096, size := 4096, pa := 0, uncached := false, key := 0,
                           u := true, w := true, x := true }
  let s := { s with mem := s.mem.putBytes pa (bytesOfNat 16 b.toNat), blockKey := s.blockKey.filter fun e => e.1 != pa / 16 }
  let s := s.modCore 0 fun n => { n with tlb := page :: n.tlb, ibuf := n.ibuf.filter fun e => e.line != pa / 64 }
  let s := s.modCluster 0 fun x => { x.dropSector (pa / 64) with busy := false }
  { s with agenda := [.bundle 0], booted := true }

end State

end Sys2Proof.Machine
end

