-- ==== Sys2Proof/Machine/Step.lean ====
section
/-! DEFINITION. One step of the package. -/
namespace Sys2Proof.Machine

/-- Runs a turn: the boot, a context's next bundle, a stream's next word, a block of a command ring, the host command in progress, a host
write of a mailbox register, an entry that a link sends, or an event. -/
def runTurn (t : Turn) (s : State) : Host.Outcome State Fault Refusal :=
  match t with
  | .bundle c => bundleStep exec c s
  | .word c k => wordStep exec c k s
  | .ring p => ringTurn p s
  | .mailbox => mailboxTurn s
  | .boot => execPackageReset s
  | .hostWrite off v => .next (s.mbxWrite off v)
  | .link e => .next (s.linkSend e)
  | .event i => exec i s

/-- One step: the package's next turn, where the package has booted or the turn is its boot. -/
def step (s : State) : Host.Outcome State Fault Refusal :=
  if s.awake s.nextTurn.1 then runTurn s.nextTurn.1 s.nextTurn.2 else .next s.nextTurn.2

/-- The state in which the very next step runs an instruction of the opcode table (log 8): an engine word where it has at most 16
bits, else a bundle whose control syllable it is. -/
def State.withFetchWord (s : State) (nbits w : Nat) : State :=
  if nbits ≤ 16 then s.placeWord (BitVec.ofNat 16 w)
  else if nbits ≤ 32 then s.placeBundle (BitVec.ofNat 128 (w % 2 ^ 32))
  else s.placeBundle (BitVec.ofNat 128 w)

end Sys2Proof.Machine
end

