-- ==== Sys2Proof/WellFormed.lean ====
section
/-! DEFINITION. Which instructions are well formed: what the encoding of a syllable or a word allows, and for an event the
numbers of the things that one package has (R8, R12, R14, R26, R86). -/
namespace Sys2Proof

/-- Sizes of a package: contexts, cores, clusters, columns, zones, partitions, streams of a context. -/
def numCtxs : Nat := 2048
def numCores : Nat := 512
def numClusters : Nat := 64
def numCols : Nat := 4096
def numZones : Nat := 256
def numParts : Nat := 64
def numStreams : Nat := 6

/-- Access sizes of loads and stores (R103). -/
def sizeOk (n : Nat) : Bool := n == 1 || n == 2 || n == 4 || n == 8

/-- A command source names a partition of the package. -/
def CmdSource.wf : CmdSource → Bool
  | .host _ => true
  | .ring p => decide (p < numParts)

/-- The numbers that an event names. -/
def Instr.inRange : Instr → Bool
  | .stallCountExpiry c | .scoreboardWrite c _ | .vectorUnitIdle c | .trapEntry c _ _ _ | .pickUp c
  | .blockingInstructionRetire c | .slotDrainZero c | .preemption c | .preemptionAbandon c | .cancelBoundaryReached c
  | .cancelRemovalTimeout c | .attentionStallResume c _ | .repairAnswerTake c _ | .frontierAdvance c _
  | .exposedLatencyElapsed c | .storePerformed c => decide (c < numCtxs)
  | .engineCommandStart c k | .engineCommandCommit c k _ => decide (c < numCtxs) && decide (k < numStreams)
  | .messageDelivery clu _ | .spillListMove clu | .pageWalk clu | .currentAlarm clu | .currentAlarmCleared clu
  | .packagePowerOverLimit clu | .railSwitch clu _ | .railSwitchComplete clu | .phaseBoundary clu => decide (clu < numClusters)
  | .copyNode p _ _ | .jobCompletion p _ | .parkedLeaseEnd p _ | .leaseGrant p _ | .reduceCollectiveComplete p _
  | .shootdownRequest p | .shootdownComplete p => decide (p < numParts)
  | .deviceTableStore _ size _ | .hostHdmAccess _ size _ _ | .peerFarRequest _ _ size _ _ => sizeOk size
  | .sensorSample col _ _ | .hotColumnCadenceRaise col | .cadenceStepDown col | .correctedBeat col | .busTest col _
  | .busTestDeadline col | .columnFence col => decide (col < numCols)
  | .phaseCtlWrite stk _ => decide (stk < 4)
  | .valveWrite z _ | .valveReportMismatch z _ | .flowRequestAnswer z _ | .evacuationStart z | .evacuationCommitTimeout z
  | .evacuationDry z | .evacuationFailed z | .refillStart z _ _ | .refillComplete z | .refillFail z => decide (z < numZones)
  | .dealerRegisterWrite (.beatThreshold col) _ | .uncorrectableError _ col _ => decide (col < numCols)
  | .coreFence n | .coreReturnToService n => decide (n < numCores)
  | .linkDown e => decide (e < 260)
  | .partOpen src | .partClose src | .jobSubmit src | .jobEnd src | .rangeSet src | .keyAdd src | .homecopy src
  | .monAssign src | .monRead src | .stats src | .attest src | .powerLimit src => src.wf
  | _ => true

/-- Well-formedness: the encoding's limits and the package's numbers. -/
def Instr.wf (i : Instr) : Bool := i.formOk && i.inRange

end Sys2Proof
end

