-- ==== Sys2Proof/Safety.lean ====
section
/-! DEFINITION. What counts as a safe run of the package, in the terms that claims use: it goes on, and its memories keep their
canonical form. -/
namespace Sys2Proof.Safety
open Sys2Proof.Machine

/-- An outcome that is a next state. -/
def Goes (o : Host.Outcome State Fault Refusal) : Prop := ∃ t, o = .next t

/-- An outcome is a next state with a property. -/
def GoesTo (o : Host.Outcome State Fault Refusal) (P : State → Prop) : Prop := ∃ t, o = .next t ∧ P t

/-- Every memory of the state is in canonical form: bank memory with the underdeck and the tables, the host's memory, the
scratchpad of each core, and the snapshot of each launch. -/
def MemOk (s : State) : Prop :=
  s.mem.wf = true ∧ s.host.wf = true ∧ (∀ e ∈ s.cores, e.2.sp.wf = true) ∧ ∀ e ∈ s.launches, e.2.snap.wf = true

/-! What an instruction needs in order to execute, and what a register write leaves. -/

/-- A register can be read: it is g0, or it is valid, no scoreboarded producer owes it a value, and under CTX.CTL.CHK no
fixed-latency producer does (R71 to R74, R244). -/
def Ready (s : State) (r : Reg) : Prop :=
  r = 0 ∨ s.me.valid.getLsbD r.val = true ∧ s.me.pendingG r = false ∧ (s.me.chk = false ∨ s.me.lateG r = none)

/-- A register holds no value that may be read: INVALID.REG (R72). -/
def Invalid (s : State) (r : Reg) : Prop := r ≠ 0 ∧ s.me.valid.getLsbD r.val = false
/-- A scoreboarded producer owes a register its value: a reader waits (R73). -/
def Owed (s : State) (r : Reg) : Prop := r ≠ 0 ∧ s.me.valid.getLsbD r.val = true ∧ s.me.pendingG r = true
/-- A fixed-latency write to a register is outstanding under CTX.CTL.CHK: STALL.SHORT (R74). -/
def Short (s : State) (r : Reg) : Prop :=
  r ≠ 0 ∧ s.me.valid.getLsbD r.val = true ∧ s.me.pendingG r = false ∧ s.me.chk = true ∧ s.me.lateG r ≠ none

/-- A register can be written: it is g0, or no scoreboarded producer owes it a value and, for a write with a latency, nothing that is
still to be written to it comes later (R73, R244). -/
def Free (s : State) (d : Reg) (lat : Option Nat) : Prop :=
  d = 0 ∨ s.me.pendingG d = false ∧ ∀ k ∈ lat, (s.me.lateG d).getD 0 ≤ s.me.cycle + k

/-- A register can be written with a latency, also after time has passed for its context: it is g0, or every write to it in flight is
an older bundle's, of fixed latency, and due by then (R73, R244). -/
def Clear (s : State) (d : Reg) (lat : Nat) : Prop :=
  d = 0 ∨ ∀ w ∈ s.me.wq, ∀ v, w.eff = .g d v → w.issued < s.me.cycle ∧ ∃ n, w.due = some n ∧ n ≤ s.me.cycle + lat

/-- No stream of the executing context holds a fault (R368). -/
def NoHeld (s : State) : Prop := ∀ k < 6, (s.me.stream k).fault = none

/-- Stream `k` of the executing context is the first that holds a fault, in the order matrix, copy, acc0 to acc3 (R368). -/
def FirstHeld (s : State) (k : Nat) : Prop :=
  k < 6 ∧ (s.me.stream k).fault ≠ none ∧ ∀ j < k, (s.me.stream j).fault = none

/-- The delivery of the fault that stream `k` holds, at a bundle (R368): the stream no longer holds it, and the trap is entered with the
cause, the subcode, the stream and the word's offset. -/
def delivered (s : State) (k : Nat) : State :=
  let f := ((s.me.stream k).fault).getD { code := 0, sub := 0, off := 0 }
  let t : Trap := { code := f.code, val := BitVec.ofNat 64 f.off, eng := true, stream := BitVec.ofNat 3 k, sub := f.sub }
  { (s.clearFault s.cur k).enterTrap s.cur t s.me.pc with mark := .trap t }

/-- The end of a wait that has held its context: byte 23 of the unit's record is 2 again (R261). -/
def woken (s : State) : State :=
  match s.me.running with
  | none => s
  | some u => if s.recState u.part u.recVa = 3 then s.setRecState u.part u.recVa 2 else s

/-- A wait that holds its context: byte 23 of the unit's record is 3 (R261). -/
def held (s : State) : State :=
  match s.me.running with
  | none => { s with mark := .hold }
  | some u => { (if s.recState u.part u.recVa = 3 then s else s.setRecState u.part u.recVa 3) with mark := .hold }

/-- The state that a part of a meaning leaves. -/
def after (m : M Unit) (s : State) : State :=
  match m s with
  | .ok _ t => t
  | .error _ t => t

/-- A vector syllable passes every check of R300 and waits for nothing (`vcheck` names its operands). -/
def Passes (s : State) (d : Option Opd) (merge : Bool) (srcs : List Opd) (mask : Bool) (lat : Option Nat) (shape : Option Word)
    (noViews : Bool := false) : Prop :=
  vcheck d merge srcs mask lat shape noViews { s with mark := .ok } = .ok () { s with mark := .ok }

/-- The state in which a vector syllable has popped its queue sources and written its destination (R155, R156, R294). -/
def vresult (s : State) (srcs : List VOp) (d : VOp) (f : Fmt) (lat : Option Nat) (rs : List (Option Nat)) : State :=
  after (vwrite d f lat rs) (after (popAll srcs) { s with mark := .ok })

/-- The same for a row or queue entry written whole. -/
def vresultRow (s : State) (srcs : List VOp) (d : VOp) (f : Fmt) (lat : Option Nat) (data : Row) : State :=
  after (vwriteRow d f lat data) (after (popAll srcs) { s with mark := .ok })

/-- A signed immediate as the LIMM of its bundle extends it (R227, R228). -/
def extS {n : Nat} (s : State) (v : BitVec n) : Word :=
  match s.limm with
  | none => v.signExtend 64
  | some h => (h ++ v).signExtend 64

/-- An unsigned immediate as the LIMM of its bundle extends it (R227, R228). -/
def extU {n : Nat} (s : State) (v : BitVec n) : Nat :=
  match s.limm with
  | none => v.toNat
  | some h => (h ++ v).toNat

/-- The state with an effect of the executing context in flight. -/
def inFlight (s : State) (e : Effect) (lat : Option Nat) (vec div load : Bool) (lq : Bool := load) : State :=
  s.modMe fun x =>
    { x with wq := x.wq ++ [{ eff := e, issued := x.cycle, due := lat.map (x.cycle + ·), vec := vec, div := div, load := load,
                              lq := lq }] }

/-- The state after a register has been given a value that is written `lat` cycles later: the register is valid, the write is
in flight, and nothing else has changed. A write to g0 leaves no trace (R71). -/
def written (s : State) (d : Reg) (v : Word) (lat : Nat) : State :=
  if d = 0 then { s with mark := .ok }
  else inFlight (({ s with mark := .ok } : State).modMe (·.setValid d)) (.g d v) (some lat) false false false

/-- The same for a scoreboarded producer, whose value is written whenever it is ready. For g0 the producer is in flight and
writes nothing. `lq` marks an entry of the load queue (R126). -/
def writtenLater (s : State) (d : Reg) (v : Word) (load : Bool) (lq : Bool := load) : State :=
  if d = 0 then inFlight { s with mark := .ok } .nothing none false false load lq
  else inFlight (({ s with mark := .ok } : State).modMe (·.setValid d)) (.g d v) none false false load lq

/-- The state in which a syllable's trap has been entered on the state before it. -/
def trapped (s : State) (slot : BitVec 2) (code : Byte) (val : Word) : State :=
  { s.enterTrap s.cur (trapOf code val slot) s.me.pc with mark := .trap (trapOf code val slot) }

/-- The executing stream has gone on to its next word, with a parameter stack. -/
def nextWord (s : State) (l : List Word) : State :=
  ({ s with mark := .ok } : State).modMyStream fun t => { t with stack := l, pos := t.pos + 1, fetch := t.fetch.drop 1 }

/-- A launch word has entered its command queue with its operands, and the stream has gone on (R325, R326). -/
def launched (s : State) (i : Instr) (ops rest : List Word) : State :=
  ({ s with mark := .ok } : State).modMyStream fun t =>
    { t with stack := rest, queue := t.queue ++ [{ word := i, off := t.pos, ops := ops }], pos := t.pos + 1,
             fetch := t.fetch.drop 1 }

/-- The executing stream has taken an engine fault at its word (R236, R326). -/
def wordFaulted (s : State) (sub : Byte) : State := { s.wordFault s.cur s.curK sub with mark := .ok }

/-- What a launch word with its operands on top of the parameter stack does: it enters its command queue, or waits while the
queue holds four entries (R153). -/
def Enters (s : State) (i : Instr) (ops : List Word) : Prop :=
  ∀ rest, s.myStream.stack = ops.reverse ++ rest →
    (s.myStream.queue.length < 4 → exec i s = .next (launched s i ops rest)) ∧
    (4 ≤ s.myStream.queue.length → exec i s = .next { s with mark := .stall })

/-- A run of `n` steps from a state meets no fault and no refusal. -/
def SafeFor (n : Nat) (s : State) : Prop := Goes (core.run n s)

end Sys2Proof.Safety
end

