-- ==== Sys2Proof/Certificates/Slice0/Obligations.lean ====
section
/-! DEFINITION. What is claimed of the package, for the provers: one definition for each statement, most of them the rules of
the manual. `Ready`, `Free`, `written` and the other words of a claim stand in Sys2Proof/Safety.lean. -/
open Sys2Proof Sys2Proof.Machine Sys2Proof.Safety

/-! Integer syllables (R246 to R248, Tables 10-1 and 10-2). Each equation gives the whole next state: the result in flight to
gd with its latency, and nothing else changed. -/

/-- R246, Table 10-2: the two-source forms of the integer syllable. The valid bit of gd is set when the write issues (`written`), for which
the manual gives no time: the model's choice (log 28), here and in the other statements of this file. -/
def Claims.IntegerTwoSources : Prop :=
  ∀ (s : State) (d a b : Reg), Ready s a → Ready s b →
    let x := s.me.reg a
    let y := s.me.reg b
    (Free s d (some 1) →
      exec (.add d a b) s = .next (written s d (x + y) 1) ∧
      exec (.sub d a b) s = .next (written s d (x - y) 1) ∧
      exec (.and d a b) s = .next (written s d (x &&& y) 1) ∧
      exec (.or d a b) s = .next (written s d (x ||| y) 1) ∧
      exec (.xor d a b) s = .next (written s d (x ^^^ y) 1) ∧
      exec (.andn d a b) s = .next (written s d (x &&& ~~~y) 1) ∧
      exec (.orn d a b) s = .next (written s d (x ||| ~~~y) 1) ∧
      exec (.shl d a b) s = .next (written s d (x <<< (y.toNat % 64)) 1) ∧
      exec (.shr d a b) s = .next (written s d (x >>> (y.toNat % 64)) 1) ∧
      exec (.sar d a b) s = .next (written s d (x.sshiftRight (y.toNat % 64)) 1) ∧
      exec (.rotl d a b) s = .next (written s d (x.rotateLeft (y.toNat % 64)) 1) ∧
      exec (.min d a b) s = .next (written s d (if x.toInt ≤ y.toInt then x else y) 1) ∧
      exec (.max d a b) s = .next (written s d (if x.toInt ≤ y.toInt then y else x) 1) ∧
      exec (.minu d a b) s = .next (written s d (if x.toNat ≤ y.toNat then x else y) 1) ∧
      exec (.maxu d a b) s = .next (written s d (if x.toNat ≤ y.toNat then y else x) 1) ∧
      exec (.cmpEq d a b) s = .next (written s d (if x = y then 1 else 0) 1) ∧
      exec (.cmpNe d a b) s = .next (written s d (if x = y then 0 else 1) 1) ∧
      exec (.cmpLt d a b) s = .next (written s d (if x.toInt < y.toInt then 1 else 0) 1) ∧
      exec (.cmpLtu d a b) s = .next (written s d (if x.toNat < y.toNat then 1 else 0) 1) ∧
      exec (.cmpLe d a b) s = .next (written s d (if x.toInt ≤ y.toInt then 1 else 0) 1) ∧
      exec (.cmpLeu d a b) s = .next (written s d (if x.toNat ≤ y.toNat then 1 else 0) 1) ∧
      ∀ sh : BitVec 3, exec (.lea d a b sh) s = .next (written s d (x + y * BitVec.ofNat 64 (2 ^ sh.toNat)) 1)) ∧
    (Free s d (some 3) →
      exec (.mul d a b) s = .next (written s d (BitVec.ofNat 64 (x.toNat * y.toNat)) 3) ∧
      exec (.mulh d a b) s = .next (written s d (BitVec.ofInt 64 (x.toInt * y.toInt / 2 ^ 64)) 3) ∧
      exec (.mulhu d a b) s = .next (written s d (BitVec.ofNat 64 (x.toNat * y.toNat / 2 ^ 64)) 3))

/-- R247: DIV and REM truncate toward zero, the remainder with the dividend's sign; division by zero gives all ones and leaves
the dividend. R244: the divider is free, and serves one division at a time. The valid bit at issue is the model's choice (log 28). -/
def Claims.IntegerDivision : Prop :=
  ∀ (s : State) (d a b : Reg), Ready s a → Ready s b → Free s d (some 20) → (s.me.wq.any fun w => w.div) = false →
    let x := s.me.reg a
    let y := s.me.reg b
    let quot := fun v => if d = 0 then inFlight { s with mark := .ok } .nothing (some 20) false true false
      else inFlight (({ s with mark := .ok } : State).modMe (·.setValid d)) (.g d v) (some 20) false true false
    exec (.div d a b) s = .next (quot (if y = 0 then BitVec.allOnes 64 else BitVec.ofInt 64 (x.toInt.tdiv y.toInt))) ∧
    exec (.rem d a b) s = .next (quot (if y = 0 then x else BitVec.ofInt 64 (x.toInt.tmod y.toInt))) ∧
    exec (.divu d a b) s = .next (quot (if y = 0 then BitVec.allOnes 64 else BitVec.ofNat 64 (x.toNat / y.toNat))) ∧
    exec (.remu d a b) s = .next (quot (BitVec.ofNat 64 (x.toNat % y.toNat)))

/-- R248: BEXT and BINS at position gb[5:0] with width gb[14:8], taken as 64 above 64; SEL reads all three sources. Bit by bit.
The valid bit at issue is the model's choice (log 28). -/
def Claims.BitFields : Prop :=
  ∀ (s : State) (d a b : Reg), Ready s a → Ready s b → Free s d (some 1) →
    let x := s.me.reg a
    let y := s.me.reg b
    let pos := y.toNat % 64
    let w := min 64 (y.toNat / 256 % 128)
    (∃ v : Word, exec (.bext d a b) s = .next (written s d v 1) ∧
      ∀ i < 64, v.getLsbD i = (decide (i < w) && x.getLsbD (pos + i))) ∧
    (Ready s d → ∃ v : Word, exec (.bins d a b) s = .next (written s d v 1) ∧
      ∀ i < 64, v.getLsbD i = if pos ≤ i ∧ i < pos + w then x.getLsbD (i - pos) else (s.me.reg d).getLsbD i) ∧
    ∀ c : Reg, Ready s c → exec (.sel d a b c) s = .next (written s d (if s.me.reg c = 0 then y else x) 1)

/-- Table 10-2: the forms with one source. CLZ and CTZ are told by the first set bit from the top and from the bottom.
The valid bit of gd at issue (`written`) is the model's choice (log 28). -/
def Claims.IntegerOneSource : Prop :=
  ∀ (s : State) (d a : Reg), Ready s a → Free s d (some 1) →
    let x := s.me.reg a
    (∃ n : Nat, exec (.clz d a) s = .next (written s d (BitVec.ofNat 64 n) 1) ∧ n ≤ 64 ∧
      (∀ i < n, x.getLsbD (63 - i) = false) ∧ (n < 64 → x.getLsbD (63 - n) = true)) ∧
    (∃ n : Nat, exec (.ctz d a) s = .next (written s d (BitVec.ofNat 64 n) 1) ∧ n ≤ 64 ∧
      (∀ i < n, x.getLsbD i = false) ∧ (n < 64 → x.getLsbD n = true)) ∧
    exec (.popc d a) s = .next (written s d (BitVec.ofNat 64 ((List.range 64).map fun i => if x.getLsbD i then 1 else 0).sum) 1) ∧
    exec (.mov d a) s = .next (written s d x 1) ∧
    (∀ n : BitVec 7, 1 ≤ n.toNat → n.toNat ≤ 64 →
      exec (.sext d a n) s = .next (written s d ((x.setWidth n.toNat).signExtend 64) 1) ∧
      exec (.zext d a n) s = .next (written s d ((x.setWidth n.toNat).setWidth 64) 1)) ∧
    ∀ n : BitVec 6,
      exec (.shli d a n) s = .next (written s d (x <<< n.toNat) 1) ∧
      exec (.shri d a n) s = .next (written s d (x >>> n.toNat) 1) ∧
      exec (.sari d a n) s = .next (written s d (x.sshiftRight n.toNat) 1)

/-- Table 10-2: the forms with a sign-extended 14-bit immediate; and LIMM, which writes no register and extends the immediate of
syllable 0 of its bundle (R228). The valid bit of gd at issue (`written`) is the model's choice (log 28). -/
def Claims.IntegerImmediate : Prop :=
  ∀ (s : State) (d a : Reg) (imm : BitVec 14), Ready s a → Free s d (some 1) →
    let x := s.me.reg a
    let i : Word := BitVec.ofInt 64 imm.toInt
    exec (.addi d a imm) s = .next (written s d (x + i) 1) ∧
    exec (.andi d a imm) s = .next (written s d (x &&& i) 1) ∧
    exec (.ori d a imm) s = .next (written s d (x ||| i) 1) ∧
    exec (.xori d a imm) s = .next (written s d (x ^^^ i) 1) ∧
    exec (.cmpiEq d a imm) s = .next (written s d (if x = i then 1 else 0) 1) ∧
    exec (.cmpiLt d a imm) s = .next (written s d (if x.toInt < imm.toInt then 1 else 0) 1) ∧
    exec (.cmpiLtu d a imm) s = .next (written s d (if x.toNat < i.toNat then 1 else 0) 1) ∧
    ∀ h : BitVec 24, exec (.limm h) s = .next { s with mark := .ok, limm := some h }

/-- R71, R72, R73, R74, R226, R244: what an integer syllable does with registers that it cannot read or write. Of its sources, the first that is
invalid raises INVALID.REG with its number, before any wait; then, in the order of the operands, one to which a scoreboarded producer
owes a value stalls the context, and one with a fixed-latency write outstanding under CTX.CTL.CHK raises STALL.SHORT. A destination that
a scoreboarded producer owes a value stalls the context, one with an older write that comes later stalls it until that write, and a
destination g0 leaves no trace in a register; a division waits for the divider first. -/
def Claims.IntegerRegisters : Prop :=
  ∀ (s : State) (d a b c : Reg) (imm : BitVec 14) (n6 : BitVec 6) (n7 : BitVec 7) (sh : BitVec 3),
    let one : List Instr := [.clz d a, .ctz d a, .popc d a, .mov d a, .sext d a n7, .zext d a n7, .shli d a n6, .shri d a n6, .sari d a n6,
      .addi d a imm, .andi d a imm, .ori d a imm, .xori d a imm, .cmpiEq d a imm, .cmpiLt d a imm, .cmpiLtu d a imm]
    let two : List Instr := [.add d a b, .sub d a b, .and d a b, .or d a b, .xor d a b, .andn d a b, .orn d a b, .shl d a b, .shr d a b,
      .sar d a b, .rotl d a b, .min d a b, .max d a b, .minu d a b, .maxu d a b, .cmpEq d a b, .cmpNe d a b, .cmpLt d a b,
      .cmpLtu d a b, .cmpLe d a b, .cmpLeu d a b, .bext d a b, .lea d a b sh]
    let slow : List Instr := [.mul d a b, .mulh d a b, .mulhu d a b]
    let division : List Instr := [.div d a b, .divu d a b, .rem d a b, .remu d a b]
    let three : List (Instr × Reg) := [(.sel d a b c, c), (.bins d a b, d)]
    let traps := fun (i : Instr) (code : Byte) (r : Reg) => exec i s = .next (trapped s 1 code (BitVec.ofNat 64 r.val))
    let waits := fun (i : Instr) => exec i s = .next { s with mark := .stall }
    (∀ i ∈ one, (Invalid s a → traps i 0x03 a) ∧ (Owed s a → waits i) ∧ (Short s a → traps i 0x06 a)) ∧
    (∀ i ∈ two ++ slow ++ division,
      (Invalid s a → traps i 0x03 a) ∧ (¬Invalid s a → Invalid s b → traps i 0x03 b) ∧
      (¬Invalid s b → Owed s a → waits i) ∧ (¬Invalid s b → Short s a → traps i 0x06 a) ∧
      (Ready s a → (Owed s b → waits i) ∧ (Short s b → traps i 0x06 b))) ∧
    (∀ i ∈ three,
      (Invalid s a → traps i.1 0x03 a) ∧ (¬Invalid s a → Invalid s b → traps i.1 0x03 b) ∧
      (¬Invalid s a → ¬Invalid s b → Invalid s i.2 → traps i.1 0x03 i.2) ∧
      (¬Invalid s b → ¬Invalid s i.2 → (Owed s a → waits i.1) ∧ (Short s a → traps i.1 0x06 a)) ∧
      (Ready s a → ¬Invalid s i.2 → (Owed s b → waits i.1) ∧ (Short s b → traps i.1 0x06 b)) ∧
      (Ready s a → Ready s b → (Owed s i.2 → waits i.1) ∧ (Short s i.2 → traps i.1 0x06 i.2)) ∧
      (Ready s a → Ready s b → Ready s i.2 → ∀ n, d ≠ 0 → s.me.pendingG d = false → s.me.lateG d = some n → s.me.cycle + 1 < n →
        exec i.1 s = .next { s with mark := .stallTo n })) ∧
    (Ready s a → Ready s b → ∀ i ∈ one ++ two ++ slow,
      (d = 0 → exec i s = .next { s with mark := .ok }) ∧ (d ≠ 0 → s.me.pendingG d = true → waits i)) ∧
    (Ready s a → Ready s b → Ready s c → (d = 0 → exec (.sel d a b c) s = .next { s with mark := .ok }) ∧
      (d ≠ 0 → s.me.pendingG d = true → waits (.sel d a b c))) ∧
    (Ready s a → Ready s b → d ≠ 0 → s.me.pendingG d = false → ∀ n, s.me.lateG d = some n →
      (s.me.cycle + 1 < n → ∀ i ∈ one ++ two, exec i s = .next { s with mark := .stallTo n }) ∧
      (s.me.cycle + 3 < n → ∀ i ∈ slow, exec i s = .next { s with mark := .stallTo n })) ∧
    (Ready s a → Ready s b → ∀ i ∈ division, let busy := s.me.wq.any fun w => w.div
      (busy = true → waits i) ∧
      (busy = false →
        (d = 0 → exec i s = .next (inFlight { s with mark := .ok } .nothing (some 20) false true false)) ∧
        (d ≠ 0 → s.me.pendingG d = true → waits i) ∧
        (d ≠ 0 → s.me.pendingG d = false → ∀ n, s.me.lateG d = some n → s.me.cycle + 20 < n →
          exec i s = .next { s with mark := .stallTo n })))

/-- R72, R73, R74, R226: the same for the sources of the control syllable. INVALID.REG comes for the first invalid source, in the order in
which the list gives them; a register with the address, the number or the descriptor is read before the checks of what it names, so
it stalls or raises STALL.SHORT first (the model's choice, log 21), and a register with data is read after the checks of the address,
which the statements of those instructions tell. A register whose reserved bits are ILLEGAL is looked at before the others, and waited for. -/
def Claims.ControlRegisters : Prop :=
  ∀ (s : State) (d a b : Reg) (off : BitVec 15) (imm : BitVec 10) (num : BitVec 15) (sc : Scope) (z : Width) (row : Fin 64),
    let address : List Instr := [.brEqz a off, .brNez a off, .brLtz a off, .brGez a off, .jmpi a, .calli a, .launch d a, .cancelUnit a,
      .cancelLaunch a, .cancelGraph a, .ldB d a imm, .ldH d a imm, .ldW d a imm, .ldD d a imm, .ldBz d a imm, .ldHz d a imm,
      .ldWz d a imm, .ldcW d a imm, .ldcD d a imm, .ldAcqW d a sc, .ldAcqD d a sc, .discard a sc, .flush a sc, .pref a imm,
      .barArr d a, .barSync a, .flagSet a, .flagClr a, .flagWait a, .recv d a, .recvPoll d a, .wait a, .runCommit d a, .runAbort a,
      .acceptEq a]
    let several : List (Instr × Reg × Reg × Reg) := [(.vsend a b, a, b, 0), (.stB d a imm, a, d, 0), (.stH d a imm, a, d, 0),
      (.stW d a imm, a, d, 0), (.stD d a imm, a, d, 0), (.stRelW d a sc, a, d, 0), (.stRelD d a sc, a, d, 0),
      (.amoAdd z sc d a b, a, b, 0), (.amoMin z sc d a b, a, b, 0), (.amoMax z sc d a b, a, b, 0), (.amoMinu z sc d a b, a, b, 0),
      (.amoMaxu z sc d a b, a, b, 0), (.amoAnd z sc d a b, a, b, 0), (.amoOr z sc d a b, a, b, 0), (.amoXor z sc d a b, a, b, 0),
      (.amoSwap z sc d a b, a, b, 0), (.cas z sc d a b, a, b, d), (.cntAdd d a b, a, b, 0), (.cntWait a b, a, b, 0),
      (.acceptTol a b, a, b, 0), (.spawn d a b, d, a, b)]
    let traps := fun (i : Instr) (code : Byte) (r : Reg) => exec i s = .next (trapped s 0 code (BitVec.ofNat 64 r.val))
    let waits := fun (i : Instr) => exec i s = .next { s with mark := .stall }
    let plain := fun (i : Instr) => (Invalid s a → traps i 0x03 a) ∧ (Owed s a → waits i) ∧ (Short s a → traps i 0x06 a)
    let x := (s.me.reg a).toNat
    (∀ i ∈ address, plain i) ∧
    (s.me.priv = true → plain (.cancelPhase a) ∧ plain (.cancelJob a)) ∧
    (∀ u, s.me.running = some u → ({ s with mark := .ok } : State).runEntry u.part u.image (extU s imm) ≠ none → plain (.runBegin d a imm)) ∧
    (∀ e ∈ several,
      (Invalid s e.2.1 → traps e.1 0x03 e.2.1) ∧ (¬Invalid s e.2.1 → Invalid s e.2.2.1 → traps e.1 0x03 e.2.2.1) ∧
      (¬Invalid s e.2.1 → ¬Invalid s e.2.2.1 → Invalid s e.2.2.2 → traps e.1 0x03 e.2.2.2) ∧
      (¬Invalid s e.2.2.1 → ¬Invalid s e.2.2.2 → (Owed s e.2.1 → waits e.1) ∧ (Short s e.2.1 → traps e.1 0x06 e.2.1))) ∧
    (Invalid s d → traps (.vput z d a row) 0x03 d) ∧ (¬Invalid s d → Invalid s a → traps (.vput z d a row) 0x03 a) ∧
    (Invalid s a → traps (.vget z d a row) 0x03 a) ∧
    (a ≠ 0 → s.me.pendingG a = true → waits (.send a b) ∧ waits (.barWait a b) ∧ waits (.flowReq a b)) ∧
    (s.me.pendingG a = false → Invalid s a → traps (.send a b) 0x03 a ∧ traps (.barWait a b) 0x03 a) ∧
    (Ready s a → Invalid s b → (x < 2 ^ 16 → traps (.send a b) 0x03 b) ∧
      (bitsOf x 63 43 = 0 → bitsOf x 7 5 = 0 → traps (.barWait a b) 0x03 b) ∧
      (x < 256 → s.me.pendingG b = false → s.me.priv = true → traps (.flowReq a b) 0x03 b)) ∧
    (s.me.pendingG a = false → Invalid s a → Ready s b → (s.me.reg b).toNat < 2 ^ 16 → s.me.priv = true → traps (.flowReq a b) 0x03 a) ∧
    (∀ u, s.me.running = some u → (a ≠ 0 → s.me.pendingG a = true → waits (.suspend a imm)) ∧
      (s.me.pendingG a = false → Invalid s a → extU s imm < ({ s with mark := .ok } : State).yieldCnt u.part u.image →
        traps (.suspend a imm) 0x03 a)) ∧
    ∀ r, SysReg.ofNum num.toNat = some r → (d ≠ 0 → s.me.pendingG d = true → waits (.mts num d)) ∧
      (r.writeLevel ≠ none → (r.writeLevel = some true → s.me.priv = true) → s.me.pendingG d = false → Invalid s d →
        traps (.mts num d) 0x03 d)

/-- Registers that a syllable cannot read or write: of the integer syllables, and the sources of the control syllables. -/
def Obligations.SourceRegisters : Prop :=
  Claims.IntegerRegisters ∧ Claims.ControlRegisters

/-- R246 to R248: the syllables with two and three register sources. -/
def Obligations.IntegerRegisterForms : Prop :=
  Claims.IntegerTwoSources ∧ Claims.IntegerDivision ∧ Claims.BitFields

/-- The syllables with one register source and an immediate. -/
def Obligations.IntegerUnaryAndImmediate : Prop :=
  Claims.IntegerOneSource ∧ Claims.IntegerImmediate

/-! Control flow, taking a trap and returning from one, and the system registers. -/

/-- R223, R249, R71: NOP changes nothing. A branch is taken where its condition holds, to PC + 16 × off15; JMP and CALL go to
PC + 16 × off20, a LIMM extending the offset (R228); JMPI and CALLI go to ga, and raise ALIGN with ga where ga[3:0] is not zero.
CALL and CALLI leave PC + 16 in g31. The target waits in `npc` until the bundle ends (R224). That g31's valid bit is set at issue is the
model's choice (log 28). -/
def Obligations.BranchesAndJumps : Prop :=
  ∀ (s : State) (a : Reg) (off : BitVec 15) (far : BitVec 20),
    let here : State := { s with mark := .ok }
    let go := fun (t : Word) => { here with npc := some t }
    let o15 := extS s off
    let o20 := extS s far
    let pc := s.me.pc
    let x := s.me.reg a
    exec .nop s = .next here ∧
    exec (.jmp far) s = .next (go (pc + 16 * o20)) ∧
    (Free s 31 (some 1) → exec (.call far) s = .next { written s 31 (pc + 16) 1 with npc := some (pc + 16 * o20) }) ∧
    (Ready s a →
      exec (.brEqz a off) s = .next (if x = 0 then go (pc + 16 * o15) else here) ∧
      exec (.brNez a off) s = .next (if x = 0 then here else go (pc + 16 * o15)) ∧
      exec (.brLtz a off) s = .next (if x.toInt < 0 then go (pc + 16 * o15) else here) ∧
      exec (.brGez a off) s = .next (if x.toInt < 0 then here else go (pc + 16 * o15)) ∧
      (x.toNat % 16 = 0 → exec (.jmpi a) s = .next (go x) ∧
        (Free s 31 (some 1) → exec (.calli a) s = .next { written s 31 (pc + 16) 1 with npc := some x })) ∧
      (x.toNat % 16 ≠ 0 → exec (.jmpi a) s = .next (trapped s 0 0x08 x) ∧ exec (.calli a) s = .next (trapped s 0 0x08 x)))

/-- R363: taking a trap drains the vector unit, saves the cause word, the pc and the value, makes the context a supervisor's inside a
handler, and goes on at TRAP.VEC; no register, mask, latch or queue is touched. A wait on a counter is over, one on a barrier too where
the trap is BARRIER, and a record that the unit held waiting is running again (R261). R365: where the unit has set no TRAP.VEC or runs a
handler already, its context is removed; R280: the fault of an iteration is held and its unit ends. The context runs a unit and no save
sequence. With nothing in flight the next state is told outright, with the context's own core written as it stands. -/
def Claims.TrapEntry : Prop :=
  ∀ (s : State) (c : Nat) (t : Trap) (pc : Word) (u : Running),
    let x := s.ctx c
    x.running = some u → x.seq = .none →
    let off := fun (y : Ctx) =>
      { (if t.code = 0x13 then { y with barPhase := none, barOn := none, barLost := false } else y) with cntOn := none }
    let entered := fun (y : Ctx) =>
      { y with trapCause := State.causeWord t, trapPc := pc, trapVal := t.val, intrap := true, priv := true, pc := y.trapVec }
    let drained := (s.drainVec c).modCtx c off
    let w := if drained.recState u.part u.recVa = 3 then drained.setRecState u.part u.recVa 2 else drained
    let vec := x.intrap = false ∧ x.trapVec ≠ 0 ∧ x.vecPart = some u.part
    (x.spec = false → vec → s.enterTrap c t pc = w.modCtx c entered) ∧
    (x.spec = false → vec → x.wq = [] → x.sps = [] → drained.recState u.part u.recVa ≠ 3 →
      s.enterTrap c t pc = (s.setCore (coreOf c) (s.core (coreOf c))).setCtx c (entered (off x))) ∧
    (x.spec = false → ¬vec →
      s.enterTrap c t pc = w.removeCtx c pc.toNat (State.causeWord t).toNat t.val.toNat true) ∧
    (x.spec = true → s.enterTrap c t pc = w.holdFault c t pc u)

/-- R287, R364: TRAP and BREAK retire and raise causes 0x14 and 0x15 with their code, which a LIMM extends, at the next bundle; in
an iteration the fault is held with the address of the bundle itself (R280).
R366: ERET clears INTRAP, restores the unit's level and goes on at TRAP.PC; outside a handler it is ILLEGAL with the syllable as
TRAP.VAL, and inside one at user level PRIV. -/
def Claims.TrapAndReturn : Prop :=
  ∀ (s : State) (code : BitVec 15),
    let here : State := { s with mark := .ok }
    let v : Word := BitVec.ofNat 64 (extU s code)
    let syl : Word := (s.raw.extractLsb' 0 32).setWidth 64
    let raised := fun (k : Byte) =>
      let t : Trap := { code := k, val := v, retired := true }
      { here.enterTrap s.cur t (if s.me.spec then s.me.pc else s.me.pc + 16) with mark := .trap t }
    exec (.trap code) s = .next (raised 0x14) ∧
    exec (.brk code) s = .next (raised 0x15) ∧
    (s.me.intrap = false → exec .eret s = .next (trapped s 0 0x01 syl)) ∧
    (s.me.intrap = true → s.me.priv = false → exec .eret s = .next (trapped s 0 0x02 syl)) ∧
    (s.me.intrap = true → s.me.priv = true → exec .eret s = .next
      { here.modMe fun x => { x with intrap := false, priv := (x.running.map (·.level)).getD false, pc := x.trapPc } with
        npc := some s.me.trapPc })

/-- R288, Table 3-3: MFS reads a register that the level and the grant allow, with latency 2; a number without a register is
ILLEGAL; a supervisor's register at user level is PRIV with the number; an instance that is not granted is PROTECT. That gd's
valid bit is set at issue is the model's choice (log 28). -/
def Obligations.ReadSystemRegister : Prop :=
  ∀ (s : State) (d : Reg) (num : BitVec 15),
    let n : Word := num.setWidth 64
    (SysReg.ofNum num.toNat = none → exec (.mfs d num) s = .next (trapped s 0 0x01 ((s.raw.extractLsb' 0 32).setWidth 64))) ∧
    ∀ r, SysReg.ofNum num.toNat = some r →
      (s.me.priv = false → r.userRead = false → exec (.mfs d num) s = .next (trapped s 0 0x02 n)) ∧
      ((s.me.priv = true ∨ r.userRead = true) → r.granted s s.myPart = false →
        exec (.mfs d num) s = .next (trapped s 0 0x0A n)) ∧
      ((s.me.priv = true ∨ r.userRead = true) → r.granted s s.myPart = true → Free s d (some 2) →
        exec (.mfs d num) s = .next (written s d (r.read s) 2))

/-- R288, Tables 3-3 and 3-5 to 3-9: MTS to CTX.CTL, and at supervisor level to the trap registers, TRAP.SCR, WATCH and the
partition's registers, writes the one register; a read of it then gives the value, WATCH.ADDR with its bits below the size in WATCH.CTL zero, every other system register reads as
before, and no general register, no other context and no memory changes. A number without a register is ILLEGAL, and so are a value with a reserved bit
set and a value that a field refuses, whatever the level; a register that no program writes is PRIV with its number, and so is a
supervisor's at user level. That reserved STREAM codes of TRAP.CAUSE are stored is the model's choice (log 28). -/
def Claims.WriteSystemRegister : Prop :=
  ∀ (s : State) (d : Reg) (num : BitVec 15), Ready s d →
    let v := s.me.reg d
    let n : Word := num.setWidth 64
    let illegal := trapped s 0 0x01 ((s.raw.extractLsb' 0 32).setWidth 64)
    let here : State := { s with mark := .ok }
    let mine := fun (f : Ctx → Ctx) => exec (.mts num d) s = .next (here.modMe f)
    let part' := fun (f : Part → Part) => exec (.mts num d) s = .next (here.modPart s.myPart f)
    let sup := s.me.priv = true
    let sized := fun (addr ctl : Word) => BitVec.ofNat 64 (addr.toNat / 2 ^ bitsOf ctl.toNat 7 3 * 2 ^ bitsOf ctl.toNat 7 3)
    (SysReg.ofNum num.toNat = none → exec (.mts num d) s = .next illegal) ∧
    (num = 0x000 → v &&& ~~~0xB = 0 → mine fun x => { x with ctl := v }) ∧
    (num = 0x008 → sup → v &&& ~~~0xF3FFFF = 0 → mine fun x => { x with trapCause := v }) ∧
    (num = 0x009 → sup → v.toNat % 16 = 0 → mine fun x => { x with trapPc := v }) ∧
    (num = 0x00A → sup → mine fun x => { x with trapVal := v }) ∧
    (num = 0x00B → sup → v.toNat % 16 = 0 → mine fun x => { x with trapVec := v, vecPart := some s.myPart }) ∧
    (num = 0x00C → sup → mine fun x => { x with trapScr := v }) ∧
    (num = 0x010 → sup → mine fun x => { x with watchAddr := v }) ∧
    (num = 0x011 → sup → v &&& ~~~0xFB = 0 → v.toNat / 8 ≤ 12 → mine fun x => { x with watchCtl := v }) ∧
    (num = 0x101 → sup → 1 ≤ v.toNat → v.toNat ≤ 64 → part' fun q => { q with leaseMax := v }) ∧
    (num = 0x102 → sup → v.toNat < 2 ^ 32 → part' fun q => { q with thresh := v }) ∧
    (num = 0x103 → sup → v.toNat < 2 ^ 16 → part' fun q => { q with repairLayer := v }) ∧
    (num = 0x104 → sup → part' fun q => { q with modelId := v }) ∧
    ∀ r, SysReg.ofNum num.toNat = some r →
      ((v &&& ~~~r.fields ≠ 0 ∨ r.valueOk v = false) → exec (.mts num d) s = .next illegal) ∧
      (v &&& ~~~r.fields = 0 → r.valueOk v = true →
        (r.writeLevel = none → exec (.mts num d) s = .next (trapped s 0 0x02 n)) ∧
        (r.writeLevel = some true → ¬sup → exec (.mts num d) s = .next (trapped s 0 0x02 n)) ∧
        (r.ring = none → r.writeLevel ≠ none → (r.writeLevel = some true → sup) →
          ∃ t, exec (.mts num d) s = .next t ∧
            r.read t = (if r = .watchAddr then sized v s.me.watchCtl else v) ∧
            (∀ k q, SysReg.ofNum k = some q → q ≠ r →
              q.read t = if r = .watchCtl ∧ q = .watchAddr then sized s.me.watchAddr v else q.read s) ∧
            t.me.g = s.me.g ∧ (∀ c, c ≠ s.cur → t.ctx c = s.ctx c) ∧ t.mem = s.mem ∧ t.cores = s.cores))

/-- R85, R138, Table 3-9: a write of a ring register is refused with RING while a command names the ring, and a write of RING.PTR
where it would hold more tiles than the ring has; else it is written, RING.PTR after a release .core of the context's stores, and the
monitors of the ring's occupancy take the new one (R211). A read then gives the value, and every other system register reads as before. -/
def Claims.WriteRingRegister : Prop :=
  ∀ (s : State) (d : Reg) (num : BitVec 15) (r : SysReg) (k : Nat), SysReg.ofNum num.toNat = some r → r.ring = some k →
    Ready s d →
    let v := s.me.reg d
    let ring := vget {} (s.core s.myCore).rings k
    let here : State := { s with mark := .ok }
    let set' := fun (t : State) (f : Ring → Ring) =>
      t.modCore s.myCore fun x => { x with rings := vset x.rings k (f (vget {} x.rings k)) }
    let writes := fun (t : State) => exec (.mts num d) s = .next t ∧ r.read t = v ∧
      ∀ n q, SysReg.ofNum n = some q → q ≠ r → q.read t = q.read s
    v &&& ~~~r.fields = 0 → r.valueOk v = true →
    (s.ringBusy s.myCore k = true → exec (.mts num d) s = .next (trapped s 0 0x0F (num.setWidth 64))) ∧
    (s.ringBusy s.myCore k = false →
      (r = .ringBase k → writes (set' here fun x => { x with base := v })) ∧
      (r = .ringShape k → writes (set' here fun x => { x with shape := v })) ∧
      (r = .ringPtr k →
        let occ := ({ ring with ptr := v } : Ring).occ
        (ring.tiles < occ → exec (.mts num d) s = .next (trapped s 0 0x0F (num.setWidth 64))) ∧
        (occ ≤ ring.tiles →
          writes ((set' (here.release s.cur .core) fun x => { x with ptr := v }).monSample 3 (s.myCore * 8 + k) occ))))

/-- R289: WAIT ga retires at once where TIMEBASE has reached ga, read as unsigned, and until then holds its context, with the record's
byte 23 at 3 while it does and at 2 after (R261). -/
def Obligations.WaitForTime : Prop :=
  ∀ (s : State) (a : Reg), Ready s a →
    let here : State := { s with mark := .ok }
    ((s.me.reg a).toNat ≤ s.timebase.toNat → exec (.wait a) s = .next (woken here)) ∧
    (s.timebase.toNat < (s.me.reg a).toNat → exec (.wait a) s = .next (held here))

/-- R290: FLOW.REQ in a granted zone leaves a request of the partition, or with share 0 none. Reserved bits of ga or gb are ILLEGAL, user
level PRIV, a zone that is not granted PROTECT with ga, and an iteration SPEC.ILLEGAL; R226 does not rank these last two, and that the
zone is reported first is the model's choice (log 21). -/
def Obligations.FlowRequest : Prop :=
  ∀ (s : State) (a b : Reg), Ready s a → Ready s b →
    let here : State := { s with mark := .ok }
    let x := (s.me.reg a).toNat
    let y := (s.me.reg b).toNat
    let syl : Word := (s.raw.extractLsb' 0 32).setWidth 64
    (256 ≤ x ∨ 2 ^ 16 ≤ y → exec (.flowReq a b) s = .next (trapped s 0 0x01 syl)) ∧
    (x < 256 → y < 2 ^ 16 →
      (s.me.priv = false → exec (.flowReq a b) s = .next (trapped s 0 0x02 syl)) ∧
      (s.me.priv = true → s.zoneGranted s.myPart x = false → exec (.flowReq a b) s = .next (trapped s 0 0x0A (s.me.reg a))) ∧
      (s.me.priv = true → s.zoneGranted s.myPart x = true →
        (s.me.spec = true → exec (.flowReq a b) s = .next (trapped s 0 0x11 syl)) ∧
        (s.me.spec = false → exec (.flowReq a b) s = .next (here.modZone x fun z =>
          { z with flow := if y % 256 = 0 then none else some (s.myPart, y % 256, y / 256) }))))

/-- Taking a trap, raising one and returning from one. -/
def Obligations.TrapEntryAndReturn : Prop :=
  Claims.TrapEntry ∧ Claims.TrapAndReturn

/-- Writing the system registers, the rings' among them. -/
def Obligations.WriteSystemRegisters : Prop :=
  Claims.WriteSystemRegister ∧ Claims.WriteRingRegister

/-! The vector unit's control side, barriers, flags and messages. -/

/-- R285, R286: VSEND fills the latch; VFENCE waits while an older vector syllable is in progress; VSTAT reads that flag as it
stood before the bundle; VPUT writes one container of a valid row of the window, ahead of what younger syllables of its bundle have
issued, and VGET reads one, zero-extended. An invalid row of the window is TAG with the row's number; an index beyond the window, a
container beyond the row, and in a row of format F4B one beyond byte 39, is SHAPE with the index. The register with the data is read
after these checks. That TAG comes before SHAPE is the model's choice (log 21), and that gd's valid bit is set at issue too (log 28). -/
def Obligations.VectorInterface : Prop :=
  ∀ (s : State) (d a b : Reg),
    let here : State := { s with mark := .ok }
    (Ready s a → Ready s b →
      exec (.vsend a b) s = .next (here.modMe fun x => { x with alo := s.me.reg a, ahi := s.me.reg b })) ∧
    exec .vfence s = .next (if s.me.vecBusy then { s with mark := .stall } else here) ∧
    (Free s d (some 2) → exec (.vstat d) s = .next (written s d (if s.me.vecBusy then 1 else 0) 2)) ∧
    ∀ (z : Width) (row : Fin 64), Ready s a → s.me.pendingRow (s.winKey row.val) = false →
      let n := Width.size z
      let c := (s.me.reg a).toNat
      let r := s.me.settled (s.winKey row.val) (s.winRow row.val)
      let good := row.val < s.me.tabCount ∧ c < 256 / n ∧ (r.tag = 4 → c * n + n ≤ 40)
      let traps := fun (code : Byte) (val : Nat) =>
        exec (.vget z d a row) s = .next (trapped s 0 code (BitVec.ofNat 64 val)) ∧
        (¬Invalid s d → exec (.vput z d a row) s = .next (trapped s 0 code (BitVec.ofNat 64 val)))
      (row.val < s.me.tabCount → r.valid = false → traps 0x04 (s.me.tabBase + row.val)) ∧
      ((row.val < s.me.tabCount → r.valid = true) → ¬good → traps 0x05 row.val) ∧
      (r.valid = true → good →
        (Free s d none → exec (.vget z d a row) s = .next
          (writtenLater s d (BitVec.ofNat 64 (r.data.toNat / 2 ^ (8 * n * c) % 2 ^ (8 * n))) false)) ∧
        (Owed s d → exec (.vput z d a row) s = .next { s with mark := .stall }) ∧
        (Short s d → exec (.vput z d a row) s = .next (trapped s 0 0x06 (BitVec.ofNat 64 d.val))) ∧
        (Ready s d →
          ((s.me.vecBusy = true ∨ s.rowHeld s.myCore (s.me.tabBase + row.val) = true) →
            exec (.vput z d a row) s = .next { s with mark := .stall }) ∧
          (s.me.vecBusy = false → s.rowHeld s.myCore (s.me.tabBase + row.val) = false →
            ∃ w : RowWrite, exec (.vput z d a row) s = .next (here.modMe fun x => x.issueFirst
                { eff := .rows [w], issued := x.cycle, due := some (x.cycle + 1), vec := true }) ∧
              w.row = s.winKey row.val ∧ w.tag = r.tag ∧
              ∀ i < 2048, w.mask.getLsbD i = decide (8 * n * c ≤ i ∧ i < 8 * n * (c + 1)) ∧
                (8 * n * c ≤ i → i < 8 * n * (c + 1) → w.data.getLsbD i = (s.me.reg d).getLsbD (i - 8 * n * c)))))

/-- R164, R204, R205, R206, R271, R272: the barrier instructions on a descriptor in ga. Its reserved bits are ILLEGAL; a context whose
barrier was lost while it was held there gets BARRIER with ga; an owner core that the partition has not, or a package outside the
domain, is PROTECT with ga; BAR.ARR and BAR.SYNC are SPEC.ILLEGAL in an iteration; a package to which no route is left (R407), more than
2,048 participants or another package without a REDUCE tag are BARRIER with ga, and so is an arrival that differs from the values of its phase. That these are looked at in
this order is the model's choice (log 21): R226 puts all but the first into one step. An arrival is made after a release at the descriptor's scope, and BAR.ARR answers the phase it arrived in,
with a latency of 1 and a valid bit set at issue (the model's choice, log 28). BAR.WAIT goes on with an acquire where the phase differs from gb, and otherwise holds its context; BAR.SYNC arrives once and then waits for the
phase after the one it arrived in. An
arrival for another package joins the collectives of the link on its way, or stalls while they have no room (R164). -/
def Claims.Barriers : Prop :=
  ∀ (s : State) (d a b : Reg), Ready s a →
    let here : State := { s with mark := .ok }
    let ga := s.me.reg a
    let q := BarDesc.ofWord ga
    let x := s.barrier q.pkg q.core q.bar
    let sc := barScope here q
    let bits := bitsOf ga.toNat 63 43 = 0 ∧ bitsOf ga.toNat 7 5 = 0
    let mine := if q.pkg = s.pkg then s.coreGranted s.myPart q.core = true else s.peers.contains q.pkg = true
    let shape := (q.pkg = s.pkg ∨ s.reaches q.pkg = true) ∧ (q.tag = 7 ∨ q.n ≤ 2048 ∧ q.pkg = s.pkg)
    let on := fun (w : State) => w.modMe fun y => { y with barOn := some (q.pkg * 512 + q.core) }
    let off := fun (w : State) => (w.modMe fun y => { y with barOn := none }).acquire s.cur sc
    let way := (s.edgeTo q.pkg, LinkClass.collectives)
    let room := q.pkg = s.pkg ∨ s.linkq.count way < 16
    let sent := fun (w : State) => if q.pkg = s.pkg then w else { w with linkq := w.linkq ++ [way] }
    let arrived := ((sent (here.release s.cur sc)).setBarrier q.pkg q.core q.bar (x.arrive q.n q.tag)).wakeBar q.pkg q.core q.bar
    let kept := fun (w : State) (k : Option (BitVec 32)) => w.modMe fun y => { y with barPhase := k }
    let all := fun (code : Byte) (val : Word) =>
      exec (.barArr d a) s = .next (trapped s 0 code val) ∧ exec (.barSync a) s = .next (trapped s 0 code val)
    let syl : Word := (s.raw.extractLsb' 0 32).setWidth 64
    (¬bits → all 0x01 syl ∧ exec (.barWait a b) s = .next (trapped s 0 0x01 syl)) ∧
    (bits → s.me.barLost = true → all 0x13 ga ∧ (Ready s b → exec (.barWait a b) s = .next (trapped s 0 0x13 ga))) ∧
    (bits → s.me.barLost = false → ¬mine → all 0x0A ga ∧ (Ready s b → exec (.barWait a b) s = .next (trapped s 0 0x0A ga))) ∧
    (bits → s.me.barLost = false → mine → s.me.spec = true → all 0x11 syl) ∧
    (bits → s.me.barLost = false → mine → ¬shape → (s.me.spec = false → all 0x13 ga) ∧
      (Ready s b → exec (.barWait a b) s = .next (trapped s 0 0x13 ga))) ∧
    (bits → s.me.barLost = false → mine → shape →
      (Ready s b →
        (x.phase.setWidth 64 ≠ s.me.reg b → exec (.barWait a b) s = .next (off (woken (on here)))) ∧
        (x.phase.setWidth 64 = s.me.reg b → exec (.barWait a b) s = .next (held (on here)))) ∧
      (s.me.spec = false →
        (x.differs q.n q.tag = true → Free s d (some 1) → exec (.barArr d a) s = .next (trapped s 0 0x13 ga)) ∧
        (x.differs q.n q.tag = false → Clear s d 1 →
          (room → exec (.barArr d a) s = .next (written arrived d (x.phase.setWidth 64) 1)) ∧
          (¬room → exec (.barArr d a) s = .next { s with mark := .stall })) ∧
        (∀ ph, s.me.barPhase = some ph →
          (x.phase ≠ ph → exec (.barSync a) s = .next (kept (off (woken (on here))) none)) ∧
          (x.phase = ph → exec (.barSync a) s = .next (held (on here)))) ∧
        (s.me.barPhase = none →
          (x.differs q.n q.tag = true → exec (.barSync a) s = .next (trapped s 0 0x13 ga)) ∧
          (x.differs q.n q.tag = false → ¬room → exec (.barSync a) s = .next { s with mark := .stall }) ∧
          (x.differs q.n q.tag = false → room →
            let n := if x.arrived = 0 then q.n else x.n
            (x.arrived + 1 = n →
              exec (.barSync a) s = .next (kept (off (woken (on (kept arrived (some x.phase))))) none)) ∧
            (x.arrived + 1 ≠ n → exec (.barSync a) s = .next (held (on (kept arrived (some x.phase)))))))))

/-- R204: one arrival at a barrier. The first of a phase sets the number of participants and the tag; the last clears the
arrivals and advances the phase; every other one counts. A barrier of a core, and one of another package, is read as it was last set,
and setting one leaves every other as it was. -/
def Claims.BarrierArrival : Prop :=
  (∀ (x : Barrier) (n : Nat) (tag : BitVec 3),
    let k := x.arrived + 1
    let y := x.arrive n tag
    (x.arrived = 0 ∨ x.n = n ∧ x.tag = tag) →
      (k = n → y = { n := 0, tag := 0, arrived := 0, phase := x.phase + 1 }) ∧
      (k ≠ n → y = { n := n, tag := tag, arrived := k, phase := x.phase })) ∧
  ∀ (s : State) (pkg core bar : Nat) (y : Barrier), core < 512 → bar < 32 →
    let t := s.setBarrier pkg core bar y
    t.barrier pkg core bar = y ∧
    (∀ pkg' core' bar', core' < 512 → bar' < 32 → (pkg', core', bar') ≠ (pkg, core, bar) →
      t.barrier pkg' core' bar' = s.barrier pkg' core' bar') ∧
    t.mem = s.mem ∧ t.ctxs = s.ctxs ∧ t.parts = s.parts

/-- R273: a flag below 4,096 of the partition is set, after a release .pkg, and the suspended units that wait for it become ready, or
it is cleared; FLAG.WAIT goes on where it is set, with an acquire .pkg, and holds its context where it is not. A number at or above
4,096 is PROTECT, and setting or clearing in an iteration SPEC.ILLEGAL, in that order (the model's choice, log 21). No other flag of any partition changes. -/
def Claims.Flags : Prop :=
  (∀ (s : State) (a : Reg), Ready s a →
    let here : State := { s with mark := .ok }
    let f := (s.me.reg a).toNat
    let q := here.release s.cur .pkg
    let syl : Word := (s.raw.extractLsb' 0 32).setWidth 64
    (4096 ≤ f → exec (.flagSet a) s = .next (trapped s 0 0x0A (s.me.reg a)) ∧
      exec (.flagClr a) s = .next (trapped s 0 0x0A (s.me.reg a)) ∧
      exec (.flagWait a) s = .next (trapped s 0 0x0A (s.me.reg a))) ∧
    (f < 4096 → s.me.spec = true → exec (.flagSet a) s = .next (trapped s 0 0x11 syl) ∧
      exec (.flagClr a) s = .next (trapped s 0 0x11 syl)) ∧
    (f < 4096 → s.me.spec = false →
      exec (.flagSet a) s = .next ((q.setFlag s.myPart f true).wakeWhere s.myPart fun w => waitKind w == 2 && waitObj w == f) ∧
      exec (.flagClr a) s = .next (here.setFlag s.myPart f false)) ∧
    (f < 4096 →
      ((s.part s.myPart).flags.getLsbD f = true → exec (.flagWait a) s = .next ((woken here).acquire s.cur .pkg)) ∧
      ((s.part s.myPart).flags.getLsbD f = false → exec (.flagWait a) s = .next (held here)))) ∧
  ∀ (s : State) (p f : Nat) (v : Bool), f < 4096 →
    let t := s.setFlag p f v
    (t.part p).flags.getLsbD f = v ∧
    (∀ g < 4096, g ≠ f → (t.part p).flags.getLsbD g = (s.part p).flags.getLsbD g) ∧
    (∀ p', p' ≠ p → t.part p' = s.part p') ∧ t.mem = s.mem ∧ t.ctxs = s.ctxs

/-- R274, R275, R276: SEND reads its payload from the scratchpad and makes a packet with the header of Table 6-4. To a context of its
own core it appends the packet to that context's queue once there is room, and discards it where the context is not bound to a launch
of the partition; to another core it begins the injection of the packet into the cluster's ring and retires with it (the model's choice, log 28), or waits
for it. RECV and RECV.POLL
take the oldest packet: the payload goes to the scratchpad and the header to gd. With an empty queue RECV.POLL answers zero and RECV
holds its context. RECV.POLL holds an entry of the load queue (R126). A misaligned address is ALIGN, one that is not in the scratchpad
window, or a payload that reaches past the core's scratchpad, is SCRATCH.RANGE, the target's reserved bits are ILLEGAL, and an iteration
is SPEC.ILLEGAL. That SEND without payload, and RECV and RECV.POLL without a message, are held to the scratchpad's size too is the model's
choice (log 28), and so is the order of ALIGN before SCRATCH.RANGE (log 21), and the valid bit of gd at issue (log 28). -/
def Claims.Messages : Prop :=
  (∀ (s : State) (c : Nat) (p : Packet), s.deliver c p =
    if s.slotState c = 1 ∧ s.slotPart c = p.part then s.modCtx c fun x => { x with msgq := x.msgq ++ [p] } else s) ∧
  ∀ (s : State) (d a b : Reg), Ready s a →
    let here : State := { s with mark := .ok }
    let syl : Word := (s.raw.extractLsb' 0 32).setWidth 64
    let window := fun (v : Word) => v.toNat < 2 ^ 57 ∧ inScratch v.toNat = true
    let size := (s.core s.myCore).spSize
    let both := fun (code : Byte) (val : Word) =>
      exec (.recv d a) s = .next (trapped s 0 code val) ∧ exec (.recvPoll d a) s = .next (trapped s 0 code val)
    let va := s.me.reg a
    let off := scratchOff va.toNat
    (va.toNat % 16 ≠ 0 → both 0x08 va) ∧
    (va.toNat % 16 = 0 → ¬(window va ∧ off ≤ size) → both 0x18 va) ∧
    (va.toNat % 16 = 0 → window va → off ≤ size → s.me.msgq = [] →
      (s.me.spec = true → both 0x11 syl) ∧
      (s.me.spec = false → exec (.recv d a) s = .next (held here) ∧
        (12 ≤ s.me.loads → exec (.recvPoll d a) s = .next { s with mark := .stall }) ∧
        (s.me.loads < 12 → Free s d none → exec (.recvPoll d a) s = .next (writtenLater s d 0 false true)))) ∧
    (∀ p rest, va.toNat % 16 = 0 → window va → off ≤ size → s.me.msgq = p :: rest →
      let taken := fun (w : State) => (((w.drainSps s.cur).modMe fun x => { x with msgq := x.msgq.drop 1 }).modCore s.myCore
        fun n => { n with sp := n.sp.putBytes off p.payload }).acquire s.cur .clu
      (12 ≤ s.me.loads → exec (.recvPoll d a) s = .next { s with mark := .stall }) ∧
      (size < off + p.payload.length → exec (.recv d a) s = .next (trapped s 0 0x18 va) ∧
        (s.me.loads < 12 → exec (.recvPoll d a) s = .next (trapped s 0 0x18 va))) ∧
      (off + p.payload.length ≤ size → s.me.spec = true → exec (.recv d a) s = .next (trapped s 0 0x11 syl) ∧
        (s.me.loads < 12 → exec (.recvPoll d a) s = .next (trapped s 0 0x11 syl))) ∧
      (off + p.payload.length ≤ size → s.me.spec = false → Clear s d 0 →
        exec (.recv d a) s = .next (writtenLater (taken (woken here)) d p.hdr false) ∧
        (s.me.loads < 12 → exec (.recvPoll d a) s = .next (writtenLater (taken here) d p.hdr false true)))) ∧
    (Ready s b →
      let tgt := s.me.reg a
      let vb := s.me.reg b
      let len := bitsOf tgt.toNat 7 5
      let last' := scratchOff vb.toNat + 16 * len
      let stop := bitsOf tgt.toNat 4 2
      let clu := clusterOf s.myCore
      let dst := coreAt clu stop * 4 + bitsOf tgt.toNat 1 0
      let hdr : Word := BitVec.ofNat 64 (2 ^ 63 + bitsOf tgt.toNat 15 8 * 256 + len * 32 + stopOf s.myCore * 4 + s.cur % 4)
      let p : Packet := { hdr := hdr, payload := (s.core s.myCore).sp.bytes (scratchOff vb.toNat) (16 * len), part := s.myPart,
                          dstStop := stop, dstCtx := dst }
      let f : Flight := { pkt := p, src := stopOf s.myCore, hops := List.replicate p.flits 0 }
      let rel := here.release s.cur .clu
      (bitsOf tgt.toNat 63 16 ≠ 0 → exec (.send a b) s = .next (trapped s 0 0x01 syl)) ∧
      (bitsOf tgt.toNat 63 16 = 0 → vb.toNat % 16 ≠ 0 → exec (.send a b) s = .next (trapped s 0 0x08 vb)) ∧
      (bitsOf tgt.toNat 63 16 = 0 → vb.toNat % 16 = 0 → ¬(window vb ∧ last' ≤ size) →
        exec (.send a b) s = .next (trapped s 0 0x18 vb)) ∧
      (bitsOf tgt.toNat 63 16 = 0 → vb.toNat % 16 = 0 → window vb → last' ≤ size →
        (s.me.spec = true → exec (.send a b) s = .next (trapped s 0 0x11 syl)) ∧
        (s.me.spec = false → stop = stopOf s.myCore →
          (s.msgBound dst p = false ∨ (s.ctx dst).msgRoom p = true → exec (.send a b) s = .next (rel.deliver dst p)) ∧
          (s.msgBound dst p = true → (s.ctx dst).msgRoom p = false →
            exec (.send a b) s = .next { s with mark := .stall })) ∧
        (s.me.spec = false → stop ≠ stopOf s.myCore →
          (((s.cluster clu).inject f).isSome = true →
            exec (.send a b) s = .next (rel.modCluster clu fun x => (x.inject f).getD x)) ∧
          ((s.cluster clu).inject f = none → exec (.send a b) s = .next { s with mark := .stall }))))

/-- The barrier instructions, and how an arrival moves a barrier. -/
def Obligations.BarrierInstructions : Prop :=
  Claims.Barriers ∧ Claims.BarrierArrival

/-- Flags and messages. -/
def Obligations.FlagsAndMessages : Prop :=
  Claims.Flags ∧ Claims.Messages

/-! Units, launches, counters and speculative runs. -/

/-- R259: SPAWN with a free slot and room in a queue: after a release .clu, a record at the lowest free slot with the resume PC,
the arguments, the launch number, the priority and the links of the spawning unit, counted live and entered in its core's ready
queue. It waits while no slot is free or no queue has room. A misaligned resume PC is ALIGN, and an iteration SPEC.ILLEGAL. -/
def Claims.Spawn : Prop :=
  ∀ (s : State) (d a b : Reg) (u : Running) (va : Nat) (rest : List Nat), Ready s d → Ready s a → Ready s b →
    let here : State := { s with mark := .ok }
    let pc := s.me.reg d
    let l := s.launch s.me.launch.toNat
    ((pc.toNat % 16 ≠ 0) → exec (.spawn d a b) s = .next (trapped s 0 0x08 pc)) ∧
    (pc.toNat % 16 = 0 → s.me.spec = true →
      exec (.spawn d a b) s = .next (trapped s 0 0x11 ((s.raw.extractLsb' 0 32).setWidth 64))) ∧
    (pc.toNat % 16 = 0 → s.me.spec = false → s.me.running = some u →
      (here.queueRoom s.me.launch.toNat s.myCore = false ∨ here.freeSlots u.part l.fields.rpool l.fields.rpooln 1 = [] →
        exec (.spawn d a b) s = .next { s with mark := .stall }) ∧
      (here.queueRoom s.me.launch.toNat s.myCore = true → here.freeSlots u.part l.fields.rpool l.fields.rpooln 1 = va :: rest →
        let links := ((here.readRec u.part u.recVa).map (·.links)).getD (linksOf 0xFFFF 0xFF 0x3F)
        let q := here.release s.cur .clu
        let r : Rec := { pc := pc.toNat, launch := q.me.launch.toNat, pri := u.pri, state := 1, a0 := (s.me.reg a).toNat,
                         a1 := (s.me.reg b).toNat, links := links }
        let w := (q.writeRec u.part va r).countLive u.part l.fields.cnt 1
        exec (.spawn d a b) s = .next (w.enqueue
          { recVa := va, part := u.part, launch := w.me.launch, pri := u.pri, time := w.now, home := w.myCore })))

/-- R262: HALT of a unit with nothing pending, no held fault and every forked stream drained: what is in flight is completed,
the lease ends, a release .pkg is performed, and the unit finishes in state 4; it waits while something is pending or a stream is not
drained. That it ends a save sequence, where it writes the record back, and a restore sequence, where the vector unit drains and the unit
goes on at its resume PC, is read from R260 and R374 by inference (log 12).
R263: RDV with PINNED clear changes nothing, and with PINNED set and the streams drained clears it with an acquire .pkg. R368: HALT
and RDV deliver a held fault before anything else. -/
def Claims.HaltAndRendezvous : Prop :=
  ∀ (s : State),
    let here : State := { s with mark := .ok }
    let waits : State := { s with mark := .stall }
    (∀ u, s.me.running = some u →
      (∀ w y r, s.me.seq = .save w y r → exec .halt s = .next (if s.quiet s.cur then
        { here.suspendUnit s.cur w y r with mark := .gone } else waits)) ∧
      (∀ r, s.me.seq = .restore r → exec .halt s = .next (if s.quiet s.cur then
        { (here.drainVec s.cur).modMe fun x => { x with seq := .none } with npc := some r } else waits)) ∧
      (s.me.seq = .none → (∀ k, FirstHeld s k → exec .halt s = .next (delivered s k)) ∧
        (NoHeld s → ¬(s.quiet s.cur = true ∧ s.streamsDrained s.cur = true) → exec .halt s = .next waits) ∧
        (NoHeld s → s.quiet s.cur = true → s.streamsDrained s.cur = true →
          exec .halt s = .next { ((((here.drainAll s.cur).dropLease s.cur).release s.cur .pkg).finishUnit u.part u.recVa 4 false
            s.myCore).idleCtx s.cur with mark := .gone }))) ∧
    (∀ k, FirstHeld s k → exec .rdv s = .next (delivered s k)) ∧
    (NoHeld s →
      (s.me.pinned = false → exec .rdv s = .next here) ∧
      (s.me.pinned = true → s.streamsDrained s.cur = true →
        exec .rdv s = .next ((here.modMe fun x => { x with pinned := false }).acquire s.cur .pkg)) ∧
      (s.me.pinned = true → s.streamsDrained s.cur = false → exec .rdv s = .next waits))

/-- R260, R35, R434: SUSPEND. A wait kind of 6 or more and a wait object out of its form are ILLEGAL with ga, a yield index beyond the
table ILLEGAL with the index, and wait kind 4 of a pinned unit whose stream holds or requests another lease ILLEGAL with ga; a rectangle
or a request that the partition has not is PROTECT. A held fault is delivered (R368), and what is
pending is waited for. A pinned unit keeps its context: with wait kind 0 it goes on at once, with another once its condition holds,
and until then it is held; it first requests the lease that kind 4 names, and
kind 3 on a barrier that was lost is BARRIER (R206). A unit that is not pinned ends its lease, drops its publish latches and leaves a
request for kind 4, an earlier grant to it being over; then its record is written back with the next bundle as its resume PC, or its save sequence begins. -/
def Claims.Suspend : Prop :=
  ∀ (s : State) (a : Reg) (imm : BitVec 10) (u : Running), Ready s a → s.me.running = some u →
    let here : State := { s with mark := .ok }
    let ga := s.me.reg a
    let w := ga.toNat
    let kind := waitKind w
    let obj := waitObj w
    let y := extU s imm
    let asks := kind = 4 ∧ s.me.asked ≠ some obj
    let idle := s.me.pinned = true → asks → s.me.lease.idle = true
    let formed := kind < 6 ∧ y < here.yieldCnt u.part u.image ∧ waitObjBad w = false ∧ idle
    let named := (kind = 4 → here.rectOk u.part obj s.myCore = true) ∧ (kind = 5 → here.reqIn u.part obj = true)
    let q := (here.dropLease s.cur).modMe fun x => { x with latches := [] }
    let q := if kind = 4 then (q.setGranted u.part u.recVa false).requestLease u.part obj none u.recVa u.pri else q
    let asked := if asks then (here.requestLease u.part obj (some s.cur) u.recVa u.pri).modMe fun x =>
      { x with lease := .requested obj s.now, asked := some obj } else here
    let ready := asked.modMe fun x => { x with latches := [] }
    let noted := if kind = 1 then ready.modMe (·.waitOn obj (waitTarget w))
      else if kind = 3 then ready.modMe fun x => { x with barOn := some (bitsOf obj 22 17 * 512 + bitsOf obj 16 8) } else ready
    let met := noted.condHolds u.part u.recVa (some s.cur) w || noted.me.waitMet
    let past := (woken noted).modMe fun x => { x with asked := none, cntOn := none, barOn := none }
    (6 ≤ kind → exec (.suspend a imm) s = .next (trapped s 0 0x01 ga)) ∧
    (kind < 6 → here.yieldCnt u.part u.image ≤ y → exec (.suspend a imm) s = .next (trapped s 0 0x01 (BitVec.ofNat 64 y))) ∧
    (kind < 6 → y < here.yieldCnt u.part u.image → waitObjBad w = true → exec (.suspend a imm) s = .next (trapped s 0 0x01 ga)) ∧
    (kind < 6 → y < here.yieldCnt u.part u.image → waitObjBad w = false → ¬idle →
      exec (.suspend a imm) s = .next (trapped s 0 0x01 ga)) ∧
    (formed → kind = 4 → here.rectOk u.part obj s.myCore = false → exec (.suspend a imm) s = .next (trapped s 0 0x0A ga)) ∧
    (formed → kind = 5 → here.reqIn u.part obj = false →
      exec (.suspend a imm) s = .next (trapped s 0 0x0A (BitVec.ofNat 64 obj))) ∧
    (formed → named → ∀ k, FirstHeld s k → exec (.suspend a imm) s = .next (delivered s k)) ∧
    (formed → named → NoHeld s → s.quiet s.cur = false → exec (.suspend a imm) s = .next { s with mark := .stall }) ∧
    (formed → named → NoHeld s → s.quiet s.cur = true →
      (s.me.pinned = true →
        (kind = 0 → exec (.suspend a imm) s = .next ready) ∧
        (kind = 3 → s.me.barLost = true → exec (.suspend a imm) s = .next (trapped s 0 0x13 (waitDesc w))) ∧
        (kind ≠ 0 → (kind = 3 → s.me.barLost = false) →
          (met = true → exec (.suspend a imm) s = .next (if kind = 1 ∨ kind = 2 then past.acquire s.cur .pkg else past)) ∧
          (met = false → exec (.suspend a imm) s = .next (held noted)))) ∧
      (s.me.pinned = false →
        let save := (here.yieldEntry u.part u.image y).1
        (save = 0xFFFFFFFF →
          exec (.suspend a imm) s = .next { q.suspendUnit s.cur ga y (s.me.pc + 16) with mark := .gone }) ∧
        (save ≠ 0xFFFFFFFF → exec (.suspend a imm) s = .next
          { q.modMe fun x => { x with seq := .save ga y (s.me.pc + 16) } with
            npc := some (BitVec.ofNat 64 ((q.ctlSection u.part u.image).1 + save)) })))

/-- R221, R263, R193: FORK of a set that the image describes once and well, by a unit that is not pinned and holds no fault: after a
release .pkg the context is pinned, the streams of the set stand at their entries with empty parameter stacks and queues, the others
are not forked, the sync flags hold the image's initial counts and the hist registers zero; nothing else of the context changes. FORK
while PINNED is ILLEGAL with the syllable, a sync table that is not in order ILLEGAL with
the index of its entry, and a set that is not described once and well ILLEGAL with its number; then a held fault is delivered (R368). -/
def Claims.Fork : Prop :=
  ∀ (s : State) (imm : BitVec 15) (u : Running), s.me.running = some u →
    let here : State := { s with mark := .ok }
    let q := here.release s.cur .pkg
    let set' := extU s imm
    let found := ((List.range (here.imgField u.part u.image 22 2)).map fun i => here.forkEntry u.part u.image i).filter (·.1 == set')
    (s.me.pinned = true → exec (.fork imm) s = .next (trapped s 0 0x01 ((s.raw.extractLsb' 0 32).setWidth 64))) ∧
    (s.me.pinned = false →
      (∀ i, here.syncBad u.part u.image = some i → exec (.fork imm) s = .next (trapped s 0 0x01 (BitVec.ofNat 64 i))) ∧
      (here.syncBad u.part u.image = none →
        ((∀ n mask entries, found ≠ [(n, mask, entries, true)]) →
          exec (.fork imm) s = .next (trapped s 0 0x01 (BitVec.ofNat 64 set'))) ∧
        (∀ n mask entries, found = [(n, mask, entries, true)] →
          (∀ k, FirstHeld s k → exec (.fork imm) s = .next (delivered s k)) ∧
          (NoHeld s →
            ∃ (flags : Vector Byte 64) (streams : Vector Stream 6),
              exec (.fork imm) s = .next (q.modMe fun x => { x with
                pinned := true, forkSet := set', hist := Vector.replicate 32 0, flags := flags, streams := streams }) ∧
              (∀ f : Fin 64, flags[f] =
                BitVec.ofNat 8 (((q.syncOf u.part u.image set' f.val).map fun e => bitsOf e 47 40).getD 0)) ∧
              ∀ k : Fin 6,
                (∀ off size, bitOf mask k.val = true → q.imgFind u.part u.image (k.val + 2) = some (off, size) →
                  streams[k] = { forked := true, base := u.image + off, len := size / 2, pos := entries.getD k.val 0,
                                 fetchAt := entries.getD k.val 0, nest := q.me.streams[k].nest }) ∧
                (bitOf mask k.val = false → streams[k] = { q.me.streams[k] with forked := false, ended := true })))))

/-- R264, R267, R268: LAUNCH of a well-formed record: after a release .pkg the level opens, and gd takes the launch number or the
counter's number, with a latency of 1 and a valid bit set at issue (the model's choice, log 28); it waits while the launch queue is full. A misaligned record is ALIGN, a malformed one ILLEGAL with ga, and one that
names a malformed structure ILLEGAL with that structure's address; a phase or a job at user level is PRIV, an address that cannot be
read its own cause with the address, an iteration SPEC.ILLEGAL, an open counter PROTECT with its number; R226 does not rank these two,
and their order is the model's choice (log 21). -/
def Claims.Launch : Prop :=
  ∀ (s : State) (d a : Reg), Ready s a →
    let ga := s.me.reg a
    let p := s.myPart
    let q := ({ s with mark := .ok } : State).release s.cur .pkg
    let syl : Word := (s.raw.extractLsb' 0 32).setWidth 64
    (ga.toNat % 64 ≠ 0 → exec (.launch d a) s = .next (trapped s 0 0x08 ga)) ∧
    (∀ e at', ga.toNat % 64 = 0 → q.readLaunch p s.me.priv ga.toNat = .error (e, at') →
      exec (.launch d a) s = .next (trapped s 0 e (BitVec.ofNat 64 at'))) ∧
    (ga.toNat % 64 = 0 → q.readLaunch p s.me.priv ga.toNat = .ok none → exec (.launch d a) s = .next (trapped s 0 0x01 ga)) ∧
    (∀ r, ga.toNat % 64 = 0 → q.readLaunch p s.me.priv ga.toNat = .ok (some r) →
      (q.enclOk p r = false → exec (.launch d a) s = .next (trapped s 0 0x01 ga)) ∧
      (q.enclOk p r = true →
        (∀ bad, q.checkNamed p s.me.priv r = .ok (.error bad) → exec (.launch d a) s = .next (trapped s 0 0x01 (BitVec.ofNat 64 bad))) ∧
        ((∀ bad, q.checkNamed p s.me.priv r ≠ .ok (.error bad)) → 2 ≤ r.kind → s.me.priv = false →
          exec (.launch d a) s = .next (trapped s 0 0x02 syl)) ∧
        ((2 ≤ r.kind → s.me.priv = true) →
          (∀ e at', q.checkNamed p s.me.priv r = .error (e, at') →
            exec (.launch d a) s = .next (trapped s 0 e (BitVec.ofNat 64 at'))) ∧
          (∀ ns, q.checkNamed p s.me.priv r = .ok (.ok ns) →
            (s.me.spec = true → exec (.launch d a) s = .next (trapped s 0 0x11 syl)) ∧
            (s.me.spec = false →
              ((q.counter p r.cnt).status = 1 → exec (.launch d a) s = .next (trapped s 0 0x0A (BitVec.ofNat 64 r.cnt))) ∧
              ((q.counter p r.cnt).status ≠ 1 → q.queueFull = true → exec (.launch d a) s = .next { s with mark := .stall }) ∧
              ((q.counter p r.cnt).status ≠ 1 → q.queueFull = false → Clear s d 1 →
                let v := q.openLevel p r ns s.me.priv
                exec (.launch d a) s = .next (written v.2 d (BitVec.ofNat 64 v.1) 1)))))))

/-- R269, Table 10-6: CANCEL takes effect on a record, a launch or a counter of the issuer's partition; a target that is not open
at its level, or that the machine does not know, is left alone; a level above the issuer's privilege is PRIV, another partition's
target or a counter number at or above 1,024 PROTECT, an iteration SPEC.ILLEGAL, which is reported before PROTECT (the model's choice,
log 21), a misaligned record ALIGN, and an address that cannot be read its own cause. An issuer that cancelled itself stops in state 5. -/
def Claims.Cancel : Prop :=
  ∀ (s : State) (a : Reg),
    let here : State := { s with mark := .ok }
    let ga := s.me.reg a
    let n := ga.toNat
    let p := s.myPart
    let syl : Word := (s.raw.extractLsb' 0 32).setWidth 64
    let known := fun (l : Nat) => (s.launches.any fun e => e.1 == l) = true
    let ends := fun (t : State) => if t.me.cancel.isSome then { t.stopCancelled t.cur 5 with mark := .gone } else t
    (s.me.priv = false → exec (.cancelPhase a) s = .next (trapped s 0 0x02 syl) ∧
      exec (.cancelJob a) s = .next (trapped s 0 0x02 syl)) ∧
    (Ready s a → s.me.spec = true →
      (∀ acc, n % 64 = 0 → here.vPa p s.me.priv .load n = .ok acc → exec (.cancelUnit a) s = .next (trapped s 0 0x11 syl)) ∧
      exec (.cancelLaunch a) s = .next (trapped s 0 0x11 syl) ∧ exec (.cancelGraph a) s = .next (trapped s 0 0x11 syl) ∧
      (s.me.priv = true → exec (.cancelPhase a) s = .next (trapped s 0 0x11 syl) ∧
        exec (.cancelJob a) s = .next (trapped s 0 0x11 syl))) ∧
    (Ready s a → s.me.spec = false →
      (n % 64 ≠ 0 → exec (.cancelUnit a) s = .next (trapped s 0 0x08 ga)) ∧
      (∀ e, n % 64 = 0 → here.vPa p s.me.priv .load n = .error e → exec (.cancelUnit a) s = .next (trapped s 0 e ga)) ∧
      (∀ r acc, n % 64 = 0 → here.vPa p s.me.priv .load n = .ok acc → here.readRec p n = some r →
        (known r.launch → (s.launch r.launch).part ≠ p → exec (.cancelUnit a) s = .next (trapped s 0 0x0A ga)) ∧
        ((known r.launch → (s.launch r.launch).part = p) → exec (.cancelUnit a) s = .next (ends (here.cancelRec p n)))) ∧
      (known n → (s.launch n).part ≠ p → exec (.cancelLaunch a) s = .next (trapped s 0 0x0A ga)) ∧
      (known n → (s.launch n).part = p → exec (.cancelLaunch a) s = .next (ends (here.cancelLaunchNo n))) ∧
      (¬known n → exec (.cancelLaunch a) s = .next (ends here)) ∧
      (1024 ≤ n → exec (.cancelGraph a) s = .next (trapped s 0 0x0A ga) ∧
        (s.me.priv = true → exec (.cancelPhase a) s = .next (trapped s 0 0x0A ga) ∧
          exec (.cancelJob a) s = .next (trapped s 0 0x0A ga))) ∧
      (n < 1024 →
        let c := s.counter p n
        exec (.cancelGraph a) s = .next (ends (if c.status = 1 ∧ c.kind = 1 then here.cancelGraphNo p n else here)) ∧
        (s.me.priv = true →
          exec (.cancelPhase a) s = .next (ends (if c.status = 1 ∧ c.kind = 2 then here.cancelPhaseNo p n else here)) ∧
          exec (.cancelJob a) s = .next (ends (if c.status = 1 ∧ c.kind = 3 then here.cancelJobNo p n else here)))))

/-- R270, R201: CNT.ADD adds gb[31:0] to DONE, after a release .pkg, tests the waits on the counter, and answers the word before, with a
latency of 1 and a valid bit set at issue (the model's choice, log 28); to
an open counter only a zero may be added, any other value is PROTECT with the number. CNT.WAIT goes on with an acquire .pkg once DONE
has reached gb[31:0], also where an event had reached it since the wait began, and holds its context before. A number at or above
1,024 is PROTECT, and CNT.ADD in an iteration SPEC.ILLEGAL, which it reports before PROTECT (the model's choice, log 21). Nothing else of
the counter and no other counter changes; that, and which waits an event notes, is told here where no unit is suspended, and by
FlowEvents otherwise. -/
def Obligations.Counters : Prop :=
  (∀ (s : State) (d a b : Reg), Ready s a → Ready s b →
    let here : State := { s with mark := .ok }
    let n := s.me.reg a
    let v := s.me.reg b
    let p := s.myPart
    let c := s.counter p n.toNat
    let add : BitVec 32 := v.setWidth 32
    let q := here.release s.cur .pkg
    let on := here.modMe (·.waitOn n.toNat (v.toNat % 2 ^ 32))
    (s.me.spec = true → exec (.cntAdd d a b) s = .next (trapped s 0 0x11 ((s.raw.extractLsb' 0 32).setWidth 64))) ∧
    (s.me.spec = false →
      (1024 ≤ n.toNat → exec (.cntAdd d a b) s = .next (trapped s 0 0x0A n)) ∧
      (n.toNat < 1024 → add ≠ 0 → c.status = 1 → exec (.cntAdd d a b) s = .next (trapped s 0 0x0A n)) ∧
      (n.toNat < 1024 → add = 0 ∨ c.status ≠ 1 → Clear s d 1 → exec (.cntAdd d a b) s = .next
        (written (q.counterEvent p n.toNat { q.counter p n.toNat with done := c.done + add }) d (State.counterWord c) 1))) ∧
    (1024 ≤ n.toNat → exec (.cntWait a b) s = .next (trapped s 0 0x0A n)) ∧
    (n.toNat < 1024 →
      (v.toNat % 2 ^ 32 ≤ c.done.toNat ∨ on.me.waitMet = true →
        exec (.cntWait a b) s = .next (((woken on).modMe fun x => { x with cntOn := none }).acquire s.cur .pkg)) ∧
      (c.done.toNat < v.toNat % 2 ^ 32 → on.me.waitMet = false → exec (.cntWait a b) s = .next (held on)))) ∧
  ∀ (s : State) (p n : Nat) (x : Counter), s.suspended = [] →
    let t := s.counterEvent p n x
    t.counter p n = x ∧ (∀ p' m, (p', m) ≠ (p, n) → t.counter p' m = s.counter p' m) ∧ t.mem = s.mem ∧
      ∀ c, (t.ctx c).cntOn = (match (s.ctx c).cntOn with
        | some (m, k, met) => some (m, k, met || (m == n && (s.ctx c).partNo == p && decide (k ≤ x.done.toNat)))
        | none => none)

/-- R277: RUN.BEGIN with a good run table entry, an aligned carry address outside the scratchpad, fewer than 16 open runs of the launch
and the slots of a guess and k iterations opens a run and answers its number: the records of the guess unit, ready at GUESS, and of the
iterations, in state 3 with wait kind 6 and the run's number (R278), k + 1 more units live, the run's width and carry, the next number, the
counts of runs and iterations, and the guess unit in the core's ready queue. It waits while no queue has room or no slots are free. The
number is one that no open run has. A bad entry is ILLEGAL, a misaligned address ALIGN, one in the scratchpad PROTECT, and in an iteration
or with 16 open runs it is SPEC.DEPTH, after PROTECT (the model's choice, log 21). The latency of 1 of gd, and its valid bit at issue, are
the model's choice too (log 28). -/
def Claims.RunBegin : Prop :=
  (∀ (s : State) (p n : Nat), ((s.part p).runs.filter fun e => e.2.isOpen).length < 2048 →
    let no := s.freeRunNo p 2048 n
    (s.run p no).isOpen = false ∧ 1 ≤ no ∧ no < 2 ^ 24) ∧
  ∀ (s : State) (d a : Reg) (imm : BitVec 10) (u : Running) (iter guess size k yield g : Nat) (its : List Nat),
    Ready s a → s.me.running = some u →
    let here : State := { s with mark := .ok }
    let ga := s.me.reg a
    let p := u.part
    let l := s.launch s.me.launch.toNat
    let no := here.freeRunNo p 2048 (s.part p).nextRun
    let entry := here.runEntry p u.image (extU s imm)
    let idx : Word := BitVec.ofNat 64 (extU s imm)
    let slots := here.freeSlots p l.fields.rpool l.fields.rpooln (k + 1)
    (entry = none → exec (.runBegin d a imm) s = .next (trapped s 0 0x01 idx)) ∧
    (entry ≠ none → ga.toNat % 64 ≠ 0 → exec (.runBegin d a imm) s = .next (trapped s 0 0x08 ga)) ∧
    (entry ≠ none → ga.toNat % 64 = 0 → inScratch ga.toNat = true → exec (.runBegin d a imm) s = .next (trapped s 0 0x0A ga)) ∧
    (entry ≠ none → ga.toNat % 64 = 0 → inScratch ga.toNat = false → s.me.spec = true ∨ 16 ≤ s.openRuns p s.me.launch →
      exec (.runBegin d a imm) s = .next (trapped s 0 0x12 idx)) ∧
    (entry = some (iter, guess, size, k, yield) → ga.toNat % 64 = 0 → inScratch ga.toNat = false → s.me.spec = false →
    s.openRuns p s.me.launch < 16 →
      (here.queueRoom s.me.launch.toNat s.myCore = false → exec (.runBegin d a imm) s = .next { s with mark := .stall }) ∧
      (here.queueRoom s.me.launch.toNat s.myCore = true → Clear s d 1 →
        (slots.length ≤ k → exec (.runBegin d a imm) s = .next { s with mark := .stall }) ∧
        (slots = g :: its → its.length = k →
          let base : Rec := { launch := s.me.launch.toNat, pri := u.pri,
                              links := ((here.readRec p u.recVa).map (·.links)).getD (linksOf 0xFFFF 0xFF 0x3F) }
          let ctl := (here.ctlSection p u.image).1
          let guessed := here.writeRec p g { base with pc := ctl + guess, state := 1, a0 := ga.toNat, a1 := k }
          let waiting := its.zipIdx.foldl (fun t e => t.writeRec p e.1
            { base with pc := ctl + iter, yield := yield, spec := true, state := 3, wait := 6 * 2 ^ 56 + no * 2 ^ 32,
                        a0 := ga.toNat + e.2 * size, a1 := e.2, run := no, iter := e.2 }) guessed
          let opened := (((waiting.countLive p l.fields.cnt (k + 1)).setRun p no
              { launch := s.me.launch, width := k, carrySz := size, base := ga.toNat, guess := g,
                iters := its.map fun va => { recVa := va }, isOpen := true }).modPart p fun q => { q with nextRun := no + 1 }).charge p
            fun t => { t with runs := t.runs + 1, iters := t.iters + BitVec.ofNat 64 k }
          let t := opened.enqueue
            { recVa := g, part := p, launch := s.me.launch, pri := u.pri, time := opened.now, home := opened.myCore }
          exec (.runBegin d a imm) s = .next (written t d (BitVec.ofNat 64 no) 1) ∧
          (t.run p no).isOpen = true ∧ (t.run p no).width = k ∧ (t.run p no).carrySz = size ∧ (t.run p no).base = ga.toNat ∧
          (t.run p no).guess = g ∧ (t.run p no).iters.map (·.recVa) = its ∧ (t.run p no).launch = s.me.launch)))

/-- R281: ACCEPT in an iteration, its carry readable and not yet given, records the answer and the carry-out; for the last
iteration the answer is yes. A misaligned address is ALIGN, ACCEPT outside an iteration SPEC.ILLEGAL, bytes that cannot be read their own
cause, and a second ACCEPT SPEC.ILLEGAL. -/
def Claims.Accept : Prop :=
  ∀ (s : State) (a b : Reg) (u : Running), Ready s a → Ready s b → s.me.running = some u →
    let here : State := { s with mark := .ok }
    let r := s.run u.part u.run
    let ga := s.me.reg a
    let tol := (s.me.reg b).toNat % 2 ^ 32
    let syl : Word := (s.raw.extractLsb' 0 32).setWidth 64
    let traps := fun (code : Byte) (val : Word) =>
      exec (.acceptEq a) s = .next (trapped s 0 code val) ∧ exec (.acceptTol a b) s = .next (trapped s 0 code val)
    let given := (r.iters.getD u.iter {}).accept.isSome
    (ga.toNat % 8 ≠ 0 → traps 0x08 ga) ∧
    (ga.toNat % 8 = 0 → s.me.spec = false → traps 0x11 syl) ∧
    (ga.toNat % 8 = 0 → s.me.spec = true →
      (∀ code val q, specBytes ga.toNat (r.carrySz / 8) here = .error (.trap code val) q → traps code val) ∧
      (∀ mine q, specBytes ga.toNat (r.carrySz / 8) here = .ok mine q →
        let note := fun (ok : Bool) => q.modRun u.part u.run fun r =>
          { r with iters := r.iters.modify u.iter fun i => { i with accept := some ok, carryOut := mine } }
        let at' := r.base + (u.iter + 1) * r.carrySz
        (r.width ≤ u.iter + 1 →
          (given = true → traps 0x11 syl) ∧
          (given = false → exec (.acceptEq a) s = .next (note true) ∧ exec (.acceptTol a b) s = .next (note true))) ∧
        (u.iter + 1 < r.width →
          (∀ e, q.vRead u.part q.me.priv at' r.carrySz = .error e → traps e (BitVec.ofNat 64 at')) ∧
          (∀ next, q.vRead u.part q.me.priv at' r.carrySz = .ok next →
            (given = true → traps 0x11 syl) ∧
            (given = false → exec (.acceptEq a) s = .next (note (mine == next)) ∧
              exec (.acceptTol a b) s = .next (note (((words32 mine).zip (words32 next)).all fun e => tolMatch tol e.1 e.2)))))))

/-- R282, R283: RUN.COMMIT of a run whose guess unit was accepted and whose units have all finished commits the accepted
iterations and answers their number, with the carry of the last one written out, or the fault of the faulted one raised; while a unit is
at work it holds its context. A run whose guess unit did not end in state 4 is aborted, and RUN.COMMIT answers zero. RUN.ABORT aborts an open run of the
launch; another number is PROTECT, and an iteration SPEC.ILLEGAL, before PROTECT (the model's choice, log 21), and so are the latency of 1 of gd and its valid bit at issue (log 28). The number accepted (R282) is that of the
iterations up to the first that faulted or whose answer was not yes, that one included, or all; it is the faulted one whose fault is raised. -/
def Claims.RunCommitAndAbort : Prop :=
  (∀ its : List Iter,
    let n := (accepted its 0).1
    n ≤ its.length ∧ (its ≠ [] → 1 ≤ n) ∧
    (∀ j i, j + 1 < n → its[j]? = some i → i.fault = none ∧ i.accept = some true) ∧
    ∀ i, 1 ≤ n → its[n - 1]? = some i →
      (accepted its 0).2 = (if i.fault = none then none else some (n - 1)) ∧
      (n < its.length → i.fault ≠ none ∨ i.accept ≠ some true)) ∧
  ∀ (s : State) (d a : Reg), Ready s a →
    let here : State := { s with mark := .ok }
    let ga := s.me.reg a
    let p := s.myPart
    let no := ga.toNat
    let r := s.run p no
    let syl : Word := (s.raw.extractLsb' 0 32).setWidth 64
    let mine := s.me.spec = false ∧ no < 2 ^ 24 ∧ r.isOpen = true ∧ r.launch = s.me.launch
    (s.me.spec = true → exec (.runAbort a) s = .next (trapped s 0 0x11 syl) ∧ exec (.runCommit d a) s = .next (trapped s 0 0x11 syl)) ∧
    (s.me.spec = false → ¬mine → exec (.runAbort a) s = .next (trapped s 0 0x0A ga) ∧ exec (.runCommit d a) s = .next (trapped s 0 0x0A ga)) ∧
    (mine →
      exec (.runAbort a) s = .next (here.abortRun p no) ∧
      (Clear s d 1 →
        ((r.guessState = 0 ∨ ∃ i ∈ r.iters, i.finished = 0) → exec (.runCommit d a) s = .next (held here)) ∧
        (r.guessState ≠ 0 → r.guessState ≠ 4 → (∀ i ∈ r.iters, i.finished ≠ 0) →
          exec (.runCommit d a) s = .next (written ((woken here).abortRun p no) d 0 1)) ∧
        (r.guessState = 4 → (∀ i ∈ r.iters, i.finished ≠ 0) →
          let w := (woken here).release s.cur .pkg
          let n := (accepted r.iters 0).1
          let last := r.iters.getD (n - 1) {}
          ((accepted r.iters 0).2 = none →
            (last.accept = none → exec (.runCommit d a) s = .next (written (w.commitRun p no n none) d (BitVec.ofNat 64 n) 1)) ∧
            (∀ q t, last.accept.isSome = true → w.vWrite p w.me.priv r.base last.carryOut = .ok q →
              (w.commitRun p no n none).vWrite p (w.commitRun p no n none).me.priv r.base last.carryOut = .ok t →
              exec (.runCommit d a) s = .next (written t d (BitVec.ofNat 64 n) 1)) ∧
            (∀ e, last.accept.isSome = true → w.vWrite p w.me.priv r.base last.carryOut = .error e →
              exec (.runCommit d a) s = .next (trapped s 0 e (BitVec.ofNat 64 r.base)))) ∧
          (∀ j code pc val, (accepted r.iters 0).2 = some j → (r.iters.getD j {}).fault = some (code, pc, val) →
            let q := written (w.commitRun p no n (some j)) d (BitVec.ofNat 64 n) 1
            let tr : Trap := { code := code, val := BitVec.ofNat 64 (r.iters.getD j {}).recVa, retired := true }
            exec (.runCommit d a) s = .next { q.enterTrap q.cur tr (q.me.pc + 16) with mark := .trap tr }))))

/-- Units that a unit makes, and the streams that it starts. -/
def Obligations.SpawnAndFork : Prop :=
  Claims.Spawn ∧ Claims.Fork

/-- How a unit ends, rests and joins its streams. -/
def Obligations.UnitEnds : Prop :=
  Claims.HaltAndRendezvous ∧ Claims.Suspend

/-- Opening a level and cancelling one. -/
def Obligations.LaunchAndCancel : Prop :=
  Claims.Launch ∧ Claims.Cancel

/-- A run begins, its iterations accept, and it commits or aborts. -/
def Obligations.SpeculativeRuns : Prop :=
  Claims.RunBegin ∧ Claims.Accept ∧ Claims.RunCommitAndAbort

/-! Scalar memory access. The forms are told for the scratchpad (R107) and for memory that the core's TLB maps (R113, R120). -/

/-- An address in the scratchpad with an access that passes its checks: aligned, within the core's scratchpad, not watched. -/
def InScratchpad (s : State) (va : Word) (size : Nat) (ld st : Bool) : Prop :=
  va.toNat % size = 0 ∧ va.toNat < 2 ^ 57 ∧ inScratch va.toNat = true ∧
    scratchOff va.toNat + size ≤ (s.core s.myCore).spSize ∧ s.me.watched va.toNat size ld st = false

/-- An address in bank memory or the underdeck, in no publish group, that an entry of the core's TLB maps for the access, with
an access that passes its checks: aligned and not watched. -/
def InMemory (s : State) (kind : AccessKind) (va : Word) (size : Nat) (ld st : Bool) (acc : Access) : Prop :=
  va.toNat % size = 0 ∧ va.toNat < 2 ^ 57 ∧ inScratch va.toNat = false ∧ s.me.watched va.toNat size ld st = false ∧
    (∃ t, (s.core s.myCore).tlb.find? (fun t => t.hits s.myPart s.me.priv kind va.toNat) = some t ∧ acc = t.access va.toNat) ∧
    isLow acc.pa = true ∧ s.groupAt acc.pa = none

/-- R107, R108, R251: a load from the scratchpad reads its bytes, little-endian, sign-extended or zero-extended by mnemonic, and
is in flight until its value is written. -/
def Claims.ScratchpadLoads : Prop :=
  ∀ (s : State) (d a : Reg) (imm : BitVec 10), Ready s a → Free s d none → s.me.loads < 12 →
    let va := fun (size : Nat) => s.me.reg a + extS s imm * BitVec.ofNat 64 size
    let ok := fun (size : Nat) => InScratchpad s (va size) size true false ∧
      (s.me.pend && s.me.spPending (scratchOff (va size).toNat) size) = false
    let v := fun (size : Nat) => (s.core s.myCore).sp.nat (scratchOff (va size).toNat) size
    let signed := fun (size : Nat) => (BitVec.ofNat (8 * size) (v size)).signExtend 64
    let plain := fun (size : Nat) => BitVec.ofNat 64 (v size)
    (ok 1 → exec (.ldB d a imm) s = .next (writtenLater (s.dropLoad d) d (signed 1) true) ∧
      exec (.ldBz d a imm) s = .next (writtenLater (s.dropLoad d) d (plain 1) true)) ∧
    (ok 2 → exec (.ldH d a imm) s = .next (writtenLater (s.dropLoad d) d (signed 2) true) ∧
      exec (.ldHz d a imm) s = .next (writtenLater (s.dropLoad d) d (plain 2) true)) ∧
    (ok 4 → exec (.ldW d a imm) s = .next (writtenLater (s.dropLoad d) d (signed 4) true) ∧
      exec (.ldWz d a imm) s = .next (writtenLater (s.dropLoad d) d (plain 4) true)) ∧
    (ok 8 → exec (.ldD d a imm) s = .next (writtenLater (s.dropLoad d) d (plain 8) true))

/-- R109, R126, R129, R251: a load from cached memory whose bytes are valid in the core's L1, outside an iteration, gives those
bytes, each replaced by that of the youngest older store of the context to it. No memory, no other register and no context but
the executing one changes. -/
def Claims.CachedLoads : Prop :=
  ∀ (s : State) (d a : Reg) (imm : BitVec 10) (acc : Access), Ready s a → Free s d none → s.me.loads < 12 → s.me.spec = false →
    let va := fun (size : Nat) => s.me.reg a + extS s imm * BitVec.ofNat 64 size
    let ok := fun (size : Nat) => InMemory s .load (va size) size true false acc ∧ acc.uncached = false ∧
      s.l1Has s.myCore (acc.pa / 64) (byteMask (acc.pa % 64) size) = true
    let v := fun (size : Nat) => natOfBytes ((List.range size).map fun i =>
      (s.me.forwarded (acc.pa + i)).getD (byteAt (s.l1Data s.myCore (acc.pa / 64)) (acc.pa % 64 + i)))
    let gives := fun (i : Instr) (x : Word) => ∃ q, exec i s = .next (writtenLater q d x true) ∧
      q.mem = s.mem ∧ q.ctxs = (s.dropLoad d).ctxs ∧ q.cores = s.cores ∧ q.clusters = s.clusters
    let signed := fun (size : Nat) => (BitVec.ofNat (8 * size) (v size)).signExtend 64
    let plain := fun (size : Nat) => BitVec.ofNat 64 (v size)
    (ok 1 → gives (.ldB d a imm) (signed 1) ∧ gives (.ldBz d a imm) (plain 1)) ∧
    (ok 2 → gives (.ldH d a imm) (signed 2) ∧ gives (.ldHz d a imm) (plain 2)) ∧
    (ok 4 → gives (.ldW d a imm) (signed 4) ∧ gives (.ldWz d a imm) (plain 4)) ∧
    (ok 8 → gives (.ldD d a imm) (plain 8))

/-- R108, R126, R251: a store to the scratchpad is in flight for four cycles; one to memory, outside an iteration, enters the
store queue with the address reached. Nothing else changes: no byte of memory, no register. -/
def Obligations.Stores : Prop :=
  ∀ (s : State) (d a : Reg) (imm : BitVec 10), Ready s a → Ready s d →
    let here : State := { s with mark := .ok }
    let v := s.me.reg d
    let scratch := fun (size : Nat) (i : Instr) =>
      let va := s.me.reg a + extS s imm * BitVec.ofNat 64 size
      InScratchpad s va size false true → exec i s = .next (here.modMe fun x =>
        { x with sps := x.sps ++ [{ off := scratchOff va.toNat, size := size, val := v, issued := x.cycle }] })
    let memory := fun (size : Nat) (i : Instr) =>
      let va := s.me.reg a + extS s imm * BitVec.ofNat 64 size
      ∀ acc, InMemory s .store va size false true acc → s.me.spec = false → s.me.sq.length < 12 →
        exec i s = .next (here.modMe fun x =>
          { x with sq := x.sq ++ [{ kind := .store, pa := acc.pa, size := size, val := v, uncached := acc.uncached,
                                    key := acc.key }] })
    (scratch 1 (.stB d a imm) ∧ memory 1 (.stB d a imm)) ∧ (scratch 2 (.stH d a imm) ∧ memory 2 (.stH d a imm)) ∧
    (scratch 4 (.stW d a imm) ∧ memory 4 (.stW d a imm)) ∧ (scratch 8 (.stD d a imm) ∧ memory 8 (.stD d a imm))

/-- R98, R100, R109, R123, R124, R133: a store that is performed. At its home the bytes written read back under their key slot, every
other byte reads under it as before, and every byte of another cipher block reads as before under every slot; a write that first recalls
the lines from the caches leaves the bytes of other lines as they were, and those of its own lines too where no cache holds them. In the
L1 the bytes read back and are valid, and on a hit the line's other bytes and all memory stay. An atomic leaves its result at the home, or
in the cluster's L2, as its scope says. -/
def Obligations.PerformedStores : Prop :=
  (∀ (s : State) (key pa : Nat) (bs : List Byte), bs ≠ [] → pa % 64 + bs.length ≤ 64 → encrypted pa = true →
    let t := s.homeWriteLine key pa bs
    (∀ i < bs.length, t.homeByte key (pa + i) = bs.getD i 0) ∧
    (∀ q, q < pa ∨ pa + bs.length ≤ q → t.homeByte key q = s.homeByte key q) ∧
    (∀ k q, q / 16 < pa / 16 ∨ (pa + bs.length - 1) / 16 < q / 16 → t.homeByte k q = s.homeByte k q) ∧
    t.host = s.host ∧ t.ctxs = s.ctxs ∧ t.cores = s.cores ∧ t.clusters = s.clusters ∧ t.parts = s.parts) ∧
  (∀ (s : State) (key p pa : Nat) (bs : List Byte), (∀ i < bs.length, encrypted (pa + i) = true) →
    let t := s.homeWrite key p pa bs
    (∀ i < bs.length, t.homeByte key (pa + i) = bs.getD i 0) ∧
    (∀ q, (∀ i < bs.length, q / 64 ≠ (pa + i) / 64) → ∀ k, t.homeByte k q = s.homeByte k q) ∧
    ((∀ i < bs.length, s.holders ((pa + i) / 64) = [] ∧ ∀ e ∈ s.cores, (s.core e.1).l1At ((pa + i) / 64) = none) →
      ∀ q, (∀ i < bs.length, q ≠ pa + i) → t.homeByte key q = s.homeByte key q)) ∧
  (∀ (s : State) (c : Nat) (e : SqEntry), 1 ≤ e.size → e.size ≤ 8 → e.pa % 64 + e.size ≤ 64 →
    let t := s.performStore c e
    let core := coreOf c
    let line := e.pa / 64
    let byte := fun (i : Nat) => BitVec.ofNat 8 (e.val.toNat / 2 ^ (8 * i))
    (e.uncached = true → encrypted e.pa = true → (∀ i < e.size, t.homeByte e.key (e.pa + i) = byte i) ∧
      ∀ q, q / 64 ≠ line → ∀ k, t.homeByte k q = s.homeByte k q) ∧
    (e.uncached = false →
      (∀ i < e.size, byteAt (t.l1Data core line) (e.pa % 64 + i) = byte i) ∧
      t.l1Has core line (byteMask (e.pa % 64) e.size) = true ∧
      ∀ l, (s.core (s.l1Core core line)).l1At line = some l → t.mem = s.mem ∧
        ∀ j < 64, j < e.pa % 64 ∨ e.pa % 64 + e.size ≤ j → byteAt (t.l1Data core line) j = byteAt l.data j)) ∧
  ∀ (s q : State) (acc : Access) (size old : Nat) (sc : Scope) (f : Nat → Nat), 1 ≤ size → acc.pa % 64 + size ≤ 64 →
    isLow acc.pa = true → atomicMem acc size sc f s = .ok old q →
      (acc.uncached = true ∨ widerThanClu sc = true → q.homeBytes acc.key acc.pa size = bytesOfNat size (f old)) ∧
      (acc.uncached = false → widerThanClu sc = false → ∀ i < size,
        byteAt (q.l2Data (clusterOf s.myCore) (acc.pa / 64)) (acc.pa % 64 + i) = BitVec.ofNat 8 (f old / 2 ^ (8 * i)))

/-- R103, R107, R251, R252, R253, R257, R258: a misaligned scalar access raises ALIGN, and one in the scratchpad window beyond the core's
scratchpad SCRATCH.RANGE, each with the address: loads and stores of every width, LDC, LD.ACQ, ST.REL, the atomics and CAS. The register with
the data, and CAS's expected value, are read after the checks of the address (R226): one that is owed a value stalls the context then,
and one with a fixed-latency write outstanding under CTX.CTL.CHK raises STALL.SHORT. -/
def Obligations.AddressChecks : Prop :=
  ∀ (s : State) (d a b : Reg) (imm : BitVec 10) (sc : Scope) (z : Width), Ready s a →
    let ga := s.me.reg a
    let at' := fun (size : Nat) => ga + extS s imm * BitVec.ofNat 64 size
    let odd := fun (i : Instr) (va : Word) (size : Nat) => va.toNat % size ≠ 0 → exec i s = .next (trapped s 0 0x08 va)
    let checked := fun (i : Instr) (va : Word) (size : Nat) => odd i va size ∧
      (va.toNat % size = 0 → va.toNat < 2 ^ 57 → inScratch va.toNat = true →
        (s.core s.myCore).spSize < scratchOff va.toNat + size → exec i s = .next (trapped s 0 0x18 va))
    let n := Width.size z
    (∀ e ∈ [(Instr.ldB d a imm, 1), (.ldBz d a imm, 1), (.ldH d a imm, 2), (.ldHz d a imm, 2), (.ldW d a imm, 4), (.ldWz d a imm, 4),
        (.ldD d a imm, 8)], checked e.1 (at' e.2) e.2) ∧
    (∀ e ∈ [(Instr.ldcW d a imm, 4), (.ldcD d a imm, 8)], odd e.1 (at' e.2) e.2) ∧
    (∀ e ∈ [(Instr.ldAcqW d a sc, 4), (.ldAcqD d a sc, 8)], checked e.1 ga e.2) ∧
    (¬Invalid s d →
      (∀ e ∈ [(Instr.stB d a imm, 1), (.stH d a imm, 2), (.stW d a imm, 4), (.stD d a imm, 8)], checked e.1 (at' e.2) e.2) ∧
      (∀ e ∈ [(Instr.stRelW d a sc, 4), (.stRelD d a sc, 8)], checked e.1 ga e.2)) ∧
    (¬Invalid s b →
      (∀ i ∈ [Instr.amoAdd z sc d a b, .amoMin z sc d a b, .amoMax z sc d a b, .amoMinu z sc d a b, .amoMaxu z sc d a b,
        .amoAnd z sc d a b, .amoOr z sc d a b, .amoXor z sc d a b, .amoSwap z sc d a b], checked i ga n) ∧
      (¬Invalid s d → checked (.cas z sc d a b) ga n)) ∧
    let reads := fun (i : Instr) (r : Reg) => (Owed s r → exec i s = .next { s with mark := .stall }) ∧
      (Short s r → exec i s = .next (trapped s 0 0x06 (BitVec.ofNat 64 r.val)))
    (∀ e ∈ [(Instr.stB d a imm, 1), (.stH d a imm, 2), (.stW d a imm, 4), (.stD d a imm, 8)],
      InScratchpad s (at' e.2) e.2 false true → reads e.1 d) ∧
    (∀ e ∈ [(Instr.stRelW d a sc, 4), (.stRelD d a sc, 8)], InScratchpad s ga e.2 false true → reads e.1 d) ∧
    (InScratchpad s ga n true true →
      (∀ i ∈ [Instr.amoAdd z sc d a b, .amoMin z sc d a b, .amoMax z sc d a b, .amoMinu z sc d a b, .amoMaxu z sc d a b,
        .amoAnd z sc d a b, .amoOr z sc d a b, .amoXor z sc d a b, .amoSwap z sc d a b], reads i b) ∧
      (¬Invalid s d → reads (.cas z sc d a b) b) ∧ (Ready s b → reads (.cas z sc d a b) d))

/-- R139, R252: LDC gives the bytes of the launch's snapshot, whatever has been stored since. Its access hits and fills the caches as a
load's does (Table 4-2, R216), or recalls the line for an uncached page; beside that, and the note of where it reads, it changes nothing,
and no register of any context but the executing one's. -/
def Claims.LoadConstant : Prop :=
  ∀ (s : State) (d a : Reg) (imm : BitVec 10) (acc : Access), Ready s a → Free s d none → s.me.loads < 12 →
    let here : State := { s with mark := .ok }
    let l := s.launch s.me.launch.toNat
    let v := fun (size : Nat) =>
      natOfBytes (({ here with mem := l.snap, blockKey := l.snapKey } : State).homeBytes acc.key acc.pa size)
    let seen := fun (size : Nat) =>
      let n := here.noteLoad d acc size false true
      if acc.uncached then n.recall (acc.pa / 64) s.myPart
      else n.l1Touch s.myCore acc.key s.myPart (acc.pa / 64) (byteMask (acc.pa % 64) size)
    let gives := fun (i : Instr) (size : Nat) (x : Word) =>
      exec i s = .next (writtenLater (seen size) d x true) ∧ (seen size).ctxs = (here.noteLoad d acc size false true).ctxs
    (InMemory s .load (s.me.reg a + extS s imm * 4) 4 true false acc → gives (.ldcW d a imm) 4 ((BitVec.ofNat 32 (v 4)).signExtend 64)) ∧
    (InMemory s .load (s.me.reg a + extS s imm * 8) 8 true false acc → gives (.ldcD d a imm) 8 (BitVec.ofNat 64 (v 8)))

/-- R130, R131, R253: LD.ACQ from the scratchpad reads, performs the acquire of its scope, and answers; ST.REL to the scratchpad
performs the release first, and at .ctx it is a plain store. QSYNC and FENCE perform a release and an acquire. From memory, LD.ACQ reads after the line's clean L1
data is passed over where the scope reaches past the L1, and performs the acquire; to memory, ST.REL takes its place in the store queue
behind the context's scratchpad stores, from which it is performed as a release at its scope (R126). -/
def Claims.AcquireRelease : Prop :=
  ∀ (s : State) (d a : Reg) (sc : Scope),
    let here : State := { s with mark := .ok }
    let va := s.me.reg a
    let off := scratchOff va.toNat
    let sp := (s.core s.myCore).sp
    let rel := here.release s.cur sc
    exec (.qsync sc) s = .next (rel.acquire rel.cur sc) ∧ exec (.fence sc) s = .next (rel.acquire rel.cur sc) ∧
    (Ready s a → Free s d none → s.me.loads < 12 →
      (InScratchpad s va 4 true false → (s.me.pend && s.me.spPending off 4) = false → exec (.ldAcqW d a sc) s = .next
        (writtenLater ((here.dropLoad d).acquire s.cur sc) d ((BitVec.ofNat 32 (sp.nat off 4)).signExtend 64) true)) ∧
      (InScratchpad s va 8 true false → (s.me.pend && s.me.spPending off 8) = false → exec (.ldAcqD d a sc) s = .next
        (writtenLater ((here.dropLoad d).acquire s.cur sc) d (BitVec.ofNat 64 (sp.nat off 8)) true)) ∧
      let from' := fun (acc : Access) (size : Nat) (signed : Bool) =>
        let w := here.noteLoad d acc size signed
        if w.scopeActs s.myCore sc then w.freshen s.myCore (acc.pa / 64) else w
      (∀ acc, InMemory s .load va 4 true false acc → ∃ v q, placeBytes va 4 (.mem acc) (from' acc 4 true) = .ok v q ∧
        exec (.ldAcqW d a sc) s = .next (writtenLater (q.acquire q.cur sc) d ((BitVec.ofNat 32 v).signExtend 64) true)) ∧
      (∀ acc, InMemory s .load va 8 true false acc → ∃ v q, placeBytes va 8 (.mem acc) (from' acc 8 false) = .ok v q ∧
        exec (.ldAcqD d a sc) s = .next (writtenLater (q.acquire q.cur sc) d (BitVec.ofNat 64 v) true))) ∧
    (Ready s a → Ready s d →
      let v := s.me.reg d
      let scratch := fun (size : Nat) (i : Instr) => InScratchpad s va size false true →
        exec i s = .next ((if sc = .ctx then here else rel).modMe fun x => { x with sps := x.sps ++ [{ off := off, size := size, val := v, issued := x.cycle }] })
      let memory := fun (size : Nat) (i : Instr) => ∀ acc, InMemory s .store va size false true acc → s.me.spec = false →
        s.me.sq.length < 12 → exec i s = .next ((if sc = .ctx then here else here.drainSps s.cur).modMe fun x =>
          { x with sq := x.sq ++ [{ kind := if sc = .ctx then .store else .release sc, pa := acc.pa, size := size, val := v, uncached := acc.uncached,
                                    key := acc.key }] })
      scratch 4 (.stRelW d a sc) ∧ scratch 8 (.stRelD d a sc) ∧ memory 4 (.stRelW d a sc) ∧ memory 8 (.stRelD d a sc))

/-- R140, R141, R255, R256: IFENCE empties the core's instruction buffer. DISCARD and FLUSH on memory take their place in the
store queue with the line's address, and on the scratchpad do nothing; in an iteration they are SPEC.ILLEGAL. PREF on the scratchpad does nothing, and on cached memory
that the core's TLB maps it makes the L1 hold the line. -/
def Claims.CacheControl : Prop :=
  ∀ (s : State) (a : Reg) (sc : Scope) (imm : BitVec 10),
    let here : State := { s with mark := .ok }
    exec .ifence s = .next (here.modCore s.myCore fun n => { n with ibuf := [] }) ∧
    (Ready s a →
      let va := s.me.reg a
      let syl : Word := (s.raw.extractLsb' 0 32).setWidth 64
      (s.me.spec = true →
        ((va.toNat < 2 ^ 57 ∧ inScratch va.toNat = true ∨ ∃ acc, InMemory s .store va 1 false false acc) →
          exec (.discard a sc) s = .next (trapped s 0 0x11 syl)) ∧
        ((va.toNat < 2 ^ 57 ∧ inScratch va.toNat = true ∨ ∃ acc, InMemory s .load va 1 false false acc) →
          exec (.flush a sc) s = .next (trapped s 0 0x11 syl))) ∧
      let queued := fun (k : SqKind) (acc : Access) => here.modMe fun x =>
        { x with sq := x.sq ++ [{ kind := k, pa := acc.pa / 64 * 64, size := 0, val := 0, uncached := false, key := acc.key }] }
      (va.toNat < 2 ^ 57 → inScratch va.toNat = true → s.me.spec = false →
        exec (.discard a sc) s = .next here ∧ exec (.flush a sc) s = .next here) ∧
      (∀ acc, InMemory s .store va 1 false false acc → s.me.spec = false → s.me.sq.length < 12 →
        exec (.discard a sc) s = .next (queued (.discard sc) acc)) ∧
      (∀ acc, InMemory s .load va 1 false false acc → s.me.spec = false → s.me.sq.length < 12 →
        exec (.flush a sc) s = .next (queued (.flush sc) acc)) ∧
      let vp := va + extS s imm * 64
      (vp.toNat < 2 ^ 57 → inScratch vp.toNat = true → exec (.pref a imm) s = .next here) ∧
      (∀ acc, InMemory s .load vp 1 false false acc → acc.uncached = false →
        exec (.pref a imm) s = .next (here.l1Touch s.myCore acc.key s.myPart (acc.pa / 64) (BitVec.allOnes 64))))

/-- R107, R257, R258: the atomics and CAS. After the release of the scope the bytes become what the operation makes of the old
bytes and gb, the acquire follows, and gd takes the old bytes, zero-extended for MINU and MAXU and sign-extended for the others.
In the scratchpad the bytes are the core's; in memory they are changed where the scope says (R133). CAS stores gb where the old
bytes equal those of gd. -/
def Obligations.Atomics : Prop :=
  ∀ (s : State) (z : Width) (sc : Scope) (d a b : Reg), Ready s a → Ready s b → Clear s d 0 → s.me.loads < 12 →
    s.me.sq.length < 12 →
    let here : State := { s with mark := .ok }
    let va := s.me.reg a
    let n := Width.size z
    let m := 2 ^ (8 * n)
    let y := (s.me.reg b).toNat % m
    let off := scratchOff va.toNat
    let rel := here.release s.cur sc
    let int := fun (x : Nat) => (BitVec.ofNat (8 * n) x).toInt
    let does := fun (i : Instr) (zero : Bool) (f : Nat → Nat) =>
      let ext := fun (old : Nat) => if zero then BitVec.ofNat 64 old else (BitVec.ofNat (8 * n) old).signExtend 64
      (InScratchpad s va n true true →
        let old := (rel.core s.myCore).sp.nat off n
        exec i s = .next (writtenLater ((rel.modCore s.myCore fun x =>
          { x with sp := x.sp.putNat off n (f old % m) }).acquire s.cur sc) d (ext old) false true)) ∧
      (∀ acc, InMemory s .store va n true true acc → s.me.spec = false → rel.groupAt acc.pa = none →
        ∃ g : Nat → Nat, (∀ x < m, g x = f x % m) ∧
          ∃ old q, atomicMem acc n sc g rel = .ok old q ∧
            exec i s = .next (writtenLater (q.acquire q.cur sc) d (ext old) false true))
    does (.amoAdd z sc d a b) false (fun x => x + y) ∧
    does (.amoMin z sc d a b) false (fun x => if int x ≤ int y then x else y) ∧
    does (.amoMax z sc d a b) false (fun x => if int x ≤ int y then y else x) ∧
    does (.amoMinu z sc d a b) true (fun x => min x y) ∧
    does (.amoMaxu z sc d a b) true (fun x => max x y) ∧
    does (.amoAnd z sc d a b) false (fun x => x &&& y) ∧
    does (.amoOr z sc d a b) false (fun x => x ||| y) ∧
    does (.amoXor z sc d a b) false (fun x => x ^^^ y) ∧
    does (.amoSwap z sc d a b) false (fun _ => y) ∧
    (Ready s d → does (.cas z sc d a b) false (fun x => if x = (s.me.reg d).toNat % m then y else x))

/-- Loads from the scratchpad, through the caches and of constants. -/
def Obligations.Loads : Prop :=
  Claims.ScratchpadLoads ∧ Claims.CachedLoads ∧ Claims.LoadConstant

/-- Acquire, release and cache control. -/
def Obligations.OrderingAndCaches : Prop :=
  Claims.AcquireRelease ∧ Claims.CacheControl

/-! Vector syllables. `Passes` says that the operands pass every check; `vresult` is the state with the sources popped and the
elements written, `none` for an element that is off. The statements after these say what operands supply and what is written. -/

/-- R296, R302, R303, R309, Tables 10-1 and 11-2: the element-wise forms with two sources. Each computes its operation where the
mask is on, with the latency of the form. -/
def Claims.VectorTwoSources : Prop :=
  ∀ (s : State) (f : Fmt) (d x y : VOp),
    let does := fun (i : Instr) (g : Fmt) (lat : Nat) (op : Nat → Nat → Nat) =>
      let n := elemCount s g [d, x, y]
      let on := maskBits s n
      Passes s (some (opd d g)) (on.any (!·)) [opd x g, opd y g] true (some lat) none →
        exec i s = .next (vresult s [x, y] d g (some lat) (merged on
          (((velems s x g n 0).zip (velems s y g n (if x = y then 1 else 0))).map fun e => op e.1 e.2)))
    does (.vadd f d x y) f 4 (addE f) ∧ does (.vsub f d x y) f 4 (subE f) ∧ does (.vmul f d x y) f 6 (mulE f) ∧
    does (.vmax f d x y) f 4 (maxE f) ∧ does (.vmin f d x y) f 4 (minE f) ∧ does (.vadds f d x y) f 4 (addsE f) ∧
    does (.vand f d x y) f 4 (· &&& ·) ∧ does (.vor f d x y) f 4 (· ||| ·) ∧ does (.vxor f d x y) f 4 (· ^^^ ·) ∧
    does (.vshl f d x y) f 4 (shlE f) ∧ does (.vshr f d x y) f 4 (shrE f) ∧
    does (.vrcpstep d x y) .f32 6 (stepF32 false) ∧ does (.vrsqstep d x y) .f32 6 (stepF32 true)

/-- R302: VFMA and VFMS read their destination as a third source and round once. -/
def Claims.VectorMultiplyAdd : Prop :=
  ∀ (s : State) (f : Fmt) (d x y : VOp),
    let n := elemCount s f [d, x, y]
    let on := maskBits s n
    let args := (velems s d f n 0).zip ((velems s x f n 0).zip (velems s y f n (if x = y then 1 else 0)))
    Passes s (some (opd d f)) (on.any (!·)) [opd x f, opd y f, opd d f] true (some 6) none →
      exec (.vfma f d x y) s = .next (vresult s [x, y] d f (some 6) (merged on (args.map fun e => fmaE f false e.1 e.2.1 e.2.2))) ∧
      exec (.vfms f d x y) s = .next (vresult s [x, y] d f (some 6) (merged on (args.map fun e => fmaE f true e.1 e.2.1 e.2.2)))

/-- R304, R309: the forms with one source. VMOV of an F4B row moves its 40 bytes whole. -/
def Claims.VectorOneSource : Prop :=
  ∀ (s : State) (f : Fmt) (d x : VOp),
    let does := fun (i : Instr) (g : Fmt) (lat : Nat) (op : Nat → Nat) =>
      let n := elemCount s g [d, x]
      let on := maskBits s n
      Passes s (some (opd d g)) (on.any (!·)) [opd x g] true (some lat) none →
        exec i s = .next (vresult s [x] d g (some lat) (merged on ((velems s x g n 0).map op)))
    does (.vabs f d x) f 4 (absE f) ∧ does (.vneg f d x) f 4 (negE f) ∧
    does (.vclamp f d x) f 4 (fun v =>
      minE f (maxE f v (s.me.alo.toNat % 2 ^ f.bits)) (s.me.ahi.toNat % 2 ^ f.bits)) ∧
    does (.vscale f d x) f 6 (scaleE f (s.me.alo.setWidth 16).toInt) ∧
    does (.vexp2 d x) .f32 10 exp2F32 ∧ does (.vlog2 d x) .f32 10 log2F32 ∧
    does (.vrcpA d x) .f32 6 rcpApprox ∧ does (.vrsqA d x) .f32 6 rsqApprox ∧
    (f ≠ .f4b → does (.vmov f d x) f 4 id) ∧
    (Passes s (some (opd d .f4b)) false [opd x .f4b] false (some 4) none →
      exec (.vmov .f4b d x) s = .next (vresultRow s [x] d .f4b (some 4) (f4bRow (vdata s x 0))))

/-- R53, R54, R305, R306: conversions, and R310: rotation by pairs; R311: compares write their mask whole, a bit for every
element that is on and satisfies the comparison. -/
def Claims.VectorConvertRotateCompare : Prop :=
  ∀ (s : State) (f src : Fmt) (d x y : VOp) (m : Fin 4),
    let n := min (countOf s d f) (countOf s x src)
    let on := maskBits s n
    let dst : Opd := { op := d, fmt := f, is32 := f.is32 && src.is32 }
    let from' : Opd := { op := x, fmt := src, is32 := f.is32 && src.is32 }
    (f ≠ .f4b → src ≠ .f4b → Passes s (some dst) (on.any (!·)) [from'] true (some 6) none →
      exec (.vcvt f d x src) s = .next (vresult s [x] d f (some 6)
        (merged on (((velems s x src n 0).map (cvtElem f src false)).take n))) ∧
      exec (.vcvtSat f d x src) s = .next (vresult s [x] d f (some 6)
        (merged on (((velems s x src n 0).map (cvtElem f src true)).take n)))) ∧
    (f ≠ .f4b → Passes s (some { dst with is32 := f.is32 && Fmt.is32 .f4b }) ((maskBits s (min (countOf s d f)
        (countOf s x .f4b))).any (!·)) [{ from' with fmt := .f4b, is32 := f.is32 && Fmt.is32 .f4b }] true (some 6) none →
      let n := min (countOf s d f) (countOf s x .f4b)
      let out := fun (sat : Bool) => vresult s [x] d f (some 6) (merged (maskBits s n)
        (((f4bValues (vdata s x 0)).map fun v => if f.isInt then f.ofFloat v else f.float.roundTo sat v).take n))
      exec (.vcvt f d x .f4b) s = .next (out false) ∧ exec (.vcvtSat f d x .f4b) s = .next (out true)) ∧
    (Passes s (some { dst with fmt := .f4b, is32 := Fmt.is32 .f4b && src.is32 }) false
        [{ from' with is32 := Fmt.is32 .f4b && src.is32 }] false (some 6) none →
      let row := f4bPack (bf16.value (s.me.alo.toNat % 65536)) ((velems s x src 64 0).map src.value)
      exec (.vcvt .f4b d x src) s = .next (vresultRow s [x] d .f4b (some 6) row) ∧
      exec (.vcvtSat .f4b d x src) s = .next (vresultRow s [x] d .f4b (some 6) row)) ∧
    (∀ g : Fmt, g = .f32 ∨ g = .bf16 →
      let n := elemCount s g [d, x, y]
      let on := maskBits s n
      let odd := if n % 2 = 1 then ([d, x, y].find? isView).map codeWord else none
      Passes s (some (opd d g)) (on.any (!·)) [opd x g, opd y g] true (some 6) odd →
        exec (if g = .f32 then .vrotF32 d x y else .vrotBf16 d x y) s = .next (vresult s [x, y] d g (some 6)
          (merged on (rotPairs g (velems s x g n 0) (velems s y g n (if x = y then 1 else 0)))))) ∧
    (let n := elemCount s f [x, y]
     let on := maskBits s n
     let does := fun (i : Instr) (op : Nat → Nat → Bool) =>
       Passes s none false [opd x f, opd y f] true (some 4) none →
         ∃ bits : BitVec 256, exec i s = .next (inFlight (after (popAll [x, y]) { s with mark := .ok }) (.mask m bits) (some 4)
           true false false) ∧
           ∀ e < 256, bits.getLsbD e = (decide (e < n) && (on.getD e false &&
             op ((velems s x f n 0).getD e 0) ((velems s y f n (if x = y then 1 else 0)).getD e 0)))
     does (.vcmpEq f m x y) (eqE f) ∧ does (.vcmpLt f m x y) (ltE f) ∧ does (.vcmpLe f m x y) (leE f))

/-- R51, R302, R303: the operations on integer elements of b bits: sums, differences and products modulo 2^b, the larger and the
smaller by the format's sign, the saturating sum, the shifts, and the comparisons of R311. -/
def Claims.IntegerElements : Prop :=
  ∀ (f : Fmt) (x y : Nat), f.isInt = true → x < 2 ^ f.bits → y < 2 ^ f.bits →
    let val := fun (v : Nat) => if f.isSigned then (BitVec.ofNat f.bits v).toInt else (v : Int)
    let least : Int := if f.isSigned then -2 ^ (f.bits - 1) else 0
    let most : Int := if f.isSigned then 2 ^ (f.bits - 1) - 1 else 2 ^ f.bits - 1
    addE f x y = (x + y) % 2 ^ f.bits ∧
    subE f x y = (x + 2 ^ f.bits - y) % 2 ^ f.bits ∧
    mulE f x y = x * y % 2 ^ f.bits ∧
    (∀ d < 2 ^ f.bits, fmaE f false d x y = (d + x * y) % 2 ^ f.bits) ∧
    maxE f x y = (if val x ≤ val y then y else x) ∧
    minE f x y = (if val x ≤ val y then x else y) ∧
    (addsE f x y < 2 ^ f.bits ∧ val (addsE f x y) = max least (min most (val x + val y))) ∧
    (shlE f x y = if y < f.bits then x * 2 ^ y % 2 ^ f.bits else 0) ∧
    (f.isSigned = false → shrE f x y = x / 2 ^ y) ∧
    (f.isSigned = true → val (shrE f x y) = val x / 2 ^ y) ∧
    eqE f x y = decide (x = y) ∧ ltE f x y = decide (val x < val y) ∧ leE f x y = decide (val x ≤ val y)

/-! Floating-point codes as rational numbers, read from their fields (R45 to R47). -/

/-- The fraction bits of a floating format. -/
def fracBits : Fmt → Nat
  | .bf16 => 7 | .f8a => 3 | .f8b => 2 | _ => 23
/-- Its exponent bias. -/
def expBias : Fmt → Nat
  | .f8a => 7 | .f8b => 15 | _ => 127
/-- The code of its largest finite number. -/
def topFinite : Fmt → Nat
  | .bf16 => 0x7F7F | .f8a => 0x7E | .f8b => 0x7B | _ => 0x7F7FFFFF
/-- The code of its default NaN. -/
def defaultNaN : Fmt → Nat
  | .bf16 => 0x7FC0 | .f8a => 0x7F | .f8b => 0x7E | _ => 0x7FC00000
/-- The sign of a code, and the code without it. -/
def negCode (f : Fmt) (c : Nat) : Prop := c.testBit (f.bits - 1) = true
def magCode (f : Fmt) (c : Nat) : Nat := c % 2 ^ (f.bits - 1)
/-- A code of a finite number, of an infinity, which F8A has not, and of a NaN. -/
def finCode (f : Fmt) (c : Nat) : Prop := magCode f c ≤ topFinite f
def infCode' (f : Fmt) (c : Nat) : Prop := f ≠ .f8a ∧ magCode f c = topFinite f + 1
def nanCode' (f : Fmt) (c : Nat) : Prop := ¬finCode f c ∧ ¬infCode' f c
/-- The number of a finite code. -/
def codeNum (f : Fmt) (c : Nat) : ℚ :=
  let e := magCode f c / 2 ^ fracBits f
  let m : ℚ := ((magCode f c % 2 ^ fracBits f : Nat) : ℚ) / 2 ^ fracBits f
  (if c.testBit (f.bits - 1) then -1 else 1) *
    (if e = 0 then (2 : ℚ) ^ (1 - (expBias f : ℤ)) * m else (2 : ℚ) ^ ((e : ℤ) - expBias f) * (1 + m))
/-- `c` is what a number that is not zero rounds to (R52): the nearest finite code, on a tie the one with an even fraction, with the
number's sign; beyond the largest finite number by half a spacing, or by more for F8A, whose largest fraction is even, the overflow. -/
def Rounds (f : Fmt) (sat : Bool) (r : ℚ) (c : Nat) : Prop :=
  let top := codeNum f (topFinite f)
  let edge := top + (top - codeNum f (topFinite f - 1)) / 2
  let sign := if r < 0 then 2 ^ (f.bits - 1) else 0
  let passes := if f = .f8a then edge < |r| else edge ≤ |r|
  (passes → c = if sat then sign + topFinite f else if f = .f8a then defaultNaN f else sign + topFinite f + 1) ∧
  (¬passes → finCode f c ∧ c < 2 ^ f.bits ∧ (negCode f c ↔ r < 0) ∧
    ∀ w, finCode f w → |codeNum f c - r| ≤ |codeNum f w - r| ∧
      (codeNum f w ≠ codeNum f c → |codeNum f c - r| = |codeNum f w - r| → c % 2 = 0))

/-- R45 to R47, R52, R53, R55, R304, R311: the operations on floating-point elements. Sums, differences, products, multiply-adds and
scalings of finite numbers are the exact result rounded once; a zero result has the sign of IEEE 754. A NaN operand gives the default
NaN, and so do ∞ − ∞ and ∞ × 0; other infinities keep their sign. The larger and the smaller order −0 below +0; the comparisons hold of no
NaN. Conversions round the source's number, and a finite number to an integer format gives the nearest integer, on a tie the even one,
inside the format's range. -/
def Obligations.FloatElements : Prop :=
  ∀ (f : Fmt) (d x y : Nat), f.isFloat = true → d < 2 ^ f.bits → x < 2 ^ f.bits → y < 2 ^ f.bits →
    let num := codeNum f
    let neg := fun (c : Nat) => c.testBit (f.bits - 1)
    let zero := fun (n : Bool) => if n then 2 ^ (f.bits - 1) else 0
    let gives := fun (r : ℚ) (n : Bool) (c : Nat) => (r ≠ 0 → Rounds f false r c) ∧ (r = 0 → c = zero n)
    let inf := fun (n : Bool) => zero n + topFinite f + 1
    let nan := defaultNaN f
    (finCode f x → finCode f y →
      gives (num x + num y) (neg x && neg y) (addE f x y) ∧
      gives (num x - num y) (neg x && !neg y) (subE f x y) ∧
      gives (num x * num y) (neg x != neg y) (mulE f x y) ∧
      (finCode f d → gives (num d + num x * num y) (neg d && (neg x != neg y)) (fmaE f false d x y) ∧
        gives (num d - num x * num y) (neg d && (neg x == neg y)) (fmaE f true d x y)) ∧
      maxE f x y = (if num x < num y ∨ num x = num y ∧ neg x = true ∧ neg y = false then y else x) ∧
      minE f x y = (if num y < num x ∨ num x = num y ∧ neg y = true ∧ neg x = false then y else x) ∧
      eqE f x y = decide (num x = num y) ∧ ltE f x y = decide (num x < num y) ∧ leE f x y = decide (num x ≤ num y)) ∧
    (finCode f x → ∀ k : ℤ, gives (num x * 2 ^ k) (neg x) (scaleE f k x)) ∧
    (nanCode' f x ∨ nanCode' f y → addE f x y = nan ∧ subE f x y = nan ∧ mulE f x y = nan ∧ maxE f x y = nan ∧ minE f x y = nan ∧
      fmaE f false d x y = nan ∧ fmaE f true d x y = nan ∧ eqE f x y = false ∧ ltE f x y = false ∧ leE f x y = false) ∧
    (nanCode' f d → fmaE f false d x y = nan ∧ fmaE f true d x y = nan) ∧
    (nanCode' f x → absE f x = nan ∧ negE f x = nan) ∧
    (¬nanCode' f x → absE f x = magCode f x ∧ negE f x = magCode f x + zero (!neg x)) ∧
    (infCode' f x → finCode f y → addE f x y = x ∧ addE f y x = x ∧ subE f x y = x ∧ subE f y x = inf (!neg x) ∧
      mulE f x y = (if num y = 0 then nan else inf (neg x != neg y)) ∧ mulE f y x = (if num y = 0 then nan else inf (neg x != neg y))) ∧
    (infCode' f x → infCode' f y → addE f x y = (if neg x = neg y then x else nan) ∧
      subE f x y = (if neg x = neg y then nan else x) ∧ mulE f x y = inf (neg x != neg y)) ∧
    (∀ (g : Fmt) (sat : Bool), g.isFloat = true →
      (finCode f x → (num x ≠ 0 → Rounds g sat (num x) (cvtElem g f sat x)) ∧
        (num x = 0 → cvtElem g f sat x = if neg x then 2 ^ (g.bits - 1) else 0)) ∧
      (nanCode' f x → cvtElem g f sat x = defaultNaN g)) ∧
    (∀ (g : Fmt) (sat : Bool), g.isInt = true →
      let v := fun (c : Nat) => if g.isSigned then (BitVec.ofNat g.bits c).toInt else (c : ℤ)
      let least : ℤ := if g.isSigned then -2 ^ (g.bits - 1) else 0
      let most : ℤ := if g.isSigned then 2 ^ (g.bits - 1) - 1 else 2 ^ g.bits - 1
      (nanCode' f x → cvtElem g f sat x = 0) ∧
      (finCode f x → ∃ n : ℤ, (∀ k : ℤ, |(n : ℚ) - num x| ≤ |(k : ℚ) - num x| ∧
          (k ≠ n → |(n : ℚ) - num x| = |(k : ℚ) - num x| → n % 2 = 0)) ∧
        cvtElem g f sat x < 2 ^ g.bits ∧ v (cvtElem g f sat x) = max least (min most n))) ∧
    ∀ (g : Fmt) (sat : Bool) (z : Nat), g.isInt = true → z < 2 ^ g.bits →
      let v : ℤ := if g.isSigned then (BitVec.ofNat g.bits z).toInt else (z : ℤ)
      (v ≠ 0 → Rounds f sat (v : ℚ) (cvtElem f g sat z)) ∧ (v = 0 → cvtElem f g sat z = 0)

/-- R76, R81, R155, R291, R292: what the operands supply. A row gives its elements; a column gives container c of each row of
the window, a diagonal container (i + d) mod 64 of row i; a queue the elements of its oldest entry; a.lo and a.hi are broadcast;
and the mask gives its low bits. -/
def Claims.OperandElements : Prop :=
  ∀ (s : State) (f : Fmt) (n i : Nat), i < n →
    (∀ r : Fin 64, (velems s (.row r) f n 0)[i]? = some ((s.winRow r.val).data.toNat / 2 ^ (f.bits * i) % 2 ^ f.bits)) ∧
    (∀ c : Fin 64, (velems s (.col c) f n 0)[i]? = some ((s.winRow i).data.toNat / 2 ^ (32 * c.val) % 2 ^ 32)) ∧
    (∀ c : Fin 64, (velems s (.dg c) f n 0)[i]? = some ((s.winRow i).data.toNat / 2 ^ (32 * ((i + c.val) % 64)) % 2 ^ 32)) ∧
    (∀ (q : Fin 4) e rest, s.me.qin[q] = e :: rest →
      (velems s (.qin q) f n 0)[i]? = some (e.data.toNat / 2 ^ (f.bits * i) % 2 ^ f.bits)) ∧
    (velems s .alo f n 0)[i]? = some (s.me.alo.toNat % 2 ^ f.bits) ∧
    (velems s .ahi f n 0)[i]? = some (s.me.ahi.toNat % 2 ^ f.bits) ∧
    (velems s .vzero f n 0)[i]? = some 0 ∧ (velems s .vones f n 0)[i]? = some (oneOf f) ∧
    (maskBits s n)[i]? = some (s.me.k[s.me.sel].getLsbD i)

/-- R76, R78, R156, R294, R295: what a vector syllable writes. To a row: the elements that are on, the format's tag, and zero beyond
the elements; an element that is off keeps its bytes. To a column or a diagonal: element i, where it is on, into its container of window
row i, with the format's tag, and nothing else of the row. To an output queue: an entry with zeros for the elements that are off. To
the discard: nothing. Other rows, the registers and memory stay. -/
def Claims.VectorWrites : Prop :=
  ∀ (s : State) (f : Fmt) (lat : Option Nat) (rs : List (Option Nat)), 0 < f.bits → f.bits * rs.length ≤ 2048 →
    let t := fun (d : VOp) => vresult s [] d f lat rs
    (∀ r : Fin 64, ∃ w : RowWrite, t (.row r) = inFlight { s with mark := .ok } (.rows [w]) lat true false false ∧
      w.row = s.winKey r.val ∧ w.tag = f.code ∧
      ∀ b < 2048,
        (∀ v, rs[b / f.bits]? = some (some v) → w.mask.getLsbD b = true ∧ w.data.getLsbD b = v.testBit (b % f.bits)) ∧
        (rs[b / f.bits]? = some none → w.mask.getLsbD b = false) ∧
        (rs[b / f.bits]? = none → w.mask.getLsbD b = true ∧ w.data.getLsbD b = false)) ∧
    (∀ (c : Fin 64) (d : VOp), d = .col c ∨ d = .dg c → ∃ ws : List RowWrite,
      t d = inFlight { s with mark := .ok } (.rows ws) lat true false false ∧
      let at' := fun (i : Nat) => if d = .col c then c.val else (i + c.val) % 64
      let puts := fun (w : RowWrite) (i v : Nat) => w.row = s.winKey i ∧ w.tag = f.code ∧
        ∀ b < 2048, w.mask.getLsbD b = decide (32 * at' i ≤ b ∧ b < 32 * at' i + 32) ∧
          (32 * at' i ≤ b → b < 32 * at' i + 32 → w.data.getLsbD b = v.testBit (b - 32 * at' i))
      (∀ i v, rs[i]? = some (some v) → ∃ w ∈ ws, puts w i v) ∧ ∀ w ∈ ws, ∃ i v, rs[i]? = some (some v) ∧ puts w i v) ∧
    (∀ q : Fin 4, ∃ e : QEntry, (t (.qout q)).me.qout[q] = s.me.qout[q] ++ [e] ∧ e.tag = f.code ∧
      (∀ i, i < rs.length → e.data.toNat / 2 ^ (f.bits * i) % 2 ^ f.bits = ((rs.getD i none).getD 0) % 2 ^ f.bits) ∧
      (t (.qout q)).rows = s.rows ∧ (t (.qout q)).mem = s.mem) ∧
    t .vdisc = inFlight { s with mark := .ok } .nothing lat true false false

/-- R77, R78, R291, R300: a row outside the window is SHAPE with the operand's code, a source as well as a destination, of the fields D,
X and Y the first; a source inside it that is invalid or of another format is TAG with the physical row's number. That TAG comes before
SHAPE, and of two sources X's first, is the model's choice (log 21). Nothing else changes before the trap. -/
def Claims.OperandTraps : Prop :=
  ∀ (s : State) (f : Fmt) (d x y : Fin 64), f ≠ .f4b →
    (∀ w ∈ s.me.wq, w.due = none → w.eff.writesRow (s.winKey x.val) = false ∧ w.eff.writesRow (s.winKey y.val) = false ∧
      w.eff.writesRow (s.winKey d.val) = false) →
    let bad := fun (r : Fin 64) => (s.winRow r.val).valid = false ∨ (s.winRow r.val).tag ≠ f.code
    (x.val < s.me.tabCount → bad x →
      exec (.vadd f (.row d) (.row x) (.row y)) s = .next (trapped s 2 0x04 (BitVec.ofNat 64 (s.me.tabBase + x.val))) ∧
      exec (.vsel f (.row d) (.row x) (.row y)) s = .next (trapped s 3 0x04 (BitVec.ofNat 64 (s.me.tabBase + x.val)))) ∧
    (x.val < s.me.tabCount → ¬bad x → y.val < s.me.tabCount → bad y →
      exec (.vadd f (.row d) (.row x) (.row y)) s = .next (trapped s 2 0x04 (BitVec.ofNat 64 (s.me.tabBase + y.val)))) ∧
    (s.me.tabCount ≤ x.val → d.val < s.me.tabCount → (y.val < s.me.tabCount → ¬bad y) → s.me.k[s.me.sel] = BitVec.allOnes 256 →
      exec (.vadd f (.row d) (.row x) (.row y)) s = .next (trapped s 2 0x05 (codeWord (.row x))) ∧
      exec (.vmov f (.row d) (.row x)) s = .next (trapped s 2 0x05 (codeWord (.row x)))) ∧
    (s.me.tabCount ≤ y.val → d.val < s.me.tabCount → x.val < s.me.tabCount → ¬bad x → s.me.k[s.me.sel] = BitVec.allOnes 256 →
      exec (.vadd f (.row d) (.row x) (.row y)) s = .next (trapped s 2 0x05 (codeWord (.row y)))) ∧
    (s.me.tabCount ≤ d.val → s.me.k[s.me.sel] = BitVec.allOnes 256 → (x.val < s.me.tabCount → ¬bad x) → (y.val < s.me.tabCount →
      ¬bad y) → exec (.vadd f (.row d) (.row x) (.row y)) s = .next (trapped s 2 0x05 (codeWord (.row d))))

/-- The vector arithmetic syllables. -/
def Obligations.VectorArithmetic : Prop :=
  Claims.VectorTwoSources ∧ Claims.VectorMultiplyAdd ∧ Claims.VectorOneSource ∧ Claims.VectorConvertRotateCompare

/-- What the elements of a result are, for integer formats and for each kind of operand. -/
def Obligations.VectorElements : Prop :=
  Claims.IntegerElements ∧ Claims.OperandElements

/-- What a vector syllable writes, and the checks of its operands. -/
def Obligations.VectorOperands : Prop :=
  Claims.VectorWrites ∧ Claims.OperandTraps

/-- R312 to R316: VMASK selects a mask; VSHUF takes the elements of X in the order that Y gives, and zero beyond; VSEL takes X
where the mask is on and Y where it is off; VIDX counts from a.lo; VBCAST repeats element a.lo[7:0]. -/
def Claims.VectorMoves : Prop :=
  ∀ (s : State) (f : Fmt) (d x y : VOp) (m : Fin 4),
    let here : State := { s with mark := .ok }
    let n := elemCount s f [d, x, y]
    let on := maskBits s n
    let ys := velems s y f n (if x = y then 1 else 0)
    let raw := fun (o : VOp) => { opd o f with raw := match o with | .row _ | .col _ | .dg _ => true | _ => false }
    exec (.vmask m) s = .next (here.modMe fun c => { c with sel := m }) ∧
    (Passes s (some (opd d f)) (on.any (!·)) [raw x, raw y] true (some 4) none →
      exec (.vshuf f d x y) s = .next (vresult s [x, y] d f (some 4) (merged on (ys.map fun j => (velems s x f n 0).getD j 0)))) ∧
    (Passes s (some (opd d f)) false [opd x f, opd y f] true (some 4) none →
      exec (.vsel f d x y) s = .next (vresult s [x, y] d f (some 4)
        ((on.zip ((velems s x f n 0).zip ys)).map fun e => some (if e.1 then e.2.1 else e.2.2)))) ∧
    (let n := elemCount s f [d]
     Passes s (some (opd d f)) ((maskBits s n).any (!·)) [] true (some 4) none →
       exec (.vidx f d) s = .next (vresult s [] d f (some 4) (merged (maskBits s n)
         ((List.range n).map fun i => (s.me.alo.toNat + i) % 2 ^ f.bits)))) ∧
    (let n := elemCount s f [d, x]
     let nx := countOf s x f
     let j := s.me.alo.toNat % 256
     Passes s (some (opd d f)) ((maskBits s n).any (!·)) [opd x f] true (some 4) (if nx ≤ j then some 0xD0 else none) →
       exec (.vbcast f d x) s = .next (vresult s [x] d f (some 4) (merged (maskBits s n)
         (List.replicate n ((velems s x f nx 0).getD j 0)))))

/-- R56, R317 to R320: reductions, VARGMAX and VFIND write their one result to every element of D, with the latency of the
operand's count; floating sums, maxima and minima go by the tree of R56 over FP32 values, with the identity for elements that
are off; VSCAN.SUM adds from left to right. -/
def Claims.VectorReductions : Prop :=
  ∀ (s : State) (f : Fmt) (d x y : VOp),
    let n := elemCount s f [x]
    let on := maskBits s n
    let xs := velems s x f n 0
    let to32 := (on.zip xs).map fun p => if p.1 then some (toF32 f p.2) else none
    let all := fun (g : Fmt) (n : Nat) (srcs : List VOp) (v : Nat) =>
      vresult s srcs d g (some (4 + 2 * ceilLog2 n)) (List.replicate (countOf s d g) (some v))
    (f.isFloat = true → Passes s (some (opd d .f32)) false [opd x f] true (some (4 + 2 * ceilLog2 n)) none →
      exec (.vredSum f d x) s = .next (all .f32 n [x] (f32Canon (tree f32Add 0x80000000 (to32.map (·.getD 0x80000000))))) ∧
      exec (.vredMax f d x) s = .next (all .f32 n [x] (f32Canon (tree f32Max 0xFF800000 (to32.map (·.getD 0xFF800000))))) ∧
      exec (.vredMin f d x) s = .next (all .f32 n [x] (f32Canon (tree f32Min 0x7F800000 (to32.map (·.getD 0x7F800000)))))) ∧
    (f.isInt = true → Passes s (some (opd d (redFmt f))) false [opd x f] true (some (4 + 2 * ceilLog2 n)) none →
      let ints := ((on.zip xs).filter (·.1)).map fun p => f.intOf p.2
      exec (.vredSum f d x) s = .next (all (redFmt f) n [x] ((ints.foldl (· + ·) 0) % 2 ^ 32).toNat) ∧
      exec (.vredMax f d x) s = .next (all (redFmt f) n [x] ((ints.foldl max (leastOf f)) % 2 ^ 32).toNat) ∧
      exec (.vredMin f d x) s = .next (all (redFmt f) n [x] ((ints.foldl min (greatestOf f)) % 2 ^ 32).toNat)) ∧
    (Passes s (some (opd d .i32u)) false [opd x f] true (some (4 + 2 * ceilLog2 n)) none →
      exec (.vargmax f d x) s = .next (all .i32u n [x] (argmaxOf f on xs))) ∧
    (let n := elemCount s f [x, y]
     Passes s (some (opd d .i32u)) false [opd x f, opd y f] true (some (4 + 2 * ceilLog2 n)) none →
       exec (.vfind f d x y) s = .next (all .i32u n [x, y] (findOf f (maskBits s n) (velems s x f n 0)
         (velems s y f n (if x = y then 1 else 0))))) ∧
    (let n := elemCount s f [d, x]
     let lat := ceilDiv n 16 + 4
     f.is32 = true → Passes s (some (opd d f)) false [opd x f] true (some lat) none →
       let off := if f = .f32 then 0x80000000 else 0
       let xs := ((maskBits s n).zip (velems s x f n 0)).map fun e => if e.1 then e.2 else off
       exec (.vscanSum f d x) s = .next (vresult s [x] d f (some lat)
         ((if f = .f32 then scanF32 xs else scanFrom (fun a b => (a + b) % 2 ^ 32) 0 xs).map some)))

/-- R318, R319: VARGMAX answers an index that is on and whose element no other element on exceeds, the lowest such, and all ones
where no element on is a number; VFIND the first index that is on and equal. Told for integer formats. -/
def Claims.VectorSearch : Prop :=
  ∀ (f : Fmt) (on : List Bool) (xs ys : List Nat), f.isInt = true → on.length = xs.length → xs.length = ys.length →
    let val := fun (l : List Nat) (i : Nat) => f.intOf (l.getD i 0)
    let live := fun (i : Nat) => i < xs.length ∧ on.getD i false = true
    ((∀ i, ¬live i) → argmaxOf f on xs = 0xFFFFFFFF) ∧
    ((∃ i, live i) → live (argmaxOf f on xs) ∧ (∀ j, live j → val xs j ≤ val xs (argmaxOf f on xs)) ∧
      ∀ j, live j → j < argmaxOf f on xs → val xs j < val xs (argmaxOf f on xs)) ∧
    ((∀ i, live i → val xs i ≠ val ys i) → findOf f on xs ys = 0xFFFFFFFF) ∧
    ((∃ i, live i ∧ val xs i = val ys i) → live (findOf f on xs ys) ∧ val xs (findOf f on xs ys) = val ys (findOf f on xs ys) ∧
      ∀ j, live j → j < findOf f on xs ys → val xs j ≠ val ys j)

/-- R307, R308, R321: VPACK and VUNPACK between the pairs of formats that a.lo names, and VTOPK: the indices of the k largest
elements that are on, in order, offset by a.hi[31:0], and all ones after them. -/
def Claims.VectorPackAndRank : Prop :=
  ∀ (s : State) (f sf : Fmt) (d x y : VOp), Fmt.ofCode (s.me.alo.setWidth 4) = some sf →
    let p := bitsOf s.me.alo.toNat 5 4
    let sat := s.me.alo.getLsbD 6
    let ns := sf.perRow
    let nd := f.perRow
    let src := fun (o : VOp) => ({ op := o, fmt := sf, is32 := false } : Opd)
    let dst : Opd := { op := d, fmt := f, is32 := false }
    (packPair f sf = true → (p + 1) * (2 * ns) ≤ nd →
      let base := p * 2 * ns
      let on := (maskBits s nd).zipIdx.map fun e => e.1 && decide (base ≤ e.2) && decide (e.2 < base + 2 * ns)
      let both := velems s x sf ns 0 ++ velems s y sf ns (if x = y then 1 else 0)
      Passes s (some dst) (on.any (!·)) [src x, src y] true (some 4) none →
        exec (.vpack f d x y) s = .next (vresult s [x, y] d f (some 4)
          (merged on ((List.range nd).map fun i => cvtElem f sf sat (both.getD (i - base) 0))))) ∧
    (unpackPair f sf = true → (p + 1) * nd ≤ ns → Passes s (some dst) ((maskBits s nd).any (!·)) [src x] true (some 4) none →
      exec (.vunpack f d x) s = .next (vresult s [x] d f (some 4) (merged (maskBits s nd)
        ((List.range nd).map fun i => cvtElem f sf false ((velems s x sf ns 0).getD (p * nd + i) 0))))) ∧
    (let n := elemCount s .f32 [d, x]
     let k := if s.me.alo.toNat % 128 = 0 ∨ n < s.me.alo.toNat % 128 then n else s.me.alo.toNat % 128
     let best := (rankTop (maskBits s n) (velems s x .f32 n 0)).take k
     Passes s (some (opd d .i32u)) false [opd x .f32] true none none →
       exec (.vtopk d x) s = .next (vresult s [x] d .i32u none ((List.range (countOf s d .i32u)).map fun r => some
         (match best[r]? with
           | some i => (s.me.ahi.toNat % 2 ^ 32 + i) % 2 ^ 32
           | none => 0xFFFFFFFF))))

/-- R67, R68, R322, R323, R179: VRAND in latch mode draws element i with the key in a.lo and the counter a.hi + i; in request
mode one draw for every element, with the request's key and counter, which a unit outside iterations advances by one. A slot
that is not an active request of the partition is PROTECT. -/
def Claims.VectorRandom : Prop :=
  ∀ (s : State) (f : Fmt) (d : VOp),
    let here : State := { s with mark := .ok }
    let n := elemCount s f [d]
    let on := maskBits s n
    let r := s.me.ahi.toNat
    let elem := fun (v : BitVec 32) => if f = .f32 then uniform v else v.toNat
    (Passes s (some (opd d f)) (on.any (!·)) [] true none none →
      exec (.vrandLatch f d) s = .next (vresult s [] d f none
        (merged on ((List.range n).map fun i => elem (draw32 s.me.alo (s.me.ahi + BitVec.ofNat 64 i)))))) ∧
    (Passes s (some (opd d f)) false [] false none none →
      (r < 4096 → s.reqIn s.myPart r = true → s.reqState r = 1 → s.reqRun r = 0 → s.me.spec = false →
        exec (.vrandRequest f d) s = .next (after (vwrite d f none (List.replicate n
          (some (elem (draw32 (BitVec.ofNat 64 (s.reqKey r)) (BitVec.ofNat 64 (s.reqCtr r)))))))
          (here.setReqCtr r (s.reqCtr r + 1)))) ∧
      (r < 4096 → (s.reqIn s.myPart r = false ∨ s.reqState r ≠ 1) →
        exec (.vrandRequest f d) s = .next (trapped s 3 0x0A (BitVec.ofNat 64 r))))

/-- The vector permute syllables that place elements. -/
def Obligations.VectorMovesAndPacks : Prop :=
  Claims.VectorMoves ∧ Claims.VectorPackAndRank

/-- The vector permute syllables that reduce, search and draw. -/
def Obligations.VectorReductionsAndSearches : Prop :=
  Claims.VectorReductions ∧ Claims.VectorSearch ∧ Claims.VectorRandom

/-! Engine words. -/

/-- R235, R236, Table 9-13: the stack words replace the top of the parameter stack, and the stream goes on; a push on eight
entries is subcode 0x02, and a word that wants more entries than there are is subcode 0x03. NOP leaves the stack. -/
def Claims.StackWords : Prop :=
  ∀ (s : State) (n : BitVec 15) (m : BitVec 12), s.curK < 6 →
    let st := s.myStream.stack
    let leaves := fun (i : Instr) (l : List Word) => exec i s = .next (nextWord s l)
    let faults := fun (i : Instr) (sub : Byte) => exec i s = .next (wordFaulted s sub)
    leaves .engineNop st ∧
    (st.length < 8 → leaves (.lit n) (n.setWidth 64 :: st)) ∧ (8 ≤ st.length → faults (.lit n) 0x02) ∧
    (∀ a l, st = a :: l → leaves (.ext m) ((a * 4096 ||| m.setWidth 64) :: l) ∧ leaves .drop l ∧
      (l.length < 7 → leaves .dup (a :: a :: l)) ∧ (7 ≤ l.length → faults .dup 0x02)) ∧
    (st = [] → faults (.ext m) 0x03 ∧ faults .drop 0x03 ∧ faults .dup 0x03) ∧
    (∀ a b l, st = b :: a :: l → leaves .swap (a :: b :: l) ∧ leaves .engineAdd ((a + b) :: l) ∧
      (l.length < 6 → leaves .over (a :: b :: a :: l)) ∧ (6 ≤ l.length → faults .over 0x02)) ∧
    (st.length < 2 → faults .swap 0x03 ∧ faults .engineAdd 0x03 ∧ faults .over 0x03)

/-- R329, R84, R194: SIG by the flag's producer, once every earlier command of the stream has completed, adds a token, up to 255;
WAITT by its consumer takes one, or waits at zero; another stream is subcode 0x07. LOOP with a counter of 0 or 1 pops it, and
with another goes back with one less. END ends the fetch. -/
def Claims.FlowWords : Prop :=
  ∀ (s : State) (f : BitVec 6) (d : BitVec 8), s.curK < 6 →
    let here : State := { s with mark := .ok }
    let st := s.myStream
    let n := (vget 0 s.me.flags f.toNat).toNat
    let counts := fun (m : Nat) => nextWord (here.modMe fun x => { x with flags := vset x.flags f.toNat (BitVec.ofNat 8 m) }) st.stack
    (∀ u e, s.me.running = some u → here.syncOf u.part u.image s.me.forkSet f.toNat = some e →
      (bitsOf e 26 24 = s.curK → st.queue = [] → st.started = [] →
        (n < 255 → exec (.sig f) s = .next (counts (n + 1))) ∧ (n = 255 → exec (.sig f) s = .next (wordFaulted s 0x06))) ∧
      (bitsOf e 26 24 = s.curK → (st.queue ≠ [] ∨ st.started ≠ []) → exec (.sig f) s = .next { s with mark := .stall }) ∧
      (bitsOf e 26 24 ≠ s.curK → exec (.sig f) s = .next (wordFaulted s 0x07)) ∧
      (bitsOf e 34 32 = s.curK →
        (n ≠ 0 → exec (.waitt f) s = .next (counts (n - 1))) ∧ (n = 0 → exec (.waitt f) s = .next { s with mark := .stall })) ∧
      (bitsOf e 34 32 ≠ s.curK → exec (.waitt f) s = .next (wordFaulted s 0x07))) ∧
    (d.toNat ≤ st.pos → ∀ a l, st.stack = a :: l →
      (a.toNat ≤ 1 → exec (.loop d) s = .next (nextWord s l)) ∧
      (1 < a.toNat → exec (.loop d) s = .next (here.modMyStream fun t =>
        { t with stack := (a - 1) :: l, pos := t.pos - d.toNat, fetchAt := t.pos - d.toNat, fetch := [] }))) ∧
    exec .endW s = .next (here.modMyStream fun t => { t with pos := t.pos + 1, fetch := [], ended := true })

/-- R326, R330, Table 12-3: the matrix words on leases, latches and rows enter the matrix queue with operands inside the limits of
their fields. -/
def Claims.MatrixWords : Prop :=
  ∀ (s : State) (a b c e : Word), s.curK = 0 →
    (a.toNat < 256 → Enters s .lease [a] ∧ Enters s .unlease [a]) ∧
    Enters s .wswap [] ∧
    (∀ t : Bool, onlyBits a 0xFFFF07FFFFFF = true → 1 ≤ b.toNat → b.toNat ≤ 5 → opBits a 47 32 < 32768 →
      (b.toNat ≠ 4 → opBits a 47 32 = 0) → opBits a 26 0 % 64 = 0 → opBits a 26 0 + tileBytes b.toNat < 96 * 2 ^ 20 →
      (t = true → b.toNat ≠ 4) → Enters s (.wload t) [a, b]) ∧
    (∀ z : Bool, a.toNat < 8 → 1 ≤ b.toNat → b.toNat ≤ 64 → c.toNat < 2 → e.toNat < 64 → Enters s (.mma z) [a, b, c, e]) ∧
    (onlyBits a 0x13F = true → 1 ≤ b.toNat → b.toNat ≤ 64 → Enters s .aclr [a, b]) ∧
    (∀ h : Bool, 1 ≤ b.toNat → b.toNat ≤ 64 → onlyBits c 0x13F = true →
      (a.toNat < 8 → Enters s (.xout h) [a, b, c]) ∧
      (onlyBits a 0x3F0F = true → a.toNat % 16 = 8 → c.getLsbD 8 = false → Enters s (.xout h) [a, b, c]) ∧
      (a = 9 → b = 1 → h = false → Enters s (.xout h) [a, b, c]))

/-- R326, R330, Table 12-3: the matrix words on checkpoints and requests enter the matrix queue with operands inside the limits
of their fields. -/
def Claims.RequestWords : Prop :=
  ∀ (s : State) (a b c e : Word), s.curK = 0 →
    (isWindow a.toNat = true → a.toNat % 64 = 0 → onlyBits b 0x13F = true → 1 ≤ c.toNat → c.toNat ≤ 64 →
      Enters s .ackpt [a, b, c] ∧ Enters s .acload [a, b, c]) ∧
    (a.toNat < 4096 →
      (onlyBits b 0x7FFFFF = true → 1 ≤ opBits b 22 16 → opBits b 22 16 ≤ 64 → c.toNat < 8 → Enters s .kvapp [a, b, c]) ∧
      (onlyBits b 0xFFFFFFFFFFFF = true → 1 ≤ opBits b 47 40 → opBits b 47 40 ≤ 64 → c.toNat < 8 → onlyBits e 0x13F = true →
        Enters s .qk [a, b, c, e] ∧ Enters s .sv [a, b, c, e]) ∧
      (b.toNat < 2 ^ 32 → c.toNat % 16 = 0 → 1 ≤ e.toNat → e.toNat ≤ 256 → Enters s .splice [a, b, c, e]) ∧
      (onlyBits b 0x13F = true → b.getLsbD 8 = true → 1 ≤ c.toNat → c.toNat ≤ 4032 → Enters s .draw [a, b, c])) ∧
    (onlyBits a 0x770FFF = true → b.toNat ≤ c.toNat → c.toNat < 65536 → Enters s .repair [a, b, c])

/-- R326, R356 to R358, Table 12-7: the copy words enter the copy queue with operands inside the limits of their fields. -/
def Claims.CopyWords : Prop :=
  ∀ (s : State) (a b c e : Word), s.curK = 1 →
    (1 ≤ c.toNat → c.toNat < 2 ^ 32 →
      Enters s .get [a, b, c] ∧ (isWindow a.toNat = true → Enters s .put [a, b, c]) ∧
      (b.toNat < 8 → Enters s .getr [a, b, c]) ∧ (a.toNat < 8 → Enters s .putr [a, b, c])) ∧
    (c.toNat ≠ 0 → Enters s .xfer [a, b, c] ∧ (c.toNat % 8 = 0 → a.toNat % 8 = 0 → Enters s .fill [a, b, c])) ∧
    (1 ≤ c.toNat → c.toNat ≤ 2 ^ 20 → 1 ≤ e.toNat → e.toNat ≤ 65536 →
      Enters s .gather [a, b, c, e] ∧ Enters s .scatter [a, b, c, e]) ∧
    Enters s .publish [a] ∧
    (isWindow a.toNat = true → a.toNat % 4 = 0 → 1 ≤ b.toNat → b.toNat ≤ 65536 → b.toNat % 4 = 0 →
      onlyBits c 0x1FFFF01FFFF0F = true → opBits c 3 0 < 4 → opBits c 48 32 ≤ opBits c 24 8 → onlyBits e 0x7FFF = true →
      Enters s .reduce [a, b, c, e])

/-- R326, R359, Table 12-8: the access words enter the queue of an access stream with operands inside the limits of their
fields. -/
def Claims.AccessWords : Prop :=
  ∀ (s : State) (a b c : Word) (q : Fin 4), 2 ≤ s.curK → s.curK < 6 →
    (opBits a 59 57 = 0 → opBits a 63 60 < 9 → opBits a 56 0 % 64 = 0 → Enters s .aqBase [a]) ∧
    (a.toNat < 4 → 1 ≤ b.toNat → b.toNat ≤ 2 ^ 32 → c.toNat % 64 = 0 → Enters s .aqDim [a, b, c]) ∧
    (1 ≤ a.toNat → a.toNat ≤ 2 ^ 24 → Enters s (.aqEmit q) [a] ∧ Enters s (.aqDrain q) [a]) ∧
    Enters s .aqWait []

/-- R236: a launch word of another engine's class is subcode 0x04, and one with fewer operands on the stack than it pops is
subcode 0x03. -/
def Claims.LaunchWordFaults : Prop :=
  ∀ (s : State) (t h z : Bool) (q : Fin 4),
    let matrix : List (Instr × Nat) := [(.lease, 1), (.unlease, 1), (.wload t, 2), (.wswap, 0), (.mma z, 4), (.aclr, 2),
      (.xout h, 3), (.ackpt, 3), (.acload, 3), (.kvapp, 3), (.qk, 4), (.sv, 4), (.splice, 4), (.repair, 3), (.draw, 3)]
    let copy : List (Instr × Nat) := [(.get, 3), (.put, 3), (.getr, 3), (.putr, 3), (.fill, 3), (.gather, 4), (.scatter, 4),
      (.publish, 1), (.xfer, 3), (.reduce, 4)]
    let access : List (Instr × Nat) := [(.aqBase, 1), (.aqDim, 3), (.aqEmit q, 1), (.aqDrain q, 1), (.aqWait, 0)]
    (s.curK ≠ 0 → ∀ i ∈ matrix, exec i.1 s = .next (wordFaulted s 0x04)) ∧
    (s.curK ≠ 1 → ∀ i ∈ copy, exec i.1 s = .next (wordFaulted s 0x04)) ∧
    (s.curK < 2 → ∀ i ∈ access, exec i.1 s = .next (wordFaulted s 0x04)) ∧
    (s.curK = 0 → ∀ i ∈ matrix, s.myStream.stack.length < i.2 → exec i.1 s = .next (wordFaulted s 0x03)) ∧
    (s.curK = 1 → ∀ i ∈ copy, s.myStream.stack.length < i.2 → exec i.1 s = .next (wordFaulted s 0x03)) ∧
    (2 ≤ s.curK → ∀ i ∈ access, s.myStream.stack.length < i.2 → exec i.1 s = .next (wordFaulted s 0x03))

/-- The words of an engine stream itself, and the faults of its launch words. -/
def Obligations.StreamWords : Prop :=
  Claims.StackWords ∧ Claims.FlowWords ∧ Claims.LaunchWordFaults

/-- Every launch word enters the queue of its engine with operands inside the limits of their fields. -/
def Obligations.LaunchWords : Prop :=
  Claims.MatrixWords ∧ Claims.RequestWords ∧ Claims.CopyWords ∧ Claims.AccessWords

/-! Decoding, and what a step runs. -/

/-- R223, R230 to R234, Tables 9-7 to 9-13: words written out from the encodings decode to the instructions that they stand
for. The first six are the manual's own examples; of the others, each gives its opcode and fields from the left. -/
def Obligations.DecodeSpecWords : Prop :=
  decodeCtl 0x23290033 = some (.ldD 5 4 3) ∧ decodeInt 0x40318001 = some (.addi 6 6 1) ∧
  decodeVar 0x10020001 = some (.vadd .f32 (.row 2) (.row 0) (.row 1)) ∧ decodeCtl 0x023FFFD0 = some (.brNez 7 0x7FFD) ∧
  decodeCtl 0x82181080 = some (.mfs 3 0x108) ∧ decodeWord 0x9805 = some (.loop 5) ∧
  decodeCtl (0x05#8 ++ 0xFFFFF#20 ++ 0#4) = some (.jmp 0xFFFFF) ∧
  decodeCtl (0x40#8 ++ 1#5 ++ 2#5 ++ 3#5 ++ 0b10100#5 ++ 0#4) = some (.amoAdd .d .pkg 1 2 3) ∧
  decodeCtl (0x73#8 ++ 1#5 ++ 2#5 ++ 0b0001000101#10 ++ 0#4) = some (.vput .d 1 2 5) ∧
  decodeInt (0x24#8 ++ 1#5 ++ 2#5 ++ 3#5 ++ 4#9) = some (.sel 1 2 3 4) ∧
  decodeInt (0x44#8 ++ 1#5 ++ 2#5 ++ 63#14) = some (.shli 1 2 63) ∧ decodeInt (0xF0#8 ++ 0xABCDEF#24) = some (.limm 0xABCDEF) ∧
  decodeVar (0xD2#8 ++ 4#8 ++ 3#8 ++ 0#8) = some (.vcvt .f8a (.row 4) (.row 3) .f32) ∧
  decodeVar (0x97#8 ++ 1#8 ++ 0xC0#8 ++ 0xE0#8) = some (.vcmpLt .i32 1 (.qin 0) .vzero) ∧
  decodeVar (0xB1#8 ++ 0xC8#8 ++ 0x40#8 ++ 0x80#8) = some (.vadds .i8u (.qout 0) (.col 0) (.dg 0)) ∧
  decodeVpe (0x01#8 ++ 0#8 ++ 0#8 ++ 2#8) = some (.vmask 2) ∧
  decodeVpe (0xE8#8 ++ 0#8 ++ 0xD1#8 ++ 0#8) = some (.vrandRequest .i32u (.row 0)) ∧
  decodeWord 0x0003 = some (.lit 3) ∧ decodeWord 0x8ABC = some (.ext 0xABC) ∧ decodeWord 0xA201 = some (.wload true) ∧
  decodeWord 0xA400 = some (.mma false) ∧ decodeWord 0xC900 = some .reduce ∧ decodeWord 0xE203 = some (.aqEmit 3)

/-- R230 to R235: the reserved opcodes are refused in every slot and stream, and the syllable of opcode 0 with no other bit set, the stall
count of slot 0 apart, is NOP. -/
def Claims.ReservedOpcodes : Prop :=
  ∀ (w : BitVec 32) (v : BitVec 16),
    let op := w.toNat / 2 ^ 24
    let any := fun (l : List (Nat × Nat)) (n : Nat) => ∃ r ∈ l, r.1 ≤ n ∧ n ≤ r.2
    (any [(0x09, 0x0F), (0x19, 0x1F), (0x27, 0x27), (0x2E, 0x2F), (0x3A, 0x3F), (0x4A, 0x4F), (0x59, 0x5F), (0x65, 0x6F),
        (0x75, 0x7F), (0x87, 0xFF)] op → decodeCtl w = none) ∧
    (any [(0x0A, 0x0F), (0x1C, 0x1F), (0x2B, 0x2F), (0x36, 0x3F), (0x4A, 0xEF), (0xF1, 0xFF)] op → decodeInt w = none) ∧
    (any [(0x01, 0x0F), (0xCA, 0xCB), (0xCE, 0xCF), (0xF9, 0xFF)] op → decodeVar w = none) ∧
    (any [(0x02, 0x0F), (0xF0, 0xFF)] op → decodeVpe w = none) ∧
    (any [(0x9A, 0x9F), (0xAF, 0xBF), (0xCA, 0xDF), (0xE5, 0xFF)] (v.toNat / 256) → decodeWord v = none) ∧
    (op = 0 → w.toNat < 16 → decodeCtl w = some .nop) ∧ decodeInt 0 = some .nop ∧ decodeVar 0 = some .nop ∧ decodeVpe 0 = some .nop

/-- R227, R230 to R235, Tables 9-5 to 9-14: a set bit that the row of its opcode gives no field is refused, in every slot and stream. Each
entry names the first and the last opcode of rows with the same fields and the bits that they leave unused. -/
def Claims.UnusedBits : Prop :=
  ∀ (w : BitVec 32) (v : BitVec 16),
    let op := w.toNat / 2 ^ 24
    let unused := fun (l : List (Nat × Nat × Nat)) (n bits : Nat) => ∃ r ∈ l, r.1 ≤ n ∧ n ≤ r.2.1 ∧ bits &&& r.2.2 ≠ 0
    (unused [(0x00, 0x00, 0xFFFFF0), (0x07, 0x08, 0xF83FF0), (0x10, 0x10, 0x1F0), (0x11, 0x11, 0xF80000), (0x12, 0x12, 0xFFFFF0),
        (0x13, 0x13, 0xF80000), (0x14, 0x14, 0xFFFFF0), (0x15, 0x15, 0x3FF0), (0x16, 0x16, 0xF80000), (0x17, 0x17, 0x1F0),
        (0x18, 0x18, 0xF801F0), (0x30, 0x33, 0x3F80), (0x34, 0x35, 0xFFFF80), (0x36, 0x36, 0xFFFFF0), (0x37, 0x38, 0xF83F80),
        (0x39, 0x39, 0xF80000), (0x40, 0x49, 0x80), (0x50, 0x50, 0x3FF0), (0x51, 0x51, 0xF801F0), (0x52, 0x55, 0xF83FF0),
        (0x56, 0x56, 0xF801F0), (0x57, 0x58, 0x3FF0), (0x61, 0x61, 0xF83FF0), (0x62, 0x62, 0xF801F0), (0x63, 0x63, 0x3FF0),
        (0x64, 0x64, 0xF83FF0), (0x70, 0x70, 0xF801F0), (0x71, 0x71, 0xFFFFF0), (0x72, 0x72, 0x7FFF0), (0x73, 0x74, 0x3800),
        (0x80, 0x80, 0xF80000), (0x81, 0x81, 0xFFFFF0), (0x84, 0x84, 0xF80000), (0x85, 0x85, 0xF83FF0), (0x86, 0x86, 0xF801F0)]
      op w.toNat → decodeCtl w = none) ∧
    (unused [(0x00, 0x00, 0xFFFFFF), (0x01, 0x09, 0x1FF), (0x10, 0x18, 0x1FF), (0x19, 0x1B, 0x3FFF), (0x20, 0x23, 0x1FF),
        (0x24, 0x24, 0x1E0), (0x25, 0x2A, 0x1FF), (0x30, 0x31, 0x1FF), (0x32, 0x33, 0x3F80), (0x34, 0x34, 0x1F8),
        (0x35, 0x35, 0x3FFF), (0x44, 0x46, 0x3FC0)] op w.toNat → decodeInt w = none) ∧
    (unused [(0x00, 0x00, 0xFFFFFF), (0x80, 0xAF, 0xFC0000), (0xD0, 0xF4, 0xF0), (0xF5, 0xF8, 0xFF)] op w.toNat → decodeVar w = none) ∧
    (unused [(0x00, 0x00, 0xFFFFFF), (0x01, 0x01, 0xFFFFFC), (0x30, 0x8F, 0xFF), (0xA0, 0xAF, 0xFFFF), (0xB0, 0xBF, 0xFF),
        (0xD0, 0xEF, 0xFF)] op w.toNat → decodeVpe w = none) ∧
    (unused [(0x90, 0x95, 0xFF), (0x96, 0x97, 0xC0), (0x99, 0x99, 0xFF), (0xA0, 0xA1, 0xFF), (0xA2, 0xA2, 0xFE), (0xA3, 0xA3, 0xFF),
        (0xA4, 0xA4, 0xFE), (0xA5, 0xA5, 0xFF), (0xA6, 0xA6, 0xFE), (0xA7, 0xAE, 0xFF), (0xC0, 0xC9, 0xFF), (0xE0, 0xE1, 0xFF),
        (0xE2, 0xE3, 0xFC), (0xE4, 0xE4, 0xFF)] (v.toNat / 256) v.toNat → decodeWord v = none)

/-- R229 to R235, R322, Tables 9-6 to 9-14: the values of a field that are reserved are refused: scope code 7, a level of CANCEL above 4,
a width of SEXT or ZEXT outside 1 to 64, the format codes 0x9 to 0xF and F4B where a row does not take it, the formats that a row of the
permute syllable does not accept, an operand code without an operand, a source that only a destination may be and the other way round,
the mode of VRAND, and LOOP of distance 0. -/
def Claims.ReservedValues : Prop :=
  ∀ (w : BitVec 32),
    let op := w.toNat / 2 ^ 24
    let f3 := w.toNat / 16 % 8
    let d8 := w.toNat / 2 ^ 16 % 256
    let x8 := w.toNat / 2 ^ 8 % 256
    let y8 := w.toNat % 256
    let any := fun (l : List (Nat × Nat)) (n : Nat) => ∃ r ∈ l, r.1 ≤ n ∧ n ≤ r.2
    let source := fun (c : Nat) => any [(0xC4, 0xCF), (0xD2, 0xDF), (0xE2, 0xFF)] c
    let dest := fun (c : Nat) => any [(0xC0, 0xC7), (0xCC, 0xFE)] c
    (any [(0x30, 0x35), (0x37, 0x38), (0x40, 0x49)] op → f3 = 7 → decodeCtl w = none) ∧
    (op = 0x16 → 4 < w.toNat / 16 % 1024 → decodeCtl w = none) ∧
    (any [(0x32, 0x33)] op → (w.toNat % 128 = 0 ∨ 64 < w.toNat % 128) → decodeInt w = none) ∧
    (any [(0x10, 0xAF), (0xD0, 0xEF)] op → 9 ≤ op % 16 → decodeVar w = none) ∧
    (any [(0x10, 0xAF)] op → op % 16 = 4 → decodeVar w = none) ∧
    (any [(0xD0, 0xF4)] op → 9 ≤ y8 → decodeVar w = none) ∧
    (any [(0xF1, 0xF4)] op → y8 = 4 → decodeVar w = none) ∧
    (∀ r ∈ [(0x1, [0, 1, 2, 3, 5, 6, 7, 8]), (0x2, [0, 1, 2, 3, 5, 6, 7, 8]), (0x3, [0, 1, 2, 3, 7, 8]), (0x4, [0, 1, 2, 3, 5, 6, 7, 8]),
        (0x5, [0, 1, 2, 3, 5, 6, 7, 8]), (0x6, [0, 7, 8]), (0x7, [0]), (0x8, [0, 1, 2, 3, 5, 6, 7, 8]), (0x9, [0, 1, 2, 3, 5, 6, 7, 8]),
        (0xA, [6, 7, 8]), (0xB, [0, 1, 2, 3, 5, 6, 7, 8]), (0xC, [1, 2, 3, 5, 6]), (0xD, [0, 1, 7, 8]), (0xE, [0, 8])],
      op / 16 = r.1 → op % 16 ∉ r.2 → decodeVpe w = none) ∧
    (any [(0x10, 0x7F), (0xB0, 0xF8)] op → dest d8 → decodeVar w = none) ∧
    (any [(0x10, 0xF8)] op → source x8 → decodeVar w = none) ∧
    (any [(0x10, 0xCF)] op → source y8 → decodeVar w = none) ∧
    (any [(0x10, 0xEF)] op → dest d8 → decodeVpe w = none) ∧
    (any [(0x10, 0x9F), (0xB0, 0xDF)] op → source x8 → decodeVpe w = none) ∧
    (any [(0x10, 0x2F), (0x90, 0x9F), (0xC0, 0xCF)] op → source y8 → decodeVpe w = none) ∧
    (any [(0xE0, 0xEF)] op → x8 ≠ 0xD0 → x8 ≠ 0xD1 → decodeVpe w = none) ∧
    decodeWord 0x9800 = none

/-- R223, R230 to R233: decoding in its slot the encoding of a well-formed syllable gives the syllable, with every operand. -/
def Obligations.DecodeEncodeSyllable : Prop :=
  ∀ (i : Instr) (w : BitVec 32) (k : Slot), i.formOk = true → encodeSyllable i = some w → slotOf i = some k →
    decodeSlot k w = some i

/-- R227: what decodes is well formed and no bit of it is lost: encoding it gives the word again, with the stall count of a control
syllable left out. -/
def Claims.EncodeDecodeSyllable : Prop :=
  ∀ (k : Slot) (w : BitVec 32) (i : Instr), decodeSlot k w = some i →
    i.wf = true ∧ encodeWord i = none ∧ encodeSyllable i = some (if k = .ctl then w &&& 0xFFFFFFF0 else w)

/-- R234, R235, Tables 9-12 to 9-14: engine words decode exactly from their encodings, and are well formed. -/
def Claims.DecodeEncodeWord : Prop :=
  ∀ (i : Instr) (w : BitVec 16), (encodeWord i = some w ↔ decodeWord w = some i) ∧
    (decodeWord w = some i → i.wf = true ∧ encodeSyllable i = none)

/-- R223: syllable k of a bundle stands in bits 32k+31:32k, with the stall count in the four low bits. -/
def Claims.BundleLayout : Prop :=
  ∀ (w0 w1 w2 w3 : BitVec 32), decodeBundle (w3 ++ w2 ++ w1 ++ w0) =
    { ctl := decodeCtl w0, int := decodeInt w1, var := decodeVar w2, vpe := decodeVpe w3, stall := w0.extractLsb' 0 4 }

/-- What a context's turn does, once the package has booted (R2): the bundle that the bits it fetches decode to is issued, with the
context current, no target pending and its LIMM at hand. A fetch that faults traps with the pc as TRAP.VAL, one that waits for a walk
passes a cycle, a unit that waited as a record on a barrier lost meanwhile raises BARRIER with
the wait descriptor of its record as TRAP.VAL (R206), and a context that may not issue does
nothing. Tier 1. -/
def Claims.StepRunsBundle : Prop :=
  ∀ (s : State) (c : Nat) (rest : List Turn), s.agenda = .bundle c :: rest →
    let a : State := { s with agenda := rest }
    let f : State := { a with cur := c, npc := none, limm := none, mark := .ok }
    (s.booted = false → step s = .next a) ∧
    (s.booted = true →
      (a.mayIssue c = false → step s = .next a) ∧
      (a.mayIssue c = true →
        (f.me.barLost = true → f.me.barOn = none →
          ∀ u r, f.me.running = some u → f.readRec u.part u.recVa = some r →
            let v := waitDesc r.wait
            step s = .next { f.enterTrap c (trapOf 0x13 v 0) f.me.pc with mark := .trap (trapOf 0x13 v 0) }) ∧
        ((f.me.barLost = true → f.me.barOn ≠ none) →
          (f.fetchBundle c = .wait → step s = .next { f.tickCtx c 1 with mark := .stall }) ∧
          (∀ e, f.fetchBundle c = .fault e → step s = .next { f.enterTrap c (trapOf e f.me.pc 0) f.me.pc with
            mark := .trap (trapOf e f.me.pc 0) }) ∧
          (∀ raw t, f.fetchBundle c = .bits raw t →
            step s = issueBundle exec (decodeBundle raw) { t with raw := raw, limm := limmOf (decodeBundle raw).int }))))

/-- R223, R224, R72: a bundle whose one syllable that is not NOP decodes to i runs exec of i. Where i ends without a stop, the bundle
has issued: the pc goes on to the target or the next bundle, the stall count begins and a cycle passes. Where it stalls, only the
cycle passes, or the cycles until the older write that it waits for has taken effect (R244); where it traps before the bundle retires, the trap is taken on the state before it, but for the delivery of a held fault,
which has been taken; where a control syllable holds its context, its own changes stay and a cycle passes. In an iteration, a trap that
would be taken after the bundle, of a syllable or of CTX.CTL.STEP, is held instead and nothing of the bundle happens (R280). -/
def Obligations.BundleRunsSyllable : Prop :=
  ∀ (b : Bundle) (i : Instr) (s t : State), s.mark = .ok → (∀ k, illegalAt b k = false) → exec i s = .next t →
    let pc := s.me.pc
    let n := b.stall.toNat
    let lone := (b.ctl = some i ∧ b.int = some .nop ∧ b.var = some .nop ∧ b.vpe = some .nop) ∨
      (b.ctl = some .nop ∧ b.int = some i ∧ b.var = some .nop ∧ b.vpe = some .nop) ∨
      (b.ctl = some .nop ∧ b.int = some .nop ∧ b.var = some i ∧ b.vpe = some .nop) ∨
      (b.ctl = some .nop ∧ b.int = some .nop ∧ b.var = some .nop ∧ b.vpe = some i)
    lone →
    let step : Trap := { code := 0x15, val := pc, retired := true }
    (t.mark = .ok →
      (s.me.spec = false ∨ s.me.stepping = false → issueBundle exec b s = .next (t.issued pc n s.me.stepping)) ∧
      (s.me.spec = true → s.me.stepping = true →
        issueBundle exec b s = .next { s.enterTrap s.cur step pc with mark := .trap step })) ∧
    (t.mark = .stall → issueBundle exec b s = .next { s.tickCtx s.cur 1 with mark := .stall }) ∧
    (∀ m, t.mark = .stallTo m → issueBundle exec b s = .next { s.tickCtx s.cur (m - s.me.cycle) with mark := .stall }) ∧
    (∀ tr, t.mark = .trap tr → tr.retired = false → issueBundle exec b s = .next (if tr.eng then t
      else { s.enterTrap s.cur tr pc with mark := .trap tr })) ∧
    (b.ctl = some i → t.mark = .hold → issueBundle exec b s = .next { t.tickCtx t.cur 1 with mark := .hold, npc := none }) ∧
    (b.ctl = some i → t.mark = .gone → issueBundle exec b s = .next (t.issued pc n s.me.stepping)) ∧
    (∀ tr, b.ctl = some i → t.mark = .trap tr → tr.retired = true → issueBundle exec b s = .next (if s.me.spec
      then { s.enterTrap s.cur tr pc with mark := .trap tr } else t.issued pc n s.me.stepping))

/-- R223: an all-zero bundle issues and does nothing but advance the pc of its context by 16 and its cycle by one, in which what is in
flight goes on; with nothing in flight that is the whole of the next state, the context's own core written as it stands. -/
def Claims.ZeroBundle : Prop :=
  ∀ (s : State), s.mark = .ok → s.npc = none → s.me.ctl.getLsbD 3 = false →
    issueBundle exec (decodeBundle 0) s =
      .next ((s.modMe fun x => { x with pc := s.me.pc + 16, stall := 0 }).tickCtx s.cur 1) ∧
    (s.me.wq = [] → s.me.sps = [] → issueBundle exec (decodeBundle 0) s =
      .next ((s.setCore (coreOf s.cur) (s.core (coreOf s.cur))).setCtx s.cur
        { s.me with pc := s.me.pc + 16, stall := 0, cycle := s.me.cycle + 1 }))

/-- R225, R226, Table 13-1: a bundle traps with ILLEGAL at its first syllable that does not decode, with the syllable as TRAP.VAL in
slots 0 and 1 and zero in slots 2 and 3; nothing else of the bundle happens. -/
def Claims.IllegalBundle : Prop :=
  ∀ (b : Bundle) (s : State), s.mark = .ok →
    let raises := fun (k : BitVec 2) (v : Word) => issueBundle exec b s = .next { s.enterTrap s.cur (trapOf 0x01 v k) s.me.pc with
      mark := .trap (trapOf 0x01 v k) }
    (b.ctl = none → raises 0 ((s.raw.extractLsb' 0 32).setWidth 64)) ∧
    (b.ctl = some .nop →
      (b.int = none → raises 1 ((s.raw.extractLsb' 32 32).setWidth 64)) ∧
      (∀ v, b.int = some (.limm v) → raises 1 ((s.raw.extractLsb' 32 32).setWidth 64)) ∧
      (b.int = some .nop → b.var = none → raises 2 0) ∧
      (b.int = some .nop → b.var = some .nop → b.vpe = none → raises 3 0))

/-- R325, R326, R236: a stream's turn, once the package has booted, executes the word at its position: exec of what it decodes to,
with the stream current; a word that does not decode faults the stream, and so does one that cannot be fetched. An event's turn is exec
of the event; before the boot only PACKAGE_RESET takes place (R2). -/
def Claims.StepRunsWordOrEvent : Prop :=
  ∀ (s : State) (rest : List Turn),
    let a : State := { s with agenda := rest }
    (∀ (c k : Nat), s.agenda = .word c k :: rest → s.booted = true →
      let t : State := { a with cur := c, curK := k, mark := .ok }
      ((a.ctx c).streamRuns k = false → step s = .next a) ∧
      ((a.ctx c).streamRuns k = true →
        (t.fillFetch c k = none → step s = .next { t with mark := .stall }) ∧
        (∀ e, t.fillFetch c k = some (.error e) → step s = .next (t.wordFault c k e)) ∧
        (∀ u w ws, t.fillFetch c k = some (.ok u) → u.myStream.fetch = w :: ws →
          (∀ i, decodeWord w = some i → step s = exec i u) ∧
          (decodeWord w = none → step s = .next (u.wordFault c k (badWord k w)))))) ∧
    (∀ i, s.agenda = .event i :: rest → (s.booted = true ∨ i = .packageReset) → step s = exec i a) ∧
    (∀ i, s.agenda = .event i :: rest → s.booted = false → i ≠ .packageReset → step s = .next a)

/-- Every step of the package answers a next state: the manual gives every trap (R363), every fault of a stream (R236) and every event an
effect. That a turn at which an event's condition fails is a step that leaves the state as it stands is the model's choice (log 7). -/
def Obligations.EveryStepGoes : Prop := ∀ (s : State), Goes (step s)

/-! Reset. -/

/-- R10, R11, R86, R88, R390, R402, Tables 3-1, 3-4: the values that the manual gives for reset, read through the registers, and the
mailbox with nothing in it. -/
def Obligations.ResetValues : Prop :=
  let s := State.reset
  (∀ c, (s.ctx c).ctl = 0 ∧ (s.ctx c).valid = 0 ∧ (s.ctx c).trapCause = 0 ∧ (s.ctx c).trapPc = 0 ∧ (s.ctx c).trapVal = 0 ∧
    (s.ctx c).trapVec = 0 ∧ (s.ctx c).trapScr = 0 ∧ (s.ctx c).watchAddr = 0 ∧ (s.ctx c).watchCtl = 0 ∧ (s.ctx c).stat = 0 ∧
    (s.ctx c).tab = 0) ∧
  (∀ n, s.split n = 0 ∧ ∀ k, (s.ring n k).base = 0 ∧ (s.ring n k).shape = 0 ∧ (s.ring n k).ptr = 0) ∧
  (∀ p, (s.part p).leaseMax = 16 ∧ (s.part p).thresh = 0x3C000000 ∧ (s.part p).repairLayer = 0 ∧ (s.part p).modelId = 0 ∧
    (s.part p).isOpen = false) ∧
  s.timebase = 0 ∧ (∀ i, (s.gridRow i).cadence = 1) ∧ (∀ i, (s.stack i).phaseCtl = 0) ∧ (∀ i, (s.cluster i).railSel = 0) ∧
  (∀ z, (s.zone z).valve = 0 ∧ (s.zone z).hi = 0x05F0 ∧ (s.zone z).lo = 0) ∧
  s.mbxCmd = 0 ∧ s.mbxStat = 0

/-- At reset every memory is in canonical form. -/
def Obligations.ResetMemOk : Prop := MemOk State.reset

/-- Every step keeps the canonical form of every memory: addresses strictly rising, and no byte listed that an unlisted address
reads as. -/
def Obligations.StepKeepsMemOk : Prop := ∀ (s t : State), MemOk s → step s = .next t → MemOk t

/-- What every slot and stream refuses. -/
def Obligations.ReservedEncodings : Prop :=
  Claims.ReservedOpcodes ∧ Claims.UnusedBits ∧ Claims.ReservedValues

/-- Decoding and encoding agree in the other direction, and for engine words in both. -/
def Obligations.DecodeLosesNothing : Prop :=
  Claims.EncodeDecodeSyllable ∧ Claims.DecodeEncodeWord

/-- The bundle of zero bytes, and bundles that are illegal. -/
def Obligations.BundlesThatDoNothingOrTrap : Prop :=
  Claims.ZeroBundle ∧ Claims.IllegalBundle

/-- A step runs the decoded bundle, the decoded word or the event that its turn names. That the package takes one turn at a time is the
model's choice (log 7). -/
def Obligations.StepRunsTurn : Prop :=
  Claims.BundleLayout ∧ Claims.StepRunsBundle ∧ Claims.StepRunsWordOrEvent

/-! Events. An event whose condition does not hold leaves the state as it stands: the manual gives an event its effect under its
condition alone, and that it leaves nothing else is the model's choice (log 7). -/

/-- The state after an event, which is never held back. -/
def Does (s : State) (i : Instr) (t : State) : Prop := exec i s = .next { t with mark := .ok }

/-- R73, R74, R82, R126, R164, R171, R211, R215, R223: the stall count passes as so many cycles; the next fixed-latency result takes effect
in the cycle in which it falls due; a scoreboarded result arrives, after every older write to its destination (R244), unless its slot
has left state 1, and leaves the queue, and a load's latency is sampled; the vector unit drains; the oldest store is performed, or waits for room among the far requests (R164). A
slot whose last access this was goes on at
once. -/
def Obligations.ContextEvents : Prop :=
  ∀ (s : State) (c : Nat),
    let x := s.ctx c
    (∃ t, exec (.stallCountExpiry c) s = .next t ∧ (t.ctx c).stall = 0 ∧ (t.ctx c).cycle = x.cycle + x.stall ∧
      (t.ctx c).pc = x.pc ∧ ∀ d, d ≠ c → t.ctx d = s.ctx d) ∧
    (∀ (r : Reg) v i d, x.wq = [{ eff := .g r v, issued := i, due := some d }] → x.sps = [] →
      ∃ t, exec (.exposedLatencyElapsed c) s = .next t ∧ (t.ctx c).g = x.g.set r v ∧ (t.ctx c).wq = [] ∧
        (t.ctx c).cycle = max x.cycle d ∧ (t.ctx c).pc = x.pc) ∧
    (∀ a b w (r : Reg) v, x.wq = a ++ w :: b → w.due = none → w.eff = .g r v →
      ((∃ e ∈ a, e.eff.meets w.eff = true) → Does s (.scoreboardWrite c (a.filter (·.due.isNone)).length) s) ∧
      ((∀ e ∈ a, e.eff.meets w.eff = false) →
      let t := s.modCtx c fun y => { y with wq := a ++ b, g := if 2 ≤ s.slotState c then y.g else y.g.set r v }
      Does s (.scoreboardWrite c (a.filter (·.due.isNone)).length)
        ((if w.load then t.monSample 1 (coreOf c) (x.cycle - w.issued : Nat) else t).slotDrained c))) ∧
    (∃ t, exec (.vectorUnitIdle c) s = .next t ∧ (∀ w ∈ (t.ctx c).wq, w.vec = false) ∧ (t.ctx c).pc = x.pc) ∧
    (x.sq = [] → Does s (.storePerformed c) (s.slotDrained c)) ∧
    (∀ e es, x.sq = e :: es →
      ((e.kind.stores = false ∨ s.farRoom e.pa = true) →
        Does s (.storePerformed c) (((s.modCtx c fun y => { y with sq := es }).performSq c e).slotDrained c)) ∧
      (e.kind.stores = true → s.farRoom e.pa = false → Does s (.storePerformed c) (s.slotDrained c)))

/-- R150, R162, R211, R217, R261, R274, R363: a nanosecond passes, and the monitors of crossing FIFOs sample; a cause of a bundle's
traps is taken by a context that runs a unit; a held instruction whose condition holds gives its record state 2 and its bundle the
next turn. A packet whose header has come to its destination and is the head of its channel there leaves the ring: it is discarded, or
queued where there is room; else its flits move on, one of them by one hop, one that can move, whose packet is the head of the channel
it stands in, and that no flit with a better claim to the link keeps back. The first
entry of a spill list for which its bind set has room moves there, and where there is none, a record that waits for an entry takes
one. A suspended record whose condition holds, or was met before, becomes ready on its home core, and notes it where no queue has
room; one that waits on a barrier whose core is not in the bind set stays suspended (R260). The list of records that wait for an entry,
whose age begins when they take it, and the note that a wait is satisfied, are the model's reading of R150 (log 25), that FIFOs are
sampled at every tick its reading of R211 (log 14), and that a held instruction whose condition holds has the very next turn its choice
(log 7). -/
def Obligations.FlowEvents : Prop :=
  ∀ (s : State) (c clu n : Nat),
    Does s .timebaseTick { s.sampleFifos with timebase := s.timebase + 1 } ∧
    (∀ cause syl val, (s.ctx c).running.isSome = true →
      (bundleCause cause = true →
        Does s (.trapEntry c cause syl val) (s.enterTrap c (trapOf cause val (BitVec.ofFin syl)) (s.ctx c).pc)) ∧
      (bundleCause cause = false → Does s (.trapEntry c cause syl val) s)) ∧
    (∀ u, (s.ctx c).running = some u → s.mayIssue c = true → s.recState u.part u.recVa = 3 → s.holdOver c = true →
      Does s (.blockingInstructionRetire c) { s.setRecState u.part u.recVa 2 with agenda := .bundle c :: s.agenda }) ∧
    (∀ f, (s.cluster clu).flights[n]? = some f →
      let moves := Does s (.messageDelivery clu n) (s.modCluster clu fun y => (y.advance n).getD y)
      let off := s.modCluster clu fun y => { y with flights := y.flights.eraseIdx n }
      (f.hops.head? ≠ some f.dist ∨ (s.cluster clu).behind n f.dist = true → moves) ∧
      (f.hops.head? = some f.dist → (s.cluster clu).behind n f.dist = false →
        (s.msgBound f.pkt.dstCtx f.pkt = false → Does s (.messageDelivery clu n) off) ∧
        (s.msgBound f.pkt.dstCtx f.pkt = true →
          ((s.ctx f.pkt.dstCtx).msgRoom f.pkt = true → Does s (.messageDelivery clu n)
            (off.modCtx f.pkt.dstCtx fun x => { x with msgq := x.msgq ++ [f.pkt] })) ∧
          ((s.ctx f.pkt.dstCtx).msgRoom f.pkt = false → moves))) ∧
      (∀ y, (s.cluster clu).advance n = some y → ∃ i h, f.hops[i]? = some h ∧ h < f.dist ∧ (∀ g ∈ f.hops.take i, h < g) ∧
        (s.cluster clu).behind n h = false ∧
        (s.cluster clu).used (f.stopAt (h + 1)) (f.crossed (h + 1)) < 4 ∧ (s.cluster clu).wins n f h = true ∧
        y = { s.cluster clu with flights := (s.cluster clu).flights.set n { f with
              hops := f.hops.set i (h + 1),
              entered := if i = 0 then ((s.cluster clu).flights.map (·.entered)).foldl max 0 + 1 else f.entered } })) ∧
    (let x := s.cluster clu
     let fits := fun (e : Ready) => ∃ m ∈ s.queueRing e.launch.toNat e.home, (s.core m).ready.length < 64
     (∀ a e b, x.spill = a ++ e :: b → (∀ o ∈ a, ¬ fits o) → fits e →
       Does s (.spillListMove clu) ((s.modCluster clu fun y => { y with spill := a ++ b }).enqueue e)) ∧
     ((∀ o ∈ x.spill, ¬ fits o) →
       (x.late = [] → Does s (.spillListMove clu) s) ∧
       (∀ e es, x.late = e :: es →
         let u := s.modCluster clu fun y => { y with late := [] }
         (u.queueRoom e.launch.toNat e.home = true →
           Does s (.spillListMove clu) ((u.enqueue { e with time := if e.resumed then e.time else s.now }).modCluster clu fun y => { y with late := es })) ∧
         (u.queueRoom e.launch.toNat e.home = false → Does s (.spillListMove clu) s)))) ∧
    (∀ p va r, s.suspended[n]? = some (p, va) → s.readRec p va = some r →
      let kept := assocGet ({} : Kept) (s.part p).kept va
      (s.condHolds p va none r.wait = true ∨ kept.met = true → s.barBound r.launch r.wait kept.home = false →
        Does s (.waitConditionSatisfied n) s) ∧
      (s.condHolds p va none r.wait = true ∨ kept.met = true → s.barBound r.launch r.wait kept.home = true →
        (s.queueRoom r.launch kept.home = true → Does s (.waitConditionSatisfied n) ((s.setRecState p va 1).enqueue
          { recVa := va, part := p, launch := BitVec.ofNat 32 r.launch, pri := r.pri, time := s.now, home := kept.home })) ∧
        (s.queueRoom r.launch kept.home = false → Does s (.waitConditionSatisfied n)
          (s.modPart p fun y => { y with kept := assocSet y.kept va { assocGet {} y.kept va with met := true } }))) ∧
      (s.condHolds p va none r.wait = false → kept.met = false → Does s (.waitConditionSatisfied n) s))

/-- R36, R199, R404: a launch whose units are done completes. Its open runs are aborted, its slots retire, and its counter closes with
status 2, or 3 where it was cancelled; then it leaves the launch queue, where what waits inside the dealer enters (R152). Then one more
unit of an enclosing level has finished, whose DONE is one more and whose LIVE is one less, or the graph whose node it was goes on (R265). A
job whose supervisor's launch has completed with nothing live ends: its counter closes, its word goes to the host's job-end address, and
interrupt 1 is sent. -/
def Obligations.CompletionEvents : Prop :=
  ∀ (s : State) (l p j : Nat),
    (s.launchDone l = true →
      let x := s.launch l
      let q := x.part
      let n := x.fields.cnt
      let a := s.closeRunsOf q l
      let c := a.counter q n
      ((∀ e ∈ (s.part q).runs, e.2.isOpen = true → e.2.launch.toNat ≠ l) → a = s) ∧
      ∃ u : State, (u.launch l).complete = true ∧ u.counter q n = { c with status := if c.cancelled then 3 else 2 } ∧
        (∀ m, m ≠ n → u.counter q m = a.counter q m) ∧ (∀ d ∈ x.ctxs, u.boundTo d l = false) ∧ u.launchq = a.launchq ∧
        u.nodeWait = a.nodeWait ∧
        let v := u.leaveQueue l
        (x.node = none → c.encl = none → Does s (.launchCompletion l) v) ∧
        (x.node = none → ∀ i, c.encl = some i → Does s (.launchCompletion l) (v.countItem q i false)) ∧
        (∀ g i, x.node = some (g, i) → Does s (.launchCompletion l)
          (if c.cancelled then (v.cancelNode q g i false).settle q else v.completeNode q g i))) ∧
    (let out : State := { s with launchq := s.launchq.filter fun e => e.1 != l,
                                 nodeWait := s.nodeWait.filter (· != .launch l) }
     (out.nodeWait = [] → s.leaveQueue l = out) ∧
     (∀ w, out.nodeWait = [w] → out.launchq.length < 4096 → s.leaveQueue l =
       match w with
       | .launch k => { out with nodeWait := [], launchq := out.launchq ++ [(k, (s.launch k).fields.pri)] }
       | .node r g i => ({ out with nodeWait := [] }.startNode r g i).settle r) ∧
     (4096 ≤ out.launchq.length → s.leaveQueue l = out)) ∧
    (s.countItem p j false).counter p j =
      { s.counter p j with done := (s.counter p j).done + 1, live := (s.counter p j).live - 1 } ∧
    (s.launchDone l = false → Does s (.launchCompletion l) s) ∧
    ((s.job p j).isOpen = true → (s.launch (s.job p j).launch.toNat).complete = true → (s.counter p j).live = 0 →
      ∃ t, exec (.jobCompletion p j) s = .next t ∧ (t.job p j).isOpen = false ∧ t.msix = s.msix ++ [1] ∧
        (t.counter p j).status = (if (s.counter p j).cancelled then 3 else 2) ∧
        ((s.job p j).endw ≠ 0 → t.host.nat (s.job p j).endw 8 = (State.counterWord (t.counter p j)).toNat))

/-- R37, R42, R43, R137, R265: a ready copy node is performed, or waits while a latch holds a buffer that it would write, or cancels
what follows it where it faults; a launch that nothing holds back and that is next is bound, where at a first bind its idle contexts
choose next, in the order of their numbers (DEDUCED from R412, log 7), or refused at its first checks; a retiring slot that has drained becomes free, and a waiting bind record takes effect. -/
def Claims.BindEvents : Prop :=
  ∀ (s : State) (c l p g i : Nat),
    (∀ n, (s.graph p g).nodes[i]? = some n → n.copy = true → n.st = 1 → (s.graph p g).isOpen = true →
      (∀ t, s.copyRange p n.a n.b n.bytes = .ok t →
        Does s (.copyNode p g i) (if s.writesLatched p true n.b n.bytes then s else t.completeNode p g i)) ∧
      (∀ e, s.copyRange p n.a n.b n.bytes = .error e → Does s (.copyNode p g i) ((s.cancelNode p g i true).settle p))) ∧
    (s.unheld l = true → s.nextInQueue l = true →
      (∀ t r, s.firstChecks l = .ok t → t.tryBind l = some r → Does s (.dealerBind l) (if (t.launch l).bound then r
        else { r with agenda := (r.choosers l).map (.event <| .pickUp ·) ++ r.agenda })) ∧
      (∀ t, s.firstChecks l = .ok t → t.tryBind l = none → Does s (.dealerBind l) t) ∧
      (∀ t, s.firstChecks l = .error t → Does s (.dealerBind l) t)) ∧
    (s.unheld l = false ∨ s.nextInQueue l = false → Does s (.dealerBind l) s) ∧
    (s.drainOf c = 0 → (s.ctx c).running = none →
      (s.slotState c = 2 → ∃ t, exec (.slotDrainZero c) s = .next t ∧ t.slotState c = 0 ∧ t.ctx c = s.ctx c) ∧
      (s.slotState c = 3 → ∃ t, exec (.slotDrainZero c) s = .next t ∧ (t.ctx c).msgq = [] ∧
        (t.ctx c).tabBase = s.slotTabBase c ∧ (t.ctx c).tabCount = s.slotTabCount c ∧ (t.launch (s.slotLaunch c)).snapped = true))

/-- R34, R40, R72, R81, R82, R134, R372, R374: an idle bound context starts the record that it chooses. A well-formed ready record runs:
its registers, masks and latch stand as a unit finds them, and it begins at its resume PC, or first at the restore sequence of its yield
index. One with a pre-emption block is loaded from the block instead, and its frame pointer is the frame's again. Either takes over its
parked lease or its request, but for one whose save sequence goes on (R434), after which come an acquire .clu, and an acquire .pkg for a unit of a graph and after a wait of kind 1 or 2. A
record whose block cannot be read runs as it was started (the model's choice, log 28). -/
def Claims.PickUpEvents : Prop :=
  ∀ (s : State) (c n : Nat) (e : Ready) (r : Rec), (s.ctx c).running = none → s.slotState c = 1 →
    s.chooseRecord c (s.slotLaunch c) = some (n, e) →
    let q := (s.modCore n fun x => { x with ready := x.ready.erase e }).bump
    q.readRec e.part e.recVa = some r → q.recBad e.part r (q.slotImage c) = false → r.state = 1 →
    let l := s.slotLaunch c
    let b := q.setRecState e.part e.recVa 2
    let off := (b.yieldEntry e.part (b.slotImage c) r.yield).2.1
    let kept := assocGet ({} : Kept) (b.part e.part).kept e.recVa
    let u := ((b.startUnit c e.part e.recVa l r e.time).modCtx c fun x => { x with barLost := kept.barLost }).modPart e.part fun y =>
      if kept.barLost then { y with kept := assocSet y.kept e.recVa { kept with barLost := false } } else y
    let runs := fun (t : State) =>
      let t := (t.acquire c .clu).modLaunch l fun x => { x with used := if x.used.contains (coreOf c) then x.used else x.used ++ [coreOf c] }
      Does s (.pickUp c) (if r.graph = 0xFFFF ∧ waitKind r.wait ≠ 1 ∧ waitKind r.wait ≠ 2 then t else t.acquire c .pkg)
    (r.frame % 2 = 0 → ∃ t, exec (.pickUp c) s = .next t ∧
      (t.ctx c).pc = (if off = 0xFFFFFFFF then BitVec.ofNat 64 r.pc
        else BitVec.ofNat 64 ((b.ctlSection e.part (b.slotImage c)).1 + off)) ∧
      (t.ctx c).seq = (if off = 0xFFFFFFFF then .none else .restore (BitVec.ofNat 64 r.pc)) ∧
      (t.ctx c).reg 1 = BitVec.ofNat 64 r.a0 ∧
      (t.ctx c).reg 2 = BitVec.ofNat 64 r.a1 ∧ (t.ctx c).valid = 6 ∧ (t.ctx c).alo = 0 ∧ (t.ctx c).ahi = 0 ∧
      (∀ m : Fin 4, (t.ctx c).k[m] = BitVec.allOnes 256) ∧ (t.ctx c).pinned = false ∧ (t.ctx c).intrap = false ∧
      (t.ctx c).spec = r.spec ∧ (t.ctx c).priv = (s.launch l).super ∧
      (t.ctx c).ctl = BitVec.ofNat 64 (b.slotCtl c) ∧ (t.ctx c).launch = BitVec.ofNat 32 l ∧
      ((t.ctx c).running.map (·.recVa)) = some e.recVa) ∧
    (r.frame % 2 = 0 → runs ((u.startRestore c e.part r).takeLease c e.part e.recVa none)) ∧
    (r.frame % 2 = 1 →
      (∀ bs, u.vRead e.part true (r.frame - 1) 35840 = .ok bs →
        let full := (u.loadBlock c e.part (u.slotImage c) bs kept).writeRec e.part e.recVa { r with frame := r.frame - 1, state := 2 }
        ((∀ w i a, kept.seq ≠ .save w i a) → runs (full.takeLease c e.part e.recVa
          (if bitsOf (State.blk bs 17 1) 2 1 = 0 then none else some (State.blk bs 18 1)))) ∧
        (∀ w i a, kept.seq = .save w i a → runs full)) ∧
      (∀ err, u.vRead e.part true (r.frame - 1) 35840 = .error err → runs u))

/-- R374, Table 13-3: what a context holds after its pre-emption block is loaded, field by field, the entries of its queues, stacks and
command queues among them, and the rows of its window; no other context and no memory changes. What a command holds beside its operands, and
commands beyond the fourth of a queue, are kept beside the block (log 15). -/
def Claims.BlockLoads : Prop :=
  ∀ (s : State) (c p img : Nat) (bs : List Byte) (k : Kept),
    let t := s.loadBlock c p img bs k
    let y := t.ctx c
    let f := State.blk bs
    y.pc = BitVec.ofNat 64 (f 0 8) ∧ y.sel.val = f 11 1 % 4 ∧ y.valid = BitVec.ofNat 32 (f 12 4) ∧
    y.ctl = BitVec.ofNat 64 (f 16 1) &&& 0xB ∧ y.pinned = bitOf (f 17 1) 0 ∧
    y.barPhase = (if bitOf (f 20 1) 0 then some (BitVec.ofNat 32 (f 24 4)) else none) ∧
    (∀ i : Fin 32, y.g[i] = BitVec.ofNat 64 (f (0x40 + 8 * i.val) 8)) ∧
    (∀ i : Fin 4, y.k[i] = BitVec.ofNat 256 (f (0x140 + 32 * i.val) 32)) ∧
    y.alo = BitVec.ofNat 64 (f 0x1C0 8) ∧ y.ahi = BitVec.ofNat 64 (f 0x1C8 8) ∧
    (∀ i : Fin 32, y.hist[i] = BitVec.ofNat 32 (f (0x200 + 4 * i.val) 4)) ∧
    (∀ i : Fin 64, y.flags[i] = BitVec.ofNat 8 (f (0x280 + i.val) 1)) ∧
    (∀ i : Fin 4,
      let entries := fun (n : Nat) =>
        let m := f (0x2C0 + 8 * n) 8
        (List.range (m % 16)).map fun e =>
          ({ tag := BitVec.ofNat 4 (m / 16 ^ (e + 1)), data := BitVec.ofNat 2048 (f (0x4C00 + (8 * n + e) * 256) 256) } : QEntry)
      y.qin[i] = entries i.val ∧ y.qout[i] = entries (4 + i.val)) ∧
    (∀ i : Fin 6,
      let st := f (0x480 + 8 * i.val) 4
      let ft := f (0x4C0 + 8 * i.val) 8
      let cmds := k.queues.getD i.val []
      y.streams[i].pos = f (0x484 + 8 * i.val) 4 ∧ y.streams[i].ended = bitOf st 4 ∧ y.streams[i].started = [] ∧
      y.streams[i].stack.reverse = (List.range (st % 16)).map (fun e => BitVec.ofNat 64 (f (0x300 + 64 * i.val + 8 * e) 8)) ∧
      y.streams[i].queue =
        ((List.range 4).filterMap fun e => State.cmdOf (f (0x500 + 256 * i.val + 64 * e) 64) cmds[e]?) ++ cmds.drop 4 ∧
      y.streams[i].fault = if bitOf ft 31 then
        some { code := BitVec.ofNat 8 ft, sub := BitVec.ofNat 8 (ft / 256), off := ft / 2 ^ 32 } else none) ∧
    (∀ i < (s.ctx c).tabCount, t.row (tabKey (coreOf c) ((s.ctx c).tabBase + i)) =
      { data := BitVec.ofNat 2048 (f (0xC00 + 256 * i) 256), tag := BitVec.ofNat 4 (f (0xB00 + i) 1), valid := bitOf (f (0xB00 + i) 1) 7 }) ∧
    (∀ d, d ≠ c → t.ctx d = s.ctx d) ∧ t.mem = s.mem

/-- R175, R331, R372, R434: a lease that can be granted goes to the request that is next, with the limit of LEASE.MAX; a parked
lease for which another request waits ends, and its record asks again; a lease granted to a record that no context runs is parked, and
the grant is noted for a record whose save sequence runs.
R283, R370: a unit that a launch calls for is marked; it is written out once its started commands, but for a REPAIR, have gone, no handler
runs and it is not cancelled, and until then nothing changes; the mark
is withdrawn after a millisecond. R38, R283, R375: a cancelled unit that reaches its boundary within a millisecond leaves its context, an
iteration of a closed run with state 6, and another with state 5; after that it is removed, but for an iteration that RUN.ABORT alone has
marked, for which no time is given. -/
def Obligations.SwitchEvents : Prop :=
  ∀ (s : State) (c p rect : Nat),
    (∀ q k, s.grantable p rect = true → s.nextReq p rect = some q → q.ctx = some k →
      ∃ t, exec (.leaseGrant p rect) s = .next t ∧
        (t.ctx k).lease = .held rect (s.part p).leaseMax.toNat (s.part p).leaseMax.toNat ∧
        (t.part p).reqs = (s.part p).reqs.erase q ∧ t.leaseHeld p rect = true) ∧
    (∀ q, s.grantable p rect = true → s.nextReq p rect = some q → q.ctx = none →
      (∀ r ∈ (s.part p).reqs.erase q, r.rect ≠ rect) →
      let held := (s.modPart p fun x => { x with reqs := x.reqs.erase q }).setLease p rect true false (s.part p).leaseMax.toNat 0
      ((held.takeSlots p rect).clearLatches p (held.rectColumns p rect)).recState p q.recVa ≠ 3 →
      ∃ t, exec (.leaseGrant p rect) s = .next t ∧ (t.part p).reqs = (s.part p).reqs.erase q ∧ t.leaseHeld p rect = true ∧
        (assocGet ({} : Kept) (t.part p).kept q.recVa).met = true ∧
        (t.part p).parked = (s.part p).parked ++
          [{ rect := rect, recVa := q.recVa, left := (s.part p).leaseMax.toNat, limit := (s.part p).leaseMax.toNat }]) ∧
    (s.grantable p rect = false ∨ s.nextReq p rect = none → Does s (.leaseGrant p rect) s) ∧
    (∀ k, (s.part p).parked.find? (fun k => k.rect == rect) = some k → s.leaseWait p rect = true →
      ∃ t pri, exec (.parkedLeaseEnd p rect) s = .next t ∧ (t.part p).parked = (s.part p).parked.erase k ∧
        (t.part p).reqs = (s.part p).reqs ++ [{ rect := rect, ctx := none, recVa := k.recVa, pri := pri, since := s.now }]) ∧
    (∀ u, (s.ctx c).running = some u →
      ((s.ctx c).preempt = none → (s.ctx c).cancel = none → s.calledFor c = true →
        Does s (.preemption c) (s.modCtx c fun y => { y with preempt := some s.now })) ∧
      (∀ n, (s.ctx c).preempt = some n → n + 1000000 ≤ s.now →
        Does s (.preemption c) (s.modCtx c fun y => { y with preempt := none })) ∧
      (∀ n, (s.ctx c).preempt = some n → s.now < n + 1000000 →
        let gone := ∀ k ∈ (s.ctx c).streams.toList, ∀ d ∈ k.started, d.word = .repair
        ((s.ctx c).intrap = false → (s.ctx c).cancel = none → gone →
          Does s (.preemption c) (((s.stopRepairs c).drainAll c).writeOut c u)) ∧
        ((s.ctx c).intrap = true ∨ (s.ctx c).cancel ≠ none ∨ ¬gone → Does s (.preemption c) s)) ∧
      (∀ n, (s.ctx c).cancel = some n →
        let st := if (s.ctx c).spec = true ∧ (s.run u.part u.run).isOpen = false then 6 else 5
        ((s.now < n + 1000000 ∨ (s.ctx c).abortOnly = true) →
          Does s (.cancelBoundaryReached c) (s.stopCancelled c st) ∧ ((s.stopCancelled c st).ctx c).running = none ∧
          Does s (.cancelRemovalTimeout c) s) ∧
        (n + 1000000 ≤ s.now → (s.ctx c).abortOnly = false → Does s (.cancelBoundaryReached c) s ∧
          ∃ t, exec (.cancelRemovalTimeout c) s = .next t ∧ (t.ctx c).running = none))) ∧
    (∀ n, (s.ctx c).preempt = some n →
      (n + 1000000 ≤ s.now → Does s (.preemptionAbandon c) (s.modCtx c fun y => { y with preempt := none })) ∧
      (s.now < n + 1000000 → Does s (.preemptionAbandon c) s))

/-- R153, R327, R328: the head of a command queue starts where its context's engines start commands, nothing conflicts and the engine
has come round to the context, and none of a matrix stream whose lease is about to end with a lost column (R21); a started command
commits and leaves. The access words start at once; AQ.BASE, AQ.DIM, WSWAP, ACLR and
PUBLISH commit as R359, R337, R79 and R357 give. A
command that faults leaves, its stream fetches no more and its queue is empty, while the other started commands stay (R326). -/
def Obligations.CommandEvents : Prop :=
  ∀ (s : State) (c k n : Nat) (d : Cmd),
    let w : State := { s with cur := c, curK := k }
    (k = 0 → (s.ctx c).losing = true → Does s (.engineCommandStart c k) s) ∧
    (∀ ds, ((s.ctx c).stream k).queue = d :: ds → s.enginesStart c = true → mustWait w d = false →
      (k = 0 → (s.ctx c).losing = false) →
      let served := fun (t : State) => t.modCore (coreOf c) fun x => { x with serve := vset x.serve k ((c + 1) % 4) }
      let starts := fun (t : State) (e : Cmd) => Does s (.engineCommandStart c k) (served (t.modStream c k fun x =>
        { x with queue := x.queue.drop 1, started := x.started ++ [{ e with last := needsLease e && t.me.lease.spent }] }).bump)
      (s.engineTurn c k = true →
        (∀ e t, (startCmd { d with since := s.tick }).run w = .ok e t → starts t e) ∧
        (∀ sub t, (startCmd { d with since := s.tick }).run w = .error (.engine sub) t →
          Does s (.engineCommandStart c k) (served (s.streamFault c k sub d.off))) ∧
        ((∃ q : Fin 4, d.word ∈ [.aqBase, .aqDim, .aqWait, .aqEmit q, .aqDrain q]) → starts w { d with since := s.tick })) ∧
      (s.engineTurn c k = false → Does s (.engineCommandStart c k) s)) ∧
    (((s.ctx c).stream k).started[n]? = some d → (s.ctx c).cancel = none →
      let goes := fun (t : State) => Does s (.engineCommandCommit c k n) (t.dropCmd c k n d)
      let v := nth d.ops 0
      (d.word = .aqBase → goes (w.modStream c k fun t =>
        { t with nest := { t.nest with base := BitVec.ofNat 64 (opBits v 56 0), fmt := BitVec.ofNat 4 (opBits v 63 60) }.rewind })) ∧
      (d.word = .aqDim → goes (w.modStream c k fun t =>
        { t with nest := (t.nest.setLevel v.toNat { count := (nth d.ops 1).toNat, stride := nth d.ops 2 }).rewind })) ∧
      (∀ rect left limit, d.word = .wswap → (s.ctx c).lease = .held rect left limit →
        goes ((w.rectColumns w.myPart rect).foldl (fun t a => t.modCol a Column.swapLatches) w)) ∧
      (d.word = .aclr → goes ((w.slotKeys (accRow v).2 (accRow v).1 (nth d.ops 1).toNat).foldl (fun t r =>
        t.setRow r { data := 0, tag := if (t.row r).valid then (t.row r).tag else 0, valid := true }) w)) ∧
      (d.word = .publish → goes (w.flipGroup v.toNat)) ∧
      (∀ sub t, d.word ≠ .repair → (stepCmd d).run w = .error (.engine sub) t →
        Does s (.engineCommandCommit c k n) (s.faultCmd c k n d sub)) ∧
      (∀ sub, k < 6 → d.last = false → (s.ctx c).losing = false →
        let y := ((s.faultCmd c k n d sub).ctx c).stream k
        y.started = ((s.ctx c).stream k).started.eraseIdx n ∧ y.queue = [] ∧ y.stopped = true ∧
          y.fault = ((s.ctx c).stream k).fault.or (some { code := engineCode sub, sub := sub, off := d.off })))

/-- R100, R146, R160, R353, R354, R358: a stalled QK or SV that may read its entry loads it once its column's beats have crossed; until then
they stand in the column's FIFO. What it and a REPAIR read at a home is recalled first. A REPAIR takes the answer to its descriptor into the pages, and moves the frontier of a finished
block on, at the last layer once its column takes the marks (R160, R386); one that a pre-emption has stopped takes no step (R370). A collective that every rank has reached has its result, reduced in rank order. -/
def Obligations.AttentionRepairEvents : Prop :=
  ∀ (s : State) (c n p tag : Nat) (d : Cmd),
    let w : State := { s with cur := c, curK := 0 }
    (s.startedCmd c 0 n = some d → (s.ctx c).cancel = none →
      let goes := fun (t : State) (e : Cmd) => t.modStream c 0 fun x => { x with started := x.started.set n e }
      (∀ e rect left limit, (d.word = .qk ∨ d.word = .sv) → d.ents[d.prog]? = some e → (s.ctx c).lease = .held rect left limit →
        let stalls := w.attnBlocked w.myPart (nth d.ops 0).toNat (spanOf (nth d.ops 1)).1 (spanOf (nth d.ops 1)).2.1 e
        let lines := (chunkLines (d.word == .sv) e).drop d.sent
        (stalls = true → Does s (.attentionStallResume c n) s) ∧
        (stalls = false → w.beatPhase e.col = true →
          let w := if blocked (spanOf (nth d.ops 1)).1 e = true then
            w.seeList w.myPart (nth d.ops 0).toNat (spanOf (nth d.ops 1)).1 (spanOf (nth d.ops 1)).2.1 else w
          (w.crosses e.col = true →
            let u := w.pushBeats w.myPart e.col d.since lines
            let bs := ((u.col e.col).fifo.filter fun b => b.up && b.tag == d.since).flatMap fun b => bytesOfBV 64 b.data
            let r := (u.modCol e.col fun x => { x with fifo := [] }).loadEntry (d.word == .sv) e bs
            Does s (.attentionStallResume c n)
              (goes r.2 { d with sent := 0, prog := d.prog + 1, caps := d.caps ++ r.1.flatMap packVec })) ∧
          (w.crosses e.col = false →
            let now := lines.take (16 - (s.col e.col).fifo.length)
            (now ≠ [] → Does s (.attentionStallResume c n)
              (goes (w.pushBeats w.myPart e.col d.since now) { d with sent := d.sent + now.length })) ∧
            (now = [] → Does s (.attentionStallResume c n) s)))) ∧
      (d.word = .repair → (s.ctx c).preempt ≠ none → (s.ctx c).intrap = false →
        Does s (.repairAnswerTake c n) s ∧ Does s (.frontierAdvance c n) s) ∧
      (d.word = .repair → ((s.ctx c).preempt = none ∨ (s.ctx c).intrap = true) →
        (∀ e t, repairNext w d = .take → (stepRepair d).run w = .ok (some e) t →
          Does s (.repairAnswerTake c n) ((goes t e).afterRepair c d)) ∧
        (repairNext w d ≠ .take → Does s (.repairAnswerTake c n) s) ∧
        (∀ e, repairNext w d = .advance → d.ents[d.repair.block]? = some e → w.colGranted w.myPart e.col = true →
          let q := d.repair
          let v := if q.layer + 1 = w.reqLayers (repairOps d).1 then 255 else q.layer + 1
          let u := ((w.busSee w.myPart (repairReads e [])).seeProv w.myPart e.prov).advanceBlock w.myPart (repairOps d).1 e q.layer v
          let m := u.markBits w.myPart e &&& (2 ^ 64 - 1 - State.blockMask e)
          (v = 255 → e.col ∉ d.taken → ¬(w.crosses e.col = true ∧ w.beatPhase e.col = true) → Does s (.frontierAdvance c n) s) ∧
          ((v = 255 → e.col ∈ d.taken ∨ w.crosses e.col = true ∧ w.beatPhase e.col = true) →
          Does s (.frontierAdvance c n) ((goes (if v = 255 then u.setMarks w.myPart e m (u.measBits w.myPart e) else u)
            { d with taken := [], repair :=
                { q with progress := assocSet q.progress q.block v, block := q.block + 1, token := 0, asked := false } })
              |>.afterRepair c d))) ∧
        (repairNext w d ≠ .advance → Does s (.frontierAdvance c n) s))) ∧
    (let x := s.collective p tag
     x.result = none → x.parts ≠ [] →
     (x.parts.length = bitsOf x.op.toNat 24 8 + 1 →
       let ordered := x.parts.foldr insertRank []
       ∃ t r, exec (.reduceCollectiveComplete p tag) s = .next t ∧ t.collective p tag = { x with result := some r } ∧
         r.length = x.bytes / 4 * 4 ∧
         ∀ i, i < x.bytes / 4 → natOfBytes ((r.drop (4 * i)).take 4) =
           reduceElem (bitsOf x.op.toNat 3 0) (ordered.map fun y => natOfBytes ((y.data.drop (4 * i)).take 4)) % 2 ^ 32) ∧
     (x.parts.length ≠ bitsOf x.op.toNat 24 8 + 1 → Does s (.reduceCollectiveComplete p tag) s))

/-- Copy nodes, binds and pick-up. -/
def Obligations.LaunchEvents : Prop :=
  Claims.BindEvents ∧ Claims.PickUpEvents ∧ Claims.BlockLoads

/-- R121, R122, R149: the walkers take the clusters that wait in turn; the oldest waiting page of one is walked, and where a page is found
the cluster's TLB holds it. A shootdown request is taken once, and no TLB of the package then holds an entry of the partition that
overlaps its range; DONE takes REQ when every access through a removed entry has been performed, the copies that were under way
and the stores that open runs hold included. -/
def Claims.TranslationEvents : Prop :=
  ∀ (s : State) (clu p : Nat),
    (∀ q vpn super rest, s.nextWaiting = some clu → (s.cluster clu).waiting = (q, vpn, super) :: rest →
      let w := (s.dropWaiting clu).walkRead clu q (vpn * 4096)
      (∀ e, w.walk q super .load (vpn * 4096) = .error e → Does s (.pageWalk clu) w) ∧
      (∀ t path, w.walk q super .load (vpn * 4096) = .ok (t, path) → ∃ r, exec (.pageWalk clu) s = .next r ∧
        t ∈ (r.cluster clu).tlb ∧ (r.cluster clu).waiting = rest ∧ (∀ e ∈ path, e ∈ r.walkCache) ∧
        r.walkNext = (clu + 1) % 64 ∧ r.mem = w.mem)) ∧
    (s.nextWaiting ≠ some clu → Does s (.pageWalk clu) s) ∧
    (∀ c, s.nextWaiting = some c → ∃ i, i < 64 ∧ c = (s.walkNext + i) % 64 ∧ (s.cluster c).waiting ≠ [] ∧
      ∀ j, j < i → (s.cluster ((s.walkNext + j) % 64)).waiting = []) ∧
    ((s.part p).shootdown = none → s.shootReq p ≠ s.shootDone p →
      let va := bitsOf (s.tget (tdAddr p + 32) 8) 56 12 * 4096
      let cnt := s.tget (tdAddr p + 40) 8
      ∃ t d, exec (.shootdownRequest p) s = .next t ∧ (t.part p).shootdown = some d ∧ d.va = va ∧ d.cnt = cnt ∧
        d.req = s.shootReq p ∧ d.copies = s.copiesOver p va cnt ∧ (∀ n, ∀ e ∈ (t.core n).tlb, e.part = p → shotDown va cnt e.va e.size = false) ∧
        (∀ n, ∀ e ∈ (t.cluster n).tlb, e.part = p → shotDown va cnt e.va e.size = false) ∧ t.mem = s.mem) ∧
    (s.shootReq p = s.shootDone p → Does s (.shootdownRequest p) s) ∧
    (∀ d, (s.part p).shootdown = some d →
      (s.shootAwaits p d = true → Does s (.shootdownComplete p) s) ∧
      (s.shootAwaits p d = false → ∃ t, exec (.shootdownComplete p) s = .next t ∧ t.shootDone p = d.req % 2 ^ 32 ∧
        (t.part p).shootdown = none)) ∧
    ((s.part p).shootdown = none → Does s (.shootdownComplete p) s)

/-- R168, R177, R178, R191: a request slot goes from free to active where its fields are set, from active to retiring, and from
retiring to free once DRAIN is zero, with RUN and CTRBASE zero; a publish group is enabled with buffer A current where its ranges
pass, and disabled; a supervisor's store to a table does what the table allows, else it is a trap. -/
def Claims.TableEvents : Prop :=
  ∀ (s : State) (r g : Nat) (va val : Word) (size : Nat), r < 4096 → g < 256 →
    (s.reqState r = 0 → s.reqMaxblk r ≠ 0 → s.reqHeads r ≠ 0 → s.reqLayers r ≠ 0 → s.reqRoot r ≠ 0 →
      ∃ t, exec (.requestActivate r) s = .next t ∧ t.reqState r = 1 ∧ ∀ q, q < 4096 → q ≠ r → t.reqState q = s.reqState q) ∧
    (s.reqState r = 1 → ∃ t, exec (.requestRetire r) s = .next t ∧ t.reqState r = 2) ∧
    (s.reqState r ≠ 1 → Does s (.requestRetire r) s) ∧
    (s.reqState r = 2 → s.reqDrain r = 0 → ∃ t, exec (.requestSlotFree r) s = .next t ∧ t.reqState r = 0 ∧ t.reqRun r = 0 ∧
      t.reqCtrBase r = 0 ∧ t.reqCtr r = s.reqCtr r) ∧
    (s.reqDrain r ≠ 0 → Does s (.requestSlotFree r) s) ∧
    (s.grpValid g = false → s.groupOk g (s.tget (grpAddr g) 32) = true → ∃ t, exec (.publishGroupEnable g) s = .next t ∧
      t.grpValid g = true ∧ t.grpCur g = false ∧ t.grpDom g = s.grpDom g ∧ t.grpVis g = s.grpVis g) ∧
    (s.grpValid g = true → ∃ t, exec (.publishGroupDisable g) s = .next t ∧ t.grpValid g = false ∧
      t.grpCur g = s.grpCur g ∧ t.grpDom g = s.grpDom g) ∧
    (s.me.running.isSome = true → (size = 1 ∨ size = 2 ∨ size = 4 ∨ size = 8) →
      let traps := fun (code : Byte) => Does s (.deviceTableStore va size val) (s.enterTrap s.cur (trapOf code va 0) s.me.pc)
      (va.toNat % size ≠ 0 → traps 0x08) ∧
      (va.toNat % size = 0 → (∀ e, s.vPa s.me.partNo s.me.priv .store va.toNat = .error e → traps e) ∧
        (∀ t path n, s.me.priv = false → s.walk s.me.partNo false .store va.toNat = .ok (t, path) →
          region (t.access va.toNat).pa = .table n → traps 0x0A) ∧
        (∀ a n, s.vPa s.me.partNo true .store va.toNat = .ok a → region a.pa = .table n → s.me.priv = true →
          (∀ t, s.tableStore s.me.partNo a.pa size val.toNat = some t → Does s (.deviceTableStore va size val) t) ∧
          (s.tableStore s.me.partNo a.pa size val.toNat = none → traps 0x0A))))

/-- R384, R385, R388, R389, Table 14-3: a sample replaces a column's reading, trips it at 105 degrees and frees it at 103, and moves a
comparator that has held its state for 10 µs; a failing sample sets FAIL and keeps the reading. The dealer answers the hot state
once with CADENCE + 2, at most 16, and goes back by one where no column of the row has been hot for 100 µs; an alarm doubles
CADENCE of both grid rows, at most 16. -/
def Obligations.SensorEvents : Prop :=
  ∀ (s : State) (col clu : Nat) (v : BitVec 16),
    let x := s.col col
    let r := rowOfCol col
    let cad := fun (t : State) (r : Nat) => (t.gridRow r).cadence.toNat
    (∃ t, exec (.sensorSample col v true) s = .next t ∧ (t.col col).temp = v ∧ (t.col col).fail = false ∧
      (t.col col).trip = (if 0x690 ≤ v.toInt then true else if v.toInt ≤ 0x670 then false else x.trip) ∧
      (t.col col).comp = (if x.compAt + 10000 ≤ s.now then
        match x.comp with
        | .normal => if s.hiOf col ≤ v.toInt then .hot else if v.toInt ≤ s.loOf col then .cold else .normal
        | .hot => if v.toInt ≤ s.hiOf col - 0x20 then .normal else .hot
        | .cold => if s.loOf col + 0x20 ≤ v.toInt then .normal else .cold
        else x.comp)) ∧
    (∃ t, exec (.sensorSample col v false) s = .next t ∧ (t.col col).temp = x.temp ∧ (t.col col).fail = true ∧
      (t.col col).trip = x.trip ∧ (t.col col).comp = x.comp) ∧
    (s.supplyBad = false →
      (x.comp = .hot → x.raised = false → ∃ t, exec (.hotColumnCadenceRaise col) s = .next t ∧
        cad t r = min 16 (cad s r + 2) ∧ (t.col col).raised = true ∧ ∀ q, q ≠ r → cad t q = cad s q) ∧
      (∀ b, (s.gridRow r).hotBase = some b → b < cad s r → (∀ i, i < 32 → (s.col (r * 32 + i)).comp ≠ .hot) →
        (s.gridRow r).stepAt + 100000 ≤ s.now →
        ∃ t, exec (.cadenceStepDown col) s = .next t ∧ cad t r = cad s r - 1 ∧ ∀ q, q ≠ r → cad t q = cad s q) ∧
      ((s.cluster clu).alarm = false → ∃ t, exec (.currentAlarm clu) s = .next t ∧ (t.cluster clu).alarm = true ∧
        (∀ q, q = clu * 2 ∨ q = clu * 2 + 1 → cad t q = min 16 (2 * cad s q)) ∧
        ∀ q, q ≠ clu * 2 → q ≠ clu * 2 + 1 → cad t q = cad s q)) ∧
    (x.comp ≠ .hot → Does s (.hotColumnCadenceRaise col) s) ∧
    ((s.cluster clu).alarm = true →
      Does s (.currentAlarmCleared clu) (s.modCluster clu fun y => { y with alarm := false, alarmAt := s.now }))

/-- R93, R214, R382, R384, R386, R389: a write of RAIL.SEL starts a switch, which its completion ends with the phases counted afresh; a write while
BUSY, or of the value that stands, changes nothing; package power above the limit moves the hottest cluster on the high rail to the low one, one every 10 µs (the
hottest is the one with the highest reading among those on the high rail, log 24). While a supply is outside its limits none of these
writes moves a rail (R399). PHASE.CTL takes a value
whose reserved bits are zero and whose period fits, and its domains count phases of PERIOD cycles. A dealer's write out of a
register's range is refused; one of a column's error threshold, 1 to 65,535, sets it. -/
def Claims.PowerEvents : Prop :=
  ∀ (s : State) (clu stk i : Nat) (low : Bool) (v : Word),
    let x := s.cluster clu
    (s.supplyBad = false → x.busy = false → x.low ≠ low →
      Does s (.railSwitch clu low) (s.modCluster clu fun y => { y with low := low, busy := true })) ∧
    (s.supplyBad = true ∨ x.busy = true ∨ x.low = low → Does s (.railSwitch clu low) s) ∧
    (x.low = false → s.powerLimit ≠ 0 →
      (s.supplyBad = false → x.busy = false → (∀ d, d < 64 → (s.cluster d).low = false → s.heatOf d ≤ s.heatOf clu) →
        (∀ t, s.powerAt = some t → t + 10000 ≤ s.now) → Does s (.packagePowerOverLimit clu)
          { s.modCluster clu fun y => { y with low := true, busy := true } with powerAt := some s.now }) ∧
      (∀ d, d < 64 → (s.cluster d).low = false → s.heatOf clu < s.heatOf d → Does s (.packagePowerOverLimit clu) s) ∧
      (∀ t, s.powerAt = some t → s.now < t + 10000 → Does s (.packagePowerOverLimit clu) s)) ∧
    (x.busy = true → ∃ t, exec (.railSwitchComplete clu) s = .next t ∧ (t.cluster clu).busy = false ∧
      (t.cluster clu).low = x.low ∧ (t.cluster clu).phases = 0 ∧ (t.cluster clu).phaseAt = s.now) ∧
    (v &&& ~~~0xFFFF000C = 0 → (v.extractLsb' 2 2 = 0 ∨ v.extractLsb' 16 16 ≠ 0) →
      ∃ t, exec (.phaseCtlWrite stk v) s = .next t ∧ (t.stack stk).phaseCtl = v ∧
        ∀ q, q < 16 → (t.cluster (stk * 16 + q)).phases = 0 ∧ (t.cluster (stk * 16 + q)).phaseAt = s.now) ∧
    (v &&& ~~~0xFFFF000C ≠ 0 → Does s (.phaseCtlWrite stk v) s) ∧
    (let period := ((s.stack (clu / 16)).phaseCtl.extractLsb' 16 16).toNat
     period ≠ 0 → x.busy = false →
     ((x.phases + 1) * period ≤ s.phaseCycles clu →
       Does s (.phaseBoundary clu) (s.modCluster clu fun y => { y with phases := y.phases + 1 })) ∧
     (s.phaseCycles clu < (x.phases + 1) * period → Does s (.phaseBoundary clu) s)) ∧
    (i < 128 → ∀ num : BitVec 15, num.toNat = 0x1000 + i → s.supplyBad = false →
      (1 ≤ v.toNat → v.toNat ≤ 16 → ∃ t, exec (.dealerRegisterWrite (.special num) v) s = .next t ∧
        (t.gridRow i).cadence = v) ∧
      ((v = 0 ∨ 16 < v.toNat) → Does s (.dealerRegisterWrite (.special num) v) s)) ∧
    (1 ≤ v.toNat → v.toNat ≤ 65535 →
      Does s (.dealerRegisterWrite (.beatThreshold i) v) (s.modCol i fun y => { y with thresh := v.toNat })) ∧
    ((v = 0 ∨ 65535 < v.toNat) → Does s (.dealerRegisterWrite (.beatThreshold i) v) s)

/-- Every event queue of power and heat that is enabled has its ring outside the device tables, so that a record changes no table. -/
def QueuesApart (s : State) : Prop :=
  ∀ p k, p < 64 → k < 2 ^ 16 → bitOf (s.tget (eqAddr p 0) 8) 0 = true →
    let a := canon (bitsOf (s.tget (eqAddr p 0) 8) 51 6 * 64 + k * 32)
    a + 64 ≤ tblBase ∨ tblBase + 2 ^ 32 ≤ a

/-- R93, R188 to R190, R290, R390 to R396, Tables 14-5 and 14-6: the share, floor and valve of a wet zone; the answer to a coolant
request; a valve that reports another position than it was given 5 ms before evacuates its zone. An evacuation moves a wet or filling
zone to state 3, purges it once its columns are idle or 20 µs have passed, closes its valve for 2 ms, purges for 50 ms, and leaves it
dry with share 0 after 100 µs; a refill that waits for that begins then. One that takes 200 ms is reported as failed, a later confirmation ends it. A refill opens the valve
of a dry owned zone, waits 1 ms for liquid, sets the valve to its share, and ends wet where every sensor reads below THERM.HI; a step
that exceeds its bound ends it in another evacuation. That steps 5 and 6 last exactly their 2 and 50 ms, when a step begins, and that the
dealer's write of an entry is one event are the model's readings, and the report number 1000 + z of a zone that fails is the model's own
(log 24). It is told where no enabled event queue has its ring in the device tables. -/
def Obligations.CoolantEvents : Prop :=
  ∀ (s : State) (z : Nat) (share floor give : Byte) (pos : BitVec 4), z < 256 → QueuesApart s →
    let st := s.coolState z
    let x := s.zone z
    let valve := fun (n : Nat) => min 15 ((15 * n + 7) / 8)
    let late := x.stepAt + (if x.step = 3 then 40000000 else if x.step = 5 then 1000000 else 2000000) < s.now
    (st = 2 → s.shareFits z share.toNat = true → (floor ≤ share ∨ s.zoneWorks z = false) →
      ∃ t, exec (.valveWrite z ⟨share, floor⟩) s = .next t ∧ t.coolShare z = share.toNat ∧ t.coolFloor z = floor.toNat ∧
        (t.zone z).valve.toNat = valve share.toNat ∧ t.coolState z = 2) ∧
    (st ≠ 2 ∨ s.shareFits z share.toNat = false ∨ (share < floor ∧ s.zoneWorks z = true) →
      Does s (.valveWrite z ⟨share, floor⟩) s) ∧
    (x.flow = none → Does s (.flowRequestAnswer z give) s) ∧
    (∀ p want ph, x.flow = some (p, want, ph) → p < 64 → want < 256 → st = 2 →
      let aim := min want give.toNat
      s.coolShare z < aim → s.shareFits z aim = true → s.coolFloor z ≤ aim →
      ∃ t, exec (.flowRequestAnswer z give) s = .next t ∧ t.coolShare z = aim ∧ (t.zone z).valve.toNat = valve aim) ∧
    (x.valve.toNat ≠ pos.toNat → x.setAt + 5000000 ≤ s.now → (st = 1 ∨ st = 2) →
      ∃ t, exec (.valveReportMismatch z pos) s = .next t ∧ t.coolState z = 3 ∧ (t.zone z).step = 2) ∧
    (x.valve.toNat = pos.toNat ∨ s.now < x.setAt + 5000000 → Does s (.valveReportMismatch z pos) s) ∧
    (st = 1 ∨ st = 2 →
      ∃ t, exec (.evacuationStart z) s = .next t ∧ t.coolState z = 3 ∧ (t.zone z).step = 2 ∧ (t.zone z).stepAt = s.now) ∧
    (st = 3 → x.step = 2 →
      (s.zoneBusy z = false → ∃ t, exec (.evacuationStart z) s = .next t ∧ (t.zone z).step = 5 ∧ (t.zone z).valve = 0 ∧
        (t.zone z).fence = true) ∧
      (s.zoneBusy z = true → Does s (.evacuationStart z) s) ∧
      (s.now < x.stepAt + 20000 → Does s (.evacuationCommitTimeout z) s) ∧
      (x.stepAt + 20000 ≤ s.now → ∃ t, exec (.evacuationCommitTimeout z) s = .next t ∧ (t.zone z).step = 5 ∧
        (t.zone z).valve = 0 ∧ (t.zone z).fence = true)) ∧
    (st = 3 → x.step = 5 ∨ x.step = 6 →
      let lasts := if x.step = 5 then 2000000 else 50000000
      (x.stepAt + lasts ≤ s.now → Does s (.evacuationStart z)
        (s.modZone z fun y => { y with step := x.step + 1, stepAt := x.stepAt + lasts })) ∧
      (s.now < x.stepAt + lasts → Does s (.evacuationStart z) s)) ∧
    (st = 3 → x.step = 7 →
      (x.failed = false → x.stepAt + 200000000 < s.now → ∃ t, exec (.evacuationDry z) s = .next t ∧ t.coolState z = 3 ∧
        (t.zone z).failed = true ∧ t.mgmt = s.mgmt ++ [1000 + z]) ∧
      ((x.failed = true ∨ s.now ≤ x.stepAt + 200000000) → x.stepAt + 100000 ≤ s.now → x.wants = none →
        ∃ t, exec (.evacuationDry z) s = .next t ∧ t.coolState z = 0 ∧ t.coolShare z = 0 ∧ (t.zone z).step = 0) ∧
      ((x.failed = true ∨ s.now ≤ x.stepAt + 200000000) → x.stepAt + 100000 ≤ s.now → x.wants = some (share.toNat, floor.toNat) → s.coolOwned z = true →
        s.shareFits z share.toNat = true → ∃ t, exec (.evacuationDry z) s = .next t ∧ t.coolState z = 1 ∧
          t.coolShare z = share.toNat ∧ (t.zone z).wants = none ∧ (t.zone z).step = 2) ∧
      (s.now < x.stepAt + 100000 → Does s (.evacuationDry z) s) ∧
      (x.failed = false → x.stepAt + 200000000 ≤ s.now → Does s (.evacuationFailed z)
        { s.modZone z fun y => { y with failed := true } with mgmt := s.mgmt ++ [1000 + z] }) ∧
      (s.now < x.stepAt + 200000000 → Does s (.evacuationFailed z) s)) ∧
    (st = 0 → s.coolOwned z = true → s.shareFits z share.toNat = true →
      ∃ t, exec (.refillStart z share floor) s = .next t ∧ t.coolState z = 1 ∧ t.coolShare z = share.toNat ∧
        t.coolFloor z = floor.toNat ∧ (t.zone z).valve = 15 ∧ (t.zone z).step = 2 ∧ (t.zone z).stepAt = s.now) ∧
    (st = 3 → Does s (.refillStart z share floor) (s.modZone z fun y => { y with wants := some (share.toNat, floor.toNat) })) ∧
    (st = 1 →
      let goes := fun (n v : Nat) => ∃ t, exec (.refillComplete z) s = .next t ∧ t.coolState z = 1 ∧ (t.zone z).step = n ∧
        (t.zone z).stepAt = s.now ∧ (t.zone z).valve.toNat = v
      (¬ late →
        (x.step = 2 → goes 3 x.valve.toNat) ∧
        (x.step = 3 → x.stepAt + 1000000 ≤ s.now → goes 4 (valve (s.coolShare z))) ∧
        (x.step = 3 → s.now < x.stepAt + 1000000 → Does s (.refillComplete z) s) ∧
        (x.step = 4 → goes 5 x.valve.toNat) ∧
        (x.step = 5 → (∀ c ∈ colsOfZone z, (s.col c).temp.toInt < s.hiOf c) → ∃ t, exec (.refillComplete z) s = .next t ∧
          t.coolState z = 2 ∧ (t.zone z).fence = false ∧ (t.zone z).step = 0) ∧
        (x.step = 5 → (∃ c ∈ colsOfZone z, s.hiOf c ≤ (s.col c).temp.toInt) → Does s (.refillComplete z) s) ∧
        Does s (.refillFail z) s) ∧
      (late →
        (∃ t, exec (.refillComplete z) s = .next t ∧ t.coolState z = 3 ∧ (t.zone z).step = 2) ∧
        ∃ t, exec (.refillFail z) s = .next t ∧ t.coolState z = 3 ∧ (t.zone z).step = 2))

/-- R399: where a supply leaves its limits, every domain goes to the low rail and every grid row to CADENCE 16, and the dealer
reports it; on its return, rails and CADENCE are asked for as they were. That they go back to their earlier values, and the number 1 of the report,
are the model's own (log 24). -/
def Claims.SupplyEvents : Prop :=
  ∀ (s : State),
    (s.supplyBad = false → ∃ t, exec .supplyOutOfLimits s = .next t ∧ t.supplyBad = true ∧ t.mgmt = s.mgmt ++ [1] ∧
      (∀ c, c < 64 → (t.cluster c).low = true ∧ (t.cluster c).held = some (s.cluster c).low) ∧
      (∀ r, r < 128 → (t.gridRow r).cadence.toNat = 16 ∧ (t.gridRow r).held = some (s.gridRow r).cadence)) ∧
    (s.supplyBad = true → Does s .supplyOutOfLimits s) ∧
    (s.supplyBad = true → ∃ t, exec .supplyReturn s = .next t ∧ t.supplyBad = false ∧
      (∀ c low, c < 64 → (s.cluster c).held = some low → (t.cluster c).low = low ∧ (t.cluster c).held = none) ∧
      (∀ r v, r < 128 → (s.gridRow r).held = some v → (t.gridRow r).cadence = v ∧ (t.gridRow r).held = none)) ∧
    (s.supplyBad = false → Does s .supplyReturn s)

/-- Page walks and shootdowns, and what the supervisor's tables do. -/
def Obligations.TranslationAndTableEvents : Prop :=
  Claims.TranslationEvents ∧ Claims.TableEvents

/-- Rails, phases, the dealer's registers and the supply. -/
def Obligations.PowerAndSupplyEvents : Prop :=
  Claims.PowerEvents ∧ Claims.SupplyEvents

/-- R16, R21, R146, R214, R377, R397, R398: a corrected beat counts up to 65,535 and marks the bus at the threshold. The test of a
marked bus at a boundary clears the count and the mark and gives each failing lane a spare; where it repairs nothing an event says so,
and where the spares do not suffice the column is fenced. Where the boundary does not come within 100 ms, the owners are pre-empted.
Fencing a column aborts the commands that use it; a free kitty of its row stands in for it, its latches loaded again and its
blocks stale, and without one, or where a latch cannot be loaded again, the column is lost. That event 0x22 names the fenced column's own position, and which blocks
become stale, are the model's readings (log 23). -/
def Claims.ColumnEvents : Prop :=
  ∀ (s : State) (col : Nat) (failing : List Nat),
    let x := s.col col
    let n := min 65535 (x.corr + 1)
    Does s (.correctedBeat col) (s.modCol col fun y =>
      { y with corr := n, markedAt := if x.thresh ≤ n then x.markedAt.or (some s.now) else x.markedAt }) ∧
    (x.markedAt = none ∨ s.atBoundary col = false → Does s (.busTest col failing) s) ∧
    (x.markedAt.isSome = true → s.atBoundary col = true →
      let new := failing.eraseDups.filter fun l => decide (l < 592)
      let test := s.modCol col fun y => { y with corr := 0, markedAt := none }
      let fixed := new.take (16 - x.lanes.length)
      let told := fixed.foldl (fun (t : State) l => t.columnEvent 1 0x26 0 col l)
        (s.modCol col fun y => { y with corr := 0, markedAt := none, lanes := x.lanes ++ fixed })
      let told := if fixed = [] then told.columnEvent 1 0x26 0 col 0xFFFFFFFF else told
      (new = [] → Does s (.busTest col failing) (test.columnEvent 1 0x26 0 col 0xFFFFFFFF)) ∧
      (new.length ≤ 16 - x.lanes.length → Does s (.busTest col failing) told) ∧
      (16 - x.lanes.length < new.length → Does s (.busTest col failing) (told.fenceColumn col [])) ∧
      (told.col col).corr = 0 ∧ (told.col col).markedAt = none ∧ (told.col col).lanes = x.lanes ++ fixed ∧
      (told.col col).lost = x.lost ∧ (told.col col).front = x.front ∧ (told.col col).back = x.back ∧
      ∀ c, c ≠ col → (told.col c).corr = (s.col c).corr ∧ (told.col c).markedAt = (s.col c).markedAt ∧
        (told.col c).lanes = (s.col c).lanes ∧ (told.col c).lost = (s.col c).lost) ∧
    (∀ m, x.markedAt = some m →
      (m + 100000000 ≤ s.now → ∃ t, exec (.busTestDeadline col) s = .next t ∧ t.mem = s.mem ∧
        ∀ c, t.ctx c = if c ∈ s.ownersOf col then { s.ctx c with preempt := (s.ctx c).preempt.or (some s.now) } else s.ctx c) ∧
      (s.now < m + 100000000 → Does s (.busTestDeadline col) s)) ∧
    (x.markedAt = none → Does s (.busTestDeadline col) s) ∧
    (x.lost = true → Does s (.columnFence col) s) ∧
    (x.lost = false →
      let u := s.abortOn 6 [col]
      (s.kittyFree col = true → x.frontRec.changed = false → x.backRec.changed = false →
        (∃ t, exec (.columnFence col) s = .next t ∧ (t.col col).kitty = true ∧ (t.col col).lost = false ∧ (t.col col).corr = 0 ∧
          (t.col col).markedAt = none ∧ (t.col col).lanes = [] ∧ (t.gridRow (rowOfCol col)).kittyUsed = true) ∧
        Does s (.columnFence col) (((((u.modCol col fun y =>
            { y with kitty := true, corr := 0, markedAt := none, lanes := [] }).modGridRow (rowOfCol col) fun g =>
              { g with kittyUsed := true }).reloadTile col).staleColumn col).columnEvent 1 0x22 0 col (u.physical col))) ∧
      (s.kittyFree col = false ∨ x.frontRec.changed = true ∨ x.backRec.changed = true →
        Does s (.columnFence col) (u.loseColumn col) ∧ ((u.loseColumn col).col col).lost = true))

/-- R21: where a column is lost, the lease that a stream holds over it ends at once, or at the boundary of its stream's commands where
one that needs it runs; every stream that asks for a rectangle over it has the request marked lost, and a parked lease over it goes. -/
def Claims.LostColumns : Prop :=
  ∀ (s : State) (col c p rect : Nat), p < 64 → (s.ctx c).partNo = p → (s.part p).isOpen = true → col ∈ s.rectColumns p rect →
    (∀ l m, (s.ctx c).lease = .held rect l m → s.leaseHeld p rect = true → rect < 256 →
      (∀ e ∈ s.leaseHolders p rect, e.2.losing = false) →
      let x := (s.loseColumn col).ctx c
      if ((s.ctx c).stream 0).started.any needsLease then x.lease = .held rect l m ∧ x.losing = true else x.lease = .lost rect) ∧
    (∀ n, (s.ctx c).lease = .requested rect n → (∃ r ∈ (s.part p).reqs, r.rect = rect) →
      ((s.loseColumn col).ctx c).lease = .lost rect) ∧
    (s.leaseHeld p rect = true → rect < 256 → s.leaseHolders p rect = [] →
      ∀ k ∈ ((s.loseColumn col).part p).parked, k.rect ≠ rect)

/-- R172, R204, R206, R378, R379, R407: an uncorrectable error in a started command is reported, and the command aborted and replayed;
in a load from memory it keeps the register pending; the third recurrence fences the column, and the load or command then completes from the
refilled data. One in dirty data drops the line in its cluster and cancels the launches of its partition there with ERR. A fenced
core's contexts run no unit and its scratchpad, instruction buffer, TLB and barriers are empty; on its return its slots are free. A
link that goes down, of this package or between two others, is down; the leases whose rectangles cross it are lost at their boundaries and the
requests for one at once, and who waits on a barrier to which no route remains has lost it. That an error on a load gives no event before its retries are spent, which bytes the
load then completes with, and what becomes of the dropped dirty line are the model's readings (log 23); that the events of kind 0x24 have all
ones as LAUNCH is its choice (log 28), and which links a way and a rectangle take its reading (log 18). -/
def Obligations.FailureEvents : Prop :=
  ∀ (s : State) (c k n clu col core edge : Nat) (addr : Word),
    let pa := canon addr.toNat
    let fenced := s.fenceColumn col [pa / 64]
    (∀ w, (s.ctx c).wq.find? (s.fromMemory c) = some w →
      (w.tries < 3 → Does s (.uncorrectableError (.load c) col addr) (s.modCtx c fun x =>
        { x with wq := x.wq.map fun e => if e = w then { e with tries := e.tries + 1 } else e })) ∧
      (3 ≤ w.tries → Does s (.uncorrectableError (.load c) col addr) (fenced.modCtx c fun x =>
        { x with wq := x.wq.map fun e => if e = w then fenced.refilled s c w else e }))) ∧
    ((s.ctx c).wq.find? (s.fromMemory c) = none → Does s (.uncorrectableError (.load c) col addr) s) ∧
    (∀ d, s.startedCmd c k n = some d →
      let told := s.columnEvent 1 0x24 0 col pa
      let up := fun (e : Cmd) => if e = d then { e with tries := e.tries + 1 } else e
      (d.tries < 3 → Does s (.uncorrectableError (.command c k n) col addr)
        ((told.modStream c k fun x => { x with started := x.started.map up }).requeue c k fun e => e == up d)) ∧
      (3 ≤ d.tries → Does s (.uncorrectableError (.command c k n) col addr) (told.fenceColumn col [pa / 64]))) ∧
    (s.startedCmd c k n = none → Does s (.uncorrectableError (.command c k n) col addr) s) ∧
    (s.dirtyOwner clu (pa / 64) = none → Does s (.uncorrectableError (.dirty clu) col addr) s) ∧
    (∀ p, s.dirtyOwner clu (pa / 64) = some p →
      let dropped := (List.range 8).foldl (fun t i => t.modCore (clu * 8 + i) (·.dropL1 (pa / 64)))
        (s.modCluster clu (·.dropSector (pa / 64)))
      let hit := s.launches.filter fun e => e.2.part == p && !e.2.complete &&
        e.2.ctxs.any fun c => s.boundTo c e.1 && clusterOf (coreOf c) == clu
      Does s (.uncorrectableError (.dirty clu) col addr)
        (((hit.map (·.1)).foldl State.cancelWithErr dropped).event p 1 0x24 0 0 col addr.toNat 0xFFFFFFFF)) ∧
    (core < 512 → s.coreFenced core = false → ∃ t, exec (.coreFence core) s = .next t ∧
      (∀ i, i < 4 → (t.ctx (core * 4 + i)).running = none ∧ (t.ctx (core * 4 + i)).msgq = []) ∧
      (t.core core).sp = [] ∧ (t.core core).ibuf = [] ∧ (t.core core).tlb = [] ∧ ∀ b, t.barrier s.pkg core b = {}) ∧
    (s.coreFenced core = true → Does s (.coreFence core) s) ∧
    (core < 512 →
      ((∀ i, i < 4 → s.slotState (core * 4 + i) = 4) → ∃ t, exec (.coreReturnToService core) s = .next t ∧
        ∀ i, i < 4 → t.slotState (core * 4 + i) = 0) ∧
      ((∀ i, i < 4 → s.slotState (core * 4 + i) ≠ 4) → Does s (.coreReturnToService core) s)) ∧
    (let q := (s.linkNo edge).1
     let d := (s.linkNo edge).2
     (s.linkUp q d = false → Does s (.linkDown edge) s) ∧
     (s.linkUp q d = true →
      let down := s.linkOff q d
      let over' := fun (p rect : Nat) => p < 64 ∧ (s.part p).isOpen = true ∧ s.rectSpans p rect q d = true
      (q = s.pkg → vget true down.links d = false ∧ (∀ e, e ≠ d → vget true down.links e = vget true s.links e) ∧
        down.farDown = s.farDown) ∧
      (q ≠ s.pkg → down.links = s.links ∧ ∃ b, beyond q d = some b ∧ down.farDown = s.farDown ++ [(min q b, d % 2 == 0)]) ∧
      down.linkUp q d = false ∧
      ∃ t, exec (.linkDown edge) s = .next t ∧ t.links = down.links ∧ t.farDown = down.farDown ∧
        (∀ x p rect l m, over' p rect → rect < 256 → (s.ctx x).partNo = p → (s.ctx x).lease = .held rect l m →
          s.leaseHeld p rect = true → (∀ e ∈ s.leaseHolders p rect, e.2.losing = false) →
          if ((s.ctx x).stream 0).started.any needsLease then (t.ctx x).losing = true else (t.ctx x).lease = .lost rect) ∧
        (∀ x p rect m, over' p rect → (s.ctx x).partNo = p → (s.ctx x).lease = .requested rect m →
          (∃ r ∈ (s.part p).reqs, r.rect = rect) → (t.ctx x).lease = .lost rect) ∧
        ∀ x o, (s.ctx x).barOn = some o → o / 512 ∈ s.peers → s.reaches (o / 512) = true → down.reaches (o / 512) = false →
          (t.ctx x).barLost = true))

/-- R103, R133, R164, R401, R402: a far request of a peer answers the number that it finds at the home and leaves what its operation
makes of it, after the recall of every copy that an L2 owns (for partition 0, log 28), and is not accepted where the far responses of its link have no room (R164; which link is a free choice, log 6); a host access through an HDM range reads or writes at the home,
in the spread view going on in the next column after 64 KiB (R97), and outside every range reads all ones; a host snoop of
an address in no window finds nothing. A GO while BUSY is set sets LOST, and the host clears DONE and LOST by ones. R388, R408: a
package reset leaves every register at its reset value, with the sensors' first samples, and keeps the host's memory; the
first step of the boot sequence that fails stops the package and is reported (the number is the model's own, log 4). -/
def Claims.HostEvents : Prop :=
  ∀ (s : State) (pa v : Word) (size : Nat) (key : Fin 128) (excl : Bool),
    (lowRangeOk pa.toNat size = false → ∀ op, Does s (.peerFarRequest op pa size key v) s) ∧
    (lowRangeOk pa.toNat size = true → (size = 4 ∨ size = 8) →
      let z : Width := if size = 8 then .d else .w
      let r := s.busRecall 0 pa.toNat size
      let old := r.cohNat key.val pa.toNat size
      let o : Word := BitVec.ofNat 64 old
      let edge := Config.choose s.tick 4 % 4
      let u : State := { r with farData := o, linkq := s.linkq ++ [(edge, .responses)], tick := s.tick + 1 }
      (32 ≤ s.linkq.count (edge, .responses) → ∀ op, Does s (.peerFarRequest op pa size key v) s) ∧
      (s.linkq.count (edge, .responses) < 32 →
      Does s (.peerFarRequest .load pa size key v) u ∧
      (let leaves := fun (op : FarOp) (new : Word) =>
         Does s (.peerFarRequest op pa size key v) (u.homeWrite key.val 0 pa.toNat (bytesOfNat size new.toNat))
       leaves .store v ∧ leaves .swap v ∧ leaves .add (o + v) ∧ leaves .and (o &&& v) ∧ leaves .or (o ||| v) ∧
       leaves .xor (o ^^^ v) ∧ leaves .min (minW (narrowS z o) (narrowS z v)) ∧ leaves .max (maxW (narrowS z o) (narrowS z v)) ∧
       leaves .minu (minuW (narrowU z o) (narrowU z v)) ∧ leaves .maxu (maxuW (narrowU z o) (narrowU z v)) ∧
       ∀ e, leaves (.cas e) (if narrowU z o = narrowU z e then v else o)))) ∧
    (s.hdmAt pa.toNat size = none → Does s (.hostHdmAccess pa size false v) { s with hdmData := BitVec.allOnes 64 } ∧
      Does s (.hostHdmAccess pa size true v) s) ∧
    (∀ w, s.hdmAt pa.toNat size = some w →
      let d := w.dev + (pa.toNat - w.host)
      let k := 65536 - d % 65536
      (size ≤ k →
        (let r := s.busRecall w.part (canon d) size
         Does s (.hostHdmAccess pa size false v) { r with hdmData := BitVec.ofNat 64 (r.cohNat w.key (canon d) size) }) ∧
        Does s (.hostHdmAccess pa size true v) (s.homeWrite w.key w.part (canon d) (bytesOfNat size v.toNat))) ∧
      (k < size →
        (let r := (s.busRecall w.part (canon d) k).busRecall w.part (canon (d + k)) (size - k)
         let low := r.cohNat w.key (canon d) k
         let high := r.cohNat w.key (canon (d + k)) (size - k)
         Does s (.hostHdmAccess pa size false v) { r with hdmData := BitVec.ofNat 64 (low + 2 ^ (8 * k) * high) }) ∧
        Does s (.hostHdmAccess pa size true v) ((s.homeWrite w.key w.part (canon d) ((bytesOfNat size v.toNat).take k)).homeWrite
          w.key w.part (canon (d + k)) ((bytesOfNat size v.toNat).drop k)))) ∧
    (s.farAddr pa.toNat = none → Does s (.hostSnoop pa excl) s) ∧
    (s.mbxStat.getLsbD 0 = true → Does s .mailboxGoLost { s with mbxStat := s.mbxStat ||| 4 }) ∧
    (s.mbxStat.getLsbD 0 = false → Does s .mailboxGoLost s) ∧
    Does s (.mailboxStatClear v) { s with mbxStat := s.mbxStat &&& ~~~(v &&& 6) } ∧
    ∃ t, exec .packageReset s = .next t ∧ t.host = s.host ∧ t.mem = [] ∧ t.ctxs = [] ∧ t.cores = [] ∧ t.parts = [] ∧
      t.clusters = [] ∧ t.stks = [] ∧ t.zones = [] ∧ t.timebase = 0 ∧ t.mbxCmd = 0 ∧ t.mbxGo = 0 ∧ t.mbxStat = 0 ∧
      (t.booted = true ↔ ∀ n, 1 ≤ n → n ≤ 6 → Config.bootStep n = true) ∧
      t.mgmt = (([1, 2, 3, 4, 5, 6].find? fun n => !Config.bootStep n).toList).map (2000 + ·) ∧
      (∀ r, (t.gridRow r).cadence = 1 ∧ (t.gridRow r).unusable = (s.gridRow r).unusable) ∧
      (∀ c, (∀ e ∈ s.sensors, e.1 ≠ c) → t.col c = {}) ∧
      ∀ a b c temp ok, c < 4096 → s.sensors = a ++ (c, temp, ok) :: b → (∀ e ∈ a ++ b, e.1 ≠ c) →
        t.col c = if ok then { temp := temp, trip := decide (0x690 ≤ temp.toInt) } else { fail := true }

/-- R164, R405, Tables 6-5 and 15-4: a link's turn sends the oldest entry of the first class of Table 6-5 that has one and keeps the
others in order; a link with nothing to send does nothing. A row of a rectangle that leaves the package enters the multicast of every
edge it crosses, and the chain of the east edge. A store that is performed at a peer's home enters the far requests. -/
def Claims.LinkQueues : Prop :=
  (∀ (s : State) (edge : Nat) (rest : List Turn), s.booted = true → s.agenda = .link edge :: rest →
    let prio := fun (c : LinkClass) => match c with
      | .sums => 1 | .rows => 2 | .responses => 3 | .requests => 4 | .collectives => (5 : Nat)
    (∀ a b c, s.linkq = a ++ (edge, c) :: b → (edge, c) ∉ a → (∀ d, prio d < prio c → (edge, d) ∉ s.linkq) →
      step s = .next { s with agenda := rest, linkq := a ++ b }) ∧
    ((∀ c, (edge, c) ∉ s.linkq) → step s = .next { s with agenda := rest })) ∧
  (∀ (s : State) (p rect n : Nat) (sums : Bool) (edge : Nat), edge < 4 →
    let t := s.sendRows p rect n sums
    (s.rectCrosses p rect edge = true → t.linkq.count (edge, .rows) = s.linkq.count (edge, .rows) + n) ∧
    (s.rectCrosses p rect edge = false → t.linkq.count (edge, .rows) = s.linkq.count (edge, .rows)) ∧
    t.linkq.count (1, .sums) = s.linkq.count (1, .sums) + (if sums = true ∧ s.rectCrosses p rect 1 = true then n else 0)) ∧
  ∀ (s : State) (c : Nat) (e : SqEntry) (p off : Nat), e.uncached = true → region e.pa = .peer p off →
    s.linkq.count (s.edgeTo p, .requests) < 32 →
    ∃ q : State, (s.performStore c e) = q.homeWriteLine e.key e.pa (bytesOfNat e.size e.val.toNat) ∧
      q.linkq = s.linkq ++ [(s.edgeTo p, .requests)]

/-- R204, R358: a barrier arrival of another package at a barrier with tag 7 counts where N and the tag agree, and a contribution of
another package enters its collective. R103: a snoop takes every copy of a line in a window away, or leaves it clean and shared. -/
def Claims.PeerEvents : Prop :=
  ∀ (s : State) (d pa tag op : Word) (p : Nat) (data : List Byte) (excl : Bool),
    (let b := BarDesc.ofWord d
     let x := s.barrier b.pkg b.core b.bar
     (b.tag = 7 → x.differs b.n b.tag = false →
       Does s (.peerCollectiveArrival (.barrier d)) (s.setBarrier b.pkg b.core b.bar (x.arrive b.n b.tag))) ∧
     ((b.tag ≠ 7 ∨ x.differs b.n b.tag = true) → Does s (.peerCollectiveArrival (.barrier d)) s)) ∧
    (let n := opBits tag 11 0
     let c := s.collective p n
     let o := op &&& 0x1FFFF0F
     let me : Contribution := { rank := opBits op 48 32, owner := none, data := data }
     opBits tag 14 12 = 7 → c.result = none →
     (c.parts = [] → Does s (.peerCollectiveArrival (.reduce p tag op data))
       (s.setCollective p n { op := o, bytes := data.length, route := 7, parts := [me], result := none })) ∧
     (c.parts ≠ [] → c.op = o → c.bytes = data.length → c.route = 7 → (∀ y ∈ c.parts, y.rank ≠ me.rank) →
       Does s (.peerCollectiveArrival (.reduce p tag op data)) (s.setCollective p n { c with parts := c.parts ++ [me] }))) ∧
    (∀ a, s.farAddr pa.toNat = some a → ∃ t, exec (.hostSnoop pa excl) s = .next t ∧
      ∀ k u, (t.cluster k).sector (a / 64) = some u → excl = false ∧ u.dirty = false ∧ u.excl = false)

/-- A host's command block at a host address, naming a partition and a command, in a booted package where no other command is in
progress. -/
def HostBlock (s : State) (a : Word) (code p : Nat) : Prop :=
  s.booted = true ∧ (s.mbxBusy = false ∨ s.mbxGo = a) ∧ blockField (s.host.nat (a.toNat / 64 * 64) 64) 0 1 = code ∧
    blockField (s.host.nat (a.toNat / 64 * 64) 64) 1 1 = p

/-- The state after a host's command has been performed and answered: its completion word stands in the block, DONE is set and BUSY
clear, and interrupt 0 is sent (R402). -/
def answered (a : Word) (r : Answer) : State :=
  { r.2.2 with host := r.2.2.host.putNat (a.toNat / 64 * 64 + 56) 8 (r.1 + r.2.1 * 256), mbxStat := r.2.2.mbxStat &&& ~~~1 ||| 2,
               msix := r.2.2.msix ++ [0] }

/-- R402, R404, R409 to R411: a host's block of a command is taken and answered; while another command is in progress, or before the
package has booted, nothing happens. A malformed one has status 1, and one for a partition that is not open, where the command wants it
open, status 2; the others do what the command says, and answer with its status and result. That a block is taken and answered in one
event is the model's reading (log 17). -/
def Claims.HostCommands : Prop :=
  ∀ (s : State) (a : Word) (p : Nat),
    let n := s.host.nat (a.toNat / 64 * 64) 64
    let taken : State := if s.mbxBusy = true then s else { s with mbxCmd := a &&& ~~~63, mbxGo := a }
    let does := fun (i : Instr) (r : Answer) => Does s i (answered a r)
    let named : List (Nat × (Nat → Bool) × Instr) :=
      [(2, State.partCloseOk, .partClose (.host a)), (3, State.jobSubmitOk, .jobSubmit (.host a)), (4, State.jobEndOk, .jobEnd (.host a)),
       (6, State.keyAddOk, .keyAdd (.host a)), (7, State.homecopyOk, .homecopy (.host a)), (8, State.monAssignOk, .monAssign (.host a)),
       (9, State.monReadOk, .monRead (.host a)), (10, State.statsOk, .stats (.host a))]
    let others : List (Nat × (Nat → Bool) × Instr) :=
      [(1, State.partOpenOk, .partOpen (.host a)), (5, State.rangeSetOk, .rangeSet (.host a)), (11, State.attestOk, .attest (.host a)),
       (12, State.powerLimitOk, .powerLimit (.host a))]
    (s.booted = false ∨ (s.mbxBusy = true ∧ s.mbxGo ≠ a) → ∀ e ∈ named ++ others, Does s e.2.2 s) ∧
    (∀ e ∈ named ++ others, HostBlock s a e.1 p → e.2.1 n = false → does e.2.2 (1, 0, taken)) ∧
    (∀ e ∈ named, HostBlock s a e.1 p → e.2.1 n = true →
      (64 ≤ p → does e.2.2 (1, 0, taken)) ∧ (p < 64 → (s.part p).isOpen = false → does e.2.2 (2, 0, taken))) ∧
    (p < 64 → (s.part p).isOpen = true →
      (HostBlock s a 2 p → State.partCloseOk n = true → does (.partClose (.host a)) (taken.closePart true p n)) ∧
      (HostBlock s a 3 p → State.jobSubmitOk n = true → does (.jobSubmit (.host a)) (taken.submitJob true p n)) ∧
      (HostBlock s a 4 p → State.jobEndOk n = true → does (.jobEnd (.host a)) (taken.cancelEndJob true p n)) ∧
      (HostBlock s a 6 p → State.keyAddOk n = true → does (.keyAdd (.host a)) (taken.addKey true p n)) ∧
      (HostBlock s a 7 p → State.homecopyOk n = true → does (.homecopy (.host a)) (taken.addCopy true p n)) ∧
      (HostBlock s a 8 p → State.monAssignOk n = true → does (.monAssign (.host a)) (taken.assignMonitor true p n)) ∧
      (HostBlock s a 9 p → State.monReadOk n = true → does (.monRead (.host a)) (taken.readMonitor true p n)) ∧
      (HostBlock s a 10 p → State.statsOk n = true → does (.stats (.host a)) (taken.readStats true p n))) ∧
    (HostBlock s a 1 p → State.partOpenOk n = true →
      (p < 64 → does (.partOpen (.host a)) (taken.openPart true p n)) ∧ (64 ≤ p → does (.partOpen (.host a)) (1, 0, taken))) ∧
    (HostBlock s a 5 p → State.rangeSetOk n = true →
      (blockField n 8 1 = 2 → p < 64 → does (.rangeSet (.host a))
        (if (s.part p).isOpen = true then taken.setRange true p n else (2, 0, taken))) ∧
      (blockField n 8 1 ≠ 2 → does (.rangeSet (.host a)) (if p = 0 then taken.setRange true p n else (1, 0, taken)))) ∧
    (HostBlock s a 11 p → State.attestOk n = true → does (.attest (.host a)) (taken.writeReport true p n)) ∧
    (HostBlock s a 12 p → State.powerLimitOk n = true →
      does (.powerLimit (.host a)) (if p = 0 then (0, 0, { taken with powerLimit := blockField n 8 4 }) else (1, 0, taken)))

/-- R10, R11, R211, R273, R404, R409: what the commands leave. PART.OPEN opens the partition with the grant of its descriptor, zeroes its
bank memory, clears its flags (R273) and leaves its registers and completion counters (no list of what changes them names it, R10);
PART.CLOSE leaves it closed; KEY.ADD adds a key, of which a partition has eight at most; MON.ASSIGN gives a granted source a
free monitor; JOB.END of an open job ends it at once, and has status 1 for a number that no open job has (both log 17). -/
def Obligations.CommandEffects : Prop :=
  ∀ (s : State) (p n : Nat),
    (∀ v r t, s.openPart true p n = (v, r, t) → v = 0 →
      (s.part p).isOpen = false ∧ (t.part p).isOpen = true ∧ (t.part p).leaseMax = (s.part p).leaseMax ∧
      (t.part p).thresh = (s.part p).thresh ∧ (t.part p).repairLayer = (s.part p).repairLayer ∧ (t.part p).modelId = (s.part p).modelId ∧
      (t.part p).counters = (s.part p).counters ∧ (t.part p).flags = 0 ∧
      (∀ a c off, lowRegion a = .bank c off → a < 2 ^ 39 → (t.part p).cols.getLsbD c = true → t.mem.nat a 1 = 0) ∧
      (t.part p).cols = BitVec.ofNat 4096 (s.host.nat (blockField n 8 8) 704) ∧
      (t.part p).cores = BitVec.ofNat 512 (blockField (s.host.nat (blockField n 8 8) 704) 512 64) ∧
      ∀ q, (s.part q).isOpen = true → q < 64 → (t.part p).cols &&& (s.part q).cols = 0 ∧ (t.part p).cores &&& (s.part q).cores = 0) ∧
    (s.closePart true p n).1 = 0 ∧ ((s.closePart true p n).2.2.part p).isOpen = false ∧
    ((s.part p).pubkeys.length < 8 → (s.addKey true p n).1 = 0 ∧ (s.addKey true p n).2.1 = (s.part p).pubkeys.length ∧
      ((s.addKey true p n).2.2.part p).pubkeys = (s.part p).pubkeys ++ [s.host.bytes (blockField n 8 8) 97]) ∧
    (8 ≤ (s.part p).pubkeys.length → s.addKey true p n = (2, 0, s)) ∧
    (s.sourceGranted p (blockField n 8 1) (blockField n 12 4) = false → s.assignMonitor true p n = (2, 0, s)) ∧
    (∀ m t, s.assignMonitor true p n = (0, m, t) →
      m / 64 = blockField n 9 1 ∧ ((assocGet ({} : Monitor) (s.stack (m / 64)).monitors (m % 64)).part = none) ∧
        ((assocGet ({} : Monitor) (t.stack (m / 64)).monitors (m % 64)).part = some p) ∧
        ((assocGet ({} : Monitor) (t.stack (m / 64)).monitors (m % 64)).samples = 0)) ∧
    (let j := blockField n 8 2
     (s.jobOpen p j = true → ((s.cancelEndJob true p n).2.2.job p j).isOpen = false ∧ (s.cancelEndJob true p n).1 = 0) ∧
     (s.jobOpen p j = false → s.cancelEndJob true p n = (1, 0, s)))

/-- R403, R410: a partition takes the block at HEAD of its command ring, advances HEAD and writes the completion word of the
block; a command that only the host may issue has status 2 there, a malformed one status 1, and an empty ring changes
nothing. -/
def Claims.RingCommands : Prop :=
  ∀ (s : State) (p : Nat),
    let x := s.part p
    let key := s.keydef p
    let tail := s.cohNat key (canon x.ring) 4
    let head := s.cohNat key (canon (x.ring + 4)) 4
    let at' := canon (x.ring + (64 + 64 * (head % x.ringN)))
    let n := s.cohNat key at' 64
    let next := s.homeWrite key p (canon (x.ring + 4)) (bytesOfNat 4 (head + 1))
    let does := fun (i : Instr) (r : Answer) =>
      Does s i (r.2.2.homeWrite key p (at' + 56) (bytesOfNat 8 (r.1 + r.2.1 * 256)))
    let allowed : List (Nat × (Nat → Bool) × Instr) :=
      [(7, State.homecopyOk, .homecopy (.ring p)), (8, State.monAssignOk, .monAssign (.ring p)), (9, State.monReadOk, .monRead (.ring p)),
       (10, State.statsOk, .stats (.ring p))]
    let hosts : List (Nat × Instr) :=
      [(1, .partOpen (.ring p)), (2, .partClose (.ring p)), (3, .jobSubmit (.ring p)), (4, .jobEnd (.ring p)), (5, .rangeSet (.ring p)),
       (6, .keyAdd (.ring p)), (11, .attest (.ring p)), (12, .powerLimit (.ring p))]
    (head = tail → (∀ e ∈ allowed, Does s e.2.2 s) ∧ ∀ e ∈ hosts, Does s e.2 s) ∧
    (s.booted = true → x.isOpen = true → head ≠ tail →
      (∀ e ∈ allowed, blockField n 0 1 = e.1 → e.2.1 n = false → does e.2.2 (1, 0, next)) ∧
      (∀ e ∈ hosts, blockField n 0 1 = e.1 → does e.2 (2, 0, next)) ∧
      (blockField n 0 1 = 10 → State.statsOk n = true → does (.stats (.ring p)) (next.readStats false p n)) ∧
      (blockField n 0 1 = 9 → State.monReadOk n = true → does (.monRead (.ring p)) (next.readMonitor false p n)) ∧
      (blockField n 0 1 = 8 → State.monAssignOk n = true → does (.monAssign (.ring p)) (next.assignMonitor false p n)) ∧
      (blockField n 0 1 = 7 → State.homecopyOk n = true → does (.homecopy (.ring p)) (next.addCopy false p n)))

/-- Corrected beats, bus tests, and the fencing and the loss of columns. -/
def Obligations.ColumnContainment : Prop :=
  Claims.ColumnEvents ∧ Claims.LostColumns

/-- What the host and the other packages do at this package, and what it sends them. The list of sensors
with its default for a column that it does not name is the model's own (log 10), and the link queues hold what leaves the package
alone (log 27). -/
def Obligations.OutsideEvents : Prop :=
  Claims.HostEvents ∧ Claims.PeerEvents ∧ Claims.LinkQueues

/-- Commands of the mailbox and of the command rings. -/
def Obligations.CommandBlocks : Prop :=
  Claims.HostCommands ∧ Claims.RingCommands

/-! Commits of engine commands. -/

/-- No L2 owns a line of a range, so that a read of it at the home recalls nothing (R100, R112). -/
def Unowned (s : State) (pa n : Nat) : Prop :=
  ∀ l ∈ State.linesOf pa n, ∀ e ∈ s.clusters, ∀ t, e.2.sector l = some t → t.excl = false

/-- The started command `n` of a stream commits with a step that leaves `t`, and leaves the stream. -/
def Commits (s : State) (c k n : Nat) (d : Cmd) (t : State) : Prop := Does s (.engineCommandCommit c k n) (t.dropCmd c k n d)

/-- The started command `n` of a stream goes on as `e` after a step that leaves `t`. -/
def GoesOn (s : State) (c k n : Nat) (t : State) (e : Cmd) : Prop :=
  Does s (.engineCommandCommit c k n) (t.modStream c k fun x => { x with started := x.started.set n e })

/-- The started command `n` of a stream faults with a subcode, and nothing else of its step happens (R326). -/
def Faults (s : State) (c k n : Nat) (d : Cmd) (sub : Byte) : Prop :=
  Does s (.engineCommandCommit c k n) (s.faultCmd c k n d sub)

/-- The columns of a rectangle take a row now: none is tripped or changes rail, and every phase lets its array accept it (R382, R385 to
R387). The rectangle lies in this package. -/
def TakesRow (s : State) (p rect : Nat) : Prop :=
  s.injects (s.rectColumns p rect) = true ∧ (∀ a ∈ s.rectColumns p rect, s.arrayPhase a = true) ∧
    ∀ e, e < 4 → s.rectCrosses p rect e = false

/-- R336: a WLOAD fills the back latch of the next column of its rectangle from the tile image there, transposed with .T, once the beats
cross, and commits after the last. R25, R339: an MMA adds the rows of a tile into its working rows, each element one chain's sum, and
commits all of them as one event. R342: an XOUT copies rows to the window, or fills ring tiles, and with .H counts their FP32 elements. -/
def Claims.MatrixCommits : Prop :=
  (∀ (s : State) (c n rect left limit : Nat) (d : Cmd),
    s.startedCmd c 0 n = some d → (s.ctx c).cancel = none → (s.ctx c).lease = .held rect left limit →
    let w : State := { s with cur := c, curK := 0 }
    let p := w.myPart
    let core := w.myCore
    let cols := w.rectColumns p rect
    let op := fun (i : Nat) => nth d.ops i
    (∀ tr a, d.word = .wload tr → cols[d.prog]? = some a → d.sent = 0 →
      let off := opBits (op 0) 26 0
      let fmt := (op 1).toNat
      let pa := State.colPa a off
      let bandPa := State.colPa a (0x5FF0000 + 2 * opBits (op 0) 47 32)
      off % 64 = 0 → 1 ≤ fmt → fmt ≤ 5 → (s.col a).fifo = [] → w.crosses a = true → w.beatPhase a = true →
      Unowned w pa (tileBytes fmt) → Unowned w bandPa 2 →
      let bs := w.homeBytes (w.keydef p) pa (tileBytes fmt)
      ∃ u, (d.prog + 1 < cols.length → GoesOn s c 0 n u { d with prog := d.prog + 1 }) ∧
        (d.prog + 1 = cols.length → Commits s c 0 n d u) ∧
        (u.col a).back.fmt = BitVec.ofNat 4 fmt ∧
        (u.col a).back.band = (if fmt = 4 then BitVec.ofNat 16 (natOfBytes (w.homeBytes (w.keydef p) bandPa 2)) else 0x3F80) ∧
        (∀ i j, i < 64 → j < 64 →
          (u.col a).back.cell i j = if tr = true then imageCell fmt bs j i else imageCell fmt bs i j) ∧
        (u.col a).front = (s.col a).front ∧ (u.col a).fifo = [] ∧ (∀ b, b ≠ a → u.col b = s.col b) ∧
        u.mem = s.mem ∧ u.rows = s.rows ∧ u.cores = s.cores) ∧
    (∀ z, d.word = .mma z →
      let ring := (op 0).toNat
      let rows := (op 1).toNat
      let tab := (op 2).toNat == 1
      let acc := (op 3).toNat
      (d.ready = true → ∃ u, Commits s c 0 n d u ∧
        (∀ k, u.row k = if k ∈ w.slotKeys tab acc rows then s.workRow k else s.row k) ∧
        u.mem = s.mem ∧ u.cols = s.cols ∧ u.cores = s.cores) ∧
      (d.ready = false → d.taken = [] → mmaTiles (w.ring core ring) d = [] → w.ringTurn core consumedBy ring d.since = true →
        (w.ring core ring).occ ≠ 0 → TakesRow w p rect →
        let r := w.ring core ring
        let h := actRows (w.rectW p rect) r.format
        let first := d.prog * (r.tsize / h)
        let f := (Fmt.ofCode ((nth d.caps 0).setWidth 4)).getD .f32
        let tile := w.headTile core ring
        let added := (List.range (min (r.tsize / h) (rows - first))).foldl (fun (t : State) j =>
          t.mmaRow p rect f r.format (actElems (w.rectW p rect) r.format ((tile.drop (j * h)).take h))
            (w.slotKeys tab (acc + first + j) 1)) w
        GoesOn s c 0 n (added.ringTake core ring) { d with prog := d.prog + 1, ready := decide (rows ≤ first + r.tsize / h),
                                                           caps := d.caps ++ tile.flatMap wordsOfRow }))) ∧
  (∀ (s : State) (p rect : Nat) (f af : Fmt) (act keys : List Nat), keys.Nodup →
    let u := s.mmaRow p rect f af act keys
    (∀ i e v, keys[i]? = some e → v < 64 → rowElem 32 (u.workRow e).data v =
      sumAdd f (rowElem 32 (s.workRow e).data v) (chain f af (s.rowLatches p rect i) act v) % 2 ^ 32) ∧
    (∀ k, k ∉ keys → u.workRow k = s.workRow k) ∧ u.rows = s.rows ∧ u.cols = s.cols ∧ u.mem = s.mem) ∧
  (∀ (f af : Fmt) (ls : List Latch) (l : Latch) (act : List Nat) (v : Nat),
    chain f af [l] act v = tileSum l af (act.take 64) v ∧
    (ls ≠ [] → chain f af (ls ++ [l]) act v =
      sumAdd f (chain f af ls act v) (tileSum l af ((act.drop (64 * ls.length)).take 64) v))) ∧
  (∀ (s : State) (c n : Nat) (d : Cmd) (h : Bool),
    s.startedCmd c 0 n = some d → (s.ctx c).cancel = none → d.word = .xout h →
    let w : State := { s with cur := c, curK := 0 }
    let core := w.myCore
    let dst := opBits (nth d.ops 0) 3 0
    let at' := fun (i : Nat) => w.winKey (opBits (nth d.ops 0) 13 8 + i)
    let acc := accRow (nth d.ops 2)
    let keys := w.slotKeys acc.2 acc.1 (nth d.ops 1).toNat
    let counted := fun (u : State) => (u.ctx c).hist = (if h = true then ((s.ctx c).countRows (keys.map s.row)).hist else (s.ctx c).hist)
    (dst = 8 → ∃ u, Commits s c 0 n d u ∧ (∀ i k, keys[i]? = some k → u.row (at' i) = s.row k) ∧
      (∀ k, (∀ i, i < keys.length → k ≠ at' i) → u.row k = s.row k) ∧ counted u ∧ u.mem = s.mem ∧ u.cols = s.cols) ∧
    (dst < 8 → w.ringTurn core producedBy dst d.since = true → (w.ring core dst).occ < (w.ring core dst).tiles →
      let g := (w.ring core dst).tsize
      let part := ((keys.drop (d.prog * g)).take g).map fun k => (s.row k).data
      let given := w.ringGive core dst (part ++ List.replicate (g - part.length) 0)
      ((d.prog + 1) * g < keys.length → GoesOn s c 0 n given { d with prog := d.prog + 1 }) ∧
      (keys.length ≤ (d.prog + 1) * g → ∃ u, Commits s c 0 n d u ∧ counted u ∧ u.cores = given.cores ∧ u.rows = s.rows ∧ u.mem = s.mem)) ∧
    (dst = 9 → ∃ u, Commits s c 0 n d u ∧ (u.ctx c).hist = Vector.replicate 32 0 ∧
      u.row (w.winKey acc.1) = { data := rowOf 32 ((s.ctx c).hist.toList.map (·.toNat)), tag := Fmt.i32u.code, valid := true } ∧
      (∀ k, k ≠ w.winKey acc.1 → u.row k = s.row k) ∧ u.mem = s.mem)) ∧
  (∀ (x : Ctx) (rows : List SlotRow) (b : Fin 32),
    ((x.countRows rows).hist[b]).toNat = min (2 ^ 32 - 1) (x.hist[b].toNat +
      (((rows.filter fun r => r.tag == Fmt.f32.code).flatMap fun r => rowElems 32 64 r.data).filter fun e => histBin e == b.val).length))

/-- R79, R343: an ACKPT writes its rows, then their meta bytes, then zeros to a whole line; an ACLOAD gives rows what such an image holds, and
faults with subcode 0x08 on a malformed meta byte. -/
def Claims.CheckpointCommits : Prop :=
  ∀ (s : State) (c n : Nat) (d : Cmd), s.startedCmd c 0 n = some d → (s.ctx c).cancel = none →
    let w : State := { s with cur := c, curK := 0 }
    let core := w.myCore
    let acc := accRow (nth d.ops 1)
    let keys := w.slotKeys acc.2 acc.1 (nth d.ops 2).toNat
    let off := scratchOff (nth d.ops 0).toNat
    let sp := (s.core core).sp
    let meta' := fun (i : Nat) => (sp.get (off + 256 * keys.length + i)).toNat
    (d.word = .ackpt → ∃ u, Commits s c 0 n d u ∧
      (∀ i k, keys[i]? = some k → (u.core core).sp.nat (off + 256 * i) 256 = (s.row k).data.toNat ∧
        (u.core core).sp.get (off + 256 * keys.length + i) =
          BitVec.ofNat 8 ((s.row k).tag.toNat + if (s.row k).valid = true then 128 else 0)) ∧
      (∀ a, off + 257 * keys.length ≤ a → a < off + ckptSize keys.length → (u.core core).sp.get a = 0) ∧
      (∀ a, a < off ∨ off + ckptSize keys.length ≤ a → (u.core core).sp.get a = sp.get a) ∧
      (∀ m, m ≠ core → u.core m = s.core m) ∧ u.rows = s.rows ∧ u.mem = s.mem) ∧
    (d.word = .acload →
      ((∀ i, i < keys.length → meta' i / 16 % 8 = 0 ∧ meta' i % 16 < 9) → keys.Nodup → ∃ u, Commits s c 0 n d u ∧
        (∀ i k, keys[i]? = some k → u.row k =
          { data := BitVec.ofNat 2048 (sp.nat (off + 256 * i) 256), tag := BitVec.ofNat 4 (meta' i), valid := bitOf (meta' i) 7 }) ∧
        (∀ k, k ∉ keys → u.row k = s.row k) ∧ u.cores = s.cores ∧ u.mem = s.mem) ∧
      ((∃ i, i < keys.length ∧ ¬ (meta' i / 16 % 8 = 0 ∧ meta' i % 16 < 9)) → Faults s c 0 n d 0x08))

/-- R347 to R349, R355: a QK whose keys are loaded takes a tile and commits one row of scores for each query, −∞ beyond its tokens; an SV adds
the weighted sums of its values into two rows for each probability row. A DRAW takes the request's next count and puts the index that it draws, its
size, the uniform number and the count into its parameter row. -/
def Claims.AttentionCommits : Prop :=
  (∀ (s : State) (c n rect left limit : Nat) (d : Cmd),
    s.startedCmd c 0 n = some d → (s.ctx c).cancel = none → (s.ctx c).lease = .held rect left limit →
    let w : State := { s with cur := c, curK := 0 }
    let core := w.myCore
    let ring := (nth d.ops 2).toNat
    let acc := (accRow (nth d.ops 3)).1
    let vecs := unpackVecs (d.ents.map (·.count)).sum d.caps
    let tile := w.headTile core ring
    let taken := fun (u : State) => (u.ring core ring).head = ((w.ring core ring).head + 1) % 65536 ∧
      (u.ring core ring).tail = (w.ring core ring).tail ∧ u.mem = s.mem ∧ u.cols = s.cols
    d.ents[d.prog]? = none → d.taken = [] → w.ringTurn core consumedBy ring d.since = true → (w.ring core ring).occ ≠ 0 →
    TakesRow w w.myPart rect →
    (d.word = .qk → ∃ u, Commits s c 0 n d u ∧ taken u ∧
      (∀ g q, tile[g]? = some q → u.row (w.winKey (acc + g)) = qkRow q vecs) ∧
      (∀ k, (∀ g, g < tile.length → k ≠ w.winKey (acc + g)) → u.row k = s.row k)) ∧
    (d.word = .sv → ∃ u, Commits s c 0 n d u ∧ taken u ∧
      (∀ g q h, tile[g]? = some q → h < 2 →
        u.row (w.winKey (acc + 2 * g + h)) = svRow (s.row (w.winKey (acc + 2 * g + h))) q vecs h) ∧
      (∀ k, (∀ g, g < 2 * tile.length → k ≠ w.winKey (acc + g)) → u.row k = s.row k))) ∧
  (∀ (q : Row) (ks : List (List Nat)) (j : Nat), ks.length ≤ 64 → j < 64 →
    rowElem 32 (qkRow q ks).data j = (match ks[j]? with | some k => score (rowElems 16 128 q) k | none => 0xFF800000) % 2 ^ 32 ∧
    (qkRow q ks).tag = Fmt.f32.code ∧ (qkRow q ks).valid = true) ∧
  (∀ (old : SlotRow) (q : Row) (vals : List (List Nat)) (h v : Nat), v < 64 →
    rowElem 32 (svRow old q vals h).data v = f32Add (rowElem 32 old.data v) (tree f32Add 0 ((List.range 64).map fun j =>
      match vals[j]? with
      | some x => f32Round ((bf16.value (rowElem 16 q j)).mul (bf16.value (x.getD (64 * h + v) 0)))
      | none => 0)) % 2 ^ 32 ∧
    (svRow old q vals h).tag = old.tag ∧ (svRow old q vals h).valid = old.valid) ∧
  ∀ (s : State) (c n : Nat) (d : Cmd), s.startedCmd c 0 n = some d → (s.ctx c).cancel = none → d.word = .draw →
    let w : State := { s with cur := c, curK := 0 }
    let r := (nth d.ops 0).toNat
    let acc := (accRow (nth d.ops 1)).1
    let prm := w.winRow acc
    let e := fun (i : Nat) => rowElem 32 prm.data i
    let logits := (List.range (nth d.ops 2).toNat).map fun i => rowElem 32 (w.winRow (acc + 1 + i / 64)).data (i % 64)
    let q := softmax (logits.map fun x => f32Mul x (e 1))
    (∀ sub, drawRefused w r = some sub → Faults s c 0 n d sub) ∧
    (∀ ctr t, drawRefused w r = none → w.takeCtr c r = some (ctr, t) → ∃ u, Commits s c 0 n d u ∧
      let x := uniform (draw32 (BitVec.ofNat 64 (w.reqKey r)) ctr)
      let best := topP q.zipIdx (e 0) x
      let row := u.row (w.winKey acc)
      (∀ i, i < 64 → rowElem 32 row.data i = (match i with
        | 4 => best.2.2 + e 2 | 5 => best.1 | 6 => x | 7 => ctr.toNat | _ => e i) % 2 ^ 32) ∧
      row.tag = prm.tag ∧ row.valid = prm.valid ∧ (∀ k, k ≠ w.winKey acc → u.row k = s.row k) ∧ u.mem = t.mem ∧ u.parts = t.parts)

/-- R183, R184, R344, R346: a KVAPP takes a tile for each token, and then writes every token and the lists, pages claimed, LENGTH and the run's
marks as one event, as the plan of its appends has them. A token's key and value stand at their places in the page; an append goes to the
last entry while its page has room, is not spliced and not tentative, else to a newly claimed page. -/
def Claims.KeyValueCommits : Prop :=
  (∀ (s : State) (c n : Nat) (d : Cmd), s.startedCmd c 0 n = some d → (s.ctx c).cancel = none → d.word = .kvapp →
    let w : State := { s with cur := c, curK := 0 }
    let p := w.myPart
    let core := w.myCore
    let r := (nth d.ops 0).toNat
    let layer := opBits (nth d.ops 1) 15 0
    let toks := opBits (nth d.ops 1) 22 16
    let ring := (nth d.ops 2).toNat
    (d.prog < toks → w.ringTurn core consumedBy ring d.since = true → (w.ring core ring).occ ≠ 0 →
      GoesOn s c 0 n (w.ringTake core ring) { d with prog := d.prog + 1, ready := decide (toks ≤ d.prog + 1),
                                                     caps := d.caps ++ (w.headTile core ring).flatMap wordsOfRow }) ∧
    (toks ≤ d.prog → ownedElsewhere w r = true → Faults s c 0 n d 0x17) ∧
    (toks ≤ d.prog → ownedElsewhere w r = false →
      (∀ e, w.kvPlan p r layer toks w.myIter = .error e → Faults s c 0 n d e) ∧
      (∀ a, w.kvPlan p r layer toks w.myIter = .ok a → d.taken = [] →
        (∀ l ∈ a.places, ∀ e ∈ l, w.crosses e.1.col = true ∧ w.beatPhase e.1.col = true) →
        let row := fun (i : Nat) => rowOfWords ((d.caps.drop (32 * i)).take 32)
        let heads := w.reqHeads r
        let wrote := a.places.zipIdx.foldl (fun (t : State) tok => tok.1.zipIdx.foldl (fun (t : State) h =>
          t.writeToken p h.1.1 h.1.2 (row (tok.2 * 2 * heads + 2 * h.2)) (row (tok.2 * 2 * heads + 2 * h.2 + 1))) t)
          (w.seePlan p r layer a.used)
        let v := (a.lists.zipIdx.foldl (fun (t : State) e =>
          t.kvWrite p r layer e.2 (t.kvList p r layer e.2).length e.1) wrote).setReqPgused r a.used
        (w.myIter = none → Commits s c 0 n d (if layer = 0 then v.setReqLength r (v.reqLength r + toks) else v)) ∧
        (∀ run j, w.myIter = some (run, j) →
          let u := if v.reqRun r = 0 then (v.setReqCtrBase r (v.reqCtr r)).setReqRun r run else v
          Commits s c 0 n d (u.modRun p run fun q =>
            { q with reqs := if q.reqs.contains r then q.reqs else r :: q.reqs,
                     iters := q.iters.modify j fun i => { i with appended := (r, layer) :: i.appended } }))))) ∧
  (∀ (s : State) (p slot i : Nat) (e : KvEntry) (key val : Row), slot < 64 → i < 128 →
    (∀ x, x < 32768 → encrypted (e.pa + x) = true) →
    let t := s.writeToken p e slot key val
    let reads := fun (off v : Nat) => t.homeBytes (t.keydef p) (e.pa + off) 2 = bytesOfNat 2 v
    reads (8192 * (i / 64) + 128 * (i % 64) + 2 * slot) (rowElem 16 key i) ∧
    reads (16384 + 8192 * (i / 64) + 128 * slot + 2 * (i % 64)) (rowElem 16 val i)) ∧
  (∀ (s : State) (p r l h old b : Nat) (es : List KvEntry) (e : KvEntry),
    (∀ i, i < max old es.length → s.reqRoot r + ((l * s.reqHeads r + h) * s.reqMaxblk r + i) * 16 + 16 ≤ 2 ^ 40 ∧
      ∀ x, x < 16 → encrypted (s.kvAddr r l h i + x) = true) →
    let t := s.kvWrite p r l h old es
    (es[b]? = some e → e.posbase < 2 ^ 32 → e.prov < 2 ^ 16 → e.frontier < 256 → e.col < 4096 → e.page < 2048 → e.run < 2 ^ 24 →
      e.iter < 8 → e.count < 128 → e.first < 64 → e.reserved = false → t.kvEntry p r l h b = e) ∧
    (es.length ≤ b → b < old → (t.kvEntry p r l h b).valid = false)) ∧
  (∀ (desc : Nat → Option (Nat × Nat)) (used : Nat) (es : List KvEntry),
    let fresh : Option (Nat × List KvEntry × KvEntry × Nat) := (desc used).map fun a =>
      let e : KvEntry := { valid := true, posbase := nextPos es, col := a.1, page := a.2, count := 1 }
      (used + 1, es ++ [e], e, 0)
    (∀ l e, es = l ++ [e] →
      (e.first + e.count < 64 → e.spl = false → e.tent = false →
        appendToken desc used es = some (used, l ++ [{ e with count := e.count + 1 }], e, e.first + e.count)) ∧
      ((64 ≤ e.first + e.count ∨ e.spl = true ∨ e.tent = true) → appendToken desc used es = fresh)) ∧
    (es = [] → appendToken desc used es = fresh)) ∧
  ∀ (desc : Nat → Option (Nat × Nat)) (run j width used : Nat) (es : List KvEntry) (l : KvEntry),
    lastCommitted es = some l → l.spl = false → l.first + l.count + j + width ≤ 64 →
    let e : KvEntry := { valid := true, tent := true, run := run, iter := j, posbase := nextPos es + j, col := l.col, page := l.page,
                         first := l.first + l.count + j, count := 1 }
    appendTent desc run j width used es = some (used, insertTent e es, e, l.first + l.count + j)

/-- R147, R182, R350: a SPLICE whose request no REPAIR has inside a block, and whose columns take the words, clears MARK and MEAS of its blocks
and writes every list with its blocks at the position, and LENGTH, as one event. An entry before the position stands, one
after it moves on by the tokens inserted, and one across it is cut in two. -/
def Claims.SpliceCommits : Prop :=
  (∀ (s : State) (c n : Nat) (d : Cmd), s.startedCmd c 0 n = some d → (s.ctx c).cancel = none → d.word = .splice → d.taken = [] →
    let w : State := { s with cur := c, curK := 0 }
    let p := w.myPart
    let r := (nth d.ops 0).toNat
    let num := w.reqLayers r * w.reqHeads r
    let firsts := (d.ents.zipIdx.filter fun e => e.2 % num == 0).map (·.1)
    w.repairOn r true = false →
    (w.spliced p r (nth d.ops 1).toNat d.ents = none → Faults s c 0 n d 0x14) ∧
    (∀ ls, w.spliced p r (nth d.ops 1).toNat d.ents = some ls →
      (∀ e ∈ firsts, w.crosses e.col = true ∧ w.beatPhase e.col = true) →
      let cleared := firsts.foldl (fun (t : State) e => t.busWrite p (e.pa + 32768) (List.replicate 16 0))
        (w.seeLists p r (List.range (w.reqLayers r)))
      let listed := ls.zipIdx.foldl (fun (t : State) l =>
        t.kvWrite p r (l.2 / t.reqHeads r) (l.2 % t.reqHeads r) (t.kvList p r (l.2 / t.reqHeads r) (l.2 % t.reqHeads r)).length l.1) cleared
      Commits s c 0 n d (listed.setReqLength r (listed.reqLength r + (firsts.map (·.count)).sum)))) ∧
  ∀ (q tok : Nat) (new es : List KvEntry) (e : KvEntry),
    spliceList q tok new [] = new ∧
    (e.posbase + e.count ≤ q → spliceList q tok new (e :: es) =
      e :: spliceList q tok new es ∨ (q ≤ e.posbase ∧ e.count = 0)) ∧
    (q ≤ e.posbase → 0 < e.count → spliceList q tok new [e] = new ++ [{ e with posbase := e.posbase + tok }]) ∧
    (e.posbase < q → q < e.posbase + e.count → spliceList q tok new [e] =
      [{ e with count := q - e.posbase }] ++ new ++
        [{ e with first := e.first + (q - e.posbase), count := e.posbase + e.count - q, posbase := q + tok }])

/-- R85, R138, R158: a consumer advances HEAD by one, and a producer fills the tile at TAIL with the rows and advances TAIL; no other ring and
no other byte of the scratchpad changes. -/
def Claims.RingCommits : Prop :=
  ∀ (s : State) (core m : Nat) (rows : List Row), m < 8 →
    let r := s.ring core m
    let taken := s.ringTake core m
    let given := s.ringGive core m rows
    let off := State.tileOff r r.tail
    ((taken.ring core m).head = (r.head + 1) % 65536 ∧ (taken.ring core m).tail = r.tail ∧ (taken.ring core m).base = r.base ∧
      (taken.ring core m).shape = r.shape ∧ (taken.core core).sp = (s.core core).sp) ∧
    ((given.ring core m).tail = (r.tail + 1) % 65536 ∧ (given.ring core m).head = r.head ∧ (given.ring core m).base = r.base ∧
      (given.ring core m).shape = r.shape) ∧
    (∀ j w, rows[j]? = some w → (given.core core).sp.nat (off + 256 * j) 256 = w.toNat) ∧
    (∀ a, a < off ∨ off + 256 * rows.length ≤ a → (given.core core).sp.get a = (s.core core).sp.get a) ∧
    (∀ t ∈ [taken, given], (∀ q, q ≠ m → t.ring core q = s.ring core q) ∧ (∀ a, a ≠ core → t.core a = s.core a) ∧
      t.mem = s.mem ∧ t.ctxs = s.ctxs ∧ t.rows = s.rows)

/-- R107, R117, R135, R137, R356: what a copy or access word reads and writes inside a page: the scratchpad's bytes; the home's for an uncached page;
the cluster L2's for a line it holds; and as a destination the scratchpad or the shadow of the publish group there. -/
def Claims.CopyAccesses : Prop :=
  ∀ (s : State) (d : Cmd) (va n : Nat), 1 ≤ n → va % 4096 + n ≤ 4096 →
    let core := s.myCore
    let clu := clusterOf core
    let off := scratchOff va
    (isWindow va = true → off + n ≤ (s.core core).spSize → (readSrc d va n).run s = .ok ((s.core core).sp.bytes off n, d) s) ∧
    (isWindow va = true → (s.core core).spSize < off + n → ∃ t, (readSrc d va n).run s = .error (.engine 0x09) t) ∧
    (isWindow va = false →
      (∀ e t, s.walkHeldAt clu s.myPart s.unitSuper .load va = false → s.clusterXlate clu s.myPart s.unitSuper .load va = (.error e, t) →
        ∃ r, (readSrc d va n).run s = .error (.engine (if e = 0x09 then 0x11 else 0x12)) r) ∧
      (∀ x t, s.walkHeldAt clu s.myPart s.unitSuper .load va = false → s.clusterXlate clu s.myPart s.unitSuper .load va = (.ok x, t) →
        let a := x.access va
        encrypted a.pa = true → a.pa < 2 ^ 40 → t.groupAt a.pa = none →
        (a.uncached = true → (∀ l ∈ State.linesOf a.pa n, t.holders l = []) →
          (readSrc d va n).run s = .ok (t.homeBytes a.key a.pa n, d) t) ∧
        (∀ y, a.uncached = false → a.pa % 64 + n ≤ 64 → (t.cluster clu).sector (a.pa / 64) = some y →
          ∃ u, (readSrc d va n).run s = .ok ((List.range n).map fun i => byteAt y.data (a.pa % 64 + i), d) u ∧ u.mem = t.mem))) ∧
    ∀ (spOk : Bool) (grp : Option Nat) (bs : List Byte), bs.length = n →
      (isWindow va = true →
        (spOk = true → grp = none → off + n ≤ (s.core core).spSize → ∃ t, (writeRange spOk grp va bs).run s = .ok none t ∧
          (∀ i, i < n → (t.core core).sp.get (off + i) = bs.getD i 0) ∧
          (∀ a, a < off ∨ off + n ≤ a → (t.core core).sp.get a = (s.core core).sp.get a) ∧ t.mem = s.mem ∧ t.linkq = s.linkq) ∧
        (spOk = false → ∃ t, (writeRange spOk grp va bs).run s = .error (.engine 0x12) t)) ∧
      (isWindow va = false → s.walkHeldAt clu s.myPart s.unitSuper .store va = false →
        ∀ x t, s.clusterXlate clu s.myPart s.unitSuper .store va = (.ok x, t) →
        let a := x.access va
        encrypted a.pa = true → a.pa < 2 ^ 40 →
        (t.destGroup a.pa = none → ∃ r, (writeRange spOk grp va bs).run s = .error (.engine 0x12) r) ∧
        (∀ g, t.destGroup a.pa = some g → (grp = none ∨ grp = some g) → a.pa + n ≤ t.grpVis g + t.grpSize g →
          (t.latched g (!t.grpCur g) = true → ∃ r, (writeRange spOk grp va bs).run s = .error .stall r) ∧
          (t.latched g (!t.grpCur g) = false → (writeRange spOk grp va bs).run s =
            .ok (some g) (t.homeWrite a.key t.myPart (t.grpBuf g (!t.grpCur g) + (a.pa - t.grpVis g)) bs))))

/-- R155, R157, R356, R359: GET, PUT and XFER move a piece of their source to their destination; FILL writes its value over and over; GETR gives a
ring tile what it reads, and PUTR writes a tile it takes; GATHER and SCATTER move one element whose address is in a table; AQ.EMIT appends 256
bytes to an input queue, and AQ.DRAIN writes the first entry of an output queue. Each commits after its last piece. -/
def Claims.CopySteps : Prop :=
  ∀ (s : State) (c k n : Nat) (d : Cmd), s.startedCmd c k n = some d → (s.ctx c).cancel = none →
    let w : State := { s with cur := c, curK := k }
    let core := w.myCore
    let op := fun (i : Nat) => nth d.ops i
    let ends := fun (over' : Prop) (t : State) (e : Cmd) => t.linkq = s.linkq →
      (over' → Commits s c k n d t) ∧ (¬ over' → GoesOn s c k n t e)
    let next := fun (e : Cmd) (m : Nat) (g : Option Nat) => ({ e with prog := d.prog + m }).setDestGrp g
    (d.word = .get ∨ d.word = .put ∨ d.word = .xfer →
      let src := if d.word = .xfer then (op 1).toNat else (op 0).toNat
      let dst := if d.word = .xfer then (op 0).toNat else (op 1).toNat
      let m := min ((op 2).toNat - d.prog) (4096 - (src + d.prog) % 4096)
      ∀ bs e t g u, (readSrc d (src + d.prog) m).run w = .ok (bs, e) t →
        (writeRange (d.word == .get) e.destGrp (dst + d.prog) bs).run t = .ok g u →
        ends ((op 2).toNat ≤ d.prog + m) u (next e m g)) ∧
    (d.word = .fill →
      let m := min ((op 2).toNat - d.prog) (4096 - ((op 0).toNat + d.prog) % 4096)
      ∀ g u, (writeRange true d.destGrp ((op 0).toNat + d.prog) ((List.range m).map fun i => byteAt (op 1) (i % 8))).run w = .ok g u →
        ends ((op 2).toNat ≤ d.prog + m) u (next d m g)) ∧
    (d.word = .getr → ∀ ring, ring = (op 1).toNat → w.ringTurn core producedBy ring d.since = true →
      (w.ring core ring).occ < (w.ring core ring).tiles →
      let size := (w.ring core ring).tsize * 256
      ∀ bs e t, (readAhead d (op 0).toNat ((op 2).toNat * size) (d.prog * size) size).run w = .ok (bs, e) t →
        ends ((op 2).toNat ≤ d.prog + 1) (t.ringGive core ring ((List.range (w.ring core ring).tsize).map fun j =>
          BitVec.ofNat 2048 (natOfBytes ((bs.drop (256 * j)).take 256)))) { e with prog := d.prog + 1 }) ∧
    (d.word = .putr → ∀ ring, ring = (op 0).toNat → w.ringTurn core consumedBy ring d.since = true → (w.ring core ring).occ ≠ 0 →
      let tile := w.headTile core ring
      ∀ g t, (writeRange false d.destGrp ((op 1).toNat + d.prog * (tile.length * 256)) (tile.flatMap fun r => bytesOfNat 256 r.toNat)).run w =
          .ok g t → ends ((op 2).toNat ≤ d.prog + 1) (t.ringTake core ring) (next d 1 g)) ∧
    (d.word = .gather → ∀ a e t bs f u g v, (tableEntry d (op 0).toNat (op 2).toNat).run w = .ok (a, e) t →
      (readSrc e a (op 3).toNat).run t = .ok (bs, f) u →
      (writeRange true f.destGrp ((op 1).toNat + d.prog * (op 3).toNat) bs).run u = .ok g v →
      ends ((op 2).toNat ≤ d.prog + 1) v (({ f with prog := d.prog + 1, tab := f.tab.drop 8 } : Cmd).setDestGrp g)) ∧
    (d.word = .scatter → ∀ a e t x u bs f v g r, (tableEntry d (op 1).toNat (op 2).toNat).run w = .ok (a, e) t →
      (iterDest a (op 3).toNat).run t = .ok x u →
      (readAhead e (op 0).toNat ((op 2).toNat * (op 3).toNat) (d.prog * (op 3).toNat) (op 3).toNat).run u = .ok (bs, f) v →
      (writeRange true none a bs).run v = .ok g r →
      ends ((op 2).toNat ≤ d.prog + 1) r { f with prog := d.prog + 1, tab := f.tab.drop 8 }) ∧
    (∀ q : Fin 4, d.word = .aqEmit q → (s.ctx c).qin[q].length < 8 →
      let nest := w.myStream.nest
      ∀ bs e t, (readSrc d nest.addr.toNat 256).run w = .ok (bs, e) t → t.linkq = s.linkq → t.ctx c = s.ctx c → t.cur = c → t.curK = k →
        ∃ u, ((op 0).toNat ≤ d.prog + 1 → Commits s c k n d u) ∧ (d.prog + 1 < (op 0).toNat → GoesOn s c k n u { e with prog := d.prog + 1 }) ∧
          (u.ctx c).qin[q] = (s.ctx c).qin[q] ++ [{ tag := nest.fmt, data := BitVec.ofNat 2048 (natOfBytes bs) }] ∧
          (k < 6 → ((u.ctx c).stream k).nest = nest.next) ∧ u.mem = t.mem ∧ u.cores = t.cores) ∧
    (∀ q : Fin 4, ∀ x xs, d.word = .aqDrain q → (s.ctx c).qout[q] = x :: xs → (s.ctx c).wq.any (fun y => y.vec && y.eff == .nothing) = false →
      let nest := w.myStream.nest
      ∀ y t g v, (iterDest nest.addr.toNat 256).run w = .ok y t →
        (writeRange true none nest.addr.toNat (bytesOfNat 256 x.data.toNat)).run t = .ok g v → v.linkq = s.linkq → v.ctx c = s.ctx c →
        v.cur = c → v.curK = k →
        ∃ u, ((op 0).toNat ≤ d.prog + 1 → Commits s c k n d u) ∧ (d.prog + 1 < (op 0).toNat → GoesOn s c k n u { d with prog := d.prog + 1 }) ∧
          (u.ctx c).qout[q] = xs ∧ (k < 6 → ((u.ctx c).stream k).nest = nest.next) ∧ u.mem = v.mem ∧ u.cores = v.cores)

/-- What the commands of the matrix and attention engines, checkpoints, appends, splices and draws leave when they commit. A command's step
is one turn (log 7), and which commands wait for one another is log 22. -/
def Obligations.EngineCommits : Prop :=
  Claims.MatrixCommits ∧ Claims.CheckpointCommits ∧ Claims.AttentionCommits ∧ Claims.KeyValueCommits ∧ Claims.SpliceCommits

/-- What copy and access words leave at each of their steps. A step moves a piece inside one page or one element, which is
the model's choice of step (log 7). -/
def Obligations.CopyCommits : Prop :=
  Claims.RingCommits ∧ Claims.CopyAccesses ∧ Claims.CopySteps
end

