-- ==== Sys2Proof/Laws/Assoc.lean ====
section
/-! SUPPORT. Data by number: reading what was written, and leaving the rest alone. -/
namespace Sys2Proof.Laws

variable {α : Type}

@[simp] theorem assocGet_assocSet_same (d : α) (l : Assoc α) (n : Nat) (v : α) : assocGet d (assocSet l n v) n = v := by
  induction l with
  | nil => simp [assocSet, assocGet]
  | cons e l ih =>
    obtain ⟨k, w⟩ := e
    by_cases h : n = k <;> simp [assocSet, assocGet, h, ih]

theorem assocGet_assocSet_ne (d : α) (l : Assoc α) {n m : Nat} (v : α) (h : m ≠ n) :
    assocGet d (assocSet l n v) m = assocGet d l m := by
  induction l with
  | nil => simp [assocSet, assocGet, h]
  | cons e l ih =>
    obtain ⟨k, w⟩ := e
    by_cases hk : n = k
    · subst hk; simp [assocSet, assocGet, h]
    · by_cases hm : m = k <;> simp [assocSet, assocGet, hk, hm, ih]

@[simp] theorem assocSet_assocSet_same (l : Assoc α) (n : Nat) (v w : α) : assocSet (assocSet l n v) n w = assocSet l n w := by
  induction l with
  | nil => simp [assocSet]
  | cons e l ih =>
    obtain ⟨k, u⟩ := e
    by_cases h : n = k <;> simp [assocSet, h, ih]

/-- Every record of a list has a property where the written one has it and the others had it. -/
theorem all_assocSet {P : α → Prop} {l : Assoc α} {n : Nat} {v : α} (hl : ∀ e ∈ l, P e.2) (hv : P v) :
    ∀ e ∈ assocSet l n v, P e.2 := by
  induction l with
  | nil => simp [assocSet, hv]
  | cons e l ih =>
    obtain ⟨k, u⟩ := e
    by_cases h : n = k
    · subst h
      intro e he
      simp only [assocSet, if_true] at he
      rcases List.mem_cons.1 he with rfl | he
      · exact hv
      · exact hl e (List.mem_cons_of_mem _ he)
    · intro e he
      simp only [assocSet, h, if_false] at he
      rcases List.mem_cons.1 he with rfl | he
      · exact hl _ List.mem_cons_self
      · exact ih (fun e he => hl e (List.mem_cons_of_mem _ he)) e he

/-- A record read from a list has a property where every record of the list and the default have it. -/
theorem assocGet_of_all {P : α → Prop} {d : α} {l : Assoc α} (hl : ∀ e ∈ l, P e.2) (hd : P d) (n : Nat) :
    P (assocGet d l n) := by
  induction l with
  | nil => exact hd
  | cons e l ih =>
    obtain ⟨k, u⟩ := e
    by_cases h : n = k
    · simp only [assocGet, h, if_true]
      exact hl (k, u) List.mem_cons_self
    · simp only [assocGet, h, if_false]
      exact ih fun e he => hl e (List.mem_cons_of_mem _ he)

end Sys2Proof.Laws
end

