-- ==== Sys2Proof/Laws/Engine.lean ====
section
/-! SUPPORT. What the step of a started engine command leaves, by the answer of its meaning: it goes on, commits, faults or waits. -/
namespace Sys2Proof.Laws
open Sys2Proof.Machine

/-- A step that queues nothing for a link answers what its inner part answers. -/
theorem linked_ok {α : Type} (m : M α) (s t : State) (r : α) (h : m.run s = .ok r t) (hl : t.linkq = s.linkq) :
    (linked m).run s = .ok r t := by
  have hc : ∀ e c, t.linkCount e c = s.linkCount e c := by intro e c; simp [State.linkCount, hl]
  have h' : m s = .ok r t := h
  simp only [linked, bind, EStateM.bind, get, getThe, MonadStateOf.get, EStateM.get, EStateM.run, h']
  have : (t.linkq.all fun e => decide (t.linkCount e.1 e.2 ≤ s.linkCount e.1 e.2) || s.linkRoom e.1 e.2) = true := by
    simp [hc]
  simp only [await]
  rw [if_pos this]
  simp [hl, pure, EStateM.pure]

/-- A stop of the inner part is the step's. -/
theorem linked_error {α : Type} (m : M α) (s t : State) (e : Stop) (h : m.run s = .error e t) : (linked m).run s = .error e t := by
  have h' : m s = .error e t := h
  simp [linked, bind, EStateM.bind, get, getThe, MonadStateOf.get, EStateM.get, EStateM.run, h']

/-- Every way in which the step of a started command that is no REPAIR can end. -/
theorem stepStarted_cases (s : State) (c k n : Nat) (d : Cmd) (h : s.startedCmd c k n = some d) (hr : d.word ≠ .repair) :
    s.stepStarted c k n =
      if (s.ctx c).cancel.isSome then s else match (stepCmd d).run { s with cur := c, curK := k } with
        | .ok (some e) t => t.modStream c k fun x => { x with started := x.started.set n e }
        | .ok none t => t.dropCmd c k n d
        | .error (.engine sub) _ => s.faultCmd c k n d sub
        | .error _ _ => s := by
  have h' : ((s.ctx c).stream k).started[n]? = some d := h
  have hb : (d.word == .repair) = false := by simpa using hr
  simp only [State.stepStarted, h', hb, Bool.false_and, Bool.or_false, State.afterRepair, if_neg hr] <;> split <;> rfl

end Sys2Proof.Laws
end

