-- ==== Sys2Proof/Laws/Memory.lean ====
section
/-! SUPPORT. Memory: what a write changes, and that every operation keeps the canonical form. -/
namespace Sys2Proof.Laws

/-- The first address of a memory that is not empty lies above a bound. -/
def Above (b : Nat) : Memory → Prop
  | [] => True
  | c :: _ => b < c.1

theorem rising_cons {c : Host.Cell} {l : Memory} : Memory.rising (c :: l) = true ↔ Above c.1 l ∧ Memory.rising l = true := by
  cases l <;> simp [Memory.rising, Above]

theorem above_of_lt {a b : Nat} {l : Memory} (h : Above b l) (hab : a < b) : Above a l := by
  cases l with
  | nil => trivial
  | cons c l => exact Nat.lt_trans hab h

theorem above_mem {b : Nat} {l : Memory} (h : Above b l) (hr : Memory.rising l = true) : ∀ c ∈ l, b < c.1 := by
  induction l generalizing b with
  | nil => simp
  | cons d l ih =>
    intro c hc
    rcases List.mem_cons.1 hc with rfl | hc
    · exact h
    · exact Nat.lt_trans h (ih (rising_cons.1 hr).1 (rising_cons.1 hr).2 c hc)

theorem above_of_mem {b : Nat} {l : Memory} (h : ∀ c ∈ l, b < c.1) : Above b l := by
  cases l with
  | nil => trivial
  | cons c l => exact h c List.mem_cons_self

theorem rising_filter (p : Host.Cell → Bool) {l : Memory} (h : Memory.rising l = true) : Memory.rising (l.filter p) = true := by
  induction l with
  | nil => rfl
  | cons c l ih =>
    obtain ⟨ha, hr⟩ := rising_cons.1 h
    by_cases hp : p c
    · rw [List.filter_cons_of_pos hp]
      exact rising_cons.2 ⟨above_of_mem fun d hd => above_mem ha hr d ((List.mem_filter.1 hd).1), ih hr⟩
    · rw [List.filter_cons_of_neg hp]
      exact ih hr

theorem mem_insert {l : Memory} {a : Nat} {v : Byte} {c : Host.Cell} : c ∈ Memory.insert l a v ↔ c = (a, v) ∨ c ∈ l := by
  induction l with
  | nil => simp [Memory.insert]
  | cons d l ih =>
    simp only [Memory.insert]
    split <;> simp [ih, or_left_comm]

theorem rising_insert {l : Memory} {a : Nat} (v : Byte) (h : Memory.rising l = true) (hn : ∀ c ∈ l, c.1 ≠ a) :
    Memory.rising (Memory.insert l a v) = true := by
  induction l with
  | nil => rfl
  | cons c l ih =>
    obtain ⟨ha, hr⟩ := rising_cons.1 h
    have hc : c.1 ≠ a := hn c List.mem_cons_self
    simp only [Memory.insert]
    split
    · exact rising_cons.2 ⟨‹_›, h⟩
    · refine rising_cons.2 ⟨above_of_mem fun d hd => ?_, ih hr fun d hd => hn d (List.mem_cons_of_mem _ hd)⟩
      rcases mem_insert.1 hd with rfl | hd
      · show c.1 < a
        omega
      · exact above_mem ha hr d hd

theorem wf_nil : Memory.wf [] = true := rfl

theorem wf_iff {m : Memory} : m.wf = true ↔ Memory.rising m = true ∧ ∀ c ∈ m, c.2 ≠ Memory.blank := by
  simp [Memory.wf]

/-- Dropping bytes keeps the canonical form. -/
theorem wf_filter (p : Host.Cell → Bool) {m : Memory} (h : m.wf = true) : Memory.wf (m.filter p) = true := by
  rw [wf_iff] at h ⊢
  exact ⟨rising_filter p h.1, fun c hc => h.2 c ((List.mem_filter.1 hc).1)⟩

/-- Writing a byte keeps the canonical form. -/
theorem wf_put {m : Memory} (a : Nat) (v : Byte) (h : m.wf = true) : (m.put a v).wf = true := by
  have hf := wf_filter (fun c => c.1 != a) h
  unfold Memory.put
  dsimp only
  split
  · exact hf
  · rename_i hv
    rw [wf_iff] at hf ⊢
    refine ⟨rising_insert v hf.1 fun c hc => by simpa using (List.mem_filter.1 hc).2, fun c hc => ?_⟩
    rcases mem_insert.1 hc with rfl | hc
    · exact hv
    · exact hf.2 c hc

/-- Writing bytes keeps the canonical form. -/
theorem wf_putBytes {m : Memory} (a : Nat) (bs : List Byte) (h : m.wf = true) : (m.putBytes a bs).wf = true := by
  induction bs generalizing m a with
  | nil => exact h
  | cons b bs ih => exact ih _ (wf_put a b h)

/-- Writing a field keeps the canonical form. -/
theorem wf_putNat {m : Memory} (a n v : Nat) (h : m.wf = true) : (m.putNat a n v).wf = true := wf_putBytes a _ h

theorem assocGet_filter_same {l : Memory} (a : Nat) (d : Byte) : assocGet d (l.filter fun c => c.1 != a) a = d := by
  induction l with
  | nil => rfl
  | cons c l ih =>
    obtain ⟨k, w⟩ := c
    by_cases h : k = a
    · rw [List.filter_cons_of_neg (by simp [h])]
      exact ih
    · rw [List.filter_cons_of_pos (by simp [h]), assocGet, if_neg (Ne.symm h)]
      exact ih

theorem assocGet_filter_ne {l : Memory} {a b : Nat} (d : Byte) (h : b ≠ a) :
    assocGet d (l.filter fun c => c.1 != a) b = assocGet d l b := by
  induction l with
  | nil => rfl
  | cons c l ih =>
    obtain ⟨k, w⟩ := c
    by_cases hk : k = a
    · rw [List.filter_cons_of_neg (by simp [hk]), assocGet, if_neg (by omega)]
      exact ih
    · rw [List.filter_cons_of_pos (by simp [hk]), assocGet, assocGet, ih]

theorem assocGet_insert {l : Memory} {a b : Nat} {v d : Byte} (hn : ∀ c ∈ l, c.1 ≠ a) :
    assocGet d (Memory.insert l a v) b = if b = a then v else assocGet d l b := by
  induction l with
  | nil => simp [Memory.insert, assocGet]
  | cons c l ih =>
    obtain ⟨k, w⟩ := c
    have hk : k ≠ a := hn (k, w) List.mem_cons_self
    have ih := ih fun c hc => hn c (List.mem_cons_of_mem _ hc)
    simp only [Memory.insert]
    split
    · by_cases hb : b = a <;> simp [assocGet, hb]
    · by_cases hb : b = k
      · subst hb; simp [assocGet, hk]
      · simp [assocGet, hb, ih]

/-- Reading a byte after writing one. -/
theorem get_put (m : Memory) (a b : Nat) (v : Byte) : (m.put a v).get b = if b = a then v else m.get b := by
  unfold Memory.put Memory.get
  dsimp only
  split
  · rename_i hv
    by_cases hb : b = a
    · subst hb; rw [assocGet_filter_same, if_pos rfl, hv]
    · rw [assocGet_filter_ne _ hb, if_neg hb]
  · rw [assocGet_insert fun c hc => by simpa using (List.mem_filter.1 hc).2]
    by_cases hb : b = a
    · simp [hb]
    · rw [if_neg hb, if_neg hb, assocGet_filter_ne _ hb]

@[simp] theorem get_put_same (m : Memory) (a : Nat) (v : Byte) : (m.put a v).get a = v := by simp [get_put]

theorem get_put_ne (m : Memory) {a b : Nat} (v : Byte) (h : b ≠ a) : (m.put a v).get b = m.get b := by simp [get_put, h]

/-- A byte outside the written bytes stays. -/
theorem get_putBytes_out (m : Memory) (a b : Nat) (bs : List Byte) (h : b < a ∨ a + bs.length ≤ b) :
    (m.putBytes a bs).get b = m.get b := by
  induction bs generalizing m a with
  | nil => rfl
  | cons v bs ih =>
    simp only [List.length_cons] at h
    simp only [Memory.putBytes]
    rw [ih _ _ (by omega), get_put_ne _ _ (by omega)]

/-- A written byte reads as written. -/
theorem get_putBytes_in (m : Memory) (a i : Nat) (bs : List Byte) (h : i < bs.length) :
    (m.putBytes a bs).get (a + i) = bs[i] := by
  induction bs generalizing m a i with
  | nil => simp at h
  | cons v bs ih =>
    simp only [Memory.putBytes]
    cases i with
    | zero => rw [get_putBytes_out _ _ _ _ (by omega)]; simp
    | succ i =>
      have h' : i < bs.length := by simpa using h
      have := ih (m.put a v) (a + 1) i h'
      rw [show a + (i + 1) = a + 1 + i by omega, this]
      simp

@[simp] theorem bytesOfNat_length (n v : Nat) : (bytesOfNat n v).length = n := by
  induction n generalizing v with
  | zero => rfl
  | succ n ih => simp [bytesOfNat, ih]

/-- The low bytes of a number make the number modulo 256^n. -/
theorem natOfBytes_bytesOfNat (n v : Nat) : natOfBytes (bytesOfNat n v) = v % 256 ^ n := by
  induction n generalizing v with
  | zero => simp [bytesOfNat, natOfBytes, Nat.mod_one]
  | succ n ih =>
    rw [bytesOfNat, natOfBytes, ih, BitVec.toNat_ofNat, show 256 ^ (n + 1) = 256 * 256 ^ n by rw [Nat.pow_succ, Nat.mul_comm],
      Nat.mod_mul]

end Sys2Proof.Laws
end

