-- ==== Sys2Proof/Laws/State.lean ====
section
/-! SUPPORT. What each update of the state leaves and what it sets, one fact each, so that no proof unfolds an update. -/
namespace Sys2Proof.Laws
open Sys2Proof.Machine

/-! setCtx -/
@[simp] theorem setCtx_ctx_same (s : State) (n : Nat) (x : Ctx) : (s.setCtx n x).ctx n = x := assocGet_assocSet_same _ _ _ _
theorem setCtx_ctx_ne (s : State) {n m : Nat} (x : Ctx) (h : m ≠ n) : (s.setCtx n x).ctx m = s.ctx m := assocGet_assocSet_ne _ _ _ h
@[simp] theorem setCtx_setCtx (s : State) (n : Nat) (x y : Ctx) : (s.setCtx n x).setCtx n y = s.setCtx n y := by simp [State.setCtx]
@[simp] theorem setCtx_core (s : State) (n m : Nat) (x : Ctx) : (s.setCtx n x).core m = s.core m := rfl
@[simp] theorem setCtx_cluster (s : State) (n m : Nat) (x : Ctx) : (s.setCtx n x).cluster m = s.cluster m := rfl
@[simp] theorem setCtx_row (s : State) (n m : Nat) (x : Ctx) : (s.setCtx n x).row m = s.row m := rfl
@[simp] theorem setCtx_workRow (s : State) (n m : Nat) (x : Ctx) : (s.setCtx n x).workRow m = s.workRow m := rfl
@[simp] theorem setCtx_col (s : State) (n m : Nat) (x : Ctx) : (s.setCtx n x).col m = s.col m := rfl
@[simp] theorem setCtx_gridRow (s : State) (n m : Nat) (x : Ctx) : (s.setCtx n x).gridRow m = s.gridRow m := rfl
@[simp] theorem setCtx_stack (s : State) (n m : Nat) (x : Ctx) : (s.setCtx n x).stack m = s.stack m := rfl
@[simp] theorem setCtx_zone (s : State) (n m : Nat) (x : Ctx) : (s.setCtx n x).zone m = s.zone m := rfl
@[simp] theorem setCtx_part (s : State) (n m : Nat) (x : Ctx) : (s.setCtx n x).part m = s.part m := rfl
@[simp] theorem setCtx_launch (s : State) (n m : Nat) (x : Ctx) : (s.setCtx n x).launch m = s.launch m := rfl
@[simp] theorem setCtx_graph (s : State) (n p m : Nat) (x : Ctx) : (s.setCtx n x).graph p m = s.graph p m := rfl
@[simp] theorem setCtx_phase (s : State) (n p m : Nat) (x : Ctx) : (s.setCtx n x).phase p m = s.phase p m := rfl
@[simp] theorem setCtx_job (s : State) (n p m : Nat) (x : Ctx) : (s.setCtx n x).job p m = s.job p m := rfl
@[simp] theorem setCtx_mem (s : State) (n : Nat) (x : Ctx) : (s.setCtx n x).mem = s.mem := rfl
@[simp] theorem setCtx_host (s : State) (n : Nat) (x : Ctx) : (s.setCtx n x).host = s.host := rfl
@[simp] theorem setCtx_launchq (s : State) (n : Nat) (x : Ctx) : (s.setCtx n x).launchq = s.launchq := rfl
@[simp] theorem setCtx_timebase (s : State) (n : Nat) (x : Ctx) : (s.setCtx n x).timebase = s.timebase := rfl
@[simp] theorem setCtx_nextLaunch (s : State) (n : Nat) (x : Ctx) : (s.setCtx n x).nextLaunch = s.nextLaunch := rfl
@[simp] theorem setCtx_windows (s : State) (n : Nat) (x : Ctx) : (s.setCtx n x).windows = s.windows := rfl
@[simp] theorem setCtx_hdms (s : State) (n : Nat) (x : Ctx) : (s.setCtx n x).hdms = s.hdms := rfl
@[simp] theorem setCtx_msix (s : State) (n : Nat) (x : Ctx) : (s.setCtx n x).msix = s.msix := rfl
@[simp] theorem setCtx_mgmt (s : State) (n : Nat) (x : Ctx) : (s.setCtx n x).mgmt = s.mgmt := rfl
@[simp] theorem setCtx_pkg (s : State) (n : Nat) (x : Ctx) : (s.setCtx n x).pkg = s.pkg := rfl
@[simp] theorem setCtx_links (s : State) (n : Nat) (x : Ctx) : (s.setCtx n x).links = s.links := rfl
@[simp] theorem setCtx_peers (s : State) (n : Nat) (x : Ctx) : (s.setCtx n x).peers = s.peers := rfl
@[simp] theorem setCtx_agenda (s : State) (n : Nat) (x : Ctx) : (s.setCtx n x).agenda = s.agenda := rfl
@[simp] theorem setCtx_mbxGo (s : State) (n : Nat) (x : Ctx) : (s.setCtx n x).mbxGo = s.mbxGo := rfl
@[simp] theorem setCtx_linkq (s : State) (n : Nat) (x : Ctx) : (s.setCtx n x).linkq = s.linkq := rfl
@[simp] theorem setCtx_sensors (s : State) (n : Nat) (x : Ctx) : (s.setCtx n x).sensors = s.sensors := rfl
@[simp] theorem setCtx_cur (s : State) (n : Nat) (x : Ctx) : (s.setCtx n x).cur = s.cur := rfl
@[simp] theorem setCtx_curK (s : State) (n : Nat) (x : Ctx) : (s.setCtx n x).curK = s.curK := rfl
@[simp] theorem setCtx_raw (s : State) (n : Nat) (x : Ctx) : (s.setCtx n x).raw = s.raw := rfl
@[simp] theorem setCtx_limm (s : State) (n : Nat) (x : Ctx) : (s.setCtx n x).limm = s.limm := rfl
@[simp] theorem setCtx_npc (s : State) (n : Nat) (x : Ctx) : (s.setCtx n x).npc = s.npc := rfl
@[simp] theorem setCtx_mark (s : State) (n : Nat) (x : Ctx) : (s.setCtx n x).mark = s.mark := rfl
@[simp] theorem setCtx_tick (s : State) (n : Nat) (x : Ctx) : (s.setCtx n x).tick = s.tick := rfl
@[simp] theorem setCtx_blockKey (s : State) (n : Nat) (x : Ctx) : (s.setCtx n x).blockKey = s.blockKey := rfl
@[simp] theorem setCtx_keyGen (s : State) (n : Nat) (x : Ctx) : (s.setCtx n x).keyGen = s.keyGen := rfl
@[simp] theorem setCtx_cores (s : State) (n : Nat) (x : Ctx) : (s.setCtx n x).cores = s.cores := rfl
@[simp] theorem setCtx_clusters (s : State) (n : Nat) (x : Ctx) : (s.setCtx n x).clusters = s.clusters := rfl
@[simp] theorem setCtx_rows (s : State) (n : Nat) (x : Ctx) : (s.setCtx n x).rows = s.rows := rfl
@[simp] theorem setCtx_work (s : State) (n : Nat) (x : Ctx) : (s.setCtx n x).work = s.work := rfl
@[simp] theorem setCtx_slotOwn (s : State) (n : Nat) (x : Ctx) : (s.setCtx n x).slotOwn = s.slotOwn := rfl
@[simp] theorem setCtx_cols (s : State) (n : Nat) (x : Ctx) : (s.setCtx n x).cols = s.cols := rfl
@[simp] theorem setCtx_gridRows (s : State) (n : Nat) (x : Ctx) : (s.setCtx n x).gridRows = s.gridRows := rfl
@[simp] theorem setCtx_stks (s : State) (n : Nat) (x : Ctx) : (s.setCtx n x).stks = s.stks := rfl
@[simp] theorem setCtx_zones (s : State) (n : Nat) (x : Ctx) : (s.setCtx n x).zones = s.zones := rfl
@[simp] theorem setCtx_parts (s : State) (n : Nat) (x : Ctx) : (s.setCtx n x).parts = s.parts := rfl
@[simp] theorem setCtx_launches (s : State) (n : Nat) (x : Ctx) : (s.setCtx n x).launches = s.launches := rfl
@[simp] theorem setCtx_graphs (s : State) (n : Nat) (x : Ctx) : (s.setCtx n x).graphs = s.graphs := rfl
@[simp] theorem setCtx_phases (s : State) (n : Nat) (x : Ctx) : (s.setCtx n x).phases = s.phases := rfl
@[simp] theorem setCtx_jobs (s : State) (n : Nat) (x : Ctx) : (s.setCtx n x).jobs = s.jobs := rfl
@[simp] theorem setCtx_nodeWait (s : State) (n : Nat) (x : Ctx) : (s.setCtx n x).nodeWait = s.nodeWait := rfl
@[simp] theorem setCtx_walkCache (s : State) (n : Nat) (x : Ctx) : (s.setCtx n x).walkCache = s.walkCache := rfl
@[simp] theorem setCtx_walkNext (s : State) (n : Nat) (x : Ctx) : (s.setCtx n x).walkNext = s.walkNext := rfl
@[simp] theorem setCtx_mbxCmd (s : State) (n : Nat) (x : Ctx) : (s.setCtx n x).mbxCmd = s.mbxCmd := rfl
@[simp] theorem setCtx_mbxStat (s : State) (n : Nat) (x : Ctx) : (s.setCtx n x).mbxStat = s.mbxStat := rfl
@[simp] theorem setCtx_powerLimit (s : State) (n : Nat) (x : Ctx) : (s.setCtx n x).powerLimit = s.powerLimit := rfl
@[simp] theorem setCtx_powerAt (s : State) (n : Nat) (x : Ctx) : (s.setCtx n x).powerAt = s.powerAt := rfl
@[simp] theorem setCtx_supplyBad (s : State) (n : Nat) (x : Ctx) : (s.setCtx n x).supplyBad = s.supplyBad := rfl
@[simp] theorem setCtx_peerBars (s : State) (n : Nat) (x : Ctx) : (s.setCtx n x).peerBars = s.peerBars := rfl
@[simp] theorem setCtx_hdmData (s : State) (n : Nat) (x : Ctx) : (s.setCtx n x).hdmData = s.hdmData := rfl
@[simp] theorem setCtx_farData (s : State) (n : Nat) (x : Ctx) : (s.setCtx n x).farData = s.farData := rfl
@[simp] theorem setCtx_booted (s : State) (n : Nat) (x : Ctx) : (s.setCtx n x).booted = s.booted := rfl
@[simp] theorem setCtx_farDown (s : State) (n : Nat) (x : Ctx) : (s.setCtx n x).farDown = s.farDown := rfl

/-! setCore -/
@[simp] theorem setCore_ctx (s : State) (n m : Nat) (x : Core) : (s.setCore n x).ctx m = s.ctx m := rfl
@[simp] theorem setCore_core_same (s : State) (n : Nat) (x : Core) : (s.setCore n x).core n = x := assocGet_assocSet_same _ _ _ _
theorem setCore_core_ne (s : State) {n m : Nat} (x : Core) (h : m ≠ n) : (s.setCore n x).core m = s.core m := assocGet_assocSet_ne _ _ _ h
@[simp] theorem setCore_setCore (s : State) (n : Nat) (x y : Core) : (s.setCore n x).setCore n y = s.setCore n y := by simp [State.setCore]
@[simp] theorem setCore_cluster (s : State) (n m : Nat) (x : Core) : (s.setCore n x).cluster m = s.cluster m := rfl
@[simp] theorem setCore_row (s : State) (n m : Nat) (x : Core) : (s.setCore n x).row m = s.row m := rfl
@[simp] theorem setCore_workRow (s : State) (n m : Nat) (x : Core) : (s.setCore n x).workRow m = s.workRow m := rfl
@[simp] theorem setCore_col (s : State) (n m : Nat) (x : Core) : (s.setCore n x).col m = s.col m := rfl
@[simp] theorem setCore_gridRow (s : State) (n m : Nat) (x : Core) : (s.setCore n x).gridRow m = s.gridRow m := rfl
@[simp] theorem setCore_stack (s : State) (n m : Nat) (x : Core) : (s.setCore n x).stack m = s.stack m := rfl
@[simp] theorem setCore_zone (s : State) (n m : Nat) (x : Core) : (s.setCore n x).zone m = s.zone m := rfl
@[simp] theorem setCore_part (s : State) (n m : Nat) (x : Core) : (s.setCore n x).part m = s.part m := rfl
@[simp] theorem setCore_launch (s : State) (n m : Nat) (x : Core) : (s.setCore n x).launch m = s.launch m := rfl
@[simp] theorem setCore_graph (s : State) (n p m : Nat) (x : Core) : (s.setCore n x).graph p m = s.graph p m := rfl
@[simp] theorem setCore_phase (s : State) (n p m : Nat) (x : Core) : (s.setCore n x).phase p m = s.phase p m := rfl
@[simp] theorem setCore_job (s : State) (n p m : Nat) (x : Core) : (s.setCore n x).job p m = s.job p m := rfl
@[simp] theorem setCore_mem (s : State) (n : Nat) (x : Core) : (s.setCore n x).mem = s.mem := rfl
@[simp] theorem setCore_host (s : State) (n : Nat) (x : Core) : (s.setCore n x).host = s.host := rfl
@[simp] theorem setCore_launchq (s : State) (n : Nat) (x : Core) : (s.setCore n x).launchq = s.launchq := rfl
@[simp] theorem setCore_timebase (s : State) (n : Nat) (x : Core) : (s.setCore n x).timebase = s.timebase := rfl
@[simp] theorem setCore_nextLaunch (s : State) (n : Nat) (x : Core) : (s.setCore n x).nextLaunch = s.nextLaunch := rfl
@[simp] theorem setCore_windows (s : State) (n : Nat) (x : Core) : (s.setCore n x).windows = s.windows := rfl
@[simp] theorem setCore_hdms (s : State) (n : Nat) (x : Core) : (s.setCore n x).hdms = s.hdms := rfl
@[simp] theorem setCore_msix (s : State) (n : Nat) (x : Core) : (s.setCore n x).msix = s.msix := rfl
@[simp] theorem setCore_mgmt (s : State) (n : Nat) (x : Core) : (s.setCore n x).mgmt = s.mgmt := rfl
@[simp] theorem setCore_pkg (s : State) (n : Nat) (x : Core) : (s.setCore n x).pkg = s.pkg := rfl
@[simp] theorem setCore_links (s : State) (n : Nat) (x : Core) : (s.setCore n x).links = s.links := rfl
@[simp] theorem setCore_peers (s : State) (n : Nat) (x : Core) : (s.setCore n x).peers = s.peers := rfl
@[simp] theorem setCore_agenda (s : State) (n : Nat) (x : Core) : (s.setCore n x).agenda = s.agenda := rfl
@[simp] theorem setCore_mbxGo (s : State) (n : Nat) (x : Core) : (s.setCore n x).mbxGo = s.mbxGo := rfl
@[simp] theorem setCore_linkq (s : State) (n : Nat) (x : Core) : (s.setCore n x).linkq = s.linkq := rfl
@[simp] theorem setCore_sensors (s : State) (n : Nat) (x : Core) : (s.setCore n x).sensors = s.sensors := rfl
@[simp] theorem setCore_cur (s : State) (n : Nat) (x : Core) : (s.setCore n x).cur = s.cur := rfl
@[simp] theorem setCore_curK (s : State) (n : Nat) (x : Core) : (s.setCore n x).curK = s.curK := rfl
@[simp] theorem setCore_raw (s : State) (n : Nat) (x : Core) : (s.setCore n x).raw = s.raw := rfl
@[simp] theorem setCore_limm (s : State) (n : Nat) (x : Core) : (s.setCore n x).limm = s.limm := rfl
@[simp] theorem setCore_npc (s : State) (n : Nat) (x : Core) : (s.setCore n x).npc = s.npc := rfl
@[simp] theorem setCore_mark (s : State) (n : Nat) (x : Core) : (s.setCore n x).mark = s.mark := rfl
@[simp] theorem setCore_tick (s : State) (n : Nat) (x : Core) : (s.setCore n x).tick = s.tick := rfl
@[simp] theorem setCore_blockKey (s : State) (n : Nat) (x : Core) : (s.setCore n x).blockKey = s.blockKey := rfl
@[simp] theorem setCore_keyGen (s : State) (n : Nat) (x : Core) : (s.setCore n x).keyGen = s.keyGen := rfl
@[simp] theorem setCore_ctxs (s : State) (n : Nat) (x : Core) : (s.setCore n x).ctxs = s.ctxs := rfl
@[simp] theorem setCore_clusters (s : State) (n : Nat) (x : Core) : (s.setCore n x).clusters = s.clusters := rfl
@[simp] theorem setCore_rows (s : State) (n : Nat) (x : Core) : (s.setCore n x).rows = s.rows := rfl
@[simp] theorem setCore_work (s : State) (n : Nat) (x : Core) : (s.setCore n x).work = s.work := rfl
@[simp] theorem setCore_slotOwn (s : State) (n : Nat) (x : Core) : (s.setCore n x).slotOwn = s.slotOwn := rfl
@[simp] theorem setCore_cols (s : State) (n : Nat) (x : Core) : (s.setCore n x).cols = s.cols := rfl
@[simp] theorem setCore_gridRows (s : State) (n : Nat) (x : Core) : (s.setCore n x).gridRows = s.gridRows := rfl
@[simp] theorem setCore_stks (s : State) (n : Nat) (x : Core) : (s.setCore n x).stks = s.stks := rfl
@[simp] theorem setCore_zones (s : State) (n : Nat) (x : Core) : (s.setCore n x).zones = s.zones := rfl
@[simp] theorem setCore_parts (s : State) (n : Nat) (x : Core) : (s.setCore n x).parts = s.parts := rfl
@[simp] theorem setCore_launches (s : State) (n : Nat) (x : Core) : (s.setCore n x).launches = s.launches := rfl
@[simp] theorem setCore_graphs (s : State) (n : Nat) (x : Core) : (s.setCore n x).graphs = s.graphs := rfl
@[simp] theorem setCore_phases (s : State) (n : Nat) (x : Core) : (s.setCore n x).phases = s.phases := rfl
@[simp] theorem setCore_jobs (s : State) (n : Nat) (x : Core) : (s.setCore n x).jobs = s.jobs := rfl
@[simp] theorem setCore_nodeWait (s : State) (n : Nat) (x : Core) : (s.setCore n x).nodeWait = s.nodeWait := rfl
@[simp] theorem setCore_walkCache (s : State) (n : Nat) (x : Core) : (s.setCore n x).walkCache = s.walkCache := rfl
@[simp] theorem setCore_walkNext (s : State) (n : Nat) (x : Core) : (s.setCore n x).walkNext = s.walkNext := rfl
@[simp] theorem setCore_mbxCmd (s : State) (n : Nat) (x : Core) : (s.setCore n x).mbxCmd = s.mbxCmd := rfl
@[simp] theorem setCore_mbxStat (s : State) (n : Nat) (x : Core) : (s.setCore n x).mbxStat = s.mbxStat := rfl
@[simp] theorem setCore_powerLimit (s : State) (n : Nat) (x : Core) : (s.setCore n x).powerLimit = s.powerLimit := rfl
@[simp] theorem setCore_powerAt (s : State) (n : Nat) (x : Core) : (s.setCore n x).powerAt = s.powerAt := rfl
@[simp] theorem setCore_supplyBad (s : State) (n : Nat) (x : Core) : (s.setCore n x).supplyBad = s.supplyBad := rfl
@[simp] theorem setCore_peerBars (s : State) (n : Nat) (x : Core) : (s.setCore n x).peerBars = s.peerBars := rfl
@[simp] theorem setCore_hdmData (s : State) (n : Nat) (x : Core) : (s.setCore n x).hdmData = s.hdmData := rfl
@[simp] theorem setCore_farData (s : State) (n : Nat) (x : Core) : (s.setCore n x).farData = s.farData := rfl
@[simp] theorem setCore_booted (s : State) (n : Nat) (x : Core) : (s.setCore n x).booted = s.booted := rfl
@[simp] theorem setCore_farDown (s : State) (n : Nat) (x : Core) : (s.setCore n x).farDown = s.farDown := rfl

/-! setCluster -/
@[simp] theorem setCluster_ctx (s : State) (n m : Nat) (x : Cluster) : (s.setCluster n x).ctx m = s.ctx m := rfl
@[simp] theorem setCluster_core (s : State) (n m : Nat) (x : Cluster) : (s.setCluster n x).core m = s.core m := rfl
@[simp] theorem setCluster_cluster_same (s : State) (n : Nat) (x : Cluster) : (s.setCluster n x).cluster n = x := assocGet_assocSet_same _ _ _ _
theorem setCluster_cluster_ne (s : State) {n m : Nat} (x : Cluster) (h : m ≠ n) : (s.setCluster n x).cluster m = s.cluster m := assocGet_assocSet_ne _ _ _ h
@[simp] theorem setCluster_setCluster (s : State) (n : Nat) (x y : Cluster) : (s.setCluster n x).setCluster n y = s.setCluster n y := by simp [State.setCluster]
@[simp] theorem setCluster_row (s : State) (n m : Nat) (x : Cluster) : (s.setCluster n x).row m = s.row m := rfl
@[simp] theorem setCluster_workRow (s : State) (n m : Nat) (x : Cluster) : (s.setCluster n x).workRow m = s.workRow m := rfl
@[simp] theorem setCluster_col (s : State) (n m : Nat) (x : Cluster) : (s.setCluster n x).col m = s.col m := rfl
@[simp] theorem setCluster_gridRow (s : State) (n m : Nat) (x : Cluster) : (s.setCluster n x).gridRow m = s.gridRow m := rfl
@[simp] theorem setCluster_stack (s : State) (n m : Nat) (x : Cluster) : (s.setCluster n x).stack m = s.stack m := rfl
@[simp] theorem setCluster_zone (s : State) (n m : Nat) (x : Cluster) : (s.setCluster n x).zone m = s.zone m := rfl
@[simp] theorem setCluster_part (s : State) (n m : Nat) (x : Cluster) : (s.setCluster n x).part m = s.part m := rfl
@[simp] theorem setCluster_launch (s : State) (n m : Nat) (x : Cluster) : (s.setCluster n x).launch m = s.launch m := rfl
@[simp] theorem setCluster_graph (s : State) (n p m : Nat) (x : Cluster) : (s.setCluster n x).graph p m = s.graph p m := rfl
@[simp] theorem setCluster_phase (s : State) (n p m : Nat) (x : Cluster) : (s.setCluster n x).phase p m = s.phase p m := rfl
@[simp] theorem setCluster_job (s : State) (n p m : Nat) (x : Cluster) : (s.setCluster n x).job p m = s.job p m := rfl
@[simp] theorem setCluster_mem (s : State) (n : Nat) (x : Cluster) : (s.setCluster n x).mem = s.mem := rfl
@[simp] theorem setCluster_host (s : State) (n : Nat) (x : Cluster) : (s.setCluster n x).host = s.host := rfl
@[simp] theorem setCluster_launchq (s : State) (n : Nat) (x : Cluster) : (s.setCluster n x).launchq = s.launchq := rfl
@[simp] theorem setCluster_timebase (s : State) (n : Nat) (x : Cluster) : (s.setCluster n x).timebase = s.timebase := rfl
@[simp] theorem setCluster_nextLaunch (s : State) (n : Nat) (x : Cluster) : (s.setCluster n x).nextLaunch = s.nextLaunch := rfl
@[simp] theorem setCluster_windows (s : State) (n : Nat) (x : Cluster) : (s.setCluster n x).windows = s.windows := rfl
@[simp] theorem setCluster_hdms (s : State) (n : Nat) (x : Cluster) : (s.setCluster n x).hdms = s.hdms := rfl
@[simp] theorem setCluster_msix (s : State) (n : Nat) (x : Cluster) : (s.setCluster n x).msix = s.msix := rfl
@[simp] theorem setCluster_mgmt (s : State) (n : Nat) (x : Cluster) : (s.setCluster n x).mgmt = s.mgmt := rfl
@[simp] theorem setCluster_pkg (s : State) (n : Nat) (x : Cluster) : (s.setCluster n x).pkg = s.pkg := rfl
@[simp] theorem setCluster_links (s : State) (n : Nat) (x : Cluster) : (s.setCluster n x).links = s.links := rfl
@[simp] theorem setCluster_peers (s : State) (n : Nat) (x : Cluster) : (s.setCluster n x).peers = s.peers := rfl
@[simp] theorem setCluster_agenda (s : State) (n : Nat) (x : Cluster) : (s.setCluster n x).agenda = s.agenda := rfl
@[simp] theorem setCluster_mbxGo (s : State) (n : Nat) (x : Cluster) : (s.setCluster n x).mbxGo = s.mbxGo := rfl
@[simp] theorem setCluster_linkq (s : State) (n : Nat) (x : Cluster) : (s.setCluster n x).linkq = s.linkq := rfl
@[simp] theorem setCluster_sensors (s : State) (n : Nat) (x : Cluster) : (s.setCluster n x).sensors = s.sensors := rfl
@[simp] theorem setCluster_cur (s : State) (n : Nat) (x : Cluster) : (s.setCluster n x).cur = s.cur := rfl
@[simp] theorem setCluster_curK (s : State) (n : Nat) (x : Cluster) : (s.setCluster n x).curK = s.curK := rfl
@[simp] theorem setCluster_raw (s : State) (n : Nat) (x : Cluster) : (s.setCluster n x).raw = s.raw := rfl
@[simp] theorem setCluster_limm (s : State) (n : Nat) (x : Cluster) : (s.setCluster n x).limm = s.limm := rfl
@[simp] theorem setCluster_npc (s : State) (n : Nat) (x : Cluster) : (s.setCluster n x).npc = s.npc := rfl
@[simp] theorem setCluster_mark (s : State) (n : Nat) (x : Cluster) : (s.setCluster n x).mark = s.mark := rfl
@[simp] theorem setCluster_tick (s : State) (n : Nat) (x : Cluster) : (s.setCluster n x).tick = s.tick := rfl
@[simp] theorem setCluster_blockKey (s : State) (n : Nat) (x : Cluster) : (s.setCluster n x).blockKey = s.blockKey := rfl
@[simp] theorem setCluster_keyGen (s : State) (n : Nat) (x : Cluster) : (s.setCluster n x).keyGen = s.keyGen := rfl
@[simp] theorem setCluster_ctxs (s : State) (n : Nat) (x : Cluster) : (s.setCluster n x).ctxs = s.ctxs := rfl
@[simp] theorem setCluster_cores (s : State) (n : Nat) (x : Cluster) : (s.setCluster n x).cores = s.cores := rfl
@[simp] theorem setCluster_rows (s : State) (n : Nat) (x : Cluster) : (s.setCluster n x).rows = s.rows := rfl
@[simp] theorem setCluster_work (s : State) (n : Nat) (x : Cluster) : (s.setCluster n x).work = s.work := rfl
@[simp] theorem setCluster_slotOwn (s : State) (n : Nat) (x : Cluster) : (s.setCluster n x).slotOwn = s.slotOwn := rfl
@[simp] theorem setCluster_cols (s : State) (n : Nat) (x : Cluster) : (s.setCluster n x).cols = s.cols := rfl
@[simp] theorem setCluster_gridRows (s : State) (n : Nat) (x : Cluster) : (s.setCluster n x).gridRows = s.gridRows := rfl
@[simp] theorem setCluster_stks (s : State) (n : Nat) (x : Cluster) : (s.setCluster n x).stks = s.stks := rfl
@[simp] theorem setCluster_zones (s : State) (n : Nat) (x : Cluster) : (s.setCluster n x).zones = s.zones := rfl
@[simp] theorem setCluster_parts (s : State) (n : Nat) (x : Cluster) : (s.setCluster n x).parts = s.parts := rfl
@[simp] theorem setCluster_launches (s : State) (n : Nat) (x : Cluster) : (s.setCluster n x).launches = s.launches := rfl
@[simp] theorem setCluster_graphs (s : State) (n : Nat) (x : Cluster) : (s.setCluster n x).graphs = s.graphs := rfl
@[simp] theorem setCluster_phases (s : State) (n : Nat) (x : Cluster) : (s.setCluster n x).phases = s.phases := rfl
@[simp] theorem setCluster_jobs (s : State) (n : Nat) (x : Cluster) : (s.setCluster n x).jobs = s.jobs := rfl
@[simp] theorem setCluster_nodeWait (s : State) (n : Nat) (x : Cluster) : (s.setCluster n x).nodeWait = s.nodeWait := rfl
@[simp] theorem setCluster_walkCache (s : State) (n : Nat) (x : Cluster) : (s.setCluster n x).walkCache = s.walkCache := rfl
@[simp] theorem setCluster_walkNext (s : State) (n : Nat) (x : Cluster) : (s.setCluster n x).walkNext = s.walkNext := rfl
@[simp] theorem setCluster_mbxCmd (s : State) (n : Nat) (x : Cluster) : (s.setCluster n x).mbxCmd = s.mbxCmd := rfl
@[simp] theorem setCluster_mbxStat (s : State) (n : Nat) (x : Cluster) : (s.setCluster n x).mbxStat = s.mbxStat := rfl
@[simp] theorem setCluster_powerLimit (s : State) (n : Nat) (x : Cluster) : (s.setCluster n x).powerLimit = s.powerLimit := rfl
@[simp] theorem setCluster_powerAt (s : State) (n : Nat) (x : Cluster) : (s.setCluster n x).powerAt = s.powerAt := rfl
@[simp] theorem setCluster_supplyBad (s : State) (n : Nat) (x : Cluster) : (s.setCluster n x).supplyBad = s.supplyBad := rfl
@[simp] theorem setCluster_peerBars (s : State) (n : Nat) (x : Cluster) : (s.setCluster n x).peerBars = s.peerBars := rfl
@[simp] theorem setCluster_hdmData (s : State) (n : Nat) (x : Cluster) : (s.setCluster n x).hdmData = s.hdmData := rfl
@[simp] theorem setCluster_farData (s : State) (n : Nat) (x : Cluster) : (s.setCluster n x).farData = s.farData := rfl
@[simp] theorem setCluster_booted (s : State) (n : Nat) (x : Cluster) : (s.setCluster n x).booted = s.booted := rfl
@[simp] theorem setCluster_farDown (s : State) (n : Nat) (x : Cluster) : (s.setCluster n x).farDown = s.farDown := rfl

/-! setRow -/
@[simp] theorem setRow_ctx (s : State) (n m : Nat) (x : SlotRow) : (s.setRow n x).ctx m = s.ctx m := rfl
@[simp] theorem setRow_core (s : State) (n m : Nat) (x : SlotRow) : (s.setRow n x).core m = s.core m := rfl
@[simp] theorem setRow_cluster (s : State) (n m : Nat) (x : SlotRow) : (s.setRow n x).cluster m = s.cluster m := rfl
@[simp] theorem setRow_row_same (s : State) (n : Nat) (x : SlotRow) : (s.setRow n x).row n = x := assocGet_assocSet_same _ _ _ _
theorem setRow_row_ne (s : State) {n m : Nat} (x : SlotRow) (h : m ≠ n) : (s.setRow n x).row m = s.row m := assocGet_assocSet_ne _ _ _ h
@[simp] theorem setRow_setRow (s : State) (n : Nat) (x y : SlotRow) : (s.setRow n x).setRow n y = s.setRow n y := by simp [State.setRow]
@[simp] theorem setRow_workRow (s : State) (n m : Nat) (x : SlotRow) : (s.setRow n x).workRow m = s.workRow m := rfl
@[simp] theorem setRow_col (s : State) (n m : Nat) (x : SlotRow) : (s.setRow n x).col m = s.col m := rfl
@[simp] theorem setRow_gridRow (s : State) (n m : Nat) (x : SlotRow) : (s.setRow n x).gridRow m = s.gridRow m := rfl
@[simp] theorem setRow_stack (s : State) (n m : Nat) (x : SlotRow) : (s.setRow n x).stack m = s.stack m := rfl
@[simp] theorem setRow_zone (s : State) (n m : Nat) (x : SlotRow) : (s.setRow n x).zone m = s.zone m := rfl
@[simp] theorem setRow_part (s : State) (n m : Nat) (x : SlotRow) : (s.setRow n x).part m = s.part m := rfl
@[simp] theorem setRow_launch (s : State) (n m : Nat) (x : SlotRow) : (s.setRow n x).launch m = s.launch m := rfl
@[simp] theorem setRow_graph (s : State) (n p m : Nat) (x : SlotRow) : (s.setRow n x).graph p m = s.graph p m := rfl
@[simp] theorem setRow_phase (s : State) (n p m : Nat) (x : SlotRow) : (s.setRow n x).phase p m = s.phase p m := rfl
@[simp] theorem setRow_job (s : State) (n p m : Nat) (x : SlotRow) : (s.setRow n x).job p m = s.job p m := rfl
@[simp] theorem setRow_mem (s : State) (n : Nat) (x : SlotRow) : (s.setRow n x).mem = s.mem := rfl
@[simp] theorem setRow_host (s : State) (n : Nat) (x : SlotRow) : (s.setRow n x).host = s.host := rfl
@[simp] theorem setRow_launchq (s : State) (n : Nat) (x : SlotRow) : (s.setRow n x).launchq = s.launchq := rfl
@[simp] theorem setRow_timebase (s : State) (n : Nat) (x : SlotRow) : (s.setRow n x).timebase = s.timebase := rfl
@[simp] theorem setRow_nextLaunch (s : State) (n : Nat) (x : SlotRow) : (s.setRow n x).nextLaunch = s.nextLaunch := rfl
@[simp] theorem setRow_windows (s : State) (n : Nat) (x : SlotRow) : (s.setRow n x).windows = s.windows := rfl
@[simp] theorem setRow_hdms (s : State) (n : Nat) (x : SlotRow) : (s.setRow n x).hdms = s.hdms := rfl
@[simp] theorem setRow_msix (s : State) (n : Nat) (x : SlotRow) : (s.setRow n x).msix = s.msix := rfl
@[simp] theorem setRow_mgmt (s : State) (n : Nat) (x : SlotRow) : (s.setRow n x).mgmt = s.mgmt := rfl
@[simp] theorem setRow_pkg (s : State) (n : Nat) (x : SlotRow) : (s.setRow n x).pkg = s.pkg := rfl
@[simp] theorem setRow_links (s : State) (n : Nat) (x : SlotRow) : (s.setRow n x).links = s.links := rfl
@[simp] theorem setRow_peers (s : State) (n : Nat) (x : SlotRow) : (s.setRow n x).peers = s.peers := rfl
@[simp] theorem setRow_agenda (s : State) (n : Nat) (x : SlotRow) : (s.setRow n x).agenda = s.agenda := rfl
@[simp] theorem setRow_mbxGo (s : State) (n : Nat) (x : SlotRow) : (s.setRow n x).mbxGo = s.mbxGo := rfl
@[simp] theorem setRow_linkq (s : State) (n : Nat) (x : SlotRow) : (s.setRow n x).linkq = s.linkq := rfl
@[simp] theorem setRow_sensors (s : State) (n : Nat) (x : SlotRow) : (s.setRow n x).sensors = s.sensors := rfl
@[simp] theorem setRow_cur (s : State) (n : Nat) (x : SlotRow) : (s.setRow n x).cur = s.cur := rfl
@[simp] theorem setRow_curK (s : State) (n : Nat) (x : SlotRow) : (s.setRow n x).curK = s.curK := rfl
@[simp] theorem setRow_raw (s : State) (n : Nat) (x : SlotRow) : (s.setRow n x).raw = s.raw := rfl
@[simp] theorem setRow_limm (s : State) (n : Nat) (x : SlotRow) : (s.setRow n x).limm = s.limm := rfl
@[simp] theorem setRow_npc (s : State) (n : Nat) (x : SlotRow) : (s.setRow n x).npc = s.npc := rfl
@[simp] theorem setRow_mark (s : State) (n : Nat) (x : SlotRow) : (s.setRow n x).mark = s.mark := rfl
@[simp] theorem setRow_tick (s : State) (n : Nat) (x : SlotRow) : (s.setRow n x).tick = s.tick := rfl
@[simp] theorem setRow_blockKey (s : State) (n : Nat) (x : SlotRow) : (s.setRow n x).blockKey = s.blockKey := rfl
@[simp] theorem setRow_keyGen (s : State) (n : Nat) (x : SlotRow) : (s.setRow n x).keyGen = s.keyGen := rfl
@[simp] theorem setRow_ctxs (s : State) (n : Nat) (x : SlotRow) : (s.setRow n x).ctxs = s.ctxs := rfl
@[simp] theorem setRow_cores (s : State) (n : Nat) (x : SlotRow) : (s.setRow n x).cores = s.cores := rfl
@[simp] theorem setRow_clusters (s : State) (n : Nat) (x : SlotRow) : (s.setRow n x).clusters = s.clusters := rfl
@[simp] theorem setRow_work (s : State) (n : Nat) (x : SlotRow) : (s.setRow n x).work = s.work := rfl
@[simp] theorem setRow_slotOwn (s : State) (n : Nat) (x : SlotRow) : (s.setRow n x).slotOwn = s.slotOwn := rfl
@[simp] theorem setRow_cols (s : State) (n : Nat) (x : SlotRow) : (s.setRow n x).cols = s.cols := rfl
@[simp] theorem setRow_gridRows (s : State) (n : Nat) (x : SlotRow) : (s.setRow n x).gridRows = s.gridRows := rfl
@[simp] theorem setRow_stks (s : State) (n : Nat) (x : SlotRow) : (s.setRow n x).stks = s.stks := rfl
@[simp] theorem setRow_zones (s : State) (n : Nat) (x : SlotRow) : (s.setRow n x).zones = s.zones := rfl
@[simp] theorem setRow_parts (s : State) (n : Nat) (x : SlotRow) : (s.setRow n x).parts = s.parts := rfl
@[simp] theorem setRow_launches (s : State) (n : Nat) (x : SlotRow) : (s.setRow n x).launches = s.launches := rfl
@[simp] theorem setRow_graphs (s : State) (n : Nat) (x : SlotRow) : (s.setRow n x).graphs = s.graphs := rfl
@[simp] theorem setRow_phases (s : State) (n : Nat) (x : SlotRow) : (s.setRow n x).phases = s.phases := rfl
@[simp] theorem setRow_jobs (s : State) (n : Nat) (x : SlotRow) : (s.setRow n x).jobs = s.jobs := rfl
@[simp] theorem setRow_nodeWait (s : State) (n : Nat) (x : SlotRow) : (s.setRow n x).nodeWait = s.nodeWait := rfl
@[simp] theorem setRow_walkCache (s : State) (n : Nat) (x : SlotRow) : (s.setRow n x).walkCache = s.walkCache := rfl
@[simp] theorem setRow_walkNext (s : State) (n : Nat) (x : SlotRow) : (s.setRow n x).walkNext = s.walkNext := rfl
@[simp] theorem setRow_mbxCmd (s : State) (n : Nat) (x : SlotRow) : (s.setRow n x).mbxCmd = s.mbxCmd := rfl
@[simp] theorem setRow_mbxStat (s : State) (n : Nat) (x : SlotRow) : (s.setRow n x).mbxStat = s.mbxStat := rfl
@[simp] theorem setRow_powerLimit (s : State) (n : Nat) (x : SlotRow) : (s.setRow n x).powerLimit = s.powerLimit := rfl
@[simp] theorem setRow_powerAt (s : State) (n : Nat) (x : SlotRow) : (s.setRow n x).powerAt = s.powerAt := rfl
@[simp] theorem setRow_supplyBad (s : State) (n : Nat) (x : SlotRow) : (s.setRow n x).supplyBad = s.supplyBad := rfl
@[simp] theorem setRow_peerBars (s : State) (n : Nat) (x : SlotRow) : (s.setRow n x).peerBars = s.peerBars := rfl
@[simp] theorem setRow_hdmData (s : State) (n : Nat) (x : SlotRow) : (s.setRow n x).hdmData = s.hdmData := rfl
@[simp] theorem setRow_farData (s : State) (n : Nat) (x : SlotRow) : (s.setRow n x).farData = s.farData := rfl
@[simp] theorem setRow_booted (s : State) (n : Nat) (x : SlotRow) : (s.setRow n x).booted = s.booted := rfl
@[simp] theorem setRow_farDown (s : State) (n : Nat) (x : SlotRow) : (s.setRow n x).farDown = s.farDown := rfl

/-! setWork -/
@[simp] theorem setWork_ctx (s : State) (n m : Nat) (x : SlotRow) : (s.setWork n x).ctx m = s.ctx m := rfl
@[simp] theorem setWork_core (s : State) (n m : Nat) (x : SlotRow) : (s.setWork n x).core m = s.core m := rfl
@[simp] theorem setWork_cluster (s : State) (n m : Nat) (x : SlotRow) : (s.setWork n x).cluster m = s.cluster m := rfl
@[simp] theorem setWork_row (s : State) (n m : Nat) (x : SlotRow) : (s.setWork n x).row m = s.row m := rfl
@[simp] theorem setWork_workRow_same (s : State) (n : Nat) (x : SlotRow) : (s.setWork n x).workRow n = x := assocGet_assocSet_same _ _ _ _
theorem setWork_workRow_ne (s : State) {n m : Nat} (x : SlotRow) (h : m ≠ n) : (s.setWork n x).workRow m = s.workRow m := assocGet_assocSet_ne _ _ _ h
@[simp] theorem setWork_setWork (s : State) (n : Nat) (x y : SlotRow) : (s.setWork n x).setWork n y = s.setWork n y := by simp [State.setWork]
@[simp] theorem setWork_col (s : State) (n m : Nat) (x : SlotRow) : (s.setWork n x).col m = s.col m := rfl
@[simp] theorem setWork_gridRow (s : State) (n m : Nat) (x : SlotRow) : (s.setWork n x).gridRow m = s.gridRow m := rfl
@[simp] theorem setWork_stack (s : State) (n m : Nat) (x : SlotRow) : (s.setWork n x).stack m = s.stack m := rfl
@[simp] theorem setWork_zone (s : State) (n m : Nat) (x : SlotRow) : (s.setWork n x).zone m = s.zone m := rfl
@[simp] theorem setWork_part (s : State) (n m : Nat) (x : SlotRow) : (s.setWork n x).part m = s.part m := rfl
@[simp] theorem setWork_launch (s : State) (n m : Nat) (x : SlotRow) : (s.setWork n x).launch m = s.launch m := rfl
@[simp] theorem setWork_graph (s : State) (n p m : Nat) (x : SlotRow) : (s.setWork n x).graph p m = s.graph p m := rfl
@[simp] theorem setWork_phase (s : State) (n p m : Nat) (x : SlotRow) : (s.setWork n x).phase p m = s.phase p m := rfl
@[simp] theorem setWork_job (s : State) (n p m : Nat) (x : SlotRow) : (s.setWork n x).job p m = s.job p m := rfl
@[simp] theorem setWork_mem (s : State) (n : Nat) (x : SlotRow) : (s.setWork n x).mem = s.mem := rfl
@[simp] theorem setWork_host (s : State) (n : Nat) (x : SlotRow) : (s.setWork n x).host = s.host := rfl
@[simp] theorem setWork_launchq (s : State) (n : Nat) (x : SlotRow) : (s.setWork n x).launchq = s.launchq := rfl
@[simp] theorem setWork_timebase (s : State) (n : Nat) (x : SlotRow) : (s.setWork n x).timebase = s.timebase := rfl
@[simp] theorem setWork_nextLaunch (s : State) (n : Nat) (x : SlotRow) : (s.setWork n x).nextLaunch = s.nextLaunch := rfl
@[simp] theorem setWork_windows (s : State) (n : Nat) (x : SlotRow) : (s.setWork n x).windows = s.windows := rfl
@[simp] theorem setWork_hdms (s : State) (n : Nat) (x : SlotRow) : (s.setWork n x).hdms = s.hdms := rfl
@[simp] theorem setWork_msix (s : State) (n : Nat) (x : SlotRow) : (s.setWork n x).msix = s.msix := rfl
@[simp] theorem setWork_mgmt (s : State) (n : Nat) (x : SlotRow) : (s.setWork n x).mgmt = s.mgmt := rfl
@[simp] theorem setWork_pkg (s : State) (n : Nat) (x : SlotRow) : (s.setWork n x).pkg = s.pkg := rfl
@[simp] theorem setWork_links (s : State) (n : Nat) (x : SlotRow) : (s.setWork n x).links = s.links := rfl
@[simp] theorem setWork_peers (s : State) (n : Nat) (x : SlotRow) : (s.setWork n x).peers = s.peers := rfl
@[simp] theorem setWork_agenda (s : State) (n : Nat) (x : SlotRow) : (s.setWork n x).agenda = s.agenda := rfl
@[simp] theorem setWork_mbxGo (s : State) (n : Nat) (x : SlotRow) : (s.setWork n x).mbxGo = s.mbxGo := rfl
@[simp] theorem setWork_linkq (s : State) (n : Nat) (x : SlotRow) : (s.setWork n x).linkq = s.linkq := rfl
@[simp] theorem setWork_sensors (s : State) (n : Nat) (x : SlotRow) : (s.setWork n x).sensors = s.sensors := rfl
@[simp] theorem setWork_cur (s : State) (n : Nat) (x : SlotRow) : (s.setWork n x).cur = s.cur := rfl
@[simp] theorem setWork_curK (s : State) (n : Nat) (x : SlotRow) : (s.setWork n x).curK = s.curK := rfl
@[simp] theorem setWork_raw (s : State) (n : Nat) (x : SlotRow) : (s.setWork n x).raw = s.raw := rfl
@[simp] theorem setWork_limm (s : State) (n : Nat) (x : SlotRow) : (s.setWork n x).limm = s.limm := rfl
@[simp] theorem setWork_npc (s : State) (n : Nat) (x : SlotRow) : (s.setWork n x).npc = s.npc := rfl
@[simp] theorem setWork_mark (s : State) (n : Nat) (x : SlotRow) : (s.setWork n x).mark = s.mark := rfl
@[simp] theorem setWork_tick (s : State) (n : Nat) (x : SlotRow) : (s.setWork n x).tick = s.tick := rfl
@[simp] theorem setWork_blockKey (s : State) (n : Nat) (x : SlotRow) : (s.setWork n x).blockKey = s.blockKey := rfl
@[simp] theorem setWork_keyGen (s : State) (n : Nat) (x : SlotRow) : (s.setWork n x).keyGen = s.keyGen := rfl
@[simp] theorem setWork_ctxs (s : State) (n : Nat) (x : SlotRow) : (s.setWork n x).ctxs = s.ctxs := rfl
@[simp] theorem setWork_cores (s : State) (n : Nat) (x : SlotRow) : (s.setWork n x).cores = s.cores := rfl
@[simp] theorem setWork_clusters (s : State) (n : Nat) (x : SlotRow) : (s.setWork n x).clusters = s.clusters := rfl
@[simp] theorem setWork_rows (s : State) (n : Nat) (x : SlotRow) : (s.setWork n x).rows = s.rows := rfl
@[simp] theorem setWork_slotOwn (s : State) (n : Nat) (x : SlotRow) : (s.setWork n x).slotOwn = s.slotOwn := rfl
@[simp] theorem setWork_cols (s : State) (n : Nat) (x : SlotRow) : (s.setWork n x).cols = s.cols := rfl
@[simp] theorem setWork_gridRows (s : State) (n : Nat) (x : SlotRow) : (s.setWork n x).gridRows = s.gridRows := rfl
@[simp] theorem setWork_stks (s : State) (n : Nat) (x : SlotRow) : (s.setWork n x).stks = s.stks := rfl
@[simp] theorem setWork_zones (s : State) (n : Nat) (x : SlotRow) : (s.setWork n x).zones = s.zones := rfl
@[simp] theorem setWork_parts (s : State) (n : Nat) (x : SlotRow) : (s.setWork n x).parts = s.parts := rfl
@[simp] theorem setWork_launches (s : State) (n : Nat) (x : SlotRow) : (s.setWork n x).launches = s.launches := rfl
@[simp] theorem setWork_graphs (s : State) (n : Nat) (x : SlotRow) : (s.setWork n x).graphs = s.graphs := rfl
@[simp] theorem setWork_phases (s : State) (n : Nat) (x : SlotRow) : (s.setWork n x).phases = s.phases := rfl
@[simp] theorem setWork_jobs (s : State) (n : Nat) (x : SlotRow) : (s.setWork n x).jobs = s.jobs := rfl
@[simp] theorem setWork_nodeWait (s : State) (n : Nat) (x : SlotRow) : (s.setWork n x).nodeWait = s.nodeWait := rfl
@[simp] theorem setWork_walkCache (s : State) (n : Nat) (x : SlotRow) : (s.setWork n x).walkCache = s.walkCache := rfl
@[simp] theorem setWork_walkNext (s : State) (n : Nat) (x : SlotRow) : (s.setWork n x).walkNext = s.walkNext := rfl
@[simp] theorem setWork_mbxCmd (s : State) (n : Nat) (x : SlotRow) : (s.setWork n x).mbxCmd = s.mbxCmd := rfl
@[simp] theorem setWork_mbxStat (s : State) (n : Nat) (x : SlotRow) : (s.setWork n x).mbxStat = s.mbxStat := rfl
@[simp] theorem setWork_powerLimit (s : State) (n : Nat) (x : SlotRow) : (s.setWork n x).powerLimit = s.powerLimit := rfl
@[simp] theorem setWork_powerAt (s : State) (n : Nat) (x : SlotRow) : (s.setWork n x).powerAt = s.powerAt := rfl
@[simp] theorem setWork_supplyBad (s : State) (n : Nat) (x : SlotRow) : (s.setWork n x).supplyBad = s.supplyBad := rfl
@[simp] theorem setWork_peerBars (s : State) (n : Nat) (x : SlotRow) : (s.setWork n x).peerBars = s.peerBars := rfl
@[simp] theorem setWork_hdmData (s : State) (n : Nat) (x : SlotRow) : (s.setWork n x).hdmData = s.hdmData := rfl
@[simp] theorem setWork_farData (s : State) (n : Nat) (x : SlotRow) : (s.setWork n x).farData = s.farData := rfl
@[simp] theorem setWork_booted (s : State) (n : Nat) (x : SlotRow) : (s.setWork n x).booted = s.booted := rfl
@[simp] theorem setWork_farDown (s : State) (n : Nat) (x : SlotRow) : (s.setWork n x).farDown = s.farDown := rfl

/-! setCol -/
@[simp] theorem setCol_ctx (s : State) (n m : Nat) (x : Column) : (s.setCol n x).ctx m = s.ctx m := rfl
@[simp] theorem setCol_core (s : State) (n m : Nat) (x : Column) : (s.setCol n x).core m = s.core m := rfl
@[simp] theorem setCol_cluster (s : State) (n m : Nat) (x : Column) : (s.setCol n x).cluster m = s.cluster m := rfl
@[simp] theorem setCol_row (s : State) (n m : Nat) (x : Column) : (s.setCol n x).row m = s.row m := rfl
@[simp] theorem setCol_workRow (s : State) (n m : Nat) (x : Column) : (s.setCol n x).workRow m = s.workRow m := rfl
@[simp] theorem setCol_col_same (s : State) (n : Nat) (x : Column) : (s.setCol n x).col n = x := assocGet_assocSet_same _ _ _ _
theorem setCol_col_ne (s : State) {n m : Nat} (x : Column) (h : m ≠ n) : (s.setCol n x).col m = s.col m := assocGet_assocSet_ne _ _ _ h
@[simp] theorem setCol_setCol (s : State) (n : Nat) (x y : Column) : (s.setCol n x).setCol n y = s.setCol n y := by simp [State.setCol]
@[simp] theorem setCol_gridRow (s : State) (n m : Nat) (x : Column) : (s.setCol n x).gridRow m = s.gridRow m := rfl
@[simp] theorem setCol_stack (s : State) (n m : Nat) (x : Column) : (s.setCol n x).stack m = s.stack m := rfl
@[simp] theorem setCol_zone (s : State) (n m : Nat) (x : Column) : (s.setCol n x).zone m = s.zone m := rfl
@[simp] theorem setCol_part (s : State) (n m : Nat) (x : Column) : (s.setCol n x).part m = s.part m := rfl
@[simp] theorem setCol_launch (s : State) (n m : Nat) (x : Column) : (s.setCol n x).launch m = s.launch m := rfl
@[simp] theorem setCol_graph (s : State) (n p m : Nat) (x : Column) : (s.setCol n x).graph p m = s.graph p m := rfl
@[simp] theorem setCol_phase (s : State) (n p m : Nat) (x : Column) : (s.setCol n x).phase p m = s.phase p m := rfl
@[simp] theorem setCol_job (s : State) (n p m : Nat) (x : Column) : (s.setCol n x).job p m = s.job p m := rfl
@[simp] theorem setCol_mem (s : State) (n : Nat) (x : Column) : (s.setCol n x).mem = s.mem := rfl
@[simp] theorem setCol_host (s : State) (n : Nat) (x : Column) : (s.setCol n x).host = s.host := rfl
@[simp] theorem setCol_launchq (s : State) (n : Nat) (x : Column) : (s.setCol n x).launchq = s.launchq := rfl
@[simp] theorem setCol_timebase (s : State) (n : Nat) (x : Column) : (s.setCol n x).timebase = s.timebase := rfl
@[simp] theorem setCol_nextLaunch (s : State) (n : Nat) (x : Column) : (s.setCol n x).nextLaunch = s.nextLaunch := rfl
@[simp] theorem setCol_windows (s : State) (n : Nat) (x : Column) : (s.setCol n x).windows = s.windows := rfl
@[simp] theorem setCol_hdms (s : State) (n : Nat) (x : Column) : (s.setCol n x).hdms = s.hdms := rfl
@[simp] theorem setCol_msix (s : State) (n : Nat) (x : Column) : (s.setCol n x).msix = s.msix := rfl
@[simp] theorem setCol_mgmt (s : State) (n : Nat) (x : Column) : (s.setCol n x).mgmt = s.mgmt := rfl
@[simp] theorem setCol_pkg (s : State) (n : Nat) (x : Column) : (s.setCol n x).pkg = s.pkg := rfl
@[simp] theorem setCol_links (s : State) (n : Nat) (x : Column) : (s.setCol n x).links = s.links := rfl
@[simp] theorem setCol_peers (s : State) (n : Nat) (x : Column) : (s.setCol n x).peers = s.peers := rfl
@[simp] theorem setCol_agenda (s : State) (n : Nat) (x : Column) : (s.setCol n x).agenda = s.agenda := rfl
@[simp] theorem setCol_mbxGo (s : State) (n : Nat) (x : Column) : (s.setCol n x).mbxGo = s.mbxGo := rfl
@[simp] theorem setCol_linkq (s : State) (n : Nat) (x : Column) : (s.setCol n x).linkq = s.linkq := rfl
@[simp] theorem setCol_sensors (s : State) (n : Nat) (x : Column) : (s.setCol n x).sensors = s.sensors := rfl
@[simp] theorem setCol_cur (s : State) (n : Nat) (x : Column) : (s.setCol n x).cur = s.cur := rfl
@[simp] theorem setCol_curK (s : State) (n : Nat) (x : Column) : (s.setCol n x).curK = s.curK := rfl
@[simp] theorem setCol_raw (s : State) (n : Nat) (x : Column) : (s.setCol n x).raw = s.raw := rfl
@[simp] theorem setCol_limm (s : State) (n : Nat) (x : Column) : (s.setCol n x).limm = s.limm := rfl
@[simp] theorem setCol_npc (s : State) (n : Nat) (x : Column) : (s.setCol n x).npc = s.npc := rfl
@[simp] theorem setCol_mark (s : State) (n : Nat) (x : Column) : (s.setCol n x).mark = s.mark := rfl
@[simp] theorem setCol_tick (s : State) (n : Nat) (x : Column) : (s.setCol n x).tick = s.tick := rfl
@[simp] theorem setCol_blockKey (s : State) (n : Nat) (x : Column) : (s.setCol n x).blockKey = s.blockKey := rfl
@[simp] theorem setCol_keyGen (s : State) (n : Nat) (x : Column) : (s.setCol n x).keyGen = s.keyGen := rfl
@[simp] theorem setCol_ctxs (s : State) (n : Nat) (x : Column) : (s.setCol n x).ctxs = s.ctxs := rfl
@[simp] theorem setCol_cores (s : State) (n : Nat) (x : Column) : (s.setCol n x).cores = s.cores := rfl
@[simp] theorem setCol_clusters (s : State) (n : Nat) (x : Column) : (s.setCol n x).clusters = s.clusters := rfl
@[simp] theorem setCol_rows (s : State) (n : Nat) (x : Column) : (s.setCol n x).rows = s.rows := rfl
@[simp] theorem setCol_work (s : State) (n : Nat) (x : Column) : (s.setCol n x).work = s.work := rfl
@[simp] theorem setCol_slotOwn (s : State) (n : Nat) (x : Column) : (s.setCol n x).slotOwn = s.slotOwn := rfl
@[simp] theorem setCol_gridRows (s : State) (n : Nat) (x : Column) : (s.setCol n x).gridRows = s.gridRows := rfl
@[simp] theorem setCol_stks (s : State) (n : Nat) (x : Column) : (s.setCol n x).stks = s.stks := rfl
@[simp] theorem setCol_zones (s : State) (n : Nat) (x : Column) : (s.setCol n x).zones = s.zones := rfl
@[simp] theorem setCol_parts (s : State) (n : Nat) (x : Column) : (s.setCol n x).parts = s.parts := rfl
@[simp] theorem setCol_launches (s : State) (n : Nat) (x : Column) : (s.setCol n x).launches = s.launches := rfl
@[simp] theorem setCol_graphs (s : State) (n : Nat) (x : Column) : (s.setCol n x).graphs = s.graphs := rfl
@[simp] theorem setCol_phases (s : State) (n : Nat) (x : Column) : (s.setCol n x).phases = s.phases := rfl
@[simp] theorem setCol_jobs (s : State) (n : Nat) (x : Column) : (s.setCol n x).jobs = s.jobs := rfl
@[simp] theorem setCol_nodeWait (s : State) (n : Nat) (x : Column) : (s.setCol n x).nodeWait = s.nodeWait := rfl
@[simp] theorem setCol_walkCache (s : State) (n : Nat) (x : Column) : (s.setCol n x).walkCache = s.walkCache := rfl
@[simp] theorem setCol_walkNext (s : State) (n : Nat) (x : Column) : (s.setCol n x).walkNext = s.walkNext := rfl
@[simp] theorem setCol_mbxCmd (s : State) (n : Nat) (x : Column) : (s.setCol n x).mbxCmd = s.mbxCmd := rfl
@[simp] theorem setCol_mbxStat (s : State) (n : Nat) (x : Column) : (s.setCol n x).mbxStat = s.mbxStat := rfl
@[simp] theorem setCol_powerLimit (s : State) (n : Nat) (x : Column) : (s.setCol n x).powerLimit = s.powerLimit := rfl
@[simp] theorem setCol_powerAt (s : State) (n : Nat) (x : Column) : (s.setCol n x).powerAt = s.powerAt := rfl
@[simp] theorem setCol_supplyBad (s : State) (n : Nat) (x : Column) : (s.setCol n x).supplyBad = s.supplyBad := rfl
@[simp] theorem setCol_peerBars (s : State) (n : Nat) (x : Column) : (s.setCol n x).peerBars = s.peerBars := rfl
@[simp] theorem setCol_hdmData (s : State) (n : Nat) (x : Column) : (s.setCol n x).hdmData = s.hdmData := rfl
@[simp] theorem setCol_farData (s : State) (n : Nat) (x : Column) : (s.setCol n x).farData = s.farData := rfl
@[simp] theorem setCol_booted (s : State) (n : Nat) (x : Column) : (s.setCol n x).booted = s.booted := rfl
@[simp] theorem setCol_farDown (s : State) (n : Nat) (x : Column) : (s.setCol n x).farDown = s.farDown := rfl

/-! setGridRow -/
@[simp] theorem setGridRow_ctx (s : State) (n m : Nat) (x : GridRow) : (s.setGridRow n x).ctx m = s.ctx m := rfl
@[simp] theorem setGridRow_core (s : State) (n m : Nat) (x : GridRow) : (s.setGridRow n x).core m = s.core m := rfl
@[simp] theorem setGridRow_cluster (s : State) (n m : Nat) (x : GridRow) : (s.setGridRow n x).cluster m = s.cluster m := rfl
@[simp] theorem setGridRow_row (s : State) (n m : Nat) (x : GridRow) : (s.setGridRow n x).row m = s.row m := rfl
@[simp] theorem setGridRow_workRow (s : State) (n m : Nat) (x : GridRow) : (s.setGridRow n x).workRow m = s.workRow m := rfl
@[simp] theorem setGridRow_col (s : State) (n m : Nat) (x : GridRow) : (s.setGridRow n x).col m = s.col m := rfl
@[simp] theorem setGridRow_gridRow_same (s : State) (n : Nat) (x : GridRow) : (s.setGridRow n x).gridRow n = x := assocGet_assocSet_same _ _ _ _
theorem setGridRow_gridRow_ne (s : State) {n m : Nat} (x : GridRow) (h : m ≠ n) : (s.setGridRow n x).gridRow m = s.gridRow m := assocGet_assocSet_ne _ _ _ h
@[simp] theorem setGridRow_setGridRow (s : State) (n : Nat) (x y : GridRow) : (s.setGridRow n x).setGridRow n y = s.setGridRow n y := by simp [State.setGridRow]
@[simp] theorem setGridRow_stack (s : State) (n m : Nat) (x : GridRow) : (s.setGridRow n x).stack m = s.stack m := rfl
@[simp] theorem setGridRow_zone (s : State) (n m : Nat) (x : GridRow) : (s.setGridRow n x).zone m = s.zone m := rfl
@[simp] theorem setGridRow_part (s : State) (n m : Nat) (x : GridRow) : (s.setGridRow n x).part m = s.part m := rfl
@[simp] theorem setGridRow_launch (s : State) (n m : Nat) (x : GridRow) : (s.setGridRow n x).launch m = s.launch m := rfl
@[simp] theorem setGridRow_graph (s : State) (n p m : Nat) (x : GridRow) : (s.setGridRow n x).graph p m = s.graph p m := rfl
@[simp] theorem setGridRow_phase (s : State) (n p m : Nat) (x : GridRow) : (s.setGridRow n x).phase p m = s.phase p m := rfl
@[simp] theorem setGridRow_job (s : State) (n p m : Nat) (x : GridRow) : (s.setGridRow n x).job p m = s.job p m := rfl
@[simp] theorem setGridRow_mem (s : State) (n : Nat) (x : GridRow) : (s.setGridRow n x).mem = s.mem := rfl
@[simp] theorem setGridRow_host (s : State) (n : Nat) (x : GridRow) : (s.setGridRow n x).host = s.host := rfl
@[simp] theorem setGridRow_launchq (s : State) (n : Nat) (x : GridRow) : (s.setGridRow n x).launchq = s.launchq := rfl
@[simp] theorem setGridRow_timebase (s : State) (n : Nat) (x : GridRow) : (s.setGridRow n x).timebase = s.timebase := rfl
@[simp] theorem setGridRow_nextLaunch (s : State) (n : Nat) (x : GridRow) : (s.setGridRow n x).nextLaunch = s.nextLaunch := rfl
@[simp] theorem setGridRow_windows (s : State) (n : Nat) (x : GridRow) : (s.setGridRow n x).windows = s.windows := rfl
@[simp] theorem setGridRow_hdms (s : State) (n : Nat) (x : GridRow) : (s.setGridRow n x).hdms = s.hdms := rfl
@[simp] theorem setGridRow_msix (s : State) (n : Nat) (x : GridRow) : (s.setGridRow n x).msix = s.msix := rfl
@[simp] theorem setGridRow_mgmt (s : State) (n : Nat) (x : GridRow) : (s.setGridRow n x).mgmt = s.mgmt := rfl
@[simp] theorem setGridRow_pkg (s : State) (n : Nat) (x : GridRow) : (s.setGridRow n x).pkg = s.pkg := rfl
@[simp] theorem setGridRow_links (s : State) (n : Nat) (x : GridRow) : (s.setGridRow n x).links = s.links := rfl
@[simp] theorem setGridRow_peers (s : State) (n : Nat) (x : GridRow) : (s.setGridRow n x).peers = s.peers := rfl
@[simp] theorem setGridRow_agenda (s : State) (n : Nat) (x : GridRow) : (s.setGridRow n x).agenda = s.agenda := rfl
@[simp] theorem setGridRow_mbxGo (s : State) (n : Nat) (x : GridRow) : (s.setGridRow n x).mbxGo = s.mbxGo := rfl
@[simp] theorem setGridRow_linkq (s : State) (n : Nat) (x : GridRow) : (s.setGridRow n x).linkq = s.linkq := rfl
@[simp] theorem setGridRow_sensors (s : State) (n : Nat) (x : GridRow) : (s.setGridRow n x).sensors = s.sensors := rfl
@[simp] theorem setGridRow_cur (s : State) (n : Nat) (x : GridRow) : (s.setGridRow n x).cur = s.cur := rfl
@[simp] theorem setGridRow_curK (s : State) (n : Nat) (x : GridRow) : (s.setGridRow n x).curK = s.curK := rfl
@[simp] theorem setGridRow_raw (s : State) (n : Nat) (x : GridRow) : (s.setGridRow n x).raw = s.raw := rfl
@[simp] theorem setGridRow_limm (s : State) (n : Nat) (x : GridRow) : (s.setGridRow n x).limm = s.limm := rfl
@[simp] theorem setGridRow_npc (s : State) (n : Nat) (x : GridRow) : (s.setGridRow n x).npc = s.npc := rfl
@[simp] theorem setGridRow_mark (s : State) (n : Nat) (x : GridRow) : (s.setGridRow n x).mark = s.mark := rfl
@[simp] theorem setGridRow_tick (s : State) (n : Nat) (x : GridRow) : (s.setGridRow n x).tick = s.tick := rfl
@[simp] theorem setGridRow_blockKey (s : State) (n : Nat) (x : GridRow) : (s.setGridRow n x).blockKey = s.blockKey := rfl
@[simp] theorem setGridRow_keyGen (s : State) (n : Nat) (x : GridRow) : (s.setGridRow n x).keyGen = s.keyGen := rfl
@[simp] theorem setGridRow_ctxs (s : State) (n : Nat) (x : GridRow) : (s.setGridRow n x).ctxs = s.ctxs := rfl
@[simp] theorem setGridRow_cores (s : State) (n : Nat) (x : GridRow) : (s.setGridRow n x).cores = s.cores := rfl
@[simp] theorem setGridRow_clusters (s : State) (n : Nat) (x : GridRow) : (s.setGridRow n x).clusters = s.clusters := rfl
@[simp] theorem setGridRow_rows (s : State) (n : Nat) (x : GridRow) : (s.setGridRow n x).rows = s.rows := rfl
@[simp] theorem setGridRow_work (s : State) (n : Nat) (x : GridRow) : (s.setGridRow n x).work = s.work := rfl
@[simp] theorem setGridRow_slotOwn (s : State) (n : Nat) (x : GridRow) : (s.setGridRow n x).slotOwn = s.slotOwn := rfl
@[simp] theorem setGridRow_cols (s : State) (n : Nat) (x : GridRow) : (s.setGridRow n x).cols = s.cols := rfl
@[simp] theorem setGridRow_stks (s : State) (n : Nat) (x : GridRow) : (s.setGridRow n x).stks = s.stks := rfl
@[simp] theorem setGridRow_zones (s : State) (n : Nat) (x : GridRow) : (s.setGridRow n x).zones = s.zones := rfl
@[simp] theorem setGridRow_parts (s : State) (n : Nat) (x : GridRow) : (s.setGridRow n x).parts = s.parts := rfl
@[simp] theorem setGridRow_launches (s : State) (n : Nat) (x : GridRow) : (s.setGridRow n x).launches = s.launches := rfl
@[simp] theorem setGridRow_graphs (s : State) (n : Nat) (x : GridRow) : (s.setGridRow n x).graphs = s.graphs := rfl
@[simp] theorem setGridRow_phases (s : State) (n : Nat) (x : GridRow) : (s.setGridRow n x).phases = s.phases := rfl
@[simp] theorem setGridRow_jobs (s : State) (n : Nat) (x : GridRow) : (s.setGridRow n x).jobs = s.jobs := rfl
@[simp] theorem setGridRow_nodeWait (s : State) (n : Nat) (x : GridRow) : (s.setGridRow n x).nodeWait = s.nodeWait := rfl
@[simp] theorem setGridRow_walkCache (s : State) (n : Nat) (x : GridRow) : (s.setGridRow n x).walkCache = s.walkCache := rfl
@[simp] theorem setGridRow_walkNext (s : State) (n : Nat) (x : GridRow) : (s.setGridRow n x).walkNext = s.walkNext := rfl
@[simp] theorem setGridRow_mbxCmd (s : State) (n : Nat) (x : GridRow) : (s.setGridRow n x).mbxCmd = s.mbxCmd := rfl
@[simp] theorem setGridRow_mbxStat (s : State) (n : Nat) (x : GridRow) : (s.setGridRow n x).mbxStat = s.mbxStat := rfl
@[simp] theorem setGridRow_powerLimit (s : State) (n : Nat) (x : GridRow) : (s.setGridRow n x).powerLimit = s.powerLimit := rfl
@[simp] theorem setGridRow_powerAt (s : State) (n : Nat) (x : GridRow) : (s.setGridRow n x).powerAt = s.powerAt := rfl
@[simp] theorem setGridRow_supplyBad (s : State) (n : Nat) (x : GridRow) : (s.setGridRow n x).supplyBad = s.supplyBad := rfl
@[simp] theorem setGridRow_peerBars (s : State) (n : Nat) (x : GridRow) : (s.setGridRow n x).peerBars = s.peerBars := rfl
@[simp] theorem setGridRow_hdmData (s : State) (n : Nat) (x : GridRow) : (s.setGridRow n x).hdmData = s.hdmData := rfl
@[simp] theorem setGridRow_farData (s : State) (n : Nat) (x : GridRow) : (s.setGridRow n x).farData = s.farData := rfl
@[simp] theorem setGridRow_booted (s : State) (n : Nat) (x : GridRow) : (s.setGridRow n x).booted = s.booted := rfl
@[simp] theorem setGridRow_farDown (s : State) (n : Nat) (x : GridRow) : (s.setGridRow n x).farDown = s.farDown := rfl

/-! setStack -/
@[simp] theorem setStack_ctx (s : State) (n m : Nat) (x : Stack) : (s.setStack n x).ctx m = s.ctx m := rfl
@[simp] theorem setStack_core (s : State) (n m : Nat) (x : Stack) : (s.setStack n x).core m = s.core m := rfl
@[simp] theorem setStack_cluster (s : State) (n m : Nat) (x : Stack) : (s.setStack n x).cluster m = s.cluster m := rfl
@[simp] theorem setStack_row (s : State) (n m : Nat) (x : Stack) : (s.setStack n x).row m = s.row m := rfl
@[simp] theorem setStack_workRow (s : State) (n m : Nat) (x : Stack) : (s.setStack n x).workRow m = s.workRow m := rfl
@[simp] theorem setStack_col (s : State) (n m : Nat) (x : Stack) : (s.setStack n x).col m = s.col m := rfl
@[simp] theorem setStack_gridRow (s : State) (n m : Nat) (x : Stack) : (s.setStack n x).gridRow m = s.gridRow m := rfl
@[simp] theorem setStack_stack_same (s : State) (n : Nat) (x : Stack) : (s.setStack n x).stack n = x := assocGet_assocSet_same _ _ _ _
theorem setStack_stack_ne (s : State) {n m : Nat} (x : Stack) (h : m ≠ n) : (s.setStack n x).stack m = s.stack m := assocGet_assocSet_ne _ _ _ h
@[simp] theorem setStack_setStack (s : State) (n : Nat) (x y : Stack) : (s.setStack n x).setStack n y = s.setStack n y := by simp [State.setStack]
@[simp] theorem setStack_zone (s : State) (n m : Nat) (x : Stack) : (s.setStack n x).zone m = s.zone m := rfl
@[simp] theorem setStack_part (s : State) (n m : Nat) (x : Stack) : (s.setStack n x).part m = s.part m := rfl
@[simp] theorem setStack_launch (s : State) (n m : Nat) (x : Stack) : (s.setStack n x).launch m = s.launch m := rfl
@[simp] theorem setStack_graph (s : State) (n p m : Nat) (x : Stack) : (s.setStack n x).graph p m = s.graph p m := rfl
@[simp] theorem setStack_phase (s : State) (n p m : Nat) (x : Stack) : (s.setStack n x).phase p m = s.phase p m := rfl
@[simp] theorem setStack_job (s : State) (n p m : Nat) (x : Stack) : (s.setStack n x).job p m = s.job p m := rfl
@[simp] theorem setStack_mem (s : State) (n : Nat) (x : Stack) : (s.setStack n x).mem = s.mem := rfl
@[simp] theorem setStack_host (s : State) (n : Nat) (x : Stack) : (s.setStack n x).host = s.host := rfl
@[simp] theorem setStack_launchq (s : State) (n : Nat) (x : Stack) : (s.setStack n x).launchq = s.launchq := rfl
@[simp] theorem setStack_timebase (s : State) (n : Nat) (x : Stack) : (s.setStack n x).timebase = s.timebase := rfl
@[simp] theorem setStack_nextLaunch (s : State) (n : Nat) (x : Stack) : (s.setStack n x).nextLaunch = s.nextLaunch := rfl
@[simp] theorem setStack_windows (s : State) (n : Nat) (x : Stack) : (s.setStack n x).windows = s.windows := rfl
@[simp] theorem setStack_hdms (s : State) (n : Nat) (x : Stack) : (s.setStack n x).hdms = s.hdms := rfl
@[simp] theorem setStack_msix (s : State) (n : Nat) (x : Stack) : (s.setStack n x).msix = s.msix := rfl
@[simp] theorem setStack_mgmt (s : State) (n : Nat) (x : Stack) : (s.setStack n x).mgmt = s.mgmt := rfl
@[simp] theorem setStack_pkg (s : State) (n : Nat) (x : Stack) : (s.setStack n x).pkg = s.pkg := rfl
@[simp] theorem setStack_links (s : State) (n : Nat) (x : Stack) : (s.setStack n x).links = s.links := rfl
@[simp] theorem setStack_peers (s : State) (n : Nat) (x : Stack) : (s.setStack n x).peers = s.peers := rfl
@[simp] theorem setStack_agenda (s : State) (n : Nat) (x : Stack) : (s.setStack n x).agenda = s.agenda := rfl
@[simp] theorem setStack_mbxGo (s : State) (n : Nat) (x : Stack) : (s.setStack n x).mbxGo = s.mbxGo := rfl
@[simp] theorem setStack_linkq (s : State) (n : Nat) (x : Stack) : (s.setStack n x).linkq = s.linkq := rfl
@[simp] theorem setStack_sensors (s : State) (n : Nat) (x : Stack) : (s.setStack n x).sensors = s.sensors := rfl
@[simp] theorem setStack_cur (s : State) (n : Nat) (x : Stack) : (s.setStack n x).cur = s.cur := rfl
@[simp] theorem setStack_curK (s : State) (n : Nat) (x : Stack) : (s.setStack n x).curK = s.curK := rfl
@[simp] theorem setStack_raw (s : State) (n : Nat) (x : Stack) : (s.setStack n x).raw = s.raw := rfl
@[simp] theorem setStack_limm (s : State) (n : Nat) (x : Stack) : (s.setStack n x).limm = s.limm := rfl
@[simp] theorem setStack_npc (s : State) (n : Nat) (x : Stack) : (s.setStack n x).npc = s.npc := rfl
@[simp] theorem setStack_mark (s : State) (n : Nat) (x : Stack) : (s.setStack n x).mark = s.mark := rfl
@[simp] theorem setStack_tick (s : State) (n : Nat) (x : Stack) : (s.setStack n x).tick = s.tick := rfl
@[simp] theorem setStack_blockKey (s : State) (n : Nat) (x : Stack) : (s.setStack n x).blockKey = s.blockKey := rfl
@[simp] theorem setStack_keyGen (s : State) (n : Nat) (x : Stack) : (s.setStack n x).keyGen = s.keyGen := rfl
@[simp] theorem setStack_ctxs (s : State) (n : Nat) (x : Stack) : (s.setStack n x).ctxs = s.ctxs := rfl
@[simp] theorem setStack_cores (s : State) (n : Nat) (x : Stack) : (s.setStack n x).cores = s.cores := rfl
@[simp] theorem setStack_clusters (s : State) (n : Nat) (x : Stack) : (s.setStack n x).clusters = s.clusters := rfl
@[simp] theorem setStack_rows (s : State) (n : Nat) (x : Stack) : (s.setStack n x).rows = s.rows := rfl
@[simp] theorem setStack_work (s : State) (n : Nat) (x : Stack) : (s.setStack n x).work = s.work := rfl
@[simp] theorem setStack_slotOwn (s : State) (n : Nat) (x : Stack) : (s.setStack n x).slotOwn = s.slotOwn := rfl
@[simp] theorem setStack_cols (s : State) (n : Nat) (x : Stack) : (s.setStack n x).cols = s.cols := rfl
@[simp] theorem setStack_gridRows (s : State) (n : Nat) (x : Stack) : (s.setStack n x).gridRows = s.gridRows := rfl
@[simp] theorem setStack_zones (s : State) (n : Nat) (x : Stack) : (s.setStack n x).zones = s.zones := rfl
@[simp] theorem setStack_parts (s : State) (n : Nat) (x : Stack) : (s.setStack n x).parts = s.parts := rfl
@[simp] theorem setStack_launches (s : State) (n : Nat) (x : Stack) : (s.setStack n x).launches = s.launches := rfl
@[simp] theorem setStack_graphs (s : State) (n : Nat) (x : Stack) : (s.setStack n x).graphs = s.graphs := rfl
@[simp] theorem setStack_phases (s : State) (n : Nat) (x : Stack) : (s.setStack n x).phases = s.phases := rfl
@[simp] theorem setStack_jobs (s : State) (n : Nat) (x : Stack) : (s.setStack n x).jobs = s.jobs := rfl
@[simp] theorem setStack_nodeWait (s : State) (n : Nat) (x : Stack) : (s.setStack n x).nodeWait = s.nodeWait := rfl
@[simp] theorem setStack_walkCache (s : State) (n : Nat) (x : Stack) : (s.setStack n x).walkCache = s.walkCache := rfl
@[simp] theorem setStack_walkNext (s : State) (n : Nat) (x : Stack) : (s.setStack n x).walkNext = s.walkNext := rfl
@[simp] theorem setStack_mbxCmd (s : State) (n : Nat) (x : Stack) : (s.setStack n x).mbxCmd = s.mbxCmd := rfl
@[simp] theorem setStack_mbxStat (s : State) (n : Nat) (x : Stack) : (s.setStack n x).mbxStat = s.mbxStat := rfl
@[simp] theorem setStack_powerLimit (s : State) (n : Nat) (x : Stack) : (s.setStack n x).powerLimit = s.powerLimit := rfl
@[simp] theorem setStack_powerAt (s : State) (n : Nat) (x : Stack) : (s.setStack n x).powerAt = s.powerAt := rfl
@[simp] theorem setStack_supplyBad (s : State) (n : Nat) (x : Stack) : (s.setStack n x).supplyBad = s.supplyBad := rfl
@[simp] theorem setStack_peerBars (s : State) (n : Nat) (x : Stack) : (s.setStack n x).peerBars = s.peerBars := rfl
@[simp] theorem setStack_hdmData (s : State) (n : Nat) (x : Stack) : (s.setStack n x).hdmData = s.hdmData := rfl
@[simp] theorem setStack_farData (s : State) (n : Nat) (x : Stack) : (s.setStack n x).farData = s.farData := rfl
@[simp] theorem setStack_booted (s : State) (n : Nat) (x : Stack) : (s.setStack n x).booted = s.booted := rfl
@[simp] theorem setStack_farDown (s : State) (n : Nat) (x : Stack) : (s.setStack n x).farDown = s.farDown := rfl

/-! setZone -/
@[simp] theorem setZone_ctx (s : State) (n m : Nat) (x : Zone) : (s.setZone n x).ctx m = s.ctx m := rfl
@[simp] theorem setZone_core (s : State) (n m : Nat) (x : Zone) : (s.setZone n x).core m = s.core m := rfl
@[simp] theorem setZone_cluster (s : State) (n m : Nat) (x : Zone) : (s.setZone n x).cluster m = s.cluster m := rfl
@[simp] theorem setZone_row (s : State) (n m : Nat) (x : Zone) : (s.setZone n x).row m = s.row m := rfl
@[simp] theorem setZone_workRow (s : State) (n m : Nat) (x : Zone) : (s.setZone n x).workRow m = s.workRow m := rfl
@[simp] theorem setZone_col (s : State) (n m : Nat) (x : Zone) : (s.setZone n x).col m = s.col m := rfl
@[simp] theorem setZone_gridRow (s : State) (n m : Nat) (x : Zone) : (s.setZone n x).gridRow m = s.gridRow m := rfl
@[simp] theorem setZone_stack (s : State) (n m : Nat) (x : Zone) : (s.setZone n x).stack m = s.stack m := rfl
@[simp] theorem setZone_zone_same (s : State) (n : Nat) (x : Zone) : (s.setZone n x).zone n = x := assocGet_assocSet_same _ _ _ _
theorem setZone_zone_ne (s : State) {n m : Nat} (x : Zone) (h : m ≠ n) : (s.setZone n x).zone m = s.zone m := assocGet_assocSet_ne _ _ _ h
@[simp] theorem setZone_setZone (s : State) (n : Nat) (x y : Zone) : (s.setZone n x).setZone n y = s.setZone n y := by simp [State.setZone]
@[simp] theorem setZone_part (s : State) (n m : Nat) (x : Zone) : (s.setZone n x).part m = s.part m := rfl
@[simp] theorem setZone_launch (s : State) (n m : Nat) (x : Zone) : (s.setZone n x).launch m = s.launch m := rfl
@[simp] theorem setZone_graph (s : State) (n p m : Nat) (x : Zone) : (s.setZone n x).graph p m = s.graph p m := rfl
@[simp] theorem setZone_phase (s : State) (n p m : Nat) (x : Zone) : (s.setZone n x).phase p m = s.phase p m := rfl
@[simp] theorem setZone_job (s : State) (n p m : Nat) (x : Zone) : (s.setZone n x).job p m = s.job p m := rfl
@[simp] theorem setZone_mem (s : State) (n : Nat) (x : Zone) : (s.setZone n x).mem = s.mem := rfl
@[simp] theorem setZone_host (s : State) (n : Nat) (x : Zone) : (s.setZone n x).host = s.host := rfl
@[simp] theorem setZone_launchq (s : State) (n : Nat) (x : Zone) : (s.setZone n x).launchq = s.launchq := rfl
@[simp] theorem setZone_timebase (s : State) (n : Nat) (x : Zone) : (s.setZone n x).timebase = s.timebase := rfl
@[simp] theorem setZone_nextLaunch (s : State) (n : Nat) (x : Zone) : (s.setZone n x).nextLaunch = s.nextLaunch := rfl
@[simp] theorem setZone_windows (s : State) (n : Nat) (x : Zone) : (s.setZone n x).windows = s.windows := rfl
@[simp] theorem setZone_hdms (s : State) (n : Nat) (x : Zone) : (s.setZone n x).hdms = s.hdms := rfl
@[simp] theorem setZone_msix (s : State) (n : Nat) (x : Zone) : (s.setZone n x).msix = s.msix := rfl
@[simp] theorem setZone_mgmt (s : State) (n : Nat) (x : Zone) : (s.setZone n x).mgmt = s.mgmt := rfl
@[simp] theorem setZone_pkg (s : State) (n : Nat) (x : Zone) : (s.setZone n x).pkg = s.pkg := rfl
@[simp] theorem setZone_links (s : State) (n : Nat) (x : Zone) : (s.setZone n x).links = s.links := rfl
@[simp] theorem setZone_peers (s : State) (n : Nat) (x : Zone) : (s.setZone n x).peers = s.peers := rfl
@[simp] theorem setZone_agenda (s : State) (n : Nat) (x : Zone) : (s.setZone n x).agenda = s.agenda := rfl
@[simp] theorem setZone_mbxGo (s : State) (n : Nat) (x : Zone) : (s.setZone n x).mbxGo = s.mbxGo := rfl
@[simp] theorem setZone_linkq (s : State) (n : Nat) (x : Zone) : (s.setZone n x).linkq = s.linkq := rfl
@[simp] theorem setZone_sensors (s : State) (n : Nat) (x : Zone) : (s.setZone n x).sensors = s.sensors := rfl
@[simp] theorem setZone_cur (s : State) (n : Nat) (x : Zone) : (s.setZone n x).cur = s.cur := rfl
@[simp] theorem setZone_curK (s : State) (n : Nat) (x : Zone) : (s.setZone n x).curK = s.curK := rfl
@[simp] theorem setZone_raw (s : State) (n : Nat) (x : Zone) : (s.setZone n x).raw = s.raw := rfl
@[simp] theorem setZone_limm (s : State) (n : Nat) (x : Zone) : (s.setZone n x).limm = s.limm := rfl
@[simp] theorem setZone_npc (s : State) (n : Nat) (x : Zone) : (s.setZone n x).npc = s.npc := rfl
@[simp] theorem setZone_mark (s : State) (n : Nat) (x : Zone) : (s.setZone n x).mark = s.mark := rfl
@[simp] theorem setZone_tick (s : State) (n : Nat) (x : Zone) : (s.setZone n x).tick = s.tick := rfl
@[simp] theorem setZone_blockKey (s : State) (n : Nat) (x : Zone) : (s.setZone n x).blockKey = s.blockKey := rfl
@[simp] theorem setZone_keyGen (s : State) (n : Nat) (x : Zone) : (s.setZone n x).keyGen = s.keyGen := rfl
@[simp] theorem setZone_ctxs (s : State) (n : Nat) (x : Zone) : (s.setZone n x).ctxs = s.ctxs := rfl
@[simp] theorem setZone_cores (s : State) (n : Nat) (x : Zone) : (s.setZone n x).cores = s.cores := rfl
@[simp] theorem setZone_clusters (s : State) (n : Nat) (x : Zone) : (s.setZone n x).clusters = s.clusters := rfl
@[simp] theorem setZone_rows (s : State) (n : Nat) (x : Zone) : (s.setZone n x).rows = s.rows := rfl
@[simp] theorem setZone_work (s : State) (n : Nat) (x : Zone) : (s.setZone n x).work = s.work := rfl
@[simp] theorem setZone_slotOwn (s : State) (n : Nat) (x : Zone) : (s.setZone n x).slotOwn = s.slotOwn := rfl
@[simp] theorem setZone_cols (s : State) (n : Nat) (x : Zone) : (s.setZone n x).cols = s.cols := rfl
@[simp] theorem setZone_gridRows (s : State) (n : Nat) (x : Zone) : (s.setZone n x).gridRows = s.gridRows := rfl
@[simp] theorem setZone_stks (s : State) (n : Nat) (x : Zone) : (s.setZone n x).stks = s.stks := rfl
@[simp] theorem setZone_parts (s : State) (n : Nat) (x : Zone) : (s.setZone n x).parts = s.parts := rfl
@[simp] theorem setZone_launches (s : State) (n : Nat) (x : Zone) : (s.setZone n x).launches = s.launches := rfl
@[simp] theorem setZone_graphs (s : State) (n : Nat) (x : Zone) : (s.setZone n x).graphs = s.graphs := rfl
@[simp] theorem setZone_phases (s : State) (n : Nat) (x : Zone) : (s.setZone n x).phases = s.phases := rfl
@[simp] theorem setZone_jobs (s : State) (n : Nat) (x : Zone) : (s.setZone n x).jobs = s.jobs := rfl
@[simp] theorem setZone_nodeWait (s : State) (n : Nat) (x : Zone) : (s.setZone n x).nodeWait = s.nodeWait := rfl
@[simp] theorem setZone_walkCache (s : State) (n : Nat) (x : Zone) : (s.setZone n x).walkCache = s.walkCache := rfl
@[simp] theorem setZone_walkNext (s : State) (n : Nat) (x : Zone) : (s.setZone n x).walkNext = s.walkNext := rfl
@[simp] theorem setZone_mbxCmd (s : State) (n : Nat) (x : Zone) : (s.setZone n x).mbxCmd = s.mbxCmd := rfl
@[simp] theorem setZone_mbxStat (s : State) (n : Nat) (x : Zone) : (s.setZone n x).mbxStat = s.mbxStat := rfl
@[simp] theorem setZone_powerLimit (s : State) (n : Nat) (x : Zone) : (s.setZone n x).powerLimit = s.powerLimit := rfl
@[simp] theorem setZone_powerAt (s : State) (n : Nat) (x : Zone) : (s.setZone n x).powerAt = s.powerAt := rfl
@[simp] theorem setZone_supplyBad (s : State) (n : Nat) (x : Zone) : (s.setZone n x).supplyBad = s.supplyBad := rfl
@[simp] theorem setZone_peerBars (s : State) (n : Nat) (x : Zone) : (s.setZone n x).peerBars = s.peerBars := rfl
@[simp] theorem setZone_hdmData (s : State) (n : Nat) (x : Zone) : (s.setZone n x).hdmData = s.hdmData := rfl
@[simp] theorem setZone_farData (s : State) (n : Nat) (x : Zone) : (s.setZone n x).farData = s.farData := rfl
@[simp] theorem setZone_booted (s : State) (n : Nat) (x : Zone) : (s.setZone n x).booted = s.booted := rfl
@[simp] theorem setZone_farDown (s : State) (n : Nat) (x : Zone) : (s.setZone n x).farDown = s.farDown := rfl

/-! setPart -/
@[simp] theorem setPart_ctx (s : State) (n m : Nat) (x : Part) : (s.setPart n x).ctx m = s.ctx m := rfl
@[simp] theorem setPart_core (s : State) (n m : Nat) (x : Part) : (s.setPart n x).core m = s.core m := rfl
@[simp] theorem setPart_cluster (s : State) (n m : Nat) (x : Part) : (s.setPart n x).cluster m = s.cluster m := rfl
@[simp] theorem setPart_row (s : State) (n m : Nat) (x : Part) : (s.setPart n x).row m = s.row m := rfl
@[simp] theorem setPart_workRow (s : State) (n m : Nat) (x : Part) : (s.setPart n x).workRow m = s.workRow m := rfl
@[simp] theorem setPart_col (s : State) (n m : Nat) (x : Part) : (s.setPart n x).col m = s.col m := rfl
@[simp] theorem setPart_gridRow (s : State) (n m : Nat) (x : Part) : (s.setPart n x).gridRow m = s.gridRow m := rfl
@[simp] theorem setPart_stack (s : State) (n m : Nat) (x : Part) : (s.setPart n x).stack m = s.stack m := rfl
@[simp] theorem setPart_zone (s : State) (n m : Nat) (x : Part) : (s.setPart n x).zone m = s.zone m := rfl
@[simp] theorem setPart_part_same (s : State) (n : Nat) (x : Part) : (s.setPart n x).part n = x := assocGet_assocSet_same _ _ _ _
theorem setPart_part_ne (s : State) {n m : Nat} (x : Part) (h : m ≠ n) : (s.setPart n x).part m = s.part m := assocGet_assocSet_ne _ _ _ h
@[simp] theorem setPart_setPart (s : State) (n : Nat) (x y : Part) : (s.setPart n x).setPart n y = s.setPart n y := by simp [State.setPart]
@[simp] theorem setPart_launch (s : State) (n m : Nat) (x : Part) : (s.setPart n x).launch m = s.launch m := rfl
@[simp] theorem setPart_graph (s : State) (n p m : Nat) (x : Part) : (s.setPart n x).graph p m = s.graph p m := rfl
@[simp] theorem setPart_phase (s : State) (n p m : Nat) (x : Part) : (s.setPart n x).phase p m = s.phase p m := rfl
@[simp] theorem setPart_job (s : State) (n p m : Nat) (x : Part) : (s.setPart n x).job p m = s.job p m := rfl
@[simp] theorem setPart_mem (s : State) (n : Nat) (x : Part) : (s.setPart n x).mem = s.mem := rfl
@[simp] theorem setPart_host (s : State) (n : Nat) (x : Part) : (s.setPart n x).host = s.host := rfl
@[simp] theorem setPart_launchq (s : State) (n : Nat) (x : Part) : (s.setPart n x).launchq = s.launchq := rfl
@[simp] theorem setPart_timebase (s : State) (n : Nat) (x : Part) : (s.setPart n x).timebase = s.timebase := rfl
@[simp] theorem setPart_nextLaunch (s : State) (n : Nat) (x : Part) : (s.setPart n x).nextLaunch = s.nextLaunch := rfl
@[simp] theorem setPart_windows (s : State) (n : Nat) (x : Part) : (s.setPart n x).windows = s.windows := rfl
@[simp] theorem setPart_hdms (s : State) (n : Nat) (x : Part) : (s.setPart n x).hdms = s.hdms := rfl
@[simp] theorem setPart_msix (s : State) (n : Nat) (x : Part) : (s.setPart n x).msix = s.msix := rfl
@[simp] theorem setPart_mgmt (s : State) (n : Nat) (x : Part) : (s.setPart n x).mgmt = s.mgmt := rfl
@[simp] theorem setPart_pkg (s : State) (n : Nat) (x : Part) : (s.setPart n x).pkg = s.pkg := rfl
@[simp] theorem setPart_links (s : State) (n : Nat) (x : Part) : (s.setPart n x).links = s.links := rfl
@[simp] theorem setPart_peers (s : State) (n : Nat) (x : Part) : (s.setPart n x).peers = s.peers := rfl
@[simp] theorem setPart_agenda (s : State) (n : Nat) (x : Part) : (s.setPart n x).agenda = s.agenda := rfl
@[simp] theorem setPart_mbxGo (s : State) (n : Nat) (x : Part) : (s.setPart n x).mbxGo = s.mbxGo := rfl
@[simp] theorem setPart_linkq (s : State) (n : Nat) (x : Part) : (s.setPart n x).linkq = s.linkq := rfl
@[simp] theorem setPart_sensors (s : State) (n : Nat) (x : Part) : (s.setPart n x).sensors = s.sensors := rfl
@[simp] theorem setPart_cur (s : State) (n : Nat) (x : Part) : (s.setPart n x).cur = s.cur := rfl
@[simp] theorem setPart_curK (s : State) (n : Nat) (x : Part) : (s.setPart n x).curK = s.curK := rfl
@[simp] theorem setPart_raw (s : State) (n : Nat) (x : Part) : (s.setPart n x).raw = s.raw := rfl
@[simp] theorem setPart_limm (s : State) (n : Nat) (x : Part) : (s.setPart n x).limm = s.limm := rfl
@[simp] theorem setPart_npc (s : State) (n : Nat) (x : Part) : (s.setPart n x).npc = s.npc := rfl
@[simp] theorem setPart_mark (s : State) (n : Nat) (x : Part) : (s.setPart n x).mark = s.mark := rfl
@[simp] theorem setPart_tick (s : State) (n : Nat) (x : Part) : (s.setPart n x).tick = s.tick := rfl
@[simp] theorem setPart_blockKey (s : State) (n : Nat) (x : Part) : (s.setPart n x).blockKey = s.blockKey := rfl
@[simp] theorem setPart_keyGen (s : State) (n : Nat) (x : Part) : (s.setPart n x).keyGen = s.keyGen := rfl
@[simp] theorem setPart_ctxs (s : State) (n : Nat) (x : Part) : (s.setPart n x).ctxs = s.ctxs := rfl
@[simp] theorem setPart_cores (s : State) (n : Nat) (x : Part) : (s.setPart n x).cores = s.cores := rfl
@[simp] theorem setPart_clusters (s : State) (n : Nat) (x : Part) : (s.setPart n x).clusters = s.clusters := rfl
@[simp] theorem setPart_rows (s : State) (n : Nat) (x : Part) : (s.setPart n x).rows = s.rows := rfl
@[simp] theorem setPart_work (s : State) (n : Nat) (x : Part) : (s.setPart n x).work = s.work := rfl
@[simp] theorem setPart_slotOwn (s : State) (n : Nat) (x : Part) : (s.setPart n x).slotOwn = s.slotOwn := rfl
@[simp] theorem setPart_cols (s : State) (n : Nat) (x : Part) : (s.setPart n x).cols = s.cols := rfl
@[simp] theorem setPart_gridRows (s : State) (n : Nat) (x : Part) : (s.setPart n x).gridRows = s.gridRows := rfl
@[simp] theorem setPart_stks (s : State) (n : Nat) (x : Part) : (s.setPart n x).stks = s.stks := rfl
@[simp] theorem setPart_zones (s : State) (n : Nat) (x : Part) : (s.setPart n x).zones = s.zones := rfl
@[simp] theorem setPart_launches (s : State) (n : Nat) (x : Part) : (s.setPart n x).launches = s.launches := rfl
@[simp] theorem setPart_graphs (s : State) (n : Nat) (x : Part) : (s.setPart n x).graphs = s.graphs := rfl
@[simp] theorem setPart_phases (s : State) (n : Nat) (x : Part) : (s.setPart n x).phases = s.phases := rfl
@[simp] theorem setPart_jobs (s : State) (n : Nat) (x : Part) : (s.setPart n x).jobs = s.jobs := rfl
@[simp] theorem setPart_nodeWait (s : State) (n : Nat) (x : Part) : (s.setPart n x).nodeWait = s.nodeWait := rfl
@[simp] theorem setPart_walkCache (s : State) (n : Nat) (x : Part) : (s.setPart n x).walkCache = s.walkCache := rfl
@[simp] theorem setPart_walkNext (s : State) (n : Nat) (x : Part) : (s.setPart n x).walkNext = s.walkNext := rfl
@[simp] theorem setPart_mbxCmd (s : State) (n : Nat) (x : Part) : (s.setPart n x).mbxCmd = s.mbxCmd := rfl
@[simp] theorem setPart_mbxStat (s : State) (n : Nat) (x : Part) : (s.setPart n x).mbxStat = s.mbxStat := rfl
@[simp] theorem setPart_powerLimit (s : State) (n : Nat) (x : Part) : (s.setPart n x).powerLimit = s.powerLimit := rfl
@[simp] theorem setPart_powerAt (s : State) (n : Nat) (x : Part) : (s.setPart n x).powerAt = s.powerAt := rfl
@[simp] theorem setPart_supplyBad (s : State) (n : Nat) (x : Part) : (s.setPart n x).supplyBad = s.supplyBad := rfl
@[simp] theorem setPart_peerBars (s : State) (n : Nat) (x : Part) : (s.setPart n x).peerBars = s.peerBars := rfl
@[simp] theorem setPart_hdmData (s : State) (n : Nat) (x : Part) : (s.setPart n x).hdmData = s.hdmData := rfl
@[simp] theorem setPart_farData (s : State) (n : Nat) (x : Part) : (s.setPart n x).farData = s.farData := rfl
@[simp] theorem setPart_booted (s : State) (n : Nat) (x : Part) : (s.setPart n x).booted = s.booted := rfl
@[simp] theorem setPart_farDown (s : State) (n : Nat) (x : Part) : (s.setPart n x).farDown = s.farDown := rfl

/-! setLaunch -/
@[simp] theorem setLaunch_ctx (s : State) (n m : Nat) (x : Launch) : (s.setLaunch n x).ctx m = s.ctx m := rfl
@[simp] theorem setLaunch_core (s : State) (n m : Nat) (x : Launch) : (s.setLaunch n x).core m = s.core m := rfl
@[simp] theorem setLaunch_cluster (s : State) (n m : Nat) (x : Launch) : (s.setLaunch n x).cluster m = s.cluster m := rfl
@[simp] theorem setLaunch_row (s : State) (n m : Nat) (x : Launch) : (s.setLaunch n x).row m = s.row m := rfl
@[simp] theorem setLaunch_workRow (s : State) (n m : Nat) (x : Launch) : (s.setLaunch n x).workRow m = s.workRow m := rfl
@[simp] theorem setLaunch_col (s : State) (n m : Nat) (x : Launch) : (s.setLaunch n x).col m = s.col m := rfl
@[simp] theorem setLaunch_gridRow (s : State) (n m : Nat) (x : Launch) : (s.setLaunch n x).gridRow m = s.gridRow m := rfl
@[simp] theorem setLaunch_stack (s : State) (n m : Nat) (x : Launch) : (s.setLaunch n x).stack m = s.stack m := rfl
@[simp] theorem setLaunch_zone (s : State) (n m : Nat) (x : Launch) : (s.setLaunch n x).zone m = s.zone m := rfl
@[simp] theorem setLaunch_part (s : State) (n m : Nat) (x : Launch) : (s.setLaunch n x).part m = s.part m := rfl
@[simp] theorem setLaunch_launch_same (s : State) (n : Nat) (x : Launch) : (s.setLaunch n x).launch n = x := assocGet_assocSet_same _ _ _ _
theorem setLaunch_launch_ne (s : State) {n m : Nat} (x : Launch) (h : m ≠ n) : (s.setLaunch n x).launch m = s.launch m := assocGet_assocSet_ne _ _ _ h
@[simp] theorem setLaunch_setLaunch (s : State) (n : Nat) (x y : Launch) : (s.setLaunch n x).setLaunch n y = s.setLaunch n y := by simp [State.setLaunch]
@[simp] theorem setLaunch_graph (s : State) (n p m : Nat) (x : Launch) : (s.setLaunch n x).graph p m = s.graph p m := rfl
@[simp] theorem setLaunch_phase (s : State) (n p m : Nat) (x : Launch) : (s.setLaunch n x).phase p m = s.phase p m := rfl
@[simp] theorem setLaunch_job (s : State) (n p m : Nat) (x : Launch) : (s.setLaunch n x).job p m = s.job p m := rfl
@[simp] theorem setLaunch_mem (s : State) (n : Nat) (x : Launch) : (s.setLaunch n x).mem = s.mem := rfl
@[simp] theorem setLaunch_host (s : State) (n : Nat) (x : Launch) : (s.setLaunch n x).host = s.host := rfl
@[simp] theorem setLaunch_launchq (s : State) (n : Nat) (x : Launch) : (s.setLaunch n x).launchq = s.launchq := rfl
@[simp] theorem setLaunch_timebase (s : State) (n : Nat) (x : Launch) : (s.setLaunch n x).timebase = s.timebase := rfl
@[simp] theorem setLaunch_nextLaunch (s : State) (n : Nat) (x : Launch) : (s.setLaunch n x).nextLaunch = s.nextLaunch := rfl
@[simp] theorem setLaunch_windows (s : State) (n : Nat) (x : Launch) : (s.setLaunch n x).windows = s.windows := rfl
@[simp] theorem setLaunch_hdms (s : State) (n : Nat) (x : Launch) : (s.setLaunch n x).hdms = s.hdms := rfl
@[simp] theorem setLaunch_msix (s : State) (n : Nat) (x : Launch) : (s.setLaunch n x).msix = s.msix := rfl
@[simp] theorem setLaunch_mgmt (s : State) (n : Nat) (x : Launch) : (s.setLaunch n x).mgmt = s.mgmt := rfl
@[simp] theorem setLaunch_pkg (s : State) (n : Nat) (x : Launch) : (s.setLaunch n x).pkg = s.pkg := rfl
@[simp] theorem setLaunch_links (s : State) (n : Nat) (x : Launch) : (s.setLaunch n x).links = s.links := rfl
@[simp] theorem setLaunch_peers (s : State) (n : Nat) (x : Launch) : (s.setLaunch n x).peers = s.peers := rfl
@[simp] theorem setLaunch_agenda (s : State) (n : Nat) (x : Launch) : (s.setLaunch n x).agenda = s.agenda := rfl
@[simp] theorem setLaunch_mbxGo (s : State) (n : Nat) (x : Launch) : (s.setLaunch n x).mbxGo = s.mbxGo := rfl
@[simp] theorem setLaunch_linkq (s : State) (n : Nat) (x : Launch) : (s.setLaunch n x).linkq = s.linkq := rfl
@[simp] theorem setLaunch_sensors (s : State) (n : Nat) (x : Launch) : (s.setLaunch n x).sensors = s.sensors := rfl
@[simp] theorem setLaunch_cur (s : State) (n : Nat) (x : Launch) : (s.setLaunch n x).cur = s.cur := rfl
@[simp] theorem setLaunch_curK (s : State) (n : Nat) (x : Launch) : (s.setLaunch n x).curK = s.curK := rfl
@[simp] theorem setLaunch_raw (s : State) (n : Nat) (x : Launch) : (s.setLaunch n x).raw = s.raw := rfl
@[simp] theorem setLaunch_limm (s : State) (n : Nat) (x : Launch) : (s.setLaunch n x).limm = s.limm := rfl
@[simp] theorem setLaunch_npc (s : State) (n : Nat) (x : Launch) : (s.setLaunch n x).npc = s.npc := rfl
@[simp] theorem setLaunch_mark (s : State) (n : Nat) (x : Launch) : (s.setLaunch n x).mark = s.mark := rfl
@[simp] theorem setLaunch_tick (s : State) (n : Nat) (x : Launch) : (s.setLaunch n x).tick = s.tick := rfl
@[simp] theorem setLaunch_blockKey (s : State) (n : Nat) (x : Launch) : (s.setLaunch n x).blockKey = s.blockKey := rfl
@[simp] theorem setLaunch_keyGen (s : State) (n : Nat) (x : Launch) : (s.setLaunch n x).keyGen = s.keyGen := rfl
@[simp] theorem setLaunch_ctxs (s : State) (n : Nat) (x : Launch) : (s.setLaunch n x).ctxs = s.ctxs := rfl
@[simp] theorem setLaunch_cores (s : State) (n : Nat) (x : Launch) : (s.setLaunch n x).cores = s.cores := rfl
@[simp] theorem setLaunch_clusters (s : State) (n : Nat) (x : Launch) : (s.setLaunch n x).clusters = s.clusters := rfl
@[simp] theorem setLaunch_rows (s : State) (n : Nat) (x : Launch) : (s.setLaunch n x).rows = s.rows := rfl
@[simp] theorem setLaunch_work (s : State) (n : Nat) (x : Launch) : (s.setLaunch n x).work = s.work := rfl
@[simp] theorem setLaunch_slotOwn (s : State) (n : Nat) (x : Launch) : (s.setLaunch n x).slotOwn = s.slotOwn := rfl
@[simp] theorem setLaunch_cols (s : State) (n : Nat) (x : Launch) : (s.setLaunch n x).cols = s.cols := rfl
@[simp] theorem setLaunch_gridRows (s : State) (n : Nat) (x : Launch) : (s.setLaunch n x).gridRows = s.gridRows := rfl
@[simp] theorem setLaunch_stks (s : State) (n : Nat) (x : Launch) : (s.setLaunch n x).stks = s.stks := rfl
@[simp] theorem setLaunch_zones (s : State) (n : Nat) (x : Launch) : (s.setLaunch n x).zones = s.zones := rfl
@[simp] theorem setLaunch_parts (s : State) (n : Nat) (x : Launch) : (s.setLaunch n x).parts = s.parts := rfl
@[simp] theorem setLaunch_graphs (s : State) (n : Nat) (x : Launch) : (s.setLaunch n x).graphs = s.graphs := rfl
@[simp] theorem setLaunch_phases (s : State) (n : Nat) (x : Launch) : (s.setLaunch n x).phases = s.phases := rfl
@[simp] theorem setLaunch_jobs (s : State) (n : Nat) (x : Launch) : (s.setLaunch n x).jobs = s.jobs := rfl
@[simp] theorem setLaunch_nodeWait (s : State) (n : Nat) (x : Launch) : (s.setLaunch n x).nodeWait = s.nodeWait := rfl
@[simp] theorem setLaunch_walkCache (s : State) (n : Nat) (x : Launch) : (s.setLaunch n x).walkCache = s.walkCache := rfl
@[simp] theorem setLaunch_walkNext (s : State) (n : Nat) (x : Launch) : (s.setLaunch n x).walkNext = s.walkNext := rfl
@[simp] theorem setLaunch_mbxCmd (s : State) (n : Nat) (x : Launch) : (s.setLaunch n x).mbxCmd = s.mbxCmd := rfl
@[simp] theorem setLaunch_mbxStat (s : State) (n : Nat) (x : Launch) : (s.setLaunch n x).mbxStat = s.mbxStat := rfl
@[simp] theorem setLaunch_powerLimit (s : State) (n : Nat) (x : Launch) : (s.setLaunch n x).powerLimit = s.powerLimit := rfl
@[simp] theorem setLaunch_powerAt (s : State) (n : Nat) (x : Launch) : (s.setLaunch n x).powerAt = s.powerAt := rfl
@[simp] theorem setLaunch_supplyBad (s : State) (n : Nat) (x : Launch) : (s.setLaunch n x).supplyBad = s.supplyBad := rfl
@[simp] theorem setLaunch_peerBars (s : State) (n : Nat) (x : Launch) : (s.setLaunch n x).peerBars = s.peerBars := rfl
@[simp] theorem setLaunch_hdmData (s : State) (n : Nat) (x : Launch) : (s.setLaunch n x).hdmData = s.hdmData := rfl
@[simp] theorem setLaunch_farData (s : State) (n : Nat) (x : Launch) : (s.setLaunch n x).farData = s.farData := rfl
@[simp] theorem setLaunch_booted (s : State) (n : Nat) (x : Launch) : (s.setLaunch n x).booted = s.booted := rfl
@[simp] theorem setLaunch_farDown (s : State) (n : Nat) (x : Launch) : (s.setLaunch n x).farDown = s.farDown := rfl

/-! setGraph -/
@[simp] theorem setGraph_graph_same (s : State) (p n : Nat) (x : Graph) : (s.setGraph p n x).graph p n = x := assocGet_assocSet_same _ _ _ _
@[simp] theorem setGraph_ctx (s : State) (p n m : Nat) (x : Graph) : (s.setGraph p n x).ctx m = s.ctx m := rfl
@[simp] theorem setGraph_core (s : State) (p n m : Nat) (x : Graph) : (s.setGraph p n x).core m = s.core m := rfl
@[simp] theorem setGraph_cluster (s : State) (p n m : Nat) (x : Graph) : (s.setGraph p n x).cluster m = s.cluster m := rfl
@[simp] theorem setGraph_row (s : State) (p n m : Nat) (x : Graph) : (s.setGraph p n x).row m = s.row m := rfl
@[simp] theorem setGraph_workRow (s : State) (p n m : Nat) (x : Graph) : (s.setGraph p n x).workRow m = s.workRow m := rfl
@[simp] theorem setGraph_col (s : State) (p n m : Nat) (x : Graph) : (s.setGraph p n x).col m = s.col m := rfl
@[simp] theorem setGraph_gridRow (s : State) (p n m : Nat) (x : Graph) : (s.setGraph p n x).gridRow m = s.gridRow m := rfl
@[simp] theorem setGraph_stack (s : State) (p n m : Nat) (x : Graph) : (s.setGraph p n x).stack m = s.stack m := rfl
@[simp] theorem setGraph_zone (s : State) (p n m : Nat) (x : Graph) : (s.setGraph p n x).zone m = s.zone m := rfl
@[simp] theorem setGraph_part (s : State) (p n m : Nat) (x : Graph) : (s.setGraph p n x).part m = s.part m := rfl
@[simp] theorem setGraph_launch (s : State) (p n m : Nat) (x : Graph) : (s.setGraph p n x).launch m = s.launch m := rfl
@[simp] theorem setGraph_mem (s : State) (p n : Nat) (x : Graph) : (s.setGraph p n x).mem = s.mem := rfl
@[simp] theorem setGraph_host (s : State) (p n : Nat) (x : Graph) : (s.setGraph p n x).host = s.host := rfl
@[simp] theorem setGraph_launchq (s : State) (p n : Nat) (x : Graph) : (s.setGraph p n x).launchq = s.launchq := rfl
@[simp] theorem setGraph_timebase (s : State) (p n : Nat) (x : Graph) : (s.setGraph p n x).timebase = s.timebase := rfl
@[simp] theorem setGraph_nextLaunch (s : State) (p n : Nat) (x : Graph) : (s.setGraph p n x).nextLaunch = s.nextLaunch := rfl
@[simp] theorem setGraph_windows (s : State) (p n : Nat) (x : Graph) : (s.setGraph p n x).windows = s.windows := rfl
@[simp] theorem setGraph_hdms (s : State) (p n : Nat) (x : Graph) : (s.setGraph p n x).hdms = s.hdms := rfl
@[simp] theorem setGraph_msix (s : State) (p n : Nat) (x : Graph) : (s.setGraph p n x).msix = s.msix := rfl
@[simp] theorem setGraph_mgmt (s : State) (p n : Nat) (x : Graph) : (s.setGraph p n x).mgmt = s.mgmt := rfl
@[simp] theorem setGraph_pkg (s : State) (p n : Nat) (x : Graph) : (s.setGraph p n x).pkg = s.pkg := rfl
@[simp] theorem setGraph_links (s : State) (p n : Nat) (x : Graph) : (s.setGraph p n x).links = s.links := rfl
@[simp] theorem setGraph_peers (s : State) (p n : Nat) (x : Graph) : (s.setGraph p n x).peers = s.peers := rfl
@[simp] theorem setGraph_agenda (s : State) (p n : Nat) (x : Graph) : (s.setGraph p n x).agenda = s.agenda := rfl
@[simp] theorem setGraph_mbxGo (s : State) (p n : Nat) (x : Graph) : (s.setGraph p n x).mbxGo = s.mbxGo := rfl
@[simp] theorem setGraph_linkq (s : State) (p n : Nat) (x : Graph) : (s.setGraph p n x).linkq = s.linkq := rfl
@[simp] theorem setGraph_sensors (s : State) (p n : Nat) (x : Graph) : (s.setGraph p n x).sensors = s.sensors := rfl
@[simp] theorem setGraph_cur (s : State) (p n : Nat) (x : Graph) : (s.setGraph p n x).cur = s.cur := rfl
@[simp] theorem setGraph_curK (s : State) (p n : Nat) (x : Graph) : (s.setGraph p n x).curK = s.curK := rfl
@[simp] theorem setGraph_raw (s : State) (p n : Nat) (x : Graph) : (s.setGraph p n x).raw = s.raw := rfl
@[simp] theorem setGraph_limm (s : State) (p n : Nat) (x : Graph) : (s.setGraph p n x).limm = s.limm := rfl
@[simp] theorem setGraph_npc (s : State) (p n : Nat) (x : Graph) : (s.setGraph p n x).npc = s.npc := rfl
@[simp] theorem setGraph_mark (s : State) (p n : Nat) (x : Graph) : (s.setGraph p n x).mark = s.mark := rfl
@[simp] theorem setGraph_tick (s : State) (p n : Nat) (x : Graph) : (s.setGraph p n x).tick = s.tick := rfl
@[simp] theorem setGraph_blockKey (s : State) (p n : Nat) (x : Graph) : (s.setGraph p n x).blockKey = s.blockKey := rfl
@[simp] theorem setGraph_keyGen (s : State) (p n : Nat) (x : Graph) : (s.setGraph p n x).keyGen = s.keyGen := rfl
@[simp] theorem setGraph_ctxs (s : State) (p n : Nat) (x : Graph) : (s.setGraph p n x).ctxs = s.ctxs := rfl
@[simp] theorem setGraph_cores (s : State) (p n : Nat) (x : Graph) : (s.setGraph p n x).cores = s.cores := rfl
@[simp] theorem setGraph_clusters (s : State) (p n : Nat) (x : Graph) : (s.setGraph p n x).clusters = s.clusters := rfl
@[simp] theorem setGraph_rows (s : State) (p n : Nat) (x : Graph) : (s.setGraph p n x).rows = s.rows := rfl
@[simp] theorem setGraph_work (s : State) (p n : Nat) (x : Graph) : (s.setGraph p n x).work = s.work := rfl
@[simp] theorem setGraph_slotOwn (s : State) (p n : Nat) (x : Graph) : (s.setGraph p n x).slotOwn = s.slotOwn := rfl
@[simp] theorem setGraph_cols (s : State) (p n : Nat) (x : Graph) : (s.setGraph p n x).cols = s.cols := rfl
@[simp] theorem setGraph_gridRows (s : State) (p n : Nat) (x : Graph) : (s.setGraph p n x).gridRows = s.gridRows := rfl
@[simp] theorem setGraph_stks (s : State) (p n : Nat) (x : Graph) : (s.setGraph p n x).stks = s.stks := rfl
@[simp] theorem setGraph_zones (s : State) (p n : Nat) (x : Graph) : (s.setGraph p n x).zones = s.zones := rfl
@[simp] theorem setGraph_parts (s : State) (p n : Nat) (x : Graph) : (s.setGraph p n x).parts = s.parts := rfl
@[simp] theorem setGraph_launches (s : State) (p n : Nat) (x : Graph) : (s.setGraph p n x).launches = s.launches := rfl
@[simp] theorem setGraph_phases (s : State) (p n : Nat) (x : Graph) : (s.setGraph p n x).phases = s.phases := rfl
@[simp] theorem setGraph_jobs (s : State) (p n : Nat) (x : Graph) : (s.setGraph p n x).jobs = s.jobs := rfl
@[simp] theorem setGraph_nodeWait (s : State) (p n : Nat) (x : Graph) : (s.setGraph p n x).nodeWait = s.nodeWait := rfl
@[simp] theorem setGraph_walkCache (s : State) (p n : Nat) (x : Graph) : (s.setGraph p n x).walkCache = s.walkCache := rfl
@[simp] theorem setGraph_walkNext (s : State) (p n : Nat) (x : Graph) : (s.setGraph p n x).walkNext = s.walkNext := rfl
@[simp] theorem setGraph_mbxCmd (s : State) (p n : Nat) (x : Graph) : (s.setGraph p n x).mbxCmd = s.mbxCmd := rfl
@[simp] theorem setGraph_mbxStat (s : State) (p n : Nat) (x : Graph) : (s.setGraph p n x).mbxStat = s.mbxStat := rfl
@[simp] theorem setGraph_powerLimit (s : State) (p n : Nat) (x : Graph) : (s.setGraph p n x).powerLimit = s.powerLimit := rfl
@[simp] theorem setGraph_powerAt (s : State) (p n : Nat) (x : Graph) : (s.setGraph p n x).powerAt = s.powerAt := rfl
@[simp] theorem setGraph_supplyBad (s : State) (p n : Nat) (x : Graph) : (s.setGraph p n x).supplyBad = s.supplyBad := rfl
@[simp] theorem setGraph_peerBars (s : State) (p n : Nat) (x : Graph) : (s.setGraph p n x).peerBars = s.peerBars := rfl
@[simp] theorem setGraph_hdmData (s : State) (p n : Nat) (x : Graph) : (s.setGraph p n x).hdmData = s.hdmData := rfl
@[simp] theorem setGraph_farData (s : State) (p n : Nat) (x : Graph) : (s.setGraph p n x).farData = s.farData := rfl
@[simp] theorem setGraph_booted (s : State) (p n : Nat) (x : Graph) : (s.setGraph p n x).booted = s.booted := rfl
@[simp] theorem setGraph_farDown (s : State) (p n : Nat) (x : Graph) : (s.setGraph p n x).farDown = s.farDown := rfl

/-! setPhase -/
@[simp] theorem setPhase_phase_same (s : State) (p n : Nat) (x : Phase) : (s.setPhase p n x).phase p n = x := assocGet_assocSet_same _ _ _ _
@[simp] theorem setPhase_ctx (s : State) (p n m : Nat) (x : Phase) : (s.setPhase p n x).ctx m = s.ctx m := rfl
@[simp] theorem setPhase_core (s : State) (p n m : Nat) (x : Phase) : (s.setPhase p n x).core m = s.core m := rfl
@[simp] theorem setPhase_cluster (s : State) (p n m : Nat) (x : Phase) : (s.setPhase p n x).cluster m = s.cluster m := rfl
@[simp] theorem setPhase_row (s : State) (p n m : Nat) (x : Phase) : (s.setPhase p n x).row m = s.row m := rfl
@[simp] theorem setPhase_workRow (s : State) (p n m : Nat) (x : Phase) : (s.setPhase p n x).workRow m = s.workRow m := rfl
@[simp] theorem setPhase_col (s : State) (p n m : Nat) (x : Phase) : (s.setPhase p n x).col m = s.col m := rfl
@[simp] theorem setPhase_gridRow (s : State) (p n m : Nat) (x : Phase) : (s.setPhase p n x).gridRow m = s.gridRow m := rfl
@[simp] theorem setPhase_stack (s : State) (p n m : Nat) (x : Phase) : (s.setPhase p n x).stack m = s.stack m := rfl
@[simp] theorem setPhase_zone (s : State) (p n m : Nat) (x : Phase) : (s.setPhase p n x).zone m = s.zone m := rfl
@[simp] theorem setPhase_part (s : State) (p n m : Nat) (x : Phase) : (s.setPhase p n x).part m = s.part m := rfl
@[simp] theorem setPhase_launch (s : State) (p n m : Nat) (x : Phase) : (s.setPhase p n x).launch m = s.launch m := rfl
@[simp] theorem setPhase_mem (s : State) (p n : Nat) (x : Phase) : (s.setPhase p n x).mem = s.mem := rfl
@[simp] theorem setPhase_host (s : State) (p n : Nat) (x : Phase) : (s.setPhase p n x).host = s.host := rfl
@[simp] theorem setPhase_launchq (s : State) (p n : Nat) (x : Phase) : (s.setPhase p n x).launchq = s.launchq := rfl
@[simp] theorem setPhase_timebase (s : State) (p n : Nat) (x : Phase) : (s.setPhase p n x).timebase = s.timebase := rfl
@[simp] theorem setPhase_nextLaunch (s : State) (p n : Nat) (x : Phase) : (s.setPhase p n x).nextLaunch = s.nextLaunch := rfl
@[simp] theorem setPhase_windows (s : State) (p n : Nat) (x : Phase) : (s.setPhase p n x).windows = s.windows := rfl
@[simp] theorem setPhase_hdms (s : State) (p n : Nat) (x : Phase) : (s.setPhase p n x).hdms = s.hdms := rfl
@[simp] theorem setPhase_msix (s : State) (p n : Nat) (x : Phase) : (s.setPhase p n x).msix = s.msix := rfl
@[simp] theorem setPhase_mgmt (s : State) (p n : Nat) (x : Phase) : (s.setPhase p n x).mgmt = s.mgmt := rfl
@[simp] theorem setPhase_pkg (s : State) (p n : Nat) (x : Phase) : (s.setPhase p n x).pkg = s.pkg := rfl
@[simp] theorem setPhase_links (s : State) (p n : Nat) (x : Phase) : (s.setPhase p n x).links = s.links := rfl
@[simp] theorem setPhase_peers (s : State) (p n : Nat) (x : Phase) : (s.setPhase p n x).peers = s.peers := rfl
@[simp] theorem setPhase_agenda (s : State) (p n : Nat) (x : Phase) : (s.setPhase p n x).agenda = s.agenda := rfl
@[simp] theorem setPhase_mbxGo (s : State) (p n : Nat) (x : Phase) : (s.setPhase p n x).mbxGo = s.mbxGo := rfl
@[simp] theorem setPhase_linkq (s : State) (p n : Nat) (x : Phase) : (s.setPhase p n x).linkq = s.linkq := rfl
@[simp] theorem setPhase_sensors (s : State) (p n : Nat) (x : Phase) : (s.setPhase p n x).sensors = s.sensors := rfl
@[simp] theorem setPhase_cur (s : State) (p n : Nat) (x : Phase) : (s.setPhase p n x).cur = s.cur := rfl
@[simp] theorem setPhase_curK (s : State) (p n : Nat) (x : Phase) : (s.setPhase p n x).curK = s.curK := rfl
@[simp] theorem setPhase_raw (s : State) (p n : Nat) (x : Phase) : (s.setPhase p n x).raw = s.raw := rfl
@[simp] theorem setPhase_limm (s : State) (p n : Nat) (x : Phase) : (s.setPhase p n x).limm = s.limm := rfl
@[simp] theorem setPhase_npc (s : State) (p n : Nat) (x : Phase) : (s.setPhase p n x).npc = s.npc := rfl
@[simp] theorem setPhase_mark (s : State) (p n : Nat) (x : Phase) : (s.setPhase p n x).mark = s.mark := rfl
@[simp] theorem setPhase_tick (s : State) (p n : Nat) (x : Phase) : (s.setPhase p n x).tick = s.tick := rfl
@[simp] theorem setPhase_blockKey (s : State) (p n : Nat) (x : Phase) : (s.setPhase p n x).blockKey = s.blockKey := rfl
@[simp] theorem setPhase_keyGen (s : State) (p n : Nat) (x : Phase) : (s.setPhase p n x).keyGen = s.keyGen := rfl
@[simp] theorem setPhase_ctxs (s : State) (p n : Nat) (x : Phase) : (s.setPhase p n x).ctxs = s.ctxs := rfl
@[simp] theorem setPhase_cores (s : State) (p n : Nat) (x : Phase) : (s.setPhase p n x).cores = s.cores := rfl
@[simp] theorem setPhase_clusters (s : State) (p n : Nat) (x : Phase) : (s.setPhase p n x).clusters = s.clusters := rfl
@[simp] theorem setPhase_rows (s : State) (p n : Nat) (x : Phase) : (s.setPhase p n x).rows = s.rows := rfl
@[simp] theorem setPhase_work (s : State) (p n : Nat) (x : Phase) : (s.setPhase p n x).work = s.work := rfl
@[simp] theorem setPhase_slotOwn (s : State) (p n : Nat) (x : Phase) : (s.setPhase p n x).slotOwn = s.slotOwn := rfl
@[simp] theorem setPhase_cols (s : State) (p n : Nat) (x : Phase) : (s.setPhase p n x).cols = s.cols := rfl
@[simp] theorem setPhase_gridRows (s : State) (p n : Nat) (x : Phase) : (s.setPhase p n x).gridRows = s.gridRows := rfl
@[simp] theorem setPhase_stks (s : State) (p n : Nat) (x : Phase) : (s.setPhase p n x).stks = s.stks := rfl
@[simp] theorem setPhase_zones (s : State) (p n : Nat) (x : Phase) : (s.setPhase p n x).zones = s.zones := rfl
@[simp] theorem setPhase_parts (s : State) (p n : Nat) (x : Phase) : (s.setPhase p n x).parts = s.parts := rfl
@[simp] theorem setPhase_launches (s : State) (p n : Nat) (x : Phase) : (s.setPhase p n x).launches = s.launches := rfl
@[simp] theorem setPhase_graphs (s : State) (p n : Nat) (x : Phase) : (s.setPhase p n x).graphs = s.graphs := rfl
@[simp] theorem setPhase_jobs (s : State) (p n : Nat) (x : Phase) : (s.setPhase p n x).jobs = s.jobs := rfl
@[simp] theorem setPhase_nodeWait (s : State) (p n : Nat) (x : Phase) : (s.setPhase p n x).nodeWait = s.nodeWait := rfl
@[simp] theorem setPhase_walkCache (s : State) (p n : Nat) (x : Phase) : (s.setPhase p n x).walkCache = s.walkCache := rfl
@[simp] theorem setPhase_walkNext (s : State) (p n : Nat) (x : Phase) : (s.setPhase p n x).walkNext = s.walkNext := rfl
@[simp] theorem setPhase_mbxCmd (s : State) (p n : Nat) (x : Phase) : (s.setPhase p n x).mbxCmd = s.mbxCmd := rfl
@[simp] theorem setPhase_mbxStat (s : State) (p n : Nat) (x : Phase) : (s.setPhase p n x).mbxStat = s.mbxStat := rfl
@[simp] theorem setPhase_powerLimit (s : State) (p n : Nat) (x : Phase) : (s.setPhase p n x).powerLimit = s.powerLimit := rfl
@[simp] theorem setPhase_powerAt (s : State) (p n : Nat) (x : Phase) : (s.setPhase p n x).powerAt = s.powerAt := rfl
@[simp] theorem setPhase_supplyBad (s : State) (p n : Nat) (x : Phase) : (s.setPhase p n x).supplyBad = s.supplyBad := rfl
@[simp] theorem setPhase_peerBars (s : State) (p n : Nat) (x : Phase) : (s.setPhase p n x).peerBars = s.peerBars := rfl
@[simp] theorem setPhase_hdmData (s : State) (p n : Nat) (x : Phase) : (s.setPhase p n x).hdmData = s.hdmData := rfl
@[simp] theorem setPhase_farData (s : State) (p n : Nat) (x : Phase) : (s.setPhase p n x).farData = s.farData := rfl
@[simp] theorem setPhase_booted (s : State) (p n : Nat) (x : Phase) : (s.setPhase p n x).booted = s.booted := rfl
@[simp] theorem setPhase_farDown (s : State) (p n : Nat) (x : Phase) : (s.setPhase p n x).farDown = s.farDown := rfl

/-! setJob -/
@[simp] theorem setJob_job_same (s : State) (p n : Nat) (x : Job) : (s.setJob p n x).job p n = x := assocGet_assocSet_same _ _ _ _
@[simp] theorem setJob_ctx (s : State) (p n m : Nat) (x : Job) : (s.setJob p n x).ctx m = s.ctx m := rfl
@[simp] theorem setJob_core (s : State) (p n m : Nat) (x : Job) : (s.setJob p n x).core m = s.core m := rfl
@[simp] theorem setJob_cluster (s : State) (p n m : Nat) (x : Job) : (s.setJob p n x).cluster m = s.cluster m := rfl
@[simp] theorem setJob_row (s : State) (p n m : Nat) (x : Job) : (s.setJob p n x).row m = s.row m := rfl
@[simp] theorem setJob_workRow (s : State) (p n m : Nat) (x : Job) : (s.setJob p n x).workRow m = s.workRow m := rfl
@[simp] theorem setJob_col (s : State) (p n m : Nat) (x : Job) : (s.setJob p n x).col m = s.col m := rfl
@[simp] theorem setJob_gridRow (s : State) (p n m : Nat) (x : Job) : (s.setJob p n x).gridRow m = s.gridRow m := rfl
@[simp] theorem setJob_stack (s : State) (p n m : Nat) (x : Job) : (s.setJob p n x).stack m = s.stack m := rfl
@[simp] theorem setJob_zone (s : State) (p n m : Nat) (x : Job) : (s.setJob p n x).zone m = s.zone m := rfl
@[simp] theorem setJob_part (s : State) (p n m : Nat) (x : Job) : (s.setJob p n x).part m = s.part m := rfl
@[simp] theorem setJob_launch (s : State) (p n m : Nat) (x : Job) : (s.setJob p n x).launch m = s.launch m := rfl
@[simp] theorem setJob_mem (s : State) (p n : Nat) (x : Job) : (s.setJob p n x).mem = s.mem := rfl
@[simp] theorem setJob_host (s : State) (p n : Nat) (x : Job) : (s.setJob p n x).host = s.host := rfl
@[simp] theorem setJob_launchq (s : State) (p n : Nat) (x : Job) : (s.setJob p n x).launchq = s.launchq := rfl
@[simp] theorem setJob_timebase (s : State) (p n : Nat) (x : Job) : (s.setJob p n x).timebase = s.timebase := rfl
@[simp] theorem setJob_nextLaunch (s : State) (p n : Nat) (x : Job) : (s.setJob p n x).nextLaunch = s.nextLaunch := rfl
@[simp] theorem setJob_windows (s : State) (p n : Nat) (x : Job) : (s.setJob p n x).windows = s.windows := rfl
@[simp] theorem setJob_hdms (s : State) (p n : Nat) (x : Job) : (s.setJob p n x).hdms = s.hdms := rfl
@[simp] theorem setJob_msix (s : State) (p n : Nat) (x : Job) : (s.setJob p n x).msix = s.msix := rfl
@[simp] theorem setJob_mgmt (s : State) (p n : Nat) (x : Job) : (s.setJob p n x).mgmt = s.mgmt := rfl
@[simp] theorem setJob_pkg (s : State) (p n : Nat) (x : Job) : (s.setJob p n x).pkg = s.pkg := rfl
@[simp] theorem setJob_links (s : State) (p n : Nat) (x : Job) : (s.setJob p n x).links = s.links := rfl
@[simp] theorem setJob_peers (s : State) (p n : Nat) (x : Job) : (s.setJob p n x).peers = s.peers := rfl
@[simp] theorem setJob_agenda (s : State) (p n : Nat) (x : Job) : (s.setJob p n x).agenda = s.agenda := rfl
@[simp] theorem setJob_mbxGo (s : State) (p n : Nat) (x : Job) : (s.setJob p n x).mbxGo = s.mbxGo := rfl
@[simp] theorem setJob_linkq (s : State) (p n : Nat) (x : Job) : (s.setJob p n x).linkq = s.linkq := rfl
@[simp] theorem setJob_sensors (s : State) (p n : Nat) (x : Job) : (s.setJob p n x).sensors = s.sensors := rfl
@[simp] theorem setJob_cur (s : State) (p n : Nat) (x : Job) : (s.setJob p n x).cur = s.cur := rfl
@[simp] theorem setJob_curK (s : State) (p n : Nat) (x : Job) : (s.setJob p n x).curK = s.curK := rfl
@[simp] theorem setJob_raw (s : State) (p n : Nat) (x : Job) : (s.setJob p n x).raw = s.raw := rfl
@[simp] theorem setJob_limm (s : State) (p n : Nat) (x : Job) : (s.setJob p n x).limm = s.limm := rfl
@[simp] theorem setJob_npc (s : State) (p n : Nat) (x : Job) : (s.setJob p n x).npc = s.npc := rfl
@[simp] theorem setJob_mark (s : State) (p n : Nat) (x : Job) : (s.setJob p n x).mark = s.mark := rfl
@[simp] theorem setJob_tick (s : State) (p n : Nat) (x : Job) : (s.setJob p n x).tick = s.tick := rfl
@[simp] theorem setJob_blockKey (s : State) (p n : Nat) (x : Job) : (s.setJob p n x).blockKey = s.blockKey := rfl
@[simp] theorem setJob_keyGen (s : State) (p n : Nat) (x : Job) : (s.setJob p n x).keyGen = s.keyGen := rfl
@[simp] theorem setJob_ctxs (s : State) (p n : Nat) (x : Job) : (s.setJob p n x).ctxs = s.ctxs := rfl
@[simp] theorem setJob_cores (s : State) (p n : Nat) (x : Job) : (s.setJob p n x).cores = s.cores := rfl
@[simp] theorem setJob_clusters (s : State) (p n : Nat) (x : Job) : (s.setJob p n x).clusters = s.clusters := rfl
@[simp] theorem setJob_rows (s : State) (p n : Nat) (x : Job) : (s.setJob p n x).rows = s.rows := rfl
@[simp] theorem setJob_work (s : State) (p n : Nat) (x : Job) : (s.setJob p n x).work = s.work := rfl
@[simp] theorem setJob_slotOwn (s : State) (p n : Nat) (x : Job) : (s.setJob p n x).slotOwn = s.slotOwn := rfl
@[simp] theorem setJob_cols (s : State) (p n : Nat) (x : Job) : (s.setJob p n x).cols = s.cols := rfl
@[simp] theorem setJob_gridRows (s : State) (p n : Nat) (x : Job) : (s.setJob p n x).gridRows = s.gridRows := rfl
@[simp] theorem setJob_stks (s : State) (p n : Nat) (x : Job) : (s.setJob p n x).stks = s.stks := rfl
@[simp] theorem setJob_zones (s : State) (p n : Nat) (x : Job) : (s.setJob p n x).zones = s.zones := rfl
@[simp] theorem setJob_parts (s : State) (p n : Nat) (x : Job) : (s.setJob p n x).parts = s.parts := rfl
@[simp] theorem setJob_launches (s : State) (p n : Nat) (x : Job) : (s.setJob p n x).launches = s.launches := rfl
@[simp] theorem setJob_graphs (s : State) (p n : Nat) (x : Job) : (s.setJob p n x).graphs = s.graphs := rfl
@[simp] theorem setJob_phases (s : State) (p n : Nat) (x : Job) : (s.setJob p n x).phases = s.phases := rfl
@[simp] theorem setJob_nodeWait (s : State) (p n : Nat) (x : Job) : (s.setJob p n x).nodeWait = s.nodeWait := rfl
@[simp] theorem setJob_walkCache (s : State) (p n : Nat) (x : Job) : (s.setJob p n x).walkCache = s.walkCache := rfl
@[simp] theorem setJob_walkNext (s : State) (p n : Nat) (x : Job) : (s.setJob p n x).walkNext = s.walkNext := rfl
@[simp] theorem setJob_mbxCmd (s : State) (p n : Nat) (x : Job) : (s.setJob p n x).mbxCmd = s.mbxCmd := rfl
@[simp] theorem setJob_mbxStat (s : State) (p n : Nat) (x : Job) : (s.setJob p n x).mbxStat = s.mbxStat := rfl
@[simp] theorem setJob_powerLimit (s : State) (p n : Nat) (x : Job) : (s.setJob p n x).powerLimit = s.powerLimit := rfl
@[simp] theorem setJob_powerAt (s : State) (p n : Nat) (x : Job) : (s.setJob p n x).powerAt = s.powerAt := rfl
@[simp] theorem setJob_supplyBad (s : State) (p n : Nat) (x : Job) : (s.setJob p n x).supplyBad = s.supplyBad := rfl
@[simp] theorem setJob_peerBars (s : State) (p n : Nat) (x : Job) : (s.setJob p n x).peerBars = s.peerBars := rfl
@[simp] theorem setJob_hdmData (s : State) (p n : Nat) (x : Job) : (s.setJob p n x).hdmData = s.hdmData := rfl
@[simp] theorem setJob_farData (s : State) (p n : Nat) (x : Job) : (s.setJob p n x).farData = s.farData := rfl
@[simp] theorem setJob_booted (s : State) (p n : Nat) (x : Job) : (s.setJob p n x).booted = s.booted := rfl
@[simp] theorem setJob_farDown (s : State) (p n : Nat) (x : Job) : (s.setJob p n x).farDown = s.farDown := rfl

/-! bump -/
@[simp] theorem bump_ctx (s : State) (m : Nat) : s.bump.ctx m = s.ctx m := rfl
@[simp] theorem bump_core (s : State) (m : Nat) : s.bump.core m = s.core m := rfl
@[simp] theorem bump_cluster (s : State) (m : Nat) : s.bump.cluster m = s.cluster m := rfl
@[simp] theorem bump_row (s : State) (m : Nat) : s.bump.row m = s.row m := rfl
@[simp] theorem bump_workRow (s : State) (m : Nat) : s.bump.workRow m = s.workRow m := rfl
@[simp] theorem bump_col (s : State) (m : Nat) : s.bump.col m = s.col m := rfl
@[simp] theorem bump_gridRow (s : State) (m : Nat) : s.bump.gridRow m = s.gridRow m := rfl
@[simp] theorem bump_stack (s : State) (m : Nat) : s.bump.stack m = s.stack m := rfl
@[simp] theorem bump_zone (s : State) (m : Nat) : s.bump.zone m = s.zone m := rfl
@[simp] theorem bump_part (s : State) (m : Nat) : s.bump.part m = s.part m := rfl
@[simp] theorem bump_launch (s : State) (m : Nat) : s.bump.launch m = s.launch m := rfl
@[simp] theorem bump_mem (s : State) : s.bump.mem = s.mem := rfl
@[simp] theorem bump_host (s : State) : s.bump.host = s.host := rfl
@[simp] theorem bump_launchq (s : State) : s.bump.launchq = s.launchq := rfl
@[simp] theorem bump_timebase (s : State) : s.bump.timebase = s.timebase := rfl
@[simp] theorem bump_nextLaunch (s : State) : s.bump.nextLaunch = s.nextLaunch := rfl
@[simp] theorem bump_windows (s : State) : s.bump.windows = s.windows := rfl
@[simp] theorem bump_hdms (s : State) : s.bump.hdms = s.hdms := rfl
@[simp] theorem bump_msix (s : State) : s.bump.msix = s.msix := rfl
@[simp] theorem bump_mgmt (s : State) : s.bump.mgmt = s.mgmt := rfl
@[simp] theorem bump_pkg (s : State) : s.bump.pkg = s.pkg := rfl
@[simp] theorem bump_links (s : State) : s.bump.links = s.links := rfl
@[simp] theorem bump_peers (s : State) : s.bump.peers = s.peers := rfl
@[simp] theorem bump_agenda (s : State) : s.bump.agenda = s.agenda := rfl
@[simp] theorem bump_mbxGo (s : State) : s.bump.mbxGo = s.mbxGo := rfl
@[simp] theorem bump_linkq (s : State) : s.bump.linkq = s.linkq := rfl
@[simp] theorem bump_sensors (s : State) : s.bump.sensors = s.sensors := rfl
@[simp] theorem bump_cur (s : State) : s.bump.cur = s.cur := rfl
@[simp] theorem bump_curK (s : State) : s.bump.curK = s.curK := rfl
@[simp] theorem bump_raw (s : State) : s.bump.raw = s.raw := rfl
@[simp] theorem bump_limm (s : State) : s.bump.limm = s.limm := rfl
@[simp] theorem bump_npc (s : State) : s.bump.npc = s.npc := rfl
@[simp] theorem bump_mark (s : State) : s.bump.mark = s.mark := rfl
@[simp] theorem bump_tick (s : State) : s.bump.tick = s.tick + 1 := rfl
@[simp] theorem bump_blockKey (s : State) : s.bump.blockKey = s.blockKey := rfl
@[simp] theorem bump_keyGen (s : State) : s.bump.keyGen = s.keyGen := rfl
@[simp] theorem bump_ctxs (s : State) : s.bump.ctxs = s.ctxs := rfl
@[simp] theorem bump_cores (s : State) : s.bump.cores = s.cores := rfl
@[simp] theorem bump_clusters (s : State) : s.bump.clusters = s.clusters := rfl
@[simp] theorem bump_rows (s : State) : s.bump.rows = s.rows := rfl
@[simp] theorem bump_work (s : State) : s.bump.work = s.work := rfl
@[simp] theorem bump_slotOwn (s : State) : s.bump.slotOwn = s.slotOwn := rfl
@[simp] theorem bump_cols (s : State) : s.bump.cols = s.cols := rfl
@[simp] theorem bump_gridRows (s : State) : s.bump.gridRows = s.gridRows := rfl
@[simp] theorem bump_stks (s : State) : s.bump.stks = s.stks := rfl
@[simp] theorem bump_zones (s : State) : s.bump.zones = s.zones := rfl
@[simp] theorem bump_parts (s : State) : s.bump.parts = s.parts := rfl
@[simp] theorem bump_launches (s : State) : s.bump.launches = s.launches := rfl
@[simp] theorem bump_graphs (s : State) : s.bump.graphs = s.graphs := rfl
@[simp] theorem bump_phases (s : State) : s.bump.phases = s.phases := rfl
@[simp] theorem bump_jobs (s : State) : s.bump.jobs = s.jobs := rfl
@[simp] theorem bump_nodeWait (s : State) : s.bump.nodeWait = s.nodeWait := rfl
@[simp] theorem bump_walkCache (s : State) : s.bump.walkCache = s.walkCache := rfl
@[simp] theorem bump_walkNext (s : State) : s.bump.walkNext = s.walkNext := rfl
@[simp] theorem bump_mbxCmd (s : State) : s.bump.mbxCmd = s.mbxCmd := rfl
@[simp] theorem bump_mbxStat (s : State) : s.bump.mbxStat = s.mbxStat := rfl
@[simp] theorem bump_powerLimit (s : State) : s.bump.powerLimit = s.powerLimit := rfl
@[simp] theorem bump_powerAt (s : State) : s.bump.powerAt = s.powerAt := rfl
@[simp] theorem bump_supplyBad (s : State) : s.bump.supplyBad = s.supplyBad := rfl
@[simp] theorem bump_peerBars (s : State) : s.bump.peerBars = s.peerBars := rfl
@[simp] theorem bump_hdmData (s : State) : s.bump.hdmData = s.hdmData := rfl
@[simp] theorem bump_farData (s : State) : s.bump.farData = s.farData := rfl
@[simp] theorem bump_booted (s : State) : s.bump.booted = s.booted := rfl
@[simp] theorem bump_farDown (s : State) : s.bump.farDown = s.farDown := rfl

/-! The executing context. -/
@[simp] theorem modMe_me (s : State) (f : Ctx → Ctx) : (s.modMe f).me = f s.me := assocGet_assocSet_same _ _ _ _
@[simp] theorem modMe_cur (s : State) (f : Ctx → Ctx) : (s.modMe f).cur = s.cur := rfl
@[simp] theorem modMe_modMe (s : State) (f g : Ctx → Ctx) : (s.modMe f).modMe g = s.modMe fun x => g (f x) := by
  simp [State.modMe, State.modCtx]
theorem mark_me (s : State) (m : Mark) : ({ s with mark := m } : State).me = s.me := rfl

end Sys2Proof.Laws
end

