-- ==== Sys2Proof/Laws/Ops.lean ====
section
/-! SUPPORT. What the shared operations of the meanings do: each runner answers a next state, and each register operation says
when it goes on and what it leaves. -/
namespace Sys2Proof.Laws
open Sys2Proof.Machine Sys2Proof.Safety

/-- A syllable's runner always answers a next state. -/
theorem runSyl_goes (k : BitVec 2) (m : M Unit) (s : State) : Goes (runSyl k m s) := by
  unfold runSyl Goes
  split <;> exact ⟨_, rfl⟩

/-- A word's runner always answers a next state. -/
theorem runWord_goes (m : M Unit) (s : State) : Goes (runWord m s) := by
  unfold runWord Goes
  split <;> exact ⟨_, rfl⟩

/-- An event's runner always answers a next state. -/
theorem runEvent_goes (f : State → State) (s : State) : Goes (runEvent f s) := ⟨_, rfl⟩

/-- What a syllable's meaning leaves where it ends without a stop. -/
theorem runSyl_ok {k : BitVec 2} {m : M Unit} {s t : State} (h : m { s with mark := .ok } = .ok () t) :
    runSyl k m s = .next t := by
  simp [runSyl, EStateM.run, h]

/-- What a syllable's trap leaves. -/
theorem runSyl_trap {k : BitVec 2} {m : M Unit} {s t : State} {code : Byte} {val : Word}
    (h : m { s with mark := .ok } = .error (.trap code val) t) : runSyl k m s = .next (trapped s k code val) := by
  simp only [runSyl, EStateM.run, h, trapped]

/-- What a stall leaves: the state, marked. -/
theorem runSyl_stall {k : BitVec 2} {m : M Unit} {s t : State} (h : m { s with mark := .ok } = .error .stall t) :
    runSyl k m s = .next { s with mark := .stall } := by
  simp [runSyl, EStateM.run, h]

/-- What a stall up to a cycle leaves. -/
theorem runSyl_stallTo {k : BitVec 2} {m : M Unit} {s t : State} {n : Nat} (h : m { s with mark := .ok } = .error (.stallTo n) t) :
    runSyl k m s = .next { s with mark := .stallTo n } := by
  simp [runSyl, EStateM.run, h]

/-- What a hold leaves: the changes so far, marked. -/
theorem runSyl_hold {k : BitVec 2} {m : M Unit} {s t : State} (h : m { s with mark := .ok } = .error .hold t) :
    runSyl k m s = .next { t with mark := .hold } := by
  simp [runSyl, EStateM.run, h]

/-- What a word's meaning leaves where it ends without a stop. -/
theorem runWord_ok {m : M Unit} {s t : State} (h : m { s with mark := .ok } = .ok () t) : runWord m s = .next t := by
  simp [runWord, EStateM.run, h]

/-! The monad, one step at a time. -/

theorem bind_ok {α β : Type} {m : M α} {f : α → M β} {s t : State} {a : α} (h : m s = .ok a t) : (m >>= f) s = f a t := by
  simp only [bind, EStateM.bind, h]
theorem bind_error {α β : Type} {m : M α} {f : α → M β} {s t : State} {e : Stop} (h : m s = .error e t) :
    (m >>= f) s = .error e t := by
  simp only [bind, EStateM.bind, h]
/-- One step of a meaning, for rewriting. -/
theorem bind_run {α β : Type} (m : M α) (f : α → M β) (s : State) :
    (m >>= f) s = match m s with | .ok a t => f a t | .error e t => .error e t := by
  simp only [bind, EStateM.bind]
  cases m s <;> rfl
theorem ite_run {α : Type} {c : Prop} [Decidable c] (m n : M α) (s : State) :
    (if c then m else n) s = if c then m s else n s := by split <;> rfl
theorem map_run {α β : Type} (f : α → β) (m : M α) (s : State) :
    (f <$> m) s = match m s with | .ok a t => .ok (f a) t | .error e t => .error e t := by
  simp only [Functor.map, EStateM.map]
  cases m s <;> rfl
@[simp] theorem throw_run {α : Type} (e : Stop) (s : State) : (throw e : M α) s = .error e s := rfl
@[simp] theorem pure_run {α : Type} (a : α) (s : State) : (pure a : M α) s = .ok a s := rfl
@[simp] theorem get_run (s : State) : (get : M State) s = .ok s s := rfl
@[simp] theorem set_run (s t : State) : (set t : M PUnit) s = .ok ⟨⟩ t := rfl
@[simp] theorem gets_run {α : Type} (f : State → α) (s : State) : gets f s = .ok (f s) s := rfl
@[simp] theorem upd_run (f : State → State) (s : State) : upd f s = .ok () (f s) := rfl
@[simp] theorem trap_run {α : Type} (c : Byte) (v : Word) (s : State) : (trap c v : M α) s = .error (.trap c v) s := rfl
@[simp] theorem stall_run {α : Type} (s : State) : (stall : M α) s = .error .stall s := rfl
theorem need_true {ok : Bool} (h : ok = true) (c : Byte) (v : Word) (s : State) : need ok c v s = .ok () s := by
  subst h; rfl
theorem need_false {ok : Bool} (h : ok = false) (c : Byte) (v : Word) (s : State) : need ok c v s = .error (.trap c v) s := by
  subst h; rfl
theorem await_true {ok : Bool} (h : ok = true) (s : State) : await ok s = .ok () s := by
  subst h; rfl
theorem await_false {ok : Bool} (h : ok = false) (s : State) : await ok s = .error .stall s := by
  subst h; rfl
theorem needE_true {ok : Bool} (h : ok = true) (c : Byte) (s : State) : needE ok c s = .ok () s := by
  subst h; rfl
theorem needE_false {ok : Bool} (h : ok = false) (c : Byte) (s : State) : needE ok c s = .error (.engine c) s := by
  subst h; rfl

theorem need_run (ok : Bool) (c : Byte) (v : Word) (s : State) :
    need ok c v s = if ok = true then .ok () s else .error (.trap c v) s := by cases ok <;> rfl
theorem await_run (ok : Bool) (s : State) : await ok s = if ok = true then .ok () s else .error .stall s := by cases ok <;> rfl
theorem needE_run (ok : Bool) (c : Byte) (s : State) :
    needE ok c s = if ok = true then .ok () s else .error (.engine c) s := by cases ok <;> rfl
@[simp] theorem syllable_run (k : Nat) (s : State) : syllable k s = .ok ((s.raw.extractLsb' (32 * k) 32).setWidth 64) s := rfl
theorem noSpec_run (k : Nat) (s : State) :
    noSpec k s = if s.me.spec = true then .error (.trap 0x11 ((s.raw.extractLsb' (32 * k) 32).setWidth 64)) s else .ok () s := by
  unfold noSpec
  simp only [bind_run, gets_run, ite_run, syllable_run, trap_run]
  split <;> rfl
theorem needPriv_run (k : Nat) (s : State) :
    needPriv k s = if s.me.priv = true then .ok () s else .error (.trap 0x02 ((s.raw.extractLsb' (32 * k) 32).setWidth 64)) s := by
  unfold needPriv
  simp only [bind_run, gets_run, ite_run, syllable_run, trap_run]
  split <;> rfl
@[simp] theorem rel_run (sc : Scope) (s : State) : rel sc s = .ok () (s.release s.cur sc) := rfl
@[simp] theorem acq_run (sc : Scope) (s : State) : acq sc s = .ok () (s.acquire s.cur sc) := rfl
@[simp] theorem reg_zero (x : Ctx) : x.reg 0 = 0 := rfl

/-- Reading a register that is ready gives its value and changes nothing. -/
theorem rdG_ready {s : State} {r : Reg} (h : Ready s r) : rdG r s = .ok (s.me.reg r) s := by
  by_cases hr : r = 0
  · subst hr; rfl
  · rcases h with h | ⟨hv, hp, hc⟩
    · exact absurd h hr
    · unfold rdG
      rw [bind_ok (gets_run _ _), if_neg hr]
      rw [bind_ok (need_true hv _ _ _), bind_ok (await_true (by simp [hp]) _)]
      rw [bind_ok (need_true (by rcases hc with hc | hc <;> simp [hc]) _ _ _)]
      rfl

/-- Reading an invalid register raises INVALID.REG with its number. -/
theorem rdG_invalid {s : State} {r : Reg} (hr : r ≠ 0) (hv : s.me.valid.getLsbD r.val = false) :
    rdG r s = .error (.trap 0x03 (BitVec.ofNat 64 r.val)) s := by
  unfold rdG
  rw [bind_ok (gets_run _ _), if_neg hr, bind_error (need_false hv _ _ _)]

/-- A read of a register that a scoreboarded producer owes a value waits. -/
theorem rdG_pending {s : State} {r : Reg} (hr : r ≠ 0) (hv : s.me.valid.getLsbD r.val = true) (hp : s.me.pendingG r = true) :
    rdG r s = .error .stall s := by
  unfold rdG
  rw [bind_ok (gets_run _ _), if_neg hr, bind_ok (need_true hv _ _ _), bind_error (await_false (by simp [hp]) _)]

/-- Under CTX.CTL.CHK a read of a register with a fixed-latency write outstanding raises STALL.SHORT with its number. -/
theorem rdG_short {s : State} {r : Reg} (hr : r ≠ 0) (hv : s.me.valid.getLsbD r.val = true) (hp : s.me.pendingG r = false)
    (hc : s.me.chk = true) (hl : s.me.lateG r ≠ none) : rdG r s = .error (.trap 0x06 (BitVec.ofNat 64 r.val)) s := by
  unfold rdG
  rw [bind_ok (gets_run _ _), if_neg hr, bind_ok (need_true hv _ _ _), bind_ok (await_true (by simp [hp]) _),
    bind_error (need_false (by simpa [hc, Option.isSome_iff_ne_none] using hl) _ _ _)]

/-- The sources of a syllable are looked over at once: the first that is invalid raises INVALID.REG with its number. -/
theorem sources_run (l : List Reg) (s : State) :
    sources l s = match l.find? fun r => r != 0 && !s.me.valid.getLsbD r.val with
      | some r => .error (.trap 0x03 (BitVec.ofNat 64 r.val)) s
      | none => .ok () s := by
  unfold sources
  rw [bind_ok (gets_run _ _)]
  cases l.find? fun r => r != 0 && !s.me.valid.getLsbD r.val <;> rfl
/-- Sources of which none is invalid raise nothing. -/
theorem sources_valid {l : List Reg} {s : State} (h : ∀ r ∈ l, r = 0 ∨ s.me.valid.getLsbD r.val = true) :
    sources l s = .ok () s := by
  rw [sources_run, List.find?_eq_none.2 fun r hr => by rcases h r hr with h | h <;> simp [h]]
theorem sources_ready {l : List Reg} {s : State} (h : ∀ r ∈ l, Ready s r) : sources l s = .ok () s :=
  sources_valid fun r hr => (h r hr).imp id (·.1)

/-- Looking at a register that is ready gives its value. -/
theorem peekG_ready {s : State} {r : Reg} (h : Ready s r) : peekG r s = .ok (some (s.me.reg r)) s := by
  by_cases hr : r = 0
  · subst hr; rfl
  · rcases h with h | ⟨hv, hp, -⟩
    · exact absurd h hr
    · unfold peekG
      rw [bind_ok (gets_run _ _), if_neg hr, bind_ok (await_true (by simp [hp]) _), hv]
      rfl

/-- A wait whose condition holds goes on with the record's byte 23 back at 2 (R261). -/
theorem holdUntil_true {cond : State → Bool} {s : State} (h : cond s = true) : holdUntil cond s = .ok () (woken s) := by
  unfold holdUntil woken
  rw [bind_ok (get_run _)]
  cases s.me.running with
  | none => simp [h]
  | some u => simp only [h, if_true, ite_run, upd_run, pure_run]; split <;> rfl

/-- A wait whose condition does not hold keeps its context, with the record's byte 23 at 3 (R261). -/
theorem holdUntil_false {cond : State → Bool} {s : State} (h : cond s = false) :
    ∃ t, holdUntil cond s = .error .hold t ∧ { t with mark := .hold } = held s := by
  unfold holdUntil held
  rw [bind_ok (get_run _)]
  cases s.me.running with
  | none => exact ⟨s, by simp [h], rfl⟩
  | some u =>
    by_cases h3 : s.recState u.part u.recVa = 3
    · exact ⟨s, by simp [h, h3], by simp [h3]⟩
    · exact ⟨_, by simp only [h, h3, ne_eq, not_false_iff, if_true]; rfl, by simp only [h3, if_false]⟩

/-- A destination that is free does not wait. -/
theorem destG_free {s : State} {d : Reg} {lat : Option Nat} (h : Free s d lat) : destG d lat s = .ok () s := by
  by_cases hd : d = 0
  · subst hd; rfl
  · rcases h with h | ⟨hp, hl⟩
    · exact absurd h hd
    · unfold destG
      rw [bind_ok (gets_run _ _), if_neg hd, bind_ok (await_true (by simp [hp]) _)]
      unfold afterOlder
      rw [bind_ok (gets_run _ _)]
      cases hn : s.me.lateG d with
      | none => rfl
      | some n =>
        cases lat with
        | none => rfl
        | some k =>
          have hk := hl k rfl
          rw [hn] at hk
          show (if s.me.cycle + k < n then throw (Stop.stallTo n) else pure () : M Unit) s = _
          rw [if_neg (by simpa using hk)]
          rfl

/-- A destination that a scoreboarded producer owes a value waits (R73). -/
theorem destG_pending {s : State} {d : Reg} (lat : Option Nat) (hd : d ≠ 0) (hp : s.me.pendingG d = true) :
    destG d lat s = .error .stall s := by
  unfold destG
  rw [bind_ok (gets_run _ _), if_neg hd, bind_error (await_false (by simp [hp]) _)]
/-- A destination with an older write that comes later waits until that has taken effect (R244). -/
theorem destG_later {s : State} {d : Reg} {lat n : Nat} (hd : d ≠ 0) (hp : s.me.pendingG d = false) (hn : s.me.lateG d = some n)
    (h : s.me.cycle + lat < n) : destG d (some lat) s = .error (.stallTo n) s := by
  unfold destG
  rw [bind_ok (gets_run _ _), if_neg hd, bind_ok (await_true (by simp [hp]) _)]
  unfold afterOlder
  rw [bind_ok (gets_run _ _), hn]
  show (if s.me.cycle + lat < n then throw (Stop.stallTo n) else pure () : M Unit) s = _
  rw [if_pos h]
  rfl

/-- Issuing an effect puts it in flight. -/
theorem issue_run (e : Effect) (lat : Option Nat) (vec div load lq : Bool) (s : State) :
    issue e lat vec div load lq s = .ok () (inFlight s e lat vec div load lq) := rfl

/-- Writing a free register, the mark being clear, leaves `written`. -/
theorem wrG_free {s : State} {d : Reg} {lat : Nat} (v : Word) (h : Free s d (some lat)) (hm : s.mark = .ok) :
    wrG d v lat false s = .ok () (written s d v lat) := by
  have hs : ({ s with mark := .ok } : State) = s := by rw [← hm]
  unfold wrG
  rw [bind_ok (destG_free h)]
  by_cases hd : d = 0
  · subst hd
    simp [written, hs]
  · rw [if_neg hd, bind_ok (upd_run _ _), issue_run, written, if_neg hd, hs]

/-- A scoreboarded write of a free register. -/
theorem wrLater_free {s : State} {d : Reg} (v : Word) (load lq : Bool) (h : Free s d none) (hm : s.mark = .ok) :
    wrLater d v load lq s = .ok () (writtenLater s d v load lq) := by
  have hs : ({ s with mark := .ok } : State) = s := by rw [← hm]
  unfold wrLater
  rw [bind_ok (destG_free h)]
  by_cases hd : d = 0
  · subst hd
    simp only [if_true, issue_run, writtenLater, hs]
  · rw [if_neg hd, bind_ok (upd_run _ _), issue_run, writtenLater, if_neg hd, hs]

/-- The mark plays no part in reading or writing registers. -/
@[simp] theorem ready_mark (s : State) (m : Mark) (r : Reg) : Ready { s with mark := m } r ↔ Ready s r := Iff.rfl
@[simp] theorem free_mark (s : State) (m : Mark) (r : Reg) (n : Option Nat) : Free { s with mark := m } r n ↔ Free s r n := Iff.rfl
@[simp] theorem written_mark (s : State) (m : Mark) (d : Reg) (v : Word) (n : Nat) :
    written { s with mark := m } d v n = written s d v n := by
  unfold written; rfl
@[simp] theorem me_mark (s : State) (m : Mark) : ({ s with mark := m } : State).me = s.me := rfl

/-- A destination that is g0 takes nothing: no register, no write in flight (R71). -/
theorem written_zero (s : State) (v : Word) (n : Nat) : written s 0 v n = { s with mark := .ok } := rfl

/-- The extended immediates, as the meanings read them. -/
theorem immS_run {n : Nat} (v : BitVec n) (s : State) : immS v s = .ok (extS s v) s := by
  unfold immS extS
  rw [bind_ok (get_run _)]
  cases s.limm <;> rfl
theorem immU_run {n : Nat} (v : BitVec n) (s : State) : immU v s = .ok (extU s v) s := by
  unfold immU extU
  rw [bind_ok (get_run _)]
  cases s.limm <;> rfl

/-! Removing what is in flight, and the contexts. -/

@[simp] theorem inFlight_me (s : State) (e : Effect) (lat : Option Nat) (vec div load lq : Bool) :
    (inFlight s e lat vec div load lq).me =
      { s.me with wq := s.me.wq ++ [{ eff := e, issued := s.me.cycle, due := lat.map (s.me.cycle + ·), vec := vec, div := div,
                                      load := load, lq := lq }] } := modMe_me _ _
@[simp] theorem inFlight_mem (s : State) (e : Effect) (lat : Option Nat) (vec div load lq : Bool) :
    (inFlight s e lat vec div load lq).mem = s.mem := rfl
@[simp] theorem written_mem (s : State) (d : Reg) (v : Word) (n : Nat) : (written s d v n).mem = s.mem := by
  unfold written; split <;> rfl
@[simp] theorem written_mark_ok (s : State) (d : Reg) (v : Word) (n : Nat) : (written s d v n).mark = .ok := by
  unfold written; split <;> rfl

end Sys2Proof.Laws
end

