-- ==== Sys2Proof/Laws/PerInstr.lean ====
section
/-! SUPPORT. One lemma for each row of the opcode table: no instruction is both a syllable and an engine word, so a bundle and a
stream never give the same instruction (R223, R234). -/
namespace Sys2Proof.Laws

/-- An instruction with the encoding of a syllable has none as an engine word. -/
def Kind.Statement (i : Instr) : Prop := (encodeSyllable i).isSome = true → encodeWord i = none

theorem Kind.nop : Kind.Statement .nop := fun _ => rfl
theorem Kind.brEqz : ∀ a off, Kind.Statement (.brEqz a off) := fun _ _ _ => rfl
theorem Kind.brNez : ∀ a off, Kind.Statement (.brNez a off) := fun _ _ _ => rfl
theorem Kind.brLtz : ∀ a off, Kind.Statement (.brLtz a off) := fun _ _ _ => rfl
theorem Kind.brGez : ∀ a off, Kind.Statement (.brGez a off) := fun _ _ _ => rfl
theorem Kind.jmp : ∀ off, Kind.Statement (.jmp off) := fun _ _ => rfl
theorem Kind.call : ∀ off, Kind.Statement (.call off) := fun _ _ => rfl
theorem Kind.jmpi : ∀ a, Kind.Statement (.jmpi a) := fun _ _ => rfl
theorem Kind.calli : ∀ a, Kind.Statement (.calli a) := fun _ _ => rfl
theorem Kind.spawn : ∀ d a b, Kind.Statement (.spawn d a b) := fun _ _ _ _ => rfl
theorem Kind.suspend : ∀ a imm, Kind.Statement (.suspend a imm) := fun _ _ _ => rfl
theorem Kind.halt : Kind.Statement .halt := fun _ => rfl
theorem Kind.fork : ∀ set, Kind.Statement (.fork set) := fun _ _ => rfl
theorem Kind.rdv : Kind.Statement .rdv := fun _ => rfl
theorem Kind.launch : ∀ d a, Kind.Statement (.launch d a) := fun _ _ _ => rfl
theorem Kind.cancelUnit : ∀ a, Kind.Statement (.cancelUnit a) := fun _ _ => rfl
theorem Kind.cancelLaunch : ∀ a, Kind.Statement (.cancelLaunch a) := fun _ _ => rfl
theorem Kind.cancelGraph : ∀ a, Kind.Statement (.cancelGraph a) := fun _ _ => rfl
theorem Kind.cancelPhase : ∀ a, Kind.Statement (.cancelPhase a) := fun _ _ => rfl
theorem Kind.cancelJob : ∀ a, Kind.Statement (.cancelJob a) := fun _ _ => rfl
theorem Kind.cntAdd : ∀ d a b, Kind.Statement (.cntAdd d a b) := fun _ _ _ _ => rfl
theorem Kind.cntWait : ∀ a b, Kind.Statement (.cntWait a b) := fun _ _ _ => rfl
theorem Kind.ldB : ∀ d a imm, Kind.Statement (.ldB d a imm) := fun _ _ _ _ => rfl
theorem Kind.ldH : ∀ d a imm, Kind.Statement (.ldH d a imm) := fun _ _ _ _ => rfl
theorem Kind.ldW : ∀ d a imm, Kind.Statement (.ldW d a imm) := fun _ _ _ _ => rfl
theorem Kind.ldD : ∀ d a imm, Kind.Statement (.ldD d a imm) := fun _ _ _ _ => rfl
theorem Kind.ldBz : ∀ d a imm, Kind.Statement (.ldBz d a imm) := fun _ _ _ _ => rfl
theorem Kind.ldHz : ∀ d a imm, Kind.Statement (.ldHz d a imm) := fun _ _ _ _ => rfl
theorem Kind.ldWz : ∀ d a imm, Kind.Statement (.ldWz d a imm) := fun _ _ _ _ => rfl
theorem Kind.stB : ∀ d a imm, Kind.Statement (.stB d a imm) := fun _ _ _ _ => rfl
theorem Kind.stH : ∀ d a imm, Kind.Statement (.stH d a imm) := fun _ _ _ _ => rfl
theorem Kind.stW : ∀ d a imm, Kind.Statement (.stW d a imm) := fun _ _ _ _ => rfl
theorem Kind.stD : ∀ d a imm, Kind.Statement (.stD d a imm) := fun _ _ _ _ => rfl
theorem Kind.ldcW : ∀ d a imm, Kind.Statement (.ldcW d a imm) := fun _ _ _ _ => rfl
theorem Kind.ldcD : ∀ d a imm, Kind.Statement (.ldcD d a imm) := fun _ _ _ _ => rfl
theorem Kind.ldAcqW : ∀ d a sc, Kind.Statement (.ldAcqW d a sc) := fun _ _ _ _ => rfl
theorem Kind.ldAcqD : ∀ d a sc, Kind.Statement (.ldAcqD d a sc) := fun _ _ _ _ => rfl
theorem Kind.stRelW : ∀ d a sc, Kind.Statement (.stRelW d a sc) := fun _ _ _ _ => rfl
theorem Kind.stRelD : ∀ d a sc, Kind.Statement (.stRelD d a sc) := fun _ _ _ _ => rfl
theorem Kind.qsync : ∀ sc, Kind.Statement (.qsync sc) := fun _ _ => rfl
theorem Kind.fence : ∀ sc, Kind.Statement (.fence sc) := fun _ _ => rfl
theorem Kind.ifence : Kind.Statement .ifence := fun _ => rfl
theorem Kind.discard : ∀ a sc, Kind.Statement (.discard a sc) := fun _ _ _ => rfl
theorem Kind.flush : ∀ a sc, Kind.Statement (.flush a sc) := fun _ _ _ => rfl
theorem Kind.pref : ∀ a imm, Kind.Statement (.pref a imm) := fun _ _ _ => rfl
theorem Kind.amoAdd : ∀ z sc d a b, Kind.Statement (.amoAdd z sc d a b) := fun _ _ _ _ _ _ => rfl
theorem Kind.amoMin : ∀ z sc d a b, Kind.Statement (.amoMin z sc d a b) := fun _ _ _ _ _ _ => rfl
theorem Kind.amoMax : ∀ z sc d a b, Kind.Statement (.amoMax z sc d a b) := fun _ _ _ _ _ _ => rfl
theorem Kind.amoMinu : ∀ z sc d a b, Kind.Statement (.amoMinu z sc d a b) := fun _ _ _ _ _ _ => rfl
theorem Kind.amoMaxu : ∀ z sc d a b, Kind.Statement (.amoMaxu z sc d a b) := fun _ _ _ _ _ _ => rfl
theorem Kind.amoAnd : ∀ z sc d a b, Kind.Statement (.amoAnd z sc d a b) := fun _ _ _ _ _ _ => rfl
theorem Kind.amoOr : ∀ z sc d a b, Kind.Statement (.amoOr z sc d a b) := fun _ _ _ _ _ _ => rfl
theorem Kind.amoXor : ∀ z sc d a b, Kind.Statement (.amoXor z sc d a b) := fun _ _ _ _ _ _ => rfl
theorem Kind.amoSwap : ∀ z sc d a b, Kind.Statement (.amoSwap z sc d a b) := fun _ _ _ _ _ _ => rfl
theorem Kind.cas : ∀ z sc d a b, Kind.Statement (.cas z sc d a b) := fun _ _ _ _ _ _ => rfl
theorem Kind.barArr : ∀ d a, Kind.Statement (.barArr d a) := fun _ _ _ => rfl
theorem Kind.barWait : ∀ a b, Kind.Statement (.barWait a b) := fun _ _ _ => rfl
theorem Kind.barSync : ∀ a, Kind.Statement (.barSync a) := fun _ _ => rfl
theorem Kind.flagSet : ∀ a, Kind.Statement (.flagSet a) := fun _ _ => rfl
theorem Kind.flagClr : ∀ a, Kind.Statement (.flagClr a) := fun _ _ => rfl
theorem Kind.flagWait : ∀ a, Kind.Statement (.flagWait a) := fun _ _ => rfl
theorem Kind.send : ∀ a b, Kind.Statement (.send a b) := fun _ _ _ => rfl
theorem Kind.recv : ∀ d a, Kind.Statement (.recv d a) := fun _ _ _ => rfl
theorem Kind.recvPoll : ∀ d a, Kind.Statement (.recvPoll d a) := fun _ _ _ => rfl
theorem Kind.runBegin : ∀ d a imm, Kind.Statement (.runBegin d a imm) := fun _ _ _ _ => rfl
theorem Kind.acceptEq : ∀ a, Kind.Statement (.acceptEq a) := fun _ _ => rfl
theorem Kind.acceptTol : ∀ a b, Kind.Statement (.acceptTol a b) := fun _ _ _ => rfl
theorem Kind.runCommit : ∀ d a, Kind.Statement (.runCommit d a) := fun _ _ _ => rfl
theorem Kind.runAbort : ∀ a, Kind.Statement (.runAbort a) := fun _ _ => rfl
theorem Kind.vsend : ∀ a b, Kind.Statement (.vsend a b) := fun _ _ _ => rfl
theorem Kind.vfence : Kind.Statement .vfence := fun _ => rfl
theorem Kind.vstat : ∀ d, Kind.Statement (.vstat d) := fun _ _ => rfl
theorem Kind.vput : ∀ z d a row, Kind.Statement (.vput z d a row) := fun _ _ _ _ _ => rfl
theorem Kind.vget : ∀ z d a row, Kind.Statement (.vget z d a row) := fun _ _ _ _ _ => rfl
theorem Kind.trap : ∀ code, Kind.Statement (.trap code) := fun _ _ => rfl
theorem Kind.eret : Kind.Statement .eret := fun _ => rfl
theorem Kind.mfs : ∀ d num, Kind.Statement (.mfs d num) := fun _ _ _ => rfl
theorem Kind.mts : ∀ num d, Kind.Statement (.mts num d) := fun _ _ _ => rfl
theorem Kind.brk : ∀ code, Kind.Statement (.brk code) := fun _ _ => rfl
theorem Kind.wait : ∀ a, Kind.Statement (.wait a) := fun _ _ => rfl
theorem Kind.flowReq : ∀ a b, Kind.Statement (.flowReq a b) := fun _ _ _ => rfl
theorem Kind.add : ∀ d a b, Kind.Statement (.add d a b) := fun _ _ _ _ => rfl
theorem Kind.sub : ∀ d a b, Kind.Statement (.sub d a b) := fun _ _ _ _ => rfl
theorem Kind.mul : ∀ d a b, Kind.Statement (.mul d a b) := fun _ _ _ _ => rfl
theorem Kind.mulh : ∀ d a b, Kind.Statement (.mulh d a b) := fun _ _ _ _ => rfl
theorem Kind.mulhu : ∀ d a b, Kind.Statement (.mulhu d a b) := fun _ _ _ _ => rfl
theorem Kind.div : ∀ d a b, Kind.Statement (.div d a b) := fun _ _ _ _ => rfl
theorem Kind.divu : ∀ d a b, Kind.Statement (.divu d a b) := fun _ _ _ _ => rfl
theorem Kind.rem : ∀ d a b, Kind.Statement (.rem d a b) := fun _ _ _ _ => rfl
theorem Kind.remu : ∀ d a b, Kind.Statement (.remu d a b) := fun _ _ _ _ => rfl
theorem Kind.and : ∀ d a b, Kind.Statement (.and d a b) := fun _ _ _ _ => rfl
theorem Kind.or : ∀ d a b, Kind.Statement (.or d a b) := fun _ _ _ _ => rfl
theorem Kind.xor : ∀ d a b, Kind.Statement (.xor d a b) := fun _ _ _ _ => rfl
theorem Kind.andn : ∀ d a b, Kind.Statement (.andn d a b) := fun _ _ _ _ => rfl
theorem Kind.orn : ∀ d a b, Kind.Statement (.orn d a b) := fun _ _ _ _ => rfl
theorem Kind.shl : ∀ d a b, Kind.Statement (.shl d a b) := fun _ _ _ _ => rfl
theorem Kind.shr : ∀ d a b, Kind.Statement (.shr d a b) := fun _ _ _ _ => rfl
theorem Kind.sar : ∀ d a b, Kind.Statement (.sar d a b) := fun _ _ _ _ => rfl
theorem Kind.rotl : ∀ d a b, Kind.Statement (.rotl d a b) := fun _ _ _ _ => rfl
theorem Kind.clz : ∀ d a, Kind.Statement (.clz d a) := fun _ _ _ => rfl
theorem Kind.ctz : ∀ d a, Kind.Statement (.ctz d a) := fun _ _ _ => rfl
theorem Kind.popc : ∀ d a, Kind.Statement (.popc d a) := fun _ _ _ => rfl
theorem Kind.min : ∀ d a b, Kind.Statement (.min d a b) := fun _ _ _ _ => rfl
theorem Kind.max : ∀ d a b, Kind.Statement (.max d a b) := fun _ _ _ _ => rfl
theorem Kind.minu : ∀ d a b, Kind.Statement (.minu d a b) := fun _ _ _ _ => rfl
theorem Kind.maxu : ∀ d a b, Kind.Statement (.maxu d a b) := fun _ _ _ _ => rfl
theorem Kind.sel : ∀ d a b c, Kind.Statement (.sel d a b c) := fun _ _ _ _ _ => rfl
theorem Kind.cmpEq : ∀ d a b, Kind.Statement (.cmpEq d a b) := fun _ _ _ _ => rfl
theorem Kind.cmpNe : ∀ d a b, Kind.Statement (.cmpNe d a b) := fun _ _ _ _ => rfl
theorem Kind.cmpLt : ∀ d a b, Kind.Statement (.cmpLt d a b) := fun _ _ _ _ => rfl
theorem Kind.cmpLtu : ∀ d a b, Kind.Statement (.cmpLtu d a b) := fun _ _ _ _ => rfl
theorem Kind.cmpLe : ∀ d a b, Kind.Statement (.cmpLe d a b) := fun _ _ _ _ => rfl
theorem Kind.cmpLeu : ∀ d a b, Kind.Statement (.cmpLeu d a b) := fun _ _ _ _ => rfl
theorem Kind.bext : ∀ d a b, Kind.Statement (.bext d a b) := fun _ _ _ _ => rfl
theorem Kind.bins : ∀ d a b, Kind.Statement (.bins d a b) := fun _ _ _ _ => rfl
theorem Kind.sext : ∀ d a n, Kind.Statement (.sext d a n) := fun _ _ _ _ => rfl
theorem Kind.zext : ∀ d a n, Kind.Statement (.zext d a n) := fun _ _ _ _ => rfl
theorem Kind.lea : ∀ d a b sh, Kind.Statement (.lea d a b sh) := fun _ _ _ _ _ => rfl
theorem Kind.mov : ∀ d a, Kind.Statement (.mov d a) := fun _ _ _ => rfl
theorem Kind.addi : ∀ d a imm, Kind.Statement (.addi d a imm) := fun _ _ _ _ => rfl
theorem Kind.andi : ∀ d a imm, Kind.Statement (.andi d a imm) := fun _ _ _ _ => rfl
theorem Kind.ori : ∀ d a imm, Kind.Statement (.ori d a imm) := fun _ _ _ _ => rfl
theorem Kind.xori : ∀ d a imm, Kind.Statement (.xori d a imm) := fun _ _ _ _ => rfl
theorem Kind.shli : ∀ d a n, Kind.Statement (.shli d a n) := fun _ _ _ _ => rfl
theorem Kind.shri : ∀ d a n, Kind.Statement (.shri d a n) := fun _ _ _ _ => rfl
theorem Kind.sari : ∀ d a n, Kind.Statement (.sari d a n) := fun _ _ _ _ => rfl
theorem Kind.cmpiEq : ∀ d a imm, Kind.Statement (.cmpiEq d a imm) := fun _ _ _ _ => rfl
theorem Kind.cmpiLt : ∀ d a imm, Kind.Statement (.cmpiLt d a imm) := fun _ _ _ _ => rfl
theorem Kind.cmpiLtu : ∀ d a imm, Kind.Statement (.cmpiLtu d a imm) := fun _ _ _ _ => rfl
theorem Kind.limm : ∀ imm, Kind.Statement (.limm imm) := fun _ _ => rfl
theorem Kind.vadd : ∀ f d x y, Kind.Statement (.vadd f d x y) := fun _ _ _ _ _ => rfl
theorem Kind.vsub : ∀ f d x y, Kind.Statement (.vsub f d x y) := fun _ _ _ _ _ => rfl
theorem Kind.vmul : ∀ f d x y, Kind.Statement (.vmul f d x y) := fun _ _ _ _ _ => rfl
theorem Kind.vfma : ∀ f d x y, Kind.Statement (.vfma f d x y) := fun _ _ _ _ _ => rfl
theorem Kind.vfms : ∀ f d x y, Kind.Statement (.vfms f d x y) := fun _ _ _ _ _ => rfl
theorem Kind.vmax : ∀ f d x y, Kind.Statement (.vmax f d x y) := fun _ _ _ _ _ => rfl
theorem Kind.vmin : ∀ f d x y, Kind.Statement (.vmin f d x y) := fun _ _ _ _ _ => rfl
theorem Kind.vcmpEq : ∀ f m x y, Kind.Statement (.vcmpEq f m x y) := fun _ _ _ _ _ => rfl
theorem Kind.vcmpLt : ∀ f m x y, Kind.Statement (.vcmpLt f m x y) := fun _ _ _ _ _ => rfl
theorem Kind.vcmpLe : ∀ f m x y, Kind.Statement (.vcmpLe f m x y) := fun _ _ _ _ _ => rfl
theorem Kind.vadds : ∀ f d x y, Kind.Statement (.vadds f d x y) := fun _ _ _ _ _ => rfl
theorem Kind.vand : ∀ f d x y, Kind.Statement (.vand f d x y) := fun _ _ _ _ _ => rfl
theorem Kind.vor : ∀ f d x y, Kind.Statement (.vor f d x y) := fun _ _ _ _ _ => rfl
theorem Kind.vxor : ∀ f d x y, Kind.Statement (.vxor f d x y) := fun _ _ _ _ _ => rfl
theorem Kind.vshl : ∀ f d x y, Kind.Statement (.vshl f d x y) := fun _ _ _ _ _ => rfl
theorem Kind.vshr : ∀ f d x y, Kind.Statement (.vshr f d x y) := fun _ _ _ _ _ => rfl
theorem Kind.vrotF32 : ∀ d x y, Kind.Statement (.vrotF32 d x y) := fun _ _ _ _ => rfl
theorem Kind.vrotBf16 : ∀ d x y, Kind.Statement (.vrotBf16 d x y) := fun _ _ _ _ => rfl
theorem Kind.vrcpstep : ∀ d x y, Kind.Statement (.vrcpstep d x y) := fun _ _ _ _ => rfl
theorem Kind.vrsqstep : ∀ d x y, Kind.Statement (.vrsqstep d x y) := fun _ _ _ _ => rfl
theorem Kind.vcvt : ∀ f d x src, Kind.Statement (.vcvt f d x src) := fun _ _ _ _ _ => rfl
theorem Kind.vcvtSat : ∀ f d x src, Kind.Statement (.vcvtSat f d x src) := fun _ _ _ _ _ => rfl
theorem Kind.vmov : ∀ f d x, Kind.Statement (.vmov f d x) := fun _ _ _ _ => rfl
theorem Kind.vabs : ∀ f d x, Kind.Statement (.vabs f d x) := fun _ _ _ _ => rfl
theorem Kind.vneg : ∀ f d x, Kind.Statement (.vneg f d x) := fun _ _ _ _ => rfl
theorem Kind.vclamp : ∀ f d x, Kind.Statement (.vclamp f d x) := fun _ _ _ _ => rfl
theorem Kind.vscale : ∀ f d x, Kind.Statement (.vscale f d x) := fun _ _ _ _ => rfl
theorem Kind.vexp2 : ∀ d x, Kind.Statement (.vexp2 d x) := fun _ _ _ => rfl
theorem Kind.vlog2 : ∀ d x, Kind.Statement (.vlog2 d x) := fun _ _ _ => rfl
theorem Kind.vrcpA : ∀ d x, Kind.Statement (.vrcpA d x) := fun _ _ _ => rfl
theorem Kind.vrsqA : ∀ d x, Kind.Statement (.vrsqA d x) := fun _ _ _ => rfl
theorem Kind.vmask : ∀ m, Kind.Statement (.vmask m) := fun _ _ => rfl
theorem Kind.vshuf : ∀ f d x y, Kind.Statement (.vshuf f d x y) := fun _ _ _ _ _ => rfl
theorem Kind.vsel : ∀ f d x y, Kind.Statement (.vsel f d x y) := fun _ _ _ _ _ => rfl
theorem Kind.vredSum : ∀ f d x, Kind.Statement (.vredSum f d x) := fun _ _ _ _ => rfl
theorem Kind.vredMax : ∀ f d x, Kind.Statement (.vredMax f d x) := fun _ _ _ _ => rfl
theorem Kind.vredMin : ∀ f d x, Kind.Statement (.vredMin f d x) := fun _ _ _ _ => rfl
theorem Kind.vscanSum : ∀ f d x, Kind.Statement (.vscanSum f d x) := fun _ _ _ _ => rfl
theorem Kind.vtopk : ∀ d x, Kind.Statement (.vtopk d x) := fun _ _ _ => rfl
theorem Kind.vargmax : ∀ f d x, Kind.Statement (.vargmax f d x) := fun _ _ _ _ => rfl
theorem Kind.vfind : ∀ f d x y, Kind.Statement (.vfind f d x y) := fun _ _ _ _ _ => rfl
theorem Kind.vidx : ∀ f d, Kind.Statement (.vidx f d) := fun _ _ _ => rfl
theorem Kind.vbcast : ∀ f d x, Kind.Statement (.vbcast f d x) := fun _ _ _ _ => rfl
theorem Kind.vpack : ∀ f d x y, Kind.Statement (.vpack f d x y) := fun _ _ _ _ _ => rfl
theorem Kind.vunpack : ∀ f d x, Kind.Statement (.vunpack f d x) := fun _ _ _ _ => rfl
theorem Kind.vrandLatch : ∀ f d, Kind.Statement (.vrandLatch f d) := fun _ _ _ => rfl
theorem Kind.vrandRequest : ∀ f d, Kind.Statement (.vrandRequest f d) := fun _ _ _ => rfl
theorem Kind.lit : ∀ i, Kind.Statement (.lit i) := fun _ h => nomatch h
theorem Kind.ext : ∀ i, Kind.Statement (.ext i) := fun _ h => nomatch h
theorem Kind.sig : ∀ f, Kind.Statement (.sig f) := fun _ h => nomatch h
theorem Kind.waitt : ∀ f, Kind.Statement (.waitt f) := fun _ h => nomatch h
theorem Kind.loop : ∀ d, Kind.Statement (.loop d) := fun _ h => nomatch h
theorem Kind.wload : ∀ t, Kind.Statement (.wload t) := fun _ h => nomatch h
theorem Kind.mma : ∀ z, Kind.Statement (.mma z) := fun _ h => nomatch h
theorem Kind.xout : ∀ h, Kind.Statement (.xout h) := fun _ h => nomatch h
theorem Kind.aqEmit : ∀ q, Kind.Statement (.aqEmit q) := fun _ h => nomatch h
theorem Kind.aqDrain : ∀ m, Kind.Statement (.aqDrain m) := fun _ h => nomatch h
theorem Kind.stallCountExpiry : ∀ c, Kind.Statement (.stallCountExpiry c) := fun _ _ => rfl
theorem Kind.scoreboardWrite : ∀ c n, Kind.Statement (.scoreboardWrite c n) := fun _ _ _ => rfl
theorem Kind.vectorUnitIdle : ∀ c, Kind.Statement (.vectorUnitIdle c) := fun _ _ => rfl
theorem Kind.trapEntry : ∀ c cause syl val, Kind.Statement (.trapEntry c cause syl val) := fun _ _ _ _ _ => rfl
theorem Kind.pickUp : ∀ c, Kind.Statement (.pickUp c) := fun _ _ => rfl
theorem Kind.waitConditionSatisfied : ∀ n, Kind.Statement (.waitConditionSatisfied n) := fun _ _ => rfl
theorem Kind.blockingInstructionRetire : ∀ c, Kind.Statement (.blockingInstructionRetire c) := fun _ _ => rfl
theorem Kind.messageDelivery : ∀ clu n, Kind.Statement (.messageDelivery clu n) := fun _ _ _ => rfl
theorem Kind.spillListMove : ∀ clu, Kind.Statement (.spillListMove clu) := fun _ _ => rfl
theorem Kind.launchCompletion : ∀ l, Kind.Statement (.launchCompletion l) := fun _ _ => rfl
theorem Kind.copyNode : ∀ part graph node, Kind.Statement (.copyNode part graph node) := fun _ _ _ _ => rfl
theorem Kind.jobCompletion : ∀ part ctr, Kind.Statement (.jobCompletion part ctr) := fun _ _ _ => rfl
theorem Kind.dealerBind : ∀ l, Kind.Statement (.dealerBind l) := fun _ _ => rfl
theorem Kind.slotDrainZero : ∀ c, Kind.Statement (.slotDrainZero c) := fun _ _ => rfl
theorem Kind.preemption : ∀ c, Kind.Statement (.preemption c) := fun _ _ => rfl
theorem Kind.preemptionAbandon : ∀ c, Kind.Statement (.preemptionAbandon c) := fun _ _ => rfl
theorem Kind.parkedLeaseEnd : ∀ part rect, Kind.Statement (.parkedLeaseEnd part rect) := fun _ _ _ => rfl
theorem Kind.cancelBoundaryReached : ∀ c, Kind.Statement (.cancelBoundaryReached c) := fun _ _ => rfl
theorem Kind.cancelRemovalTimeout : ∀ c, Kind.Statement (.cancelRemovalTimeout c) := fun _ _ => rfl
theorem Kind.engineCommandStart : ∀ c k, Kind.Statement (.engineCommandStart c k) := fun _ _ _ => rfl
theorem Kind.engineCommandCommit : ∀ c k n, Kind.Statement (.engineCommandCommit c k n) := fun _ _ _ _ => rfl
theorem Kind.leaseGrant : ∀ part rect, Kind.Statement (.leaseGrant part rect) := fun _ _ _ => rfl
theorem Kind.attentionStallResume : ∀ c n, Kind.Statement (.attentionStallResume c n) := fun _ _ _ => rfl
theorem Kind.repairAnswerTake : ∀ c n, Kind.Statement (.repairAnswerTake c n) := fun _ _ _ => rfl
theorem Kind.frontierAdvance : ∀ c n, Kind.Statement (.frontierAdvance c n) := fun _ _ _ => rfl
theorem Kind.reduceCollectiveComplete : ∀ part tag, Kind.Statement (.reduceCollectiveComplete part tag) := fun _ _ _ => rfl
theorem Kind.pageWalk : ∀ clu, Kind.Statement (.pageWalk clu) := fun _ _ => rfl
theorem Kind.shootdownRequest : ∀ part, Kind.Statement (.shootdownRequest part) := fun _ _ => rfl
theorem Kind.shootdownComplete : ∀ part, Kind.Statement (.shootdownComplete part) := fun _ _ => rfl
theorem Kind.requestActivate : ∀ slot, Kind.Statement (.requestActivate slot) := fun _ _ => rfl
theorem Kind.requestRetire : ∀ slot, Kind.Statement (.requestRetire slot) := fun _ _ => rfl
theorem Kind.requestSlotFree : ∀ slot, Kind.Statement (.requestSlotFree slot) := fun _ _ => rfl
theorem Kind.publishGroupEnable : ∀ g, Kind.Statement (.publishGroupEnable g) := fun _ _ => rfl
theorem Kind.publishGroupDisable : ∀ g, Kind.Statement (.publishGroupDisable g) := fun _ _ => rfl
theorem Kind.deviceTableStore : ∀ va size val, Kind.Statement (.deviceTableStore va size val) := fun _ _ _ _ => rfl
theorem Kind.timebaseTick : Kind.Statement .timebaseTick := fun _ => rfl
theorem Kind.exposedLatencyElapsed : ∀ c, Kind.Statement (.exposedLatencyElapsed c) := fun _ _ => rfl
theorem Kind.storePerformed : ∀ c, Kind.Statement (.storePerformed c) := fun _ _ => rfl
theorem Kind.sensorSample : ∀ col reading ok, Kind.Statement (.sensorSample col reading ok) := fun _ _ _ _ => rfl
theorem Kind.hotColumnCadenceRaise : ∀ col, Kind.Statement (.hotColumnCadenceRaise col) := fun _ _ => rfl
theorem Kind.currentAlarm : ∀ clu, Kind.Statement (.currentAlarm clu) := fun _ _ => rfl
theorem Kind.currentAlarmCleared : ∀ clu, Kind.Statement (.currentAlarmCleared clu) := fun _ _ => rfl
theorem Kind.cadenceStepDown : ∀ col, Kind.Statement (.cadenceStepDown col) := fun _ _ => rfl
theorem Kind.packagePowerOverLimit : ∀ clu, Kind.Statement (.packagePowerOverLimit clu) := fun _ _ => rfl
theorem Kind.railSwitch : ∀ clu low, Kind.Statement (.railSwitch clu low) := fun _ _ _ => rfl
theorem Kind.railSwitchComplete : ∀ clu, Kind.Statement (.railSwitchComplete clu) := fun _ _ => rfl
theorem Kind.phaseCtlWrite : ∀ stk val, Kind.Statement (.phaseCtlWrite stk val) := fun _ _ _ => rfl
theorem Kind.phaseBoundary : ∀ clu, Kind.Statement (.phaseBoundary clu) := fun _ _ => rfl
theorem Kind.valveWrite : ∀ z share, Kind.Statement (.valveWrite z share) := fun _ _ _ => rfl
theorem Kind.valveReportMismatch : ∀ z pos, Kind.Statement (.valveReportMismatch z pos) := fun _ _ _ => rfl
theorem Kind.flowRequestAnswer : ∀ z give, Kind.Statement (.flowRequestAnswer z give) := fun _ _ _ => rfl
theorem Kind.dealerRegisterWrite : ∀ reg val, Kind.Statement (.dealerRegisterWrite reg val) := fun _ _ _ => rfl
theorem Kind.evacuationStart : ∀ z, Kind.Statement (.evacuationStart z) := fun _ _ => rfl
theorem Kind.evacuationCommitTimeout : ∀ z, Kind.Statement (.evacuationCommitTimeout z) := fun _ _ => rfl
theorem Kind.evacuationDry : ∀ z, Kind.Statement (.evacuationDry z) := fun _ _ => rfl
theorem Kind.evacuationFailed : ∀ z, Kind.Statement (.evacuationFailed z) := fun _ _ => rfl
theorem Kind.refillStart : ∀ z share floor, Kind.Statement (.refillStart z share floor) := fun _ _ _ _ => rfl
theorem Kind.refillComplete : ∀ z, Kind.Statement (.refillComplete z) := fun _ _ => rfl
theorem Kind.refillFail : ∀ z, Kind.Statement (.refillFail z) := fun _ _ => rfl
theorem Kind.correctedBeat : ∀ col, Kind.Statement (.correctedBeat col) := fun _ _ => rfl
theorem Kind.busTest : ∀ col failing, Kind.Statement (.busTest col failing) := fun _ _ _ => rfl
theorem Kind.busTestDeadline : ∀ col, Kind.Statement (.busTestDeadline col) := fun _ _ => rfl
theorem Kind.uncorrectableError : ∀ site col addr, Kind.Statement (.uncorrectableError site col addr) := fun _ _ _ _ => rfl
theorem Kind.columnFence : ∀ col, Kind.Statement (.columnFence col) := fun _ _ => rfl
theorem Kind.coreFence : ∀ core, Kind.Statement (.coreFence core) := fun _ _ => rfl
theorem Kind.coreReturnToService : ∀ core, Kind.Statement (.coreReturnToService core) := fun _ _ => rfl
theorem Kind.linkDown : ∀ edge, Kind.Statement (.linkDown edge) := fun _ _ => rfl
theorem Kind.hostSnoop : ∀ pa excl, Kind.Statement (.hostSnoop pa excl) := fun _ _ _ => rfl
theorem Kind.hostHdmAccess : ∀ pa size store val, Kind.Statement (.hostHdmAccess pa size store val) := fun _ _ _ _ _ => rfl
theorem Kind.packageReset : Kind.Statement .packageReset := fun _ => rfl
theorem Kind.mailboxGoLost : Kind.Statement .mailboxGoLost := fun _ => rfl
theorem Kind.partOpen : ∀ src, Kind.Statement (.partOpen src) := fun _ _ => rfl
theorem Kind.partClose : ∀ src, Kind.Statement (.partClose src) := fun _ _ => rfl
theorem Kind.jobSubmit : ∀ src, Kind.Statement (.jobSubmit src) := fun _ _ => rfl
theorem Kind.jobEnd : ∀ src, Kind.Statement (.jobEnd src) := fun _ _ => rfl
theorem Kind.rangeSet : ∀ src, Kind.Statement (.rangeSet src) := fun _ _ => rfl
theorem Kind.keyAdd : ∀ src, Kind.Statement (.keyAdd src) := fun _ _ => rfl
theorem Kind.homecopy : ∀ src, Kind.Statement (.homecopy src) := fun _ _ => rfl
theorem Kind.monAssign : ∀ src, Kind.Statement (.monAssign src) := fun _ _ => rfl
theorem Kind.monRead : ∀ src, Kind.Statement (.monRead src) := fun _ _ => rfl
theorem Kind.stats : ∀ src, Kind.Statement (.stats src) := fun _ _ => rfl
theorem Kind.attest : ∀ src, Kind.Statement (.attest src) := fun _ _ => rfl
theorem Kind.powerLimit : ∀ src, Kind.Statement (.powerLimit src) := fun _ _ => rfl
theorem Kind.supplyOutOfLimits : Kind.Statement .supplyOutOfLimits := fun _ => rfl
theorem Kind.supplyReturn : Kind.Statement .supplyReturn := fun _ => rfl
theorem Kind.peerFarRequest : ∀ op pa size key val, Kind.Statement (.peerFarRequest op pa size key val) := fun _ _ _ _ _ _ => rfl
theorem Kind.peerCollectiveArrival : ∀ a, Kind.Statement (.peerCollectiveArrival a) := fun _ _ => rfl
theorem Kind.mailboxStatClear : ∀ val, Kind.Statement (.mailboxStatClear val) := fun _ _ => rfl
theorem Kind.engineNop : Kind.Statement .engineNop := fun h => nomatch h
theorem Kind.dup : Kind.Statement .dup := fun h => nomatch h
theorem Kind.drop : Kind.Statement .drop := fun h => nomatch h
theorem Kind.swap : Kind.Statement .swap := fun h => nomatch h
theorem Kind.over : Kind.Statement .over := fun h => nomatch h
theorem Kind.engineAdd : Kind.Statement .engineAdd := fun h => nomatch h
theorem Kind.endW : Kind.Statement .endW := fun h => nomatch h
theorem Kind.lease : Kind.Statement .lease := fun h => nomatch h
theorem Kind.unlease : Kind.Statement .unlease := fun h => nomatch h
theorem Kind.wswap : Kind.Statement .wswap := fun h => nomatch h
theorem Kind.aclr : Kind.Statement .aclr := fun h => nomatch h
theorem Kind.ackpt : Kind.Statement .ackpt := fun h => nomatch h
theorem Kind.acload : Kind.Statement .acload := fun h => nomatch h
theorem Kind.kvapp : Kind.Statement .kvapp := fun h => nomatch h
theorem Kind.qk : Kind.Statement .qk := fun h => nomatch h
theorem Kind.sv : Kind.Statement .sv := fun h => nomatch h
theorem Kind.splice : Kind.Statement .splice := fun h => nomatch h
theorem Kind.repair : Kind.Statement .repair := fun h => nomatch h
theorem Kind.draw : Kind.Statement .draw := fun h => nomatch h
theorem Kind.get : Kind.Statement .get := fun h => nomatch h
theorem Kind.put : Kind.Statement .put := fun h => nomatch h
theorem Kind.getr : Kind.Statement .getr := fun h => nomatch h
theorem Kind.putr : Kind.Statement .putr := fun h => nomatch h
theorem Kind.fill : Kind.Statement .fill := fun h => nomatch h
theorem Kind.gather : Kind.Statement .gather := fun h => nomatch h
theorem Kind.scatter : Kind.Statement .scatter := fun h => nomatch h
theorem Kind.publish : Kind.Statement .publish := fun h => nomatch h
theorem Kind.xfer : Kind.Statement .xfer := fun h => nomatch h
theorem Kind.reduce : Kind.Statement .reduce := fun h => nomatch h
theorem Kind.aqBase : Kind.Statement .aqBase := fun h => nomatch h
theorem Kind.aqDim : Kind.Statement .aqDim := fun h => nomatch h
theorem Kind.aqWait : Kind.Statement .aqWait := fun h => nomatch h

end Sys2Proof.Laws
end

