-- ==== Sys2Proof/Laws/Reads.lean ====
section
/-! SUPPORT. What the hardware reads through translation depends on memory, the L2s, the partitions' keys and the windows, and
on nothing else: contexts, cores, rows and the rest may differ. -/
namespace Sys2Proof.Laws
open Sys2Proof.Machine

/-- Two states between which no read of memory tells. -/
structure SameMem (s t : State) : Prop where
  mem : s.mem = t.mem
  host : s.host = t.host
  blockKey : s.blockKey = t.blockKey
  keyGen : s.keyGen = t.keyGen
  clusters : s.clusters = t.clusters
  windows : s.windows = t.windows
  parts : s.parts = t.parts
  walkCache : s.walkCache = t.walkCache
  links : s.links = t.links
  farDown : s.farDown = t.farDown
  peers : s.peers = t.peers
  pkg : s.pkg = t.pkg

theorem sameMem_setCtx (s : State) (c : Nat) (x : Ctx) : SameMem (s.setCtx c x) s := ⟨rfl, rfl, rfl, rfl, rfl, rfl, rfl, rfl, rfl, rfl, rfl, rfl⟩
theorem sameMem_setCore (s : State) (c : Nat) (x : Core) : SameMem (s.setCore c x) s := ⟨rfl, rfl, rfl, rfl, rfl, rfl, rfl, rfl, rfl, rfl, rfl, rfl⟩
theorem sameMem_mark (s : State) (m : Mark) : SameMem { s with mark := m } s := ⟨rfl, rfl, rfl, rfl, rfl, rfl, rfl, rfl, rfl, rfl, rfl, rfl⟩
theorem SameMem.trans {s t u : State} (h : SameMem s t) (g : SameMem t u) : SameMem s u :=
  ⟨h.mem.trans g.mem, h.host.trans g.host, h.blockKey.trans g.blockKey, h.keyGen.trans g.keyGen, h.clusters.trans g.clusters, h.windows.trans g.windows,
   h.parts.trans g.parts, h.walkCache.trans g.walkCache, h.links.trans g.links, h.farDown.trans g.farDown, h.peers.trans g.peers, h.pkg.trans g.pkg⟩

variable {s t : State}

theorem windowAt_same (h : SameMem s t) (pa : Nat) : s.windowAt pa = t.windowAt pa := by simp only [State.windowAt, h.windows]
theorem homeRaw_same (h : SameMem s t) (pa : Nat) : s.homeRaw pa = t.homeRaw pa := by
  simp only [State.homeRaw, windowAt_same h, h.host, h.mem]
theorem keyNo_same (h : SameMem s t) (k : Nat) : s.keyNo k = t.keyNo k := by simp only [State.keyNo, h.keyGen]
theorem homeByte_same (h : SameMem s t) (k pa : Nat) : s.homeByte k pa = t.homeByte k pa := by
  unfold State.homeByte
  rw [homeRaw_same h, h.blockKey, h.mem, keyNo_same h]
theorem cohByte_same (h : SameMem s t) (k pa : Nat) : s.cohByte k pa = t.cohByte k pa := by
  simp only [State.cohByte, State.dirtySector, keyNo_same h, homeByte_same h, h.clusters]
theorem cohBytes_same (h : SameMem s t) (k pa n : Nat) : s.cohBytes k pa n = t.cohBytes k pa n := by
  induction n generalizing pa with
  | zero => rfl
  | succ n ih => simp only [State.cohBytes, cohByte_same h, ih]
theorem cohNat_same (h : SameMem s t) (k pa n : Nat) : s.cohNat k pa n = t.cohNat k pa n := by
  simp only [State.cohNat, cohBytes_same h]
theorem tget_same (h : SameMem s t) (a n : Nat) : s.tget a n = t.tget a n := by simp only [State.tget, h.mem]
theorem keydef_same (h : SameMem s t) (p : Nat) : s.keydef p = t.keydef p := by simp only [State.keydef, tget_same h]
theorem reaches_same (h : SameMem s t) (p : Nat) : s.reaches p = t.reaches p := by
  simp only [State.reaches, State.routeUp, State.linkUp, State.inDomain, State.route, h.peers, h.links, h.farDown, h.pkg]
theorem inHole_same (h : SameMem s t) (b n : Nat) : s.inHole b n = t.inHole b n := by
  simp only [State.inHole, windowAt_same h, h.peers, h.pkg]
theorem part_same (h : SameMem s t) (p : Nat) : s.part p = t.part p := by simp only [State.part, h.parts]
theorem walkFrom_same (h : SameMem s t) (p : Nat) (super : Bool) (acc : AccessKind) (va l table : Nat) :
    s.walkFrom p super acc va l table = t.walkFrom p super acc va l table := by
  induction l generalizing table with
  | zero => rfl
  | succ l ih => simp only [State.walkFrom, cohNat_same h, keydef_same h, inHole_same h, part_same h, ih]
theorem walk_same (h : SameMem s t) (p : Nat) (super : Bool) (acc : AccessKind) (va : Nat) :
    s.walk p super acc va = t.walk p super acc va := by
  simp only [State.walk, State.cachedTable, h.walkCache, tget_same h, walkFrom_same h]
theorem groupAt_same (h : SameMem s t) (pa : Nat) : s.groupAt pa = t.groupAt pa := by
  have e : s.activeGroups = t.activeGroups := by unfold State.activeGroups; rw [h.mem]
  have e2 : s.grpVis = t.grpVis := funext fun g => tget_same h _ _
  have e3 : s.grpSize = t.grpSize := funext fun g => by simp only [State.grpSize, tget_same h]
  unfold State.groupAt
  rw [e, e2, e3]
theorem steerTo_same (h : SameMem s t) (l : List (Nat × Bool)) (pa : Nat) : s.steerTo l pa = t.steerTo l pa := by
  simp only [State.steerTo, groupAt_same h, State.grpCur, State.grpBuf, State.grpVis, tget_same h]
  cases t.groupAt pa <;> rfl
theorem vPa_same (h : SameMem s t) (p : Nat) (super : Bool) (acc : AccessKind) (va : Nat) :
    s.vPa p super acc va = t.vPa p super acc va := by
  have e : ∀ pa, s.placeOk super pa = t.placeOk super pa := fun pa => by
    unfold State.placeOk; cases region pa <;> simp only [reaches_same h]
  simp only [State.vPa, walk_same h, steerTo_same h, e]
theorem vReadBy_same (h : SameMem s t) (tab : Nat → Nat → Option (List Byte)) (p : Nat) (super : Bool) (va n : Nat) :
    s.vReadBy tab p super va n = t.vReadBy tab p super va n := by
  have e : ∀ a k, s.placeRead tab a k = t.placeRead tab a k := fun a k => by
    unfold State.placeRead; cases region a.pa <;> simp only [cohBytes_same h]
  simp only [State.vReadBy, vPa_same h, e]
theorem vField_same (h : SameMem s t) (p : Nat) (super : Bool) (va n : Nat) : s.vField p super va n = t.vField p super va n := by
  simp only [State.vField, vReadBy_same h]
theorem readRec_same (h : SameMem s t) (p va : Nat) : s.readRec p va = t.readRec p va := by
  simp only [State.readRec, vField_same h]
theorem recState_same (h : SameMem s t) (p va : Nat) : s.recState p va = t.recState p va := by
  simp only [State.recState, readRec_same h]
theorem imgField_same (h : SameMem s t) (p img off n : Nat) : s.imgField p img off n = t.imgField p img off n := by
  simp only [State.imgField, vField_same h]

@[simp] theorem recState_setCtx (s : State) (c p va : Nat) (x : Ctx) : (s.setCtx c x).recState p va = s.recState p va :=
  recState_same (sameMem_setCtx s c x) p va
@[simp] theorem recState_setCore (s : State) (c p va : Nat) (x : Core) : (s.setCore c x).recState p va = s.recState p va :=
  recState_same (sameMem_setCore s c x) p va
@[simp] theorem recState_mark (s : State) (m : Mark) (p va : Nat) : ({ s with mark := m } : State).recState p va = s.recState p va :=
  recState_same (sameMem_mark s m) p va
@[simp] theorem imgField_setCtx (s : State) (c p img off n : Nat) (x : Ctx) :
    (s.setCtx c x).imgField p img off n = s.imgField p img off n := imgField_same (sameMem_setCtx s c x) p img off n

end Sys2Proof.Laws
end

