-- ==== Sys2Proof/Laws/Release.lean ====
section
/-! SUPPORT. What the memory hierarchy does not touch: performing stores, merging and recalling lines leave everything but memory,
the caches, the latch records of columns and the counts of a partition. -/
namespace Sys2Proof.Laws
open Sys2Proof.Machine

/-- A state without what the memory hierarchy changes. -/
def unseen (s : State) : State :=
  { s with mem := [], host := [], blockKey := [], cores := [], clusters := [], cols := [], parts := [], linkq := [], tick := 0 }

/-- A core without its L1. -/
def noL1 (x : Core) : Core := { x with l1 := [] }
/-- A cluster without its L2. -/
def noL2 (x : Cluster) : Cluster := { x with l2 := [] }
/-- A partition without its counts. -/
def noStats (x : Part) : Part := { x with stats := {} }

/-- A column without the records of the strips being repaired. -/
def noRec (x : Column) : Column := { x with frontRec := {}, backRec := {} }

/-- Two states differ at most in memory and its keys, L1 lines, L2 sectors, the strip records of columns, the counts of partitions, the link queues and the
tick. -/
structure Still (s t : State) : Prop where
  rest : unseen t = unseen s
  core : ∀ n, noL1 (t.core n) = noL1 (s.core n)
  cluster : ∀ n, noL2 (t.cluster n) = noL2 (s.cluster n)
  part : ∀ n, noStats (t.part n) = noStats (s.part n)
  col : ∀ n, noRec (t.col n) = noRec (s.col n)

namespace Still
variable {s t u : State}

theorem refl (s : State) : Still s s := ⟨rfl, fun _ => rfl, fun _ => rfl, fun _ => rfl, fun _ => rfl⟩
theorem trans (h : Still s t) (k : Still t u) : Still s u :=
  ⟨k.rest.trans h.rest, fun n => (k.core n).trans (h.core n), fun n => (k.cluster n).trans (h.cluster n),
   fun n => (k.part n).trans (h.part n), fun n => (k.col n).trans (h.col n)⟩
theorem ctxs (h : Still s t) : t.ctxs = s.ctxs := (congrArg State.ctxs h.rest : (unseen t).ctxs = (unseen s).ctxs)
theorem cur (h : Still s t) : t.cur = s.cur := (congrArg State.cur h.rest : (unseen t).cur = (unseen s).cur)
theorem pkg (h : Still s t) : t.pkg = s.pkg := (congrArg State.pkg h.rest : (unseen t).pkg = (unseen s).pkg)
theorem mark (h : Still s t) : t.mark = s.mark := (congrArg State.mark h.rest : (unseen t).mark = (unseen s).mark)
theorem ctx (h : Still s t) (c : Nat) : t.ctx c = s.ctx c := by unfold State.ctx; rw [h.ctxs]
theorem me (h : Still s t) : t.me = s.me := by unfold State.me; rw [h.cur, h.ctx]
/-- A chain of steps that each keep a state still. -/
theorem fold {α : Type} {f : State → α → State} (h : ∀ t a, Still t (f t a)) (l : List α) (s : State) : Still s (l.foldl f s) := by
  induction l generalizing s with
  | nil => exact refl s
  | cons a l ih => exact (h s a).trans (ih _)

end Still

section
variable (s : State) (k n p line core clu key : Nat)

theorem still_core {f : Core → Core} (h : ∀ x, noL1 (f x) = noL1 x) : Still s (s.modCore n f) := by
  refine ⟨rfl, fun m => ?_, fun _ => rfl, fun _ => rfl, fun _ => rfl⟩
  by_cases e : m = n
  · subst e
    rw [State.modCore, setCore_core_same, h]
  · rw [State.modCore, setCore_core_ne _ _ e]
theorem still_cluster {f : Cluster → Cluster} (h : ∀ x, noL2 (f x) = noL2 x) : Still s (s.modCluster n f) := by
  refine ⟨rfl, fun _ => rfl, fun m => ?_, fun _ => rfl, fun _ => rfl⟩
  by_cases e : m = n
  · subst e
    rw [State.modCluster, setCluster_cluster_same, h]
  · rw [State.modCluster, setCluster_cluster_ne _ _ e]
theorem still_charge (f : Stats → Stats) : Still s (s.charge p f) := by
  refine ⟨rfl, fun _ => rfl, fun _ => rfl, fun m => ?_, fun _ => rfl⟩
  by_cases e : m = p
  · subst e
    rw [State.charge, State.modPart, setPart_part_same]
    rfl
  · rw [State.charge, State.modPart, setPart_part_ne _ _ e]
theorem still_bump : Still s s.bump := ⟨rfl, fun _ => rfl, fun _ => rfl, fun _ => rfl, fun _ => rfl⟩
theorem still_touchCol (pa : Nat) : Still s (s.touchCol pa) := by
  unfold State.touchCol
  split
  · dsimp only
    split
    · exact .refl s
    · refine ⟨rfl, fun _ => rfl, fun _ => rfl, fun _ => rfl, fun n => ?_⟩
      rename_i c off _ _
      by_cases e : n = c
      · subst e
        rw [setCol_col_same]
        rfl
      · rw [setCol_col_ne _ _ e]
  · exact .refl s
theorem still_rekey : Still s (s.rekey key k) := by
  unfold State.rekey
  dsimp only
  split
  · exact ⟨rfl, fun _ => rfl, fun _ => rfl, fun _ => rfl, fun _ => rfl⟩
  · split <;> exact ⟨rfl, fun _ => rfl, fun _ => rfl, fun _ => rfl, fun _ => rfl⟩
theorem still_homeWriteLine (pa : Nat) (bs : List Byte) : Still s (s.homeWriteLine key pa bs) := by
  unfold State.homeWriteLine
  split
  · have h := Still.fold (fun t i => still_rekey t (pa / 16 + i) key) (List.range ((pa + bs.length - 1) / 16 - pa / 16 + 1)) s
    refine h.trans ?_
    dsimp only
    refine Still.trans ?_ (still_touchCol _ pa)
    exact ⟨rfl, fun _ => rfl, fun _ => rfl, fun _ => rfl, fun _ => rfl⟩
  · split
    · split <;> exact ⟨rfl, fun _ => rfl, fun _ => rfl, fun _ => rfl, fun _ => rfl⟩
    · exact ⟨rfl, fun _ => rfl, fun _ => rfl, fun _ => rfl, fun _ => rfl⟩
theorem still_homeWriteMask (data : BitVec 512) (m : BitVec 64) : Still s (s.homeWriteMask key line data m) := by
  refine Still.fold (fun t i => ?_) _ s
  split
  · exact still_homeWriteLine t key _ _
  · exact .refl t
theorem still_chargeHit : Still s (s.chargeHit k p) := by
  unfold State.chargeHit
  split
  · exact .refl s
  · exact (still_charge s k _).trans (still_charge _ p _)
theorem still_writeBack (x : Sector) : Still s (s.writeBack x p) := by
  unfold State.writeBack
  split
  · exact (still_homeWriteMask s _ _ _ _).trans (still_charge _ p _)
  · exact .refl s
theorem still_recallFrom (keep : Bool) : Still s (s.recallFrom line p keep clu) := by
  unfold State.recallFrom
  split
  · exact .refl s
  · dsimp only
    split
    · refine Still.trans ?_ (still_cluster _ clu fun _ => rfl)
      exact still_writeBack s p _
    · refine Still.trans ?_ (still_cluster _ clu fun _ => rfl)
      exact still_writeBack s p _
theorem still_recallOthers (keep : Bool) : Still s (s.recallOthers line p keep clu) :=
  Still.fold (fun t k => still_recallFrom t p line k keep) _ s
theorem still_recall : Still s (s.recall line p) := Still.fold (fun t k => still_recallFrom t p line k false) _ s
theorem still_sectorWrite (data : BitVec 512) (m : BitVec 64) : Still s (s.sectorWrite clu line data m) := by
  unfold State.sectorWrite
  split
  · exact .refl s
  · exact still_cluster s clu fun _ => rfl
theorem still_l2Take (excl : Bool) : Still s (s.l2Take clu key p line excl) := by
  unfold State.l2Take
  split
  · split
    · exact .refl s
    · refine Still.trans ?_ (still_cluster _ clu fun _ => rfl)
      exact still_recallOthers s p line clu false
  · dsimp only
    refine Still.trans ?_ (still_charge _ p _)
    refine Still.trans ?_ (still_cluster _ clu fun _ => rfl)
    exact still_recallOthers s p line clu _
theorem still_l1Sink : Still s (s.l1Sink clu line p core) := by
  unfold State.l1Sink
  split
  · exact .refl s
  · refine Still.trans ?_ (still_core _ core fun _ => rfl)
    split
    · exact .refl s
    · exact (still_l2Take s p line clu _ true).trans (still_sectorWrite _ line clu _ _)
theorem still_l2Evict : Still s (s.l2Evict clu line p) :=
  Still.fold (fun t i => (Still.fold (fun u j => still_l1Sink u p (line * 4 + i) (clu * 8 + j) clu) _ t).trans
    (still_recallFrom _ p _ clu false)) _ s
theorem still_l2Room : Still s (s.l2Room clu line p) := by
  unfold State.l2Room
  dsimp only
  split
  · exact .refl s
  · exact (still_l2Evict s p _ clu).trans (still_bump _)
theorem still_l2Fill (excl : Bool) : Still s (s.l2Fill clu key p line excl) := by
  unfold State.l2Fill
  split
  · exact (still_chargeHit s _ p).trans (still_l2Take _ p line clu key excl)
  · exact (still_l2Room s p line clu).trans (still_l2Take _ p line clu key excl)
theorem still_l2Merge (data : BitVec 512) (m : BitVec 64) : Still s (s.l2Merge clu key p line data m) := by
  unfold State.l2Merge
  refine Still.trans ?_ ((still_l2Take _ p line clu key true).trans (still_sectorWrite _ line clu _ _))
  split
  · exact .refl s
  · exact still_l2Room s p line clu
theorem still_l1Merge : Still s (s.l1Merge core line p) := by
  unfold State.l1Merge
  split
  · exact .refl s
  · split
    · exact .refl s
    · refine Still.trans ?_ (still_charge _ p _)
      refine Still.trans ?_ (still_core _ core fun _ => rfl)
      exact still_l2Merge s p line _ _ _ _
theorem still_l1Flush : Still s (s.l1Flush core line p) := by
  refine Still.trans ?_ (still_core _ core fun _ => rfl)
  exact still_l1Merge s p line core
theorem still_l1MergeAll : Still s (s.l1MergeAll core p) :=
  Still.fold (f := fun t (x : L1Line) => t.l1Merge core x.line p) (fun t x => still_l1Merge t p x.line core) _ s
theorem still_l1Room : Still s (s.l1Room core line p) := by
  unfold State.l1Room
  dsimp only
  split
  · exact .refl s
  · exact (still_l1Flush s p _ core).trans (still_bump _)
theorem still_l1Store (data : BitVec 512) (m : BitVec 64) : Still s (s.l1Store core key p line data m) := by
  unfold State.l1Store
  dsimp only
  split
  · refine Still.trans ?_ (still_core _ _ fun _ => rfl)
    exact still_chargeHit s _ p
  · refine Still.trans ?_ (still_core _ _ fun _ => rfl)
    exact (still_l2Room s p line _).trans (still_l1Room _ p line _)
theorem still_recallAll : Still s (s.recallAll line p) := by
  exact Still.trans (Still.fold (f := fun (t : State) (e : Nat × Core) => t.l1Sink (clusterOf e.1) line p e.1)
    (fun t e => still_l1Sink t p line e.1 _) _ s) (still_recall _ p line)
theorem still_mergeCore (sc : Scope) : Still s (s.mergeCore core p sc) := by
  unfold State.mergeCore
  split
  · exact Still.fold (fun t n => still_l1MergeAll t p n) _ s
  · exact .refl s
theorem still_farSend (pa : Nat) : Still s (s.farSend pa) := by
  unfold State.farSend
  split
  · split
    · exact ⟨rfl, fun _ => rfl, fun _ => rfl, fun _ => rfl, fun _ => rfl⟩
    · exact .refl s
  · exact .refl s
theorem still_performStore (c : Nat) (e : SqEntry) : Still s (s.performStore c e) := by
  unfold State.performStore
  dsimp only
  split
  · exact ((still_farSend s _).trans (still_recall _ _ _)).trans (still_homeWriteLine _ _ _ _)
  · exact still_l1Store s _ _ _ _ _ _
end

theorem assocGet_map {α : Type} (d : α) (f : α → α) (l : Assoc α) (n : Nat) (h : f d = d) :
    assocGet d (l.map fun e => (e.1, f e.2)) n = f (assocGet d l n) := by
  induction l with
  | nil => exact h.symm
  | cons e l ih =>
    obtain ⟨k, x⟩ := e
    simp only [List.map_cons, assocGet]
    split
    · rfl
    · exact ih

theorem still_performSq (s : State) (c : Nat) (e : SqEntry) : Still s (s.performSq c e) := by
  unfold State.performSq
  dsimp only
  split
  · exact still_performStore s c e
  · rename_i sc _
    refine Still.trans (t := (s.mergeAt c sc).performStore c e) ?_ ?_
    · refine Still.trans ?_ (still_performStore _ c e)
      exact still_mergeCore s _ _ _
    · split
      · exact still_l1Merge _ _ _ _
      · exact .refl _
  · split
    · exact still_l1Flush s _ _ _
    · exact still_l1Flush s _ _ _
    · exact Still.fold (fun t j => still_l1Flush t _ _ _) _ s
    · exact still_recallAll s _ _
  · split
    · exact still_core s _ fun _ => rfl
    · exact still_core s _ fun _ => rfl
    · refine Still.trans ?_ (still_cluster _ _ fun _ => rfl)
      exact Still.fold (f := fun (t : State) (j : Nat) => t.modCore (clusterOf (coreOf c) * 8 + j) (·.dropL1 (e.pa / 64)))
        (fun t j => still_core t _ fun _ => rfl) _ s
    · refine ⟨rfl, fun n => ?_, fun n => ?_, fun _ => rfl, fun _ => rfl⟩
      · show noL1 (assocGet {} (s.cores.map fun a => (a.1, a.2.dropL1 (e.pa / 64))) n) = _
        rw [assocGet_map {} (·.dropL1 (e.pa / 64)) s.cores n rfl]
        rfl
      · show noL2 (assocGet {} (s.clusters.map fun a => (a.1, a.2.dropSector (e.pa / 64))) n) = _
        rw [assocGet_map {} (·.dropSector (e.pa / 64)) s.clusters n rfl]
        rfl

/-! A release: it performs the stores of its context, in the cycles that takes. -/

/-- A state without what the memory hierarchy changes, its contexts and its slot rows. -/
def unticked (s : State) : State := { unseen s with ctxs := [], rows := [] }
/-- A context without its cycle, what is in flight, and what that writes. -/
def unclocked (x : Ctx) : Ctx :=
  { x with cycle := 0, wq := [], sq := [], sps := [], g := Vector.replicate 32 0, k := Vector.replicate 4 0 }
/-- A core without its L1 and its scratchpad. -/
def noSp (x : Core) : Core := { x with l1 := [], sp := [] }

/-- Time passes for context `c`, and what it has in flight takes place: nothing else changes. -/
structure Drains (c : Nat) (s t : State) : Prop where
  rest : unticked t = unticked s
  other : ∀ d, d ≠ c → t.ctx d = s.ctx d
  ctx : unclocked (t.ctx c) = unclocked (s.ctx c)
  cycle : (s.ctx c).cycle ≤ (t.ctx c).cycle
  wq : ∀ w ∈ (t.ctx c).wq, w ∈ (s.ctx c).wq
  core : ∀ n, noSp (t.core n) = noSp (s.core n)
  cluster : ∀ n, noL2 (t.cluster n) = noL2 (s.cluster n)
  part : ∀ n, noStats (t.part n) = noStats (s.part n)
  col : ∀ n, noRec (t.col n) = noRec (s.col n)

namespace Drains
variable {c : Nat} {s t u : State}

theorem refl (c : Nat) (s : State) : Drains c s s :=
  ⟨rfl, fun _ _ => rfl, rfl, Nat.le_refl _, fun _ h => h, fun _ => rfl, fun _ => rfl, fun _ => rfl, fun _ => rfl⟩
theorem trans (h : Drains c s t) (k : Drains c t u) : Drains c s u :=
  ⟨k.rest.trans h.rest, fun d e => (k.other d e).trans (h.other d e), k.ctx.trans h.ctx, Nat.le_trans h.cycle k.cycle,
   fun w e => h.wq w (k.wq w e), fun n => (k.core n).trans (h.core n), fun n => (k.cluster n).trans (h.cluster n),
   fun n => (k.part n).trans (h.part n), fun n => (k.col n).trans (h.col n)⟩
theorem ofStill (h : Still s t) (c : Nat) : Drains c s t :=
  ⟨congrArg (fun s => { s with ctxs := [], rows := [] }) h.rest, fun d _ => h.ctx d, congrArg unclocked (h.ctx c),
   Nat.le_of_eq (congrArg Ctx.cycle (h.ctx c)).symm, fun _ e => (congrArg Ctx.wq (h.ctx c)) ▸ e, fun n => congrArg (fun x => { x with sp := [] }) (h.core n), h.cluster, h.part, h.col⟩
theorem fold {α : Type} {f : State → α → State} (h : ∀ t a, Drains c t (f t a)) (l : List α) (s : State) :
    Drains c s (l.foldl f s) := by
  induction l generalizing s with
  | nil => exact refl c s
  | cons a l ih => exact (h s a).trans (ih _)
theorem cur (h : Drains c s t) : t.cur = s.cur := (congrArg State.cur h.rest : (unticked t).cur = (unticked s).cur)
theorem pkg (h : Drains c s t) : t.pkg = s.pkg := (congrArg State.pkg h.rest : (unticked t).pkg = (unticked s).pkg)
theorem mark (h : Drains c s t) : t.mark = s.mark := (congrArg State.mark h.rest : (unticked t).mark = (unticked s).mark)
theorem launches (h : Drains c s t) : t.launches = s.launches :=
  (congrArg State.launches h.rest : (unticked t).launches = (unticked s).launches)

end Drains

/-- A change of the context alone that `unclocked` does not see. -/
theorem drains_ctx (s : State) (c : Nat) (f : Ctx → Ctx) (h : unclocked (f (s.ctx c)) = unclocked (s.ctx c))
    (hc : (s.ctx c).cycle ≤ (f (s.ctx c)).cycle) (hw : ∀ w ∈ (f (s.ctx c)).wq, w ∈ (s.ctx c).wq) : Drains c s (s.modCtx c f) := by
  refine ⟨rfl, fun d e => setCtx_ctx_ne _ _ e, ?_, ?_, ?_, fun _ => rfl, fun _ => rfl, fun _ => rfl, fun _ => rfl⟩ <;>
    rw [State.modCtx, setCtx_ctx_same]
  · exact h
  · exact hc
  · exact hw
theorem drains_effect (s : State) (c : Nat) (e : Effect) : Drains c s (s.applyEffect c e) := by
  cases e with
  | g r v => exact drains_ctx s c (fun x => { x with g := x.g.set r v }) rfl (Nat.le_refl _) fun _ h => h
  | mask k v => exact drains_ctx s c (fun x => { x with k := x.k.set k v }) rfl (Nat.le_refl _) fun _ h => h
  | rows ws =>
    exact Drains.fold (f := State.writeRow) (fun t w => 
      ⟨rfl, fun _ _ => rfl, rfl, Nat.le_refl _, fun _ h => h, fun _ => rfl, fun _ => rfl, fun _ => rfl, fun _ => rfl⟩) ws s
  | nothing => exact .refl c s
theorem drains_applyWhere (s : State) (c : Nat) (sel : PendWrite → Bool) : Drains c s (s.applyWhere c sel) := by
  unfold State.applyWhere
  refine Drains.trans (drains_ctx s c (fun x => { x with wq := (s.ctx c).wq.filter fun w => !sel w }) rfl (Nat.le_refl _)
    fun _ h => (List.mem_filter.1 h).1) ?_
  exact Drains.fold (f := fun (t : State) (w : PendWrite) => t.applyEffect c w.eff) (fun t w => drains_effect t c w.eff) _ _
theorem drains_applySps (s : State) (c : Nat) : Drains c s (s.applySps c) := by
  unfold State.applySps
  dsimp only
  refine Drains.trans ?_ (drains_ctx _ c (fun x => { x with sps := _ }) rfl (Nat.le_refl _) fun _ h => h)
  refine ⟨rfl, fun _ _ => rfl, rfl, Nat.le_refl _, fun _ h => h, fun n => ?_, fun _ => rfl, fun _ => rfl, fun _ => rfl⟩
  by_cases e : n = coreOf c
  · subst e
    rw [State.modCore, setCore_core_same]
    rfl
  · rw [State.modCore, setCore_core_ne _ _ e]
theorem drains_tick (s : State) (c n : Nat) : Drains c s (s.tickCtx c n) := by
  refine Drains.trans (drains_ctx s c (fun x => { x with cycle := x.cycle + n }) rfl (Nat.le_add_right _ _) fun _ h => h) ?_
  exact (drains_applyWhere _ c _).trans (drains_applySps _ c)
/-- What a release does: nothing but performing the stores of its context, in the cycles that takes. -/
theorem release_drains (s : State) (c : Nat) (sc : Scope) : Drains c s (s.release c sc) := by
  refine Drains.trans (t := (s.drainSq c).drainSps c) ?_ (.ofStill (still_mergeCore _ _ _ _) c)
  refine Drains.trans ?_ (drains_tick _ c _)
  refine Drains.trans (drains_ctx s c (fun x => { x with sq := [] }) rfl (Nat.le_refl _) fun _ h => h) ?_
  exact Drains.fold (f := fun (t : State) (e : SqEntry) => t.performSq c e) (fun t e => .ofStill (still_performSq t c e) c) _ _

@[simp] theorem release_cur (s : State) (c : Nat) (sc : Scope) : (s.release c sc).cur = s.cur := (release_drains s c sc).cur
@[simp] theorem release_mark (s : State) (c : Nat) (sc : Scope) : (s.release c sc).mark = s.mark := (release_drains s c sc).mark
@[simp] theorem release_myPart (s : State) (sc : Scope) : (s.release s.cur sc).myPart = s.myPart := by
  unfold State.myPart State.me
  rw [release_cur]
  exact (congrArg Ctx.partNo (release_drains s s.cur sc).ctx :
    (unclocked ((s.release s.cur sc).ctx s.cur)).partNo = (unclocked (s.ctx s.cur)).partNo)

/-- A register that is clear is free, also after what is in flight has gone on. -/
theorem Drains.free {s t : State} {d : Reg} {lat : Nat} (h : Drains s.cur s t) (k : Safety.Clear s d lat) : Safety.Free t d (some lat) := by
  rcases k with k | k
  · exact .inl k
  · have me : t.me = t.ctx s.cur := by unfold State.me; rw [h.cur]
    have old : ∀ w ∈ t.me.wq, ∀ v, w.eff = .g d v → ∃ n, w.due = some n ∧ n ≤ s.me.cycle + lat :=
      fun w hw v e => (k w (h.wq w (me ▸ hw)) v e).2
    have hc : s.me.cycle ≤ t.me.cycle := by rw [me]; exact h.cycle
    refine .inr ⟨?_, ?_⟩
    · refine Bool.eq_false_iff.2 fun e => ?_
      obtain ⟨w, hw, e⟩ := List.any_eq_true.1 e
      simp only [Bool.and_eq_true] at e
      cases he : w.eff with
      | g q v =>
        have hq : q = d := by simpa [he] using e.2
        subst hq
        obtain ⟨n, hn, -⟩ := old w hw v he
        simp [hn] at e
      | mask => simp [he] at e
      | rows => simp [he] at e
      | nothing => simp [he] at e
    · have key : ∀ (l : List PendWrite) (m : Option Nat), (∀ w ∈ l, w ∈ t.me.wq) → m.getD 0 ≤ t.me.cycle + lat →
          (l.foldl (fun m w => match w.eff, w.due with
            | .g q _, some n => if q == d && decide (w.issued < t.me.cycle) then some (max n (m.getD 0)) else m
            | _, _ => m) m).getD 0 ≤ t.me.cycle + lat := by
        intro l
        induction l with
        | nil => exact fun m _ h => h
        | cons w l ih =>
          intro m hl hm
          refine ih _ (fun x hx => hl x (List.mem_cons_of_mem _ hx)) ?_
          dsimp only
          cases he : w.eff with
          | g q v =>
            cases hd : w.due with
            | none => exact hm
            | some n =>
              dsimp only
              split
              · rename_i hq
                simp only [Bool.and_eq_true, beq_iff_eq] at hq
                obtain ⟨n', hn, hle⟩ := old w (hl w List.mem_cons_self) v (by rw [he, hq.1])
                have : n = n' := by simpa [hd] using hn
                simp only [Option.getD_some]
                omega
              · exact hm
          | mask => exact hm
          | rows => exact hm
          | nothing => exact hm
      intro k hk
      cases hk
      exact key _ none (fun _ h => h) (Nat.zero_le _)

end Sys2Proof.Laws
end

