-- ==== Sys2Proof/Laws/Words.lean ====
section
/-! SUPPORT. What the shared parts of engine words do: streams read back as written, words go on, fault or wait, and launch words
enter their queue. -/
namespace Sys2Proof.Laws
open Sys2Proof.Machine Sys2Proof.Safety

/-- A numbered element reads back as written. -/
theorem vset_getD {α : Type} {n : Nat} (v : Vector α n) {i : Nat} (x d : α) (h : i < n) : (vset v i x).toList.getD i d = x := by
  rw [List.getD_eq_getElem?_getD, List.getElem?_eq_getElem (by simpa using h)]
  simp [vset]
/-- Writing an element twice. -/
theorem vset_vset {α : Type} {n : Nat} (v : Vector α n) (i : Nat) (x y : α) : vset (vset v i x) i y = vset v i y := by
  apply Vector.ext
  intro j hj
  simp only [vset, Vector.getElem_setIfInBounds]
  split <;> rfl

/-- A changed stream reads back as changed. -/
theorem stream_modStream (s : State) (c : Nat) {k : Nat} (f : Stream → Stream) (h : k < 6) :
    ((s.modStream c k f).ctx c).stream k = f ((s.ctx c).stream k) := by
  simp only [State.modStream, State.modCtx, State.setCtx, State.ctx, assocGet_assocSet_same]
  exact vset_getD _ _ _ h
/-- Two changes of a stream are one. -/
theorem modStream_modStream (s : State) (c : Nat) {k : Nat} (f g : Stream → Stream) (h : k < 6) :
    (s.modStream c k f).modStream c k g = s.modStream c k (fun t => g (f t)) := by
  have e := stream_modStream s c f h
  unfold State.modStream at *
  simp only [State.modCtx, State.setCtx, State.ctx, assocGet_assocSet_same, assocSet_assocSet_same] at *
  simp only [e, vset_vset]
/-- A stream that is changed to itself changes nothing that can be read. -/
theorem myStream_modMyStream (s : State) (f : Stream → Stream) (h : s.curK < 6) : (s.modMyStream f).myStream = f s.myStream :=
  stream_modStream s s.cur f h
theorem modMyStream_modMyStream (s : State) (f g : Stream → Stream) (h : s.curK < 6) :
    (s.modMyStream f).modMyStream g = s.modMyStream (fun t => g (f t)) :=
  modStream_modStream s s.cur f g h

@[simp] theorem stack_run (s : State) : stack s = .ok s.myStream.stack s := rfl
@[simp] theorem wordDone_run (s : State) :
    wordDone s = .ok () (s.modMyStream fun t => { t with pos := t.pos + 1, fetch := t.fetch.drop 1 }) := rfl
@[simp] theorem setStackTo_run (l : List Word) (s : State) :
    setStackTo l s = .ok () (s.modMyStream fun t => { t with stack := l }) := rfl

/-- The end of a stack word. -/
theorem stackEnd_run (l : List Word) (s : State) (h : s.curK < 6) :
    (do setStackTo l; wordDone : M Unit) { s with mark := .ok } = .ok () (nextWord s l) := by
  rw [bind_run]
  simp only [setStackTo_run, wordDone_run]
  exact congrArg (EStateM.Result.ok ()) (modMyStream_modMyStream { s with mark := .ok } _ _ h)

/-- What an engine fault of a word leaves. -/
theorem runWord_fault {m : M Unit} {s t : State} {sub : Byte} (h : m { s with mark := .ok } = .error (.engine sub) t) :
    runWord m s = .next (wordFaulted s sub) := by
  simp [runWord, EStateM.run, h, wordFaulted]
/-- What a wait of a word leaves. -/
theorem runWord_stall {m : M Unit} {s t : State} (h : m { s with mark := .ok } = .error .stall t) :
    runWord m s = .next { s with mark := .stall } := by
  simp [runWord, EStateM.run, h]

/-- A launch word of the stream's class whose operands pass its checks enters its queue, or waits (R153, R325, R326). -/
theorem launchWord_enters {s : State} {op : Nat} {i : Instr} {check : List Word → M Unit} {ops rest : List Word}
    (hk : s.curK < 6) (hc : classOk s.curK op = true) (hs : s.myStream.stack = ops.reverse ++ rest)
    (ho : check ops { s with mark := .ok } = .ok () { s with mark := .ok }) :
    (s.myStream.queue.length < 4 → runWord (launchWord op ops.length i check) s = .next (launched s i ops rest)) ∧
    (4 ≤ s.myStream.queue.length → runWord (launchWord op ops.length i check) s = .next { s with mark := .stall }) := by
  have hm : ({ s with mark := .ok } : State).myStream = s.myStream := rfl
  have hrun : launchWord op ops.length i check { s with mark := .ok } =
      (do await (decide (s.myStream.queue.length < 4))
          upd fun s => s.modMyStream fun t =>
            { t with stack := t.stack.drop ops.length, queue := t.queue ++ [{ word := i, off := t.pos, ops := ops }] }
          wordDone : M Unit) { s with mark := .ok } := by
    unfold launchWord
    simp only [bind_run, get_run, needE_run, hc, if_true, stack_run, hm, hs]
    rw [decide_eq_true (by simp)]
    simp [ho]
  constructor <;> intro hq
  · apply runWord_ok
    rw [hrun]
    simp only [bind_run, await_true (decide_eq_true hq), upd_run, wordDone_run]
    refine congrArg (EStateM.Result.ok ()) ((modMyStream_modMyStream { s with mark := .ok } _ _ hk).trans ?_)
    simp only [launched, State.modMyStream, State.modStream]
    unfold State.modCtx
    have hst : (({ s with mark := .ok } : State).ctx s.cur).stream s.curK = s.myStream := rfl
    simp [hst, hs]
  · apply runWord_stall
    · rw [hrun, bind_run, await_false (by simpa using hq)]

/-- A launch word of another class, or without its operands (R236). -/
theorem launchWord_class {s : State} {op n : Nat} {i : Instr} {check : List Word → M Unit} (hc : classOk s.curK op = false) :
    runWord (launchWord op n i check) s = .next (wordFaulted s 0x04) := by
  apply runWord_fault (t := { s with mark := .ok })
  unfold launchWord
  simp only [bind_run, get_run, needE_run, hc, Bool.false_eq_true, if_false]
theorem launchWord_underflow {s : State} {op n : Nat} {i : Instr} {check : List Word → M Unit} (hc : classOk s.curK op = true)
    (hn : s.myStream.stack.length < n) : runWord (launchWord op n i check) s = .next (wordFaulted s 0x03) := by
  apply runWord_fault (t := { s with mark := .ok })
  have hm : ({ s with mark := .ok } : State).myStream = s.myStream := rfl
  unfold launchWord
  simp only [bind_run, get_run, needE_run, hc, if_true, stack_run, hm]
  rw [decide_eq_false (by omega)]
  rfl

end Sys2Proof.Laws
end

