-- ==== Sys2Proof/Tests/Slice0.lean ====
section
/-! SUPPORT. Tests on fixed values, whose expected results come from the manual's tables and examples, and a witness for the
hypotheses of each statement of Sys2Proof/Certificates/Slice0/Obligations.lean: `witness_X` for the statement, or the part of one,
that is named X there. Theorems are elaborated one after another, so that few threads are needed. -/
namespace Sys2Proof.Tests
open Sys2Proof.Machine Sys2Proof.Safety
set_option Elab.async false

/-! States for the tests. -/

/-- A unit of partition 0 with its record at 0x10000 and its image at 0x20000. -/
def unit0 : Running := { recVa := 0x10000, part := 0, image := 0x20000, pri := 0, run := 0, iter := 0, level := false }
/-- Bytes of the underdeck and of partition 0's translation descriptor, which map virtual addresses 0 to 2^30 − 1 to the underdeck of
stack 0 with every permission (Tables 4-4 and 4-5). -/
def mapped : Memory :=
  Memory.putNat (Memory.putNat (Memory.putNat (Memory.putNat [] 0x8000000000 8 0x8000001001) 0x8000001000 8 0x8000002001)
    0x8000002000 8 0x800000002F) (tdAddr 0) 8 0x8000000001
/-- Memory with a number of `n` bytes at a virtual address. -/
def poke (m : Memory) (va n v : Nat) : Memory := Memory.putNat m (0x8000000000 + va) n v
/-- Context 0 runs `unit0`, with every register valid. -/
def ctx0 : Ctx := { running := some unit0, valid := BitVec.allOnes 32 }
/-- A state with one context and the address map of `mapped`. -/
def on (x : Ctx) : State := { State.reset with mem := mapped, ctxs := [(0, x)] }
/-- The state in which context 0 runs. -/
def base : State := on ctx0
/-- Registers given by number. -/
def regs (l : List (Nat × Word)) : Vector Word 32 := Vector.ofFn fun i => assocGet 0 l i.val

/-- A vector syllable's checks pass where they are seen to. -/
theorem passes_of {s : State} {d : Option Opd} {m : Bool} {srcs : List Opd} {k : Bool} {lat : Option Nat} {sh : Option Word}
    {v : Bool} (h : (match vcheck d m srcs k lat sh v { s with mark := .ok } with
      | .ok _ t => decide (t = { s with mark := .ok })
      | .error _ _ => false) = true) : Passes s d m srcs k lat sh v := by
  unfold Passes
  revert h
  cases vcheck d m srcs k lat sh v { s with mark := .ok } with
  | ok a t => intro h; simp at h; subst h; rfl
  | error e t => intro h; cases h

/-- The state in which g1 and g2 hold two values. -/
def two (x y : Word) : State := on { ctx0 with g := regs [(1, x), (2, y)] }
/-- The value in flight to g3 after one instruction. -/
def result (i : Instr) (s : State) : Option Word :=
  match exec i s with
  | .next t => (t.me.wq.getLast?).bind fun w => match w.eff with | .g r v => if r = 3 then some v else none | _ => none
  | _ => none

/-- Every register is valid, and an older write to g31 falls due one cycle ahead. -/
def busy31 : State := on { ctx0 with cycle := 5, wq := [{ eff := .g 31 0, issued := 4, due := some 6 }] }

/-- Fields of the image at 0x20000. -/
def imgPut (m : Memory) (l : List (Nat × Nat × Nat)) : Memory := l.foldl (fun m e => poke m (0x20000 + e.1) e.2.1 e.2.2) m
/-- An image (Tables 9-1, 9-2): a control section and one yield entry with no sequences. -/
def image : Memory :=
  imgPut mapped [(16, 4, 0x100), (20, 2, 1), (36, 4, 0x400), (40, 4, 1), (0x100, 2, 1), (0x108, 4, 0x1000), (0x10C, 4, 0x100),
    (0x400, 8, 0xFFFFFFFFFFFFFFFF)]
/-- With a matrix stream of 32 words, fork set 0 that starts it, and sync flag 1 with three tokens from the copy stream. -/
def forkImage : Memory :=
  imgPut image [(20, 2, 2), (22, 2, 1), (24, 4, 0x200), (28, 4, 0x300), (32, 4, 1), (0x120, 2, 2), (0x128, 4, 0x1100), (0x12C, 4, 0x40),
    (0x200, 4, 0x00010000), (0x208, 8, 0xFFFFFFFFFFFFFFFF), (0x210, 8, 0xFFFFFFFFFFFFFFFF), (0x218, 4, 0xFFFFFFFF),
    (0x300, 8, 0x0000030001000001)]
/-- With one run of two iterations. -/
def runImage : Memory := imgPut image [(44, 4, 0x500), (48, 4, 1), (0x500, 8, 0x0000002000000010), (0x50C, 4, 8), (0x510, 1, 2)]
/-- Launch 1 of partition 0, whose pool of three slots begins with the unit's own record. -/
def launch1 : Launch := { part := 0, fields := { rpool := 0x10000, rpooln := 4, cnt := 7 }, bound := true }
/-- The unit runs with its image, its record in state 2 and its launch. -/
def unitAt (x : Ctx) : State :=
  { on { x with launch := 1 } with
    mem := poke image (0x10000 + 23) 1 2, launches := [(1, launch1)],
    parts := [(0, { isOpen := true, counters := [(7, { status := 1, live := 1 })] })] }
/-- A stream that executes a word at position 40. -/
def stream40 (stack : List Word) (queue started : List Cmd) : Stream :=
  { forked := true, pos := 40, len := 64, stack := stack, queue := queue, started := started }
/-- A TLB entry that maps the first 2 MiB to the underdeck with every permission. -/
def page0 : TlbEntry := { part := 0, va := 0, size := 2 ^ 21, pa := 2 ^ 39, uncached := false, key := 0, u := true, w := true, x := true }
/-- A load in flight owes g1 its value, and a store of one byte waits. -/
def inFlight : State :=
  on { ctx0 with cycle := 9, stall := 3, wq := [{ eff := .g 1 7, issued := 4, due := none, load := true }],
                 sq := [{ kind := .store, pa := 2 ^ 39 + 8, size := 1, val := 5, uncached := true, key := 0 }] }
def asked3 : LeaseReq := { rect := 3, ctx := some 0, recVa := 0x10000, pri := 0, since := 0 }
def parked3 : Parked := { rect := 3, recVa := 0x10040, left := 2, limit := 16 }
/-- Rectangle 3 of partition 0 is column 0, requested by context 0's stream; a lease on it is parked, or not. -/
def leasing (parked : Bool) : State :=
  { on { ctx0 with lease := .requested 3 0 } with
    mem := Memory.putNat (Memory.putNat [] (leaseAddr 0 3) 8 (2 ^ 63 + 2 ^ 42 + 2 ^ 32)) (leaseAddr 0 3 + 8) 8 (2 ^ 62),
    parts := [(0, { isOpen := true, cols := 1, reqs := [asked3], parked := if parked then [parked3] else [] })] }
/-- Context 0 holds a lease on rectangle 3, and has a stream. -/
def leased (k : Nat) (t : Stream) : Ctx := { ctx0 with pinned := true, lease := .held 3 2 16, streams := vset ctx0.streams k t }
/-- A command in the queue of context 0's stream `k`, or started there; rectangle 3 is leased. -/
def commanding (k : Nat) (w : Instr) (ops : List Word) (started : Bool) : State :=
  let d : Cmd := { word := w, off := 0, ops := ops }
  { leasing false with
    ctxs := [(0, leased k (if started then stream40 [] [] [d] else stream40 [] [d] []))] }
/-- A started QK with one entry to load, or a REPAIR at a position in a block of four tokens; ring 0 holds a tile. -/
def attending (d : Cmd) : State :=
  { commanding 0 .wswap [] false with
    ctxs := [(0, leased 0 (stream40 [] [] [d]))],
    cores := [(0, { rings := vset (Vector.replicate 8 {}) 0 { ptr := 0x10000 } })] }
def part0 : Contribution := { rank := 0, owner := none, data := [1, 2, 3, 4] }
/-! Decoding. Every constructor of a syllable or word stands in one row, its word written out field by field from Tables 9-5 to
9-14 of the manual: opcode, d, a, b, f and stall count of a control syllable, and so on. -/

/-- Words that decode to instructions, and the instructions that encode to them. -/
def agree {n : Nat} (dec : BitVec n → Option Instr) (enc : Instr → Option (BitVec n)) (l : List (BitVec n × Instr)) : Bool :=
  l.all fun e => dec e.1 == some e.2 && enc e.2 == some e.1 && e.2.wf

/-- Table 9-7, opcodes 0x00 to 0x18. -/
theorem test_decode_control : agree decodeCtl encodeSyllable [
    (0x01#8 ++ 7#5 ++ 32765#15 ++ 0#4, .brEqz 7 0x7FFD), (0x02#8 ++ 7#5 ++ 1#15 ++ 0#4, .brNez 7 1),
    (0x03#8 ++ 31#5 ++ 2#15 ++ 0#4, .brLtz 31 2), (0x04#8 ++ 1#5 ++ 3#15 ++ 0#4, .brGez 1 3),
    (0x05#8 ++ 0xFFFFF#20 ++ 0#4, .jmp 0xFFFFF), (0x06#8 ++ 5#20 ++ 0#4, .call 5),
    (0x07#8 ++ 0#5 ++ 9#5 ++ 0#5 ++ 0#5 ++ 0#4, .jmpi 9), (0x08#8 ++ 0#5 ++ 10#5 ++ 0#5 ++ 0#5 ++ 0#4, .calli 10),
    (0x10#8 ++ 1#5 ++ 2#5 ++ 3#5 ++ 0#5 ++ 0#4, .spawn 1 2 3), (0x11#8 ++ 0#5 ++ 4#5 ++ 1023#10 ++ 0#4, .suspend 4 0x3FF),
    (0x12#8 ++ 0#20 ++ 0#4, .halt), (0x13#8 ++ 0#5 ++ 2#15 ++ 0#4, .fork 2), (0x14#8 ++ 0#20 ++ 0#4, .rdv),
    (0x15#8 ++ 5#5 ++ 6#5 ++ 0#5 ++ 0#5 ++ 0#4, .launch 5 6), (0x16#8 ++ 0#5 ++ 7#5 ++ 0#10 ++ 0#4, .cancelUnit 7),
    (0x16#8 ++ 0#5 ++ 7#5 ++ 1#10 ++ 0#4, .cancelLaunch 7), (0x16#8 ++ 0#5 ++ 7#5 ++ 2#10 ++ 0#4, .cancelGraph 7),
    (0x16#8 ++ 0#5 ++ 7#5 ++ 3#10 ++ 0#4, .cancelPhase 7), (0x16#8 ++ 0#5 ++ 7#5 ++ 4#10 ++ 0#4, .cancelJob 7),
    (0x17#8 ++ 1#5 ++ 2#5 ++ 3#5 ++ 0#5 ++ 0#4, .cntAdd 1 2 3), (0x18#8 ++ 0#5 ++ 2#5 ++ 3#5 ++ 0#5 ++ 0#4, .cntWait 2 3),
    (0x00#8 ++ 0#20 ++ 0#4, .nop)] = true := by
  decide +kernel

/-- Table 9-7, opcodes 0x20 to 0x49. -/
theorem test_decode_memory : agree decodeCtl encodeSyllable [
    (0x20#8 ++ 5#5 ++ 4#5 ++ 1#10 ++ 0#4, .ldB 5 4 1), (0x21#8 ++ 5#5 ++ 4#5 ++ 2#10 ++ 0#4, .ldH 5 4 2),
    (0x22#8 ++ 5#5 ++ 4#5 ++ 3#10 ++ 0#4, .ldW 5 4 3), (0x23#8 ++ 5#5 ++ 4#5 ++ 4#10 ++ 0#4, .ldD 5 4 4),
    (0x24#8 ++ 5#5 ++ 4#5 ++ 5#10 ++ 0#4, .ldBz 5 4 5), (0x25#8 ++ 5#5 ++ 4#5 ++ 6#10 ++ 0#4, .ldHz 5 4 6),
    (0x26#8 ++ 5#5 ++ 4#5 ++ 7#10 ++ 0#4, .ldWz 5 4 7), (0x28#8 ++ 5#5 ++ 4#5 ++ 1#10 ++ 0#4, .stB 5 4 1),
    (0x29#8 ++ 5#5 ++ 4#5 ++ 2#10 ++ 0#4, .stH 5 4 2), (0x2A#8 ++ 5#5 ++ 4#5 ++ 3#10 ++ 0#4, .stW 5 4 3),
    (0x2B#8 ++ 5#5 ++ 4#5 ++ 4#10 ++ 0#4, .stD 5 4 4), (0x2C#8 ++ 5#5 ++ 4#5 ++ 9#10 ++ 0#4, .ldcW 5 4 9),
    (0x2D#8 ++ 5#5 ++ 4#5 ++ 1023#10 ++ 0#4, .ldcD 5 4 0x3FF), (0x30#8 ++ 5#5 ++ 4#5 ++ 0#5 ++ 0#5 ++ 0#4, .ldAcqW 5 4 .ctx),
    (0x31#8 ++ 5#5 ++ 4#5 ++ 0#5 ++ 1#5 ++ 0#4, .ldAcqD 5 4 .core),
    (0x32#8 ++ 5#5 ++ 4#5 ++ 0#5 ++ 2#5 ++ 0#4, .stRelW 5 4 .clu),
    (0x33#8 ++ 5#5 ++ 4#5 ++ 0#5 ++ 3#5 ++ 0#4, .stRelD 5 4 .stk), (0x34#8 ++ 0#5 ++ 0#5 ++ 0#5 ++ 4#5 ++ 0#4, .qsync .pkg),
    (0x35#8 ++ 0#5 ++ 0#5 ++ 0#5 ++ 5#5 ++ 0#4, .fence .dom), (0x36#8 ++ 0#20 ++ 0#4, .ifence),
    (0x37#8 ++ 0#5 ++ 4#5 ++ 0#5 ++ 6#5 ++ 0#4, .discard 4 .sys), (0x38#8 ++ 0#5 ++ 4#5 ++ 0#5 ++ 2#5 ++ 0#4, .flush 4 .clu),
    (0x39#8 ++ 0#5 ++ 4#5 ++ 8#10 ++ 0#4, .pref 4 8), (0x40#8 ++ 1#5 ++ 2#5 ++ 3#5 ++ 0#5 ++ 0#4, .amoAdd .w .ctx 1 2 3),
    (0x41#8 ++ 1#5 ++ 2#5 ++ 3#5 ++ 17#5 ++ 0#4, .amoMin .d .core 1 2 3),
    (0x42#8 ++ 1#5 ++ 2#5 ++ 3#5 ++ 2#5 ++ 0#4, .amoMax .w .clu 1 2 3),
    (0x43#8 ++ 1#5 ++ 2#5 ++ 3#5 ++ 19#5 ++ 0#4, .amoMinu .d .stk 1 2 3),
    (0x44#8 ++ 1#5 ++ 2#5 ++ 3#5 ++ 4#5 ++ 0#4, .amoMaxu .w .pkg 1 2 3),
    (0x45#8 ++ 1#5 ++ 2#5 ++ 3#5 ++ 21#5 ++ 0#4, .amoAnd .d .dom 1 2 3),
    (0x46#8 ++ 1#5 ++ 2#5 ++ 3#5 ++ 6#5 ++ 0#4, .amoOr .w .sys 1 2 3),
    (0x47#8 ++ 1#5 ++ 2#5 ++ 3#5 ++ 16#5 ++ 0#4, .amoXor .d .ctx 1 2 3),
    (0x48#8 ++ 1#5 ++ 2#5 ++ 3#5 ++ 1#5 ++ 0#4, .amoSwap .w .core 1 2 3),
    (0x49#8 ++ 1#5 ++ 2#5 ++ 3#5 ++ 18#5 ++ 0#4, .cas .d .clu 1 2 3)] = true := by
  decide +kernel

/-- Table 9-7, opcodes 0x50 to 0x86. -/
theorem test_decode_system : agree decodeCtl encodeSyllable [
    (0x50#8 ++ 1#5 ++ 2#5 ++ 0#5 ++ 0#5 ++ 0#4, .barArr 1 2), (0x51#8 ++ 0#5 ++ 2#5 ++ 3#5 ++ 0#5 ++ 0#4, .barWait 2 3),
    (0x52#8 ++ 0#5 ++ 2#5 ++ 0#5 ++ 0#5 ++ 0#4, .barSync 2), (0x53#8 ++ 0#5 ++ 2#5 ++ 0#5 ++ 0#5 ++ 0#4, .flagSet 2),
    (0x54#8 ++ 0#5 ++ 2#5 ++ 0#5 ++ 0#5 ++ 0#4, .flagClr 2), (0x55#8 ++ 0#5 ++ 2#5 ++ 0#5 ++ 0#5 ++ 0#4, .flagWait 2),
    (0x56#8 ++ 0#5 ++ 2#5 ++ 3#5 ++ 0#5 ++ 0#4, .send 2 3), (0x57#8 ++ 1#5 ++ 2#5 ++ 0#5 ++ 0#5 ++ 0#4, .recv 1 2),
    (0x58#8 ++ 1#5 ++ 2#5 ++ 0#5 ++ 0#5 ++ 0#4, .recvPoll 1 2), (0x60#8 ++ 1#5 ++ 2#5 ++ 3#10 ++ 0#4, .runBegin 1 2 3),
    (0x61#8 ++ 0#5 ++ 2#5 ++ 0#5 ++ 0#5 ++ 0#4, .acceptEq 2), (0x62#8 ++ 0#5 ++ 2#5 ++ 3#5 ++ 0#5 ++ 0#4, .acceptTol 2 3),
    (0x63#8 ++ 1#5 ++ 2#5 ++ 0#5 ++ 0#5 ++ 0#4, .runCommit 1 2), (0x64#8 ++ 0#5 ++ 2#5 ++ 0#5 ++ 0#5 ++ 0#4, .runAbort 2),
    (0x70#8 ++ 0#5 ++ 2#5 ++ 3#5 ++ 0#5 ++ 0#4, .vsend 2 3), (0x71#8 ++ 0#20 ++ 0#4, .vfence),
    (0x72#8 ++ 1#5 ++ 0#5 ++ 0#5 ++ 0#5 ++ 0#4, .vstat 1), (0x73#8 ++ 1#5 ++ 2#5 ++ 0b0001000101#10 ++ 0#4, .vput .d 1 2 5),
    (0x74#8 ++ 1#5 ++ 2#5 ++ 63#10 ++ 0#4, .vget .w 1 2 63), (0x80#8 ++ 0#5 ++ 7#15 ++ 0#4, .trap 7),
    (0x81#8 ++ 0#20 ++ 0#4, .eret), (0x82#8 ++ 3#5 ++ 264#15 ++ 0#4, .mfs 3 0x108),
    (0x83#8 ++ 3#5 ++ 256#15 ++ 0#4, .mts 0x100 3), (0x84#8 ++ 0#5 ++ 9#15 ++ 0#4, .brk 9),
    (0x85#8 ++ 0#5 ++ 2#5 ++ 0#5 ++ 0#5 ++ 0#4, .wait 2), (0x86#8 ++ 0#5 ++ 2#5 ++ 3#5 ++ 0#5 ++ 0#4, .flowReq 2 3)] = true := by
  decide +kernel

/-- Table 9-8, opcodes 0x01 to 0x1B. -/
theorem test_decode_integer : agree decodeInt encodeSyllable [
    (0x01#8 ++ 1#5 ++ 2#5 ++ 3#5 ++ 0#9, .add 1 2 3), (0x02#8 ++ 1#5 ++ 2#5 ++ 3#5 ++ 0#9, .sub 1 2 3),
    (0x03#8 ++ 1#5 ++ 2#5 ++ 3#5 ++ 0#9, .mul 1 2 3), (0x04#8 ++ 1#5 ++ 2#5 ++ 3#5 ++ 0#9, .mulh 1 2 3),
    (0x05#8 ++ 1#5 ++ 2#5 ++ 3#5 ++ 0#9, .mulhu 1 2 3), (0x06#8 ++ 1#5 ++ 2#5 ++ 3#5 ++ 0#9, .div 1 2 3),
    (0x07#8 ++ 1#5 ++ 2#5 ++ 3#5 ++ 0#9, .divu 1 2 3), (0x08#8 ++ 1#5 ++ 2#5 ++ 3#5 ++ 0#9, .rem 1 2 3),
    (0x09#8 ++ 1#5 ++ 2#5 ++ 3#5 ++ 0#9, .remu 1 2 3), (0x10#8 ++ 1#5 ++ 2#5 ++ 3#5 ++ 0#9, .and 1 2 3),
    (0x11#8 ++ 1#5 ++ 2#5 ++ 3#5 ++ 0#9, .or 1 2 3), (0x12#8 ++ 1#5 ++ 2#5 ++ 3#5 ++ 0#9, .xor 1 2 3),
    (0x13#8 ++ 1#5 ++ 2#5 ++ 3#5 ++ 0#9, .andn 1 2 3), (0x14#8 ++ 1#5 ++ 2#5 ++ 3#5 ++ 0#9, .orn 1 2 3),
    (0x15#8 ++ 1#5 ++ 2#5 ++ 3#5 ++ 0#9, .shl 1 2 3), (0x16#8 ++ 1#5 ++ 2#5 ++ 3#5 ++ 0#9, .shr 1 2 3),
    (0x17#8 ++ 1#5 ++ 2#5 ++ 3#5 ++ 0#9, .sar 1 2 3), (0x18#8 ++ 1#5 ++ 2#5 ++ 3#5 ++ 0#9, .rotl 1 2 3),
    (0x19#8 ++ 1#5 ++ 2#5 ++ 0#5 ++ 0#9, .clz 1 2), (0x1A#8 ++ 1#5 ++ 2#5 ++ 0#5 ++ 0#9, .ctz 1 2),
    (0x1B#8 ++ 1#5 ++ 2#5 ++ 0#5 ++ 0#9, .popc 1 2)] = true := by
  decide +kernel

/-- Table 9-8, opcodes 0x20 to 0xF0. -/
theorem test_decode_integer_rest : agree decodeInt encodeSyllable [
    (0x20#8 ++ 1#5 ++ 2#5 ++ 3#5 ++ 0#9, .min 1 2 3), (0x21#8 ++ 1#5 ++ 2#5 ++ 3#5 ++ 0#9, .max 1 2 3),
    (0x22#8 ++ 1#5 ++ 2#5 ++ 3#5 ++ 0#9, .minu 1 2 3), (0x23#8 ++ 1#5 ++ 2#5 ++ 3#5 ++ 0#9, .maxu 1 2 3),
    (0x24#8 ++ 1#5 ++ 2#5 ++ 3#5 ++ 4#9, .sel 1 2 3 4), (0x25#8 ++ 1#5 ++ 2#5 ++ 3#5 ++ 0#9, .cmpEq 1 2 3),
    (0x26#8 ++ 1#5 ++ 2#5 ++ 3#5 ++ 0#9, .cmpNe 1 2 3), (0x27#8 ++ 1#5 ++ 2#5 ++ 3#5 ++ 0#9, .cmpLt 1 2 3),
    (0x28#8 ++ 1#5 ++ 2#5 ++ 3#5 ++ 0#9, .cmpLtu 1 2 3), (0x29#8 ++ 1#5 ++ 2#5 ++ 3#5 ++ 0#9, .cmpLe 1 2 3),
    (0x2A#8 ++ 1#5 ++ 2#5 ++ 3#5 ++ 0#9, .cmpLeu 1 2 3), (0x30#8 ++ 1#5 ++ 2#5 ++ 3#5 ++ 0#9, .bext 1 2 3),
    (0x31#8 ++ 1#5 ++ 2#5 ++ 3#5 ++ 0#9, .bins 1 2 3), (0x32#8 ++ 1#5 ++ 2#5 ++ 0#5 ++ 64#9, .sext 1 2 64),
    (0x33#8 ++ 1#5 ++ 2#5 ++ 0#5 ++ 1#9, .zext 1 2 1), (0x34#8 ++ 1#5 ++ 2#5 ++ 3#5 ++ 7#9, .lea 1 2 3 7),
    (0x35#8 ++ 1#5 ++ 2#5 ++ 0#5 ++ 0#9, .mov 1 2), (0x40#8 ++ 1#5 ++ 2#5 ++ 16383#14, .addi 1 2 0x3FFF),
    (0x41#8 ++ 1#5 ++ 2#5 ++ 16383#14, .andi 1 2 0x3FFF), (0x42#8 ++ 1#5 ++ 2#5 ++ 16383#14, .ori 1 2 0x3FFF),
    (0x43#8 ++ 1#5 ++ 2#5 ++ 16383#14, .xori 1 2 0x3FFF), (0x44#8 ++ 1#5 ++ 2#5 ++ 63#14, .shli 1 2 63),
    (0x45#8 ++ 1#5 ++ 2#5 ++ 63#14, .shri 1 2 63), (0x46#8 ++ 1#5 ++ 2#5 ++ 63#14, .sari 1 2 63),
    (0x47#8 ++ 1#5 ++ 2#5 ++ 5#14, .cmpiEq 1 2 5), (0x48#8 ++ 1#5 ++ 2#5 ++ 5#14, .cmpiLt 1 2 5),
    (0x49#8 ++ 1#5 ++ 2#5 ++ 5#14, .cmpiLtu 1 2 5), (0xF0#8 ++ 0xABCDEF#24, .limm 0xABCDEF)] = true := by
  decide +kernel

/-- Table 9-9. -/
theorem test_decode_vector : agree decodeVar encodeSyllable [
    (0x10#8 ++ 0x02#8 ++ 0xC3#8 ++ 0xD1#8, .vadd .f32 (.row 2) (.qin 3) .ahi),
    (0x21#8 ++ 0x02#8 ++ 0xC3#8 ++ 0xD1#8, .vsub .bf16 (.row 2) (.qin 3) .ahi),
    (0x32#8 ++ 0x02#8 ++ 0xC3#8 ++ 0xD1#8, .vmul .f8a (.row 2) (.qin 3) .ahi),
    (0x43#8 ++ 0x02#8 ++ 0xC3#8 ++ 0xD1#8, .vfma .f8b (.row 2) (.qin 3) .ahi),
    (0x55#8 ++ 0x02#8 ++ 0xC3#8 ++ 0xD1#8, .vfms .i8 (.row 2) (.qin 3) .ahi),
    (0x66#8 ++ 0x02#8 ++ 0xC3#8 ++ 0xD1#8, .vmax .i8u (.row 2) (.qin 3) .ahi),
    (0x77#8 ++ 0x02#8 ++ 0xC3#8 ++ 0xD1#8, .vmin .i32 (.row 2) (.qin 3) .ahi),
    (0x88#8 ++ 0x03#8 ++ 0x40#8 ++ 0xBF#8, .vcmpEq .i32u 3 (.col 0) (.dg 63)),
    (0x97#8 ++ 0x01#8 ++ 0xC0#8 ++ 0xE0#8, .vcmpLt .i32 1 (.qin 0) .vzero),
    (0xA0#8 ++ 0x00#8 ++ 0xE1#8 ++ 0xD0#8, .vcmpLe .f32 0 .vones .alo),
    (0xB1#8 ++ 0xC8#8 ++ 0x00#8 ++ 0x01#8, .vadds .i8u (.qout 0) (.row 0) (.row 1)),
    (0xB4#8 ++ 0x00#8 ++ 0x00#8 ++ 0x01#8, .vand .i8 (.row 0) (.row 0) (.row 1)),
    (0xBA#8 ++ 0x00#8 ++ 0x00#8 ++ 0x01#8, .vor .i32 (.row 0) (.row 0) (.row 1)),
    (0xBF#8 ++ 0xFF#8 ++ 0x00#8 ++ 0x01#8, .vxor .i32u .vdisc (.row 0) (.row 1)),
    (0xC0#8 ++ 0x00#8 ++ 0x00#8 ++ 0x01#8, .vshl .i8 (.row 0) (.row 0) (.row 1)),
    (0xC7#8 ++ 0x00#8 ++ 0x00#8 ++ 0x01#8, .vshr .i32u (.row 0) (.row 0) (.row 1)),
    (0xC8#8 ++ 0x00#8 ++ 0x00#8 ++ 0x01#8, .vrotF32 (.row 0) (.row 0) (.row 1)),
    (0xC9#8 ++ 0x00#8 ++ 0x00#8 ++ 0x01#8, .vrotBf16 (.row 0) (.row 0) (.row 1)),
    (0xCC#8 ++ 0x00#8 ++ 0x00#8 ++ 0x01#8, .vrcpstep (.row 0) (.row 0) (.row 1)),
    (0xCD#8 ++ 0x00#8 ++ 0x00#8 ++ 0x01#8, .vrsqstep (.row 0) (.row 0) (.row 1)),
    (0xD2#8 ++ 0x04#8 ++ 0x03#8 ++ 0x00#8, .vcvt .f8a (.row 4) (.row 3) .f32),
    (0xE4#8 ++ 0x04#8 ++ 0x03#8 ++ 0x01#8, .vcvtSat .f4b (.row 4) (.row 3) .bf16),
    (0xF0#8 ++ 0x00#8 ++ 0x01#8 ++ 0x04#8, .vmov .f4b (.row 0) (.row 1)),
    (0xF1#8 ++ 0x00#8 ++ 0x01#8 ++ 0x01#8, .vabs .bf16 (.row 0) (.row 1)),
    (0xF2#8 ++ 0x00#8 ++ 0x01#8 ++ 0x02#8, .vneg .f8a (.row 0) (.row 1)),
    (0xF3#8 ++ 0x00#8 ++ 0x01#8 ++ 0x05#8, .vclamp .i8 (.row 0) (.row 1)),
    (0xF4#8 ++ 0x00#8 ++ 0x01#8 ++ 0x00#8, .vscale .f32 (.row 0) (.row 1)),
    (0xF5#8 ++ 0x00#8 ++ 0x01#8 ++ 0x00#8, .vexp2 (.row 0) (.row 1)),
    (0xF6#8 ++ 0x00#8 ++ 0x01#8 ++ 0x00#8, .vlog2 (.row 0) (.row 1)),
    (0xF7#8 ++ 0x00#8 ++ 0x01#8 ++ 0x00#8, .vrcpA (.row 0) (.row 1)),
    (0xF8#8 ++ 0x00#8 ++ 0x01#8 ++ 0x00#8, .vrsqA (.row 0) (.row 1))] = true := by
  decide +kernel

/-- Table 9-10. -/
theorem test_decode_permute : agree decodeVpe encodeSyllable [
    (0x01#8 ++ 0x00#8 ++ 0x00#8 ++ 0x02#8, .vmask 2),
    (0x15#8 ++ 0x00#8 ++ 0x01#8 ++ 0x02#8, .vshuf .i8 (.row 0) (.row 1) (.row 2)),
    (0x20#8 ++ 0x00#8 ++ 0x01#8 ++ 0x02#8, .vsel .f32 (.row 0) (.row 1) (.row 2)),
    (0x33#8 ++ 0x00#8 ++ 0x01#8 ++ 0x00#8, .vredSum .f8b (.row 0) (.row 1)),
    (0x46#8 ++ 0x00#8 ++ 0x01#8 ++ 0x00#8, .vredMax .i8u (.row 0) (.row 1)),
    (0x51#8 ++ 0x00#8 ++ 0x01#8 ++ 0x00#8, .vredMin .bf16 (.row 0) (.row 1)),
    (0x67#8 ++ 0x00#8 ++ 0x01#8 ++ 0x00#8, .vscanSum .i32 (.row 0) (.row 1)),
    (0x70#8 ++ 0x00#8 ++ 0x01#8 ++ 0x00#8, .vtopk (.row 0) (.row 1)),
    (0x88#8 ++ 0x00#8 ++ 0x01#8 ++ 0x00#8, .vargmax .i32u (.row 0) (.row 1)),
    (0x92#8 ++ 0x00#8 ++ 0x01#8 ++ 0x02#8, .vfind .f8a (.row 0) (.row 1) (.row 2)),
    (0xA6#8 ++ 0x00#8 ++ 0x00#8 ++ 0x00#8, .vidx .i8u (.row 0)),
    (0xB0#8 ++ 0x00#8 ++ 0x01#8 ++ 0x00#8, .vbcast .f32 (.row 0) (.row 1)),
    (0xC1#8 ++ 0x00#8 ++ 0x01#8 ++ 0x02#8, .vpack .bf16 (.row 0) (.row 1) (.row 2)),
    (0xD0#8 ++ 0x00#8 ++ 0x01#8 ++ 0x00#8, .vunpack .f32 (.row 0) (.row 1)),
    (0xE0#8 ++ 0x00#8 ++ 0xD0#8 ++ 0x00#8, .vrandLatch .f32 (.row 0)),
    (0xE8#8 ++ 0x00#8 ++ 0xD1#8 ++ 0x00#8, .vrandRequest .i32u (.row 0))] = true := by
  decide +kernel

/-- Tables 9-12 to 9-14. -/
theorem test_decode_words : agree decodeWord encodeWord [
    (0x7FFF, .lit 0x7FFF), (0x8ABC, .ext 0xABC), (0x9000, .engineNop), (0x9100, .dup), (0x9200, .drop), (0x9300, .swap),
    (0x9400, .over), (0x9500, .engineAdd), (0x963F, .sig 63), (0x9701, .waitt 1), (0x98FF, .loop 255), (0x9900, .endW),
    (0xA000, .lease), (0xA100, .unlease), (0xA201, .wload true), (0xA300, .wswap), (0xA401, .mma true), (0xA500, .aclr),
    (0xA600, .xout false), (0xA700, .ackpt), (0xA800, .acload), (0xA900, .kvapp), (0xAA00, .qk), (0xAB00, .sv),
    (0xAC00, .splice), (0xAD00, .repair), (0xAE00, .draw), (0xC000, .get), (0xC100, .put), (0xC200, .getr), (0xC300, .putr),
    (0xC400, .fill), (0xC500, .gather), (0xC600, .scatter), (0xC700, .publish), (0xC800, .xfer), (0xC900, .reduce),
    (0xE000, .aqBase), (0xE100, .aqDim), (0xE202, .aqEmit 2), (0xE303, .aqDrain 3), (0xE400, .aqWait)] = true := by
  decide +kernel

/-! Well-formedness: a term for each check, which the check refuses. -/

/-- Encodings that R229, R231 to R234 and Tables 9-8 to 9-13 refuse. -/
theorem test_wf_refuses : ([.sext 1 2 0, .zext 1 2 65, .vadd .f4b (.row 0) (.row 1) (.row 2), .vadd .f32 (.qin 0) (.row 1) (.row 2),
    .vadd .f32 (.row 0) (.qout 1) (.row 2), .vadd .f32 (.row 0) .vdisc (.row 2), .vadd .f32 .alo (.row 1) (.row 2),
    .vfma .f32 .vdisc (.row 1) (.row 2), .vfma .f32 (.qout 0) (.row 1) (.row 2), .vcmpEq .f4b 0 (.row 1) (.row 2),
    .vcmpLt .f32 0 (.qout 0) (.row 2), .vadds .f32 (.row 0) (.row 1) (.row 2), .vrotF32 .vzero (.row 1) (.row 2),
    .vcvt .f4b (.row 0) (.row 1) .f4b, .vmov .f32 (.row 0) (.qout 0), .vabs .f4b (.row 0) (.row 1), .vscale .i8 (.row 0) (.row 1),
    .vexp2 .vones (.row 1), .vshuf .f4b (.row 0) (.row 1) (.row 2), .vredSum .i8 (.row 0) (.row 1), .vredMax .f4b (.row 0) (.row 1),
    .vscanSum .bf16 (.row 0) (.row 1), .vtopk (.qin 1) (.row 1), .vidx .f32 (.row 0), .vpack .f32 (.row 0) (.row 1) (.row 2),
    .vunpack .f8a (.row 0) (.row 1), .vrandLatch .bf16 (.row 0), .vrandRequest .i8 (.row 0), .loop 0] : List Instr).all
    (fun i => !i.wf) = true := by
  decide +kernel

/-- Numbers that a package does not have (R8, R12, R14, R26, R86, R402). -/
theorem test_wf_refuses_numbers : ([.pickUp 2048, .engineCommandStart 0 6, .pageWalk 64, .leaseGrant 64 0,
    .deviceTableStore 0 3 0, .busTest 4096 [], .phaseCtlWrite 4 0, .valveWrite 256 ⟨0, 0⟩, .uncorrectableError (.dirty 0) 4096 0,
    .coreFence 512, .linkDown 260, .partOpen (.ring 64)] : List Instr).all (fun i => !i.wf) = true := by
  decide +kernel

/-- The greatest numbers that a package has are well formed. -/
theorem test_wf_accepts_numbers : ([.pickUp 2047, .engineCommandStart 2047 5, .pageWalk 63, .leaseGrant 63 0,
    .deviceTableStore 0 8 0, .busTest 4095 [], .phaseCtlWrite 3 0, .valveWrite 255 ⟨0, 0⟩, .uncorrectableError (.dirty 0) 4095 0,
    .coreFence 511, .linkDown 259, .partOpen (.ring 63), .partOpen (.host 0)] : List Instr).all Instr.wf = true := by
  decide +kernel

/-! Integer syllables: one step each, with results from Table 10-2 and R247, R248. -/

/-- R248's example: 12 bits from bit 8. -/
theorem test_bext_example : result (.bext 3 1 2) (two 0xABCD00 0xC08) = some 0xBCD := by decide +kernel
/-- R247: the edge cases of DIV and REM. -/
theorem test_div_edges : result (.div 3 1 2) (two 0x8000000000000000 0xFFFFFFFFFFFFFFFF) = some 0x8000000000000000 ∧
    result (.rem 3 1 2) (two 0x8000000000000000 0xFFFFFFFFFFFFFFFF) = some 0 ∧
    result (.div 3 1 2) (two 7 0) = some 0xFFFFFFFFFFFFFFFF ∧ result (.remu 3 1 2) (two 7 0) = some 7 := by decide +kernel
/-- R247: −7 by 2 is −3 with remainder −1. -/
theorem test_div_truncates : result (.div 3 1 2) (two 0xFFFFFFFFFFFFFFF9 2) = some 0xFFFFFFFFFFFFFFFD ∧
    result (.rem 3 1 2) (two 0xFFFFFFFFFFFFFFF9 2) = some 0xFFFFFFFFFFFFFFFF := by decide +kernel
/-- Table 10-2: the high halves of (−1) × 2, signed and unsigned. -/
theorem test_mulh : result (.mulh 3 1 2) (two 0xFFFFFFFFFFFFFFFF 2) = some 0xFFFFFFFFFFFFFFFF ∧
    result (.mulhu 3 1 2) (two 0xFFFFFFFFFFFFFFFF 2) = some 1 := by decide +kernel
/-- Table 10-2: SAR keeps the sign, and gb[63:6] is ignored. -/
theorem test_sar : result (.sar 3 1 2) (two 0x8000000000000000 0x43) = some 0xF000000000000000 := by decide +kernel
/-- Table 10-2: CLZ and CTZ of 0 give 64. -/
theorem test_clz_zero : result (.clz 3 0) (two 0 0) = some 64 ∧ result (.ctz 3 0) (two 0 0) = some 64 := by decide +kernel
/-- R248: BINS with w above 64 is taken as 64, at position 60. -/
theorem test_bins_wide : result (.bins 3 1 2) (two 0xFFFFFFFFFFFFFFFF 0x7F3C) = some 0xF000000000000000 := by decide +kernel
/-- R71: a write to g0 leaves nothing in flight. -/
theorem test_g0_write : (match exec (.add 0 1 2) (two 1 2) with | .next t => t.me.wq == [] | _ => false) = true := by
  decide +kernel

/-! Witnesses for the integer statements: g31 and g0 among the operands, a destination with an older write in flight, and an
invalid and a pending source. -/

theorem witness_IntegerRegisterForms : Ready busy31 31 ∧ Ready busy31 0 ∧ Free busy31 31 (some 1) ∧ Free busy31 31 (some 3) ∧
    Free busy31 31 (some 20) ∧ (busy31.me.wq.any fun w => w.div) = false ∧ Free busy31 0 (some 0) := by
  unfold Safety.Ready Free; decide +kernel
theorem witness_IntegerUnaryAndImmediate : Ready busy31 1 ∧ Free busy31 2 (some 1) ∧ (1 ≤ (1 : BitVec 7).toNat ∧ (1 : BitVec 7).toNat ≤ 64) ∧
    (1 ≤ (64 : BitVec 7).toNat ∧ (64 : BitVec 7).toNat ≤ 64) := by
  unfold Safety.Ready Free; decide +kernel
/-- g2 is invalid and g3 awaits a load. -/
def poor : State := on { ctx0 with valid := 0xFFFFFFFB, cycle := 2, wq := [{ eff := .g 3 0, issued := 1, due := none }] }
theorem witness_IntegerRegisters : Invalid poor 2 ∧ ¬Invalid poor 3 ∧ Owed poor 3 ∧ Safety.Ready poor 31 ∧ (3 : Reg) ≠ 0 ∧ poor.me.pendingG 3 = true ∧
    (poor.me.wq.any fun w => w.div) = false := by
  unfold Invalid Owed Safety.Ready; decide +kernel
/-- Under CTX.CTL.CHK, a write to g4 falls due seven cycles ahead. -/
def short4 : State := on { ctx0 with ctl := 1, cycle := 2, wq := [{ eff := .g 4 0, issued := 1, due := some 9 }] }
theorem witness_IntegerRegisters_late : Safety.Ready short4 1 ∧ Safety.Ready short4 0 ∧ Short short4 4 ∧ short4.me.pendingG 4 = false ∧
    short4.me.lateG 4 = some 9 ∧ short4.me.cycle + 3 < 9 := by
  unfold Short Safety.Ready; decide +kernel
/-- A division is in progress, and one whose result is further away than another division's would be. -/
theorem witness_IntegerRegisters_division :
    ((on { ctx0 with cycle := 2, wq := [{ eff := .g 5 0, issued := 1, due := some 21, div := true }] }).me.wq.any fun w => w.div) = true ∧
    (let s := on { ctx0 with cycle := 2, wq := [{ eff := .g 4 0, issued := 1, due := some 40 }] }
     Safety.Ready s 1 ∧ s.me.pendingG 4 = false ∧ s.me.lateG 4 = some 40 ∧ s.me.cycle + 20 < 40 ∧ (s.me.wq.any fun w => w.div) = false) := by
  unfold Safety.Ready; decide +kernel
/-! Control flow, traps and system registers. -/

/-- R223: off15 = 0x7FFD is three bundles back; the branch of the manual's example at 0x1000. -/
theorem test_branch_back : (match exec (.brNez 1 0x7FFD) (on { ctx0 with pc := 0x1000, g := regs [(1, 1)] }) with
    | .next t => t.npc | _ => none) = some 0xFD0 := by decide +kernel
/-- Table 3-6 and R217: MFS of TIMEBASE. -/
theorem test_mfs_timebase : result (.mfs 3 0x108) { base with timebase := 77 } = some 77 := by decide +kernel
/-- R363: INVALID.REG in syllable 1 with TRAP.VAL 5, CAUSE 0x0001_0003, and fetch at TRAP.VEC. -/
theorem test_trap_entry :
    (match exec (.add 1 5 5) (on { ctx0 with valid := 0, pc := 0x40, trapVec := 0x2000, vecPart := some 0 }) with
    | .next t => (t.me.trapCause, t.me.trapPc, t.me.trapVal, t.me.pc, t.me.intrap, t.me.priv)
    | _ => (0, 0, 0, 0, false, false)) = (0x10003, 0x40, 5, 0x2000, true, true) := by decide +kernel
/-- R366: ERET restores the unit's level and goes on at TRAP.PC. -/
theorem test_eret : (match exec .eret (on { ctx0 with intrap := true, priv := true, trapPc := 0x80 }) with
    | .next t => (t.npc, t.me.priv, t.me.intrap) | _ => (none, true, true)) = (some 0x80, false, false) := by decide +kernel

theorem witness_BranchesAndJumps : Free busy31 31 (some 1) ∧ Safety.Ready busy31 1 ∧
    (two 16 0).me.reg 1 = 16 ∧ (16 : Word).toNat % 16 = 0 ∧ (two 15 0).me.reg 1 = 15 ∧ (15 : Word).toNat % 16 ≠ 0 := by
  unfold Free Safety.Ready; decide +kernel
/-- The numbers at the ends of the ranges of Table 3-3, and their neighbours, which name no register. -/
theorem witness_ReadSystemRegister_numbers : SysReg.ofNum 0x107 = none ∧ SysReg.ofNum 0x1080 = some (.phaseCtl 0) ∧
    SysReg.ofNum 0x1084 = none ∧ SysReg.ofNum 0x10CF = some (.railSel 63) ∧ SysReg.ofNum 0x10D0 = none ∧
    SysReg.ofNum 0x2FFF = some (.thermRd 4095) ∧ SysReg.ofNum 0x3000 = none := by decide +kernel
theorem witness_ReadSystemRegister : base.me.priv = false ∧ SysReg.userRead (.thermRd 0) = false ∧ SysReg.userRead (.cadence 0) = true ∧
    SysReg.granted base base.myPart (.cadence 0) = false ∧ SysReg.granted base base.myPart .timebase = true ∧ Free base 1 (some 2) := by
  unfold Free; decide +kernel
theorem witness_WriteSystemRegister : Safety.Ready (two 64 11) 1 ∧
    SysReg.writeLevel .timebase = none ∧ (64 : Word) &&& ~~~SysReg.fields .timebase = 0 ∧ SysReg.valueOk 64 .timebase = true ∧
    SysReg.writeLevel .leaseMax = some true ∧ SysReg.ring .leaseMax = none ∧ (two 64 11).me.priv = false ∧
    (64 : Word) &&& ~~~SysReg.fields .leaseMax = 0 ∧ SysReg.valueOk 64 .leaseMax = true ∧ SysReg.valueOk 65 .leaseMax = false ∧
    SysReg.writeLevel .ctxCtl = some false ∧ SysReg.ring .ctxCtl = none ∧ (11 : Word) &&& ~~~SysReg.fields .ctxCtl = 0 ∧
    SysReg.valueOk 11 .ctxCtl = true ∧ (4 : Word) &&& ~~~SysReg.fields .ctxCtl ≠ 0 := by
  unfold Safety.Ready; decide +kernel
/-- Values at the ends of the ranges of Tables 3-5 to 3-9. -/
theorem witness_WriteSystemRegister_values : (on { ctx0 with priv := true }).me.priv = true ∧ (0xB : Word) &&& ~~~0xB = 0 ∧
    (0xF3FFFF : Word) &&& ~~~0xF3FFFF = 0 ∧ (16 : Word).toNat % 16 = 0 ∧ (0x63 : Word) &&& ~~~0xFB = 0 ∧ (0x63 : Word).toNat / 8 ≤ 12 ∧
    1 ≤ (1 : Word).toNat ∧ (64 : Word).toNat ≤ 64 ∧ (0xFFFFFFFF : Word).toNat < 2 ^ 32 ∧ (0xFFFF : Word).toNat < 2 ^ 16 ∧
    SysReg.ofNum 0x107 = none := by decide +kernel
/-- The core's ring 2 has four tiles; a PUTR of ring 1 stands in the copy queue. -/
def ringed : State :=
  { on { ctx0 with streams := vset ctx0.streams 1 { queue := [{ word := .putr, off := 0, ops := [1, 0, 1] }] } } with
    cores := [(0, { rings := vset (Vector.replicate 8 {}) 2 { shape := 0x000401 } })] }
theorem witness_WriteRingRegister : SysReg.ring (.ringPtr 1) = some 1 ∧ SysReg.ring (.ringBase 2) = some 2 ∧
    SysReg.ofNum 0x217 = some (.ringPtr 7) ∧ SysReg.ofNum 0x218 = none ∧ Safety.Ready ringed 1 ∧ SysReg.valueOk 0x40000 (.ringPtr 2) = true ∧ ringed.ringBusy ringed.myCore 1 = true ∧
    ringed.ringBusy ringed.myCore 2 = false ∧ (0x40000 : Word) &&& ~~~SysReg.fields (.ringPtr 2) = 0 ∧
    ({ vget {} (ringed.core 0).rings 2 with ptr := 0x40000 } : Ring).occ ≤ (vget {} (ringed.core 0).rings 2).tiles ∧
    (vget {} (ringed.core 0).rings 2).tiles < ({ vget {} (ringed.core 0).rings 2 with ptr := 0x50000 } : Ring).occ := by
  unfold Safety.Ready; decide +kernel
/-- Zone 255 is partition 0's and wet; the context runs a supervisor unit. -/
def zoned : State :=
  { on { ctx0 with priv := true, g := regs [(1, 255), (2, 0x204)] } with
    mem := Memory.putNat (Memory.putNat mapped (coolAddr 255) 1 0x80) (coolAddr 255 + 1) 1 2 }
theorem witness_WaitForTime_FlowRequest : Safety.Ready zoned 1 ∧ Safety.Ready zoned 2 ∧ zoned.me.priv = true ∧ zoned.me.spec = false ∧
    (zoned.me.reg 1).toNat < 256 ∧ zoned.zoneGranted zoned.myPart 255 = true ∧ (zoned.me.reg 2).toNat < 2 ^ 16 ∧
    (zoned.me.reg 0).toNat ≤ zoned.timebase.toNat ∧ zoned.timebase.toNat < (zoned.me.reg 1).toNat := by
  unfold Safety.Ready; decide +kernel
/-- The operands at which FLOW.REQ traps: a bit above the zone or the request, user level, a zone of another, an iteration. -/
theorem witness_FlowRequest_traps : 256 ≤ ((two 256 65536).me.reg 1).toNat ∧ 2 ^ 16 ≤ ((two 256 65536).me.reg 2).toNat ∧
    base.me.priv = false ∧ zoned.zoneGranted zoned.myPart 254 = false ∧
    (on { ctx0 with priv := true, spec := true }).me.spec = true := by decide +kernel
theorem witness_TrapEntry : let s := on { ctx0 with trapVec := 16, vecPart := some 0 }
    (s.ctx 0).running = some unit0 ∧ (s.ctx 0).wq = [] ∧ (s.ctx 0).sps = [] ∧ s.recState 0 0x10000 ≠ 3 ∧ (s.ctx 0).seq = .none ∧
      (s.ctx 0).spec = false ∧ (s.ctx 0).intrap = false ∧ (s.ctx 0).trapVec ≠ 0 ∧ (s.ctx 0).vecPart = some unit0.part := by
  decide +kernel
/-- A unit without a trap vector, and an iteration. -/
theorem witness_TrapEntry_more : (base.ctx 0).running = some unit0 ∧ (base.ctx 0).seq = .none ∧ (base.ctx 0).spec = false ∧
    (base.ctx 0).trapVec = 0 ∧ ((on { ctx0 with spec := true }).ctx 0).spec = true := by decide +kernel
theorem witness_TrapAndReturn : base.me.intrap = false ∧ (on { ctx0 with intrap := true }).me.priv = false ∧
    (on { ctx0 with intrap := true, priv := true }).me.intrap = true ∧
    (on { ctx0 with intrap := true, priv := true }).me.priv = true := by decide +kernel

/-! The vector unit's control side, barriers, flags and messages. -/

/-- Core 0 has a window of four rows, row 3 an F4B row; core 0 is partition 0's. -/
def windowed : State :=
  { on { ctx0 with tabCount := 4, g := regs [(1, 9), (2, 31)] } with
    rows := [(tabKey 0 3, { data := 0x1122334455, tag := 4, valid := true }), (tabKey 0 0, { data := 5, tag := 0, valid := true })],
    parts := [(0, { isOpen := true, cores := 3 })] }
/-- R286: VGET.W of container 1 of a row, zero-extended. -/
theorem test_vget : result (.vget .w 3 1 3) { windowed with ctxs := [(0, { windowed.me with g := regs [(1, 1)] })] } = some 0x11 := by
  decide +kernel
/-- R286: container 10 of an F4B row is beyond byte 39, SHAPE. -/
theorem test_vget_shape : (match exec (.vget .w 3 1 3) { windowed with ctxs := [(0, { windowed.me with g := regs [(1, 10)] })] } with
    | .next t => (match t.mark with | .trap x => x.code | _ => 0) | _ => 0) = 0x05 := by decide +kernel
theorem witness_VectorInterface : Safety.Ready windowed 1 ∧ Safety.Ready windowed 2 ∧ Free windowed 3 (some 2) ∧ Free windowed 3 none ∧
    3 < windowed.me.tabCount ∧ windowed.me.pendingRow (windowed.winKey 3) = false ∧
    (windowed.me.settled (windowed.winKey 3) (windowed.winRow 3)).valid = true ∧
    ((windowed.me.reg 1).toNat < 256 / Width.size .w ∧ (windowed.me.reg 1).toNat * 4 + 4 ≤ 40) ∧
    (windowed.me.reg 2).toNat < 256 / Width.size .d ∧ windowed.me.vecBusy = false ∧
    windowed.rowHeld windowed.myCore (windowed.me.tabBase + 3) = false := by
  unfold Safety.Ready Free; decide +kernel
/-- Row 2 of the window is invalid, there is no row 4, container 31 of words is beyond byte 39 of the F4B row, and a vector syllable
of an older bundle is in progress. -/
theorem witness_VectorInterface_traps : 2 < windowed.me.tabCount ∧
    (windowed.me.settled (windowed.winKey 2) (windowed.winRow 2)).valid = false ∧ ¬ 4 < windowed.me.tabCount ∧
    (windowed.me.settled (windowed.winKey 3) (windowed.winRow 3)).tag = 4 ∧ ¬ (windowed.me.reg 2).toNat * 4 + 4 ≤ 40 ∧
    (on { ctx0 with cycle := 5, wq := [{ eff := .nothing, issued := 4, due := some 9, vec := true }] }).me.vecBusy = true := by
  decide +kernel
/-- g1 describes barrier 0 of core 1 with two participants, g2 with one, and g3 holds 1. -/
def barriers : State := { windowed with ctxs := [(0, { ctx0 with g := regs [(1, 0x4000100), (2, 0x100), (3, 1)] })] }
/-- Another unit has arrived at barrier 0 of core 1, of two participants. -/
def arrived : State := { barriers with cores := [(1, { bars := vset (Vector.replicate 32 {}) 0 { n := 2, arrived := 1 } })] }
/-- R204: the second of two arrivals clears the barrier and advances the phase. -/
theorem test_barrier_completes : (match exec (.barArr 4 1) arrived with
    | .next t => t.barrier 0 1 0 | _ => {}) = { n := 0, tag := 0, arrived := 0, phase := 1 } := by decide +kernel
theorem witness_Barriers : Safety.Ready arrived 1 ∧ Safety.Ready arrived 2 ∧ Clear arrived 4 1 ∧ Free arrived 4 (some 1) ∧
    (let q := BarDesc.ofWord (arrived.me.reg 1)
     let x := arrived.barrier q.pkg q.core q.bar
     bitsOf (arrived.me.reg 1).toNat 63 43 = 0 ∧ bitsOf (arrived.me.reg 1).toNat 7 5 = 0 ∧ q.pkg = arrived.pkg ∧
       arrived.coreGranted arrived.myPart q.core = true ∧ q.n ≤ 2048 ∧ arrived.me.spec = false ∧ x.differs q.n q.tag = false ∧
       (q.pkg = arrived.pkg ∨ arrived.linkq.count (arrived.edgeTo q.pkg, .collectives) < 16) ∧
       x.phase.setWidth 64 = arrived.me.reg 0 ∧ x.phase.setWidth 64 ≠ arrived.me.reg 3 ∧ arrived.me.barLost = false ∧
       arrived.me.barPhase = none ∧ x.arrived + 1 = x.n) := by
  unfold Safety.Ready Free Clear; decide +kernel
/-- A descriptor with bit 5 set, one of core 2, which the partition has not, one of 2,049 participants, and one of package 1, which is
not in the domain; and a unit that has arrived already. -/
theorem witness_Barriers_traps : bitsOf (0x20 : Word).toNat 7 5 ≠ 0 ∧
    arrived.coreGranted arrived.myPart (BarDesc.ofWord 0x200).core = false ∧ 2048 < (BarDesc.ofWord 0x2000000100).n ∧
    (BarDesc.ofWord 0x2000000100).tag ≠ 7 ∧ (BarDesc.ofWord 0x20100).pkg ≠ arrived.pkg ∧
    arrived.reaches (BarDesc.ofWord 0x20100).pkg = false ∧
    (let full : State := { arrived with peers := [1], linkq := List.replicate 16 (1, .collectives) }
     full.reaches 1 = true ∧ ¬ full.linkq.count (full.edgeTo (BarDesc.ofWord 0x3820100).pkg, .collectives) < 16 ∧
       (BarDesc.ofWord 0x3820100).pkg = 1 ∧ (BarDesc.ofWord 0x3820100).tag = 7) ∧ (on { ctx0 with spec := true, barLost := true }).me.spec = true ∧
    (on { ctx0 with spec := true, barLost := true }).me.barLost = true ∧ (BarDesc.ofWord 0).n ≤ 2048 ∧
    ({ ctx0 with barPhase := some 0 } : Ctx).barPhase = some (arrived.barrier 0 1 0).phase ∧
    ({ ctx0 with barPhase := some 1 } : Ctx).barPhase ≠ some (arrived.barrier 0 1 0).phase := by decide +kernel
theorem witness_Barriers_differ : let q := BarDesc.ofWord (arrived.me.reg 2)
    (arrived.barrier q.pkg q.core q.bar).differs q.n q.tag = true := by decide +kernel
theorem witness_Barriers_alone : let q := BarDesc.ofWord (barriers.me.reg 2)
    (barriers.barrier q.pkg q.core q.bar).arrived = 0 ∧ q.n = 1 := by decide +kernel
theorem witness_BarrierArrival : (({} : Barrier).arrived = 0) ∧ (let x : Barrier := { n := 2, tag := 3, arrived := 1 }
    x.n = 2 ∧ x.tag = 3 ∧ x.arrived + 1 = 2) ∧ (({} : Barrier).arrived + 1 ≠ 2) ∧ (511 < 512 ∧ 31 < 32) ∧
    ((0, 511, 31) ≠ ((0, 511, 30) : Nat × Nat × Nat)) := by decide +kernel
/-- R273 and Table 13-1: flag 4,096 is PROTECT. -/
theorem test_flag_bound : (match exec (.flagSet 1) (two 4096 0) with
    | .next t => (match t.mark with | .trap x => x.code | _ => 0) | _ => 0) = 0x0A := by decide +kernel
theorem witness_Flags : Safety.Ready (two 4095 4096) 1 ∧ Safety.Ready (two 4095 4096) 2 ∧ ((two 4095 4096).me.reg 1).toNat < 4096 ∧
    4096 ≤ ((two 4095 4096).me.reg 2).toNat ∧ (two 4095 4096).me.spec = false ∧ (on { ctx0 with spec := true }).me.spec = true ∧
    ((two 4095 4096).part (two 4095 4096).myPart).flags.getLsbD 4095 = false ∧
    (({ two 4095 4096 with parts := [(0, { flags := BitVec.allOnes 4096 })] } : State).part 0).flags.getLsbD 4095 = true := by
  unfold Safety.Ready; decide +kernel
/-- Core 0 has 16 KiB of scratchpad; g1 is its start, g2 its last flit, g3 a send of one flit to context 1 of the same core, which is
bound. -/
def talk (q : List Packet) : State :=
  { on { ctx0 with g := regs [(1, 0x1FF000000000000), (2, 0x1FF000000003FF0), (3, 0x21)], msgq := q } with
    cores := [(0, { spw := 1 })], mem := Memory.putNat mapped (slotAddr 1 + 15) 1 1 }
/-- R275: the header of a one-flit message from context 0 at stop 0. -/
theorem test_send : (match exec (.send 3 2) (talk []) with
    | .next t => (t.ctx 1).msgq.map (·.hdr) | _ => []) = [0x8000000000000020] := by decide +kernel
theorem witness_Messages : let p : Packet := { hdr := 0, payload := List.replicate 112 0, part := 0, dstStop := 0, dstCtx := 0 }
    let s := talk [p]
    let t := talk []
    Safety.Ready s 1 ∧ Safety.Ready s 2 ∧ s.me.spec = false ∧ (s.me.reg 1).toNat % 16 = 0 ∧ (s.me.reg 1).toNat < 2 ^ 57 ∧
      inScratch (s.me.reg 1).toNat = true ∧ s.me.msgq = p :: [] ∧ s.me.loads < 12 ∧ s.msgBound 1 p = true ∧
      scratchOff (s.me.reg 1).toNat + p.payload.length ≤ (s.core s.myCore).spSize ∧ Clear s 4 0 ∧ t.me.msgq = [] ∧ Free t 4 none ∧
      bitsOf (s.me.reg 3).toNat 63 16 = 0 ∧ bitsOf (s.me.reg 3).toNat 4 2 = stopOf s.myCore ∧ (s.me.reg 2).toNat % 16 = 0 ∧
      inScratch (s.me.reg 2).toNat = true ∧
      scratchOff (s.me.reg 2).toNat + 16 * bitsOf (s.me.reg 3).toNat 7 5 ≤ (s.core s.myCore).spSize ∧ (s.ctx 1).msgRoom p = true := by
  unfold Safety.Ready Free Clear; decide +kernel
/-- Operands at which the message instructions trap, a full queue, and a target at stop 1 over a free and over a taken link. -/
theorem witness_Messages_more : let p : Packet := { hdr := 0xE0, payload := List.replicate 112 0, part := 0, dstStop := 0, dstCtx := 1 }
    let s := talk []
    let q : Packet := { p with dstStop := 1 }
    let f : Flight := { pkt := q, src := stopOf s.myCore, hops := List.replicate q.flits 0 }
    let taken : Cluster := { flights := [{ f with hops := [1, 1, 1, 1, 0, 0, 0, 0] }] }
    (8 : Word).toNat % 16 ≠ 0 ∧ inScratch ((two 16 0).me.reg 1).toNat = false ∧
      (s.core s.myCore).spSize < scratchOff (s.me.reg 2).toNat + p.payload.length ∧ bitsOf (0x10000 : Word).toNat 63 16 ≠ 0 ∧
      (s.ctx 1).msgRoom p = true ∧ ({ msgq := [p, p] } : Ctx).msgRoom p = false ∧ 1 ≠ stopOf s.myCore ∧
      (({} : Cluster).inject f).isSome = true ∧ taken.inject f = none := by
  decide +kernel
/-! Units, launches, counters and speculative runs. -/

/-- g1 is a resume PC, g2 and g3 arguments. -/
def spawner : State := unitAt { ctx0 with g := regs [(1, 0x20FF0), (2, 5), (3, 0x20FF8)] }

/-- R259: the new record stands at the lowest free slot with state 1, argument 0 := ga and the launch number. -/
theorem test_spawn : (match exec (.spawn 1 2 0) spawner with
    | .next t => (t.readRec 0 0x10040).map fun r => (r.state, r.a0, r.launch, r.pc) | _ => none) = some (1, 5, 1, 0x20FF0) := by
  decide +kernel
theorem witness_Spawn : Safety.Ready spawner 1 ∧ Safety.Ready spawner 2 ∧ Safety.Ready spawner 3 ∧ (spawner.me.reg 3).toNat % 16 ≠ 0 ∧
    (spawner.me.reg 1).toNat % 16 = 0 ∧ spawner.me.spec = false ∧ spawner.me.running = some unit0 ∧
    spawner.queueRoom spawner.me.launch.toNat spawner.myCore = true ∧
    spawner.freeSlots 0 (spawner.launch 1).fields.rpool (spawner.launch 1).fields.rpooln 1 = 0x10040 :: [] := by
  unfold Safety.Ready; decide +kernel
/-- With the unit's own slot alone, none is free; and an iteration. -/
theorem witness_Spawn_waits : let l := { launch1 with fields := { launch1.fields with rpooln := 1 } }
    ({ spawner with launches := [(1, l)] }).freeSlots 0 0x10000 l.fields.rpooln 1 = [] ∧
    (unitAt { ctx0 with spec := true }).me.spec = true := by decide +kernel
/-- The unit runs with an image that has a fork set. -/
def forkAt (x : Ctx) : State := { unitAt x with mem := forkImage }
/-- R193, R263: FORK loads the sync flags and starts the streams of the set. -/
theorem test_fork : (match exec (.fork 0) (forkAt ctx0) with
    | .next t => (t.me.pinned, vget 0 t.me.flags 1, (t.me.stream 0).forked, (t.me.stream 0).base, (t.me.stream 1).forked)
    | _ => (false, 0, false, 0, true)) = (true, 3, true, 0x21100, false) := by decide +kernel
theorem witness_Fork : let s := forkAt ctx0
    s.me.running = some unit0 ∧ s.me.pinned = false ∧ (forkAt { ctx0 with pinned := true }).me.pinned = true ∧
      s.syncBad 0 0x20000 = none ∧ NoHeld s ∧
      (((List.range (s.imgField 0 0x20000 22 2)).map fun i => s.forkEntry 0 0x20000 i).filter (·.1 == 0)) =
        [(0, 1, [0, 0xFFFFFFFF, 0xFFFFFFFF, 0xFFFFFFFF, 0xFFFFFFFF, 0xFFFFFFFF], true)] ∧
      bitOf 1 0 = true ∧ s.imgFind 0 0x20000 2 = some (0x1100, 0x40) ∧ bitOf 1 5 = false := by
  unfold NoHeld; decide +kernel
/-- A stream that holds a fault. -/
def faulted : State :=
  unitAt { ctx0 with streams := vset ctx0.streams 1 { fault := some { code := 0x0B, sub := 0x11, off := 3 } } }
/-- A sync flag of a stream that does not exist, a set that the table does not hold, and a held fault. -/
theorem witness_Fork_traps : ({ forkAt ctx0 with mem := imgPut forkImage [(0x300, 8, 0x0000030601000001)] }).syncBad 0 0x20000 = some 0 ∧
    (((List.range ((forkAt ctx0).imgField 0 0x20000 22 2)).map fun i => (forkAt ctx0).forkEntry 0 0x20000 i).filter (·.1 == 1)) = [] ∧
    FirstHeld faulted 1 := by unfold FirstHeld; decide +kernel
/-- g1 names counter 1023, g2 is 1024, g3 a DONE of 1; the counters of the partition are closed. -/
def counting : State := unitAt { ctx0 with g := regs [(1, 1023), (2, 1024), (3, 1)] }
/-- R270: CNT.ADD answers the word as it stood before. -/
theorem test_cntAdd : result (.cntAdd 3 1 3) counting = some 0 ∧
    (match exec (.cntAdd 3 1 3) counting with | .next t => (t.counter 0 1023).done | _ => 0) = 1 := by decide +kernel
theorem witness_Counters : Safety.Ready counting 1 ∧ Safety.Ready counting 2 ∧ 1024 ≤ (counting.me.reg 2).toNat ∧
    (counting.me.reg 1).toNat < 1024 ∧ counting.me.spec = false ∧ (counting.counter 0 1023).status ≠ 1 ∧ Clear counting 4 1 ∧
    (counting.me.reg 0).toNat % 2 ^ 32 ≤ (counting.counter 0 1023).done.toNat ∧
    (counting.counter 0 1023).done.toNat < (counting.me.reg 3).toNat % 2 ^ 32 := by
  unfold Safety.Ready Clear; decide +kernel
/-- Counter 7 is open; a wait of the context for 5 on counter 1023 has been met; nothing is suspended. -/
theorem witness_Counters_more : (counting.counter 0 7).status = 1 ∧ ((counting.me.reg 3).setWidth 32 : BitVec 32) ≠ 0 ∧
    (Ctx.waitOn { ctx0 with cntOn := some (1023, 1, true) } 1023 1).waitMet = true ∧ (counting.me.waitOn 1023 1).waitMet = false ∧
    base.suspended = [] ∧ (on { ctx0 with spec := true }).me.spec = true := by decide +kernel
/-- A forked matrix stream that has ended, or that still runs. -/
def joined (ended : Bool) : State := unitAt { ctx0 with pinned := true, streams := vset ctx0.streams 0 { forked := true, ended := ended } }
/-- R262: HALT finishes the unit's record in state 4. -/
theorem test_halt : (match exec .halt (unitAt ctx0) with
    | .next t => (t.recState 0 0x10000, (t.ctx 0).running) | _ => (0, none)) = (4, none) := by decide +kernel
theorem witness_HaltAndRendezvous : NoHeld (joined true) ∧ (joined true).me.running = some unit0 ∧ (joined true).me.seq = .none ∧
    (joined true).quiet (joined true).cur = true ∧ (joined true).streamsDrained (joined true).cur = true ∧
    (joined true).me.pinned = true ∧ (unitAt ctx0).me.pinned = false ∧ (joined false).streamsDrained (joined false).cur = false := by
  unfold NoHeld; decide +kernel
/-- A load in flight, and the ends of a save and of a restore sequence. -/
theorem witness_HaltAndRendezvous_waits : FirstHeld faulted 1 ∧
    (unitAt { ctx0 with cycle := 9, wq := [{ eff := .g 1 7, issued := 4, due := none }] }).quiet 0 = false ∧
    (unitAt { ctx0 with seq := .save 0 0 0x20 }).me.seq = .save 0 0 0x20 ∧
    (unitAt { ctx0 with seq := .restore 0x20 }).me.seq = .restore 0x20 := by unfold FirstHeld; decide +kernel
/-- g1 waits for nothing, g2 for DONE 1 of counter 0, g3 for DONE 0 of it, and g4 has wait kind 6. -/
def waits : Vector Word 32 := regs [(1, 0), (2, 0x0100000000000001), (3, 0x0100000000000000), (4, 0x0600000000000000)]
/-- R260: SUSPEND with wait kind 0 leaves a ready record with the next bundle as resume PC. -/
theorem test_suspend : (match exec (.suspend 1 0) (unitAt { ctx0 with g := waits, pc := 0x21000 }) with
    | .next t => (t.readRec 0 0x10000).map fun r => (r.state, r.pc) | _ => none) = some (1, 0x21010) := by decide +kernel
theorem witness_Suspend : let s := unitAt { ctx0 with g := waits }
    let q := unitAt { ctx0 with g := waits, pinned := true }
    Safety.Ready s 1 ∧ s.me.running = some unit0 ∧ 6 ≤ waitKind (s.me.reg 4).toNat ∧ waitKind (s.me.reg 1).toNat < 6 ∧
      s.yieldCnt 0 0x20000 ≤ 1 ∧ 0 < s.yieldCnt 0 0x20000 ∧ waitObjBad (s.me.reg 2).toNat = false ∧ NoHeld s ∧ s.quiet s.cur = true ∧
      waitKind (s.me.reg 2).toNat = 1 ∧ q.me.pinned = true ∧ q.condHolds 0 0x10000 (some 0) (q.me.reg 3).toNat = true ∧
      q.condHolds 0 0x10000 (some 0) (q.me.reg 2).toNat = false ∧ s.me.pinned = false ∧
      (s.yieldEntry 0 0x20000 0).1 = 0xFFFFFFFF := by
  unfold Safety.Ready NoHeld; decide +kernel
/-- The waits at which SUSPEND traps or asks for a lease: yield index 1, rectangle 3 without an entry and with one, request slot 4,095,
an object with a bit above its field, a lost barrier, and streams with and without a lease. -/
theorem witness_Suspend_more : let s := unitAt ctx0
    let q := leasing false
    s.yieldCnt 0 0x20000 ≤ 1 ∧ waitKind 0x0400000300000000 = 4 ∧ waitObj 0x0400000300000000 = 3 ∧ waitObjBad 0x0400000300000000 = false ∧
      s.rectOk 0 3 0 = false ∧ q.rectOk 0 3 0 = true ∧ waitKind 0x05000FFF00000000 = 5 ∧ waitObj 0x05000FFF00000000 = 0xFFF ∧
      s.reqIn 0 0xFFF = false ∧ waitObjBad 0x0400010000000000 = true ∧ waitKind 0x0300000000000000 = 3 ∧
      waitObjBad 0x0300000000000000 = false ∧ ({ ctx0 with barLost := true } : Ctx).barLost = true ∧ s.me.lease.idle = true ∧
      q.me.lease.idle = false ∧ s.me.asked ≠ some 3 ∧ NoHeld s ∧ FirstHeld faulted 1 := by
  unfold NoHeld FirstHeld; decide +kernel
/-- With one yield entry that has a save sequence. -/
theorem witness_Suspend_saves :
    (({ unitAt ctx0 with mem := imgPut image [(0x400, 8, 0xFFFFFFFF00000010)] }).yieldEntry 0 0x20000 0).1 = 0x10 := by decide +kernel
/-- A KIND 0 launch record at 0x30000 (Table 10-4), and a blank one at 0x30080. -/
def launcher (x : Ctx) : State :=
  let f := fun (m : Memory) (e : Nat × Nat × Nat) => poke m (0x30000 + e.1) e.2.1 e.2.2
  { unitAt { x with g := regs [(1, 0x30000), (2, 0x30080), (3, 0x30020), (4, 1), (5, 1023), (6, 0x10000)] } with
    mem := [(2, 2, 1023), (4, 2, 0xFFFF), (6, 2, 1), (8, 8, 0x20000), (20, 4, 1), (24, 8, 0x40000), (48, 8, 1), (56, 4, 0xFFFFFFFF),
      (68, 4, 1), (0x80, 8, 7)].foldl f (Memory.putNat (poke (poke image 0x10010 4 1) 0x10017 1 2) 0 0 0) }
theorem witness_Launch : let s := launcher ctx0
    Safety.Ready s 1 ∧ (s.me.reg 3).toNat % 64 ≠ 0 ∧ (s.me.reg 1).toNat % 64 = 0 ∧
      (match s.readLaunch 0 false 0x30000 with
        | .ok (some r) => r.kind == 0 && s.enclOk 0 r && r.cnt == 1023 && (s.counter 0 r.cnt).status != 1
        | _ => false) = true ∧
      (match s.readLaunch 0 false 0x30080 with | .ok none => true | _ => false) = true ∧
      s.me.spec = false ∧ s.queueFull = false ∧ Clear s 4 1 ∧ (s.counter 0 7).status = 1 := by
  unfold Safety.Ready Clear; decide +kernel
/-- R264: a LAUNCH opens its counter and enters the launch queue. -/
theorem test_launch : (match exec (.launch 3 1) (launcher ctx0) with
    | .next t => ((t.counter 0 1023).status, (t.counter 0 1023).live, t.launchq.length) | _ => (0, 0, 0)) = (1, 1, 1) := by decide +kernel
/-- A record that cannot be read, one whose ENCL names no level, a phase, and a full launch queue. -/
theorem witness_Launch_more : let s := launcher ctx0
    (match s.readLaunch 0 false (2 ^ 50) with | .error (9, 0x4000000000000) => true | _ => false) = true ∧
      s.enclOk 0 { addr := 0, encl := 7 } = false ∧ s.me.priv = false ∧ 2 ≤ 2 ∧
      (match s.checkNamed 0 true { addr := 0x30080, kind := 2, list := 0x30080, listn := 1 } with | .ok (.error _) => true | _ => false) = true ∧
      (match s.checkNamed 0 true { addr := 0x30080, kind := 2, list := 2 ^ 50, listn := 1 } with | .error (9, _) => true | _ => false) = true ∧
      (match s.checkNamed 0 true { addr := 0x30080, kind := 3 } with | .ok (.ok []) => true | _ => false) = true ∧
      ({ s with nodeWait := [.launch 5] } : State).queueFull = true := by decide +kernel
/-- Targets that CANCEL refuses: a misaligned record, an unmapped one, one and a launch of another partition, and counter 1,024. -/
theorem witness_Cancel_traps : let s := { launcher ctx0 with launches := [(1, { launch1 with part := 5 })] }
    (s.launch 1).part ≠ s.myPart ∧ (s.launches.any fun e => e.1 == 1) = true ∧ (s.launches.any fun e => e.1 == 2) = false ∧
      (0x10020 : Nat) % 64 ≠ 0 ∧ (match s.vPa 0 false .load (2 ^ 50) with | .error 9 => true | _ => false) = true ∧
      (match s.readRec 0 0x10000 with | some r => r.launch == 1 | none => false) = true ∧ 1024 ≤ 1024 ∧
      (on { ctx0 with spec := true, priv := true }).me.spec = true := by decide +kernel
theorem witness_Cancel : let s := launcher ctx0
    let q := launcher { ctx0 with priv := true }
    Safety.Ready s 6 ∧ s.me.spec = false ∧ (s.me.reg 6).toNat % 64 = 0 ∧
      (match s.vPa 0 false .load 0x10000 with | .ok _ => true | .error _ => false) = true ∧
      (match s.readRec 0 0x10000 with | some r => (s.launch r.launch).part == 0 && r.launch == 1 | none => false) = true ∧
      (s.launches.any fun e => e.1 == (s.me.reg 4).toNat) = true ∧ (s.launch 1).part = s.myPart ∧ (s.me.reg 5).toNat < 1024 ∧
      q.me.priv = true ∧ s.me.priv = false := by
  unfold Safety.Ready; decide +kernel
/-- R269: CANCEL.PHASE at user level is PRIV. -/
theorem test_cancel_priv : (match exec (.cancelPhase 5) (launcher ctx0) with
    | .next t => (match t.mark with | .trap x => x.code | _ => 0) | _ => 0) = 0x02 := by decide +kernel
/-- The unit may begin a run with its carry at 0x50000. -/
def runner : State := { unitAt { ctx0 with g := regs [(1, 0x50000)] } with mem := poke runImage 0x10017 1 2 }
theorem witness_RunBegin : Safety.Ready runner 1 ∧ Clear runner 2 1 ∧ runner.me.running = some unit0 ∧ runner.me.spec = false ∧
    runner.runEntry 0 0x20000 0 = some (16, 32, 8, 2, 0) ∧ (runner.me.reg 1).toNat % 64 = 0 ∧ inScratch (runner.me.reg 1).toNat = false ∧
    runner.openRuns 0 runner.me.launch < 16 ∧ runner.queueRoom runner.me.launch.toNat runner.myCore = true ∧
    runner.freeSlots 0 0x10000 4 3 = 0x10040 :: [0x10080, 0x100C0] := by
  unfold Safety.Ready Clear; decide +kernel
/-- A run index without an entry, a misaligned carry, one in the scratchpad, and an iteration. -/
theorem witness_RunBegin_traps : runner.runEntry 0 0x20000 1 = none ∧ (0x50020 : Nat) % 64 ≠ 0 ∧ inScratch 0x1FF000000000000 = true ∧
    (0x1FF000000000000 : Nat) % 64 = 0 ∧ (on { ctx0 with spec := true }).me.spec = true := by decide +kernel
/-- Register g1 is invalid, or awaits a load, where g2 is ready, and a supervisor's unit; numbers at the ends of the ranges of FLOW.REQ, SEND and
the barriers. -/
theorem witness_ControlRegisters :
    let bad : State := { runner with ctxs := [(0, { runner.me with valid := 0xFFFFFFFD, priv := true, g := regs [(2, 0xFFFF), (3, 255)] })] }
    let owed : State := { runner with ctxs := [(0, { runner.me with cycle := 2, wq := [{ eff := .g 1 0, issued := 1, due := none }] })] }
    Invalid bad 1 ∧ ¬Invalid bad 2 ∧ Safety.Ready bad 2 ∧ Safety.Ready bad 3 ∧ bad.me.priv = true ∧ bad.me.running = some unit0 ∧
      bad.runEntry 0 0x20000 0 ≠ none ∧ Owed owed 1 ∧ (1 : Reg) ≠ 0 ∧ owed.me.pendingG 1 = true ∧ bad.me.pendingG 1 = false ∧
      (bad.me.reg 2).toNat < 2 ^ 16 ∧ (bad.me.reg 3).toNat < 256 ∧ bitsOf (0x4000100 : Nat) 63 43 = 0 ∧ bitsOf (0x4000100 : Nat) 7 5 = 0 ∧
      0 < bad.yieldCnt 0 0x20000 ∧ SysReg.ofNum 0 = some .ctxCtl ∧ SysReg.writeLevel .ctxCtl = some false := by
  unfold Invalid Owed Safety.Ready; decide +kernel
/-- Iteration `i` of run 1, of two iterations with carries of 8 bytes at 0x50000; its core has 16 KiB of scratchpad. -/
def iterAt (i : Nat) : State :=
  { unitAt { ctx0 with spec := true, running := some { unit0 with run := 1, iter := i }, g := regs [(1, 0x1FF000000000000)] } with
    cores := [(0, { spw := 1 })],
    parts := [(0, { isOpen := true, runs := [(1, { launch := 1, width := 2, carrySz := 8, base := 0x50000, iters := [{}, {}], isOpen := true })] })] }
theorem witness_Accept : Safety.Ready (iterAt 0) 1 ∧ ((iterAt 0).me.reg 1).toNat % 8 = 0 ∧ (iterAt 0).me.spec = true ∧ base.me.spec = false ∧
    (match specBytes 0x1FF000000000000 1 (iterAt 0) with | .ok v _ => v == List.replicate 8 0 | _ => false) = true ∧
    (((iterAt 0).run 0 1).iters.getD 0 {}).accept = none ∧ ((iterAt 1).run 0 1).width ≤ 1 + 1 ∧ 0 + 1 < ((iterAt 0).run 0 1).width ∧
    (match (iterAt 0).vRead 0 false 0x50008 8 with | .ok v => v == List.replicate 8 0 | _ => false) = true := by
  unfold Safety.Ready; decide +kernel
/-- The committing unit, with run 1 open: the guess state and the iterations. -/
def committer (g : Nat) (its : List Iter) : State :=
  { unitAt { ctx0 with g := regs [(1, 1), (2, 2)] } with
    parts := [(0, { isOpen := true, runs := [(1,
      { launch := 1, width := its.length, carrySz := 8, base := 0x50000, guessState := g, iters := its, isOpen := true })] })] }
/-- R282: iteration 0 matched and iteration 1 did not, so both are accepted. -/
theorem test_commit : result (.runCommit 3 1) (committer 4 [{ recVa := 0x10040, finished := 4, accept := some true, carryOut := List.replicate 8 1 },
    { recVa := 0x10080, finished := 4, accept := some false, carryOut := List.replicate 8 2 }]) = some 2 := by decide +kernel
theorem witness_RunCommitAndAbort : let s := committer 4 [{ finished := 4, accept := some true, carryOut := List.replicate 8 1 }]
    let w := committer 0 [{}]
    let f := committer 4 [{ finished := 4, fault := some (0x08, 0x20000, 3) }]
    Safety.Ready s 1 ∧ s.me.spec = false ∧ (s.me.reg 1).toNat < 2 ^ 24 ∧ (s.run 0 1).isOpen = true ∧ (s.run 0 1).launch = s.me.launch ∧
      (s.run 0 2).isOpen = false ∧ Clear s 3 1 ∧ (w.run 0 1).guessState = 0 ∧ (s.run 0 1).guessState = 4 ∧
      (∀ i ∈ (s.run 0 1).iters, i.finished ≠ 0) ∧ accepted (s.run 0 1).iters 0 = (1, none) ∧
      (((s.run 0 1).iters.getD 0 {}).accept).isSome = true ∧
      (match s.vWrite 0 false 0x50000 (List.replicate 8 1) with | .ok _ => true | _ => false) = true ∧
      accepted (f.run 0 1).iters 0 = (1, some 0) ∧ ((f.run 0 1).iters.getD 0 {}).fault = some (0x08, 0x20000, 3) ∧
      accepted [{ finished := 4 }] 0 = (1, none) := by
  unfold Safety.Ready Clear; decide +kernel
/-- A guess unit that was cancelled, an iteration, a run of no launch of the unit's, and a carry address that cannot be written. -/
theorem witness_RunCommitAndAbort_more : ((committer 5 [{ finished := 4 }]).run 0 1).guessState ≠ 4 ∧
    ((committer 5 [{ finished := 4 }]).run 0 1).guessState ≠ 0 ∧ (on { ctx0 with spec := true }).me.spec = true ∧
    (base.run 0 1).isOpen = false ∧
    (match base.vWrite 0 false (2 ^ 50) [1] with | .error 9 => true | _ => false) = true := by decide +kernel
/-- A pinned unit that has asked for rectangle 5 suspends for rectangle 3. -/
theorem witness_Suspend_idle :
    let s := unitAt { ctx0 with g := regs [(1, 0x0400000300000000)], pinned := true, lease := .requested 5 0 }
    Safety.Ready s 1 ∧ waitKind (s.me.reg 1).toNat = 4 ∧ 0 < s.yieldCnt 0 0x20000 ∧ waitObjBad (s.me.reg 1).toNat = false ∧
      s.me.pinned = true ∧ s.me.asked ≠ some (waitObj (s.me.reg 1).toNat) ∧ s.me.lease.idle = false := by
  unfold Safety.Ready; decide +kernel
/-- Sixteen open runs of the unit's launch, and a pool of three records. -/
theorem witness_RunBegin_more : let r : Run := { launch := 1, isOpen := true }
    let full : State := { runner with parts := [(0, { isOpen := true, runs := (List.range 16).map fun i => (i + 1, r) })] }
    let small : State := { runner with launches := [(1, { launch1 with fields := { launch1.fields with rpooln := 3 } })] }
    16 ≤ full.openRuns 0 full.me.launch ∧ ((full.part 0).runs.filter fun e => e.2.isOpen).length < 2048 ∧
      (small.freeSlots 0 0x10000 3 3).length ≤ 2 ∧ runner.runEntry 0 0x20000 0 ≠ none := by decide +kernel
/-- The last iteration, one that has accepted already, addresses that cannot be read, and a misaligned one. -/
theorem witness_Accept_more : ((iterAt 1).run 0 1).width ≤ 1 + 1 ∧ (((iterAt 1).run 0 1).iters.getD 1 {}).accept.isSome = false ∧
    (({ accept := some true } : Iter)).accept.isSome = true ∧ (4 : Nat) % 8 ≠ 0 ∧ (8 : Nat) % 8 = 0 ∧
    (match specBytes (2 ^ 50) 1 (iterAt 0) with | .error (.trap 9 _) _ => true | _ => false) = true ∧
    (match (iterAt 0).vRead 0 false (2 ^ 50) 8 with | .error 9 => true | _ => false) = true := by decide +kernel
/-! Scalar memory access. -/

/-- The line at 0x40 in an L1. -/
def line1 : L1Line :=
  { line := 2 ^ 33 + 1, valid := BitVec.allOnes 64, dirty := 0, data := 0x8182838485868788, key := 0, part := 0 }
/-- 16 KiB of scratchpad whose last eight bytes are 0x80FF…, and a line at 0x40 that the L1 holds in full. g1 is the scratchpad's
last word, g2 the first byte beyond it, g3 the line, g4 the line and one byte, g5 a line that the core's TLB maps. -/
def loader : State :=
  { on { ctx0 with g := regs [(1, 0x1FF000000003FF8), (2, 0x1FF000000004000), (3, 0x40), (4, 0x41), (5, 0x1FFFC0)] } with
    cores := [(0, { spw := 1, sp := Memory.putNat [] 0x3FF8 8 0x80FFFFFFFFFFFFFF, tlb := [page0], l1 := [line1] })] }
/-- The access that `page0` gives. -/
def acc0 (va : Nat) : Access := { pa := 2 ^ 39 + va, uncached := false, key := 0 }

/-- R251: LD.B sign-extends the top byte of the scratchpad; LD.BZ does not. -/
theorem test_ldB : result (.ldB 3 1 7) loader = some 0xFFFFFFFFFFFFFF80 ∧ result (.ldBz 3 1 7) loader = some 0x80 := by decide +kernel
/-- R5, R129: a load of four bytes of a line that the L1 holds, little-endian and sign-extended. -/
theorem test_ldW_cached : result (.ldW 3 3 0) loader = some 0xFFFFFFFF85868788 := by decide +kernel
/-- R107: one byte beyond the scratchpad is SCRATCH.RANGE. -/
theorem test_scratch_range : (match exec (.ldB 3 2 0) loader with
    | .next t => (match t.mark with | .trap x => (x.code, x.val) | _ => (0, 0)) | _ => (0, 0)) = (0x18, 0x1FF000000004000) := by
  decide +kernel
/-- R258: CAS stores where the old bytes equal gd, and answers them. -/
theorem test_cas : (match exec (.cas .w .ctx 6 1 3) { loader with ctxs := [(0, { loader.me with g := regs [(1, 0x1FF000000003FF8), (3, 7), (6, 0xFFFFFFFF)] })] } with
    | .next t => (t.core 0).sp.nat 0x3FF8 4 | _ => 0) = 7 := by decide +kernel

theorem witness_ScratchpadLoads : Safety.Ready loader 1 ∧ Free loader 6 none ∧ loader.me.loads < 12 ∧
    (InScratchpad loader (loader.me.reg 1 + 7) 1 true false ∧ InScratchpad loader (loader.me.reg 1 + 6) 2 true false ∧
      InScratchpad loader (loader.me.reg 1 + 4) 4 true false ∧ InScratchpad loader (loader.me.reg 1) 8 true false) ∧
    (loader.me.pend && loader.me.spPending 0x3FF8 8) = false := by
  unfold Safety.Ready Free InScratchpad; decide +kernel
theorem inMemory_loader (k : AccessKind) (ld st : Bool) : InMemory loader k 0x40 8 ld st (acc0 0x40) := by
  refine ⟨by decide +kernel, by decide +kernel, by decide +kernel, ?_, ⟨page0, ?_, by decide +kernel⟩, by decide +kernel, by decide +kernel⟩
  · cases ld <;> cases st <;> decide +kernel
  · cases k <;> decide +kernel
theorem witness_CachedLoads : Safety.Ready loader 3 ∧ Free loader 6 none ∧ loader.me.loads < 12 ∧ loader.me.spec = false ∧
    InMemory loader .load (loader.me.reg 3) 8 true false (acc0 0x40) ∧ (acc0 0x40).uncached = false ∧
    loader.l1Has loader.myCore ((acc0 0x40).pa / 64) (byteMask ((acc0 0x40).pa % 64) 8) = true := by
  refine ⟨?_, ?_, ?_, ?_, inMemory_loader .load true false, rfl, ?_⟩ <;> (try unfold Safety.Ready) <;> (try unfold Free) <;>
    decide +kernel
theorem witness_Stores : Safety.Ready loader 1 ∧ Safety.Ready loader 6 ∧ InScratchpad loader (loader.me.reg 1) 8 false true ∧
    InMemory loader .store (loader.me.reg 3) 8 false true (acc0 0x40) ∧ loader.me.spec = false ∧ loader.me.sq.length < 12 := by
  refine ⟨?_, ?_, ?_, inMemory_loader .store false true, ?_, ?_⟩ <;> (try unfold Safety.Ready) <;> (try unfold InScratchpad) <;>
    decide +kernel
theorem witness_AddressChecks : Safety.Ready loader 4 ∧ Safety.Ready loader 6 ∧ (loader.me.reg 4).toNat % 2 ≠ 0 ∧
    (loader.me.reg 4).toNat % 4 ≠ 0 ∧ (loader.me.reg 4).toNat % 8 ≠ 0 ∧ (loader.me.reg 2).toNat % 8 = 0 ∧
    (loader.me.reg 2).toNat < 2 ^ 57 ∧ inScratch (loader.me.reg 2).toNat = true ∧
    (loader.core loader.myCore).spSize < scratchOff (loader.me.reg 2).toNat + 1 := by
  unfold Safety.Ready; decide +kernel
/-- The data registers of those accesses are owed a value, or late. -/
theorem witness_AddressChecks_data :
    (let s : State := { loader with ctxs := [(0, { loader.me with cycle := 2, wq := [{ eff := .g 6 0, issued := 1, due := none }] })] }
     Safety.Ready s 1 ∧ Owed s 6 ∧ InScratchpad s (s.me.reg 1) 8 false true ∧ InScratchpad s (s.me.reg 1) 4 true true ∧ ¬Invalid s 7) ∧
    (let s : State := { loader with ctxs := [(0, { loader.me with ctl := 1, cycle := 2, wq := [{ eff := .g 6 0, issued := 1, due := some 9 }] })] }
     Safety.Ready s 1 ∧ Safety.Ready s 7 ∧ Short s 6 ∧ InScratchpad s (s.me.reg 1) 8 false true) := by
  unfold Safety.Ready Owed Short Invalid InScratchpad; decide +kernel
/-- Stores of eight bytes at the end of a line: one uncached, one to the line that the L1 holds, one to a line that no cache holds; and an
atomic at a wide scope and at a narrow one. -/
theorem witness_PerformedStores :
    let e : SqEntry := { kind := .store, pa := 2 ^ 39 + 0x78, size := 8, val := 5, uncached := true, key := 0 }
    1 ≤ e.size ∧ e.size ≤ 8 ∧ e.pa % 64 + e.size ≤ 64 ∧ encrypted e.pa = true ∧ encrypted (96 * 2 ^ 20) = false ∧
      (loader.core (loader.l1Core 0 (e.pa / 64))).l1At (e.pa / 64) = some line1 ∧
      (∀ i < 8, base.holders ((e.pa + i) / 64) = [] ∧ ∀ x ∈ base.cores, (base.core x.1).l1At ((e.pa + i) / 64) = none) ∧
      ([1, 2] : List Byte) ≠ [] ∧ 0x7E % 64 + ([1, 2] : List Byte).length ≤ 64 ∧
      (∀ sc ∈ [Scope.pkg, Scope.clu], (match atomicMem (acc0 0x40) 8 sc (fun x => x + 1) loader with | .ok _ _ => true | _ => false) = true) ∧
      widerThanClu .pkg = true ∧ widerThanClu .clu = false ∧ isLow (acc0 0x40).pa = true := by decide +kernel
theorem witness_LoadConstant : Safety.Ready loader 3 ∧ Free loader 6 none ∧ loader.me.loads < 12 ∧
    InMemory loader .load (loader.me.reg 3 + extS loader (0 : BitVec 10) * 8) 8 true false (acc0 0x40) := by
  refine ⟨?_, ?_, ?_, inMemory_loader .load true false⟩ <;> (try unfold Safety.Ready) <;> (try unfold Free) <;> decide +kernel
theorem witness_AcquireRelease : Safety.Ready loader 1 ∧ Safety.Ready loader 6 ∧ Free loader 6 none ∧ loader.me.loads < 12 ∧
    InScratchpad loader (loader.me.reg 1) 8 true false ∧ InScratchpad loader (loader.me.reg 1) 8 false true ∧
    (loader.me.pend && loader.me.spPending 0x3FF8 8) = false ∧ InMemory loader .load (loader.me.reg 3) 8 true false (acc0 0x40) ∧
    InMemory loader .store (loader.me.reg 3) 8 false true (acc0 0x40) ∧ loader.me.spec = false ∧ loader.me.sq.length < 12 := by
  refine ⟨?_, ?_, ?_, ?_, ?_, ?_, ?_, inMemory_loader .load true false, inMemory_loader .store false true, ?_, ?_⟩ <;>
    (try unfold Safety.Ready) <;> (try unfold Free) <;> (try unfold InScratchpad) <;> decide +kernel
theorem inMemory_line (k : AccessKind) : InMemory loader k 0x1FFFC0 1 false false (acc0 0x1FFFC0) := by
  refine ⟨by decide +kernel, by decide +kernel, by decide +kernel, by decide +kernel, ⟨page0, ?_, by decide +kernel⟩,
    by decide +kernel, by decide +kernel⟩
  cases k <;> decide +kernel
theorem witness_CacheControl : Safety.Ready loader 1 ∧ Safety.Ready loader 5 ∧ (loader.me.reg 1).toNat < 2 ^ 57 ∧
    inScratch (loader.me.reg 1).toNat = true ∧ loader.me.spec = false ∧ loader.me.sq.length < 12 ∧
    InMemory loader .store (loader.me.reg 5) 1 false false (acc0 0x1FFFC0) ∧
    InMemory loader .load (loader.me.reg 5 + extS loader (0 : BitVec 10) * 64) 1 false false (acc0 0x1FFFC0) ∧
    (acc0 0x1FFFC0).uncached = false := by
  refine ⟨?_, ?_, ?_, ?_, ?_, ?_, inMemory_line .store, inMemory_line .load, rfl⟩ <;> (try unfold Safety.Ready) <;> decide +kernel
theorem witness_Atomics : Safety.Ready loader 1 ∧ Safety.Ready loader 3 ∧ Clear loader 6 0 ∧ Safety.Ready loader 6 ∧ loader.me.loads < 12 ∧
    loader.me.sq.length < 12 ∧ InScratchpad loader (loader.me.reg 1) 8 true true ∧ InScratchpad loader (loader.me.reg 1 + 4) 4 true true ∧
    InMemory loader .store (loader.me.reg 3) 8 true true (acc0 0x40) ∧ loader.me.spec = false ∧
    (loader.release loader.cur .sys).groupAt (acc0 0x40).pa = none ∧
    (match atomicMem (acc0 0x40) 8 .pkg (fun x => x + 1) (loader.release loader.cur .pkg) with | .ok _ _ => true | _ => false) = true := by
  refine ⟨?_, ?_, ?_, ?_, ?_, ?_, ?_, ?_, inMemory_loader .store true true, ?_, ?_, ?_⟩ <;>
    (try unfold Safety.Ready) <;> (try unfold Clear) <;> (try unfold InScratchpad) <;> decide +kernel

/-! Vector syllables. -/

/-- A row of FP32 elements: 1.0, 2.0, −0, NaN, then zeros. -/
def rowA : Row := BitVec.ofNat 2048 (0x3F800000 + 0x40000000 * 2 ^ 32 + 0x80000000 * 2 ^ 64 + 0x7FC00001 * 2 ^ 96)
/-- Rows 0 to 8 of the window hold `rowA` under the nine formats, rows 16 and 17 `rowA` as FP32; queue q0 holds an entry. The current
mask k1 has element 0 off; a.lo is 2 and a.hi names request 5. -/
def vec (sel : Fin 4) (lo hi : Word) : State :=
  { on { ctx0 with tabCount := 64, sel := sel, k := vset ctx0.k 1 (BitVec.allOnes 256 - 1), alo := lo, ahi := hi,
                   qin := vset ctx0.qin 0 [{ tag := 0, data := rowA }] } with
    rows := (List.range 9).map (fun i => (tabKey 0 i, { data := rowA, tag := BitVec.ofNat 4 i, valid := true })) ++
      [16, 17].map (fun i => (tabKey 0 i, { data := rowA, tag := 0, valid := true })) }
/-- The row written by a vector instruction, as `n`-byte elements, and the mask. -/
def rowOut (i : Instr) (s : State) (w k : Nat) : List Nat × List Bool :=
  match exec i s with
  | .next t => match (t.me.wq.getLast?.map (·.eff) : Option Effect) with
    | some (Effect.rows (r :: _)) => (rowElems w k r.data, (List.range k).map fun e => r.mask.getLsbD (w * e))
    | _ => ([], [])
  | _ => ([], [])
/-- R48, R55: 1 + 1, 2 + 2, −0 + −0 = −0, and a NaN gives the canonical NaN. -/
theorem test_vadd : (rowOut (.vadd .f32 (.row 10) (.row 0) (.row 16)) (vec 0 0 0) 32 4).1 =
    [0x40000000, 0x40800000, 0x80000000, 0x7FC00000] := by decide +kernel
/-- R78: an element that is off keeps its bytes. -/
theorem test_vadd_masked : (rowOut (.vadd .f32 (.row 16) (.row 0) (.row 17)) (vec 1 0 0) 32 2).2 = [false, true] := by decide +kernel
/-- R316: VBCAST repeats element a.lo[7:0]. -/
theorem test_vbcast : (rowOut (.vbcast .f32 (.row 10) (.row 0)) (vec 0 1 0) 32 3).1 = List.replicate 3 0x40000000 := by decide +kernel
/-- R315: VIDX counts from a.lo. -/
theorem test_vidx : (rowOut (.vidx .i32u (.row 10)) (vec 0 2 0) 32 3).1 = [2, 3, 4] := by decide +kernel
/-- Table 2-1 and R53: 1.0, 2.0 and −0 as BF16. -/
theorem test_vcvt : ((rowOut (.vcvt .bf16 (.row 10) (.row 0) .f32) (vec 0 0 0) 16 3).1) = [0x3F80, 0x4000, 0x8000] := by decide +kernel
/-- R77: a row of another format is TAG with the physical row. -/
theorem test_tag : (match exec (.vadd .bf16 (.row 10) (.row 0) (.row 1)) (vec 0 0 0) with
    | .next t => (match t.mark with | .trap x => (x.code, x.val, x.syl) | _ => (0, 0, 0)) | _ => (0, 0, 0)) = (0x04, 0, 2) := by
  decide +kernel
/-- R319: the first element on that equals. -/
theorem test_vfind : (rowOut (.vfind .f32 (.row 10) (.row 0) (.row 16)) (vec 1 0 0) 32 1).1 = [1] := by decide +kernel

theorem witness_VectorTwoSources :
    Passes (vec 1 0 0) (some (opd (.row 16) .f32)) true [opd (.row 0) .f32, opd (.row 17) .f32] true (some 4) none ∧
    Passes (vec 0 0 0) (some (opd (.row 63) .i8)) false [opd (.row 5) .i8, opd .alo .i8] true (some 6) none ∧
    Passes (vec 0 0 0) (some (opd (.qout 3) .f32)) false [opd (.qin 0) .f32, opd .vzero .f32] true (some 6) none ∧
    ((maskBits (vec 1 0 0) (elemCount (vec 1 0 0) .f32 [.row 16, .row 0, .row 17])).any (!·)) = true ∧
    ((maskBits (vec 0 0 0) (elemCount (vec 0 0 0) .i8 [.row 63, .row 5, .alo])).any (!·)) = false := by
  refine ⟨passes_of ?_, passes_of ?_, passes_of ?_, ?_, ?_⟩ <;> decide +kernel
theorem witness_VectorMultiplyAdd : Passes (vec 1 0 0) (some (opd (.row 16) .f32)) true
    [opd (.row 0) .f32, opd (.row 17) .f32, opd (.row 16) .f32] true (some 6) none := passes_of (by decide +kernel)
theorem witness_VectorOneSource : Passes (vec 0 0 0) (some (opd (.row 10) .bf16)) false [opd (.row 1) .bf16] true (some 4) none ∧
    Passes (vec 0 0 0) (some (opd (.row 10) .f32)) false [opd (.row 0) .f32] true (some 10) none ∧
    Passes (vec 0 0 0) (some (opd (.row 10) .f4b)) false [opd (.row 4) .f4b] false (some 4) none := by
  refine ⟨passes_of ?_, passes_of ?_, passes_of ?_⟩ <;> decide +kernel
theorem witness_VectorConvertRotateCompare :
    Passes (vec 0 0 0) (some { op := .row 10, fmt := .f8a, is32 := false }) false [{ op := .row 0, fmt := .f32, is32 := false }] true (some 6) none ∧
    Passes (vec 0 0 0) (some { op := .row 10, fmt := .f32, is32 := false }) false [{ op := .row 4, fmt := .f4b, is32 := false }] true (some 6) none ∧
    Passes (vec 0 0 0) (some { op := .row 10, fmt := .f4b, is32 := false }) false [{ op := .row 0, fmt := .f32, is32 := false }] false (some 6) none ∧
    Passes (vec 0 0 0) (some (opd (.row 10) .f32)) false [opd (.row 0) .f32, opd (.row 16) .f32] true (some 6) none ∧
    Passes (vec 0 0 0) none false [opd (.row 8) .i32u, opd .vones .i32u] true (some 4) none ∧
    (Fmt.f32.is32 && Fmt.is32 .f4b) = false ∧ (Fmt.f8a.is32 && Fmt.f32.is32) = false := by
  refine ⟨passes_of ?_, passes_of ?_, passes_of ?_, passes_of ?_, passes_of ?_, ?_, ?_⟩ <;> decide +kernel
theorem witness_IntegerElements : Fmt.i8.isInt = true ∧ Fmt.i32u.isInt = true ∧ 255 < 2 ^ Fmt.i8.bits ∧
    2 ^ 32 - 1 < 2 ^ Fmt.i32u.bits := by decide +kernel
theorem codeNum_one : codeNum .f32 0x3F800000 = 1 := by
  norm_num [codeNum, magCode, fracBits, expBias, Fmt.bits, Nat.testBit, Nat.shiftRight_eq_div_pow]
/-- The greatest codes of each kind, a number that is not zero and one that is. -/
theorem witness_FloatElements : (∀ f ∈ [Fmt.f32, .bf16, .f8a, .f8b], f.isFloat = true ∧ topFinite f < 2 ^ f.bits ∧ defaultNaN f < 2 ^ f.bits) ∧
    finCode .f8a 0xFE ∧ infCode' .f8b 0xFC ∧ nanCode' .f8a 0xFF ∧ nanCode' .bf16 0x7FC0 ∧ infCode' .f32 0xFF800000 ∧ ¬nanCode' .f32 0xFF800000 ∧
    codeNum .f32 0x3F800000 ≠ 0 ∧ codeNum .f32 0 = 0 ∧ Fmt.f8a.isFloat = true ∧ Fmt.i8u.isInt = true ∧ 255 < 2 ^ Fmt.i8u.bits := by
  refine ⟨by decide +kernel, ?_, ?_, ?_, ?_, ?_, ?_, ?_, ?_, by decide, by decide, by decide⟩
  · unfold finCode; decide +kernel
  · unfold infCode'; decide +kernel
  · unfold nanCode' finCode infCode'; decide +kernel
  · unfold nanCode' finCode infCode'; decide +kernel
  · unfold infCode'; decide +kernel
  · unfold nanCode' finCode infCode'; decide +kernel
  · rw [codeNum_one]; norm_num
  · norm_num [codeNum, magCode, fracBits, expBias, Fmt.bits]
theorem witness_OperandElements : (63 : Nat) < 64 ∧ (vec 0 0 0).me.qin[(0 : Fin 4)] = { tag := 0, data := rowA } :: [] := by
  decide +kernel
theorem witness_VectorWrites : 0 < Fmt.f32.bits ∧ Fmt.f32.bits * (List.replicate 64 (some 1)).length ≤ 2048 := by decide +kernel
theorem witness_OperandTraps : let s := { vec 0 0 0 with ctxs := [(0, { (vec 0 0 0).me with tabCount := 60 })] }
    let bad := fun (r : Fin 64) => (s.winRow r.val).valid = false ∨ (s.winRow r.val).tag ≠ Fmt.f32.code
    Fmt.f32 ≠ .f4b ∧ s.me.wq = [] ∧ bad 59 ∧ bad 1 ∧ ¬bad 0 ∧ ¬bad 16 ∧ s.me.tabCount ≤ (60 : Fin 64).val ∧
      (59 : Fin 64).val < s.me.tabCount ∧ (16 : Fin 64).val < s.me.tabCount ∧ s.me.k[s.me.sel] = BitVec.allOnes 256 := by decide +kernel
theorem witness_VectorMoves :
    Passes (vec 0 0 0) (some (opd (.row 10) .f32)) false [{ opd (.row 0) .f32 with raw := true }, { opd (.row 16) .f32 with raw := true }] true (some 4) none ∧
    Passes (vec 1 0 0) (some (opd (.row 10) .f32)) false [opd (.row 0) .f32, opd (.row 16) .f32] true (some 4) none ∧
    Passes (vec 0 0 0) (some (opd (.row 10) .i8u)) false [] true (some 4) none ∧
    Passes (vec 0 63 0) (some (opd (.row 10) .f32)) false [opd (.row 0) .f32] true (some 4)
      (if countOf (vec 0 63 0) (.row 0) .f32 ≤ 63 then some 0xD0 else none) := by
  refine ⟨passes_of ?_, passes_of ?_, passes_of ?_, passes_of ?_⟩ <;> decide +kernel
theorem witness_VectorReductions :
    Passes (vec 0 0 0) (some (opd (.row 10) .f32)) false [opd (.row 0) .f32] true (some (4 + 2 * ceilLog2 64)) none ∧
    Passes (vec 0 0 0) (some (opd (.row 10) (redFmt .i8))) false [opd (.row 5) .i8] true (some (4 + 2 * ceilLog2 256)) none ∧
    Passes (vec 0 0 0) (some (opd (.row 10) .i32u)) false [opd (.row 1) .bf16, opd .vones .bf16] true (some (4 + 2 * ceilLog2 128)) none ∧
    Passes (vec 0 0 0) (some (opd (.row 10) .f32)) false [opd (.row 0) .f32] true (some (ceilDiv 64 16 + 4)) none ∧
    elemCount (vec 0 0 0) .f32 [.row 0] = 64 ∧ elemCount (vec 0 0 0) .i8 [.row 5] = 256 := by
  refine ⟨passes_of ?_, passes_of ?_, passes_of ?_, passes_of ?_, ?_, ?_⟩ <;> decide +kernel
theorem witness_VectorSearch : Fmt.i32.isInt = true ∧ [false, true].length = [1, 2].length ∧
    (∃ i, i < [1, 2].length ∧ [false, true].getD i false = true) ∧ Fmt.i32.intOf ([1, 2].getD 1 0) = Fmt.i32.intOf ([3, 2].getD 1 0) := by
  exact ⟨rfl, rfl, ⟨1, by decide, by decide⟩, by decide +kernel⟩
theorem witness_VectorPackAndRank : Fmt.ofCode ((vec 0 0x40 0).me.alo.setWidth 4) = some .f32 ∧
    Fmt.ofCode ((vec 0 0x11 0).me.alo.setWidth 4) = some .bf16 ∧ packPair .f8a .f32 = true ∧ unpackPair .f32 .bf16 = true ∧
    (bitsOf (vec 0 0x40 0).me.alo.toNat 5 4 + 1) * (2 * Fmt.f32.perRow) ≤ Fmt.f8a.perRow ∧
    (bitsOf (vec 0 0x11 0).me.alo.toNat 5 4 + 1) * Fmt.f32.perRow ≤ Fmt.bf16.perRow ∧
    Passes (vec 0 0x40 0) (some { op := .row 2, fmt := .f8a, is32 := false }) true
      [{ op := .row 0, fmt := .f32, is32 := false }, { op := .row 16, fmt := .f32, is32 := false }] true (some 4) none ∧
    Passes (vec 0 0x11 0) (some { op := .row 10, fmt := .f32, is32 := false }) false [{ op := .row 1, fmt := .bf16, is32 := false }] true (some 4) none ∧
    Passes (vec 0 0 0) (some (opd (.row 10) .i32u)) false [opd (.row 0) .f32] true none none := by
  refine ⟨?_, ?_, ?_, ?_, ?_, ?_, passes_of ?_, passes_of ?_, passes_of ?_⟩ <;> decide +kernel
/-- Request 5 is partition 0's and active. -/
def drawing : State :=
  { vec 0 0 5 with
    mem := Memory.putNat (Memory.putNat mapped (pdAddr 0 + 2) 2 6) (reqAddr 5 + 63) 1 1 }
theorem witness_VectorRandom : Passes (vec 1 0 0) (some (opd (.row 16) .f32)) true [] true none none ∧
    Passes drawing (some (opd (.row 10) .i32u)) false [] false none none ∧ (drawing.me.ahi).toNat < 4096 ∧
    drawing.reqIn drawing.myPart 5 = true ∧ drawing.reqState 5 = 1 ∧ drawing.reqRun 5 = 0 ∧ drawing.me.spec = false ∧
    base.reqIn base.myPart 5 = false := by
  refine ⟨passes_of ?_, passes_of ?_, ?_, ?_, ?_, ?_, ?_, ?_⟩ <;> decide +kernel

/-- R66: the bins of 0, of a value below 2^−14, of 2^−14, of 1.0, of a value above 2^14, and of a NaN. -/
theorem test_histBin : [0, 0x38800000 - 1, 0x38800000, 0x3F800000, 0x46FFFFFF, 0x7FC00000].map histBin = [0, 1, 2, 16, 30, 31] := by
  decide +kernel
/-! Engine words. -/

/-- Stream `k` of context 0 executes a word at position 40 with a parameter stack, a queue and commands started. -/
def atWord (k : Nat) (stack : List Word) (queue started : List Cmd) : State :=
  { unitAt { ctx0 with pinned := true, streams := vset ctx0.streams k (stream40 stack queue started) } with curK := k }
/-- A command to fill queues with. -/
def cmd0 : Cmd := { word := .wswap, off := 0, ops := [] }
/-- The stack that a word leaves, or the subcode of its fault. -/
def wordOut (i : Instr) (s : State) : List Word × Byte :=
  match exec i s with
  | .next t => (t.myStream.stack, (t.myStream.fault.map (·.sub)).getD 0)
  | _ => ([], 0)
/-- Table 9-12: EXT is (top << 12) | imm12 modulo 2^64. -/
theorem test_ext : wordOut (.ext 0xABC) (atWord 0 [0xFFF0000000000001] [] []) = ([0x0000000000001ABC], 0) := by decide +kernel
/-- Table 9-13: OVER is a b → a b a, with b on top. -/
theorem test_over : wordOut .over (atWord 0 [2, 1] [] []) = ([1, 2, 1], 0) := by decide +kernel
/-- Table 9-15: the ninth push is subcode 0x02, and an ADD on one entry 0x03. -/
theorem test_stack_faults : (wordOut (.lit 1) (atWord 0 (List.replicate 8 0) [] [])).2 = 0x02 ∧
    (wordOut .engineAdd (atWord 0 [1] [] [])).2 = 0x03 := by decide +kernel
/-- R329: LOOP with counter 2 goes back its distance with counter 1, and with counter 1 falls through. -/
theorem test_loop : (match exec (.loop 40) (atWord 0 [2] [] []) with | .next t => (t.myStream.pos, t.myStream.stack) | _ => (0, [])) = (0, [1]) ∧
    (match exec (.loop 40) (atWord 0 [1] [] []) with | .next t => (t.myStream.pos, t.myStream.stack) | _ => (0, [])) = (41, []) := by
  decide +kernel
/-- Table 9-15: LOOP that reaches before the section start is subcode 0x05. -/
theorem test_loop_bound : (wordOut (.loop 41) (atWord 0 [2] [] [])).2 = 0x05 := by decide +kernel
/-- Table 9-14: MMA pops four operands, the first pushed being the first. -/
theorem test_mma_queued : (match exec (.mma true) (atWord 0 [0, 1, 64, 7] [] []) with
    | .next t => t.myStream.queue.map fun d => (d.word, d.ops) | _ => []) = [(.mma true, [7, 64, 1, 0])] := by decide +kernel
/-- R236: a copy word in the matrix stream is subcode 0x04. -/
theorem test_wrong_engine : (wordOut .get (atWord 0 [1, 2, 3] [] [])).2 = 0x04 := by decide +kernel

theorem witness_StackWords : (atWord 5 [] [] []).curK < 6 ∧ (atWord 0 (List.replicate 7 0) [] []).myStream.stack.length < 8 ∧
    8 ≤ (atWord 0 (List.replicate 8 0) [] []).myStream.stack.length ∧ (atWord 0 [3] [] []).myStream.stack = 3 :: [] ∧
    (List.replicate 6 (0 : Word)).length < 7 ∧ 7 ≤ (List.replicate 7 (0 : Word)).length ∧
    (atWord 0 [2, 1] [] []).myStream.stack = 2 :: 1 :: [] ∧ (List.replicate 5 (0 : Word)).length < 6 ∧
    (atWord 0 [1] [] []).myStream.stack.length < 2 := by decide +kernel
/-- Flag 1 of set 0 goes from the copy stream to the matrix stream. -/
def flagged (n : Byte) (s : State) : State := s.modMe fun x => { x with flags := vset x.flags 1 n }
theorem witness_FlowWords : let s := { flagged 255 (atWord 1 [] [] []) with mem := forkImage }
    let q := { flagged 3 (atWord 0 [1, 7] [] []) with mem := forkImage }
    s.curK < 6 ∧ s.me.running = some unit0 ∧ s.syncOf 0 0x20000 0 1 = some 0x0000030001000001 ∧
      bitsOf 0x0000030001000001 26 24 = s.curK ∧ bitsOf 0x0000030001000001 34 32 ≠ s.curK ∧
      bitsOf 0x0000030001000001 34 32 = q.curK ∧ bitsOf 0x0000030001000001 26 24 ≠ q.curK ∧ s.myStream.queue = [] ∧ s.myStream.started = [] ∧
      (atWord 1 [] [cmd0] []).myStream.queue ≠ [] ∧ (vget 0 s.me.flags 1).toNat = 255 ∧ (vget 0 q.me.flags 1).toNat ≠ 0 ∧
      (vget 0 (flagged 0 q).me.flags 1).toNat = 0 ∧ (vget 0 (flagged 254 s).me.flags 1).toNat < 255 ∧ (40 : BitVec 8).toNat ≤ q.myStream.pos ∧
      q.myStream.stack = 1 :: [7] ∧ (1 : Word).toNat ≤ 1 ∧ 1 < (2 : Word).toNat := by decide +kernel
theorem witness_LaunchWordFaults : (atWord 1 [] [] []).curK ≠ 0 ∧ (atWord 0 [] [] []).curK ≠ 1 ∧ (atWord 1 [] [] []).curK < 2 ∧
    (atWord 0 [1, 2, 3] [] []).curK = 0 ∧ (atWord 0 [1, 2, 3] [] []).myStream.stack.length < 4 ∧ (atWord 1 [] [] []).curK = 1 ∧
    (atWord 1 [] [] []).myStream.stack.length < 1 ∧ 2 ≤ (atWord 2 [] [] []).curK ∧ (atWord 2 [] [] []).myStream.stack.length < 1 := by
  decide +kernel
/-- The hypotheses of Enters: the operands on top of the stack, with room in the queue or without. -/
theorem witness_Enters : (atWord 0 [4, 3, 2, 1, 9] [] []).myStream.stack = [1, 2, 3, 4].reverse ++ [9] ∧
    (atWord 0 [] [cmd0, cmd0, cmd0] []).myStream.queue.length < 4 ∧ 4 ≤ (atWord 0 [] [cmd0, cmd0, cmd0, cmd0] []).myStream.queue.length := by
  decide +kernel
/-- Boundary operands of the matrix words: the last rectangle, the last row counts, the greatest WLOAD offsets of each format. -/
theorem witness_MatrixWords : (atWord 0 [] [] []).curK = 0 ∧ (255 : Word).toNat < 256 ∧ (onlyBits (0x5FFE000 : Word) 0xFFFF07FFFFFF = true ∧
    opBits (0x5FFE000 : Word) 47 32 = 0 ∧ opBits (0x5FFE000 : Word) 26 0 % 64 = 0 ∧ opBits (0x5FFDFC0 : Word) 26 0 + tileBytes 1 < 96 * 2 ^ 20) ∧
    (onlyBits (0x7FFF00000000 : Word) 0xFFFF07FFFFFF = true ∧ opBits (0x7FFF00000000 : Word) 47 32 < 32768) ∧
    (onlyBits (0x13F : Word) 0x13F = true) ∧ (onlyBits (0x3F08 : Word) 0x3F0F = true ∧ (0x3F08 : Word).toNat % 16 = 8) ∧
    (63 : Word).getLsbD 8 = false := by decide +kernel
theorem witness_RequestWords : isWindow 0x1FF00000000FFC0 = true ∧ 0x1FF00000000FFC0 % 64 = 0 ∧ onlyBits (0x13F : Word) 0x13F = true ∧
    (onlyBits (0x40FFFF : Word) 0x7FFFFF = true ∧ 1 ≤ opBits (0x40FFFF : Word) 22 16 ∧ opBits (0x40FFFF : Word) 22 16 ≤ 64) ∧
    (onlyBits (0x40FFFFFFFFFF : Word) 0xFFFFFFFFFFFF = true ∧ 1 ≤ opBits (0x40FFFFFFFFFF : Word) 47 40 ∧
      opBits (0x40FFFFFFFFFF : Word) 47 40 ≤ 64) ∧ ((0x13F : Word).getLsbD 8 = true) ∧ onlyBits (0x770FFF : Word) 0x770FFF = true := by
  decide +kernel
theorem witness_CopyWords : (atWord 1 [] [] []).curK = 1 ∧ isWindow 0x1FF000000000004 = true ∧ 0x1FF000000000004 % 4 = 0 ∧
    (onlyBits (0x1FFFF01FFFF03 : Word) 0x1FFFF01FFFF0F = true ∧ opBits (0x1FFFF01FFFF03 : Word) 3 0 < 4 ∧
      opBits (0x1FFFF01FFFF03 : Word) 48 32 ≤ opBits (0x1FFFF01FFFF03 : Word) 24 8) ∧ onlyBits (0x7FFF : Word) 0x7FFF = true := by
  decide +kernel
theorem witness_AccessWords : 2 ≤ (atWord 2 [] [] []).curK ∧ (atWord 5 [] [] []).curK < 6 ∧
    (opBits (0x81FFFFFFFFFFFFC0 : Word) 59 57 = 0 ∧ opBits (0x81FFFFFFFFFFFFC0 : Word) 63 60 < 9 ∧
      opBits (0x81FFFFFFFFFFFFC0 : Word) 56 0 % 64 = 0) ∧ (0x100000000 : Word).toNat ≤ 2 ^ 32 ∧ (0x1000000 : Word).toNat ≤ 2 ^ 24 := by
  decide +kernel

/-! What a step runs. -/

/-- A step in which a placed word or bundle runs from reset (log 8): LIT 5 pushes 5 in the matrix stream. -/
theorem test_step_word : (match step (State.reset.withFetchWord 16 0x0005) with
    | .next t => ((t.ctx 0).stream 0).stack | _ => []) = [5] := by decide +kernel
/-- JMP with displacement 2 from pc 0 goes to 32 (R249: the target is PC + 16 × off20). -/
theorem test_step_syllable : (match step (State.reset.withFetchWord 32 0x05000020) with
    | .next t => (t.ctx 0).pc | _ => 0) = 32 := by decide +kernel
/-- R223: an all-zero bundle advances the pc by 16. -/
theorem test_step_bundle : (match step (State.reset.withFetchWord 128 0) with
    | .next t => ((t.ctx 0).pc, (t.ctx 0).cycle) | _ => (0, 0)) = (16, 1) := by decide +kernel

theorem witness_ReservedEncodings : (0x87000000 : BitVec 32).toNat / 2 ^ 24 = 0x87 ∧ (0xF1000000 : BitVec 32).toNat / 2 ^ 24 = 0xF1 ∧
    (15 : BitVec 32).toNat / 2 ^ 24 = 0 ∧ (15 : BitVec 32).toNat % 16 = (15 : BitVec 32).toNat ∧
    (16 : BitVec 32).toNat % 16 ≠ (16 : BitVec 32).toNat ∧ (0xE500 : BitVec 16).toNat / 256 = 0xE5 := by decide +kernel
/-- Words at the ends of the reserved values: scope 7, CANCEL level 5, widths 0 and 65, formats 9 and F4B, operand codes. -/
theorem witness_ReservedValues : let w := fun (n : Nat) => BitVec.ofNat 32 n
    ((w 0x30000070).toNat / 16 % 8 = 7 ∧ (w 0x49000070).toNat / 2 ^ 24 = 0x49) ∧ 4 < (w 0x16000050).toNat / 16 % 1024 ∧
    (w 0x32000000).toNat % 128 = 0 ∧ 64 < (w 0x33000041).toNat % 128 ∧ 9 ≤ (w 0x19000000).toNat / 2 ^ 24 % 16 ∧
    (w 0x14000000).toNat / 2 ^ 24 % 16 = 4 ∧ 9 ≤ (w 0xD0000009).toNat % 256 ∧ (w 0xF1000004).toNat % 256 = 4 ∧
    (w 0x63000000).toNat / 2 ^ 24 / 16 = 6 ∧ (w 0x63000000).toNat / 2 ^ 24 % 16 ∉ [0, 7, 8] ∧
    (w 0x10C00000).toNat / 2 ^ 16 % 256 = 0xC0 ∧ (w 0x1000C400).toNat / 2 ^ 8 % 256 = 0xC4 ∧ (w 0x100000FF).toNat % 256 = 0xFF ∧
    (w 0xE000CF00).toNat / 2 ^ 8 % 256 ≠ 0xD0 ∧ (w 0xE000D200).toNat / 2 ^ 8 % 256 ≠ 0xD1 := by decide +kernel
theorem witness_DecodeEncodeSyllable : (Instr.brNez 31 0x4000).formOk = true ∧
    encodeSyllable (.brNez 31 0x4000) = some 0x02FC0000 ∧ slotOf (.brNez 31 0x4000) = some .ctl := by decide +kernel
theorem witness_EncodeDecodeSyllable : decodeSlot .ctl 0x02FC000F = some (.brNez 31 0x4000) := by decide +kernel
theorem witness_DecodeEncodeWord : decodeWord 0x9A00 = none ∧ decodeWord 0x98FF = some (.loop 255) := by decide +kernel
/-- Reset with an all-zero bundle placed for context 0. -/
def zeroAt : State := State.reset.withFetchWord 128 0
/-- Context 0's turn, with the agenda taken off. -/
def turnOf (s : State) : State := { s with agenda := [], cur := 0, npc := none, limm := none, mark := .ok }
/-- A fetch from an address, with so many pages of the cluster waiting for a walk. -/
def fetchFrom (va : Word) (pages : Nat) : State :=
  turnOf { zeroAt.modCtx 0 fun x => { x with pc := va } with
    clusters := [(0, { waiting := (List.range pages).map fun i => (1, i, false) })] }
theorem witness_StepRunsBundle : zeroAt.agenda = [.bundle 0] ∧ zeroAt.booted = true ∧ { zeroAt with booted := false }.agenda = [.bundle 0] ∧
    (turnOf zeroAt).mayIssue 0 = true ∧ (turnOf { zeroAt with ctxs := [] }).mayIssue 0 = false ∧ (turnOf zeroAt).me.barLost = false ∧
    (match (turnOf zeroAt).fetchBundle 0 with | .bits raw _ => raw == 0 | _ => false) = true ∧
    (match (fetchFrom (2 ^ 50) 0).fetchBundle 0 with | .fault e => e == 9 | _ => false) = true ∧
    (fetchFrom (2 ^ 50) 32).fetchBundle 0 = .wait ∧
    (let s := turnOf (zeroAt.modCtx 0 fun x => { x with barLost := true })
     s.mayIssue 0 = true ∧ s.me.barLost = true ∧ s.me.barOn = none) := by decide +kernel
/-- A bundle with one control syllable, at a state with no LIMM. -/
def lone (i : Instr) : Bundle := { ctl := some i, int := some .nop, var := some .nop, vpe := some .nop, stall := 15 }
/-- How an instruction's next state is marked. -/
def markOf (i : Instr) (s : State) : Option Mark := match exec i s with | .next t => some t.mark | _ => none
/-- A load in flight owes g31 its value. -/
def owed31 : State := on { ctx0 with cycle := 5, wq := [{ eff := .g 31 0, issued := 4, due := none, load := true }] }
/-- An older write to g31 takes effect in cycle 20. -/
def late31 : State := on { ctx0 with cycle := 5, wq := [{ eff := .g 31 0, issued := 4, due := some 20 }] }
/-- A syllable that issues, one that stalls on the pending g31, one that traps, one that holds, one that ends
its unit, and one whose trap is taken after the bundle; each may be that of an iteration, and single-stepped. -/
theorem witness_BundleRunsSyllable : base.mark = .ok ∧ (∀ k, illegalAt (lone .nop) k = false) ∧ markOf .nop base = some .ok ∧
    base.me.spec = false ∧ (on { ctx0 with spec := true, ctl := 8 }).me.spec = true ∧ (on { ctx0 with spec := true, ctl := 8 }).me.stepping = true ∧
    markOf .nop (on { ctx0 with spec := true, ctl := 8 }) = some .ok ∧
    (∀ k, illegalAt (lone (.jmpi 31)) k = false) ∧ markOf (.jmpi 31) owed31 = some .stall ∧
    (∀ k, illegalAt (lone (.call 0)) k = false) ∧ markOf (.call 0) late31 = some (.stallTo 20) ∧
    (∀ k, illegalAt (lone (.jmpi 1)) k = false) ∧ markOf (.jmpi 1) (two 1 0) = some (.trap (trapOf 0x08 1 0)) ∧
    (∀ k, illegalAt (lone (.wait 1)) k = false) ∧ markOf (.wait 1) (two 1 0) = some .hold ∧
    (∀ k, illegalAt (lone .halt) k = false) ∧ markOf .halt (unitAt ctx0) = some .gone ∧
    (∀ k, illegalAt (lone (.trap 0)) k = false) ∧
    (match exec (.trap 0) base with | .next t => (match t.mark with | .trap tr => tr.retired | _ => false) | _ => false) = true := by
  decide +kernel
theorem witness_ZeroBundle : base.mark = .ok ∧ base.npc = none ∧ base.limm = none ∧ base.me.ctl.getLsbD 3 = false ∧ base.me.wq = [] ∧
    base.me.sps = [] := by decide +kernel
theorem witness_IllegalBundle : base.mark = .ok ∧ (decodeBundle 0x87000000).ctl = none ∧
    (decodeBundle (1 <<< 95)).var ≠ some .nop ∧ (decodeBundle (0xF1#32 ++ 0#24 ++ 0#72)).vpe = none ∧
    (decodeBundle (0xF1#32 ++ 0#24 ++ 0#72)).var = some .nop ∧ (decodeBundle (0xF9#64 ++ 0#24 ++ 0#40)).ctl = some .nop := by
  decide +kernel
/-- A stream with a word fetched, LIT 5 or a reserved one. -/
def fetched (w : BitVec 16) : State := State.reset.withFetchWord 16 w.toNat
/-- A stream whose words stand at an address, none of them fetched. -/
def unfetched (va len pages : Nat) : State :=
  { on { ctx0 with streams := vset ctx0.streams 0 { forked := true, base := va, len := len } } with
    agenda := [.word 0 0], booted := true, cur := 0, clusters := [(0, { waiting := (List.range pages).map fun i => (1, i, false) })] }
theorem witness_StepRunsWordOrEvent : (fetched 5).agenda = [.word 0 0] ∧ ((fetched 5).ctx 0).streamRuns 0 = true ∧ (fetched 5).booted = true ∧
    (((fetched 5).ctx 0).stream 0).fetch = [5] ∧ decodeWord 5 = some (.lit 5) ∧ (((fetched 0x9F00).ctx 0).stream 0).fetch = [0x9F00] ∧
    (fetched 0x9F00).agenda = [.word 0 0] ∧ ((fetched 0x9F00).ctx 0).streamRuns 0 = true ∧ decodeWord 0x9F00 = none ∧
    (unfetched 0 0 0).agenda = [.word 0 0] ∧ ((unfetched 0 0 0).ctx 0).streamRuns 0 = true ∧
    (match (unfetched 0 0 0).fillFetch 0 0 with | some (.error e) => e == 1 | _ => false) = true ∧
    ((unfetched 0x40000 64 32).ctx 0).streamRuns 0 = true ∧
    ((unfetched 0x40000 64 32).fillFetch 0 0).isNone = true ∧
    ({ fetched 5 with ctxs := [] }.ctx 0).streamRuns 0 = false ∧
    ({ base with agenda := [.event .timebaseTick], booted := true } : State).agenda = [.event .timebaseTick] ∧
    ({ base with agenda := [.event .timebaseTick] } : State).booted = false ∧
    ({ base with agenda := [.event .packageReset] } : State).agenda = [.event .packageReset] := by decide +kernel
theorem witness_StepKeepsMemOk : MemOk State.reset ∧ (match step zeroAt with | .next _ => true | _ => false) = true := by
  refine ⟨?_, ?_⟩
  · unfold MemOk; decide +kernel
  · decide +kernel
/-! Events of contexts, units and engines. -/

/-- R73: a scoreboarded result arrives in its register. -/
theorem test_scoreboardWrite : (match exec (.scoreboardWrite 0 0) inFlight with
    | .next t => ((t.ctx 0).reg 1, (t.ctx 0).wq.length) | _ => (0, 9)) = (7, 0) := by decide +kernel
/-- R126: an uncached store is performed at its home. -/
theorem test_storePerformed : (match exec (.storePerformed 0) inFlight with
    | .next t => t.mem.nat (2 ^ 39 + 8) 1 | _ => 0) = 5 := by decide +kernel
theorem witness_ContextEvents : (busy31.ctx 0).wq = [{ eff := .g 31 0, issued := 4, due := some 6 }] ∧ (busy31.ctx 0).sps = [] ∧
    (inFlight.ctx 0).wq = [] ++ { eff := .g 1 7, issued := 4, due := none, load := true } :: [] ∧ (busy31.ctx 0).sq = [] ∧
    (inFlight.ctx 0).sq = { kind := .store, pa := 2 ^ 39 + 8, size := 1, val := 5, uncached := true, key := 0 } :: [] ∧
    SqKind.store.stores = true ∧ inFlight.farRoom (2 ^ 39 + 8) = true ∧
    ({ inFlight with linkq := List.replicate 32 (1, .requests) } : State).farRoom (0x400000000000 + 2 ^ 40) = false ∧
    Effect.meets (.g 1 0) (.g 1 7) = true ∧ Effect.meets (.g 2 0) (.g 1 7) = false := by decide +kernel

/-- A context's slot has a state, launch 1 and the unit's image. -/
def slotted (c st : Nat) (s : State) : State :=
  ((s.tput (slotAddr c + 15) 1 st).tput (slotAddr c + 8) 4 1).tput (slotAddr c) 8 0x20000
/-- A unit held at a CNT.WAIT on DONE 0 of counter 0, which stands at its pc. -/
def heldAt : State :=
  { unitAt ctx0 with mem := poke image 0x10017 1 3 }.placeBundle (((encodeSyllable (.cntWait 0 0)).getD 0).setWidth 128)
/-- A packet of one flit to context 0 at stop 0, from partition 0. -/
def packet : Packet := { hdr := 0, payload := [], part := 0, dstStop := 0, dstCtx := 0 }
/-- A ring with the packet at a stop, a ready entry on the spill list, and context 0's slot in a state. -/
def ringWith (stop st : Nat) : State :=
  let e : Ready := { recVa := 0x10000, part := 0, launch := 1, pri := 0, time := 0, home := 7 }
  let f : Flight := { pkt := packet, src := stop, hops := [0] }
  { slotted 0 st (unitAt ctx0) with clusters := [(0, { flights := [f], spill := [e] })] }
/-- The unit's record is suspended on nothing and no context runs it. -/
def asleep : State := { unitAt {} with mem := poke (poke image 0x10000 8 0x21000) 0x10010 8 0x0300000000000001 }
/-- R162: a packet on its way goes to the next stop of the ring. -/
theorem test_messageHop : (match exec (.messageDelivery 0 0) (ringWith 3 1) with
    | .next t => ((t.cluster 0).flights.map (·.hops)) | _ => []) = [[1]] := by decide +kernel
/-- R32: a suspended record whose condition holds becomes ready. -/
theorem test_waitCondition : (match exec (.waitConditionSatisfied 0) asleep with
    | .next t => (t.recState 0 0x10000, (t.core 0).ready.length) | _ => (0, 0)) = (1, 1) := by decide +kernel
/-- The record waits on DONE 1 of counter 7, which stands at 0; its wait was satisfied earlier, while no queue had room, or not. -/
def waiting1 (met : Bool) : State :=
  let s := { unitAt {} with mem := poke (poke image 0x10000 8 0x21000) 0x10010 8 0x0300000000000001 }
  { s with mem := poke s.mem 0x10018 8 (2 ^ 56 + 7 * 2 ^ 32 + 1),
           parts := s.parts.map fun e => (e.1, { e.2 with kept := if met then [(0x10000, { met := true })] else [] }) }
theorem witness_FlowEvents : (base.ctx 0).running.isSome = true ∧ bundleCause 0x19 = true ∧ bundleCause 0x17 = false ∧
    (heldAt.ctx 0).running = some unit0 ∧ heldAt.mayIssue 0 = true ∧ heldAt.recState 0 0x10000 = 3 ∧ heldAt.holdOver 0 = true ∧
    (∀ d ∈ [0, 3], ((ringWith d 1).cluster 0).flights[0]? = some { pkt := packet, src := d, hops := [0] }) ∧
    (Flight.mk packet 0 [0] 0).dist = 0 ∧ (Flight.mk packet 3 [0] 0).dist = 5 ∧
    ((ringWith 0 1).cluster 0).behind 0 0 = false ∧
    (let ahead : Flight := { pkt := packet, src := 7, hops := [1], entered := 0 }
     ({ flights := [ahead, { pkt := packet, src := 7, hops := [1], entered := 1 }] } : Cluster).behind 1 1 = true) ∧
    (ringWith 0 0).msgBound 0 packet = false ∧ (ringWith 0 1).msgBound 0 packet = true ∧ ((ringWith 0 1).ctx 0).msgRoom packet = true ∧
    ({ ringWith 0 1 with ctxs := [(0, { msgq := List.replicate 16 packet })] }.ctx 0).msgRoom packet = false ∧
    (((ringWith 3 1).cluster 0).advance 0).isSome = true ∧ (((ringWith 0 1).cluster 0).advance 0).isSome = false := by decide +kernel
def entry7 : Ready := { recVa := 0x10000, part := 0, launch := 1, pri := 0, time := 0, home := 7 }
/-- Cluster 0 with every ready queue full or empty, so many entries of its spill list and so many records that wait for one. -/
def spilling (full : Bool) (spill late : Nat) : State :=
  { ringWith 0 1 with
    cores := (List.range 8).map fun i => (i, { ready := if full then List.replicate 64 entry7 else [] }),
    clusters := [(0, { spill := List.replicate spill entry7, late := List.replicate late entry7 })] }
theorem witness_FlowEvents_queues :
    (let s := spilling false 1 0
     (s.cluster 0).spill = [] ++ entry7 :: [] ∧ ∃ m ∈ s.queueRing entry7.launch.toNat entry7.home, (s.core m).ready.length < 64) ∧
    (∀ n ∈ [0, 1], (let s := spilling true 1 n
      ((s.cluster 0).late.length = n) ∧
        ∀ o ∈ (s.cluster 0).spill, ¬ ∃ m ∈ s.queueRing o.launch.toNat o.home, (s.core m).ready.length < 64)) ∧
    ((spilling true 1 1).modCluster 0 fun y => { y with late := [] }).queueRoom 1 7 = true ∧
    ((spilling true 512 1).modCluster 0 fun y => { y with late := [] }).queueRoom 1 7 = false ∧
    ((spilling true 512 1).cluster 0).late.length = 1 ∧
    asleep.suspended[0]? = some (0, 0x10000) ∧
    (match asleep.readRec 0 0x10000 with
      | some r => asleep.condHolds 0 0x10000 none r.wait && asleep.queueRoom r.launch 0
      | none => false) = true ∧
    (spilling true 512 0).queueRoom 1 7 = false ∧
    (∀ b, (waiting1 b).suspended[0]? = some (0, 0x10000) ∧
      (assocGet ({} : Kept) ((waiting1 b).part 0).kept 0x10000).met = b ∧
      (match (waiting1 b).readRec 0 0x10000 with | some r => (waiting1 b).condHolds 0 0x10000 none r.wait | none => true) = false) ∧
    asleep.barBound 1 0 0 = true ∧ asleep.barBound 1 (3 * 2 ^ 56) 0 = false := by
  decide +kernel

/-- Launch 1 is bound and no unit of it is left; job 5 of partition 0 was opened with it, and job 6 with one that is complete. -/
def finished : State :=
  { unitAt {} with
    parts := [(0, { isOpen := true, counters := [(7, { status := 1 }), (6, { status := 1, kind := 3 })] })],
    launches := [(1, launch1), (2, { launch1 with complete := true })],
    jobs := [(6, { launch := 2, endw := 64, isOpen := true })] }
/-- R36: a completed launch closes its counter with status 2. -/
theorem test_launchCompletion : (match exec (.launchCompletion 1) finished with
    | .next t => (t.counter 0 7).status | _ => 0) = 2 := by decide +kernel
theorem witness_CompletionEvents : finished.launchDone 1 = true ∧ (finished.part (finished.launch 1).part).runs = [] ∧
    (finished.launch 1).node = none ∧ finished.nodeWait = [] ∧ (unitAt ctx0).launchDone 1 = false ∧ (finished.job 0 6).isOpen = true ∧
    (finished.launch (finished.job 0 6).launch.toNat).complete = true ∧ (finished.counter 0 6).live = 0 ∧ (finished.job 0 6).endw ≠ 0 ∧
    (finished.counter 0 7).encl = none := by decide +kernel
/-- Counter 7 with job counter 6 around it. -/
theorem witness_CompletionEvents_nested :
    let s : State := { finished with parts := [(0, { isOpen := true, counters := [(7, { status := 1, encl := some 6 }), (6, { status := 1, kind := 3, live := 1 })] })] }
    s.launchDone 1 = true ∧ (s.part 0).runs = [] ∧ (s.counter (s.launch 1).part (s.launch 1).fields.cnt).encl = some 6 ∧
      6 ≠ (s.launch 1).fields.cnt := by decide +kernel
/-- Launch 1 has an open run, is node 0 of graph 9, and a launch waits inside the dealer, where the launch queue has room or is full. -/
theorem witness_CompletionEvents_more :
    let s : State := { finished with
      parts := [(0, { isOpen := true, counters := [(7, { status := 1 })], runs := [(1, { launch := 1, isOpen := true })] })],
      launches := [(1, { launch1 with node := some (9, 0) })], nodeWait := [.launch 2] }
    s.launchDone 1 = true ∧ (∃ e ∈ (s.part 0).runs, e.2.isOpen = true ∧ e.2.launch.toNat = 1) ∧ (s.launch 1).node = some (9, 0) ∧
      (s.closeRunsOf 0 1).nodeWait = [.launch 2] ∧ (s.nodeWait.filter (· != .launch 1)) = [.launch 2] ∧
      (s.launchq.filter fun e => e.1 != 1).length < 4096 ∧
      4096 ≤ ((List.replicate 4096 ((3 : Nat), (0 : Nat))).filter fun e => e.1 != 1).length := by decide +kernel

/-- Graph 9 of partition 0 has one ready copy node of eight bytes, from 0x20000 or, in the second, from the scratchpad. -/
def copying : State :=
  { unitAt {} with graphs := [(9, { isOpen := true, nodes := [{ copy := true, a := 0x20000, b := 0x60000, bytes := 8, st := 1 }] }),
    (8, { isOpen := true, nodes := [{ copy := true, a := 0x1FF000000000000, b := 0x60000, bytes := 8, st := 1 }] })] }
/-- Launch 1 waits for more contexts; partition 0 owns core 0. -/
def queued : State :=
  { unitAt {} with
    launches := [(1, { launch1 with fields := { launch1.fields with maxctx := 1 } }),
      (2, { part := 0, fields := { spbytes := 1 } })],
    launchq := [(1, 0)], parts := [(0, { isOpen := true, cores := 1 })] }
/-- The unit's record is ready on core 0's queue, and context 0's slot has a state. -/
def readyAt (st : Nat) : State :=
  let e : Ready := { recVa := 0x10000, part := 0, launch := 1, pri := 0, time := 0, home := 0 }
  slotted 0 st { unitAt {} with
    mem := poke (poke (poke image 0x10000 8 0x21000) 0x10010 8 0x0100000000000001) 0x10020 8 99, cores := [(0, { ready := [e] })] }
/-- R34: the unit picked up has its arguments in g1 and g2 and only they are valid. -/
theorem test_pickUp : (match exec (.pickUp 0) (readyAt 1) with
    | .next t => ((t.ctx 0).pc, (t.ctx 0).reg 1, (t.ctx 0).valid, t.recState 0 0x10000) | _ => (0, 0, 0, 0)) = (0x21000, 99, 6, 2) := by
  decide +kernel
theorem witness_BindEvents_copy : (copying.graph 0 9).isOpen = true ∧ (match (copying.graph 0 9).nodes[0]?, (copying.graph 0 8).nodes[0]? with
      | some n, some m => n.copy && n.st == 1 && m.copy && m.st == 1
        && (match copying.copyRange 0 n.a n.b n.bytes with | .ok _ => true | _ => false)
        && (match copying.copyRange 0 m.a m.b m.bytes with | .ok _ => false | _ => true)
      | _, _ => false) = true ∧ (copying.graph 0 8).isOpen = true := by decide +kernel
theorem witness_BindEvents : queued.unheld 1 = true ∧ queued.nextInQueue 1 = true ∧
    (match queued.firstChecks 1 with | .ok t => (t.tryBind 1).isSome | _ => false) = true ∧
    (match queued.firstChecks 2 with | .ok _ => false | _ => true) = true ∧
    { queued with launchq := [(2, 0)] }.unheld 2 = true ∧ { queued with launchq := [(2, 0)] }.nextInQueue 2 = true := by decide +kernel
theorem witness_BindEvents_slots : (readyAt 2).drainOf 0 = 0 ∧ ((readyAt 2).ctx 0).running = none ∧ (readyAt 2).slotState 0 = 2 ∧
    (readyAt 3).drainOf 0 = 0 ∧ ((readyAt 3).ctx 0).running = none ∧ (readyAt 3).slotState 0 = 3 := by decide +kernel
theorem witness_PickUpEvents : ((readyAt 1).ctx 0).running = none ∧ (readyAt 1).slotState 0 = 1 ∧
    (match (readyAt 1).chooseRecord 0 ((readyAt 1).slotLaunch 0) with
      | some (n, e) =>
        let q := (readyAt 1).modCore n fun x => { x with ready := x.ready.erase e }
        match q.readRec e.part e.recVa with
        | some r => !q.recBad e.part r (q.slotImage 0) && r.state == 1 && r.frame % 2 == 0 &&
          ((q.setRecState e.part e.recVa 2).yieldEntry e.part ((q.setRecState e.part e.recVa 2).slotImage 0) r.yield).2.1 == 0xFFFFFFFF
        | none => false
      | none => false) = true := by decide +kernel
/-- Its record has yield index 1, whose entry has a restore sequence at 0x20, or a pre-emption block at an address. -/
def returning (yield frame : Nat) : State :=
  let s := readyAt 1
  { s with mem := poke (poke (imgPut s.mem [(40, 4, 2), (0x410, 8, 0x20FFFFFFFF)]) 0x10014 2 yield) 0x10008 8 frame }
/-- What context 0 picks up, with the restore offset of its yield index, or all ones. -/
def picked (s : State) : Option (Rec × Nat) :=
  match s.chooseRecord 0 (s.slotLaunch 0) with
  | some (n, e) =>
    let q := (s.modCore n fun x => { x with ready := x.ready.erase e }).bump
    match q.readRec e.part e.recVa with
    | some r => if q.recBad e.part r (q.slotImage 0) || r.state != 1 then none
      else some (r, ((q.setRecState e.part e.recVa 2).yieldEntry e.part ((q.setRecState e.part e.recVa 2).slotImage 0) r.yield).2.1)
    | none => none
  | none => none
/-- Its save sequence was interrupted, and goes on when it is picked up. -/
theorem witness_PickUpEvents_saves :
    let s := returning 0 0x40001
    let q : State := { s with parts := s.parts.map fun e => (e.1, { e.2 with kept := [(0x10000, { seq := .save 0 0 0x20 })] }) }
    (picked q).map (·.1.frame % 2) = some 1 ∧ (assocGet ({} : Kept) (q.part 0).kept 0x10000).seq = .save 0 0 0x20 := by decide +kernel
theorem witness_PickUpEvents_more : (picked (returning 1 0)).map (·.2) = some 0x20 ∧
    (picked (returning 0 0x40001)).map (·.1.frame % 2) = some 1 ∧
    (match (returning 0 0x40001).vRead 0 true 0x40000 35840 with | .ok _ => true | .error _ => false) = true ∧
    (picked (returning 0 (2 ^ 30 - 63))).map (·.1.frame % 2) = some 1 ∧
    (match (returning 0 0).vRead 0 true (2 ^ 30 - 64) 35840 with | .ok _ => false | .error _ => true) = true := by decide +kernel

/-- The unit of context 0 is called for by launch 2 of priority 5, or is being pre-empted or cancelled since time 0. -/
def outgoing (pre can : Option Nat) (now : Word) : State :=
  let s := slotted 0 1 (unitAt { ctx0 with preempt := pre, cancel := can })
  { s with timebase := now, launchq := [(2, 5)], launches := [(1, launch1), (2, { launch1 with bound := false })] }
/-- R331: the lease granted has the limit of LEASE.MAX. -/
theorem test_leaseGrant : (match exec (.leaseGrant 0 3) (leasing false) with
    | .next t => ((t.ctx 0).lease, t.leaseHeld 0 3) | _ => (.none, false)) = (.held 3 16 16, true) := by decide +kernel
/-- A record that no context runs asks for rectangle 3. -/
def asking3 : State :=
  { leasing false with parts := [(0, { isOpen := true, cols := 1, reqs := [{ asked3 with ctx := none, recVa := 0x10080 }] })] }
theorem witness_SwitchEvents : (leasing false).grantable 0 3 = true ∧
    (match (leasing false).nextReq 0 3 with | some q => q.ctx == some 0 | none => false) = true ∧ (leasing false).grantable 0 4 = false ∧
    ((leasing true).part 0).parked.find? (fun k => k.rect == 3) = some parked3 ∧
    (leasing true).leaseWait 0 3 = true ∧ asking3.grantable 0 3 = true ∧
    (match asking3.nextReq 0 3 with
      | some q => q.ctx.isNone && asking3.recState 0 q.recVa != 3 && ((asking3.part 0).reqs.erase q).isEmpty
      | none => false) = true := by decide +kernel
theorem witness_SwitchEvents_units : ((outgoing none none 0).ctx 0).running = some unit0 ∧ ((outgoing none none 0).ctx 0).preempt = none ∧
    ((outgoing none none 0).ctx 0).cancel = none ∧ (outgoing none none 0).calledFor 0 = true ∧
    ((outgoing (some 0) none 0).ctx 0).preempt = some 0 ∧ ((outgoing (some 0) none 0).ctx 0).intrap = false ∧
    ((((outgoing (some 0) none 0).stopRepairs 0).ctx 0).streams.toList.all fun k => k.started.isEmpty) = true ∧
    ((outgoing none (some 0) 1000000).ctx 0).cancel = some 0 ∧ 0 + 1000000 ≤ (outgoing none (some 0) 1000000).now ∧
    0 + 1000000 ≤ (outgoing (some 0) none 1000000).now ∧ (outgoing (some 0) none 999999).now < 0 + 1000000 ∧
    ((outgoing none (some 0) 999999).ctx 0).cancel = some 0 ∧ (outgoing none (some 0) 999999).now < 0 + 1000000 ∧
    ((outgoing (some 0) none 0).ctx 0).cancel = none ∧
    (∀ k ∈ ((outgoing (some 0) none 0).ctx 0).streams.toList, ∀ d ∈ k.started, d.word = .repair) := by decide +kernel
/-- A unit to be pre-empted inside a handler, one that is cancelled too, and one with a command that has started. -/
theorem witness_SwitchEvents_waits : ({ ctx0 with preempt := some 0, intrap := true } : Ctx).intrap = true ∧
    ((outgoing (some 0) (some 0) 0).ctx 0).cancel ≠ none ∧ ((outgoing (some 0) (some 0) 0).ctx 0).preempt = some 0 ∧
    ¬(∀ k ∈ ((commanding 0 .wswap [] true).ctx 0).streams.toList, ∀ d ∈ k.started, d.word = .repair) := by decide +kernel

/-- An iteration of a run that is closed, which RUN.ABORT alone has marked, two milliseconds ago. -/
theorem witness_SwitchEvents_aborted :
    let s := outgoing none (some 0) 2000000
    let q : State := { s with ctxs := [(0, { s.ctx 0 with spec := true, abortOnly := true })] }
    (q.ctx 0).running = some unit0 ∧ (q.ctx 0).cancel = some 0 ∧ (q.ctx 0).abortOnly = true ∧ (q.ctx 0).spec = true ∧
      (q.run unit0.part unit0.run).isOpen = false := by decide +kernel

/-- Contexts 0 and 1 have AQ.BASE at the head of their first access stream, and context `next` is the next in the engine's order. -/
def contending (next : Nat) : State :=
  let s := commanding 2 .aqBase [0] false
  { s with ctxs := [(0, s.ctx 0), (1, s.ctx 0)], cores := [(0, { serve := vset (Vector.replicate 6 0) 2 next })] }
/-- The start of the head of a queue: it starts, or the subcode of its fault, or 0 where it waits. -/
def starts (k : Nat) (w : Instr) (ops : List Word) : Bool × Byte :=
  let s := commanding k w ops false
  if !s.enginesStart 0 || mustWait { s with cur := 0, curK := k } { word := w, off := 0, ops := ops } then (false, 0)
  else match (startCmd { word := w, off := 0, ops := ops }).run { s with cur := 0, curK := k } with
    | .ok _ _ => (true, 0)
    | .error (.engine b) _ => (false, b)
    | .error _ _ => (false, 0)
/-- R337: WSWAP of the rectangle exchanges the latches of its column. -/
theorem test_wswap : (match exec (.engineCommandCommit 0 0 0) { commanding 0 .wswap [] true with cols := [(0, { front := { fmt := 1 } })] } with
    | .next t => ((t.col 0).front.fmt, (t.col 0).back.fmt) | _ => (0, 0)) = (5, 1) := by decide +kernel
theorem witness_CommandEvents_turn : (((contending 0).ctx 0).stream 2).queue = { word := .aqBase, off := 0, ops := [0] } :: [] ∧
    (contending 0).enginesStart 0 = true ∧
    mustWait { contending 0 with cur := 0, curK := 2 } { word := .aqBase, off := 0, ops := [0] } = false ∧
    (contending 0).engineTurn 0 2 = true ∧ (contending 1).engineTurn 0 2 = false ∧ ((contending 0).ctx 0).losing = false ∧
    ({ ctx0 with lease := .held 3 2 16, losing := true } : Ctx).losing = true := by decide +kernel
theorem witness_CommandEvents : starts 2 .aqBase [0] = (true, 0) ∧ starts 2 (.aqDrain 0) [1] = (true, 0) ∧
    starts 0 .lease [3] = (false, 0x0E) ∧ ((commanding 2 .aqBase [0] true).ctx 0).cancel = none ∧
    (((commanding 2 .aqBase [0] true).ctx 0).stream 2).started[0]? = some { word := .aqBase, off := 0, ops := [0] } ∧
    (((commanding 2 .aqDim [3, 1, 1] true).ctx 0).stream 2).started[0]? = some { word := .aqDim, off := 0, ops := [3, 1, 1] } ∧
    (((commanding 0 .wswap [] true).ctx 0).stream 0).started[0]? = some { word := .wswap, off := 0, ops := [] } ∧
    ((commanding 0 .wswap [] true).ctx 0).lease = .held 3 2 16 ∧
    (((commanding 0 .aclr [0, 1] true).ctx 0).stream 0).started[0]? = some { word := .aclr, off := 0, ops := [0, 1] } ∧
    (((commanding 1 .publish [255] true).ctx 0).stream 1).started[0]? = some { word := .publish, off := 0, ops := [255] } := by
  decide +kernel

/-- A started command that faults at its step: a FILL of a page that the partition does not map, beside another that has started. -/
theorem witness_CommandEvents_fault :
    let d : Cmd := { word := .fill, off := 3, ops := [2 ^ 40, 0, 8] }
    let s : State := { commanding 1 .fill [2 ^ 40, 0, 8] true with ctxs := [(0, leased 1 (stream40 [] [] [d, { word := .publish, off := 0, ops := [255] }]))] }
    ((s.ctx 0).stream 1).started[0]? = some d ∧ (s.ctx 0).cancel = none ∧ d.word ≠ .repair ∧ d.last = false ∧ (s.ctx 0).losing = false ∧
      (match (stepCmd d).run { s with cur := 0, curK := 1 } with | .error (.engine _) _ => true | _ => false) = true := by decide +kernel

/-- A block of four tokens that a SPLICE placed. -/
def block4 : KvEntry := { valid := true, spl := true, count := 4 }
def qk0 : Cmd := { word := .qk, off := 0, ops := [0, 0, 0, 0], ents := [block4] }
def repair0 (q : RepairPos) : Cmd := { word := .repair, off := 0, ops := [0, 0, 1], ents := [block4], repair := q }
theorem witness_AttentionRepairEvents :
    (attending qk0).startedCmd 0 0 0 = some qk0 ∧ ((attending qk0).ctx 0).cancel = none ∧ qk0.ents[qk0.prog]? = some block4 ∧
    ((attending qk0).ctx 0).lease = .held 3 2 16 ∧
    (let w : State := { attending qk0 with cur := 0, curK := 0 }
     w.attnBlocked w.myPart 0 (spanOf 0).1 (spanOf 0).2.1 { block4 with frontier := 255 } = false ∧ w.beatPhase 0 = true ∧
       w.attnBlocked w.myPart 0 (spanOf 0).1 (spanOf 0).2.1 block4 = true ∧ w.crosses 0 = true ∧
       { w with clusters := [(0, { busy := true })] }.crosses 0 = false ∧ blocked 0 block4 = true ∧
       blocked 0 { block4 with frontier := 255 } = false) ∧
    ((chunkLines false block4).drop 0).take (16 - 0) ≠ [] ∧
    (let x : Column := { fifo := List.replicate 16 { up := true, tag := 0, data := 0 } }
     ((chunkLines false block4).drop 0).take (16 - x.fifo.length) = []) ∧
    (let d := repair0 { stage := 2, asked := true }
     let w : State := { attending d with cur := 0, curK := 0 }
     (w.ctx 0).preempt = none ∧ repairNext w d = .take ∧ (match (stepRepair d).run w with | .ok (some _) _ => true | _ => false) = true) ∧
    (let d := repair0 { stage := 2, token := 4 }
     let w : State := { attending d with cur := 0, curK := 0 }
     repairNext w d = .advance ∧ d.ents[d.repair.block]? = some block4 ∧ w.colGranted w.myPart block4.col = true ∧ w.reqLayers 0 ≠ 1 ∧
       w.crosses 0 = true ∧ w.beatPhase 0 = true ∧ block4.col ∉ d.taken ∧
       ({ ctx0 with preempt := some 0 } : Ctx).preempt ≠ none ∧ ({ ctx0 with preempt := some 0 } : Ctx).intrap = false ∧
       { w with mem := Memory.putNat w.mem (reqAddr 0 + 40) 2 1 }.reqLayers 0 = 1) := by decide +kernel
/-- Collective 5 of partition 0 has one of its one contributions, or one of two. -/
def collecting (ranks : Nat) : State :=
  { unitAt ctx0 with
    parts := [(0, { isOpen := true, collectives := [(5, { op := BitVec.ofNat 64 (ranks * 256), bytes := 4, parts := [part0] })] })] }
theorem witness_AttentionRepairEvents_collective : ((collecting 0).collective 0 5).result = none ∧
    ((collecting 0).collective 0 5).parts ≠ [] ∧
    ((collecting 0).collective 0 5).parts.length = bitsOf ((collecting 0).collective 0 5).op.toNat 24 8 + 1 ∧
    ((collecting 1).collective 0 5).parts.length ≠ bitsOf ((collecting 1).collective 0 5).op.toNat 24 8 + 1 := by decide +kernel
/-! Events of the walkers, the tables, the sensors, the supplies and the coolant. -/

/-- Cluster 0 waits for a page, and partition 0 asks for the shootdown of its first MiB; or one is in progress. -/
def walking (va : Nat) : State :=
  { base with clusters := [(0, { waiting := [(0, va / 4096, true)] })], mem := Memory.putNat mapped (tdAddr 0 + 48) 4 1,
              cores := [(0, { tlb := [page0] })] }
def shooting : State :=
  { base with parts := [(0, { isOpen := true, shootdown := some { va := 0, cnt := 1, req := 5, frames := [(2 ^ 39, 2 ^ 21)] } })] }
/-- R121: a walk fills the cluster's TLB with the page that it finds. -/
theorem test_pageWalk : (match exec (.pageWalk 0) (walking 0x10000) with
    | .next t => ((t.cluster 0).tlb.map fun e => (e.pa, e.w), (t.cluster 0).waiting) | _ => ([], [])) = ([(2 ^ 39, true)], []) := by
  decide +kernel
/-- R122: a shootdown request takes the partition's overlapping entry out of every TLB. -/
theorem test_shootdown : (match exec (.shootdownRequest 0) (walking 0x10000) with
    | .next t => ((t.core 0).tlb.length, ((t.part 0).shootdown.map (·.req))) | _ => (9, none)) = (0, some 1) := by decide +kernel
/-- One in progress, which a started copy command awaits. -/
def copied : Shootdown := { va := 0, cnt := 1, req := 5, frames := [], copies := [(0, 1, .get, [1])] }
def shootCopy : State :=
  { on { ctx0 with streams := vset ctx0.streams 1 (stream40 [] [] [{ word := .get, off := 0, ops := [1] }]) } with
    parts := [(0, { isOpen := true, shootdown := some copied })] }
/-- One that awaits run 1, which is open or not. -/
def watched : Shootdown := { va := 0, cnt := 1, req := 5, frames := [], runs := [1] }
def runs1 (isOpen : Bool) : State :=
  { base with parts := [(0, { isOpen := true, shootdown := some watched, runs := [(1, { isOpen := isOpen })] })] }
theorem witness_TranslationEvents : ((walking 0x10000).cluster 0).waiting = (0, 16, true) :: [] ∧ (walking 0x10000).nextWaiting = some 0 ∧
    (match ((walking 0x10000).dropWaiting 0).walk 0 true .load (16 * 4096) with | .ok _ => true | .error _ => false) = true ∧
    (match ((walking (2 ^ 40)).dropWaiting 0).walk 0 true .load (2 ^ 28 * 4096) with | .ok _ => false | .error _ => true) = true ∧
    ((walking (2 ^ 40)).cluster 0).waiting = (0, 2 ^ 28, true) :: [] ∧ base.nextWaiting ≠ some 0 ∧
    { walking 0 with walkNext := 63 }.nextWaiting = some 0 ∧
    ((walking 0).part 0).shootdown = none ∧ (walking 0).shootReq 0 ≠ (walking 0).shootDone 0 ∧ base.shootReq 0 = base.shootDone 0 ∧
    (shooting.part 0).shootdown = some { va := 0, cnt := 1, req := 5, frames := [(2 ^ 39, 2 ^ 21)] } ∧
    (runs1 true).shootAwaits 0 watched = true ∧ (runs1 false).shootAwaits 0 watched = false ∧ (runs1 true |>.part 0).shootdown = some watched ∧
    shooting.shootAwaits 0 { va := 0, cnt := 1, req := 5, frames := [(2 ^ 39, 2 ^ 21)] } = false ∧
    (shootCopy.part 0).shootdown = some copied ∧ shootCopy.shootAwaits 0 copied = true := by decide +kernel

/-- Table fields in otherwise empty memory. -/
def tables (l : List (Nat × Nat × Nat)) : State := { base with mem := l.foldl (fun m e => Memory.putNat m e.1 e.2.1 e.2.2) [] }
/-- Request 4095 in a state, with its fields set; group 255 with three ranges of one page and V clear or set. -/
def reqAt (st : Nat) : State :=
  tables [(reqAddr 4095, 8, 64), (reqAddr 4095 + 40, 2, 1), (reqAddr 4095 + 42, 1, 1), (reqAddr 4095 + 44, 2, 1), (reqAddr 4095 + 63, 1, st)]
def grpAt (v : Nat) : State :=
  tables [(grpAddr 255, 8, 0x1000), (grpAddr 255 + 8, 8, 0x2000), (grpAddr 255 + 16, 8, 0x3000), (grpAddr 255 + 24, 4, 1), (grpAddr 255 + 28, 1, v)]
/-- Virtual address 0 maps to the device tables, whose page is uncached; the unit runs at a level. -/
def tabling (priv : Bool) : State :=
  { on { ctx0 with priv := priv, running := some { unit0 with level := priv } } with
    mem := [(0x8000000000, 8, 0x8000001001), (0x8000001000, 8, 0x8000002001), (0x8000002000, 8, 0x8000003001),
      (0x8000003000, 8, 0x8000004001), (0x8000004000, 8, 0x8000000006F), (tdAddr 0, 8, 0x8000000001)].foldl
      (fun (m : Memory) (e : Nat × Nat × Nat) => Memory.putNat m e.1 e.2.1 e.2.2) [] }
/-- R191: a group that passes its checks becomes valid with buffer A current. -/
theorem test_groupEnable : (match exec (.publishGroupEnable 255) (grpAt 0) with
    | .next t => (t.grpValid 255, t.grpCur 255) | _ => (false, true)) = (true, false) := by decide +kernel
theorem witness_TableEvents : (reqAt 0).reqState 4095 = 0 ∧ (reqAt 0).reqMaxblk 4095 ≠ 0 ∧ (reqAt 0).reqHeads 4095 ≠ 0 ∧
    (reqAt 0).reqLayers 4095 ≠ 0 ∧ (reqAt 0).reqRoot 4095 ≠ 0 ∧ (reqAt 1).reqState 4095 = 1 ∧ (reqAt 2).reqState 4095 = 2 ∧
    (reqAt 2).reqDrain 4095 = 0 ∧ (tables [(reqAddr 0 + 46, 2, 1)]).reqDrain 0 ≠ 0 ∧ (grpAt 0).grpValid 255 = false ∧
    (grpAt 0).groupOk 255 ((grpAt 0).tget (grpAddr 255) 32) = true ∧ (grpAt 1).grpValid 255 = true := by decide +kernel
/-- The region of a virtual address for stores, if it maps. -/
def storeRegion (s : State) (va : Nat) : Option Nat :=
  match s.walk s.me.partNo s.me.priv .store va with
  | .ok (t, _) => match region (t.access va).pa with | .table n => some n | _ => none
  | .error _ => none
theorem witness_TableEvents_stores : (tabling true).me.running.isSome = true ∧ (1 : Word).toNat % 8 ≠ 0 ∧ (32 : Word).toNat % 8 = 0 ∧
    (match (tabling true).vPa 0 true .store (2 ^ 40) with | .error _ => true | .ok _ => false) = true ∧
    storeRegion (tabling true) 32 = some 32 ∧ (match (tabling true).vPa 0 true .store 32 with | .ok a => a.pa == tblBase + 32 | _ => false) = true ∧ storeRegion (tabling false) 32 = some 32 ∧ (tabling false).me.priv = false ∧
    (tabling true).me.priv = true ∧ ((tabling true).tableStore 0 (tdAddr 0 + 32) 8 0).isSome = true ∧
    (tabling true).tableStore 0 (tdAddr 1 + 32) 8 0 = none := by decide +kernel

/-- Column 33's comparator is in a state, row 1 has CADENCE 4 raised from 1, cluster 0 has an alarm or not. -/
def sensed (c : Comp) (alarm : Bool) : State :=
  { base with cols := [(33, { comp := c })], gridRows := [(1, { cadence := 4, hotBase := some 1 })],
              clusters := [(0, { alarm := alarm })], timebase := 100000 }
/-- Table 14-3: 95.0 degrees makes a normal comparator hot, and 105.0 trips the column. -/
theorem test_sensor_hot : (match exec (.sensorSample 33 0x05F0 true) (sensed .normal false) with
    | .next t => ((t.col 33).comp, (t.col 33).trip) | _ => (.cold, true)) = (.hot, false) := by decide +kernel
theorem test_sensor_trip : (match exec (.sensorSample 33 0x0690 true) (sensed .hot false) with
    | .next t => (t.col 33).trip | _ => false) = true := by decide +kernel
/-- R385: an alarm doubles CADENCE of both grid rows. -/
theorem test_alarm : (match exec (.currentAlarm 0) (sensed .normal false) with
    | .next t => ((t.gridRow 0).cadence, (t.gridRow 1).cadence) | _ => (0, 0)) = (2, 8) := by decide +kernel
theorem witness_SensorEvents : (sensed .hot false).supplyBad = false ∧ ((sensed .hot false).col 33).comp = .hot ∧
    ((sensed .hot false).col 33).raised = false ∧ ((sensed .normal false).gridRow (rowOfCol 33)).hotBase = some 1 ∧
    1 < ((sensed .normal false).gridRow (rowOfCol 33)).cadence.toNat ∧
    (∀ i, i < 32 → ((sensed .normal false).col (rowOfCol 33 * 32 + i)).comp ≠ .hot) ∧
    ((sensed .normal false).gridRow (rowOfCol 33)).stepAt + 100000 ≤ (sensed .normal false).now ∧
    ((sensed .normal false).cluster 0).alarm = false ∧ ((sensed .normal false).col 33).comp ≠ .hot ∧
    ((sensed .normal true).cluster 0).alarm = true := by decide +kernel

/-- Cluster 63 switches or not, its domain counts phases of 4 cycles, and four cycles have passed, or three. -/
def powered (busy : Bool) (now : Word) : State :=
  { base with clusters := [(63, { busy := busy })], stks := [(3, { phaseCtl := 0x0004000C })], timebase := now, powerLimit := 1 }
/-- R382: a rail switch sets LOW and BUSY. -/
theorem test_railSwitch : (match exec (.railSwitch 63 true) (powered false 4) with
    | .next t => ((t.cluster 63).low, (t.cluster 63).busy) | _ => (false, false)) = (true, true) := by decide +kernel
/-- R386: after PERIOD cycles the next phase begins. -/
theorem test_phase : (match exec (.phaseBoundary 63) (powered false 4) with | .next t => (t.cluster 63).phases | _ => 0) = 1 ∧
    (match exec (.phaseBoundary 63) (powered false 3) with | .next t => (t.cluster 63).phases | _ => 9) = 0 := by decide +kernel
theorem witness_PowerEvents : (powered false 4).supplyBad = false ∧ ((powered false 4).cluster 63).busy = false ∧
    ((powered false 4).cluster 63).low ≠ true ∧ ((powered true 4).cluster 63).busy = true ∧ ((powered false 4).cluster 63).low = false ∧
    (powered false 4).powerLimit ≠ 0 ∧ (∀ d, d < 64 → ((powered false 4).cluster d).low = false → (powered false 4).heatOf d ≤ (powered false 4).heatOf 63) ∧
    (powered false 4).powerAt = none ∧ (let s := { powered false 4 with cols := [(0, { temp := 1 })] }
      (s.cluster 0).low = false ∧ (s.cluster 63).low = false ∧ s.heatOf 63 < s.heatOf 0) ∧
    ({ powered false 9999 with powerAt := some 0 } : State).now < 0 + 10000 ∧ 0 + 10000 ≤ (powered false 10000).now ∧
    (0x0004000C : Word) &&& ~~~0xFFFF000C = 0 ∧ (0x0004000C : Word).extractLsb' 16 16 ≠ 0 ∧
    (1 : Word) &&& ~~~0xFFFF000C ≠ 0 ∧ (((powered false 4).stack (63 / 16)).phaseCtl.extractLsb' 16 16).toNat = 4 ∧
    (((powered false 4).cluster 63).phases + 1) * 4 ≤ (powered false 4).phaseCycles 63 ∧
    (powered false 3).phaseCycles 63 < (((powered false 3).cluster 63).phases + 1) * 4 ∧ (0x107F : BitVec 15).toNat = 0x1000 + 127 ∧
    1 ≤ (16 : Word).toNat ∧ (16 : Word).toNat ≤ 16 ∧ 16 < (17 : Word).toNat ∧
    (65535 : Word).toNat ≤ 65535 ∧ 65535 < (65536 : Word).toNat := by decide +kernel

/-- Where no byte at a multiple of 128 is listed, or partition 0's descriptor alone, no event queue is enabled, or that one. -/
theorem queuesApart_of {s : State} (h : ∀ c ∈ s.mem, c.1 % 128 = 0 → c.1 = eqAddr 0 0)
    (h0 : ∀ k < 2 ^ 16, bitOf (s.tget (eqAddr 0 0) 8) 0 = true →
      let a := canon (bitsOf (s.tget (eqAddr 0 0) 8) 51 6 * 64 + k * 32)
      a + 64 ≤ tblBase ∨ tblBase + 2 ^ 32 ≤ a) : QueuesApart s := by
  intro p k _ hk
  by_cases hp : p = 0
  · subst hp; exact h0 k hk
  have g : ∀ (l : Memory) (a : Nat), (∀ c ∈ l, c.1 ≠ a) → assocGet Memory.blank l a = 0 := by
    intro l a
    induction l with
    | nil => intro _; rfl
    | cons c l ih =>
      intro hl
      have h1 := hl c (by simp)
      simp only [assocGet, if_neg (Ne.symm h1)]
      exact ih fun d hd => hl d (by simp [hd])
  have z : s.mem.get (eqAddr p 0) = 0 := g _ _ fun c hc he => by
    have := h c hc (by rw [he]; unfold eqAddr tblBase; omega)
    rw [he] at this; unfold eqAddr at this; omega
  simp only [State.tget, Memory.nat, Memory.bytes, z, natOfBytes, bitOf, Nat.testBit_zero]
  simp; omega
theorem queuesOff_of {s : State} (h : ∀ c ∈ s.mem, c.1 % 128 ≠ 0) (h0 : bitOf (s.tget (eqAddr 0 0) 8) 0 = false) : QueuesApart s :=
  queuesApart_of (fun c hc he => absurd he (h c hc)) fun _ _ hb => by rw [h0] at hb; cases hb
/-- Zone 1 in a state of Table 7-12 with SHARE 2 and FLOOR 1, owned by partition 0; a valve reported elsewhere; steps and times. -/
def cooled (st : Nat) (z : Zone) (now : Word) : State :=
  { base with mem := Memory.putNat (Memory.putNat [] (coolAddr 1) 4 (0x00010280)) (coolAddr 1 + 3) 1 (16 * st), zones := [(1, z)],
              timebase := now }
/-- A refill waits for zone 1 to be dry, which has been in step 7 for 100 µs. -/
def hungry : State := cooled 3 { step := 7, wants := some (4, 1) } 100000
/-- Context 0 holds a lease on zone 1's columns, with a command started; or other zones hold the coolant. -/
def working : State :=
  let s := leasing false
  { s with ctxs := [(0, leased 0 (stream40 [] [] [{ word := .wswap, off := 0, ops := [] }]))],
           mem := [(coolAddr 1, 4, 0x00210280), (leaseAddr 0 3, 8, 2 ^ 63 + 2 ^ 42 + 2 ^ 32 + 4 * 2 ^ 16), (leaseAddr 0 3 + 8, 8, 2 ^ 63)].foldl
             (fun (m : Memory) (e : Nat × Nat × Nat) => Memory.putNat m e.1 e.2.1 e.2.2) s.mem }
def overdrawn : State := { cooled 2 {} 0 with mem := Memory.putNat (cooled 2 {} 0).mem (coolAddr 2 + 1) 1 2 }
/-- R390: SHARE 4 opens the valve to 8 of 15. -/
theorem test_valve : (match exec (.valveWrite 1 ⟨4, 1⟩) (cooled 2 {} 0) with
    | .next t => ((t.zone 1).valve, t.coolShare 1) | _ => (0, 0)) = (8, 4) := by decide +kernel
/-- Partition 0's queue is enabled, with its ring in the underdeck. -/
def told : State := { cooled 2 {} 0 with mem := Memory.putNat (cooled 2 {} 0).mem (eqAddr 0 0) 8 0x8000010001 }
theorem witness_CoolantEvents_queues : (∀ st ∈ [0, 1, 2, 3], QueuesApart (cooled st {} 0)) ∧ QueuesApart hungry ∧ QueuesApart told ∧
    bitOf (told.tget (eqAddr 0 0) 8) 0 = true := by
  have h : ∀ st ∈ [0, 1, 2, 3], (∀ c ∈ (cooled st {} 0).mem, c.1 % 128 ≠ 0) ∧ bitOf ((cooled st {} 0).tget (eqAddr 0 0) 8) 0 = false := by
    decide +kernel
  have w : told.tget (eqAddr 0 0) 8 = 0x8000010001 := by decide +kernel
  refine ⟨fun st hs => queuesOff_of (h st hs).1 (h st hs).2, queuesOff_of (h 3 (by simp)).1 (h 3 (by simp)).2,
    queuesApart_of (by decide +kernel) fun k hk _ => ?_, by decide +kernel⟩
  have b : bitsOf 0x8000010001 51 6 = 0x8000010000 / 64 := by decide +kernel
  simp only [w, b, canon, tblBase]
  rw [if_neg (by omega)]
  omega
theorem witness_CoolantEvents_share : (1 : Nat) < 256 ∧ (cooled 2 {} 0).coolState 1 = 2 ∧ (cooled 2 {} 0).shareFits 1 255 = true ∧
    (255 : Byte) ≤ 255 ∧ (1 : Byte) < 2 ∧ working.zoneWorks 1 = true ∧ (cooled 2 {} 0).zoneWorks 1 = false ∧ (cooled 1 {} 0).coolState 1 ≠ 2 ∧
    overdrawn.shareFits 1 255 = false ∧ ((cooled 2 {} 0).zone 1).flow = none ∧
    (let s := cooled 2 { flow := some (0, 3, 0) } 0
     (s.zone 1).flow = some (0, 3, 0) ∧ s.coolState 1 = 2 ∧ s.coolShare 1 < min 3 (3 : Byte).toNat ∧ s.shareFits 1 3 = true ∧
       s.coolFloor 1 ≤ 3) ∧
    ((cooled 2 {} 5000000).zone 1).valve.toNat ≠ (1 : BitVec 4).toNat ∧
    ((cooled 2 {} 5000000).zone 1).setAt + 5000000 ≤ (cooled 2 {} 5000000).now ∧
    ((cooled 2 {} 0).zone 1).valve.toNat = (0 : BitVec 4).toNat := by decide +kernel
theorem witness_CoolantEvents_evacuation :
    (let s := cooled 3 { step := 2 } 20000
     s.coolState 1 = 3 ∧ (s.zone 1).step = 2 ∧ s.zoneBusy 1 = false ∧ (s.zone 1).stepAt + 20000 ≤ s.now ∧
       (cooled 3 { step := 2 } 19999).now < 0 + 20000) ∧
    { working with zones := [(1, { step := 2 })] }.zoneBusy 1 = true ∧
    ((cooled 3 { step := 5 } 2000000).zone 1).step = 5 ∧ 0 + 2000000 ≤ (cooled 3 { step := 5 } 2000000).now ∧
    ((cooled 3 { step := 6 } 49999999).zone 1).step = 6 ∧ (cooled 3 { step := 6 } 49999999).now < 0 + 50000000 ∧
    (let s := cooled 3 { step := 7 } 200000000
     s.coolState 1 = 3 ∧ (s.zone 1).step = 7 ∧ (s.zone 1).failed = false ∧ (s.zone 1).wants = none ∧
       (s.zone 1).stepAt + 200000000 ≤ s.now ∧ (s.zone 1).stepAt + 100000 ≤ s.now) ∧
    (hungry.coolState 1 = 3 ∧ (hungry.zone 1).step = 7 ∧ (hungry.zone 1).wants = some ((4 : Byte).toNat, (1 : Byte).toNat) ∧
      (hungry.zone 1).stepAt + 100000 ≤ hungry.now ∧ hungry.coolOwned 1 = true ∧ hungry.shareFits 1 (4 : Byte).toNat = true) ∧
    (cooled 3 { step := 7 } 99999).now < 0 + 100000 ∧ ((cooled 3 { step := 7 } 200000001).zone 1).failed = false ∧
    0 + 200000000 < (cooled 3 { step := 7 } 200000001).now ∧ ((cooled 3 { step := 7, failed := true } 200000001).zone 1).failed = true := by
  decide +kernel
theorem witness_CoolantEvents_refill : (cooled 0 {} 0).coolState 1 = 0 ∧ (cooled 0 {} 0).coolOwned 1 = true ∧
    (cooled 0 {} 0).shareFits 1 255 = true ∧
    (∀ n ∈ [2, 3, 4, 5], (let s := cooled 1 { step := n } 1000000
      s.coolState 1 = 1 ∧ (s.zone 1).step = n ∧
        ¬ (s.zone 1).stepAt + (if n = 3 then 40000000 else if n = 5 then 1000000 else 2000000) < s.now)) ∧
    0 + 1000000 ≤ (cooled 1 { step := 3 } 1000000).now ∧ (cooled 1 { step := 3 } 999999).now < 0 + 1000000 ∧
    0 + 1000000 < (cooled 1 { step := 5 } 1000001).now ∧
    (∀ c ∈ colsOfZone 1, ((cooled 1 {} 0).col c).temp.toInt < (cooled 1 {} 0).hiOf c) ∧
    (let s : State := { cooled 1 { step := 5 } 0 with cols := (colsOfZone 1).map fun c => (c, { temp := 0x5F0 }) }
     ∃ c ∈ colsOfZone 1, s.hiOf c ≤ (s.col c).temp.toInt) := by decide +kernel
/-- The supply is bad, and cluster 63 and row 127 hold what they had. -/
def starved : State :=
  { base with supplyBad := true, clusters := [(63, { low := true, held := some false })], gridRows := [(127, { cadence := 16, held := some 3 })] }
theorem witness_SupplyEvents : base.supplyBad = false ∧ starved.supplyBad = true ∧ (starved.cluster 63).held = some false ∧
    (starved.gridRow 127).held = some 3 := by decide +kernel
/-! Events of columns, cores, links, the host and the peers, and the dealer's commands. -/

/-- Column 4095 in a state, with no stand-in left in its row, or with one. -/
def columned (x : Column) (used : Bool) : State :=
  { base with cols := [(4095, x)], gridRows := [(127, { kittyUsed := used })], timebase := 100000000 }
/-- A lease on rectangle 3, the marked column 0, in a wet zone. -/
def owned : State :=
  let s := leasing false
  { s with ctxs := [(0, leased 0 {})], cols := [(0, { markedAt := some 0 })], timebase := 100000000,
           mem := Memory.putNat s.mem (coolAddr 0 + 3) 1 0x20 }
/-- R397: the corrected beat that reaches the threshold marks the bus, and the count stops at 65,535. -/
theorem test_correctedBeat : (match exec (.correctedBeat 4095) (columned { corr := 65535 } false) with
    | .next t => ((t.col 4095).corr, (t.col 4095).markedAt.isSome) | _ => (0, false)) = (65535, true) := by decide +kernel
/-- R21: a fenced column with a free kitty is stood in for. -/
theorem test_columnFence : (match exec (.columnFence 4095) (columned {} false) with
    | .next t => ((t.col 4095).kitty, (t.gridRow 127).kittyUsed) | _ => (false, false)) = (true, true) := by decide +kernel
/-- The lanes of a bus test that are not spared yet. -/
def newLanes (failing : List Nat) : List Nat := failing.eraseDups.filter fun l => decide (l < 592)
theorem witness_ColumnEvents : ((columned {} false).col 4095).markedAt = none ∧
    ((columned { markedAt := some 0 } false).col 4095).markedAt = some 0 ∧
    (columned { markedAt := some 0 } false).atBoundary 4095 = true ∧ newLanes [592] = [] ∧ (newLanes [591, 591, 592]).length ≤ 16 - 0 ∧
    16 - (List.range 16).length < (newLanes [591]).length ∧
    (owned.col 0).markedAt = some 0 ∧ owned.atBoundary 0 = false ∧ 0 + 100000000 ≤ owned.now ∧ owned.ownersOf 0 = [0] ∧
    ({ owned with timebase := 99999999 } : State).now < 0 + 100000000 ∧
    ((columned { lost := true } false).col 4095).lost = true ∧ ((columned {} false).col 4095).lost = false ∧
    ((columned {} false).col 4095).frontRec.changed = false ∧ ((columned {} false).col 4095).backRec.changed = false ∧
    (columned {} false).kittyFree 4095 = true ∧ (columned {} true).kittyFree 4095 = false ∧
    ((columned { backRec := { changed := true } } false).col 4095).backRec.changed = true := by decide +kernel
/-- Rectangle 3 is leased. -/
def leasedCol : State := { owned with mem := Memory.putNat owned.mem (leaseAddr 0 3 + 8) 8 (2 ^ 63) }
/-- A command that needs the lease has started; or the lease on rectangle 3 is parked. -/
def busyCol : State := { leasedCol with ctxs := [(0, leased 0 (stream40 [] [] [{ word := .wswap, off := 0, ops := [] }]))] }
def parkedCol : State := { leasing true with mem := Memory.putNat owned.mem (leaseAddr 0 3 + 8) 8 (2 ^ 63) }
theorem witness_LostColumns_more : (∀ e ∈ leasedCol.leaseHolders 0 3, e.2.losing = false) ∧
    ((leasedCol.ctx 0).stream 0).started.any needsLease = false ∧ ((busyCol.ctx 0).stream 0).started.any needsLease = true ∧
    (∀ e ∈ busyCol.leaseHolders 0 3, e.2.losing = false) ∧ busyCol.leaseHeld 0 3 = true ∧ (busyCol.ctx 0).lease = .held 3 2 16 ∧
    parkedCol.leaseHeld 0 3 = true ∧ parkedCol.leaseHolders 0 3 = [] ∧ 0 ∈ parkedCol.rectColumns 0 3 ∧
    (parkedCol.part 0).parked = [parked3] := by decide +kernel
theorem witness_LostColumns : (0 : Nat) < 64 ∧ (leasedCol.ctx 0).partNo = 0 ∧ (leasedCol.part 0).isOpen = true ∧
    0 ∈ leasedCol.rectColumns 0 3 ∧ (leasedCol.ctx 0).lease = .held 3 2 16 ∧ leasedCol.leaseHeld 0 3 = true ∧ (3 : Nat) < 256 ∧
    ((leasing true).ctx 0).lease = .requested 3 0 ∧ (∃ r ∈ ((leasing true).part 0).reqs, r.rect = 3) ∧ 0 ∈ (leasing true).rectColumns 0 3 ∧
    ((leasing true).part 0).parked = [parked3] := by decide +kernel

/-- The last core is fenced, or not. -/
def coreIn (st : Nat) : State := [2044, 2045, 2046, 2047].foldl (fun t c => t.setSlotState c st) base
/-- A started command that has been replayed three times. -/
def replayed : State := attending { word := .aclr, off := 0, ops := [0, 1], tries := 3 }
theorem test_coreFence : (match exec (.coreFence 511) { coreIn 1 with cores := [(511, { sp := [(1, 1)] })] } with
    | .next t => (t.slotState 2047, (t.core 511).sp) | _ => (0, [])) = (4, []) := by decide +kernel
/-- A load that has been replayed so often. -/
def retried (n : Nat) : PendWrite := { eff := .g 1 7, issued := 4, due := none, load := true, tries := n }
/-- Cluster 63 holds a dirty line of the underdeck for partition 0, whose launch 1 runs there. -/
def soiled : State :=
  { unitAt ctx0 with
    clusters := [(63, { l2 := [{ line := 2 ^ 33, data := 0, dirty := true, excl := true, key := 0, part := 0 }] })] }
/-- Rectangle 3 is two columns wide from the package's last column on, and package 1, over the east edge, owns the barrier that
context 0 waits on. -/
def linked : State :=
  { on { ctx0 with lease := .held 3 2 16, barOn := some 512 } with
    mem := Memory.putNat (Memory.putNat [] (leaseAddr 0 3) 8 (2 ^ 42 + 2 * 2 ^ 32 + 63 * 2 ^ 16)) (leaseAddr 0 3 + 8) 8 (2 ^ 63),
    parts := [(0, { isOpen := true })], peers := [1] }
/-- Such a load of eight bytes of memory is in flight to g1. -/
def loading (n : Nat) : State := on { ctx0 with wq := [retried n], loadAt := [(1, { pa := 2 ^ 39, size := 8 })] }
theorem witness_FailureEvents :
    ((loading 2).ctx 0).wq.find? ((loading 2).fromMemory 0) = some (retried 2) ∧
    ((loading 3).ctx 0).wq.find? ((loading 3).fromMemory 0) = some (retried 3) ∧
    ((on { ctx0 with wq := [retried 2] }).ctx 0).wq.find? ((on { ctx0 with wq := [retried 2] }).fromMemory 0) = none ∧
    replayed.startedCmd 0 0 0 = some { word := .aclr, off := 0, ops := [0, 1], tries := 3 } ∧ base.startedCmd 0 0 0 = none ∧
    (commanding 0 .wswap [] true).startedCmd 0 0 0 = some { word := .wswap, off := 0, ops := [] } ∧
    soiled.dirtyOwner 63 (canon 0x8000000000 / 64) = some 0 ∧ base.dirtyOwner 63 (canon 0x8000000000 / 64) = none ∧
    (coreIn 1).coreFenced 511 = false ∧ (coreIn 4).coreFenced 511 = true ∧ (∀ i, i < 4 → (coreIn 4).slotState (511 * 4 + i) = 4) ∧
    (∀ i, i < 4 → (coreIn 1).slotState (511 * 4 + i) ≠ 4) ∧ vget false { base with links := vset base.links 3 false }.links 3 = false := by
  decide +kernel
theorem witness_FailureEvents_link : linked.linkNo 1 = (linked.pkg, 1) ∧ linked.linkUp linked.pkg 1 = true ∧ (linked.ctx 0).partNo = 0 ∧
    (linked.ctx 0).lease = .held 3 2 16 ∧ linked.leaseHeld 0 3 = true ∧ (linked.part 0).isOpen = true ∧
    linked.rectSpans 0 3 linked.pkg 1 = true ∧ (∀ e ∈ linked.leaseHolders 0 3, e.2.losing = false) ∧ (linked.ctx 0).barOn = some 512 ∧
    512 / 512 ∈ linked.peers ∧ linked.reaches (512 / 512) = true ∧ (linked.linkOff linked.pkg 1).reaches (512 / 512) = false ∧
    (linked.linkOff linked.pkg 1).linkUp linked.pkg 1 = false := by decide +kernel
/-- Rectangle 3 goes on into packages 1 and 2 of the row; a context asks for it, and the link between those two is event 4 + 4 + 1. -/
def linkedFar : State :=
  { linked with ctxs := [(0, { ctx0 with lease := .requested 3 0, barOn := some 1024 })], peers := [1, 2],
                mem := Memory.putNat (Memory.putNat [] (leaseAddr 0 3) 8 (2 ^ 42 + 128 * 2 ^ 32 + 63 * 2 ^ 16)) (leaseAddr 0 3 + 8) 8 (2 ^ 63),
                parts := [(0, { isOpen := true, reqs := [asked3] })] }
theorem witness_FailureEvents_farLink : linkedFar.linkNo 9 = (1, 1) ∧ linkedFar.linkUp 1 1 = true ∧ 1 ≠ linkedFar.pkg ∧ beyond 1 1 = some 2 ∧
    linkedFar.rectSpans 0 3 1 1 = true ∧ (linkedFar.ctx 0).lease = .requested 3 0 ∧ (∃ r ∈ (linkedFar.part 0).reqs, r.rect = 3) ∧
    (linkedFar.ctx 0).partNo = 0 ∧ (linkedFar.ctx 0).barOn = some 1024 ∧ 1024 / 512 ∈ linkedFar.peers ∧ linkedFar.reaches (1024 / 512) = true ∧
    (linkedFar.linkOff 1 1).reaches (1024 / 512) = false ∧ (linkedFar.linkOff 1 1).linkUp 1 1 = false ∧
    linkedFar.linkNo 7 = (0, 3) ∧ linkedFar.linkNo 11 = (linkedFar.pkg, 1) ∧ linkedFar.linkUp 1 0 = false := by decide +kernel

/-- A far window at host address 2^40 and an HDM range at 2^41 over the underdeck. -/
def hosted : State :=
  { base with windows := [(0, some { dev := 2 ^ 44, host := 2 ^ 40, size := 2 ^ 21, part := 0, key := 0 })],
              hdms := [(0, some { dev := 2 ^ 39, host := 2 ^ 41, size := 2 ^ 21, part := 0, key := 0 })] }
/-- R133: a far ADD of four bytes answers the old bytes and leaves the sum. -/
theorem test_farAdd : (match exec (.peerFarRequest .add 0x8000000100 4 0 5) { base with mem := poke [] 0x100 4 7 } with
    | .next t => (t.farData, t.mem.nat 0x8000000100 4) | _ => (0, 0)) = (7, 12) := by decide +kernel
/-- R401: a host load outside every HDM range returns all ones. -/
theorem test_hdm : (match exec (.hostHdmAccess 0 8 false 0) hosted with | .next t => t.hdmData | _ => 0) = 0xFFFFFFFFFFFFFFFF := by
  decide +kernel
/-- An HDM range over the spread view, in which an access at 60 KiB + 4092 goes on in the next column. -/
theorem witness_HostEvents_spread :
    let w : Window := { dev := 0x18000000000, host := 2 ^ 41, size := 2 ^ 21, part := 0, key := 0 }
    ({ base with hdms := [(0, some w)] } : State).hdmAt (2 ^ 41 + 65532) 8 = some w ∧ 65536 - (w.dev + 65532) % 65536 < 8 ∧
      8 ≤ 65536 - (w.dev + 65528) % 65536 := by decide +kernel
theorem witness_HostEvents : lowRangeOk (2 ^ 57 - 8) 8 = false ∧ lowRangeOk 0x8000000000 8 = true ∧ lowRangeOk 0x8000000000 4 = true ∧
    hosted.hdmAt (2 ^ 41 + 2 ^ 21 - 7) 8 = none ∧
    hosted.hdmAt (2 ^ 41 + 2 ^ 21 - 8) 8 = some { dev := 2 ^ 39, host := 2 ^ 41, size := 2 ^ 21, part := 0, key := 0 } ∧
    hosted.farAddr (2 ^ 40 + 2 ^ 21) = none ∧ ({ base with mbxStat := 1 } : State).mbxStat.getLsbD 0 = true ∧
    base.mbxStat.getLsbD 0 = false ∧
    ({ base with linkq := List.replicate 32 (3, .responses) } : State).linkq.count (3, .responses) = 32 ∧ base.linkq = [] ∧ ({ base with sensors := [(5, 0x690, true)] } : State).sensors = [] ++ (5, 0x690, true) :: [] := by decide +kernel
/-- Three entries wait at the east edge, and at the north edge the responses are full; package 1 is the peer to the east. -/
def onLinks : State :=
  { base with booted := true, peers := [1], agenda := [.link 1], linkq := [(1, .requests), (0, .sums), (1, .rows), (1, .requests)] }
/-- R164: the east link sends its row before the older requests. -/
theorem test_link_priority : (match step onLinks with | .next t => t.linkq | _ => []) = [(1, .requests), (0, .sums), (1, .requests)] := by
  decide +kernel
theorem witness_LinkQueues : onLinks.linkq = [(1, .requests), (0, .sums)] ++ (1, .rows) :: [(1, .requests)] ∧
    ((1 : Nat), LinkClass.rows) ∉ ([(1, .requests), (0, .sums)] : List (Nat × LinkClass)) ∧ ((1 : Nat), LinkClass.sums) ∉ onLinks.linkq ∧
    (∀ c : LinkClass, (2, c) ∉ onLinks.linkq) ∧ ({ onLinks with agenda := [.link 2] } : State).agenda = [.link 2] ∧
    region (0x410000000000 + 2 ^ 39) = .peer 1 (2 ^ 39) ∧ onLinks.linkq.count (onLinks.edgeTo 1, .requests) < 32 ∧
    linked.rectCrosses 0 3 1 = true ∧ linked.rectCrosses 0 3 0 = false := by
  refine ⟨by decide +kernel, by decide +kernel, by decide +kernel, fun c => by cases c <;> decide +kernel, ?_⟩
  decide +kernel
/-- R388: the first sample of a column's sensor trips it at 105 degrees, and a failing one sets FAIL. -/
theorem test_firstSample : ((base.firstSample (4095, 0x690, true)).col 4095).trip = true ∧ ((base.firstSample (0, 5, false)).col 0).fail = true := by
  decide +kernel
/-- A barrier of this package on core 511 is open with N = 5 and tag 7. -/
def barred : State := base.setBarrier 0 511 31 { n := 5, tag := 7, arrived := 1 }
/-- Its descriptor. -/
def desc7 : Word := 4 <<< 26 ||| 7 <<< 23 ||| 511 <<< 8 ||| 31
theorem witness_PeerEvents : BarDesc.ofWord desc7 = { n := 5, tag := 7, pkg := 0, core := 511, bar := 31 } ∧
    (barred.barrier 0 511 31).differs 5 7 = false ∧ (barred.barrier 0 511 31).differs 6 7 = true ∧
    (BarDesc.ofWord (desc7 - 1 <<< 23)).tag ≠ 7 := by decide +kernel
theorem witness_PeerEvents_reduce : opBits (0x7005 : Word) 14 12 = 7 ∧ opBits (0x7005 : Word) 11 0 = 5 ∧ (base.collective 0 5).result = none ∧
    (base.collective 0 5).parts = [] ∧ hosted.farAddr (2 ^ 40) = some (2 ^ 44) ∧
    (let s := base.setCollective 0 5 { op := 0x100, bytes := 4, route := 7, parts := [part0] }
     let c := s.collective 0 5
     c.result = none ∧ c.parts ≠ [] ∧ c.op = (0x100000100 : Word) &&& 0x1FFFF0F ∧ c.bytes = 4 ∧ c.route = 7 ∧
       c.parts.all fun y => y.rank != opBits (0x100000100 : Word) 48 32) := by decide +kernel
/-! Commands of the mailbox and of the command rings. -/

/-- The host's block at 0x1000: a code, a partition and the arguments as a number from byte 2 on; the package has booted. -/
def asking (isOpen : Bool) (code p args : Nat) : State :=
  { base with booted := true, host := Memory.putNat [] 0x1000 64 (code + p * 256 + args * 65536),
              parts := [(p, { isOpen := isOpen, cores := 1, ring := 2 ^ 39 + 0x7000, ringN := 2 })] }
/-- Does the host's block name a command and a partition, with its form accepted? -/
def blockOk (s : State) (code p : Nat) (ok : Nat → Bool) : Bool :=
  s.booted && blockField (s.host.nat 0x1000 64) 0 1 == code && blockField (s.host.nat 0x1000 64) 1 1 == p && ok (s.host.nat 0x1000 64)
/-- R402: POWER.LIMIT answers status 0, sets DONE and sends vector 0. -/
theorem test_powerLimit : (match exec (.powerLimit (.host 0x1000)) (asking true 12 0 (500 <<< 48)) with
    | .next t => (t.powerLimit, t.mbxStat, t.msix) | _ => (0, 0, [])) = (500, 2, [0]) := by decide +kernel
/-- Table 15-2: a command for a partition that is not open has status 2. -/
theorem test_closed_partition : (match exec (.stats (.host 0x1000)) (asking false 10 63 0) with
    | .next t => t.host.nat 0x1038 8 | _ => 0) = 2 := by decide +kernel
theorem witness_HostCommands_busy : base.booted = false ∧ (let s : State := { base with booted := true, mbxStat := 1, mbxGo := 0x2000 }
      s.mbxBusy = true ∧ s.mbxGo ≠ 0x1000 ∧ s.mbxGo = 0x2000) ∧ base.mbxBusy = false := by decide +kernel
theorem witness_HostCommands : base.booted = false ∧ (63 : Nat) < 64 ∧ blockOk (asking false 1 63 0) 1 63 State.partOpenOk = true ∧
    blockOk (asking false 1 63 1) 1 63 (fun n => !State.partOpenOk n) = true ∧ blockOk (asking false 11 63 0) 11 63 (fun _ => true) = true ∧
    ((asking false 2 63 0).part 63).isOpen = false ∧ blockOk (asking false 2 63 0) 2 63 State.partCloseOk = true ∧
    ((asking true 2 63 0).part 63).isOpen = true ∧ blockOk (asking true 2 63 0) 2 63 State.partCloseOk = true ∧
    (asking true 3 63 0).launchq.length < 4096 ∧ blockOk (asking true 3 63 (0x40 <<< 48)) 3 63 State.jobSubmitOk = true ∧
    blockOk (asking true 4 63 (1023 <<< 48)) 4 63 State.jobEndOk = true ∧ blockOk (asking true 6 63 (0x40 <<< 48)) 6 63 State.keyAddOk = true ∧
    blockOk (asking true 7 63 (65536 <<< 112)) 7 63 State.homecopyOk = true ∧
    blockOk (asking true 8 63 (1 <<< 48 + 3 <<< 56 + 1 <<< 144)) 8 63 State.monAssignOk = true ∧
    blockOk (asking true 9 63 (255 <<< 48)) 9 63 State.monReadOk = true ∧
    blockOk (asking true 10 63 (4096 <<< 192)) 10 63 State.statsOk = true ∧
    blockOk (asking true 12 0 (1 <<< 48)) 12 0 State.powerLimitOk = true := by decide +kernel
/-- Partition 63 named by an HDM range, 64 by a command, 0 by a far window, and 1 by one, which is malformed. -/
theorem witness_HostCommands_parts : let hdm := 2 <<< 48 + (2 ^ 39) <<< 112 + (2 ^ 21) <<< 240
    blockOk (asking true 5 63 hdm) 5 63 State.rangeSetOk = true ∧ blockField ((asking true 5 63 hdm).host.nat 0x1000 64) 8 1 = 2 ∧
    blockOk (asking true 10 64 0) 10 64 State.statsOk = true ∧ blockOk (asking true 1 64 0) 1 64 State.partOpenOk = true ∧
    blockOk (asking true 5 0 0) 5 0 State.rangeSetOk = true ∧ blockField ((asking true 5 0 0).host.nat 0x1000 64) 8 1 ≠ 2 ∧
    blockOk (asking true 5 1 0) 5 1 State.rangeSetOk = true ∧
    blockOk (asking true 10 63 1) 10 63 (fun n => !State.statsOk n) = true := by decide +kernel
/-- A RANGE.SET that clears slot 15, and an ATTEST whose report address is a multiple of 512 bytes. -/
theorem witness_HostCommands_fields : blockOk (asking true 5 63 (15 <<< 56)) 5 63 State.rangeSetOk = true ∧
    State.attestOk (11 + 0x1200 * 256) = true := by decide +kernel

/-- The grant of a descriptor at host address 0x2000: column 4095, core 511, key 127, one block of the underdeck and
256 ring entries in it. -/
def granting : State :=
  let put := fun (m : Memory) (e : Nat × Nat × Nat) => Memory.putNat m (0x2000 + e.1) e.2.1 e.2.2
  { base with host := [(511, 1, 0x80), (575, 1, 0x80), (623, 1, 0x80), (636, 4, 1), (640, 8, 2 ^ 39), (648, 2, 256)].foldl put [] }
/-- A partition with a number of keys, with core 0 granted, and with job 5 open. -/
def openPart0 (keys : Nat) : State :=
  let x : Part := { isOpen := true, cores := 1, pubkeys := List.replicate keys [], counters := [(5, { status := 1, kind := 3 })] }
  { base with parts := [(0, x)], jobs := [(5, { isOpen := true })] }
/-- Argument fields at bytes 8 to 23 of a block. -/
def argsAt (n : Nat) : Nat := n * 2 ^ 64
theorem witness_CommandEffects : ((openPart0 7).part 0).pubkeys.length < 8 := by decide +kernel
theorem witness_CommandEffects_rest : 8 ≤ ((openPart0 8).part 0).pubkeys.length ∧
    (openPart0 0).sourceGranted 0 (blockField (argsAt (1 + 1 * 2 ^ 32)) 8 1) (blockField (argsAt (1 + 1 * 2 ^ 32)) 12 4) = false ∧
    ((openPart0 0).assignMonitor true 0 (argsAt (1 + 3 * 256 + 1 * 2 ^ 96))).1 = 0 ∧
    (openPart0 0).jobOpen 0 (blockField (argsAt 5) 8 2) = true ∧ (openPart0 0).jobOpen 0 (blockField (argsAt 6) 8 2) = false := by
  decide +kernel
theorem witness_CommandEffects_open : (granting.openPart true 63 (argsAt 0x2000)).1 = 0 := by decide +kernel

/-- Partition 63's command ring has one block of a code at HEAD, with arguments from byte 2 on, or is empty. -/
def ringing (full : Bool) (code args : Nat) : State :=
  let s := asking true 0 63 0
  let m := Memory.putNat (Memory.putNat [] (2 ^ 39 + 0x7000) 4 (if full then 6 else 5)) (2 ^ 39 + 0x7004) 4 5
  { s with mem := Memory.putNat m (2 ^ 39 + 0x7080) 64 (code + args * 65536) }
/-- Is the block at HEAD of the ring of a code, with its form accepted or not? -/
def ringOk (s : State) (code : Nat) (ok : Nat → Bool) : Bool :=
  let n := s.cohNat (s.keydef 63) (2 ^ 39 + 0x7000 + 64 + 64 * (5 % 2)) 64
  s.cohNat (s.keydef 63) (2 ^ 39 + 0x7000) 4 == 6 && s.cohNat (s.keydef 63) (2 ^ 39 + 0x7004) 4 == 5 && blockField n 0 1 == code && ok n
/-- Table 15-3: PART.OPEN from a ring has status 2, and HEAD goes on. -/
theorem test_ring_hostOnly : (match exec (.partOpen (.ring 63)) (ringing true 1 0) with
    | .next t => (t.mem.nat (2 ^ 39 + 0x7080 + 56) 8, t.mem.nat (2 ^ 39 + 0x7004) 4) | _ => (0, 0)) = (2, 6) := by decide +kernel
theorem witness_RingCommands : (ringing false 10 0).cohNat 0 (2 ^ 39 + 0x7000) 4 = (ringing false 10 0).cohNat 0 (2 ^ 39 + 0x7004) 4 ∧
    ((ringing true 10 0).part 63).isOpen = true ∧ ringOk (ringing true 10 0) 10 State.statsOk = true ∧
    ringOk (ringing true 9 0) 9 State.monReadOk = true ∧ ringOk (ringing true 8 (1 <<< 144)) 8 State.monAssignOk = true ∧
    ringOk (ringing true 7 (65536 <<< 112)) 7 State.homecopyOk = true ∧ ringOk (ringing true 1 0) 1 (fun _ => true) = true ∧
    ringOk (ringing true 10 1) 10 (fun n => !State.statsOk n) = true := by decide +kernel

/-! Commits of engine commands. -/

/-- A command has started in context 0's stream `k`; rectangle 3, column 0 or the first `w` columns of row 0, is leased to it, ring 0 holds a tile of one row
and has room for one more, and the core has 16 KiB of scratchpad. -/
def committing (k w : Nat) (d : Cmd) : State :=
  let s := leasing false
  { s with
    mem := Memory.putNat s.mem (leaseAddr 0 3) 8 (2 ^ 63 + 2 ^ 42 + w * 2 ^ 32),
    ctxs := [(0, leased k (stream40 [] [] [d]))],
    cores := [(0, { spw := 1, rings := vset (Vector.replicate 8 {}) 0 { ptr := 0x10000, shape := 0x1000201 } })] }
/-- The command's own view. -/
def mine (k : Nat) (s : State) : State := { s with cur := 0, curK := k }
theorem witness_Commits (k w : Nat) (d : Cmd) (hk : k = 0 ∨ k = 1 ∨ k = 2) : (committing k w d).startedCmd 0 k 0 = some d ∧
    ((committing k w d).ctx 0).cancel = none ∧ ((committing k w d).ctx 0).lease = .held 3 2 16 := by
  rcases hk with h | h | h <;> subst h <;> exact ⟨rfl, rfl, rfl⟩
def wload1 : Cmd := { word := .wload false, off := 0, ops := [0x5FFDFC0, 1] }
def mma1 (ready : Bool) : Cmd := { word := .mma true, off := 0, ops := [0, 1, 0, 0], caps := [0], ready := ready }
theorem unowned_of {s : State} (pa n : Nat) (h : s.clusters = []) : Unowned s pa n := by
  intro l _ e he; rw [h] at he; cases he
theorem witness_MatrixCommits_wload :
    (∀ w ∈ [1, 2], let s := mine 0 (committing 0 w wload1)
      (s.rectColumns s.myPart 3)[wload1.prog]? = some 0 ∧ wload1.sent = 0 ∧ opBits (nth wload1.ops 0) 26 0 % 64 = 0 ∧
        1 ≤ (nth wload1.ops 1).toNat ∧ (nth wload1.ops 1).toNat ≤ 5 ∧ ((committing 0 w wload1).col 0).fifo = [] ∧ s.crosses 0 = true ∧
        s.beatPhase 0 = true ∧ s.clusters = [] ∧ (s.rectColumns s.myPart 3).length = w) := by decide +kernel
theorem witness_MatrixCommits_mma : TakesRow (mine 0 (committing 0 1 (mma1 false))) 0 3 ∧
    (let s := mine 0 (committing 0 1 (mma1 false))
     s.myPart = 0 ∧ (mma1 false).taken = [] ∧ mmaTiles (s.ring 0 0) (mma1 false) = [] ∧ s.ringTurn 0 consumedBy 0 0 = true ∧ (s.ring 0 0).occ ≠ 0) ∧
    (mma1 true).ready = true ∧ ([5, 6] : List Nat).Nodup := by
  refine ⟨⟨by decide +kernel, by decide +kernel, by decide +kernel⟩, ?_, rfl, by decide⟩
  decide +kernel
def xout1 (dst : Word) : Cmd := { word := .xout true, off := 0, ops := [dst, 2, 0] }
theorem witness_MatrixCommits_xout : opBits (nth (xout1 0x3F08).ops 0) 3 0 = 8 ∧ opBits (nth (xout1 9).ops 0) 3 0 = 9 ∧
    opBits (nth (xout1 0).ops 0) 3 0 < 8 ∧
    (let s := mine 0 (committing 0 1 (xout1 0))
     s.ringTurn 0 producedBy 0 0 = true ∧ (s.ring 0 0).occ < (s.ring 0 0).tiles ∧ (s.ring 0 0).tsize = 1 ∧
       (s.slotKeys false 0 2).length = 2) := by decide +kernel
/-- A checkpoint of one row in the scratchpad whose meta byte is good or malformed. -/
def ckpt (w : Instr) (meta' : Nat) : State :=
  let s := committing 0 1 { word := w, off := 0, ops := [0x1FF000000000000, 0, 1] }
  { s with cores := s.cores.map fun e => (e.1, { e.2 with sp := Memory.putNat [] 256 1 meta' }) }
theorem witness_CheckpointCommits : (∀ m ∈ [0x80, 0x90, 0x89], let s := ckpt .acload m
      (s.slotKeys false 0 1).Nodup ∧ (s.slotKeys false 0 1).length = 1 ∧
        (decide (((s.core 0).sp.get (scratchOff 0x1FF000000000000 + 256)).toNat / 16 % 8 = 0 ∧
          ((s.core 0).sp.get (scratchOff 0x1FF000000000000 + 256)).toNat % 16 < 9)) = decide (m = 0x80)) ∧
    (ckpt .ackpt 0).startedCmd 0 0 0 = some { word := .ackpt, off := 0, ops := [0x1FF000000000000, 0, 1] } := by decide +kernel
theorem witness_AttentionCommits : ∀ w ∈ [Instr.qk, .sv], let d : Cmd := { word := w, off := 0, ops := [0, 0, 0, 0x100] }
    let s := mine 0 (committing 0 1 d)
    d.ents[d.prog]? = none ∧ d.taken = [] ∧ s.ringTurn 0 consumedBy 0 d.since = true ∧ (s.ring 0 0).occ ≠ 0 ∧ (s.headTile 0 0).length = 1 ∧
      s.injects (s.rectColumns 0 3) = true ∧ (∀ a ∈ s.rectColumns 0 3, s.arrayPhase a = true) ∧
      ∀ e, e < 4 → s.rectCrosses 0 3 e = false := by decide +kernel
theorem witness_AttentionCommits_rows : ([[1, 2]] : List (List Nat)).length ≤ 64 ∧ (63 : Nat) < 64 := by decide
def draw5 : Cmd := { word := .draw, off := 0, ops := [5, 0x100, 1] }
/-- Request 5 serves a run, or none, and the drawing unit is an iteration or not. -/
def drawer (run : Nat) (spec : Bool) : State :=
  let s := committing 0 1 draw5
  { s with mem := Memory.putNat s.mem (reqAddr 5 + 60) 3 run, ctxs := s.ctxs.map fun e => (e.1, { e.2 with spec := spec }) }
theorem witness_AttentionCommits_draw : (let s := mine 0 (drawer 7 false)
     drawRefused s 5 = some 0x17) ∧ (let s := mine 0 (drawer 0 false)
     drawRefused s 5 = none ∧ (s.takeCtr 0 5).isSome = true) ∧ (let s := mine 0 (drawer 0 true)
     drawRefused s 5 = none ∧ (s.takeCtr 0 5).isSome = true) := by decide +kernel

/-- Request 5 has one layer and one head, lists of four entries at 2^39 + 0x8000 and its pages in a list at 2^39 + 0x9000; partition 0's column 0
is granted. -/
def listed (d : Cmd) (es : List KvEntry) (run : Nat) : State :=
  let s := committing 0 1 d
  let put := fun (m : Memory) (e : Nat × Nat × Nat) => Memory.putNat m e.1 e.2.1 e.2.2
  { s with
    mem := (es.zipIdx.map fun e => (2 ^ 39 + 0x8000 + 16 * e.2, 16, e.1.toNat)).foldl put
      ([(reqAddr 5, 8, 2 ^ 39 + 0x8000), (reqAddr 5 + 40, 2, 1), (reqAddr 5 + 42, 1, 1), (reqAddr 5 + 44, 2, 4), (reqAddr 5 + 48, 8, 2 ^ 39 + 0x9000),
        (reqAddr 5 + 56, 2, 3), (reqAddr 5 + 60, 3, run), (reqAddr 5 + 63, 1, 1)].foldl put s.mem) }
def kvapp5 (prog : Nat) : Cmd := { word := .kvapp, off := 0, ops := [5, 0x10000, 0], prog := prog }
def full : KvEntry := { valid := true, count := 64 }
/-- A tile to take; a request of another run; a list that is full; room in a page; and an iteration. -/
theorem witness_KeyValueCommits : (let s := mine 0 (listed (kvapp5 0) [] 0)
     (kvapp5 0).prog < opBits (nth (kvapp5 0).ops 1) 22 16 ∧ s.ringTurn 0 consumedBy 0 0 = true ∧ (s.ring 0 0).occ ≠ 0) ∧
    ownedElsewhere (mine 0 (listed (kvapp5 1) [] 9)) 5 = true ∧ opBits (nth (kvapp5 1).ops 1) 22 16 ≤ (kvapp5 1).prog ∧
    (let s := mine 0 (listed (kvapp5 1) [{ full with count := 65 }] 0)
     ownedElsewhere s 5 = false ∧ (match s.kvPlan 0 5 0 1 s.myIter with | .error b => b == 0x14 | .ok _ => false) = true) ∧
    (∀ es ∈ [[], [full], [{ full with count := 5 }]], let s := mine 0 (listed (kvapp5 1) es 0)
     ownedElsewhere s 5 = false ∧ s.myIter = none ∧ (kvapp5 1).taken = [] ∧
       (match s.kvPlan 0 5 0 1 s.myIter with
        | .ok a => a.places.length == 1 && a.places.all fun l => l.all fun e => s.crosses e.1.col && s.beatPhase e.1.col
        | .error _ => false) = true) ∧
    (let s := mine 0 (listed (kvapp5 1) [{ full with count := 5 }] 0)
     let q : State := { s with ctxs := s.ctxs.map fun e => (e.1, { e.2 with spec := true, running := some { unit0 with run := 9, iter := 1 } }),
                               parts := s.parts.map fun e => (e.1, { e.2 with runs := [(9, { isOpen := true, width := 2 })] }) }
     q.myIter = some (9, 1) ∧ (match q.kvPlan 0 5 0 1 q.myIter with | .ok a => a.places.length == 1 | .error _ => false) = true) := by decide +kernel
theorem witness_KeyValueCommits_write : (63 : Nat) < 64 ∧ (127 : Nat) < 128 ∧ (∀ x, x < 32768 → encrypted (({ full with page := 1535 } : KvEntry).pa + x) = true) ∧
    (let s := listed (kvapp5 1) [] 0
     ∀ i, i < max 3 2 → s.reqRoot 5 + ((0 * s.reqHeads 5 + 0) * s.reqMaxblk 5 + i) * 16 + 16 ≤ 2 ^ 40 ∧
       ∀ x, x < 16 → encrypted (s.kvAddr 5 0 0 i + x) = true) ∧
    (([full, { full with posbase := 2 ^ 32 - 1 }] : List KvEntry)[1]? = some { full with posbase := 2 ^ 32 - 1 } ∧
      ([full, full] : List KvEntry).length ≤ 2 ∧ (2 : Nat) < 3) := by
  refine ⟨by decide, by decide, ?_, by decide +kernel, by decide⟩
  intro x hx
  have h : ({ full with page := 1535 } : KvEntry).pa = 100597760 := by decide +kernel
  rw [h]
  unfold encrypted region lowRegion
  rw [if_pos (by omega), if_pos (by omega), if_pos (by omega)]
theorem witness_KeyValueCommits_lists : (63 : Nat) < 64 ∧ full.first + full.count = 64 ∧ lastCommitted [full] = some full ∧
    lastCommitted [{ full with count := 60 }] = some { full with count := 60 } ∧ 0 + 60 + 2 + 2 ≤ 64 := by decide +kernel

/-- Three entries of a splice of four tokens at position 10 of request 5, whose list has an entry across that position. -/
def splice5 (n : Nat) : Cmd :=
  { word := .splice, off := 0, ops := [5, 10, 0, 0], ents := List.replicate n { valid := true, spl := true, count := 4, posbase := 10 } }
theorem witness_SpliceCommits : (∀ n ∈ [1, 3], let s := mine 0 (listed (splice5 n) [full] 0)
     s.repairOn 5 true = false ∧ (splice5 n).taken = [] ∧ (s.spliced 0 5 10 (splice5 n).ents).isSome = decide (n = 1) ∧
       s.crosses 0 = true ∧ s.beatPhase 0 = true) ∧ 0 < 10 ∧ 10 < full.posbase + full.count ∧ full.posbase + full.count ≤ 64 := by decide +kernel

/-- Virtual addresses from 0 are the underdeck's, and group 0 has its visible page at virtual address 0x30000 and its buffers at 0x40000 and 0x50000;
a command has started in stream `k`. -/
def copyAt (k : Nat) (d : Cmd) : State :=
  let put := fun (m : Memory) (e : Nat × Nat × Nat) => Memory.putNat m e.1 e.2.1 e.2.2
  { on (leased k (stream40 [] [] [d])) with
    mem := [(grpAddr 0, 8, 2 ^ 39 + 0x30000), (grpAddr 0 + 8, 8, 2 ^ 39 + 0x40000), (grpAddr 0 + 16, 8, 2 ^ 39 + 0x50000), (grpAddr 0 + 24, 4, 1),
      (grpAddr 0 + 28, 1, 1), (pdAddr 0 + 6, 2, 1), (2 ^ 39 + 0x20000, 8, 0x1FF000000003000)].foldl put mapped,
    cores := [(0, { spw := 1, rings := vset (Vector.replicate 8 {}) 0 { ptr := 0x10000, shape := 0x1000201 } })] }
def ends {α : Type} (m : M α) (s : State) : Bool :=
  match m.run s with
  | .ok _ t => t.linkq == s.linkq
  | .error _ _ => false
/-- Does a command's step end with a commit or go on, with nothing queued for a link? -/
def steps (k : Nat) (d : Cmd) : Bool := ends (stepCmd d) (mine k (copyAt k d))
theorem witness_RingCommits : (7 : Nat) < 8 ∧ ([5, 6] : List Row)[1]? = some 6 := ⟨by decide, rfl⟩
/-- The access that the cluster's TLB gives for a load, and a state whose visible pages can be read. -/
def readAt (s : State) (va : Nat) : Option Access :=
  match s.clusterXlate (clusterOf s.myCore) 0 s.unitSuper .load va with
  | (.ok x, _) => some (x.access va)
  | (.error _, _) => none
def paged : State := mine 1 (copyAt 1 (xout1 0))
/-- A window of the last bytes of the scratchpad and one past it; an unmapped page and a mapped one; and a destination in the group, free and
latched, and outside it. -/
theorem witness_CopyAccesses : isWindow 0x1FF000000003FF0 = true ∧
    scratchOff 0x1FF000000003FF0 + 16 ≤ (paged.core paged.myCore).spSize ∧
    (paged.core paged.myCore).spSize < scratchOff 0x1FF000000003FF0 + 17 ∧ 0x1FF000000003FF0 % 4096 + 16 ≤ 4096 ∧ isWindow 0x20000 = false ∧
    paged.walkHeldAt 0 0 paged.unitSuper .load 0x20000 = false ∧ clusterOf paged.myCore = 0 ∧ readAt paged (2 ^ 50) = none ∧
    (readAt paged 0x20000).map (fun a => (a.pa, a.uncached)) = some (2 ^ 39 + 0x20000, false) ∧ paged.groupAt (2 ^ 39 + 0x20000) = none ∧
    encrypted (2 ^ 39 + 0x20000) = true ∧ paged.destGroup (2 ^ 39 + 0x20000) = none ∧ paged.destGroup (2 ^ 39 + 0x30FC0) = some 0 ∧
    2 ^ 39 + 0x30FC0 + 64 ≤ paged.grpVis 0 + paged.grpSize 0 ∧ paged.latched 0 (!paged.grpCur 0) = false ∧
    ({ paged with ctxs := [(0, { latches := [(0, true)] })] } : State).latched 0 true = true := by decide +kernel
def holding : State :=
  { paged with
    clusters := [(0, { l2 := [{ line := (2 ^ 39 + 0x20000) / 64, data := 5, dirty := false, excl := false, key := 0, part := 0 }] })] }
def uncachedPage : State := { paged with mem := Memory.putNat paged.mem 0x8000002000 8 0x800000006F }
/-- The L2 of the core's cluster holds the line at virtual address 0x20000; or its page is uncached and the line is in no L2. -/
theorem witness_CopyAccesses_lines :
    ((holding.cluster (clusterOf holding.myCore)).sector ((2 ^ 39 + 0x20000) / 64)).isSome = true ∧
    (readAt uncachedPage 0x20000).map (·.uncached) = some true ∧
    ∀ l ∈ State.linesOf (2 ^ 39 + 0x20000) 8, uncachedPage.holders l = [] := by decide +kernel
/-- Steps of each word, its last piece or one before it. -/
theorem witness_CopySteps : steps 1 { word := .get, off := 0, ops := [0x20FC0, 0x1FF000000000000, 64] } = true ∧
    steps 1 { word := .get, off := 0, ops := [0x20FC0, 0x1FF000000000000, 128] } = true ∧
    steps 1 { word := .put, off := 0, ops := [0x1FF000000000FC0, 0x30000, 128] } = true ∧
    steps 1 { word := .xfer, off := 0, ops := [0x30000, 0x20FC0, 128] } = true ∧
    steps 1 { word := .fill, off := 0, ops := [0x1FF000000000FC0, 7, 128] } = true ∧
    steps 1 { word := .getr, off := 0, ops := [0x20000, 0, 2] } = true := by decide +kernel
theorem witness_CopySteps_putr : steps 1 { word := .putr, off := 0, ops := [0, 0x30000, 1] } = true := by decide +kernel
theorem witness_CopySteps_elements : steps 2 { word := .gather, off := 0, ops := [0x20000, 0x1FF000000000000, 2, 4] } = true ∧
    steps 2 { word := .scatter, off := 0, ops := [0x1FF000000000000, 0x20000, 2, 4] } = true := by decide +kernel
/-- Context 0's access stream 2 runs over the scratchpad, with an entry in each of its output queues. -/
def queueAt (d : Cmd) : State :=
  let s := copyAt 2 d
  let t := stream40 [] [] [d]
  { s with ctxs := [(0, { leased 2 { t with nest := { t.nest with base := 0x1FF000000000000 } } with
      qout := Vector.replicate 4 [{ tag := 0, data := 5 }] })] }
theorem witness_CopySteps_queues : ends (stepCmd { word := .aqEmit 3, off := 0, ops := [2] })
      (mine 2 (queueAt { word := .aqEmit 3, off := 0, ops := [2] })) = true ∧
    ends (stepCmd { word := .aqDrain 3, off := 0, ops := [1] }) (mine 2 (queueAt { word := .aqDrain 3, off := 0, ops := [1] })) = true ∧
    (let s := queueAt { word := .aqEmit 3, off := 0, ops := [1] }
     (s.ctx 0).qin[(3 : Fin 4)].length < 8 ∧ (s.ctx 0).qout[(3 : Fin 4)] = { tag := 0, data := 5 } :: [] ∧
       (s.ctx 0).wq.any (fun y => y.vec && y.eff == .nothing) = false ∧ 2 < 6) := by decide +kernel

end Sys2Proof.Tests
end

section
/-! SUPPORT. Running a meaning one more step, and what the operations of a unit's end leave alone. -/
namespace Sys2Proof.Proofs
open Sys2Proof.Machine Sys2Proof.Safety Sys2Proof.Laws

/-! Running one more step of a meaning. -/

theorem need_bind {α : Type} (ok : Bool) (c : Byte) (v : Word) (f : Unit → M α) (s : State) :
    (need ok c v >>= f) s = if ok = true then f () s else .error (.trap c v) s := by
  cases ok <;> rfl

theorem await_bind {α : Type} (ok : Bool) (f : Unit → M α) (s : State) :
    (await ok >>= f) s = if ok = true then f () s else .error .stall s := by
  cases ok <;> rfl

/-- What the delivery of a held fault leaves. -/
theorem runSyl_held {k : BitVec 2} {m : M Unit} {s t : State} {i : Nat} (h : m { s with mark := .ok } = .error (.held i) t) :
    runSyl k m s = .next (delivered s i) := by
  simp only [runSyl, EStateM.run, h]
  rfl

theorem deliverHeld_noHeld {s : State} (h : NoHeld s) : deliverHeld s = .ok () s := by
  have hnone : (List.range 6).find? (fun k => (s.me.stream k).fault.isSome) = none := by
    rw [List.find?_eq_none]
    intro k hk
    simp [h k (List.mem_range.1 hk)]
  unfold deliverHeld
  rw [bind_ok (get_run _), hnone]
  rfl

theorem deliverHeld_firstHeld {s : State} {k : Nat} (h : FirstHeld s k) : deliverHeld s = .error (.held k) s := by
  obtain ⟨hk, hf, hmin⟩ := h
  have hsome : (List.range 6).find? (fun k => (s.me.stream k).fault.isSome) = some k := by
    rw [List.find?_range_eq_some]
    exact ⟨Option.isSome_iff_ne_none.2 hf, List.mem_range.2 hk, fun j hj => by simp [hmin j hj]⟩
  unfold deliverHeld
  rw [bind_ok (get_run _), hsome]
  rfl

/-! What a chain of steps keeps. -/

/-- What each step of a chain keeps, the chain keeps. -/
theorem foldl_keeps {σ α β : Type} (π : σ → β) {f : σ → α → σ} (h : ∀ t a, π (f t a) = π t) (l : List α) (s : σ) :
    π (l.foldl f s) = π s := by
  induction l generalizing s with
  | nil => rfl
  | cons a l ih => exact (ih _).trans (h s a)

@[simp] theorem sampleLoad_cur (s : State) (c : Nat) (w : PendWrite) : (s.sampleLoad c w).cur = s.cur := by
  unfold State.sampleLoad; split <;> rfl
@[simp] theorem drainAll_cur (s : State) (c : Nat) : (s.drainAll c).cur = s.cur := by
  unfold State.drainAll
  exact (drains_applyWhere _ c _).cur.trans
    ((foldl_keeps State.cur (fun t w => sampleLoad_cur t c w) _ _).trans (drains_tick s c _).cur)

/-! A write of a device table changes memory alone. -/

theorem still_tput (s : State) (a n v : Nat) : Still s (s.tput a n v) := ⟨rfl, fun _ => rfl, fun _ => rfl, fun _ => rfl, fun _ => rfl⟩
theorem still_setLease (s : State) (p r : Nat) (held wait : Bool) (left ctx : Nat) : Still s (s.setLease p r held wait left ctx) :=
  still_tput _ _ _ _
theorem still_setLeaseWait (s : State) (p r : Nat) (wait : Bool) : Still s (s.setLeaseWait p r wait) := still_tput _ _ _ _

theorem still_homeWrite (key p : Nat) (s : State) (pa : Nat) (bs : List Byte) : Still s (s.homeWrite key p pa bs) := by
  induction bs generalizing s pa with
  | nil => exact .refl s
  | cons b bs ih => exact ((still_recallAll s p (pa / 64)).trans (still_homeWriteLine _ key pa [b])).trans (ih _ _)

/-- A function by which a store to a device table is one field written into memory. -/
def PutsField (f : State → Nat → Nat → Nat → Nat → Option State) : Prop :=
  ∀ (s t : State) (p a n v : Nat), f s p a n v = some t → ∃ e z w, t = s.tput e z w

/-- The definition is unfolded as a function (`id` keeps that step apart): applied, it would make the kernel count `a - tblBase` down. -/
theorem tableStore_putsField : PutsField State.tableStore := by
  delta State.tableStore
  refine id ?_
  intro s t p a n v h
  beta_reduce at h
  generalize a - tblBase = off at h
  cases hoff : State.tableAt off with
  | none => rw [hoff] at h; cases h
  | some e =>
    rw [hoff] at h
    exact ⟨_, _, _, (Option.some.inj (Option.ite_none_right_eq_some.1 h).2).symm⟩

/-- A store to a device table, where the table takes it. -/
theorem still_tableStore {s t : State} {p a n v : Nat} (h : s.tableStore p a n v = some t) : Still s t := by
  obtain ⟨e, z, w, rfl⟩ := tableStore_putsField s t p a n v h
  exact still_tput s e z w

/-- A chain of steps that may fail keeps a state still where each step does. -/
theorem still_foldlM {α : Type} {f : State → α → Option State} (h : ∀ s a t, f s a = some t → Still s t) {l : List α} {s t : State}
    (hl : l.foldlM f s = some t) : Still s t := by
  induction l generalizing s with
  | nil => cases hl; exact .refl _
  | cons a l ih =>
    rw [List.foldlM_cons] at hl
    obtain ⟨u, hu, hl⟩ := Option.bind_eq_some_iff.1 hl
    exact (h s a u hu).trans (ih hl)

theorem still_placeWrite {s t : State} {p : Nat} {a : Access} {bs : List Byte} (h : s.placeWrite p a bs = some t) : Still s t := by
  unfold State.placeWrite at h
  split at h
  · exact still_foldlM (fun _ _ _ => still_tableStore) h
  · cases h
    exact still_homeWrite _ _ _ _ _

theorem still_vWrite {s t : State} {p : Nat} {super : Bool} {va : Nat} {bs : List Byte} (h : s.vWrite p super va bs = .ok t) :
    Still s t := by
  unfold State.vWrite at h
  split at h
  · cases h
  · split at h
    · rename_i hw
      cases h
      exact still_foldlM (fun _ _ _ => still_placeWrite) hw
    · cases h

theorem still_setRecState (s : State) (p va st : Nat) : Still s (s.setRecState p va st) := by
  unfold State.setRecState
  split
  · exact still_vWrite ‹_›
  · exact .refl s

/-! What a lease's end and a request leave of the contexts. -/

@[simp] theorem endLease_cur (s : State) (p r : Nat) : (s.endLease p r).cur = s.cur :=
  (still_setLease s p r false ((s.part p).reqs.any fun q => q.rect == r) 0 0).cur
@[simp] theorem endLease_ctxs (s : State) (p r : Nat) : (s.endLease p r).ctxs = s.ctxs :=
  (still_setLease s p r false ((s.part p).reqs.any fun q => q.rect == r) 0 0).ctxs
@[simp] theorem withdraw_cur (s : State) (p r : Nat) (who : LeaseReq → Bool) : (s.withdraw p r who).cur = s.cur := by
  unfold State.withdraw
  dsimp only
  split
  · rfl
  · exact (still_setLeaseWait _ p r false).cur
@[simp] theorem withdraw_ctxs (s : State) (p r : Nat) (who : LeaseReq → Bool) : (s.withdraw p r who).ctxs = s.ctxs := by
  unfold State.withdraw
  dsimp only
  split
  · rfl
  · exact (still_setLeaseWait _ p r false).ctxs
@[simp] theorem dropLease_cur (s : State) (c : Nat) : (s.dropLease c).cur = s.cur := by
  unfold State.dropLease
  dsimp only
  split
  · rfl
  · simp [State.modCtx]
  · simp [State.modCtx]
  · rfl

@[simp] theorem addReq_cur (s : State) (p r : Nat) (c : Option Nat) (va pri : Nat) : (s.addReq p r c va pri).cur = s.cur :=
  (still_setLeaseWait _ p r true).cur
@[simp] theorem addReq_ctxs (s : State) (p r : Nat) (c : Option Nat) (va pri : Nat) : (s.addReq p r c va pri).ctxs = s.ctxs :=
  (still_setLeaseWait _ p r true).ctxs
@[simp] theorem endParked_cur (s : State) (p r : Nat) : (s.endParked p r).cur = s.cur := by
  unfold State.endParked
  split
  · rfl
  · split
    · rfl
    · simp [State.modPart]
@[simp] theorem endParked_ctxs (s : State) (p r : Nat) : (s.endParked p r).ctxs = s.ctxs := by
  unfold State.endParked
  split
  · rfl
  · split
    · rfl
    · simp [State.modPart]
@[simp] theorem requestLease_cur (s : State) (p r : Nat) (c : Option Nat) (va pri : Nat) : (s.requestLease p r c va pri).cur = s.cur :=
  (endParked_cur _ _ _).trans (addReq_cur _ _ _ _ _ _)
@[simp] theorem requestLease_ctxs (s : State) (p r : Nat) (c : Option Nat) (va pri : Nat) :
    (s.requestLease p r c va pri).ctxs = s.ctxs := (endParked_ctxs _ _ _).trans (addReq_ctxs _ _ _ _ _ _)
@[simp] theorem requestLease_me (s : State) (p r : Nat) (c : Option Nat) (va pri : Nat) : (s.requestLease p r c va pri).me = s.me := by
  unfold State.me State.ctx
  rw [requestLease_cur, requestLease_ctxs]

end Sys2Proof.Proofs
end
section
/-! How a unit ends, rests and joins its streams: HALT, RDV and SUSPEND. -/
namespace Sys2Proof.Proofs
open Sys2Proof.Machine Sys2Proof.Safety Sys2Proof.Laws

/-! HALT and RDV. -/

theorem halt_save {s : State} {u : Running} {w r : Word} {y : Nat} (hu : s.me.running = some u) (hq : s.me.seq = .save w y r) :
    halt s = if s.quiet s.cur = true then .ok () { s.suspendUnit s.cur w y r with mark := .gone } else .error .stall s := by
  unfold halt
  rw [bind_ok (get_run _)]
  simp only [hu, hq, await_bind, upd_run]

theorem halt_restore {s : State} {u : Running} {r : Word} (hu : s.me.running = some u) (hq : s.me.seq = .restore r) :
    halt s = if s.quiet s.cur = true then
      .ok () { (s.drainVec s.cur).modMe fun x => { x with seq := .none } with npc := some r } else .error .stall s := by
  unfold halt
  rw [bind_ok (get_run _)]
  simp only [hu, hq, await_bind, upd_run]

theorem halt_held {s : State} {u : Running} {k : Nat} (hu : s.me.running = some u) (hq : s.me.seq = .none) (hk : FirstHeld s k) :
    halt s = .error (.held k) s := by
  unfold halt
  rw [bind_ok (get_run _)]
  simp only [hu, hq, bind_error (deliverHeld_firstHeld hk)]

theorem halt_unit {s : State} {u : Running} (hu : s.me.running = some u) (hq : s.me.seq = .none) (hn : NoHeld s) :
    halt s = if s.quiet s.cur = true ∧ s.streamsDrained s.cur = true then
      .ok () { ((((s.drainAll s.cur).dropLease s.cur).release s.cur .pkg).finishUnit u.part u.recVa 4 false s.myCore).idleCtx s.cur
        with mark := .gone } else .error .stall s := by
  unfold halt
  rw [bind_ok (get_run _)]
  simp only [hu, hq, bind_ok (deliverHeld_noHeld hn), await_bind, upd_run, ite_and, State.myCore, drainAll_cur, dropLease_cur,
    release_cur]

theorem rdv_run {s : State} (hn : NoHeld s) :
    rdv s = if s.me.pinned = true then
      if s.streamsDrained s.cur = true then .ok () ((s.modMe fun x => { x with pinned := false }).acquire s.cur .pkg)
      else .error .stall s else .ok () s := by
  unfold rdv
  rw [bind_ok (get_run _), bind_ok (deliverHeld_noHeld hn)]
  simp only [ite_run, await_bind]
  rfl

theorem rdv_held {s : State} {k : Nat} (hk : FirstHeld s k) : rdv s = .error (.held k) s := by
  unfold rdv
  rw [bind_ok (get_run _), bind_error (deliverHeld_firstHeld hk)]

theorem haltAndRendezvous : Claims.HaltAndRendezvous := by
  intro s here waits
  refine ⟨fun u hu => ⟨fun w y r hq => ?_, fun r hq => ?_, fun hq => ⟨fun k hk => ?_, fun hn hne => ?_, fun hn hquiet hdrained => ?_⟩⟩,
    fun k hk => runSyl_held (rdv_held (s := here) hk), fun hn => ⟨fun hp => ?_, fun hp hd => ?_, fun hp hd => ?_⟩⟩
  · have h := halt_save (s := here) hu hq
    by_cases hquiet : s.quiet s.cur = true
    · rw [if_pos hquiet]
      exact runSyl_ok (h.trans (if_pos hquiet))
    · rw [if_neg hquiet]
      exact runSyl_stall (h.trans (if_neg hquiet))
  · have h := halt_restore (s := here) hu hq
    by_cases hquiet : s.quiet s.cur = true
    · rw [if_pos hquiet]
      exact runSyl_ok (h.trans (if_pos hquiet))
    · rw [if_neg hquiet]
      exact runSyl_stall (h.trans (if_neg hquiet))
  · exact runSyl_held (halt_held (s := here) hu hq hk)
  · exact runSyl_stall ((halt_unit (s := here) hu hq hn).trans (if_neg hne))
  · exact runSyl_ok ((halt_unit (s := here) hu hq hn).trans (if_pos ⟨hquiet, hdrained⟩))
  · exact runSyl_ok ((rdv_run (s := here) hn).trans (if_neg (by rw [me_mark, hp]; decide)))
  · exact runSyl_ok ((rdv_run (s := here) hn).trans ((if_pos hp).trans (if_pos hd)))
  · exact runSyl_stall ((rdv_run (s := here) hn).trans ((if_pos hp).trans (if_neg (by rw [Bool.not_eq_true]; exact hd))))
end Sys2Proof.Proofs
end

section
namespace Sys2Proof.Proofs
open Sys2Proof.Machine Sys2Proof.Safety Sys2Proof.Laws

/-! SUSPEND. -/

/-- The state in which a unit that is not pinned leaves its lease and, for wait kind 4, its request. -/
def leftLease (s : State) (u : Running) (w : Nat) : State :=
  let q := (s.dropLease s.cur).modMe fun x => { x with latches := [] }
  if waitKind w = 4 then (q.setGranted u.part u.recVa false).requestLease u.part (waitObj w) none u.recVa u.pri else q

@[simp] theorem setGranted_cur (s : State) (p va : Nat) (b : Bool) : (s.setGranted p va b).cur = s.cur := rfl
@[simp] theorem setGranted_ctxs (s : State) (p va : Nat) (b : Bool) : (s.setGranted p va b).ctxs = s.ctxs := rfl
theorem leftLease_cur (s : State) (u : Running) (w : Nat) : (leftLease s u w).cur = s.cur := by
  unfold leftLease
  dsimp only
  split <;> simp

theorem dropLease_pc (s : State) (c d : Nat) : ((s.dropLease c).ctx d).pc = (s.ctx d).pc := by
  have modCtx_pc : ∀ (t : State) (f : Ctx → Ctx), (∀ x, (f x).pc = x.pc) → t.ctxs = s.ctxs → ((t.modCtx c f).ctx d).pc = (s.ctx d).pc := by
    intro t f hf ht
    have hctx : ∀ e, t.ctx e = s.ctx e := fun e => by unfold State.ctx; rw [ht]
    by_cases hd : d = c
    · subst hd
      rw [State.modCtx, setCtx_ctx_same, hf, hctx]
    · rw [State.modCtx, setCtx_ctx_ne _ _ hd, hctx]
  unfold State.dropLease
  dsimp only
  split
  · rfl
  · exact modCtx_pc _ _ (fun _ => rfl) (endLease_ctxs _ _ _)
  · exact modCtx_pc _ _ (fun _ => rfl) (withdraw_ctxs _ _ _ _)
  · exact modCtx_pc _ _ (fun _ => rfl) rfl

theorem leftLease_pc (s : State) (u : Running) (w : Nat) : (leftLease s u w).me.pc = s.me.pc := by
  have hq : ((s.dropLease s.cur).modMe fun x => { x with latches := [] }).me.pc = s.me.pc := by
    rw [modMe_me]
    show (s.dropLease s.cur).me.pc = s.me.pc
    unfold State.me
    rw [dropLease_cur, dropLease_pc]
  unfold leftLease
  dsimp only
  split
  · rw [requestLease_me]
    exact hq
  · exact hq

/-- What a SUSPEND of a unit that is not pinned leaves of `t`, its save sequence being looked up in `s`. -/
def leftUnit (s t : State) (u : Running) (ga : Word) (y : Nat) : State :=
  let save := (s.yieldEntry u.part u.image y).1
  let q := leftLease t u ga.toNat
  if save = 0xFFFFFFFF then { q.suspendUnit q.cur ga y (q.me.pc + 16) with mark := .gone }
  else { q.modMe fun x => { x with seq := .save ga y (x.pc + 16) } with
    npc := some (BitVec.ofNat 64 ((q.ctlSection u.part u.image).1 + save)) }

/-- The checks of SUSPEND, in their order, and what follows them. -/
theorem suspend_run {s : State} {a : Reg} {u : Running} (imm : BitVec 10) (ha : Ready s a) (hu : s.me.running = some u) :
    suspend a imm s =
      if waitKind (s.me.reg a).toNat < 6 then
        if extU s imm < s.yieldCnt u.part u.image then
          if (!waitObjBad (s.me.reg a).toNat) = true then
            if (!(s.me.pinned && waitKind (s.me.reg a).toNat == 4 && s.me.asked != some (waitObj (s.me.reg a).toNat)
                && !s.me.lease.idle)) = true then
              if (waitKind (s.me.reg a).toNat != 4 || s.rectOk u.part (waitObj (s.me.reg a).toNat) s.myCore) = true then
                if (waitKind (s.me.reg a).toNat != 5 || s.reqIn u.part (waitObj (s.me.reg a).toNat)) = true then
                  (deliverHeld >>= fun _ => await (s.quiet s.cur) >>= fun _ =>
                    if s.me.pinned = true then suspendPinned (s.me.reg a) u
                    else upd fun t => leftUnit s t u (s.me.reg a) (extU s imm)) s
                else .error (.trap 0x0A (BitVec.ofNat 64 (waitObj (s.me.reg a).toNat))) s
              else .error (.trap 0x0A (s.me.reg a)) s
            else .error (.trap 0x01 (s.me.reg a)) s
          else .error (.trap 0x01 (s.me.reg a)) s
        else .error (.trap 0x01 (BitVec.ofNat 64 (extU s imm))) s
      else .error (.trap 0x01 (s.me.reg a)) s := by
  unfold suspend
  rw [bind_ok (immU_run _ _), bind_ok (peekG_ready ha), bind_ok (get_run _)]
  simp only [hu, need_bind, Option.map_some, Option.getD_some, bind_ok (rdG_ready ha), decide_eq_true_eq]
  rfl

theorem leftUnit_eq (s t : State) (u : Running) (ga : Word) (y : Nat) : leftUnit s t u ga y =
    if (s.yieldEntry u.part u.image y).1 = 0xFFFFFFFF then
      { (leftLease t u ga.toNat).suspendUnit t.cur ga y (t.me.pc + 16) with mark := .gone }
    else { (leftLease t u ga.toNat).modMe fun x => { x with seq := .save ga y (t.me.pc + 16) } with
      npc := some (BitVec.ofNat 64 (((leftLease t u ga.toNat).ctlSection u.part u.image).1 + (s.yieldEntry u.part u.image y).1)) } := by
  have hseq : (leftLease t u ga.toNat).modMe (fun x => { x with seq := .save ga y (x.pc + 16) }) =
      (leftLease t u ga.toNat).modMe fun x => { x with seq := .save ga y ((leftLease t u ga.toNat).me.pc + 16) } := rfl
  unfold leftUnit
  dsimp only
  rw [hseq, leftLease_cur, leftLease_pc]

/-- A pinned unit that waits: it has requested the lease that it asks for, and its publish latches are gone. -/
def pinnedReady (s : State) (u : Running) (w : Nat) : State :=
  (if waitKind w = 4 ∧ s.me.asked ≠ some (waitObj w) then
    (s.requestLease u.part (waitObj w) (some s.cur) u.recVa u.pri).modMe fun x =>
      { x with lease := .requested (waitObj w) s.now, asked := some (waitObj w) } else s).modMe fun x => { x with latches := [] }
/-- What it waits for is noted. -/
def pinnedNoted (s : State) (u : Running) (w : Nat) : State :=
  if waitKind w = 1 then (pinnedReady s u w).modMe (·.waitOn (waitObj w) (waitTarget w))
  else if waitKind w = 3 then (pinnedReady s u w).modMe fun x =>
    { x with barOn := some (bitsOf (waitObj w) 22 17 * 512 + bitsOf (waitObj w) 16 8) } else pinnedReady s u w

theorem pinnedNoted_cur (s : State) (u : Running) (w : Nat) : (pinnedNoted s u w).cur = s.cur := by
  have hr : (pinnedReady s u w).cur = s.cur := by
    unfold pinnedReady
    rw [modMe_cur]
    split <;> simp
  unfold pinnedNoted
  split
  · exact hr
  · split <;> exact hr
theorem woken_cur (s : State) : (woken s).cur = s.cur := by
  unfold woken
  split
  · rfl
  · split
    · exact (still_setRecState _ _ _ _).cur
    · rfl

/-- SUSPEND of a pinned unit, up to the point where it waits. -/
theorem suspendPinned_run (s : State) (ga : Word) (u : Running) : suspendPinned ga u s =
    if waitKind ga.toNat = 3 ∧ s.me.barLost = true then .error (.trap 0x13 (waitDesc ga.toNat)) s
    else if waitKind ga.toNat = 0 then .ok () (pinnedReady s u ga.toNat)
    else ((holdUntil fun t => t.condHolds u.part u.recVa (some t.cur) ga.toNat || t.me.waitMet) >>= fun _ =>
      (upd fun t => t.modMe fun x => { x with asked := none, cntOn := none, barOn := none }) >>= fun _ =>
        if waitKind ga.toNat = 1 ∨ waitKind ga.toNat = 2 then acq .pkg else pure ()) (pinnedNoted s u ga.toNat) := by
  unfold suspendPinned pinnedNoted pinnedReady
  rw [bind_ok (get_run _)]
  by_cases h0 : waitKind ga.toNat = 0
  · simp [h0]
  by_cases h3 : waitKind ga.toNat = 3
  · cases hb : s.me.barLost
    · simp [h3, need_bind, bind_ok (upd_run _ _)]
    · simp [h3, need_bind]
  by_cases h4 : waitKind ga.toNat = 4
  · by_cases hask : s.me.asked = some (waitObj ga.toNat)
    · simp [h4, hask, bind_ok (upd_run _ _)]
    · simp [h4, hask, bind_ok (upd_run _ _)]
  · by_cases h1 : waitKind ga.toNat = 1
    · simp [h1, bind_ok (upd_run _ _)]
    · simp [h0, h1, h3, h4, bind_ok (upd_run _ _)]

/-- A pinned unit goes on once its condition holds, with an acquire after wait kinds 1 and 2. -/
theorem suspendPinned_met {s : State} {ga : Word} {u : Running} (h0 : waitKind ga.toNat ≠ 0)
    (h3 : waitKind ga.toNat = 3 → s.me.barLost = false)
    (hc : ((pinnedNoted s u ga.toNat).condHolds u.part u.recVa (some s.cur) ga.toNat || (pinnedNoted s u ga.toNat).me.waitMet) = true) :
    let past := (woken (pinnedNoted s u ga.toNat)).modMe fun x => { x with asked := none, cntOn := none, barOn := none }
    suspendPinned ga u s = .ok () (if waitKind ga.toNat = 1 ∨ waitKind ga.toNat = 2 then past.acquire s.cur .pkg else past) := by
  intro past
  have hcur : past.cur = s.cur := by rw [modMe_cur, woken_cur, pinnedNoted_cur]
  rw [suspendPinned_run, if_neg (by rintro ⟨hk, hl⟩; rw [h3 hk] at hl; cases hl), if_neg h0,
    bind_ok (holdUntil_true (by rw [pinnedNoted_cur]; exact hc)), bind_ok (upd_run _ _)]
  split
  · rw [acq_run, hcur]
  · rfl

/-- Until then it is held. -/
theorem suspendPinned_unmet {s : State} {ga : Word} {u : Running} (h0 : waitKind ga.toNat ≠ 0)
    (h3 : waitKind ga.toNat = 3 → s.me.barLost = false)
    (hc : ((pinnedNoted s u ga.toNat).condHolds u.part u.recVa (some s.cur) ga.toNat || (pinnedNoted s u ga.toNat).me.waitMet) = false) :
    ∃ t, suspendPinned ga u s = .error .hold t ∧ { t with mark := .hold } = held (pinnedNoted s u ga.toNat) := by
  obtain ⟨t, ht, hh⟩ := holdUntil_false (s := pinnedNoted s u ga.toNat)
    (cond := fun t => t.condHolds u.part u.recVa (some t.cur) ga.toNat || t.me.waitMet) (by rw [pinnedNoted_cur]; exact hc)
  refine ⟨t, ?_, hh⟩
  rw [suspendPinned_run, if_neg (by rintro ⟨hk, hl⟩; rw [h3 hk] at hl; cases hl), if_neg h0, bind_error ht]

/-- The rest of SUSPEND, its checks passed (R260). -/
def suspendPassed (s : State) (u : Running) (ga : Word) (y : Nat) : M Unit := do
  deliverHeld
  await (s.quiet s.cur)
  if s.me.pinned then suspendPinned ga u else upd fun t => leftUnit s t u ga y

/-- The operands of a SUSPEND are in their form, and a pinned unit that asks for a lease has none (R434). -/
def Formed (s : State) (u : Running) (w y : Nat) : Prop :=
  waitKind w < 6 ∧ y < s.yieldCnt u.part u.image ∧ waitObjBad w = false ∧
    (s.me.pinned = true → (waitKind w = 4 ∧ s.me.asked ≠ some (waitObj w)) → s.me.lease.idle = true)
/-- What they name is the partition's. -/
def Named (s : State) (u : Running) (w : Nat) : Prop :=
  (waitKind w = 4 → s.rectOk u.part (waitObj w) s.myCore = true) ∧ (waitKind w = 5 → s.reqIn u.part (waitObj w) = true)

theorem idle_iff (s : State) (w : Nat) : (s.me.pinned = true → (waitKind w = 4 ∧ s.me.asked ≠ some (waitObj w)) → s.me.lease.idle = true) ↔
    (!(s.me.pinned && waitKind w == 4 && s.me.asked != some (waitObj w) && !s.me.lease.idle)) = true := by
  cases s.me.pinned <;> cases s.me.lease.idle <;> simp [imp_iff_not_or]

section
variable {s : State} {a : Reg} {u : Running} {imm : BitVec 10} (ha : Ready s a) (hu : s.me.running = some u)
include ha hu

theorem suspend_kind (hk : 6 ≤ waitKind (s.me.reg a).toNat) : suspend a imm s = .error (.trap 0x01 (s.me.reg a)) s := by
  rw [suspend_run imm ha hu, if_neg (Nat.not_lt.2 hk)]

theorem suspend_yield (hk : waitKind (s.me.reg a).toNat < 6) (hy : s.yieldCnt u.part u.image ≤ extU s imm) :
    suspend a imm s = .error (.trap 0x01 (BitVec.ofNat 64 (extU s imm))) s := by
  rw [suspend_run imm ha hu, if_pos hk, if_neg (Nat.not_lt.2 hy)]

theorem suspend_object (hk : waitKind (s.me.reg a).toNat < 6) (hy : extU s imm < s.yieldCnt u.part u.image)
    (ho : waitObjBad (s.me.reg a).toNat = true) : suspend a imm s = .error (.trap 0x01 (s.me.reg a)) s := by
  rw [suspend_run imm ha hu, if_pos hk, if_pos hy, if_neg (by simp [ho])]

theorem suspend_busy (hk : waitKind (s.me.reg a).toNat < 6) (hy : extU s imm < s.yieldCnt u.part u.image)
    (ho : waitObjBad (s.me.reg a).toNat = false) (hi : ¬(s.me.pinned = true →
      (waitKind (s.me.reg a).toNat = 4 ∧ s.me.asked ≠ some (waitObj (s.me.reg a).toNat)) → s.me.lease.idle = true)) :
    suspend a imm s = .error (.trap 0x01 (s.me.reg a)) s := by
  rw [idle_iff] at hi
  rw [suspend_run imm ha hu, if_pos hk, if_pos hy, if_pos (by simp [ho]), if_neg hi]

/-- A SUSPEND that is formed meets the checks of what its wait names. -/
theorem suspend_formed (hf : Formed s u (s.me.reg a).toNat (extU s imm)) : suspend a imm s =
    if (waitKind (s.me.reg a).toNat != 4 || s.rectOk u.part (waitObj (s.me.reg a).toNat) s.myCore) = true then
      if (waitKind (s.me.reg a).toNat != 5 || s.reqIn u.part (waitObj (s.me.reg a).toNat)) = true then
        suspendPassed s u (s.me.reg a) (extU s imm) s
      else .error (.trap 0x0A (BitVec.ofNat 64 (waitObj (s.me.reg a).toNat))) s
    else .error (.trap 0x0A (s.me.reg a)) s := by
  obtain ⟨hk, hy, ho, hi⟩ := hf
  rw [suspend_run imm ha hu, if_pos hk, if_pos hy, if_pos (by simp [ho]), if_pos ((idle_iff s _).1 hi)]
  rfl

theorem suspend_passed (hf : Formed s u (s.me.reg a).toNat (extU s imm)) (hn : Named s u (s.me.reg a).toNat) :
    suspend a imm s = suspendPassed s u (s.me.reg a) (extU s imm) s := by
  obtain ⟨h4, h5⟩ := hn
  rw [suspend_formed ha hu hf, if_pos (by simpa [← imp_iff_not_or] using h4), if_pos (by simpa [← imp_iff_not_or] using h5)]

/-- A pinned unit waits in place. -/
theorem suspend_pinned (hf : Formed s u (s.me.reg a).toNat (extU s imm)) (hn : Named s u (s.me.reg a).toNat) (hh : NoHeld s)
    (hq : s.quiet s.cur = true) (hp : s.me.pinned = true) : suspend a imm s = suspendPinned (s.me.reg a) u s := by
  rw [suspend_passed ha hu hf hn, suspendPassed, bind_ok (deliverHeld_noHeld hh), bind_ok (await_true hq s), if_pos hp]

/-- Another leaves its context. -/
theorem suspend_leaves (hf : Formed s u (s.me.reg a).toNat (extU s imm)) (hn : Named s u (s.me.reg a).toNat) (hh : NoHeld s)
    (hq : s.quiet s.cur = true) (hp : s.me.pinned = false) :
    suspend a imm s = .ok () (leftUnit s s u (s.me.reg a) (extU s imm)) := by
  rw [suspend_passed ha hu hf hn, suspendPassed, bind_ok (deliverHeld_noHeld hh), bind_ok (await_true hq s), if_neg (by simp [hp])]
  rfl
end

theorem suspend_claim : Claims.Suspend := by
  intro s a imm u ha hu here ga w kind obj y asks idle formed named q₀ q asked ready noted met past
  have ha' : Ready here a := ha
  refine ⟨fun hk => ?_, fun hk hy => ?_, fun hk hy ho => ?_, fun hk hy ho hi => ?_, fun hf hk hr => ?_, fun hf hk hr => ?_,
    fun hf hn k hh => ?_, fun hf hn hh hq => ?_, fun hf hn hh hq => ⟨fun hp => ⟨fun h0 => ?_, fun h3 hl => ?_, fun h0 h3 => ⟨?_, ?_⟩⟩,
      fun hp => ⟨?_, ?_⟩⟩⟩
  · exact runSyl_trap (suspend_kind ha' hu hk)
  · exact runSyl_trap (suspend_yield ha' hu hk hy)
  · exact runSyl_trap (suspend_object ha' hu hk hy ho)
  · exact runSyl_trap (suspend_busy ha' hu hk hy ho hi)
  · refine runSyl_trap (t := here) ((suspend_formed ha' hu hf).trans (if_neg ?_))
    show ¬(kind != 4 || here.rectOk u.part obj s.myCore) = true
    simp [hk, hr]
  · refine runSyl_trap (t := here) ((suspend_formed ha' hu hf).trans ((if_pos ?_).trans (if_neg ?_)))
    · show (kind != 4 || here.rectOk u.part obj s.myCore) = true
      simp [hk]
    · show ¬(kind != 5 || here.reqIn u.part obj) = true
      simp [hk, hr]
  · exact runSyl_held (t := here) ((suspend_passed ha' hu hf hn).trans (bind_error (deliverHeld_firstHeld (s := here) hh)))
  · refine runSyl_stall (t := here) ((suspend_passed ha' hu hf hn).trans ((bind_ok (deliverHeld_noHeld (s := here) hh)).trans ?_))
    exact bind_error (await_false hq here)
  · refine runSyl_ok ((suspend_pinned ha' hu hf hn hh hq hp).trans ((suspendPinned_run _ _ _).trans ?_))
    rw [if_neg fun h => by have := h.1.symm.trans h0; omega]
    exact if_pos h0
  · refine runSyl_trap (t := here) ((suspend_pinned ha' hu hf hn hh hq hp).trans ((suspendPinned_run _ _ _).trans ?_))
    exact if_pos ⟨h3, hl⟩
  · exact fun hm => runSyl_ok ((suspend_pinned ha' hu hf hn hh hq hp).trans (suspendPinned_met h0 h3 hm))
  · intro hm
    obtain ⟨t, ht, hheld⟩ := suspendPinned_unmet (s := here) h0 h3 hm
    exact (runSyl_hold ((suspend_pinned ha' hu hf hn hh hq hp).trans ht)).trans (congrArg _ hheld)
  · intro hs
    refine runSyl_ok ((suspend_leaves ha' hu hf hn hh hq hp).trans ?_)
    exact congrArg _ ((leftUnit_eq _ _ _ _ _).trans (if_pos hs))
  · intro hs
    refine runSyl_ok ((suspend_leaves ha' hu hf hn hh hq hp).trans ?_)
    exact congrArg _ ((leftUnit_eq _ _ _ _ _).trans (if_neg hs))

/-- Settles O15: HALT, RDV and SUSPEND, each run through its checks in their order. -/
theorem unitEnds : Obligations.UnitEnds := ⟨haltAndRendezvous, suspend_claim⟩
end Sys2Proof.Proofs
end

section
/-! SUPPORT. Fields of memory and of the device tables, read after a write. -/
namespace Sys2Proof.Proofs
open Sys2Proof.Machine Sys2Proof.Safety Sys2Proof.Laws

@[simp] theorem bytes_length (m : Memory) (a n : Nat) : (m.bytes a n).length = n := by
  induction n generalizing a with
  | zero => rfl
  | succ n ih => simp [Memory.bytes, ih]

theorem bytes_getElem (m : Memory) (a n i : Nat) (h : i < (m.bytes a n).length) : (m.bytes a n)[i] = m.get (a + i) := by
  induction n generalizing a i with
  | zero => simp [Memory.bytes] at h
  | succ n ih =>
    cases i with
    | zero => simp [Memory.bytes]
    | succ i =>
      simp only [Memory.bytes, List.getElem_cons_succ, ih]
      congr 1
      omega

/-- Bytes read alike where each of them does. -/
theorem bytes_congr {m m' : Memory} {a n : Nat} (h : ∀ i < n, m.get (a + i) = m'.get (a + i)) : m.bytes a n = m'.bytes a n :=
  List.ext_getElem (by simp) fun i hi hi' => by
    rw [bytes_getElem, bytes_getElem, h i (by simpa using hi)]

theorem bytes_putBytes_same (m : Memory) (a : Nat) (bs : List Byte) : (m.putBytes a bs).bytes a bs.length = bs :=
  List.ext_getElem (by simp) fun i hi hi' => by rw [bytes_getElem, get_putBytes_in _ _ _ _ hi']

theorem nat_putNat_same (m : Memory) (a n v : Nat) : (m.putNat a n v).nat a n = v % 256 ^ n := by
  have hb : (m.putBytes a (bytesOfNat n v)).bytes a n = bytesOfNat n v := by
    have := bytes_putBytes_same m a (bytesOfNat n v)
    rwa [bytesOfNat_length] at this
  unfold Memory.nat Memory.putNat
  rw [hb, natOfBytes_bytesOfNat]

theorem nat_putNat_out (m : Memory) {a n b k : Nat} (v : Nat) (h : a + n ≤ b ∨ b + k ≤ a) : (m.putNat a n v).nat b k = m.nat b k := by
  unfold Memory.nat Memory.putNat
  rw [bytes_congr fun i hi => get_putBytes_out m a (b + i) (bytesOfNat n v) (by rw [bytesOfNat_length]; omega)]

theorem tget_tput_same (s : State) (a n v : Nat) : (s.tput a n v).tget a n = v % 256 ^ n := nat_putNat_same _ _ _ _
theorem tget_tput_out (s : State) {a n b k : Nat} (v : Nat) (h : a + n ≤ b ∨ b + k ≤ a) : (s.tput a n v).tget b k = s.tget b k :=
  nat_putNat_out _ _ h

/-! Issue slots. -/

theorem setSlotState_slotState_same (s : State) (c v : Nat) (hv : v < 8) : (s.setSlotState c v).slotState c = v := by
  unfold State.setSlotState State.slotState
  rw [tget_tput_out _ _ (.inr (by omega)), tget_tput_same]
  omega
theorem setSlotState_slotState_ne (s : State) {c d : Nat} (v : Nat) (h : d ≠ c) : (s.setSlotState c v).slotState d = s.slotState d := by
  unfold State.setSlotState State.slotState
  rw [tget_tput_out _ _ (by unfold slotAddr; omega), tget_tput_out _ _ (by unfold slotAddr; omega)]
theorem still_setSlotState (s : State) (c v : Nat) : Still s (s.setSlotState c v) := (still_tput _ _ _ _).trans (still_tput _ _ _ _)

/-! What the memory hierarchy leaves of launches, queues and counters. -/

section
variable {s t : State} (h : Still s t)
include h
theorem still_launches : t.launches = s.launches := (congrArg State.launches h.rest : (unseen t).launches = (unseen s).launches)
theorem still_launchq : t.launchq = s.launchq := (congrArg State.launchq h.rest : (unseen t).launchq = (unseen s).launchq)
theorem still_nodeWait : t.nodeWait = s.nodeWait := (congrArg State.nodeWait h.rest : (unseen t).nodeWait = (unseen s).nodeWait)
theorem still_launch (l : Nat) : t.launch l = s.launch l := by
  unfold State.launch
  rw [still_launches h]
end

theorem still_counter {s t : State} (h : Still s t) (p n : Nat) : t.counter p n = s.counter p n := by
  unfold State.counter
  exact congrArg (fun l => assocGet ({} : Counter) l n) (congrArg Part.counters (h.part p) : (noStats (t.part p)).counters = (noStats (s.part p)).counters)
theorem setCounter_counter_same (s : State) (p n : Nat) (x : Counter) : (s.setCounter p n x).counter p n = x := by
  simp [State.counter, State.setCounter, State.modPart]
theorem setCounter_counter_ne (s : State) (p : Nat) {n m : Nat} (x : Counter) (h : m ≠ n) :
    (s.setCounter p n x).counter p m = s.counter p m := by
  simp [State.counter, State.setCounter, State.modPart, assocGet_assocSet_ne _ _ _ h]

/-! The unit's end and the waits of a counter leave counters alone. -/

theorem enqueue_part (s : State) (e : Ready) (p : Nat) : (s.enqueue e).part p = s.part p := by
  unfold State.enqueue
  split <;> rfl
theorem setGranted_counter (s : State) (p va : Nat) (b : Bool) (q n : Nat) : (s.setGranted p va b).counter q n = s.counter q n := by
  unfold State.counter State.setGranted State.modPart
  by_cases h : q = p
  · subst h
    rw [setPart_part_same]
  · rw [setPart_part_ne _ _ h]
theorem wakeRec_counter (s : State) (p va q n : Nat) : (s.wakeRec p va).counter q n = s.counter q n := by
  unfold State.wakeRec
  split
  · rfl
  · dsimp only
    split
    · rfl
    · split
      · exact (congrArg (fun x : Part => assocGet ({} : Counter) x.counters n) (enqueue_part _ _ q)).trans
          (still_counter (still_setRecState _ _ _ _) q n)
      · exact setGranted_counter _ _ _ _ _ _
theorem wakeWhere_counter (s : State) (p : Nat) (sat : Nat → Bool) (q n : Nat) : (s.wakeWhere p sat).counter q n = s.counter q n := by
  refine foldl_keeps (fun t : State => t.counter q n) (fun t e => ?_) _ _
  split
  · exact wakeRec_counter _ _ _ _ _
  · rfl
theorem counterEvent_counter_same (s : State) (p n : Nat) (x : Counter) : (s.counterEvent p n x).counter p n = x :=
  (wakeWhere_counter _ _ _ _ _).trans (setCounter_counter_same s p n x)
theorem closeCounter_counter_same (s : State) (p n : Nat) :
    (s.closeCounter p n).counter p n = { s.counter p n with status := if (s.counter p n).cancelled then 3 else 2 } :=
  setCounter_counter_same _ _ _ _
theorem closeCounter_counter_ne (s : State) (p : Nat) {n m : Nat} (h : m ≠ n) : (s.closeCounter p n).counter p m = s.counter p m :=
  setCounter_counter_ne _ _ _ h

/-! A launch's slots retire. -/

/-- A slot that retires is draining, or free at once. -/
theorem retireSlot_eq (s : State) (c : Nat) :
    s.retireSlot c = s.setSlotState c 2 ∨ s.retireSlot c = (s.setSlotState c 2).setSlotState c 0 := by
  unfold State.retireSlot State.slotDrained
  rw [setSlotState_slotState_same _ _ _ (by decide)]
  split
  · exact .inl rfl
  · exact .inr rfl

theorem still_retireSlot (s : State) (c : Nat) : Still s (s.retireSlot c) := by
  rcases retireSlot_eq s c with h | h
  · rw [h]
    exact still_setSlotState _ _ _
  · rw [h]
    exact (still_setSlotState _ _ _).trans (still_setSlotState _ _ _)

theorem retireSlot_unbound (s : State) (c l : Nat) : (s.retireSlot c).boundTo c l = false := by
  have hstate : (s.retireSlot c).slotState c = 2 ∨ (s.retireSlot c).slotState c = 0 := by
    rcases retireSlot_eq s c with h | h <;> rw [h]
    · exact .inl (setSlotState_slotState_same _ _ _ (by decide))
    · exact .inr (setSlotState_slotState_same _ _ _ (by decide))
  unfold State.boundTo
  rcases hstate with h | h <;> rw [h] <;> rfl

theorem setSlotState_boundTo_ne (s : State) {c d : Nat} (v l : Nat) (h : d ≠ c) :
    (s.setSlotState c v).boundTo d l = s.boundTo d l := by
  have hlaunch : (s.setSlotState c v).slotLaunch d = s.slotLaunch d := by
    unfold State.setSlotState State.slotLaunch
    rw [tget_tput_out _ _ (by unfold slotAddr; omega), tget_tput_out _ _ (by unfold slotAddr; omega)]
  unfold State.boundTo
  rw [setSlotState_slotState_ne _ _ h, hlaunch]

theorem retireSlot_boundTo_ne (s : State) {c d : Nat} (l : Nat) (h : d ≠ c) : (s.retireSlot c).boundTo d l = s.boundTo d l := by
  rcases retireSlot_eq s c with e | e <;> rw [e]
  · exact setSlotState_boundTo_ne _ _ _ h
  · rw [setSlotState_boundTo_ne _ _ _ h, setSlotState_boundTo_ne _ _ _ h]

/-- The slots of a list that are bound to a launch retire. -/
def retireBound (l : Nat) (cs : List Nat) (s : State) : State := cs.foldl (fun t c => if t.boundTo c l then t.retireSlot c else t) s

theorem still_retireBound (l : Nat) (cs : List Nat) (s : State) : Still s (retireBound l cs s) :=
  Still.fold (fun t c => by
    split
    · exact still_retireSlot t c
    · exact .refl t) cs s

/-- One slot of the list. -/
def retireIfBound (l : Nat) (s : State) (c : Nat) : State := if s.boundTo c l then s.retireSlot c else s

theorem retireIfBound_unbound (l : Nat) (s : State) (c : Nat) : (retireIfBound l s c).boundTo c l = false := by
  unfold retireIfBound
  split
  · exact retireSlot_unbound _ _ _
  · exact Bool.eq_false_iff.2 ‹_›

theorem retireIfBound_keeps_unbound {l d : Nat} {s : State} (c : Nat) (h : s.boundTo d l = false) :
    (retireIfBound l s c).boundTo d l = false := by
  by_cases hd : d = c
  · subst hd
    exact retireIfBound_unbound _ _ _
  · unfold retireIfBound
    split
    · rwa [retireSlot_boundTo_ne _ _ hd]
    · exact h

theorem retireBound_keeps_unbound {l d : Nat} (cs : List Nat) {s : State} (h : s.boundTo d l = false) :
    (retireBound l cs s).boundTo d l = false := by
  induction cs generalizing s with
  | nil => exact h
  | cons c cs ih => exact ih (retireIfBound_keeps_unbound c h)

/-- No slot of the list is bound to the launch any more. -/
theorem retireBound_unbound {l d : Nat} {cs : List Nat} (hd : d ∈ cs) (s : State) : (retireBound l cs s).boundTo d l = false := by
  induction cs generalizing s with
  | nil => cases hd
  | cons c cs ih =>
    rcases List.mem_cons.1 hd with rfl | hd
    · exact retireBound_keeps_unbound cs (retireIfBound_unbound l s d)
    · exact ih hd _

end Sys2Proof.Proofs
end
section
/-! The completion of launches and jobs. -/
namespace Sys2Proof.Proofs
open Sys2Proof.Machine Sys2Proof.Safety Sys2Proof.Laws

/-- An event's step is the state that its effect leaves. -/
theorem runEvent_of_eq (f : State → State) {s t : State} (h : f s = t) : runEvent f s = .next { t with mark := .ok } := by
  rw [← h]
  rfl

/-- A launch that completes, before it leaves the launch queue: its runs are aborted, its stores performed, its counter closed and its slots
retired. -/
def closedLaunch (s : State) (l : Nat) : State :=
  let x := s.launch l
  let a := s.closeRunsOf x.part l
  let m := x.used.foldl (fun t k => t.mergeCore k x.part .pkg) a
  retireBound l x.ctxs ((m.closeCounter x.part x.fields.cnt).modLaunch l fun y => { y with complete := true })

/-- What follows for the level or the node of a launch whose counter has been `c`. -/
def countLaunch (s : State) (x : Launch) (c : Counter) : State :=
  match x.node, c.encl with
  | some (g, i), _ => if c.cancelled then (s.cancelNode x.part g i false).settle x.part else s.completeNode x.part g i
  | none, some j => s.countItem x.part j false
  | none, none => s

theorem still_mergeUsed (s : State) (p : Nat) (used : List Nat) : Still s (used.foldl (fun t k => t.mergeCore k p .pkg) s) :=
  Still.fold (fun t k => still_mergeCore t p k .pkg) used s

theorem finishLaunch_eq (s : State) (l : Nat) : s.finishLaunch l =
    countLaunch ((closedLaunch s l).leaveQueue l) (s.launch l)
      ((s.closeRunsOf (s.launch l).part l).counter (s.launch l).part (s.launch l).fields.cnt) := by
  rw [← still_counter (still_mergeUsed _ (s.launch l).part (s.launch l).used)]
  rfl

section
variable (s : State) (l : Nat)

theorem closedLaunch_counter (m : Nat) : (closedLaunch s l).counter (s.launch l).part m =
    (((s.launch l).used.foldl (fun t k => t.mergeCore k (s.launch l).part .pkg) (s.closeRunsOf (s.launch l).part l)).closeCounter
      (s.launch l).part (s.launch l).fields.cnt).counter (s.launch l).part m := still_counter (still_retireBound _ _ _) _ _

theorem closedLaunch_counter_same : (closedLaunch s l).counter (s.launch l).part (s.launch l).fields.cnt =
    let c := (s.closeRunsOf (s.launch l).part l).counter (s.launch l).part (s.launch l).fields.cnt
    { c with status := if c.cancelled then 3 else 2 } := by
  rw [closedLaunch_counter, closeCounter_counter_same, still_counter (still_mergeUsed _ _ _)]

theorem closedLaunch_counter_ne {m : Nat} (h : m ≠ (s.launch l).fields.cnt) : (closedLaunch s l).counter (s.launch l).part m =
    (s.closeRunsOf (s.launch l).part l).counter (s.launch l).part m := by
  rw [closedLaunch_counter, closeCounter_counter_ne _ _ h, still_counter (still_mergeUsed _ _ _)]

theorem closedLaunch_complete : ((closedLaunch s l).launch l).complete = true := by
  unfold closedLaunch
  rw [still_launch (still_retireBound _ _ _), State.modLaunch, setLaunch_launch_same]

theorem closedLaunch_launchq : (closedLaunch s l).launchq = (s.closeRunsOf (s.launch l).part l).launchq :=
  (still_launchq (still_retireBound _ _ _)).trans
    (still_launchq (still_mergeUsed (s.closeRunsOf (s.launch l).part l) (s.launch l).part (s.launch l).used) :)
theorem closedLaunch_nodeWait : (closedLaunch s l).nodeWait = (s.closeRunsOf (s.launch l).part l).nodeWait :=
  (still_nodeWait (still_retireBound _ _ _)).trans
    (still_nodeWait (still_mergeUsed (s.closeRunsOf (s.launch l).part l) (s.launch l).part (s.launch l).used) :)
end

/-- A launch with no open run closes none. -/
theorem closeRunsOf_none {s : State} {p l : Nat} (h : ∀ e ∈ (s.part p).runs, e.2.isOpen = true → e.2.launch.toNat ≠ l) :
    s.closeRunsOf p l = s := by
  have hnil : ((s.part p).runs.filter fun e => e.2.isOpen && e.2.launch.toNat == l) = [] := by
    rw [List.filter_eq_nil_iff]
    intro e he
    simpa using h e he
  unfold State.closeRunsOf
  rw [hnil]
  rfl

/-! Leaving the launch queue. -/

/-- The launch queue and the waiters without a launch. -/
def leftQueue (s : State) (l : Nat) : State :=
  { s with launchq := s.launchq.filter fun e => e.1 != l, nodeWait := s.nodeWait.filter (· != .launch l) }

theorem leaveQueue_none {s : State} {l : Nat} (h : (leftQueue s l).nodeWait = []) : s.leaveQueue l = leftQueue s l := by
  show (List.range (leftQueue s l).nodeWait.length).foldl (fun t _ => t.admitWaiting) (leftQueue s l) = _
  rw [h]
  rfl

theorem leaveQueue_one {s : State} {l : Nat} {w : Waiter} (h : (leftQueue s l).nodeWait = [w]) :
    s.leaveQueue l = (leftQueue s l).admitWaiting := by
  show (List.range (leftQueue s l).nodeWait.length).foldl (fun t _ => t.admitWaiting) (leftQueue s l) = _
  rw [h]
  rfl

/-- What waits inside the dealer enters a queue that has room. -/
theorem admitWaiting_one {s : State} {w : Waiter} (hw : s.nodeWait = [w]) (hroom : s.launchq.length < 4096) :
    s.admitWaiting = match (generalizing := false) w with
      | .launch k => { s with nodeWait := [], launchq := s.launchq ++ [(k, (s.launch k).fields.pri)] }
      | .node r g i => ({ s with nodeWait := [] }.startNode r g i).settle r := by
  unfold State.admitWaiting
  rw [if_neg (Nat.not_le.2 hroom)]
  cases w <;> simp only [hw, State.queueLaunch]

theorem leaveQueue_full {s : State} {l : Nat} (h : 4096 ≤ (leftQueue s l).launchq.length) : s.leaveQueue l = leftQueue s l :=
  List.foldl_fixed' (f := fun (t : State) (_ : Nat) => t.admitWaiting) (fun _ => if_pos h)
    (List.range (leftQueue s l).nodeWait.length)

/-! The end of a job. -/

/-- A job that ends, with the host's memory as its word leaves it. -/
def endedJob (s : State) (p j : Nat) (host : Memory) : State :=
  { ({ s.closeCounter p j with host := host } : State).setJob p j {} with msix := s.msix ++ [1] }

theorem endJob_eq (s : State) (p j : Nat) : s.endJob p j = endedJob s p j
    (if (s.job p j).endw = 0 then s.host
     else s.host.putNat (s.job p j).endw 8 (State.counterWord ((s.closeCounter p j).counter p j)).toNat) := by
  have hjob : (s.closeCounter p j).job p j = s.job p j := rfl
  unfold State.endJob
  dsimp only
  rw [hjob]
  generalize State.counterWord _ = w
  split <;> rfl

theorem endedJob_counter (s : State) (p j : Nat) (host : Memory) : (endedJob s p j host).counter p j =
    { s.counter p j with status := if (s.counter p j).cancelled then 3 else 2 } := closeCounter_counter_same s p j
theorem endJob_isOpen (s : State) (p j : Nat) : ((s.endJob p j).job p j).isOpen = false := by
  rw [endJob_eq]
  exact congrArg Job.isOpen (setJob_job_same _ p j {})
theorem endJob_msix (s : State) (p j : Nat) : (s.endJob p j).msix = s.msix ++ [1] := by
  rw [endJob_eq]
  rfl
theorem endJob_counter (s : State) (p j : Nat) :
    (s.endJob p j).counter p j = { s.counter p j with status := if (s.counter p j).cancelled then 3 else 2 } := by
  rw [endJob_eq, endedJob_counter]
theorem endJob_host (s : State) (p j : Nat) (h : (s.job p j).endw ≠ 0) :
    (s.endJob p j).host.nat (s.job p j).endw 8 = (State.counterWord ((s.endJob p j).counter p j)).toNat := by
  rw [endJob_counter, endJob_eq, if_neg h, closeCounter_counter_same]
  exact (nat_putNat_same _ _ _ _).trans (Nat.mod_eq_of_lt (BitVec.isLt _))

/-- Settles O45: `closedLaunch` names the state that a completing launch passes through before it leaves the queue. -/
theorem completionEvents : Obligations.CompletionEvents := by
  intro s l p j
  refine ⟨fun hdone => ?_, ⟨leaveQueue_none, ?_, leaveQueue_full⟩, ?_, fun hdone => ?_, fun hopen hdone hlive => ?_⟩
  · have hrun : ∀ t, s.finishLaunch l = t → Does s (.launchCompletion l) t := by
      rintro t rfl
      exact runEvent_of_eq (fun s : State => if s.launchDone l then s.finishLaunch l else s) (if_pos hdone)
    refine ⟨closeRunsOf_none, closedLaunch s l, closedLaunch_complete s l, closedLaunch_counter_same s l,
      fun m hm => closedLaunch_counter_ne s l hm, fun d hd => retireBound_unbound hd _, closedLaunch_launchq s l,
      closedLaunch_nodeWait s l, fun hn he => ?_, fun hn i he => ?_, fun g i hn => ?_⟩ <;>
    refine hrun _ ((finishLaunch_eq s l).trans ?_) <;> unfold countLaunch
    · rw [hn, he]
    · rw [hn, he]
    · rw [hn]
  · intro w hw hroom
    exact (leaveQueue_one hw).trans (admitWaiting_one hw hroom)
  · refine (counterEvent_counter_same _ _ _ _).trans ?_
    rw [Bool.or_false]
  · have hidle : (if s.launchDone l then s.finishLaunch l else s) = s := if_neg (by rw [hdone]; decide)
    exact runEvent_of_eq (fun s : State => if s.launchDone l then s.finishLaunch l else s) hidle
  · have hends : s.jobEnds p j = s.endJob p j := by
      unfold State.jobEnds
      dsimp only
      rw [hopen, hdone, hlive]
      rfl
    refine ⟨{ s.endJob p j with mark := .ok }, runEvent_of_eq (·.jobEnds p j) hends,
      endJob_isOpen s p j, endJob_msix s p j, ?_, endJob_host s p j⟩
    exact congrArg Counter.status (endJob_counter s p j)
end Sys2Proof.Proofs
end

section
/-! SUPPORT. A partition's requests, parked leases and kept units do not enter a read of memory: of what the hardware holds of a
partition only its keys do. -/
namespace Sys2Proof.Proofs
open Sys2Proof.Machine Sys2Proof.Safety Sys2Proof.Laws

theorem cohBytes_setPart (s : State) (p : Nat) (x : Part) (key a n : Nat) : (s.setPart p x).cohBytes key a n = s.cohBytes key a n := by
  induction n generalizing a with
  | zero => rfl
  | succ n ih =>
    unfold State.cohBytes
    rw [ih]
    rfl
theorem cohNat_setPart (s : State) (p : Nat) (x : Part) (key a n : Nat) : (s.setPart p x).cohNat key a n = s.cohNat key a n :=
  congrArg natOfBytes (cohBytes_setPart s p x key a n)

section
variable {s : State} {p : Nat} {x : Part} (h : x.keys = (s.part p).keys)
include h

theorem setPart_part_keys (q : Nat) : ((s.setPart p x).part q).keys = (s.part q).keys := by
  by_cases hq : q = p
  · subst hq
    rw [setPart_part_same, h]
  · rw [setPart_part_ne _ _ hq]

theorem walkFrom_setPart (q : Nat) (super : Bool) (acc : AccessKind) (va l table : Nat) :
    (s.setPart p x).walkFrom q super acc va l table = s.walkFrom q super acc va l table := by
  induction l generalizing table with
  | zero => rfl
  | succ l ih =>
    have hkey : (s.setPart p x).keydef q = s.keydef q := rfl
    have hhole : ∀ b n, (s.setPart p x).inHole b n = s.inHole b n := fun _ _ => rfl
    simp only [State.walkFrom, cohNat_setPart, setPart_part_keys h, ih, hkey, hhole]

theorem walk_setPart (q : Nat) (super : Bool) (acc : AccessKind) (va : Nat) :
    (s.setPart p x).walk q super acc va = s.walk q super acc va := by
  have htable : (s.setPart p x).cachedTable q va = s.cachedTable q va := rfl
  simp only [State.walk, walkFrom_setPart h, htable]
  rfl

theorem vPa_setPart (q : Nat) (super : Bool) (acc : AccessKind) (va : Nat) : (s.setPart p x).vPa q super acc va = s.vPa q super acc va := by
  have hsteer : ∀ l a, (s.setPart p x).steerTo l a = s.steerTo l a := fun _ _ => rfl
  have hplace : ∀ a, (s.setPart p x).placeOk super a = s.placeOk super a := fun _ => rfl
  simp only [State.vPa, walk_setPart h, hsteer, hplace]

theorem vField_setPart (q : Nat) (super : Bool) (va n : Nat) : (s.setPart p x).vField q super va n = s.vField q super va n := by
  have hplace : ∀ tab a k, (s.setPart p x).placeRead tab a k = s.placeRead tab a k := fun tab a k => by
    unfold State.placeRead
    simp only [cohBytes_setPart]
  simp only [State.vField, State.vReadBy, vPa_setPart h, hplace]

theorem recState_setPart (q va : Nat) : (s.setPart p x).recState q va = s.recState q va := by
  simp only [State.recState, State.readRec, vField_setPart h]
end

theorem recState_modPart {s : State} {p : Nat} {f : Part → Part} (hf : ∀ x : Part, (f x).keys = x.keys) (q va : Nat) :
    (s.modPart p f).recState q va = s.recState q va := recState_setPart (hf _) q va
end Sys2Proof.Proofs
end
section
/-! Leases granted, parked and ended; pre-emption and the end of cancelled units. -/
namespace Sys2Proof.Proofs
open Sys2Proof.Machine Sys2Proof.Safety Sys2Proof.Laws

/-! A lease's table entry. -/

theorem tput_parts (s : State) (a n v : Nat) : (s.tput a n v).parts = s.parts := rfl

theorem setLease_leaseHeld (s : State) (p r : Nat) (held wait : Bool) (left ctx : Nat) :
    (s.setLease p r held wait left ctx).leaseHeld p r = held := by
  unfold State.leaseHeld State.setLease bitOf
  rw [tget_tput_same, Nat.testBit_eq_decide_div_mod_eq]
  cases held <;> cases wait <;> simp <;> omega

theorem setLease_leaseWait (s : State) (p r : Nat) (held wait : Bool) (left ctx : Nat) :
    (s.setLease p r held wait left ctx).leaseWait p r = wait := by
  unfold State.leaseWait State.setLease bitOf
  rw [tget_tput_same, Nat.testBit_eq_decide_div_mod_eq]
  cases held <;> cases wait <;> simp <;> omega

/-! Taking slots and clearing latches leaves memory and the partitions. -/

/-- A part of the state that neither the slots' rows nor the columns touch. -/
theorem takeSlots_keeps {β : Type} (π : State → β) (hown : ∀ (t : State) o, π { t with slotOwn := o } = π t)
    (hrow : ∀ (t : State) n x, π (t.setRow n x) = π t) (s : State) (p r : Nat) : π (s.takeSlots p r) = π s := by
  unfold State.takeSlots
  refine foldl_keeps π (fun t e => ?_) _ _
  split
  · rfl
  · exact (foldl_keeps π (fun _ _ => hrow _ _ _) _ _).trans (hown _ _)
theorem clearLatches_keeps {β : Type} (π : State → β) (hcol : ∀ (t : State) n x, π (t.setCol n x) = π t) (s : State) (p : Nat)
    (cols : List Nat) : π (s.clearLatches p cols) = π s := foldl_keeps π (fun _ _ => hcol _ _ _) _ _

theorem setLease_parts (s : State) (p r : Nat) (held wait : Bool) (left ctx : Nat) :
    (s.setLease p r held wait left ctx).parts = s.parts := tput_parts _ _ _ _

theorem setLeaseWait_parts (s : State) (p r : Nat) (wait : Bool) : (s.setLeaseWait p r wait).parts = s.parts := tput_parts _ _ _ _

/-- The lease of a rectangle as a grant to a request leaves it, before it belongs to anyone. -/
def grantedTo (s : State) (p rect : Nat) (q : LeaseReq) : State :=
  let a := s.modPart p fun x => { x with reqs := x.reqs.erase q }
  let held := a.setLease p rect true ((a.part p).reqs.any fun r => r.rect == rect) (s.part p).leaseMax.toNat (q.ctx.getD 0)
  (held.takeSlots p rect).clearLatches p (held.rectColumns p rect)

section
variable (s : State) (p rect : Nat) (q : LeaseReq)

theorem grantedTo_parts : (grantedTo s p rect q).parts = (s.modPart p fun x => { x with reqs := x.reqs.erase q }).parts :=
  ((clearLatches_keeps State.parts (fun _ _ _ => rfl) _ _ _).trans
    (takeSlots_keeps State.parts (fun _ _ => rfl) (fun _ _ _ => rfl) _ _ _)).trans (setLease_parts _ _ _ _ _ _ _)

/-- Where no other request names the rectangle, the lease is granted without WAIT. -/
theorem grantedTo_unwanted {s : State} {p rect : Nat} {q : LeaseReq} (hq : q.ctx = none) (h : ∀ r ∈ (s.part p).reqs.erase q, r.rect ≠ rect) :
    let held := (s.modPart p fun x => { x with reqs := x.reqs.erase q }).setLease p rect true false (s.part p).leaseMax.toNat 0
    grantedTo s p rect q = (held.takeSlots p rect).clearLatches p (held.rectColumns p rect) := by
  have hany : ((s.modPart p fun x => { x with reqs := x.reqs.erase q }).part p).reqs.any (fun r => r.rect == rect) = false := by
    simpa [State.modPart] using h
  unfold grantedTo
  dsimp only
  rw [hany, hq]
  dsimp only [Option.getD]

theorem grantedTo_part : (grantedTo s p rect q).part p = { s.part p with reqs := (s.part p).reqs.erase q } :=
  (congrArg (fun l => assocGet ({} : Part) l p) (grantedTo_parts s p rect q)).trans (setPart_part_same _ _ _)

theorem grantedTo_leaseHeld : (grantedTo s p rect q).leaseHeld p rect = true := by
  unfold grantedTo
  dsimp only
  rw [clearLatches_keeps (fun t => t.leaseHeld p rect) (fun _ _ _ => rfl), takeSlots_keeps (fun t => t.leaseHeld p rect) (fun _ _ => rfl)
    (fun _ _ _ => rfl), setLease_leaseHeld]

theorem grantedTo_leaseWait : (grantedTo s p rect q).leaseWait p rect = ((s.part p).reqs.erase q).any fun r => r.rect == rect := by
  unfold grantedTo
  dsimp only
  rw [clearLatches_keeps (fun t => t.leaseWait p rect) (fun _ _ _ => rfl), takeSlots_keeps (fun t => t.leaseWait p rect) (fun _ _ => rfl)
    (fun _ _ _ => rfl), setLease_leaseWait, State.modPart, setPart_part_same]
end

/-! Grants. -/

/-- The lease parked for a suspended record, before the record learns of it. -/
def parkedFor (s : State) (p rect : Nat) (q : LeaseReq) : State :=
  (grantedTo s p rect q).modPart p fun x => { x with
    parked := x.parked ++ [{ rect := rect, recVa := q.recVa, left := (s.part p).leaseMax.toNat, limit := (s.part p).leaseMax.toNat }] }

theorem parkedFor_part (s : State) (p rect : Nat) (q : LeaseReq) : (parkedFor s p rect q).part p = { s.part p with
    reqs := (s.part p).reqs.erase q,
    parked := (s.part p).parked ++
      [{ rect := rect, recVa := q.recVa, left := (s.part p).leaseMax.toNat, limit := (s.part p).leaseMax.toNat }] } := by
  rw [parkedFor, State.modPart, setPart_part_same, grantedTo_part]
theorem setGranted_part (s : State) (p va : Nat) (b : Bool) : (s.setGranted p va b).part p = { s.part p with
    kept := assocSet (s.part p).kept va { assocGet {} (s.part p).kept va with met := b } } := setPart_part_same _ _ _

section
variable {s : State} {p rect : Nat} {q : LeaseReq}

theorem grantLease_granted (hg : s.grantable p rect = true) (hq : s.nextReq p rect = some q) :
    let t := grantedTo s p rect q
    let m := parkedFor s p rect q
    s.grantLease p rect = q.ctx.elim
      ((if m.recState p q.recVa = 3 then m.wakeRec p q.recVa else m.setGranted p q.recVa true).endParked p rect)
      fun c => (t.monSample 5 (p * 256 + rect) (t.aclkCycles (clusterOf (coreOf c)) (t.now - q.since))).modCtx c
          fun x => { x with lease := .held rect (s.part p).leaseMax.toNat (s.part p).leaseMax.toNat } := by
  unfold State.grantLease parkedFor grantedTo
  rw [if_neg (by simp [hg]), hq]
  dsimp only
  cases q.ctx <;> congr 1

theorem grantLease_ctx {k : Nat} (hg : s.grantable p rect = true) (hq : s.nextReq p rect = some q) (hk : q.ctx = some k) :
    ∃ v, s.grantLease p rect = ((grantedTo s p rect q).monSample 5 (p * 256 + rect) v).modCtx k
      fun x => { x with lease := .held rect (s.part p).leaseMax.toNat (s.part p).leaseMax.toNat } := by
  rw [grantLease_granted hg hq, hk, Option.elim_some]
  exact ⟨_, rfl⟩

theorem grantLease_parked (hg : s.grantable p rect = true) (hq : s.nextReq p rect = some q) (hk : q.ctx = none)
    (hsave : (grantedTo s p rect q).recState p q.recVa ≠ 3) :
    s.grantLease p rect = ((parkedFor s p rect q).setGranted p q.recVa true).endParked p rect := by
  have hstate : (parkedFor s p rect q).recState p q.recVa = (grantedTo s p rect q).recState p q.recVa := by
    unfold parkedFor
    exact recState_modPart (by exact fun _ => rfl) _ _
  rw [grantLease_granted hg hq, hk, Option.elim_none, hstate, if_neg hsave]

theorem grantLease_none (h : s.grantable p rect = false ∨ s.nextReq p rect = none) : s.grantLease p rect = s := by
  unfold State.grantLease
  rcases h with h | h
  · exact if_pos (by simp [h])
  · rw [h]
    exact ite_self _
end

theorem monSample_modCtx_leaseHeld (s : State) (a b : Nat) (v : Int) (k : Nat) (f : Ctx → Ctx) (p r : Nat) :
    ((s.monSample a b v).modCtx k f).leaseHeld p r = s.leaseHeld p r := rfl
theorem monSample_modCtx_part (s : State) (a b : Nat) (v : Int) (k : Nat) (f : Ctx → Ctx) (p : Nat) :
    ((s.monSample a b v).modCtx k f).part p = s.part p := rfl
theorem modPart_leaseHeld (s : State) (q : Nat) (f : Part → Part) (p r : Nat) : (s.modPart q f).leaseHeld p r = s.leaseHeld p r := rfl
theorem modPart_leaseWait (s : State) (q : Nat) (f : Part → Part) (p r : Nat) : (s.modPart q f).leaseWait p r = s.leaseWait p r := rfl

theorem endParked_unwanted {s : State} {p rect : Nat} (h : s.leaseWait p rect = false) : s.endParked p rect = s := by
  unfold State.endParked
  split
  · rfl
  · rw [h]
    rfl

theorem endParked_wanted {s : State} {p rect : Nat} {k : Parked} (hk : (s.part p).parked.find? (fun k => k.rect == rect) = some k)
    (h : s.leaseWait p rect = true) : ∃ pri, s.endParked p rect =
      ((s.endLease p rect).modPart p fun x => { x with parked := x.parked.erase k }).addReq p rect none k.recVa pri := by
  unfold State.endParked
  rw [hk]
  dsimp only
  rw [h]
  exact ⟨_, rfl⟩

theorem still_now {s t : State} (h : Still s t) : t.now = s.now :=
  (congrArg (fun t : State => t.timebase.toNat) h.rest : (unseen t).now = (unseen s).now)
/-- A grant to a stream. -/
theorem grantLease_ctx_lease {s : State} {p rect k : Nat} {q : LeaseReq} (hg : s.grantable p rect = true)
    (hq : s.nextReq p rect = some q) (hk : q.ctx = some k) :
    let t := s.grantLease p rect
    (t.ctx k).lease = .held rect (s.part p).leaseMax.toNat (s.part p).leaseMax.toNat ∧ (t.part p).reqs = (s.part p).reqs.erase q ∧
      t.leaseHeld p rect = true := by
  obtain ⟨v, h⟩ := grantLease_ctx hg hq hk
  dsimp only
  rw [h, monSample_modCtx_leaseHeld, monSample_modCtx_part, grantedTo_part, grantedTo_leaseHeld, State.modCtx, setCtx_ctx_same]
  exact ⟨rfl, rfl, rfl⟩

/-- A grant to a suspended record that no other request waits behind. -/
theorem grantLease_parked_lease {s : State} {p rect : Nat} {q : LeaseReq} (hg : s.grantable p rect = true)
    (hq : s.nextReq p rect = some q) (hk : q.ctx = none) (hsave : (grantedTo s p rect q).recState p q.recVa ≠ 3)
    (hothers : ∀ r ∈ (s.part p).reqs.erase q, r.rect ≠ rect) :
    let t := s.grantLease p rect
    (t.part p).reqs = (s.part p).reqs.erase q ∧ t.leaseHeld p rect = true ∧ (assocGet ({} : Kept) (t.part p).kept q.recVa).met = true ∧
      (t.part p).parked = (s.part p).parked ++
        [{ rect := rect, recVa := q.recVa, left := (s.part p).leaseMax.toNat, limit := (s.part p).leaseMax.toNat }] := by
  have hwait : ((parkedFor s p rect q).setGranted p q.recVa true).leaseWait p rect = false := by
    rw [State.setGranted, modPart_leaseWait, parkedFor, modPart_leaseWait, grantedTo_leaseWait]
    simpa using hothers
  dsimp only
  rw [grantLease_parked hg hq hk hsave, endParked_unwanted hwait, setGranted_part, parkedFor_part, State.setGranted, modPart_leaseHeld,
    parkedFor, modPart_leaseHeld, grantedTo_leaseHeld, assocGet_assocSet_same]
  exact ⟨rfl, rfl, rfl, rfl⟩

theorem endLease_parts (s : State) (p rect : Nat) : (s.endLease p rect).parts = s.parts :=
  setLease_parts s p rect false ((s.part p).reqs.any fun q => q.rect == rect) 0 0
theorem endLease_now (s : State) (p rect : Nat) : (s.endLease p rect).now = s.now := by
  have hnow := still_now (still_setLease s p rect false ((s.part p).reqs.any fun q => q.rect == rect) 0 0)
  exact hnow
theorem endLease_part (s : State) (p rect q : Nat) : (s.endLease p rect).part q = s.part q :=
  congrArg (fun l => assocGet ({} : Part) l q) (endLease_parts s p rect)
theorem addReq_part (s : State) (p rect : Nat) (ctx : Option Nat) (va pri : Nat) : (s.addReq p rect ctx va pri).part p =
    { s.part p with reqs := (s.part p).reqs ++ [{ rect := rect, ctx := ctx, recVa := va, pri := pri, since := s.now }] } :=
  (congrArg (fun l => assocGet ({} : Part) l p) (setLeaseWait_parts _ _ _ _)).trans (setPart_part_same _ _ _)

/-- A parked lease that ends: it is parked no more, and its record asks again. -/
theorem endParked_part {s : State} {p rect : Nat} {k : Parked} (hk : (s.part p).parked.find? (fun k => k.rect == rect) = some k)
    (h : s.leaseWait p rect = true) : ∃ pri, (s.endParked p rect).part p = { s.part p with
      parked := (s.part p).parked.erase k,
      reqs := (s.part p).reqs ++ [{ rect := rect, ctx := none, recVa := k.recVa, pri := pri, since := s.now }] } := by
  obtain ⟨pri, he⟩ := endParked_wanted hk h
  refine ⟨pri, ?_⟩
  have hnow : ((s.endLease p rect).modPart p fun x => { x with parked := x.parked.erase k }).now = s.now := endLease_now s p rect
  rw [he, addReq_part, hnow, State.modPart, setPart_part_same, endLease_part]

/-! Pre-emption. -/

section
variable {s : State} {c n : Nat} {u : Running}

theorem preemptStep_mark (hu : (s.ctx c).running = some u) (hp : (s.ctx c).preempt = none) (hc : (s.ctx c).cancel = none)
    (h : s.calledFor c = true) : s.preemptStep c = s.modCtx c fun y => { y with preempt := some s.now } := by
  unfold State.preemptStep
  simp only [hu, hp, hc, h]
  rfl

theorem preemptStep_withdrawn (hu : (s.ctx c).running = some u) (hp : (s.ctx c).preempt = some n) (h : n + 1000000 ≤ s.now) :
    s.preemptStep c = s.modCtx c fun y => { y with preempt := none } := by
  unfold State.preemptStep
  simp only [hu, hp]
  exact if_pos h

theorem preemptStep_marked (hu : (s.ctx c).running = some u) (hp : (s.ctx c).preempt = some n) (h : s.now < n + 1000000) :
    s.preemptStep c =
      if (s.ctx c).intrap || (s.ctx c).cancel.isSome || (s.ctx c).streams.toList.any fun t => t.started.any fun d => d.word != .repair then s
      else ((s.stopRepairs c).drainAll c).writeOut c u := by
  unfold State.preemptStep
  simp only [hu, hp]
  exact if_neg (Nat.not_le.2 h)
end

theorem preemptAbandoned_late {s : State} {c n : Nat} (hp : (s.ctx c).preempt = some n) (h : n + 1000000 ≤ s.now) :
    s.preemptAbandoned c = s.modCtx c fun y => { y with preempt := none } := by
  unfold State.preemptAbandoned
  simp only [hp, if_pos h]
theorem preemptAbandoned_early {s : State} {c n : Nat} (hp : (s.ctx c).preempt = some n) (h : s.now < n + 1000000) :
    s.preemptAbandoned c = s := by
  unfold State.preemptAbandoned
  simp only [hp, if_neg (Nat.not_le.2 h)]

/-- The test of the started commands, in words: each of them is a REPAIR. -/
theorem onlyRepairs_iff (s : State) (c : Nat) : ((s.ctx c).streams.toList.any fun t => t.started.any fun d => d.word != .repair) = false ↔
    ∀ k ∈ (s.ctx c).streams.toList, ∀ d ∈ k.started, d.word = .repair := by
  simp only [List.any_eq_false, Bool.not_eq_true, bne_eq_false_iff_eq]

/-! Removal. -/

theorem clearCtx_running (s : State) (c : Nat) : ((s.clearCtx c).ctx c).running = none := by
  simp [State.clearCtx, State.emptyQueues, State.idleCtx, State.modCtx]
theorem removeCtx_running (s : State) (c pc a0 a1 : Nat) (err : Bool) : ((s.removeCtx c pc a0 a1 err).ctx c).running = none := by
  unfold State.removeCtx
  split
  · assumption
  · exact (congrArg Ctx.running (setCtx_ctx_same _ _ _)).trans (clearCtx_running _ c)
theorem stopCancelled_running (s : State) (c st : Nat) : ((s.stopCancelled c st).ctx c).running = none := by
  unfold State.stopCancelled
  split
  · assumption
  · exact congrArg Ctx.running (setCtx_ctx_same _ _ _)

section
variable {s : State} {c n : Nat} {u : Running} (hc : (s.ctx c).cancel = some n)
include hc

theorem cancelEnds_boundary (hu : (s.ctx c).running = some u) (h : s.now < n + 1000000 ∨ (s.ctx c).abortOnly = true) :
    s.cancelEnds c = s.stopCancelled c (if (s.ctx c).spec = true ∧ (s.run u.part u.run).isOpen = false then 6 else 5) := by
  have hlate : (!(s.ctx c).abortOnly && decide (n + 1000000 ≤ s.now)) = false := by
    rcases h with h | h <;> simp [h]
  unfold State.cancelEnds State.stopState
  simp only [hc, hu, hlate, Bool.and_eq_true, Bool.not_eq_true']
  rfl
theorem cancelRemoved_early (h : s.now < n + 1000000 ∨ (s.ctx c).abortOnly = true) : s.cancelRemoved c = s := by
  have hlate : (!(s.ctx c).abortOnly && decide (n + 1000000 ≤ s.now)) = false := by
    rcases h with h | h <;> simp [h]
  unfold State.cancelRemoved
  simp only [hc, hlate]
  rfl
theorem cancelEnds_late (h : n + 1000000 ≤ s.now) (ha : (s.ctx c).abortOnly = false) : s.cancelEnds c = s := by
  unfold State.cancelEnds
  rw [hc]
  split
  · obtain rfl := Option.some.inj ‹_›
    simp [h, ha]
  · rfl
theorem cancelRemoved_late (h : n + 1000000 ≤ s.now) (ha : (s.ctx c).abortOnly = false) :
    s.cancelRemoved c = s.removeCtx c (s.ctx c).pc.toNat 0 0 true := by
  unfold State.cancelRemoved
  simp [hc, h, ha]
end

/-- Settles O46: a grant through the state that it leaves the rectangle in (`grantedTo`), the other events by their guards. -/
theorem switchEvents : Obligations.SwitchEvents := by
  intro s c p rect
  refine ⟨fun q k hg hq hk => ?_, fun q hg hq hk hothers hsave => ?_, fun hnone => ?_, fun k hk hwait => ?_,
    fun u hu => ⟨fun hp hc hcall => ?_, fun n hp hlate => ?_, fun n hp hearly => ⟨fun htrap hc hgone => ?_, fun hwaits => ?_⟩,
      fun n hc => ⟨fun htime => ⟨?_, ?_, ?_⟩, fun hlate ha => ⟨?_, ?_⟩⟩⟩, fun n hp => ⟨fun hlate => ?_, fun hearly => ?_⟩⟩
  · exact ⟨{ s.grantLease p rect with mark := .ok }, rfl, grantLease_ctx_lease hg hq hk⟩
  · exact ⟨{ s.grantLease p rect with mark := .ok }, rfl, grantLease_parked_lease hg hq hk (by rwa [grantedTo_unwanted hk hothers]) hothers⟩
  · exact runEvent_of_eq (·.grantLease p rect) (grantLease_none hnone)
  · obtain ⟨pri, he⟩ := endParked_part hk hwait
    exact ⟨{ s.endParked p rect with mark := .ok }, pri, rfl, congrArg Part.parked he, congrArg Part.reqs he⟩
  · exact runEvent_of_eq (·.preemptStep c) (preemptStep_mark hu hp hc hcall)
  · exact runEvent_of_eq (·.preemptStep c) (preemptStep_withdrawn hu hp hlate)
  · refine runEvent_of_eq (·.preemptStep c) ((preemptStep_marked hu hp hearly).trans (if_neg ?_))
    simp [htrap, hc, (onlyRepairs_iff s c).2 hgone]
  · refine runEvent_of_eq (·.preemptStep c) ((preemptStep_marked hu hp hearly).trans (if_pos ?_))
    have hgone := onlyRepairs_iff s c
    rw [← hgone] at hwaits
    simpa [or_assoc, Option.isSome_iff_ne_none] using hwaits
  · exact runEvent_of_eq (·.cancelEnds c) (cancelEnds_boundary hc hu htime)
  · exact stopCancelled_running _ _ _
  · exact runEvent_of_eq (·.cancelRemoved c) (cancelRemoved_early hc htime)
  · exact runEvent_of_eq (·.cancelEnds c) (cancelEnds_late hc hlate ha)
  · exact ⟨_, runEvent_of_eq (·.cancelRemoved c) (cancelRemoved_late hc hlate ha), removeCtx_running _ _ _ _ _ _⟩
  · exact runEvent_of_eq (·.preemptAbandoned c) (preemptAbandoned_late hp hlate)
  · exact runEvent_of_eq (·.preemptAbandoned c) (preemptAbandoned_early hp hearly)
end Sys2Proof.Proofs
end

section
/-! The start and commit of engine commands. -/
namespace Sys2Proof.Proofs
open Sys2Proof.Machine Sys2Proof.Safety Sys2Proof.Laws

/-! The head of a command queue. -/

section
variable {s : State} {c k : Nat} {d : Cmd} {ds : List Cmd}

theorem tryHead_losing (hk : k = 0) (hl : (s.ctx c).losing = true) : s.tryHead c k = none := by
  unfold State.tryHead
  split
  · rfl
  · exact if_pos (by simp [hk, hl])

/-- The engine's answer to a command that may start is that of its start checks. -/
theorem tryHead_cons (hq : ((s.ctx c).stream k).queue = d :: ds) (hstart : s.enginesStart c = true)
    (hwait : mustWait { s with cur := c, curK := k } d = false) (hl : k = 0 → (s.ctx c).losing = false) :
    s.tryHead c k = match (startCmd { d with since := s.tick }).run { s with cur := c, curK := k } with
      | .ok e t => some (.ok ({ e with last := needsLease e && t.me.lease.spent }, t))
      | .error (.engine sub) _ => some (.error sub)
      | .error _ _ => none := by
  have hlosing : (k == 0 && (s.ctx c).losing) = false := by
    by_cases hk : k = 0
    · simp [hl hk]
    · simp [hk]
  unfold State.tryHead
  rw [hq]
  dsimp only
  exact if_neg (by simp [hstart, hwait, hlosing])

theorem startHead_none (h : s.tryHead c k = none) : s.startHead c k = s := by
  unfold State.startHead
  split
  · rfl
  · dsimp only
    rw [h]
theorem startHead_notTurn (h : s.engineTurn c k = false) : s.startHead c k = s := by
  unfold State.startHead
  exact if_pos (by simp [h])

variable (hturn : s.engineTurn c k = true)
include hturn

theorem startHead_ok {e : Cmd} {t : State} (h : s.tryHead c k = some (.ok (e, t))) : s.startHead c k =
    (t.modStream c k fun x => { x with queue := x.queue.drop 1, started := x.started ++ [e] }).bump.modCore (coreOf c)
      fun x => { x with serve := vset x.serve k ((c + 1) % 4) } := by
  unfold State.startHead
  rw [if_neg (by simp [hturn])]
  dsimp only
  rw [h]
theorem startHead_error {sub : Byte} (h : s.tryHead c k = some (.error sub)) (hq : ((s.ctx c).stream k).queue = d :: ds) :
    s.startHead c k = (s.streamFault c k sub d.off).modCore (coreOf c) fun x => { x with serve := vset x.serve k ((c + 1) % 4) } := by
  unfold State.startHead
  rw [if_neg (by simp [hturn])]
  dsimp only
  rw [h]
  dsimp only
  rw [hq]
  rfl
end

/-- The access words have no start checks. -/
theorem startCmd_access {d : Cmd} (h : ∃ q : Fin 4, d.word ∈ [.aqBase, .aqDim, .aqWait, .aqEmit q, .aqDrain q]) (s : State) :
    (startCmd d).run s = .ok d s := by
  have hpure : startCmd d = linked (pure d) := by
    obtain ⟨q, hd⟩ := h
    simp only [List.mem_cons, List.not_mem_nil, or_false] at hd
    unfold startCmd
    rcases hd with hd | hd | hd | hd | hd <;> rw [hd]
  rw [hpure]
  exact linked_ok _ _ _ _ rfl rfl

/-! A started command's step. -/

section
variable {s : State} {c k n : Nat} {d : Cmd} (hd : ((s.ctx c).stream k).started[n]? = some d) (hc : (s.ctx c).cancel = none)
include hd hc

/-- A command that commits leaves. -/
theorem stepStarted_commit {t : State} (hw : d.word ≠ .repair) (h : (stepCmd d).run { s with cur := c, curK := k } = .ok none t) :
    s.stepStarted c k n = t.dropCmd c k n d := by
  rw [stepStarted_cases s c k n d hd hw, if_neg (by simp [hc]), h]

/-- A command that faults leaves, and its stream faults. -/
theorem stepStarted_fault {t : State} {sub : Byte} (hw : d.word ≠ .repair)
    (h : (stepCmd d).run { s with cur := c, curK := k } = .error (.engine sub) t) : s.stepStarted c k n = s.faultCmd c k n d sub := by
  rw [stepStarted_cases s c k n d hd hw, if_neg (by simp [hc]), h]
end

/-! Steps that are one change of the state. -/

theorem stepCmd_aqBase {d : Cmd} (h : d.word = .aqBase) (s : State) : (stepCmd d).run s = .ok none (s.modMyStream fun t =>
    { t with nest := { t.nest with base := BitVec.ofNat 64 (opBits (nth d.ops 0) 56 0),
                                   fmt := BitVec.ofNat 4 (opBits (nth d.ops 0) 63 60) }.rewind }) := by
  unfold stepCmd
  rw [h]
  exact linked_ok _ _ _ _ rfl rfl
theorem stepCmd_aqDim {d : Cmd} (h : d.word = .aqDim) (s : State) : (stepCmd d).run s = .ok none (s.modMyStream fun t =>
    { t with nest := (t.nest.setLevel (nth d.ops 0).toNat { count := (nth d.ops 1).toNat, stride := nth d.ops 2 }).rewind }) := by
  unfold stepCmd
  rw [h]
  exact linked_ok _ _ _ _ rfl rfl

theorem stepWswap_run (d : Cmd) {s : State} {rect left limit : Nat} (hl : s.me.lease = .held rect left limit) :
    (stepWswap d).run s = .ok none ((s.rectColumns s.myPart rect).foldl (fun t a => t.modCol a Column.swapLatches) s) := by
  have hrect : curRect s = .ok rect s := by
    unfold curRect
    rw [bind_ok (get_run _), hl]
    rfl
  show stepWswap d s = _
  unfold stepWswap
  rw [bind_ok hrect]
  rfl
theorem stepCmd_wswap {d : Cmd} {s : State} {rect left limit : Nat} (h : d.word = .wswap) (hl : s.me.lease = .held rect left limit) :
    (stepCmd d).run s = .ok none ((s.rectColumns s.myPart rect).foldl (fun t a => t.modCol a Column.swapLatches) s) := by
  unfold stepCmd
  rw [h]
  exact linked_ok _ _ _ _ (stepWswap_run d hl) (foldl_keeps State.linkq (by exact fun _ _ => rfl) _ _)

theorem stepCmd_aclr {d : Cmd} (h : d.word = .aclr) (s : State) : (stepCmd d).run s = .ok none
    ((s.slotKeys (accRow (nth d.ops 0)).2 (accRow (nth d.ops 0)).1 (nth d.ops 1).toNat).foldl (fun t r =>
      t.setRow r { data := 0, tag := if (t.row r).valid then (t.row r).tag else 0, valid := true }) s) := by
  unfold stepCmd
  rw [h]
  exact linked_ok _ _ _ _ rfl (foldl_keeps State.linkq (by exact fun _ _ => rfl) _ _)

theorem tput_linkq (s : State) (a n v : Nat) : (s.tput a n v).linkq = s.linkq := rfl
theorem stepCmd_publish {d : Cmd} (h : d.word = .publish) (s : State) :
    (stepCmd d).run s = .ok none (s.flipGroup (nth d.ops 0).toNat) := by
  unfold stepCmd
  rw [h]
  exact linked_ok _ _ _ _ rfl (tput_linkq _ _ _ _)

/-! What a fault leaves. -/

theorem still_reqFree (s : State) (r : Nat) : Still s (s.reqFree r) := by
  unfold State.reqFree
  split
  · exact ((still_tput _ _ _ _).trans (still_tput _ _ _ _)).trans (still_tput _ _ _ _)
  · exact .refl s
theorem still_reqDone (s : State) (d : Cmd) : Still s (s.reqDone d) := by
  unfold State.reqDone
  split
  · exact (still_tput _ _ _ _).trans (still_reqFree _ _)
  · exact .refl s

/-- A command that brought no lease to its end leaves its stream, and nothing else of the context changes. -/
theorem dropCmd_ctx {s : State} {c k n : Nat} {d : Cmd} (hlast : d.last = false) (hl : (s.ctx c).losing = false) :
    (s.dropCmd c k n d).ctx c = (s.modStream c k fun t => { t with started := t.started.eraseIdx n }).ctx c := by
  have hctx := Still.ctx (still_reqDone (s.modStream c k fun t => { t with started := t.started.eraseIdx n }) d) c
  unfold State.dropCmd
  dsimp only
  rw [if_neg, if_neg]
  · exact hctx
  · simp [hlast]
  · rw [hctx, State.modStream, State.modCtx, setCtx_ctx_same]
    simp [hl]

theorem faultCmd_stream {s : State} {c k n : Nat} {d : Cmd} (sub : Byte) (hk : k < 6) (hlast : d.last = false)
    (hl : (s.ctx c).losing = false) :
    let x := (s.ctx c).stream k
    ((s.faultCmd c k n d sub).ctx c).stream k =
      { x with started := x.started.eraseIdx n, queue := [], fetch := [], stopped := true,
               fault := x.fault.or (some { code := engineCode sub, sub := sub, off := d.off }) } := by
  unfold State.faultCmd State.streamFault
  dsimp only
  rw [hlast, if_neg (by decide), stream_modStream _ _ _ hk, dropCmd_ctx hlast hl, stream_modStream _ _ _ hk]

/-- Settles O47: a start by what `tryHead` answers for the queue's head, a commit by what `stepCmd` leaves. -/
theorem commandEvents : Obligations.CommandEvents := by
  intro s c k n d w
  refine ⟨fun hk hl => ?_, fun ds hq hstart hwait hl => ?_, fun hd hc => ?_⟩
  · exact runEvent_of_eq (·.startHead c k) (startHead_none (tryHead_losing hk hl))
  · have htry := tryHead_cons hq hstart hwait hl
    have hstarts : s.engineTurn c k = true → ∀ e t, (startCmd { d with since := s.tick }).run w = .ok e t →
        Does s (.engineCommandStart c k) ((t.modStream c k fun x =>
          { x with queue := x.queue.drop 1, started := x.started ++ [{ e with last := needsLease e && t.me.lease.spent }] }).bump.modCore
            (coreOf c) fun x => { x with serve := vset x.serve k ((c + 1) % 4) }) := fun hturn e t h => by
      rw [h] at htry
      exact runEvent_of_eq (·.startHead c k) (startHead_ok hturn htry)
    refine ⟨fun hturn => ⟨fun e t h => ?_, fun sub t h => ?_, fun hword => ?_⟩, fun hturn => ?_⟩
    · exact hstarts hturn e t h
    · rw [h] at htry
      exact runEvent_of_eq (·.startHead c k) (startHead_error hturn htry hq)
    · exact hstarts hturn _ _ (startCmd_access (d := { d with since := s.tick }) hword w)
    · exact runEvent_of_eq (·.startHead c k) (startHead_notTurn hturn)
  · dsimp only
    have hcommit : ∀ t, d.word ≠ .repair → (stepCmd d).run w = .ok none t → Does s (.engineCommandCommit c k n) (t.dropCmd c k n d) :=
      fun t hw h => runEvent_of_eq (·.stepStarted c k n) (stepStarted_commit hd hc hw h)
    refine ⟨fun hw => ?_, fun hw => ?_, fun rect left limit hw hl => ?_, fun hw => ?_, fun hw => ?_, fun sub t hw h => ?_,
      fun sub hk hlast hl => ?_⟩
    · exact hcommit _ (by simp [hw]) (stepCmd_aqBase hw w)
    · exact hcommit _ (by simp [hw]) (stepCmd_aqDim hw w)
    · exact hcommit _ (by simp [hw]) (stepCmd_wswap hw (hl : w.me.lease = _))
    · exact hcommit _ (by simp [hw]) (stepCmd_aclr hw w)
    · exact hcommit _ (by simp [hw]) (stepCmd_publish hw w)
    · exact runEvent_of_eq (·.stepStarted c k n) (stepStarted_fault hd hc hw h)
    · rw [faultCmd_stream sub hk hlast hl]
      exact ⟨rfl, rfl, rfl, rfl⟩
end Sys2Proof.Proofs
end

section
/-! Copy nodes, binds and draining slots. -/
namespace Sys2Proof.Proofs
open Sys2Proof.Machine Sys2Proof.Safety Sys2Proof.Laws

/-! A bind record that takes effect. -/

theorem l1Flush_launches (s : State) (core line p : Nat) : (s.l1Flush core line p).launches = s.launches :=
  still_launches (still_l1Flush s p line core)
theorem l1Trim_launches (core p f : Nat) (s : State) : (State.l1Trim core p f s).launches = s.launches := by
  induction f generalizing s with
  | zero => rfl
  | succ f ih =>
    unfold State.l1Trim
    split
    · rfl
    · exact (ih _).trans (l1Flush_launches _ _ _ _)

theorem modCore_launches (s : State) (n : Nat) (f : Core → Core) : (s.modCore n f).launches = s.launches := rfl
theorem modCluster_launches (s : State) (n : Nat) (f : Cluster → Cluster) : (s.modCluster n f).launches = s.launches := rfl
theorem splitCore_launches (s : State) (core p spw : Nat) (pool : Bool) : (s.splitCore core p spw pool).launches = s.launches := by
  have hpool : ∀ t : State, ((List.range 8).foldl (fun t j => (t.core (clusterOf core * 8 + j)).l1.foldl
      (fun u e => u.l1Flush (clusterOf core * 8 + j) e.line p) t) t).launches = t.launches := fun t =>
    foldl_keeps State.launches (by exact fun t j => foldl_keeps State.launches (by exact fun u e => l1Flush_launches _ _ _ _) _ _) _ _
  unfold State.splitCore
  dsimp only
  rw [l1Trim_launches]
  by_cases h : (s.cluster (clusterOf core)).pool = pool
  · rw [if_pos h]
    exact modCore_launches _ _ _
  · rw [if_neg h]
    exact ((modCore_launches _ _ _).trans (modCluster_launches _ _ _)).trans (hpool s)

/-- A bind record's effect: the window and message queue are the launch's, and its snapshot is taken where it has none. -/
theorem bindEffect_eq (s : State) (c : Nat) : ∃ v : State, v.launches = s.launches ∧
    (v.ctx c).msgq = [] ∧ (v.ctx c).tabBase = s.slotTabBase c ∧ (v.ctx c).tabCount = s.slotTabCount c ∧
    s.bindEffect c = if (s.launch (s.slotLaunch c)).snapped then v
      else v.modLaunch (s.slotLaunch c) fun y => { y with snapped := true, snap := v.cohMemory, snapKey := v.cohKeys } := by
  have hrows : ∀ (t : State) (l core : Nat) (rows : List Nat), (rows.foldl (fun t r =>
      if assocGet 0 (t.core core).tabOwner r = l then t
      else (t.setRow (tabKey core r) {}).modCore core fun k => { k with tabOwner := assocSet k.tabOwner r l }) t).launches = t.launches :=
    fun t l core rows => foldl_keeps State.launches (by intro t r; split <;> rfl) rows t
  refine ⟨_, ?_, ?_, ?_, ?_, rfl⟩
  · exact (hrows _ _ _ _).trans ((splitCore_launches _ _ _ _ _).trans (still_launches (still_setSlotState s c 1)))
  · exact congrArg Ctx.msgq (setCtx_ctx_same _ _ _)
  · exact congrArg Ctx.tabBase (setCtx_ctx_same _ _ _)
  · exact congrArg Ctx.tabCount (setCtx_ctx_same _ _ _)

theorem bindEffect_ctx (s : State) (c : Nat) : ((s.bindEffect c).ctx c).msgq = [] ∧
    ((s.bindEffect c).ctx c).tabBase = s.slotTabBase c ∧ ((s.bindEffect c).ctx c).tabCount = s.slotTabCount c := by
  obtain ⟨v, -, hq, hbase, hcount, h⟩ := bindEffect_eq s c
  rw [h]
  split
  · exact ⟨hq, hbase, hcount⟩
  · exact ⟨hq, hbase, hcount⟩

theorem bindEffect_snapped (s : State) (c : Nat) : ((s.bindEffect c).launch (s.slotLaunch c)).snapped = true := by
  obtain ⟨v, hv, -, -, -, h⟩ := bindEffect_eq s c
  rw [h]
  split
  · unfold State.launch
    rwa [hv]
  · rw [State.modLaunch, setLaunch_launch_same]

/-! A slot whose DRAIN is zero. -/

section
variable {s : State} {c : Nat} (hdrain : s.drainOf c = 0) (hidle : (s.ctx c).running = none)
include hdrain hidle

theorem slotDrained_retiring (h : s.slotState c = 2) : s.slotDrained c = s.setSlotState c 0 := by
  unfold State.slotDrained
  rw [if_neg (by simp [hdrain, hidle]), if_pos h]

/-- A waiting bind record takes effect; where its launch has completed meanwhile, the slot is free at once. -/
theorem slotDrained_waiting (h : s.slotState c = 3) : Still (s.bindEffect c) (s.slotDrained c) := by
  unfold State.slotDrained
  rw [if_neg (by simp [hdrain, hidle]), if_neg (by simp [h]), if_pos h]
  dsimp only
  split
  · exact (still_setSlotState _ _ _).trans (still_setSlotState _ _ _)
  · exact .refl _
end

theorem bindEvents : Claims.BindEvents := by
  intro s c l p g i
  refine ⟨fun n hn hcopy hst hopen => ?_, fun hheld hnext => ⟨fun t r hfirst htry => ?_, fun t hfirst htry => ?_, fun t hfirst => ?_⟩,
    fun hwaits => ?_, fun hdrain hidle => ⟨fun hstate => ?_, fun hstate => ?_⟩⟩
  · have hrun : s.runCopyNode p g i = match s.copyRange p n.a n.b n.bytes with
        | .ok t => if s.writesLatched p true n.b n.bytes then s else t.completeNode p g i
        | .error _ => (s.cancelNode p g i true).settle p := by
      unfold State.runCopyNode
      rw [hn]
      exact if_pos (by simp [hcopy, hst, hopen])
    exact ⟨fun t ht => runEvent_of_eq (·.runCopyNode p g i) (by rw [hrun, ht]),
      fun e he => runEvent_of_eq (·.runCopyNode p g i) (by rw [hrun, he])⟩
  · refine runEvent_of_eq (·.bindLaunch l) ?_
    unfold State.bindLaunch
    rw [if_neg (by simp [hheld, hnext]), hfirst]
    dsimp only
    rw [htry]
  · refine runEvent_of_eq (·.bindLaunch l) ?_
    unfold State.bindLaunch
    rw [if_neg (by simp [hheld, hnext]), hfirst]
    dsimp only
    rw [htry]
  · refine runEvent_of_eq (·.bindLaunch l) ?_
    unfold State.bindLaunch
    rw [if_neg (by simp [hheld, hnext]), hfirst]
  · exact runEvent_of_eq (·.bindLaunch l) (if_pos (by simpa using hwaits))
  · have hstep := slotDrained_retiring hdrain hidle hstate
    refine ⟨{ s.slotDrained c with mark := .ok }, rfl, ?_, ?_⟩
    · exact (congrArg (State.slotState · c) hstep).trans (setSlotState_slotState_same _ _ _ (by decide))
    · exact (congrArg (State.ctx · c) hstep).trans (Still.ctx (still_setSlotState _ _ _) c)
  · have hstill := slotDrained_waiting hdrain hidle hstate
    have hctx := bindEffect_ctx s c
    rw [← Still.ctx hstill c] at hctx
    obtain ⟨hqueue, hbase, hcount⟩ := hctx
    have hsnap := bindEffect_snapped s c
    rw [← still_launch hstill] at hsnap
    exact ⟨{ s.slotDrained c with mark := .ok }, rfl, hqueue, hbase, hcount, hsnap⟩
end Sys2Proof.Proofs
end

section
/-! A record taken by an idle context, and a pre-emption block loaded. -/
namespace Sys2Proof.Proofs
open Sys2Proof.Machine Sys2Proof.Safety Sys2Proof.Laws

/-! The block of a pre-empted unit. -/

theorem tabKey_ne (core : Nat) {a b : Nat} (h : a ≠ b) : tabKey core a ≠ tabKey core b := by
  unfold tabKey rowKey
  omega

/-- Row `i` of the window, as the block holds it. -/
def blockRow (bs : List Byte) (i : Nat) : SlotRow :=
  { data := BitVec.ofNat 2048 (State.blk bs (0xC00 + 256 * i) 256), tag := BitVec.ofNat 4 (State.blk bs (0xB00 + i) 1),
    valid := bitOf (State.blk bs (0xB00 + i) 1) 7 }
/-- The first rows of the window loaded from the block. -/
def loadRows (bs : List Byte) (c n : Nat) (s : State) : State :=
  (List.range n).foldl (fun t i => t.setRow (tabKey (coreOf c) ((t.ctx c).tabBase + i)) (blockRow bs i)) s

section
variable (bs : List Byte) (c n : Nat) (s : State)

theorem loadRows_ctxs : (loadRows bs c n s).ctxs = s.ctxs := foldl_keeps State.ctxs (by exact fun _ _ => rfl) _ _
theorem loadRows_mem : (loadRows bs c n s).mem = s.mem := foldl_keeps State.mem (by exact fun _ _ => rfl) _ _
theorem loadRows_ctx (d : Nat) : (loadRows bs c n s).ctx d = s.ctx d := congrArg (fun l => assocGet ({} : Ctx) l d) (loadRows_ctxs bs c n s)
theorem loadRows_succ : loadRows bs c (n + 1) s =
    (loadRows bs c n s).setRow (tabKey (coreOf c) ((s.ctx c).tabBase + n)) (blockRow bs n) := by
  rw [← loadRows_ctx bs c n s]
  simp [loadRows, List.range_succ]
end

theorem loadRows_row (bs : List Byte) (c : Nat) {n i : Nat} (s : State) (h : i < n) :
    (loadRows bs c n s).row (tabKey (coreOf c) ((s.ctx c).tabBase + i)) = blockRow bs i := by
  induction n with
  | zero => exact absurd h (Nat.not_lt_zero i)
  | succ n ih =>
    rw [loadRows_succ]
    by_cases hi : i = n
    · subst hi
      exact setRow_row_same _ _ _
    · rw [setRow_row_ne _ _ (tabKey_ne _ (by omega))]
      exact ih (by omega)

/-- The block's fields in the context, before the rows. -/
def loadFields (s : State) (c p img : Nat) (bs : List Byte) (k : Kept) : State :=
  s.modCtx c fun x =>
    { x with
      pc := BitVec.ofNat 64 (State.blk bs 0 8), sel := ⟨State.blk bs 11 1 % 4, Nat.mod_lt _ (by decide)⟩,
      valid := BitVec.ofNat 32 (State.blk bs 12 4), ctl := BitVec.ofNat 64 (State.blk bs 16 1) &&& 0xB,
      pinned := bitOf (State.blk bs 17 1) 0,
      barPhase := if bitOf (State.blk bs 20 1) 0 then some (BitVec.ofNat 32 (State.blk bs 24 4)) else none,
      g := Vector.ofFn fun (i : Fin 32) => BitVec.ofNat 64 (State.blk bs (0x40 + 8 * i.val) 8),
      k := Vector.ofFn fun (i : Fin 4) => BitVec.ofNat 256 (State.blk bs (0x140 + 32 * i.val) 32),
      alo := BitVec.ofNat 64 (State.blk bs 0x1C0 8), ahi := BitVec.ofNat 64 (State.blk bs 0x1C8 8),
      hist := Vector.ofFn fun (i : Fin 32) => BitVec.ofNat 32 (State.blk bs (0x200 + 4 * i.val) 4),
      flags := Vector.ofFn fun (i : Fin 64) => BitVec.ofNat 8 (State.blk bs (0x280 + i.val) 1),
      qin := Vector.ofFn fun (i : Fin 4) => State.blkQueue bs i.val,
      qout := Vector.ofFn fun (i : Fin 4) => State.blkQueue bs (4 + i.val),
      streams := Vector.ofFn fun (i : Fin 6) => s.blkStream p img bs k i.val,
      forkSet := k.forkSet, seq := k.seq, barOn := k.barOn, asked := k.asked, running := x.running.map fun u => { u with block := true } }

theorem loadBlock_eq (s : State) (c p img : Nat) (bs : List Byte) (k : Kept) :
    s.loadBlock c p img bs k = loadRows bs c (s.ctx c).tabCount (loadFields s c p img bs k) := by
  have hcount : ((loadFields s c p img bs k).ctx c).tabCount = (s.ctx c).tabCount := by
    rw [loadFields, State.modCtx, setCtx_ctx_same]
  rw [← hcount]
  rfl

theorem blockLoads : Claims.BlockLoads := by
  intro s c p img bs k
  have hctx : ∀ d, (s.loadBlock c p img bs k).ctx d = (loadFields s c p img bs k).ctx d := fun d => by
    rw [loadBlock_eq, loadRows_ctx]
  have hbase : ((loadFields s c p img bs k).ctx c).tabBase = (s.ctx c).tabBase := by
    rw [loadFields, State.modCtx, setCtx_ctx_same]
  dsimp only
  rw [hctx c, loadFields, State.modCtx, setCtx_ctx_same]
  have hentry : ∀ {m : Nat} {α : Type} (f : Fin m → α) (i : Fin m), (Vector.ofFn f)[i] = f i := by simp
  refine ⟨rfl, rfl, rfl, rfl, rfl, rfl, hentry _, hentry _, rfl, rfl, hentry _, hentry _, fun i => ⟨hentry _ i, hentry _ i⟩,
    fun i => ?_, fun i hi => ?_, fun d hd => ?_, ?_⟩
  · rw [hentry]
    exact ⟨rfl, rfl, rfl, List.reverse_reverse _, rfl, rfl⟩
  · rw [loadBlock_eq, ← hbase]
    exact loadRows_row bs c _ hi
  · rw [hctx d]
    exact setCtx_ctx_ne _ _ hd
  · rw [loadBlock_eq, loadRows_mem]
    rfl

/-! Pick-up. -/

/-- The unit of a record in its context, before its lease and its block. -/
def startedUnit (b : State) (c l : Nat) (e : Ready) (r : Rec) : State :=
  let kept := assocGet ({} : Kept) (b.part e.part).kept e.recVa
  ((b.startUnit c e.part e.recVa l r e.time).modCtx c fun x => { x with barLost := kept.barLost }).modPart e.part fun y =>
    if kept.barLost then { y with kept := assocSet y.kept e.recVa { kept with barLost := false } } else y

/-- The unit with what its block, its restore sequence and its lease give it. -/
def loadedUnit (u : State) (c : Nat) (e : Ready) (r : Rec) (kept : Kept) : State :=
  if r.frame % 2 = 1 then
    match u.vRead e.part true (r.frame - 1) 35840 with
    | .error _ => u
    | .ok bs =>
      let full := (u.loadBlock c e.part (u.slotImage c) bs kept).writeRec e.part e.recVa { r with frame := r.frame - 1, state := 2 }
      if kept.seq matches .save .. then full
      else full.takeLease c e.part e.recVa (if bitsOf (State.blk bs 17 1) 2 1 = 0 then none else some (State.blk bs 18 1))
  else (u.startRestore c e.part r).takeLease c e.part e.recVa none

/-- The acquires of pick-up. -/
def acquiredUnit (t : State) (c l : Nat) (r : Rec) : State :=
  let t := (t.acquire c .clu).modLaunch l fun x => { x with used := if x.used.contains (coreOf c) then x.used else x.used ++ [coreOf c] }
  if r.graph = 0xFFFF ∧ waitKind r.wait ≠ 1 ∧ waitKind r.wait ≠ 2 then t else t.acquire c .pkg

theorem pickUp_eq {s : State} {c n : Nat} {e : Ready} {r : Rec} (hidle : (s.ctx c).running = none) (hslot : s.slotState c = 1)
    (hchoice : s.chooseRecord c (s.slotLaunch c) = some (n, e))
    (hrec : (s.modCore n fun x => { x with ready := x.ready.erase e }).bump.readRec e.part e.recVa = some r)
    (hgood : (s.modCore n fun x => { x with ready := x.ready.erase e }).bump.recBad e.part r
      ((s.modCore n fun x => { x with ready := x.ready.erase e }).bump.slotImage c) = false)
    (hready : r.state = 1) :
    let b := (s.modCore n fun x => { x with ready := x.ready.erase e }).bump.setRecState e.part e.recVa 2
    s.pickUp c = acquiredUnit
      (loadedUnit (startedUnit b c (s.slotLaunch c) e r) c e r (assocGet ({} : Kept) (b.part e.part).kept e.recVa)) c (s.slotLaunch c) r := by
  unfold State.pickUp
  rw [if_neg (by simp [hidle, hslot])]
  dsimp only
  rw [hchoice]
  dsimp only
  rw [hrec]
  dsimp only
  rw [hgood, if_neg (by decide)]
  exact if_neg (by simp [hready])

section
variable {u : State} {c : Nat} {e : Ready} {r : Rec} {kept : Kept}

theorem loadedUnit_whole (h : r.frame % 2 = 0) :
    loadedUnit u c e r kept = (u.startRestore c e.part r).takeLease c e.part e.recVa none := if_neg (by omega)

theorem loadedUnit_unread (h : r.frame % 2 = 1) {err : Byte} (hv : u.vRead e.part true (r.frame - 1) 35840 = .error err) :
    loadedUnit u c e r kept = u := by
  unfold loadedUnit
  rw [if_pos h, hv]

variable (h : r.frame % 2 = 1) {bs : List Byte} (hv : u.vRead e.part true (r.frame - 1) 35840 = .ok bs)
include h hv

theorem loadedUnit_saving {w : Word} {i : Nat} {a : Word} (hseq : kept.seq = .save w i a) : loadedUnit u c e r kept =
    (u.loadBlock c e.part (u.slotImage c) bs kept).writeRec e.part e.recVa { r with frame := r.frame - 1, state := 2 } := by
  unfold loadedUnit
  rw [if_pos h, hv]
  simp [hseq]

theorem loadedUnit_block (hseq : ∀ w i a, kept.seq ≠ .save w i a) : loadedUnit u c e r kept =
    ((u.loadBlock c e.part (u.slotImage c) bs kept).writeRec e.part e.recVa { r with frame := r.frame - 1, state := 2 }).takeLease
      c e.part e.recVa (if bitsOf (State.blk bs 17 1) 2 1 = 0 then none else some (State.blk bs 18 1)) := by
  unfold loadedUnit
  rw [if_pos h, hv]
  cases hk : kept.seq with
  | save w i a => exact absurd hk (hseq w i a)
  | _ => simp
end

/-! What a lease and the acquires leave of a context: all but its lease and its latches. -/

/-- A context without its lease and its latches. -/
def bare (x : Ctx) : Ctx := { x with lease := .none, latches := [] }

theorem modCtx_bare {s : State} {c : Nat} {f : Ctx → Ctx} (h : ∀ x, bare (f x) = bare x) : bare ((s.modCtx c f).ctx c) = bare (s.ctx c) := by
  rw [State.modCtx, setCtx_ctx_same, h]
theorem acquire_bare (s : State) (c : Nat) (sc : Scope) : bare ((s.acquire c sc).ctx c) = bare (s.ctx c) := by
  have hdrop : ∀ l : List Nat, (l.foldl (fun t n => t.modCore n (·.dropClean)) s).ctx c = s.ctx c := fun l =>
    foldl_keeps (State.ctx · c) (by exact fun _ _ => rfl) l s
  unfold State.acquire
  dsimp only
  by_cases hpkg : atLeastPkg sc
  · rw [if_pos hpkg]
    refine (modCtx_bare (by exact fun _ => rfl)).trans (congrArg bare ?_)
    split
    · exact hdrop _
    · rfl
  · rw [if_neg hpkg]
    refine congrArg bare ?_
    split
    · exact hdrop _
    · rfl

theorem setLeaseCtx_ctx (s : State) (p r ctx c : Nat) : (s.setLeaseCtx p r ctx).ctx c = s.ctx c := Still.ctx (still_tput _ _ _ _) c
theorem takeLease_bare (s : State) (c p va : Nat) : bare ((s.takeLease c p va none).ctx c) = bare (s.ctx c) := by
  unfold State.takeLease
  split
  · exact (modCtx_bare (by exact fun _ => rfl)).trans (congrArg bare (setLeaseCtx_ctx _ _ _ _ _))
  · split
    · exact modCtx_bare (by exact fun _ => rfl)
    · rfl
theorem acquiredUnit_bare (t : State) (c l : Nat) (r : Rec) : bare ((acquiredUnit t c l r).ctx c) = bare (t.ctx c) := by
  unfold acquiredUnit
  dsimp only
  split
  · exact acquire_bare t c .clu
  · exact (acquire_bare _ c .pkg).trans (acquire_bare t c .clu)

/-! The image, read before and after the unit's start. -/

theorem yieldEntry_congr {s t : State} {p img : Nat} (h : ∀ off n, s.imgField p img off n = t.imgField p img off n) (y : Nat) :
    s.yieldEntry p img y = t.yieldEntry p img y := by
  simp only [State.yieldEntry, h]
theorem ctlSection_congr {s t : State} {p img : Nat} (h : ∀ off n, s.imgField p img off n = t.imgField p img off n) :
    s.ctlSection p img = t.ctlSection p img := by
  have hsection : s.imgSection p img = t.imgSection p img := funext fun i => by simp only [State.imgSection, h]
  have hfind : s.imgFind p img 1 = t.imgFind p img 1 := by
    unfold State.imgFind
    rw [hsection, h]
  unfold State.ctlSection
  rw [hfind]

theorem startedUnit_imgField (b : State) (c l : Nat) (e : Ready) (r : Rec) (p img off n : Nat) :
    (startedUnit b c l e r).imgField p img off n = b.imgField p img off n := by
  have hpart : ∀ (t : State) (f : Part → Part), (∀ x : Part, (f x).keys = x.keys) → (t.modPart e.part f).imgField p img off n =
      t.imgField p img off n := fun t f hf => by
    unfold State.imgField State.modPart
    rw [vField_setPart (hf _)]
  unfold startedUnit
  dsimp only
  rw [hpart _ _ (fun x => by split <;> rfl), State.modCtx, imgField_setCtx, State.startUnit, State.modCtx, imgField_setCtx]

/-- The context of a unit that starts. -/
theorem startedUnit_ctx (b : State) (c l : Nat) (e : Ready) (r : Rec) : (startedUnit b c l e r).ctx c =
    { (b.startUnit c e.part e.recVa l r e.time).ctx c with barLost := (assocGet ({} : Kept) (b.part e.part).kept e.recVa).barLost } :=
  setCtx_ctx_same _ _ _

/-- Its restore sequence goes first, where its yield index names one. -/
theorem startedUnit_restore (b : State) (c l : Nat) (e : Ready) (r : Rec) :
    let off := (b.yieldEntry e.part (b.slotImage c) r.yield).2.1
    let x := (startedUnit b c l e r).ctx c
    ((startedUnit b c l e r).startRestore c e.part r).ctx c = { x with
      pc := if off = 0xFFFFFFFF then x.pc else BitVec.ofNat 64 ((b.ctlSection e.part (b.slotImage c)).1 + off),
      seq := if off = 0xFFFFFFFF then x.seq else .restore (BitVec.ofNat 64 r.pc) } := by
  have hslot : (startedUnit b c l e r).slotImage c = b.slotImage c := rfl
  have himg := startedUnit_imgField b c l e r e.part (b.slotImage c)
  unfold State.startRestore
  dsimp only
  rw [hslot, yieldEntry_congr himg, ctlSection_congr himg]
  split
  · rfl
  · rw [State.modCtx, setCtx_ctx_same]

/-- The context of a record without a block, but for its lease and its latches. -/
theorem pickUp_bare {s : State} {c l : Nat} {e : Ready} {r : Rec} {b : State} {kept : Kept} (hframe : r.frame % 2 = 0)
    (h : s.pickUp c = acquiredUnit (loadedUnit (startedUnit b c l e r) c e r kept) c l r) :
    let off := (b.yieldEntry e.part (b.slotImage c) r.yield).2.1
    let x := (b.startUnit c e.part e.recVa l r e.time).ctx c
    bare ((s.pickUp c).ctx c) = bare { x with
      pc := if off = 0xFFFFFFFF then x.pc else BitVec.ofNat 64 ((b.ctlSection e.part (b.slotImage c)).1 + off),
      seq := if off = 0xFFFFFFFF then x.seq else .restore (BitVec.ofNat 64 r.pc),
      barLost := (assocGet ({} : Kept) (b.part e.part).kept e.recVa).barLost } := by
  have hrestore := startedUnit_restore b c l e r
  dsimp only at hrestore ⊢
  rw [h, acquiredUnit_bare, loadedUnit_whole hframe, takeLease_bare, hrestore, startedUnit_ctx]

theorem pickUpEvents : Claims.PickUpEvents := by
  intro s c n e r hidle hslot hchoice q hrec hgood hready
  dsimp only
  have hstep := pickUp_eq hidle hslot hchoice hrec hgood hready
  dsimp only at hstep
  have hruns : ∀ t, loadedUnit (startedUnit (q.setRecState e.part e.recVa 2) c (s.slotLaunch c) e r) c e r
        (assocGet ({} : Kept) ((q.setRecState e.part e.recVa 2).part e.part).kept e.recVa) = t →
      Does s (.pickUp c) (acquiredUnit t c (s.slotLaunch c) r) := fun t ht => by
    rw [ht] at hstep
    exact runEvent_of_eq (·.pickUp c) hstep
  refine ⟨fun hframe => ?_, fun hframe => hruns _ (loadedUnit_whole hframe), fun hframe => ⟨fun bs hv => ⟨fun hseq => ?_, fun w i a hseq => ?_⟩,
    fun err hv => hruns _ (loadedUnit_unread hframe hv)⟩⟩
  · have hbare := pickUp_bare hframe hstep
    have hlaunch : (q.setRecState e.part e.recVa 2).launch (s.slotLaunch c) = s.launch (s.slotLaunch c) :=
      still_launch (still_setRecState q e.part e.recVa 2) _
    dsimp only at hbare
    rw [State.startUnit, State.modCtx, setCtx_ctx_same, hlaunch] at hbare
    refine ⟨{ s.pickUp c with mark := .ok }, rfl, congrArg Ctx.pc hbare, congrArg Ctx.seq hbare, ?_, ?_, congrArg Ctx.valid hbare,
      congrArg Ctx.alo hbare, congrArg Ctx.ahi hbare, fun m => ?_, congrArg Ctx.pinned hbare, congrArg Ctx.intrap hbare,
      congrArg Ctx.spec hbare, congrArg Ctx.priv hbare, congrArg Ctx.ctl hbare, congrArg Ctx.launch hbare,
      congrArg (fun x : Ctx => x.running.map (·.recVa)) hbare⟩
    · refine (congrArg (fun x : Ctx => x.reg 1) hbare).trans ?_
      simp [bare, Ctx.reg]
    · refine (congrArg (fun x : Ctx => x.reg 2) hbare).trans ?_
      simp [bare, Ctx.reg]
    · refine (congrArg (fun x : Ctx => x.k[m]) hbare).trans ?_
      simp [bare]
  · exact hruns _ (loadedUnit_block hframe hv hseq)
  · exact hruns _ (loadedUnit_saving hframe hv hseq)

/-- Settles O49: binds, pick-up and the block's contents. -/
theorem launchEvents : Obligations.LaunchEvents := ⟨bindEvents, pickUpEvents, blockLoads⟩
end Sys2Proof.Proofs
end

section
/-! SUPPORT. Parts of the state that leases, requests and events do not touch. -/
namespace Sys2Proof.Proofs
open Sys2Proof.Machine Sys2Proof.Safety Sys2Proof.Laws

/-! An event is written in memory, and the partition notes what it has told of lost ones. -/

section
variable {β : Type} {π : State → β} (hstill : ∀ {s t : State}, Still s t → π t = π s)
  (hseen : ∀ (s : State) p q v, π (s.setLostSeen p q v) = π s)
include hstill

theorem eventPut_keeps (s : State) (p q kind cause sub loc value launch : Nat) :
    π (s.eventPut p q kind cause sub loc value launch) = π s :=
  hstill ((still_homeWrite _ _ _ _ _).trans (still_tput _ _ _ _))
theorem eventLost_keeps (s : State) (p q : Nat) : π (s.eventLost p q) = π s := hstill (still_tput _ _ _ _)

include hseen
theorem event_keeps (s : State) (p q kind cause sub loc value launch : Nat) : π (s.event p q kind cause sub loc value launch) = π s := by
  unfold State.event
  dsimp only
  split
  · exact eventLost_keeps hstill s p q
  · split
    · exact eventPut_keeps hstill s _ _ _ _ _ _ _ _
    · have htold := (hseen (s.eventPut p q 0x7F 0 0 0 (s.tget (eqAddr p q + 16) 8) 0xFFFFFFFF) p q (s.tget (eqAddr p q + 16) 8)).trans
        (eventPut_keeps hstill s _ _ _ _ _ _ _ _)
      split
      · exact (eventLost_keeps hstill _ p q).trans htold
      · exact (eventPut_keeps hstill _ _ _ _ _ _ _ _ _).trans htold
theorem eventAll_keeps (s : State) (cond : Nat → Bool) (q kind cause sub loc value launch : Nat) :
    π (s.eventAll cond q kind cause sub loc value launch) = π s :=
  foldl_keeps π (by
    intro t p
    split
    · exact event_keeps hstill hseen t _ _ _ _ _ _ _ _
    · rfl) _ _
theorem columnEvent_keeps (s : State) (q kind sub col value : Nat) : π (s.columnEvent q kind sub col value) = π s :=
  eventAll_keeps hstill hseen s _ _ _ _ _ _ _ _
end

/-- A part of the state that lies outside memory, the contexts, the partitions and the lease slots. -/
structure Apart {β : Type} (π : State → β) : Prop where
  still : ∀ {s t : State}, Still s t → π t = π s
  ctxs : ∀ (s : State) l, π { s with ctxs := l } = π s
  parts : ∀ (s : State) l, π { s with parts := l } = π s
  slots : ∀ (s : State) l, π { s with slotOwn := l } = π s

namespace Apart
variable {β : Type} {π : State → β} (h : Apart π)
include h

theorem modCtx (s : State) (c : Nat) (f : Ctx → Ctx) : π (s.modCtx c f) = π s := h.ctxs s _
theorem modPart (s : State) (p : Nat) (f : Part → Part) : π (s.modPart p f) = π s := h.parts s _
theorem event (s : State) (p q kind cause sub loc value launch : Nat) : π (s.event p q kind cause sub loc value launch) = π s :=
  event_keeps h.still (fun t p _ _ => h.modPart t p _) s _ _ _ _ _ _ _ _
theorem columnEvent (s : State) (q kind sub col value : Nat) : π (s.columnEvent q kind sub col value) = π s :=
  columnEvent_keeps h.still (fun t p _ _ => h.modPart t p _) s _ _ _ _ _

theorem endLease (s : State) (p r : Nat) : π (s.endLease p r) = π s :=
  (h.slots _ _).trans (h.still (still_setLease s p r false ((s.part p).reqs.any fun q => q.rect == r) 0 0))
theorem withdraw (s : State) (p r : Nat) (who : LeaseReq → Bool) : π (s.withdraw p r who) = π s := by
  unfold State.withdraw
  dsimp only
  split
  · exact h.modPart _ _ _
  · exact (h.still (still_setLeaseWait _ p r false)).trans (h.modPart _ _ _)
theorem dropLease (s : State) (c : Nat) : π (s.dropLease c) = π s := by
  unfold State.dropLease
  dsimp only
  split
  · rfl
  · exact (h.modCtx _ _ _).trans (h.endLease _ _ _)
  · exact (h.modCtx _ _ _).trans (h.withdraw _ _ _ _)
  · exact h.modCtx _ _ _
theorem endLosing (s : State) (c : Nat) : π (s.endLosing c) = π s := by
  unfold State.endLosing
  dsimp only
  split
  · split
    · exact (h.modCtx _ _ _).trans (h.endLease _ _ _)
    · rfl
  · rfl
theorem requeue (s : State) (c k : Nat) (sel : Cmd → Bool) : π (s.requeue c k sel) = π s := by
  have hdone : ∀ (l : List Cmd) (t : State), π (l.foldl State.reqDone t) = π t := fun l t =>
    foldl_keeps π (by exact fun t d => h.still (still_reqDone t d)) l t
  unfold State.requeue
  dsimp only
  split
  · rfl
  · refine (h.endLosing _ _).trans ((h.modCtx _ _ _).trans ?_)
    have hdrop : ∀ (t : State) (b : Bool), π (if b then t.dropLease c else t) = π t := fun t b => by
      split
      · exact h.dropLease t c
      · rfl
    split
    · exact ((h.modCtx _ _ _).trans (h.still (still_tput _ _ _ _))).trans ((hdrop _ _).trans (hdone _ s))
    · exact (hdrop _ _).trans (hdone _ s)
theorem abortOn (s : State) (n : Nat) (cols : List Nat) : π (s.abortOn n cols) = π s :=
  foldl_keeps π (by exact fun t e => foldl_keeps π (by exact fun u k => h.requeue u _ _ _) _ _) _ _
theorem loseRequests (s : State) (p r : Nat) : π (s.loseRequests p r) = π s := (h.withdraw _ _ _ _).trans (h.ctxs _ _)
theorem loseLease (s : State) (p r col : Nat) : π (s.loseLease p r col) = π s := by
  have hholders : ∀ (l : List (Nat × Ctx)) (t : State),
      π (l.foldl (fun t e => (t.modCtx e.1 fun x => { x with losing := true }).endLosing e.1) t) = π t := fun l t =>
    foldl_keeps π (by exact fun t e => (h.endLosing _ _).trans (h.modCtx _ _ _)) l t
  unfold State.loseLease
  dsimp only
  refine (h.event _ _ _ _ _ _ _ _ _).trans ?_
  split
  · exact (h.endLease _ _ _).trans (h.modPart _ _ _)
  · exact (hholders _ _).trans (h.modPart _ _ _)
end Apart

/-- A column but for the records of its latches. -/
theorem apart_col (c : Nat) : Apart fun s => noRec (s.col c) := ⟨fun h => h.col c, fun _ _ => rfl, fun _ _ => rfl, fun _ _ => rfl⟩
theorem apart_gridRow (r : Nat) : Apart fun s => s.gridRow r :=
  ⟨fun h => (congrArg (State.gridRow · r) h.rest : (unseen _).gridRow r = (unseen _).gridRow r), fun _ _ => rfl, fun _ _ => rfl, fun _ _ => rfl⟩

theorem still_busRecall (s : State) (p pa n : Nat) : Still s (s.busRecall p pa n) :=
  Still.fold (fun t l => by
    split
    · exact still_recall t p l
    · exact .refl t) _ s
theorem still_seeList (s : State) (p r l h : Nat) : Still s (s.seeList p r l h) := Still.fold (fun t _ => still_busRecall t _ _ _) _ s
theorem still_kvWrite (s : State) (p r l h old : Nat) (es : List KvEntry) : Still s (s.kvWrite p r l h old es) :=
  Still.fold (fun t _ => still_homeWrite _ p t _ _) _ s
theorem still_kvMapAll (s : State) (p r : Nat) (f : Nat → Nat → List KvEntry → List KvEntry) : Still s (s.kvMapAll p r f) :=
  Still.fold (fun t l => Still.fold (fun u h => by
    dsimp only
    split
    · exact still_seeList _ _ _ _ _
    · exact (still_seeList _ _ _ _ _).trans (still_kvWrite _ _ _ _ _ _ _)) _ t) _ s
end Sys2Proof.Proofs
end

section
/-! Corrected beats, bus tests and the fencing of columns. -/
namespace Sys2Proof.Proofs
open Sys2Proof.Machine Sys2Proof.Safety Sys2Proof.Laws

/-! Bus tests. -/

/-- A column after the test of its bus, the event told. -/
def testedBus (s : State) (col : Nat) (fixed : List Nat) : State :=
  let t := fixed.foldl (fun (t : State) l => t.columnEvent 1 0x26 0 col l)
    (s.modCol col fun y => { y with corr := 0, markedAt := none, lanes := (s.col col).lanes ++ fixed })
  if fixed = [] then t.columnEvent 1 0x26 0 col 0xFFFFFFFF else t

theorem testBus_idle {s : State} {col : Nat} (failing : List Nat) (h : (s.col col).markedAt = none ∨ s.atBoundary col = false) :
    s.testBus col failing = s := if_pos (by simpa using h)

section
variable {s : State} {col : Nat} {failing : List Nat} (hmark : (s.col col).markedAt.isSome = true) (hbound : s.atBoundary col = true)
include hmark hbound

theorem testBus_eq :
    let new := failing.eraseDups.filter fun l => decide (l < 592)
    let fixed := new.take (16 - (s.col col).lanes.length)
    s.testBus col failing = if fixed.length < new.length then (testedBus s col fixed).fenceColumn col [] else testedBus s col fixed := by
  have hnone : (s.col col).markedAt.isNone = false := by simpa using hmark
  unfold State.testBus testedBus
  dsimp only
  rw [hnone, hbound, if_neg (by decide)]
  simp only [List.isEmpty_iff]

/-- There is a spare for every failing lane. -/
theorem testBus_repaired (h : (failing.eraseDups.filter fun l => decide (l < 592)).length ≤ 16 - (s.col col).lanes.length) :
    s.testBus col failing =
      testedBus s col ((failing.eraseDups.filter fun l => decide (l < 592)).take (16 - (s.col col).lanes.length)) :=
  (testBus_eq hmark hbound).trans (if_neg (by rw [List.length_take]; omega))
theorem testBus_fenced (h : 16 - (s.col col).lanes.length < (failing.eraseDups.filter fun l => decide (l < 592)).length) :
    s.testBus col failing =
      (testedBus s col ((failing.eraseDups.filter fun l => decide (l < 592)).take (16 - (s.col col).lanes.length))).fenceColumn col [] :=
  (testBus_eq hmark hbound).trans (if_pos (by rw [List.length_take]; omega))
end

theorem testedBus_nil (s : State) (col : Nat) :
    testedBus s col [] = (s.modCol col fun y => { y with corr := 0, markedAt := none }).columnEvent 1 0x26 0 col 0xFFFFFFFF := by
  unfold testedBus State.modCol
  dsimp only
  rw [List.append_nil]
  rfl

/-- The events of a test leave every column but for the records of its latches. -/
theorem testedBus_col (s : State) (col c : Nat) (fixed : List Nat) : noRec ((testedBus s col fixed).col c) = noRec
    ((s.modCol col fun y => { y with corr := 0, markedAt := none, lanes := (s.col col).lanes ++ fixed }).col c) := by
  have htold : ∀ t : State, noRec ((fixed.foldl (fun (t : State) l => t.columnEvent 1 0x26 0 col l) t).col c) = noRec (t.col c) := fun t =>
    foldl_keeps (fun t : State => noRec (t.col c)) (by exact fun t l => (apart_col c).columnEvent t _ _ _ _ _) fixed t
  unfold testedBus
  dsimp only
  split
  · exact ((apart_col c).columnEvent _ _ _ _ _ _).trans (htold _)
  · exact htold _

theorem testedBus_fields (s : State) (col : Nat) (fixed : List Nat) :
    let t := testedBus s col fixed
    (t.col col).corr = 0 ∧ (t.col col).markedAt = none ∧ (t.col col).lanes = (s.col col).lanes ++ fixed ∧
      (t.col col).lost = (s.col col).lost ∧ (t.col col).front = (s.col col).front ∧ (t.col col).back = (s.col col).back ∧
      ∀ c, c ≠ col → (t.col c).corr = (s.col c).corr ∧ (t.col c).markedAt = (s.col c).markedAt ∧ (t.col c).lanes = (s.col c).lanes ∧
        (t.col c).lost = (s.col c).lost := by
  have hself := testedBus_col s col col fixed
  rw [State.modCol, setCol_col_same] at hself
  have hother : ∀ c, c ≠ col → noRec ((testedBus s col fixed).col c) = noRec (s.col c) := fun c hc => by
    rw [testedBus_col, State.modCol, setCol_col_ne _ _ hc]
  exact ⟨(congrArg Column.corr hself :), (congrArg Column.markedAt hself :), (congrArg Column.lanes hself :),
    (congrArg Column.lost hself :), (congrArg Column.front hself :), (congrArg Column.back hself :), fun c hc =>
      ⟨(congrArg Column.corr (hother c hc) :), (congrArg Column.markedAt (hother c hc) :), (congrArg Column.lanes (hother c hc) :),
        (congrArg Column.lost (hother c hc) :)⟩⟩

/-! The deadline. -/

/-- A unit marked for pre-emption, unless it is already. -/
def markedPreempt (now : Nat) (x : Ctx) : Ctx := { x with preempt := x.preempt.or (some now) }

theorem markedPreempt_markedPreempt (now : Nat) (x : Ctx) : markedPreempt now (markedPreempt now x) = markedPreempt now x := by
  unfold markedPreempt
  cases x.preempt <;> rfl

/-- A change of every context of a list that made twice is made once. -/
theorem foldl_modCtx_ctx {f : Ctx → Ctx} (hf : ∀ x, f (f x) = f x) (l : List Nat) (s : State) (c : Nat) :
    (l.foldl (fun t d => t.modCtx d f) s).ctx c = if c ∈ l then f (s.ctx c) else s.ctx c := by
  induction l generalizing s with
  | nil => rfl
  | cons d l ih =>
    rw [List.foldl_cons, ih]
    by_cases hcd : c = d
    · subst hcd
      simp [State.modCtx, hf]
    · rw [State.modCtx, setCtx_ctx_ne _ _ hcd]
      simp [hcd]

theorem testDeadline_late {s : State} {col m : Nat} (hm : (s.col col).markedAt = some m) (h : m + 100000000 ≤ s.now) :
    s.testDeadline col = (s.ownersOf col).foldl (fun t d => t.modCtx d (markedPreempt s.now)) s := by
  unfold State.testDeadline
  rw [hm]
  exact if_pos h
theorem testDeadline_early {s : State} {col m : Nat} (hm : (s.col col).markedAt = some m) (h : s.now < m + 100000000) :
    s.testDeadline col = s := by
  unfold State.testDeadline
  rw [hm]
  exact if_neg (Nat.not_le.2 h)
theorem testDeadline_unmarked {s : State} {col : Nat} (hm : (s.col col).markedAt = none) : s.testDeadline col = s := by
  unfold State.testDeadline
  rw [hm]

/-! Fencing. -/

theorem reloadTile_col (s : State) (col : Nat) :
    ∃ f b, (s.reloadTile col).col col = { s.col col with front := f, back := b } := by
  unfold State.reloadTile
  split
  · exact ⟨_, _, rfl⟩
  · split
    · exact ⟨_, _, rfl⟩
    · exact ⟨_, _, setCol_col_same _ _ _⟩
theorem reloadTile_gridRow (s : State) (col r : Nat) : (s.reloadTile col).gridRow r = s.gridRow r := by
  unfold State.reloadTile
  split
  · rfl
  · split <;> rfl
theorem still_staleColumn (s : State) (col : Nat) : Still s (s.staleColumn col) :=
  Still.fold (fun t p => by
    split
    · refine Still.fold (fun u i => ?_) _ t
      dsimp only
      split
      · exact .refl u
      · split
        · exact .refl u
        · exact still_kvMapAll _ _ _ _
    · exact .refl t) _ s

/-- A free kitty stands in for the column. -/
def stoodIn (u : State) (col : Nat) : State :=
  (((u.modCol col fun y => { y with kitty := true, corr := 0, markedAt := none, lanes := [] }).modGridRow (rowOfCol col) fun g =>
    { g with kittyUsed := true }).reloadTile col).staleColumn col

theorem stoodIn_col (u : State) (col : Nat) : ∃ f b, noRec ((stoodIn u col).col col) =
    noRec { u.col col with kitty := true, corr := 0, markedAt := none, lanes := [], front := f, back := b } := by
  obtain ⟨f, b, h⟩ := reloadTile_col ((u.modCol col fun y => { y with kitty := true, corr := 0, markedAt := none, lanes := [] }).modGridRow
    (rowOfCol col) fun g => { g with kittyUsed := true }) col
  refine ⟨f, b, ((still_staleColumn _ col).col col).trans (congrArg noRec (h.trans ?_))⟩
  have hcol : ∀ (t : State) (r : Nat) g, (t.modGridRow r g).col col = t.col col := fun _ _ _ => rfl
  rw [hcol, State.modCol, setCol_col_same]
theorem stoodIn_gridRow (u : State) (col : Nat) : ((stoodIn u col).gridRow (rowOfCol col)).kittyUsed = true := by
  have hrow : (stoodIn u col).gridRow (rowOfCol col) = ((u.modCol col fun y =>
      { y with kitty := true, corr := 0, markedAt := none, lanes := [] }).modGridRow (rowOfCol col) fun g =>
        { g with kittyUsed := true }).gridRow (rowOfCol col) :=
    ((apart_gridRow (rowOfCol col)).still (still_staleColumn _ col)).trans (reloadTile_gridRow _ _ _)
  rw [hrow, State.modGridRow, setGridRow_gridRow_same]

section
variable {s : State} {col : Nat}

theorem fenceColumn_lost (h : (s.col col).lost = true) : s.fenceColumn col [] = s := if_pos h

theorem abortOn_kittyFree : (s.abortOn 6 [col]).kittyFree col = s.kittyFree col := by
  have hrow := (apart_gridRow (rowOfCol col)).abortOn s 6 [col]
  unfold State.kittyFree
  dsimp only at hrow ⊢
  rw [hrow]

variable (hlost : (s.col col).lost = false)
include hlost

theorem fenceColumn_kitty (hfree : s.kittyFree col = true) (hf : (s.col col).frontRec.changed = false)
    (hb : (s.col col).backRec.changed = false) : s.fenceColumn col [] =
      (stoodIn (s.abortOn 6 [col]) col).columnEvent 1 0x22 0 col ((s.abortOn 6 [col]).physical col) := by
  unfold State.fenceColumn
  dsimp only
  rw [if_neg (by simp [hlost]), if_neg (by simp [abortOn_kittyFree, hfree, hf, hb])]
  rfl
theorem fenceColumn_kitty_fields (hfree : s.kittyFree col = true) (hf : (s.col col).frontRec.changed = false)
    (hb : (s.col col).backRec.changed = false) :
    let t := s.fenceColumn col []
    (t.col col).kitty = true ∧ (t.col col).lost = false ∧ (t.col col).corr = 0 ∧ (t.col col).markedAt = none ∧ (t.col col).lanes = [] ∧
      (t.gridRow (rowOfCol col)).kittyUsed = true := by
  obtain ⟨f, b, hstood⟩ := stoodIn_col (s.abortOn 6 [col]) col
  have hcol : noRec ((s.fenceColumn col []).col col) =
      noRec { (s.abortOn 6 [col]).col col with kitty := true, corr := 0, markedAt := none, lanes := [], front := f, back := b } := by
    rw [fenceColumn_kitty hlost hfree hf hb]
    exact ((apart_col col).columnEvent _ _ _ _ _ _).trans hstood
  have hold : noRec ((s.abortOn 6 [col]).col col) = noRec (s.col col) := (apart_col col).abortOn s 6 [col]
  have hrow : (s.fenceColumn col []).gridRow (rowOfCol col) = (stoodIn (s.abortOn 6 [col]) col).gridRow (rowOfCol col) := by
    rw [fenceColumn_kitty hlost hfree hf hb]
    exact (apart_gridRow _).columnEvent _ _ _ _ _ _
  exact ⟨(congrArg Column.kitty hcol :), (congrArg Column.lost hcol :).trans ((congrArg Column.lost hold :).trans hlost),
    (congrArg Column.corr hcol :), (congrArg Column.markedAt hcol :), (congrArg Column.lanes hcol :),
    (congrArg GridRow.kittyUsed hrow).trans (stoodIn_gridRow _ col)⟩
theorem fenceColumn_loses (h : s.kittyFree col = false ∨ (s.col col).frontRec.changed = true ∨ (s.col col).backRec.changed = true) :
    s.fenceColumn col [] = (s.abortOn 6 [col]).loseColumn col := by
  unfold State.fenceColumn
  dsimp only
  rw [if_neg (by simp [hlost]), if_pos]
  rw [abortOn_kittyFree]
  rcases h with h | h | h <;> simp [h]
end

/-! The loss of a column. -/

/-- The partitions whose streams can hold or ask for the column. -/
def openParts (s : State) : List Nat := (List.range 64).filter fun p => (s.part p).isOpen
/-- The leased rectangles over a column, with their partitions, and those asked for. -/
def heldOver (s : State) (col : Nat) : List (Nat × Nat) := (openParts s).flatMap fun p => (s.coveringHeld p col).map fun r => (p, r)
def askedOver (s : State) (col : Nat) : List (Nat × Nat) := (openParts s).flatMap fun p => (s.coveringAsked p col).map fun r => (p, r)
/-- The column is lost, and the requests over it with it. -/
def requestsLost (s : State) (col : Nat) : State :=
  (askedOver s col).foldl (fun t e => t.loseRequests e.1 e.2) (s.modCol col fun x => { x with lost := true, markedAt := none })
/-- The leases of a list are lost with a column. -/
def leasesLost (col : Nat) (l : List (Nat × Nat)) (s : State) : State := l.foldl (fun t e => t.loseLease e.1 e.2 col) s

theorem loseColumn_eq (s : State) (col : Nat) : s.loseColumn col =
    if (heldOver s col).isEmpty then
      ((requestsLost s col).columnEvent 1 0x23 0 col (Config.freeWord (requestsLost s col).tick).toNat).bump
    else leasesLost col (heldOver s col) (requestsLost s col) := rfl

theorem loseColumn_lost (s : State) (col : Nat) : ((s.loseColumn col).col col).lost = true := by
  have hcol := apart_col col
  have hasked : noRec ((requestsLost s col).col col) = noRec { s.col col with lost := true, markedAt := none } := by
    have hkeep := foldl_keeps (fun t : State => noRec (t.col col)) (by exact fun t (e : Nat × Nat) => hcol.loseRequests t e.1 e.2)
      (askedOver s col) (s.modCol col fun x => { x with lost := true, markedAt := none })
    rw [State.modCol, setCol_col_same] at hkeep
    exact hkeep
  have hheld : noRec ((leasesLost col (heldOver s col) (requestsLost s col)).col col) = noRec ((requestsLost s col).col col) :=
    foldl_keeps (fun t : State => noRec (t.col col)) (by exact fun t e => hcol.loseLease t _ _ _) _ _
  rw [loseColumn_eq]
  by_cases h : (heldOver s col).isEmpty
  · rw [if_pos h]
    have htold := (hcol.columnEvent _ 1 0x23 0 col (Config.freeWord (requestsLost s col).tick).toNat).trans hasked
    exact congrArg Column.lost ((hcol.still (still_bump _)).trans htold)
  · rw [if_neg h]
    exact congrArg Column.lost (hheld.trans hasked)

theorem columnEvents : Claims.ColumnEvents := by
  intro s col failing
  dsimp only
  refine ⟨rfl, fun hidle => ?_, fun hmark hbound => ⟨fun hnew => ?_, fun hroom => ?_, fun hmany => ?_, ?_⟩, fun m hm => ⟨fun hlate => ?_, fun hearly => ?_⟩,
    fun hm => ?_, fun hlost => ?_, fun hlost => ⟨fun hfree hf hb => ⟨?_, ?_⟩, fun hbad => ⟨?_, loseColumn_lost _ _⟩⟩⟩
  · exact runEvent_of_eq (·.testBus col failing) (testBus_idle failing hidle)
  · have hrun := testBus_repaired hmark hbound (failing := failing) (by rw [hnew]; exact Nat.zero_le _)
    rw [hnew, List.take_nil, testedBus_nil] at hrun
    exact runEvent_of_eq (·.testBus col failing) hrun
  · exact runEvent_of_eq (·.testBus col failing) (testBus_repaired hmark hbound hroom)
  · exact runEvent_of_eq (·.testBus col failing) (testBus_fenced hmark hbound hmany)
  · exact testedBus_fields s col ((failing.eraseDups.filter fun l => decide (l < 592)).take (16 - (s.col col).lanes.length))
  · have hrun := testDeadline_late hm hlate
    refine ⟨{ s.testDeadline col with mark := .ok }, rfl, ?_, fun c => ?_⟩
    · exact (congrArg State.mem hrun).trans (foldl_keeps State.mem (by exact fun _ _ => rfl) _ _)
    · exact (congrArg (State.ctx · c) hrun).trans (foldl_modCtx_ctx (markedPreempt_markedPreempt s.now) _ s c)
  · exact runEvent_of_eq (·.testDeadline col) (testDeadline_early hm hearly)
  · exact runEvent_of_eq (·.testDeadline col) (testDeadline_unmarked hm)
  · exact runEvent_of_eq (·.fenceColumn col []) (fenceColumn_lost hlost)
  · exact ⟨{ s.fenceColumn col [] with mark := .ok }, rfl, fenceColumn_kitty_fields hlost hfree hf hb⟩
  · exact runEvent_of_eq (·.fenceColumn col []) (fenceColumn_kitty hlost hfree hf hb)
  · exact runEvent_of_eq (·.fenceColumn col []) (fenceColumn_loses hlost hbad)
end Sys2Proof.Proofs
end

section
/-! Leases and requests over a lost column. -/
namespace Sys2Proof.Proofs
open Sys2Proof.Machine Sys2Proof.Safety Sys2Proof.Laws

/-! SUPPORT. Folds and association lists. -/

theorem foldl_holds {σ α : Type} {P : σ → Prop} {f : σ → α → σ} (h : ∀ t a, P t → P (f t a)) (l : List α) {s : σ} (hs : P s) :
    P (l.foldl f s) := by
  induction l generalizing s with
  | nil => exact hs
  | cons a l ih => exact ih (h s a hs)

/-- What one element of the list brings about, and the others keep, holds at the end. -/
theorem foldl_reaches {σ α : Type} {P Q : σ → Prop} {f : σ → α → σ} {a : α} {l : List α} (ha : a ∈ l) (hP : ∀ t b, P t → P (f t b))
    (hQ : ∀ t b, Q t → Q (f t b)) (h : ∀ t, P t → Q (f t a)) {s : σ} (hs : P s) : Q (l.foldl f s) := by
  induction l generalizing s with
  | nil => cases ha
  | cons b l ih =>
    rcases List.mem_cons.1 ha with rfl | ha
    · exact foldl_holds hQ l (h s hs)
    · exact ih ha (hP s b hs)

theorem assocGet_mem {α : Type} {d : α} {l : Assoc α} {n : Nat} (h : assocGet d l n ≠ d) : (n, assocGet d l n) ∈ l := by
  induction l with
  | nil => exact absurd rfl h
  | cons e l ih =>
    obtain ⟨k, v⟩ := e
    by_cases hk : n = k
    · subst hk
      simp [assocGet]
    · rw [assocGet, if_neg hk] at h ⊢
      exact List.mem_cons_of_mem _ (ih h)

theorem assocGet_map {α : Type} {d : α} {f : α → α} (hd : f d = d) (l : Assoc α) (n : Nat) :
    assocGet d (l.map fun e => (e.1, f e.2)) n = f (assocGet d l n) := by
  induction l with
  | nil => exact hd.symm
  | cons e l ih =>
    obtain ⟨k, v⟩ := e
    by_cases hk : n = k
    · subst hk
      simp [assocGet]
    · rw [List.map_cons, assocGet, if_neg hk, assocGet, if_neg hk, ih]

/-! A context whose request or lease is lost. -/

/-- A context whose request for a rectangle is lost. -/
def lostRequest (p r : Nat) (x : Ctx) : Ctx :=
  match x.lease with
  | .requested q _ => if x.partNo = p ∧ q = r then { x with lease := .lost r } else x
  | _ => x

theorem loseRequests_ctx (s : State) (p r c : Nat) : (s.loseRequests p r).ctx c = lostRequest p r (s.ctx c) := by
  have hlose : (fun e : Nat × Ctx => match e.2.lease with
      | .requested q _ => if e.2.partNo = p ∧ q = r then (e.1, { e.2 with lease := .lost r }) else e
      | _ => e) = fun e => (e.1, lostRequest p r e.2) := funext fun e => by
    cases hl : e.2.lease with
    | requested q n =>
      simp only [lostRequest, hl]
      split <;> rfl
    | _ => simp only [lostRequest, hl]
  unfold State.loseRequests State.ctx
  rw [withdraw_ctxs]
  exact (congrArg (fun f => assocGet ({} : Ctx) (s.ctxs.map f) c) hlose).trans (assocGet_map rfl s.ctxs c)

/-- A context whose lease ends at a boundary of its stream's commands, where the loss is noted. -/
def lossEnded (x : Ctx) : Ctx :=
  match x.lease with
  | .held r _ _ => if x.losing && !(x.stream 0).started.any needsLease then { x with lease := .lost r, losing := false } else x
  | _ => x

theorem endLosing_ctx (s : State) (d c : Nat) : (s.endLosing d).ctx c = if c = d then lossEnded (s.ctx c) else s.ctx c := by
  have hend : ∀ p r, (s.endLease p r).ctx c = s.ctx c := fun p r => congrArg (fun l => assocGet ({} : Ctx) l c) (endLease_ctxs s p r)
  unfold State.endLosing lossEnded
  dsimp only
  by_cases hc : c = d
  · subst hc
    rw [if_pos rfl]
    cases hl : (s.ctx c).lease with
    | held r left limit =>
      dsimp only
      split
      · rw [State.modCtx, setCtx_ctx_same, hend]
      · rfl
    | _ => rfl
  · rw [if_neg hc]
    split
    · split
      · rw [State.modCtx, setCtx_ctx_ne _ _ hc, hend]
      · rfl
    · rfl

/-- One holder of a lost lease notes the loss. -/
def noteLoss (s : State) (c : Nat) : State := (s.modCtx c fun x => { x with losing := true }).endLosing c

theorem noteLoss_ctx (s : State) (d c : Nat) :
    (noteLoss s d).ctx c = if c = d then lossEnded { s.ctx c with losing := true } else s.ctx c := by
  unfold noteLoss State.modCtx
  rw [endLosing_ctx]
  by_cases hc : c = d
  · subst hc
    rw [if_pos rfl, if_pos rfl, setCtx_ctx_same]
  · rw [if_neg hc, if_neg hc, setCtx_ctx_ne _ _ hc]

/-! The loss of one lease. -/

theorem event_ctx (s : State) (p q kind cause sub loc value launch c : Nat) : (s.event p q kind cause sub loc value launch).ctx c = s.ctx c :=
  event_keeps (π := (State.ctx · c)) (fun h => Still.ctx h c) (fun _ _ _ _ => rfl) _ _ _ _ _ _ _ _ _
theorem columnEvent_ctx (s : State) (q kind sub col value c : Nat) : (s.columnEvent q kind sub col value).ctx c = s.ctx c :=
  columnEvent_keeps (π := (State.ctx · c)) (fun h => Still.ctx h c) (fun _ _ _ _ => rfl) _ _ _ _ _ _

/-- Its holders note it, the others see nothing. -/
theorem loseLease_ctx (s : State) (p r col c : Nat) : (s.loseLease p r col).ctx c =
    ((s.leaseHolders p r).foldl (fun t e => noteLoss t e.1) (s.modPart p fun q => { q with parked := q.parked.filter fun k => k.rect != r })).ctx
      c := by
  unfold State.loseLease
  dsimp only
  rw [event_ctx]
  by_cases h : (s.leaseHolders p r).isEmpty
  · rw [if_pos h, List.isEmpty_iff.1 h]
    exact congrArg (fun l => assocGet ({} : Ctx) l c) (endLease_ctxs _ p r)
  · rw [if_neg h]
    rfl

section
variable {P Q : Ctx → Prop} {s : State} {p r col c : Nat}

theorem loseLease_ctx_holds (h : ∀ x, P x → P (lossEnded { x with losing := true })) (hs : P (s.ctx c)) : P ((s.loseLease p r col).ctx c) := by
  rw [loseLease_ctx]
  refine foldl_holds (P := fun t : State => P (t.ctx c)) (fun t e ht => ?_) _ hs
  rw [noteLoss_ctx]
  split
  · exact h _ ht
  · exact ht

/-- What the note of the loss brings about in a holder. -/
theorem loseLease_ctx_reaches (hheld : ∃ x, (c, x) ∈ s.leaseHolders p r) (h : ∀ x, P x → Q (lossEnded { x with losing := true }))
    (hQ : ∀ x, Q x → P x) (hs : P (s.ctx c)) : Q ((s.loseLease p r col).ctx c) := by
  obtain ⟨x, hx⟩ := hheld
  rw [loseLease_ctx]
  refine foldl_reaches (P := fun t : State => P (t.ctx c)) (Q := fun t : State => Q (t.ctx c)) hx (fun t e ht => ?_) (fun t e ht => ?_)
    (fun t ht => ?_) hs
  · rw [noteLoss_ctx]
    split
    · exact hQ _ (h _ ht)
    · exact ht
  · rw [noteLoss_ctx]
    split
    · exact h _ (hQ _ ht)
    · exact ht
  · rw [noteLoss_ctx, if_pos rfl]
    exact h _ ht
end

/-- A context whose stream holds the lease of a rectangle is one of its holders. -/
theorem mem_leaseHolders {s : State} {c p r left limit : Nat} (hp : (s.ctx c).partNo = p) (hl : (s.ctx c).lease = .held r left limit) :
    (c, s.ctx c) ∈ s.leaseHolders p r := by
  have hmem : (c, s.ctx c) ∈ s.ctxs := assocGet_mem fun h => by
    have hnone : (s.ctx c).lease = .none := congrArg Ctx.lease h
    rw [hl] at hnone
    cases hnone
  refine List.mem_filter.2 ⟨hmem, ?_⟩
  dsimp only
  rw [hl]
  simp [hp]

/-! A column's rectangles. -/

theorem mem_heldOver {s : State} {col p rect : Nat} (hp : p < 64) (hopen : (s.part p).isOpen = true) (hrect : rect < 256)
    (hheld : s.leaseHeld p rect = true) (hcol : col ∈ s.rectColumns p rect) : (p, rect) ∈ heldOver s col := by
  simp only [heldOver, openParts, State.coveringHeld, State.heldRects, List.mem_flatMap, List.mem_filter, List.mem_map, List.mem_range]
  exact ⟨p, ⟨hp, hopen⟩, rect, ⟨⟨hrect, hheld⟩, by simpa using hcol⟩, rfl⟩
theorem mem_askedOver {s : State} {col p rect : Nat} (hp : p < 64) (hopen : (s.part p).isOpen = true)
    (hreq : ∃ r ∈ (s.part p).reqs, r.rect = rect) (hcol : col ∈ s.rectColumns p rect) : (p, rect) ∈ askedOver s col := by
  simp only [askedOver, openParts, State.coveringAsked, List.mem_flatMap, List.mem_filter, List.mem_map, List.mem_range, List.mem_eraseDups]
  exact ⟨p, ⟨hp, hopen⟩, rect, ⟨hreq, by simpa using hcol⟩, rfl⟩

theorem loseColumn_held {s : State} {col : Nat} {e : Nat × Nat} (h : e ∈ heldOver s col) :
    s.loseColumn col = leasesLost col (heldOver s col) (requestsLost s col) := by
  rw [loseColumn_eq, if_neg]
  rw [List.isEmpty_iff]
  exact List.ne_nil_of_mem h

/-! A held lease. -/

/-- A holder of a rectangle whose loss may have been noted: with a command that needs the lease it holds on, else the lease may be lost. -/
def HoldsOrLost (x₀ : Ctx) (rect : Nat) (x : Ctx) : Prop :=
  (∃ b, x = { x₀ with losing := b }) ∨
    (x₀.stream 0).started.any needsLease = false ∧ ∃ b, x = { x₀ with lease := .lost rect, losing := b }
/-- A holder that has noted the loss. -/
def Noted (x₀ : Ctx) (rect : Nat) (x : Ctx) : Prop :=
  if (x₀.stream 0).started.any needsLease then x = { x₀ with losing := true } else ∃ b, x = { x₀ with lease := .lost rect, losing := b }

theorem noted_holdsOrLost {x₀ x : Ctx} {rect : Nat} (h : Noted x₀ rect x) : HoldsOrLost x₀ rect x := by
  unfold Noted at h
  split at h
  · exact .inl ⟨true, h⟩
  · exact .inr ⟨Bool.eq_false_iff.2 ‹_›, h⟩

section
variable {x₀ : Ctx} {rect left limit : Nat} (hl : x₀.lease = .held rect left limit)
include hl

theorem noted_lossEnded {x : Ctx} (h : HoldsOrLost x₀ rect x) : Noted x₀ rect (lossEnded { x with losing := true }) := by
  have hstream : ({ x₀ with losing := true } : Ctx).stream 0 = x₀.stream 0 := rfl
  unfold Noted
  rcases h with ⟨b, rfl⟩ | ⟨hnone, b, rfl⟩
  · unfold lossEnded
    dsimp only
    rw [hstream, hl]
    by_cases hn : (x₀.stream 0).started.any needsLease = true
    · simp [hn]
    · simp [hn]
  · rw [hnone]
    exact ⟨true, rfl⟩

theorem lostRequest_holdsOrLost {x : Ctx} (p r : Nat) (h : HoldsOrLost x₀ rect x) : lostRequest p r x = x := by
  unfold lostRequest
  rcases h with ⟨b, rfl⟩ | ⟨-, b, rfl⟩
  · dsimp only
    rw [hl]
  · rfl
end

theorem loseColumn_noted {s : State} {col c rect left limit : Nat} (hl : (s.ctx c).lease = .held rect left limit)
    (hmem : ((s.ctx c).partNo, rect) ∈ heldOver s col) : Noted (s.ctx c) rect ((s.loseColumn col).ctx c) := by
  have hasked : HoldsOrLost (s.ctx c) rect ((requestsLost s col).ctx c) :=
    foldl_holds (P := fun t : State => HoldsOrLost (s.ctx c) rect (t.ctx c)) (fun t e ht => by
      rw [loseRequests_ctx, lostRequest_holdsOrLost hl _ _ ht]
      exact ht) _ (.inl ⟨(s.ctx c).losing, rfl⟩)
  rw [loseColumn_held hmem]
  refine foldl_reaches (P := fun t : State => HoldsOrLost (s.ctx c) rect (t.ctx c)) (Q := fun t : State => Noted (s.ctx c) rect (t.ctx c)) hmem
    (fun t e ht => loseLease_ctx_holds (fun x hx => noted_holdsOrLost (noted_lossEnded hl hx)) ht)
    (fun t e ht => loseLease_ctx_holds (fun x hx => noted_lossEnded hl (noted_holdsOrLost hx)) ht) (fun t ht => ?_) hasked
  rcases ht with ⟨b, hx⟩ | ⟨hnone, b, hx⟩
  · have hpart : (t.ctx c).partNo = (s.ctx c).partNo := by
      rw [hx]
      rfl
    have hlease : (t.ctx c).lease = .held rect left limit := by
      rw [hx]
      exact hl
    exact loseLease_ctx_reaches ⟨_, mem_leaseHolders hpart hlease⟩ (fun _ => noted_lossEnded hl) (fun _ => noted_holdsOrLost)
      (.inl ⟨b, hx⟩)
  · refine loseLease_ctx_holds (P := Noted (s.ctx c) rect) (fun x hx => noted_lossEnded hl (noted_holdsOrLost hx)) ?_
    unfold Noted
    rw [hnone]
    exact ⟨b, hx⟩

/-! A request. -/

/-- A stream of a partition that asks for a rectangle, or has lost it. -/
def AsksOrLost (p rect : Nat) (x : Ctx) : Prop := x.partNo = p ∧ (∃ n, x.lease = .requested rect n) ∨ x.lease = .lost rect

theorem lostRequest_asksOrLost {p rect : Nat} {x : Ctx} (q r : Nat) (h : AsksOrLost p rect x) : AsksOrLost p rect (lostRequest q r x) := by
  rcases h with ⟨hp, n, hl⟩ | hl
  · simp only [lostRequest, hl]
    split
    · next h => exact .inr (by rw [h.2])
    · exact .inl ⟨hp, n, hl⟩
  · simp only [lostRequest, hl]
    exact .inr hl
theorem lostRequest_lost {rect : Nat} {x : Ctx} (q r : Nat) (h : x.lease = .lost rect) : (lostRequest q r x).lease = .lost rect := by
  simp only [lostRequest, h]
theorem lostRequest_asked {p rect : Nat} {x : Ctx} (h : AsksOrLost p rect x) : (lostRequest p rect x).lease = .lost rect := by
  rcases h with ⟨hp, n, hl⟩ | hl
  · simp [lostRequest, hl, hp]
  · exact lostRequest_lost _ _ hl

theorem loseColumn_asked {s : State} {col c rect n : Nat} (hl : (s.ctx c).lease = .requested rect n)
    (hmem : ((s.ctx c).partNo, rect) ∈ askedOver s col) : ((s.loseColumn col).ctx c).lease = .lost rect := by
  have hasked : ((requestsLost s col).ctx c).lease = .lost rect :=
    foldl_reaches (P := fun t : State => AsksOrLost (s.ctx c).partNo rect (t.ctx c)) (Q := fun t : State => (t.ctx c).lease = .lost rect) hmem
      (fun t e ht => by
        rw [loseRequests_ctx]
        exact lostRequest_asksOrLost _ _ ht)
      (fun t e ht => by
        rw [loseRequests_ctx]
        exact lostRequest_lost _ _ ht)
      (fun t ht => by
        rw [loseRequests_ctx]
        exact lostRequest_asked ht) (.inl ⟨rfl, n, hl⟩)
  rw [loseColumn_eq]
  by_cases hnone : (heldOver s col).isEmpty
  · have hbump : ∀ t : State, t.bump.ctx c = t.ctx c := fun _ => rfl
    rw [if_pos hnone, hbump, columnEvent_ctx, hasked]
  · rw [if_neg hnone]
    refine foldl_holds (P := fun t : State => (t.ctx c).lease = .lost rect) (fun t e ht => ?_) _ hasked
    refine loseLease_ctx_holds (P := fun x => x.lease = .lost rect) (fun x hx => ?_) ht
    simp only [lossEnded, hx]

/-! A parked lease. -/

theorem setLostSeen_parked (s : State) (p q v r : Nat) : ((s.setLostSeen p q v).part r).parked = (s.part r).parked := by
  unfold State.setLostSeen State.modPart
  by_cases h : r = p
  · subst h
    rw [setPart_part_same]
    split <;> rfl
  · rw [setPart_part_ne _ _ h]
theorem event_parked (s : State) (p q kind cause sub loc value launch r : Nat) :
    ((s.event p q kind cause sub loc value launch).part r).parked = (s.part r).parked :=
  event_keeps (π := fun t : State => (t.part r).parked)
    (fun h => (congrArg Part.parked (h.part r) : (noStats _).parked = (noStats _).parked)) (fun _ _ _ _ => setLostSeen_parked _ _ _ _ _)
    _ _ _ _ _ _ _ _ _
theorem endLosing_part (s : State) (c p : Nat) : (s.endLosing c).part p = s.part p := by
  unfold State.endLosing
  dsimp only
  split
  · next r _ _ _ =>
    split
    · exact endLease_part s (s.ctx c).partNo r p
    · rfl
  · rfl

theorem loseLease_parked (s : State) (p r col q : Nat) : ((s.loseLease p r col).part q).parked =
    if q = p then (s.part q).parked.filter fun k => k.rect != r else (s.part q).parked := by
  have hmod : ((s.modPart p fun x => { x with parked := x.parked.filter fun k => k.rect != r }).part q).parked =
      if q = p then (s.part q).parked.filter fun k => k.rect != r else (s.part q).parked := by
    by_cases h : q = p
    · subst h
      rw [State.modPart, setPart_part_same, if_pos rfl]
    · rw [State.modPart, setPart_part_ne _ _ h, if_neg h]
  unfold State.loseLease
  dsimp only
  rw [event_parked, ← hmod]
  by_cases h : (s.leaseHolders p r).isEmpty
  · rw [if_pos h, endLease_part]
  · rw [if_neg h]
    exact congrArg Part.parked (foldl_keeps (fun t : State => t.part q) (by exact fun t e => endLosing_part _ _ _) _ _)

theorem loseColumn_parked {s : State} {col p rect : Nat} (hmem : (p, rect) ∈ heldOver s col) :
    ∀ k ∈ ((s.loseColumn col).part p).parked, k.rect ≠ rect := by
  rw [loseColumn_held hmem]
  refine foldl_reaches (P := fun _ : State => True) (Q := fun t : State => ∀ k ∈ (t.part p).parked, k.rect ≠ rect) hmem (fun _ _ _ => trivial)
    (fun t e ht k hk => ?_) (fun t _ k hk => ?_) trivial
  · rw [loseLease_parked] at hk
    split at hk
    · exact ht k (List.mem_filter.1 hk).1
    · exact ht k hk
  · rw [loseLease_parked, if_pos rfl] at hk
    simpa using (List.mem_filter.1 hk).2

theorem lostColumns : Claims.LostColumns := by
  rintro s col c p rect hp rfl hopen hcol
  refine ⟨fun l m hl hheld hrect _ => ?_, fun n hl hreq => loseColumn_asked hl (mem_askedOver hp hopen hreq hcol),
    fun hheld hrect _ => loseColumn_parked (mem_heldOver hp hopen hrect hheld hcol)⟩
  have hnoted := loseColumn_noted hl (mem_heldOver hp hopen hrect hheld hcol)
  unfold Noted at hnoted
  dsimp only
  split at hnoted
  · next hneeds =>
    rw [if_pos hneeds, hnoted]
    exact ⟨hl, rfl⟩
  · next hneeds =>
    obtain ⟨b, hb⟩ := hnoted
    rw [if_neg hneeds, hb]

/-- Settles O56: the events of a column, and what its loss does to leases and requests. -/
theorem columnContainment : Obligations.ColumnContainment := ⟨columnEvents, lostColumns⟩
end Sys2Proof.Proofs
end

section
/-! A list of entries that is written and not read back. -/
namespace Sys2Proof.Proofs
open Sys2Proof.Machine Sys2Proof.Safety Sys2Proof.Laws

/-- A state whose list of clusters names cluster 0 twice. A recall of line 0 looks in the first record, which holds nothing; the
coherent view looks in both, and finds a dirty copy of the line in the second. -/
def clusterTwice : State :=
  { clusters := [(0, {}), (0, { l2 := [{ line := 0, data := 0, dirty := true, excl := true, key := 0, part := 0 }] })] }

/-- The entry of one token in page 0 of column 0. -/
def tokenEntry : KvEntry := { valid := true, count := 1 }

/-- The list of layer 0 and head 0 of request 0 lies in bank memory. -/
theorem clusterTwice_inBank : ∀ i, i < max 0 [tokenEntry].length →
    clusterTwice.reqRoot 0 + ((0 * clusterTwice.reqHeads 0 + 0) * clusterTwice.reqMaxblk 0 + i) * 16 + 16 ≤ 2 ^ 40 ∧
      ∀ x, x < 16 → encrypted (clusterTwice.kvAddr 0 0 0 i + x) = true := by
  decide +kernel

/-- The entry written is not the one read: the dirty copy still covers it. -/
theorem clusterTwice_unread : ((clusterTwice.kvWrite 0 0 0 0 0 [tokenEntry]).kvEntry 0 0 0 0 0).valid = false := by
  decide +kernel

/-- Refutes O59: its part on key-value lists says of every state that an entry that `kvWrite` has written is read back by `kvEntry`, and
states whose list of clusters names a cluster twice are among them. There the recall before the write does not reach the second record of
the cluster, and a dirty line in it hides what was written. -/
theorem not_engineCommits : ¬ Obligations.EngineCommits := by
  rintro ⟨-, -, -, ⟨-, -, hlists, -⟩, -⟩
  obtain ⟨hread, -⟩ := hlists clusterTwice 0 0 0 0 0 0 [tokenEntry] tokenEntry clusterTwice_inBank
  have hentry : (clusterTwice.kvWrite 0 0 0 0 0 [tokenEntry]).kvEntry 0 0 0 0 0 = tokenEntry :=
    hread rfl (by decide) (by decide) (by decide) (by decide) (by decide) (by decide) (by decide) (by decide) (by decide) rfl
  exact absurd ((congrArg KvEntry.valid hentry).symm.trans clusterTwice_unread) (by decide)
end Sys2Proof.Proofs
end

section
/-! What a vector syllable leaves where its operands pass every check: one lemma for each shape of a meaning. -/
namespace Sys2Proof.Proofs
open Sys2Proof.Machine Sys2Proof.Safety Sys2Proof.Laws

/-! The parts of a vector syllable's meaning. -/

theorem popAll_run (srcs : List VOp) (s : State) : popAll srcs s = .ok () (after (popAll srcs) s) := rfl
theorem vwrite_run (d : VOp) (f : Fmt) (lat : Option Nat) (rs : List (Option Nat)) (s : State) :
    vwrite d f lat rs s = .ok () (after (vwrite d f lat rs) s) := by
  cases d <;> rfl
theorem vwriteRow_run (d : VOp) (f : Fmt) (lat : Option Nat) (data : Row) (s : State) :
    vwriteRow d f lat data s = .ok () (after (vwriteRow d f lat data) s) := by
  cases d <;> rfl

/-- A meaning that checks its operands, pops its sources and writes its elements. -/
theorem checkPopWrite_run {s : State} {dst : Option Opd} {merge mask noViews : Bool} {os : List Opd} {clat lat : Option Nat} {shape : Option Word}
    (h : Passes s dst merge os mask clat shape noViews) (srcs : List VOp) (d : VOp) (f : Fmt) (rs : List (Option Nat)) :
    (do vcheck dst merge os mask clat shape noViews; popAll srcs; vwrite d f lat rs : M Unit) { s with mark := .ok } =
      .ok () (vresult s srcs d f lat rs) := by
  rw [bind_ok h, bind_ok (popAll_run _ _), vwrite_run]
  rfl

/-- One that writes a whole row or queue entry. -/
theorem checkPopWriteRow_run {s : State} {dst : Option Opd} {merge mask noViews : Bool} {os : List Opd} {clat lat : Option Nat}
    {shape : Option Word} (h : Passes s dst merge os mask clat shape noViews) (srcs : List VOp) (d : VOp) (f : Fmt) (data : Row) :
    (do vcheck dst merge os mask clat shape noViews; popAll srcs; vwriteRow d f lat data : M Unit) { s with mark := .ok } =
      .ok () (vresultRow s srcs d f lat data) := by
  rw [bind_ok h, bind_ok (popAll_run _ _), vwriteRow_run]
  rfl

/-! The vector arithmetic syllables. -/

theorem vectorTwoSources : Claims.VectorTwoSources := by
  intro s f d x y does
  have run : ∀ (i : Instr) (g : Fmt) (lat : Nat) (op : Nat → Nat → Nat),
      exec i s = runSyl 2 (ew2 g lat op d x y) s → does i g lat op :=
    fun _ _ _ _ hi h => hi.trans (runSyl_ok (checkPopWrite_run h _ _ _ _))
  exact ⟨run _ _ _ _ rfl, run _ _ _ _ rfl, run _ _ _ _ rfl, run _ _ _ _ rfl, run _ _ _ _ rfl, run _ _ _ _ rfl, run _ _ _ _ rfl,
    run _ _ _ _ rfl, run _ _ _ _ rfl, run _ _ _ _ rfl, run _ _ _ _ rfl, run _ _ _ _ rfl, run _ _ _ _ rfl⟩

theorem vectorMultiplyAdd : Claims.VectorMultiplyAdd := by
  intro s f d x y n on args h
  exact ⟨runSyl_ok (checkPopWrite_run h _ _ _ _), runSyl_ok (checkPopWrite_run h _ _ _ _)⟩

/-- VMOV of a format other than F4B moves its elements. -/
theorem vmovM_of_ne {f : Fmt} (hf : f ≠ .f4b) (d x : VOp) : vmovM f d x = ew1 f vlatShort id d x := by
  unfold vmovM
  rw [if_neg (by simpa using hf)]

/-- VMOV of an F4B row moves it whole. -/
theorem vmovM_f4b_run {s : State} {d x : VOp} (h : Passes s (some (opd d .f4b)) false [opd x .f4b] false (some vlatShort) none) :
    vmovM .f4b d x { s with mark := .ok } = .ok () (vresultRow s [x] d .f4b (some vlatShort) (f4bRow (vdata s x 0))) := by
  unfold vmovM
  rw [if_pos (by decide), bind_ok h, bind_ok (get_run _), bind_ok (popAll_run _ _), vwriteRow_run]
  rfl

theorem vectorOneSource : Claims.VectorOneSource := by
  intro s f d x does
  have run : ∀ (i : Instr) (g : Fmt) (lat : Nat) (op : Nat → Nat), exec i s = runSyl 2 (ew1 g lat op d x) s → does i g lat op :=
    fun _ _ _ _ hi h => hi.trans (runSyl_ok (checkPopWrite_run h _ _ _ _))
  refine ⟨run _ _ _ _ rfl, run _ _ _ _ rfl, ?_, ?_, run _ _ _ _ rfl, run _ _ _ _ rfl, run _ _ _ _ rfl,
    run _ _ _ _ rfl, fun hf => run _ _ _ _ ?_, fun h => runSyl_ok (vmovM_f4b_run h)⟩
  · exact fun h => runSyl_ok (checkPopWrite_run h _ _ _ _)
  · exact fun h => runSyl_ok (checkPopWrite_run h _ _ _ _)
  · exact congrArg (runSyl 2 · s) (vmovM_of_ne hf d x)

/-! Conversions, rotation and compares. -/

/-- A conversion between element formats. -/
theorem vcvtM_of_elements {f src : Fmt} (hf : f ≠ .f4b) (hsrc : src ≠ .f4b) (sat : Bool) (d x : VOp) :
    vcvtM sat f d x src = (do
      let s ← get
      let n := min (countOf s d f) (countOf s x src)
      vcheck (some { op := d, fmt := f, is32 := f.is32 && src.is32 }) ((maskBits s n).any (!·))
        [{ op := x, fmt := src, is32 := f.is32 && src.is32 }] true vlatMul
      popAll [x]
      vwrite d f (some vlatMul) (merged (maskBits s n) (((velems s x src n 0).map (cvtElem f src sat)).take n)) : M Unit) := by
  unfold vcvtM
  simp only [beq_iff_eq, hf, hsrc, if_false]

/-- A conversion from F4B. -/
theorem vcvtM_of_f4b {f : Fmt} (hf : f ≠ .f4b) (sat : Bool) (d x : VOp) :
    vcvtM sat f d x .f4b = (do
      let s ← get
      let n := min (countOf s d f) (countOf s x .f4b)
      vcheck (some { op := d, fmt := f, is32 := f.is32 && Fmt.is32 .f4b }) ((maskBits s n).any (!·))
        [{ op := x, fmt := .f4b, is32 := f.is32 && Fmt.is32 .f4b }] true vlatMul
      popAll [x]
      vwrite d f (some vlatMul) (merged (maskBits s n)
        (((f4bValues (vdata s x 0)).map fun v => if f.isInt then f.ofFloat v else f.float.roundTo sat v).take n)) : M Unit) := by
  unfold vcvtM
  simp only [beq_iff_eq, hf, if_false, if_true]

/-- A meaning that goes on to its end has gone on past its first step. -/
theorem bind_eq_ok {α β : Type} {m : M α} {k : α → M β} {s t : State} {b : β} (h : (m >>= k) s = .ok b t) :
    ∃ a u, m s = .ok a u ∧ k a u = .ok b t := by
  rw [bind_run] at h
  cases hm : m s with
  | ok a u => exact ⟨a, u, rfl, by rwa [hm] at h⟩
  | error e u => rw [hm] at h; cases h

theorem trapFirst_ok {c : Byte} {l : List (Option Word)} {s t : State} (h : trapFirst c l s = .ok () t) : l.findSome? id = none := by
  unfold trapFirst at h
  cases hl : l.findSome? id with
  | some v => rw [hl] at h; cases h
  | none => rfl

/-- The checks do not pass where a latch parameter is violated. -/
theorem not_passes_of_shape (s : State) (d : Option Opd) (merge : Bool) (srcs : List Opd) (mask : Bool) (lat : Option Nat) (w : Word)
    (noViews : Bool) : ¬Passes s d merge srcs mask lat (some w) noViews := by
  intro h
  obtain ⟨_, _, -, h⟩ := bind_eq_ok h
  obtain ⟨_, _, -, h⟩ := bind_eq_ok h
  obtain ⟨_, _, -, h⟩ := bind_eq_ok h
  obtain ⟨_, _, hshape, -⟩ := bind_eq_ok h
  simpa using trapFirst_ok hshape

/-- A rotation's odd element count is a view's (R310): without one, the count is a row's, which is even. -/
theorem passes_rotation {s : State} {g : Fmt} {d x y : VOp} {m k : Bool} {o : Option Opd} {os : List Opd} {lat : Option Nat}
    (hg : g = .f32 ∨ g = .bf16)
    (h : Passes s o m os k lat (if elemCount s g [d, x, y] % 2 = 1 then ([d, x, y].find? isView).map codeWord else none)) :
    Passes s o m os k lat none (elemCount s g [d, x, y] % 2 == 1) := by
  by_cases hodd : elemCount s g [d, x, y] % 2 = 1
  · exfalso
    rw [if_pos hodd] at h
    cases hfind : [d, x, y].find? isView with
    | some v => exact not_passes_of_shape _ _ _ _ _ _ _ _ (by rwa [hfind] at h)
    | none =>
      have hany : [d, x, y].any isView = false := by
        simpa using hfind
      have hcount : elemCount s g [d, x, y] = g.perRow := by simp [elemCount, hany]
      rw [hcount] at hodd
      rcases hg with rfl | rfl <;> cases hodd
  · rw [if_neg hodd] at h
    rwa [beq_false_of_ne hodd]

/-! Compares (R311). -/

/-- A list packed bit by bit. -/
theorem testBit_packElems_one (l : List Bool) (e : Nat) : (packElems 1 (l.map fun b => if b then 1 else 0)).testBit e = l.getD e false := by
  induction l generalizing e with
  | nil => simp [packElems]
  | cons b l ih =>
    have hpack : packElems 1 ((b :: l).map fun b => if b then 1 else 0) = b.toNat + 2 * packElems 1 (l.map fun b => if b then 1 else 0) := by
      cases b <;> simp [packElems, Nat.mul_comm]
    rw [hpack]
    cases e with
    | zero => cases b <;> simp [Nat.testBit_zero]
    | succ e =>
      rw [List.getD_cons_succ, ← ih, Nat.testBit_succ]
      congr 1
      cases b <;> simp; omega

@[simp] theorem length_maskBits (s : State) (n : Nat) : (maskBits s n).length = n := by simp [maskBits]
@[simp] theorem length_velems (s : State) (o : VOp) (f : Fmt) (n k : Nat) : (velems s o f n k).length = n := by
  cases o <;> simp [velems, rowElems]

theorem getD_map_zip {n : Nat} {on : List Bool} {xs ys : List Nat} (op : Nat → Nat → Bool) (hon : on.length = n) (hx : xs.length = n)
    (hy : ys.length = n) (e : Nat) : ((on.zip (xs.zip ys)).map fun e => e.1 && op e.2.1 e.2.2).getD e false =
      (decide (e < n) && (on.getD e false && op (xs.getD e 0) (ys.getD e 0))) := by
  by_cases he : e < n
  · simp [List.getD_eq_getElem?_getD, he, hon, hx, hy]
  · simp [List.getD_eq_getElem?_getD, he, hon, hx, hy]

/-- What a compare writes to its mask. -/
def compareBits (s : State) (f : Fmt) (op : Nat → Nat → Bool) (x y : VOp) : BitVec 256 :=
  let n := elemCount s f [x, y]
  BitVec.ofNat 256 (packElems 1 (((maskBits s n).zip ((velems s x f n 0).zip (velems s y f n (if x = y then 1 else 0)))).map fun e =>
    if e.1 && op e.2.1 e.2.2 then 1 else 0))

theorem compareBits_getLsbD (s : State) (f : Fmt) (op : Nat → Nat → Bool) (x y : VOp) {e : Nat} (he : e < 256) :
    let n := elemCount s f [x, y]
    (compareBits s f op x y).getLsbD e = (decide (e < n) && ((maskBits s n).getD e false &&
      op ((velems s x f n 0).getD e 0) ((velems s y f n (if x = y then 1 else 0)).getD e 0))) := by
  intro n
  have hbits := testBit_packElems_one
    (((maskBits s n).zip ((velems s x f n 0).zip (velems s y f n (if x = y then 1 else 0)))).map fun e => e.1 && op e.2.1 e.2.2) e
  rw [List.map_map, getD_map_zip op (length_maskBits s n) (length_velems ..) (length_velems ..)] at hbits
  rw [← hbits, compareBits, BitVec.getLsbD_ofNat, decide_eq_true he, Bool.true_and]
  rfl

theorem vcmpM_run {s : State} {f : Fmt} {x y : VOp} (h : Passes s none false [opd x f, opd y f] true (some vlatShort) none)
    (op : Nat → Nat → Bool) (m : Fin 4) : vcmpM f op m x y { s with mark := .ok } =
      .ok () (inFlight (after (popAll [x, y]) { s with mark := .ok }) (.mask m (compareBits s f op x y)) (some vlatShort) true false false) := by
  unfold vcmpM
  rw [bind_ok (get_run _), bind_ok h, bind_ok (popAll_run _ _)]
  rfl

theorem vectorConvertRotateCompare : Claims.VectorConvertRotateCompare := by
  intro s f src d x y m n on dst from'
  refine ⟨fun hf hsrc h => ?_, fun hf h => ?_, fun h => ?_, fun g hg => ?_, ?_⟩
  · constructor
    · exact runSyl_ok ((congrFun (vcvtM_of_elements hf hsrc false d x) _).trans (checkPopWrite_run h _ _ _ _))
    · exact runSyl_ok ((congrFun (vcvtM_of_elements hf hsrc true d x) _).trans (checkPopWrite_run h _ _ _ _))
  · constructor
    · exact runSyl_ok ((congrFun (vcvtM_of_f4b hf false d x) _).trans (checkPopWrite_run h _ _ _ _))
    · exact runSyl_ok ((congrFun (vcvtM_of_f4b hf true d x) _).trans (checkPopWrite_run h _ _ _ _))
  · exact ⟨runSyl_ok (checkPopWriteRow_run h _ _ _ _), runSyl_ok (checkPopWriteRow_run h _ _ _ _)⟩
  · intro n on odd h
    have hp := passes_rotation hg h
    rcases hg with rfl | rfl
    · exact runSyl_ok (checkPopWrite_run hp _ _ _ _)
    · exact runSyl_ok (checkPopWrite_run hp _ _ _ _)
  · intro n on does
    have run : ∀ (i : Instr) (op : Nat → Nat → Bool), exec i s = runSyl 2 (vcmpM f op m x y) s → does i op :=
      fun i op hi h => ⟨compareBits s f op x y, hi.trans (runSyl_ok (vcmpM_run h op m)), fun e he => compareBits_getLsbD s f op x y he⟩
    exact ⟨run _ _ rfl, run _ _ rfl, run _ _ rfl⟩

/-- Settles O25: every form runs its checks, takes its elements, pops its sources and writes. -/
theorem vectorArithmetic : Obligations.VectorArithmetic :=
  ⟨vectorTwoSources, vectorMultiplyAdd, vectorOneSource, vectorConvertRotateCompare⟩

end Sys2Proof.Proofs
end

section
/-! The permute syllables that reduce, search and draw. -/
namespace Sys2Proof.Proofs
open Sys2Proof.Machine Sys2Proof.Safety Sys2Proof.Laws

/-! Reductions and the scan (R317 to R320). -/

/-- A form over the elements of X alone. -/
theorem reduceM_one_run {s : State} {f g : Fmt} {d x : VOp}
    (h : Passes s (some (opd d g)) false [opd x f] true (some (4 + 2 * ceilLog2 (elemCount s f [x]))) none)
    (op : List Bool → List Nat → List Nat → Nat) : reduceM f g d x none op { s with mark := .ok } =
      .ok () (vresult s [x] d g (some (4 + 2 * ceilLog2 (elemCount s f [x]))) (List.replicate (countOf s d g)
        (some (op (maskBits s (elemCount s f [x])) (velems s x f (elemCount s f [x]) 0) [])))) :=
  checkPopWrite_run h _ _ _ _

/-- A form over the elements of X and Y. -/
theorem reduceM_two_run {s : State} {f g : Fmt} {d x y : VOp}
    (h : Passes s (some (opd d g)) false [opd x f, opd y f] true (some (4 + 2 * ceilLog2 (elemCount s f [x, y]))) none)
    (op : List Bool → List Nat → List Nat → Nat) : reduceM f g d x (some y) op { s with mark := .ok } =
      .ok () (vresult s [x, y] d g (some (4 + 2 * ceilLog2 (elemCount s f [x, y]))) (List.replicate (countOf s d g)
        (some (op (maskBits s (elemCount s f [x, y])) (velems s x f (elemCount s f [x, y]) 0)
          (velems s y f (elemCount s f [x, y]) (if x = y then 1 else 0)))))) :=
  checkPopWrite_run h _ _ _ _

/-- The identity takes the place of the elements that are off. -/
theorem redFloat_eq (f : Fmt) (op : Nat → Nat → Nat) (e : Nat) (on : List Bool) (xs : List Nat) : redFloat f op e on xs =
    f32Canon (tree op e (((on.zip xs).map fun p => if p.1 then some (toF32 f p.2) else none).map (·.getD e))) := by
  unfold redFloat
  rw [List.map_map]
  congr 2
  refine List.map_congr_left fun p _ => ?_
  by_cases hp : p.1 = true <;> simp [hp]

/-- The elements that are on, folded. -/
theorem redInt_eq (f : Fmt) (op : Int → Int → Int) (e : Int) (on : List Bool) (xs : List Nat) : redInt f op e on xs =
    (((((on.zip xs).filter fun p : Bool × Nat => p.1).map fun p : Bool × Nat => f.intOf p.2).foldl op e) % 2 ^ 32).toNat := by
  unfold redInt
  rw [List.foldl_map, List.foldl_filter]
  rfl

theorem redFmt_of_isFloat {f : Fmt} (h : f.isFloat = true) : redFmt f = .f32 := by
  revert h
  cases f <;> decide
theorem isInt_of_isFloat {f : Fmt} (h : f.isFloat = true) : f.isInt = false := by
  revert h
  cases f <;> decide

section
variable {s : State} {f : Fmt} {d x : VOp}

/-- A floating reduction goes by the tree of R56. -/
theorem reduceM_float_run (hf : f.isFloat = true)
    (h : Passes s (some (opd d .f32)) false [opd x f] true (some (4 + 2 * ceilLog2 (elemCount s f [x]))) none)
    (iop : Int → Int → Int) (i : Int) (op : Nat → Nat → Nat) (e : Nat) :
    reduceM f (redFmt f) d x none (fun on xs _ => if f.isInt then redInt f iop i on xs else redFloat f op e on xs) { s with mark := .ok } =
      .ok () (vresult s [x] d .f32 (some (4 + 2 * ceilLog2 (elemCount s f [x]))) (List.replicate (countOf s d .f32)
        (some (f32Canon (tree op e ((((maskBits s (elemCount s f [x])).zip (velems s x f (elemCount s f [x]) 0)).map
          fun p => if p.1 then some (toF32 f p.2) else none).map (·.getD e))))))) := by
  rw [redFmt_of_isFloat hf, reduceM_one_run h, isInt_of_isFloat hf, if_neg Bool.false_ne_true, redFloat_eq]

/-- An integer reduction folds the elements that are on. -/
theorem reduceM_int_run (hf : f.isInt = true)
    (h : Passes s (some (opd d (redFmt f))) false [opd x f] true (some (4 + 2 * ceilLog2 (elemCount s f [x]))) none)
    (iop : Int → Int → Int) (i : Int) (op : Nat → Nat → Nat) (e : Nat) :
    reduceM f (redFmt f) d x none (fun on xs _ => if f.isInt then redInt f iop i on xs else redFloat f op e on xs) { s with mark := .ok } =
      .ok () (vresult s [x] d (redFmt f) (some (4 + 2 * ceilLog2 (elemCount s f [x]))) (List.replicate (countOf s d (redFmt f))
        (some ((((((maskBits s (elemCount s f [x])).zip (velems s x f (elemCount s f [x]) 0)).filter fun p : Bool × Nat => p.1).map
          fun p : Bool × Nat => f.intOf p.2).foldl iop i) % 2 ^ 32).toNat))) := by
  rw [reduceM_one_run h, hf, if_pos rfl, redInt_eq]

/-- The scan of the elements, of which those that are off count as zero. -/
theorem vscanM_run (h : Passes s (some (opd d f)) false [opd x f] true (some (ceilDiv (elemCount s f [d, x]) 16 + 4)) none) :
    let xs := ((maskBits s (elemCount s f [d, x])).zip (velems s x f (elemCount s f [d, x]) 0)).map
      fun e => if e.1 then e.2 else if f = .f32 then 0x80000000 else 0
    vscanM f d x { s with mark := .ok } = .ok () (vresult s [x] d f (some (ceilDiv (elemCount s f [d, x]) 16 + 4))
      ((if f = .f32 then scanF32 xs else scanFrom (fun a b => (a + b) % 2 ^ 32) 0 xs).map some)) := by
  intro xs
  unfold vscanM
  simp only [beq_iff_eq]
  exact checkPopWrite_run h _ _ _ _
end

theorem vectorReductions : Claims.VectorReductions := by
  intro s f d x y n on xs to32 all
  refine ⟨fun hf h => ?_, fun hf h => ?_, fun h => runSyl_ok (reduceM_one_run h _), fun h => runSyl_ok (reduceM_two_run h _),
    fun _ h => runSyl_ok (vscanM_run h)⟩
  · exact ⟨runSyl_ok (reduceM_float_run hf h _ _ _ _), runSyl_ok (reduceM_float_run hf h _ _ _ _),
      runSyl_ok (reduceM_float_run hf h _ _ _ _)⟩
  · exact ⟨runSyl_ok (reduceM_int_run hf h _ _ _ _), runSyl_ok (reduceM_int_run hf h _ _ _ _),
      runSyl_ok (reduceM_int_run hf h _ _ _ _)⟩

/-! Draws (R322, R323). -/

theorem randElem_eq (f : Fmt) (v : BitVec 32) : randElem f v = if f = .f32 then uniform v else v.toNat := by
  simp only [randElem, beq_iff_eq]

theorem vrandLatchM_run {s : State} {f : Fmt} {d : VOp}
    (h : vcheck (some (opd d f)) ((maskBits s (elemCount s f [d])).any (!·)) [] true none none false s = .ok () s) :
    vrandLatchM f d s = .ok () (after (vwrite d f none (merged (maskBits s (elemCount s f [d]))
      ((List.range (elemCount s f [d])).map fun i => randElem f (draw32 s.me.alo (s.me.ahi + BitVec.ofNat 64 i))))) s) := by
  unfold vrandLatchM
  rw [bind_ok (get_run _), bind_ok h, vwrite_run]

/-- A unit outside iterations draws at the request's counter, which goes on (R179). -/
theorem takeCtr_outside {s : State} {c r : Nat} (hspec : (s.ctx c).spec = false) (hrun : s.reqRun r = 0) :
    s.takeCtr c r = some (BitVec.ofNat 64 (s.reqCtr r), s.setReqCtr r (s.reqCtr r + 1)) := by
  unfold State.takeCtr
  simp [hspec, hrun]

section
variable {s : State} {f : Fmt} {d : VOp} (h : vcheck (some (opd d f)) false [] false none none false s = .ok () s)
  (hr : s.me.ahi.toNat < 4096)
include h hr

theorem vrandRequestM_active (hin : s.reqIn s.myPart s.me.ahi.toNat = true) (hst : s.reqState s.me.ahi.toNat = 1)
    (hrun : s.reqRun s.me.ahi.toNat = 0) (hspec : s.me.spec = false) :
    vrandRequestM f d s = .ok () (after (vwrite d f none (List.replicate (elemCount s f [d])
      (some (randElem f (draw32 (BitVec.ofNat 64 (s.reqKey s.me.ahi.toNat)) (BitVec.ofNat 64 (s.reqCtr s.me.ahi.toNat)))))))
        (s.setReqCtr s.me.ahi.toNat (s.reqCtr s.me.ahi.toNat + 1))) := by
  unfold vrandRequestM
  rw [bind_ok (get_run _), bind_ok h]
  simp only [Nat.mod_eq_of_lt hr]
  rw [bind_ok (need_true (by simp [hin, hst]) _ _ _), takeCtr_outside hspec hrun]
  exact (bind_ok (set_run _ _)).trans (vwrite_run _ _ _ _ _)

theorem vrandRequestM_inactive (hbad : s.reqIn s.myPart s.me.ahi.toNat = false ∨ s.reqState s.me.ahi.toNat ≠ 1) :
    vrandRequestM f d s = .error (.trap 0x0A (BitVec.ofNat 64 s.me.ahi.toNat)) s := by
  unfold vrandRequestM
  rw [bind_ok (get_run _), bind_ok h]
  simp only [Nat.mod_eq_of_lt hr]
  exact bind_error (need_false (by rcases hbad with hbad | hbad <;> simp [hbad]) _ _ _)
end

theorem vectorRandom : Claims.VectorRandom := by
  intro s f d here n on r elem
  have helem : elem = randElem f := funext fun v => (randElem_eq f v).symm
  rw [helem]
  exact ⟨fun h => runSyl_ok (vrandLatchM_run (s := here) h),
    fun h => ⟨fun hr hin hst hrun hspec => runSyl_ok (vrandRequestM_active (s := here) h hr hin hst hrun hspec),
      fun hr hbad => runSyl_trap (vrandRequestM_inactive (s := here) h hr hbad)⟩⟩

/-! Searches (R318, R319). -/

theorem value_of_isInt {f : Fmt} (hf : f.isInt = true) (c : Nat) : f.value c = .ofInt (f.intOf c) 0 := by
  rw [Fmt.value, if_pos hf]

theorem scaled_ofInt (a : Int) : FVal.scaled (decide (a < 0)) a.natAbs 0 0 = a := by
  simp only [FVal.scaled, sub_self, Int.toNat_zero, pow_zero, mul_one, decide_eq_true_eq]
  split <;> omega

theorem lt_ofInt (a b : Int) : (FVal.ofInt a 0).lt (.ofInt b 0) = decide (a < b) := by
  simp only [FVal.ofInt, FVal.lt, min_self, scaled_ofInt]

/-- The order of the maxima is the order of the integers. -/
theorem below_ofInt (a b : Int) : (FVal.ofInt a 0).below (.ofInt b 0) = decide (a < b) := by
  have heq : (FVal.ofInt a 0).eq (.ofInt b 0) = (!decide (a < b) && !decide (b < a)) := by
    rw [← lt_ofInt, ← lt_ofInt]
    rfl
  rw [FVal.below, lt_ofInt, heq]
  by_cases hab : a = b
  · subst hab
    simp [FVal.ofInt, FVal.isNeg]
  · rcases lt_or_gt_of_ne hab with h | h <;> simp [h, not_lt_of_gt h]

/-- The step of VARGMAX from the best element so far. -/
def betterOf (f : Fmt) (m : Option (Nat × Nat)) (e : (Bool × Nat) × Nat) : Option (Nat × Nat) :=
  match m with
  | none => some (e.1.2, e.2)
  | some b => if FVal.below (f.value b.1) (f.value e.1.2) then some (e.1.2, e.2) else some b

/-- The best of no element is none; of others it is one of them that none exceeds, and the first of these. -/
def BestOf (f : Fmt) (l : List ((Bool × Nat) × Nat)) : Option (Nat × Nat) → Prop
  | none => l = []
  | some b => (∃ on, ((on, b.1), b.2) ∈ l) ∧
      ∀ e ∈ l, f.intOf e.1.2 ≤ f.intOf b.1 ∧ (e.2 < b.2 → f.intOf e.1.2 < f.intOf b.1)

theorem foldl_betterOf {f : Fmt} (hf : f.isInt = true) (l : List ((Bool × Nat) × Nat)) (hl : l.Pairwise fun a b => a.2 < b.2) :
    BestOf f l (l.foldl (betterOf f) none) := by
  induction l using List.reverseRecOn with
  | nil => rfl
  | append_singleton l e ih =>
    obtain ⟨hl, -, hlast⟩ := List.pairwise_append.1 hl
    have hlast : ∀ a ∈ l, a.2 < e.2 := fun a ha => hlast a ha e (List.mem_singleton_self e)
    have ih := ih hl
    rw [List.foldl_append, List.foldl_cons, List.foldl_nil]
    cases hb : l.foldl (betterOf f) none with
    | none =>
      rw [hb] at ih
      obtain rfl : l = [] := ih
      exact ⟨⟨e.1.1, by simp⟩, by simp⟩
    | some b =>
      rw [hb] at ih
      obtain ⟨⟨on, hmem⟩, hbest⟩ := ih
      by_cases hlt : f.intOf b.1 < f.intOf e.1.2
      · have hstep : betterOf f (some b) e = some (e.1.2, e.2) := by
          simp [betterOf, value_of_isInt hf, below_ofInt, hlt]
        rw [hstep]
        refine ⟨⟨e.1.1, by simp⟩, fun a ha => ?_⟩
        rcases List.mem_append.1 ha with ha | ha
        · exact ⟨((hbest a ha).1.trans_lt hlt).le, fun _ => (hbest a ha).1.trans_lt hlt⟩
        · rw [List.mem_singleton.1 ha]
          exact ⟨le_rfl, fun h => absurd h (lt_irrefl _)⟩
      · have hstep : betterOf f (some b) e = some b := by
          simp [betterOf, value_of_isInt hf, below_ofInt, hlt]
        rw [hstep]
        refine ⟨⟨on, List.mem_append_left _ hmem⟩, fun a ha => ?_⟩
        rcases List.mem_append.1 ha with ha | ha
        · exact hbest a ha
        · rw [List.mem_singleton.1 ha]
          exact ⟨not_lt.1 hlt, fun h => absurd h (not_lt.2 (hlast _ hmem).le)⟩

/-- The elements that are on, each with its index. -/
def liveElems (on : List Bool) (xs : List Nat) : List ((Bool × Nat) × Nat) := (on.zip xs).zipIdx.filter fun e => e.1.1

theorem pairwise_liveElems (on : List Bool) (xs : List Nat) : (liveElems on xs).Pairwise fun a b => a.2 < b.2 := by
  refine List.Pairwise.filter _ ?_
  rw [← List.pairwise_map (f := Prod.snd), List.zipIdx_map_snd]
  exact List.pairwise_lt_range'

theorem argmaxOf_eq {f : Fmt} (hf : f.isInt = true) (on : List Bool) (xs : List Nat) :
    argmaxOf f on xs = (((liveElems on xs).foldl (betterOf f) none).map (·.2)).getD 0xFFFFFFFF := by
  have hlive : (on.zip xs).zipIdx.filter (fun e => e.1.1 && !(f.value e.1.2).isNaN) = liveElems on xs := by
    refine List.filter_congr fun e _ => ?_
    simp [value_of_isInt hf, FVal.ofInt, FVal.isNaN]
  unfold argmaxOf
  rw [hlive]
  change (match (liveElems on xs).foldl (betterOf f) none with | some b => b.2 | none => 0xFFFFFFFF) = _
  cases (liveElems on xs).foldl (betterOf f) none <;> rfl

section
variable {on : List Bool} {xs : List Nat} (hon : on.length = xs.length)
include hon

theorem mem_liveElems {b : Bool} {v i : Nat} :
    ((b, v), i) ∈ liveElems on xs ↔ b = true ∧ v = xs.getD i 0 ∧ i < xs.length ∧ on.getD i false = true := by
  unfold liveElems
  rw [List.mem_filter, List.mem_zipIdx_iff_getElem?]
  by_cases hi : i < xs.length
  · have hget : (on.zip xs)[i]? = some (on.getD i false, xs.getD i 0) := by
      simp [List.getD_eq_getElem?_getD, hi, hon]
    rw [hget]
    constructor
    · rintro ⟨h, rfl⟩
      obtain ⟨hb, hv⟩ := Prod.mk.inj (Option.some.inj h)
      exact ⟨rfl, hv.symm, hi, hb⟩
    · rintro ⟨rfl, rfl, -, hlive⟩
      exact ⟨by rw [hlive], rfl⟩
  · simp [hi]

/-- Whether VFIND finds element `i`. -/
theorem zip_found {f : Fmt} {ys : List Nat} (hxy : xs.length = ys.length) {i : Nat} (hi : i < (on.zip (xs.zip ys)).length) :
    let e := (on.zip (xs.zip ys))[i]
    (e.1 && f.intOf e.2.1 == f.intOf e.2.2) = true ↔
      (i < xs.length ∧ on.getD i false = true) ∧ f.intOf (xs.getD i 0) = f.intOf (ys.getD i 0) := by
  have hlt : i < xs.length := by simp at hi; omega
  simp [List.getD_eq_getElem?_getD, hlt, hon, ← hxy]

/-- VARGMAX over elements of which some are on. -/
theorem argmaxOf_best {f : Fmt} (hf : f.isInt = true) {i : Nat} (hi : i < xs.length) (hlive : on.getD i false = true) :
    ∃ v, BestOf f (liveElems on xs) (some (v, argmaxOf f on xs)) := by
  have hbest := foldl_betterOf hf _ (pairwise_liveElems on xs)
  rw [argmaxOf_eq hf]
  cases hb : (liveElems on xs).foldl (betterOf f) none with
  | none =>
    rw [hb] at hbest
    have hmem : ((true, xs.getD i 0), i) ∈ liveElems on xs := (mem_liveElems hon).2 ⟨rfl, rfl, hi, hlive⟩
    rw [show liveElems on xs = [] from hbest] at hmem
    cases hmem
  | some b =>
    rw [hb] at hbest
    exact ⟨b.1, hbest⟩
end

theorem findOf_eq {f : Fmt} (hf : f.isInt = true) (on : List Bool) (xs ys : List Nat) : findOf f on xs ys =
    ((on.zip (xs.zip ys)).findIdx? fun e => e.1 && f.intOf e.2.1 == f.intOf e.2.2).getD 0xFFFFFFFF := by
  simp [findOf, eqE, hf]

theorem vectorSearch : Claims.VectorSearch := by
  intro f on xs ys hf hon hxy val live
  have hlength : (on.zip (xs.zip ys)).length = xs.length := by simp [hon, ← hxy]
  refine ⟨fun hnone => ?_, fun ⟨i, hi, hoi⟩ => ?_, fun hnone => ?_, fun ⟨i, ⟨hi, hoi⟩, heq⟩ => ?_⟩
  · have hnil : liveElems on xs = [] := List.eq_nil_iff_forall_not_mem.2 fun ⟨⟨b, v⟩, i⟩ hmem => by
      obtain ⟨-, -, hi⟩ := (mem_liveElems hon).1 hmem
      exact hnone i hi
    rw [argmaxOf_eq hf, hnil]
    rfl
  · obtain ⟨v, ⟨b, hmem⟩, hbest⟩ := argmaxOf_best hon hf hi hoi
    obtain ⟨-, hv, hlive⟩ := (mem_liveElems hon).1 hmem
    have hlive' : ∀ j, live j → ((true, xs.getD j 0), j) ∈ liveElems on xs := fun j hj => (mem_liveElems hon).2 ⟨rfl, rfl, hj⟩
    have hval : f.intOf v = val xs (argmaxOf f on xs) := congrArg f.intOf hv
    rw [← hval]
    exact ⟨hlive, fun j hj => (hbest _ (hlive' j hj)).1, fun j hj => (hbest _ (hlive' j hj)).2⟩
  · rw [findOf_eq hf, List.findIdx?_eq_none_iff.2]
    · rfl
    intro e he
    obtain ⟨j, hj, rfl⟩ := List.getElem_of_mem he
    exact Bool.eq_false_iff.2 fun h => hnone j ((zip_found hon hxy hj).1 h).1 ((zip_found hon hxy hj).1 h).2
  · have hil : i < (on.zip (xs.zip ys)).length := by rwa [hlength]
    cases hfind : (on.zip (xs.zip ys)).findIdx? fun e => e.1 && f.intOf e.2.1 == f.intOf e.2.2 with
    | none =>
      have hno := List.findIdx?_eq_none_iff.1 hfind _ (List.getElem_mem hil)
      exact absurd ((zip_found hon hxy hil).2 ⟨⟨hi, hoi⟩, heq⟩) (Bool.eq_false_iff.1 hno)
    | some k =>
      obtain ⟨hk, hfound, hmin⟩ := List.findIdx?_eq_some_iff_getElem.1 hfind
      obtain ⟨hlive, hval⟩ := (zip_found hon hxy hk).1 hfound
      rw [findOf_eq hf, hfind, Option.getD_some]
      exact ⟨hlive, hval, fun j hj hjk heq => hmin j hjk ((zip_found hon hxy (hjk.trans hk)).2 ⟨hj, heq⟩)⟩

/-- Settles O29: the forms run their checks and write; VARGMAX by the best element that its fold keeps. -/
theorem vectorReductionsAndSearches : Obligations.VectorReductionsAndSearches :=
  ⟨vectorReductions, vectorSearch, vectorRandom⟩
end Sys2Proof.Proofs
end

section
/-! The elements of the integer formats as integers, and what operands supply. -/
namespace Sys2Proof.Proofs
open Sys2Proof.Machine Sys2Proof.Safety Sys2Proof.Laws

/-! The integer of an element (R51). -/

/-- The integer of an element, as a bit vector gives it. -/
def elemInt (f : Fmt) (c : Nat) : Int := if f.isSigned then (BitVec.ofNat f.bits c).toInt else (c : Int)
/-- The least and the greatest integer of a format. -/
def intLeast (f : Fmt) : Int := if f.isSigned then -2 ^ (f.bits - 1) else 0
def intMost (f : Fmt) : Int := if f.isSigned then 2 ^ (f.bits - 1) - 1 else 2 ^ f.bits - 1

theorem bits_pos (f : Fmt) : 0 < f.bits := by cases f <;> decide
theorem two_pow_bits (f : Fmt) : (2 : Int) ^ f.bits = 2 * 2 ^ (f.bits - 1) := (mul_pow_sub_one (bits_pos f).ne' 2).symm

theorem intOf_eq_elemInt {f : Fmt} {c : Nat} (hc : c < 2 ^ f.bits) : f.intOf c = elemInt f c := by
  have htop : f.bits - 1 < f.bits := Nat.sub_lt (bits_pos f) Nat.one_pos
  unfold Fmt.intOf elemInt
  cases f.isSigned with
  | false => rfl
  | true =>
    rw [Bool.true_and, if_pos rfl, BitVec.toInt_eq_msb_cond, BitVec.msb_eq_getLsbD_last, BitVec.getLsbD_ofNat, decide_eq_true htop,
      Bool.true_and, BitVec.toNat_ofNat, Nat.mod_eq_of_lt hc]

theorem elemInt_bounds {f : Fmt} {c : Nat} (hc : c < 2 ^ f.bits) : intLeast f ≤ elemInt f c ∧ elemInt f c ≤ intMost f := by
  unfold intLeast intMost elemInt
  cases f.isSigned with
  | false =>
    have : (c : Int) < 2 ^ f.bits := by exact_mod_cast hc
    simp
    omega
  | true =>
    have hlo := BitVec.le_toInt (BitVec.ofNat f.bits c)
    have hhi := BitVec.toInt_lt (x := BitVec.ofNat f.bits c)
    simp only [if_true]
    omega

/-- The element that an integer of the format's range gives. -/
theorem elemInt_emod {f : Fmt} {v : Int} (hlo : intLeast f ≤ v) (hhi : v ≤ intMost f) :
    elemInt f (v % (2 ^ f.bits : Nat)).toNat = v := by
  have htwo := two_pow_bits f
  unfold intLeast at hlo
  unfold intMost at hhi
  unfold elemInt
  cases hs : f.isSigned with
  | false =>
    rw [hs, if_neg Bool.false_ne_true] at hlo hhi
    have hlt : v < (2 ^ f.bits : Nat) := by push_cast; omega
    rw [if_neg Bool.false_ne_true, Int.emod_eq_of_lt hlo hlt, Int.toNat_of_nonneg hlo]
  | true =>
    rw [hs, if_pos rfl] at hlo hhi
    rw [if_pos rfl, ← BitVec.toNat_ofInt, BitVec.ofNat_toNat, BitVec.setWidth_eq, BitVec.toInt_ofInt]
    exact Int.bmod_eq_of_le (by push_cast; omega) (by push_cast; omega)

theorem emod_toNat_lt (f : Fmt) (v : Int) : (v % (2 ^ f.bits : Nat)).toNat < 2 ^ f.bits := by
  rw [← BitVec.toNat_ofInt]
  exact BitVec.isLt _

/-! An integer saturated to a format (R53, R303). -/

theorem clampInt_eq {lo hi : Int} (h : lo ≤ hi) (v : Int) : clampInt lo hi v = max lo (min hi v) := by
  unfold clampInt
  split
  · omega
  · split <;> omega

theorem satInt_eq (f : Fmt) (v : Int) : f.satInt v = (max (intLeast f) (min (intMost f) v) % (2 ^ f.bits : Nat)).toNat := by
  have hpos : (0 : Int) < 2 ^ (f.bits - 1) := by positivity
  have htwo := two_pow_bits f
  unfold Fmt.satInt intLeast intMost
  cases f.isSigned with
  | false =>
    simp only [Bool.false_eq_true, if_false]
    rw [clampInt_eq (by push_cast; omega), Int.emod_eq_of_lt (by omega) (by push_cast; omega)]
    push_cast
    rfl
  | true =>
    simp only [if_true]
    rw [clampInt_eq (by push_cast; omega)]
    push_cast
    rfl

theorem satInt_lt (f : Fmt) (v : Int) : f.satInt v < 2 ^ f.bits := by
  rw [satInt_eq]
  exact emod_toNat_lt f _

theorem elemInt_satInt (f : Fmt) (v : Int) : elemInt f (f.satInt v) = max (intLeast f) (min (intMost f) v) := by
  have hrange : intLeast f ≤ intMost f := by
    have hpos : (0 : Int) < 2 ^ (f.bits - 1) := by positivity
    have htwo := two_pow_bits f
    unfold intLeast intMost
    split <;> omega
  rw [satInt_eq]
  exact elemInt_emod (by omega) (by omega)

/-! Sums, differences and products modulo 2^b (R51, R302). -/

theorem intOf_modEq (f : Fmt) (c : Nat) : f.intOf c ≡ c [ZMOD (2 ^ f.bits : Nat)] := by
  unfold Fmt.intOf
  split
  · exact (Int.modEq_iff_dvd).2 ⟨1, by ring⟩
  · rfl

theorem emod_toNat_of_modEq {m n : Nat} {v : Int} (h : v ≡ n [ZMOD m]) : (v % m).toNat = n % m := by
  rw [h, ← Int.natCast_mod, Int.toNat_natCast]

/-- An element is the code of its integer. -/
theorem emod_intOf {f : Fmt} {c : Nat} (hc : c < 2 ^ f.bits) : (f.intOf c % (2 ^ f.bits : Nat)).toNat = c := by
  rw [emod_toNat_of_modEq (intOf_modEq f c), Nat.mod_eq_of_lt hc]

section
variable {f : Fmt} (hf : f.isInt = true)
include hf

theorem addE_int (x y : Nat) : addE f x y = (x + y) % 2 ^ f.bits := by
  rw [addE, arith2, if_pos hf]
  exact emod_toNat_of_modEq (by push_cast; exact (intOf_modEq f x).add (intOf_modEq f y))

theorem subE_int (x : Nat) {y : Nat} (hy : y < 2 ^ f.bits) : subE f x y = (x + 2 ^ f.bits - y) % 2 ^ f.bits := by
  rw [subE, arith2, if_pos hf]
  refine emod_toNat_of_modEq (((intOf_modEq f x).sub (intOf_modEq f y)).trans ?_)
  rw [Nat.cast_sub (by omega)]
  exact Int.modEq_iff_dvd.2 ⟨1, by push_cast; ring⟩

theorem mulE_int (x y : Nat) : mulE f x y = x * y % 2 ^ f.bits := by
  rw [mulE, arith2, if_pos hf]
  exact emod_toNat_of_modEq (by push_cast; exact (intOf_modEq f x).mul (intOf_modEq f y))

theorem fmaE_int (d x y : Nat) : fmaE f false d x y = (d + x * y) % 2 ^ f.bits := by
  rw [fmaE, if_pos hf]
  exact emod_toNat_of_modEq (by push_cast; exact (intOf_modEq f d).add ((intOf_modEq f x).mul (intOf_modEq f y)))

variable {x y : Nat} (hx : x < 2 ^ f.bits) (hy : y < 2 ^ f.bits)
include hx hy

theorem maxE_int : maxE f x y = if elemInt f x ≤ elemInt f y then y else x := by
  rw [maxE, arith2, if_pos hf, ← intOf_eq_elemInt hx, ← intOf_eq_elemInt hy]
  split
  · rw [max_eq_right ‹_›, emod_intOf hy]
  · rw [max_eq_left (by omega), emod_intOf hx]

theorem minE_int : minE f x y = if elemInt f x ≤ elemInt f y then x else y := by
  rw [minE, arith2, if_pos hf, ← intOf_eq_elemInt hx, ← intOf_eq_elemInt hy]
  split
  · rw [min_eq_left ‹_›, emod_intOf hx]
  · rw [min_eq_right (by omega), emod_intOf hy]

theorem eqE_int : eqE f x y = decide (x = y) := by
  have hinj : f.intOf x = f.intOf y ↔ x = y :=
    ⟨fun h => by rw [← emod_intOf hx, h, emod_intOf hy], congrArg f.intOf⟩
  rw [eqE, if_pos hf, ← decide_eq_decide.2 hinj]
  rfl
theorem ltE_int : ltE f x y = decide (elemInt f x < elemInt f y) := by
  rw [ltE, if_pos hf, intOf_eq_elemInt hx, intOf_eq_elemInt hy]
theorem leE_int : leE f x y = decide (elemInt f x ≤ elemInt f y) := by
  rw [leE, if_pos hf, intOf_eq_elemInt hx, intOf_eq_elemInt hy]
end

/-! Shifts (R303). -/

theorem shrE_unsigned {f : Fmt} (hs : f.isSigned = false) {x : Nat} (hx : x < 2 ^ f.bits) (y : Nat) : shrE f x y = x / 2 ^ y := by
  rw [shrE, hs, if_neg Bool.false_ne_true]
  split
  · rfl
  · exact (Nat.div_eq_of_lt (hx.trans_le (Nat.pow_le_pow_right Nat.two_pos (by omega)))).symm

/-- A shift beyond the width of the format gives the sign. -/
theorem ediv_two_pow_min {b : Nat} {v : Int} (hlo : -2 ^ b ≤ v) (hhi : v < 2 ^ b) (y : Nat) : v / 2 ^ min y b = v / 2 ^ y := by
  rcases le_total y b with h | h
  · rw [min_eq_left h]
  · have hpow : (2 : Int) ^ b ≤ 2 ^ y := pow_le_pow_right₀ (by norm_num) h
    rw [min_eq_right h]
    rcases lt_or_ge v 0 with hv | hv
    · rw [Int.ediv_eq_neg_one_of_neg_of_le hv (by omega), Int.ediv_eq_neg_one_of_neg_of_le hv (by omega)]
    · rw [Int.ediv_eq_zero_of_lt hv hhi, Int.ediv_eq_zero_of_lt hv (by omega)]

/-- A quotient stays within bounds on either side of zero. -/
theorem ediv_bounds {lo hi v d : Int} (h0 : lo ≤ 0) (h1 : 0 ≤ hi) (hlo : lo ≤ v) (hhi : v ≤ hi) (hd : 0 < d) :
    lo ≤ v / d ∧ v / d ≤ hi := by
  constructor
  · exact (Int.le_ediv_iff_mul_le hd).2 (by nlinarith)
  · exact Int.ediv_le_of_le_mul hd (by nlinarith)

theorem shrE_signed {f : Fmt} (hs : f.isSigned = true) {x : Nat} (hx : x < 2 ^ f.bits) (y : Nat) :
    elemInt f (shrE f x y) = elemInt f x / 2 ^ y := by
  have hpos : (0 : Int) < 2 ^ (f.bits - 1) := by positivity
  have htwo := two_pow_bits f
  have hleast : intLeast f = -2 ^ (f.bits - 1) := by rw [intLeast, hs, if_pos rfl]
  have hmost : intMost f = 2 ^ (f.bits - 1) - 1 := by rw [intMost, hs, if_pos rfl]
  obtain ⟨hlo, hhi⟩ := elemInt_bounds hx
  obtain ⟨hqlo, hqhi⟩ := ediv_bounds (d := 2 ^ y) (by omega) (by omega) hlo hhi (by positivity)
  rw [shrE, hs, if_pos rfl, intOf_eq_elemInt hx, Nat.cast_pow, Nat.cast_ofNat, ediv_two_pow_min (by omega) (by omega)]
  exact elemInt_emod hqlo hqhi

theorem integerElements : Claims.IntegerElements := by
  intro f x y hf hx hy val least most
  refine ⟨addE_int hf x y, subE_int hf x hy, mulE_int hf x y, fun d _ => fmaE_int hf d x y, maxE_int hf hx hy, minE_int hf hx hy,
    ⟨satInt_lt _ _, ?_⟩, rfl, fun hs => shrE_unsigned hs hx y, fun hs => shrE_signed hs hx y, eqE_int hf hx hy, ltE_int hf hx hy,
    leE_int hf hx hy⟩
  rw [addsE, intOf_eq_elemInt hx, intOf_eq_elemInt hy]
  exact elemInt_satInt f _

/-! What operands supply (R76, R81, R155, R291, R292). -/

theorem rowElem_eq (b : Nat) (r : Row) (i : Nat) : rowElem b r i = r.toNat / 2 ^ (b * i) % 2 ^ b := by
  rw [rowElem, Nat.shiftRight_eq_div_pow]

theorem operandElements : Claims.OperandElements := by
  intro s f n i hi
  have hrange : (List.range n)[i]? = some i := List.getElem?_range hi
  have hrep : ∀ v : Nat, (List.replicate n v)[i]? = some v := fun v => by simp [hi]
  refine ⟨fun r => ?_, fun c => ?_, fun c => ?_, fun q e rest hq => ?_, hrep _, hrep _, hrep _, hrep _, ?_⟩
  · simp [velems, rowElems, hrange, vdata, rowElem_eq]
  · simp [velems, hrange, containerOf, rowElem_eq]
  · simp [velems, hrange, containerOf, rowElem_eq]
  · simp [velems, rowElems, hrange, vdata, rowElem_eq, hq]
  · simp [maskBits, hrange]

/-- Settles O26: every operation modulo 2^b through what its operands are congruent to, every operand by its own equation. -/
theorem vectorElements : Obligations.VectorElements := ⟨integerElements, operandElements⟩
end Sys2Proof.Proofs
end

section
/-! The numbers of floating-point codes, and rounding to the nearest. -/
namespace Sys2Proof.Proofs
open Sys2Proof.Machine Sys2Proof.Safety Sys2Proof.Laws

/-! The nearest integer, on a tie the even one. -/

/-- An integer that no other is nearer to a number than, and that is even where another is as near. -/
def NearestInt (x : ℚ) (n : ℤ) : Prop :=
  ∀ k : ℤ, |(n : ℚ) - x| ≤ |(k : ℚ) - x| ∧ (k ≠ n → |(n : ℚ) - x| = |(k : ℚ) - x| → n % 2 = 0)

theorem nearestInt_of_half {x : ℚ} {n : ℤ} (h : |(n : ℚ) - x| ≤ 1 / 2) (heven : |(n : ℚ) - x| = 1 / 2 → n % 2 = 0) : NearestInt x n := by
  have hfar : ∀ k : ℤ, k ≠ n → 1 - |(n : ℚ) - x| ≤ |(k : ℚ) - x| := by
    intro k hk
    have hone : (1 : ℚ) ≤ |(k : ℚ) - n| := by exact_mod_cast Int.one_le_abs (sub_ne_zero.2 hk)
    have htri := abs_sub_le (k : ℚ) x n
    rw [abs_sub_comm x (n : ℚ)] at htri
    linarith
  intro k
  by_cases hk : k = n
  · exact ⟨by rw [hk], fun hne => absurd hk hne⟩
  · have := hfar k hk
    exact ⟨by linarith, fun _ heq => heven (by linarith)⟩

theorem NearestInt.neg {x : ℚ} {n : ℤ} (h : NearestInt x n) : NearestInt (-x) (-n) := by
  intro k
  have hflip : ∀ j : ℤ, |((-j : ℤ) : ℚ) - -x| = |(j : ℚ) - x| := fun j => by
    rw [Int.cast_neg, ← abs_neg]
    congr 1
    ring
  obtain ⟨hle, heven⟩ := h (-k)
  have hk := hflip (-k)
  rw [neg_neg] at hk
  rw [hflip, hk]
  exact ⟨hle, fun hne heq => by have := heven (by omega) heq; omega⟩

theorem nearestInt_self (n : ℤ) : NearestInt n n := nearestInt_of_half (by norm_num) (by norm_num)

/-- A number not above an integer has no nearest integer above that one. -/
theorem NearestInt.le {x : ℚ} {n j : ℤ} (h : NearestInt x n) (hx : x ≤ j) : n ≤ j := by
  by_contra hlt
  have hle := (h j).1
  have hcast : (j : ℚ) < n := by exact_mod_cast not_le.1 hlt
  rw [abs_of_pos (by linarith), abs_of_nonneg (by linarith)] at hle
  linarith
theorem NearestInt.ge {x : ℚ} {n j : ℤ} (h : NearestInt x n) (hx : (j : ℚ) ≤ x) : j ≤ n := by
  have := h.neg.le (j := -j) (by push_cast; linarith)
  omega

/-- Rounding a quotient by a power of two. -/
theorem roundShift_nearest (m k : ℕ) : NearestInt (m / 2 ^ k) (roundShift m k) := by
  have hpow : (0 : ℚ) < 2 ^ k := by positivity
  have hdiv : (m : ℚ) = 2 ^ k * (m / 2 ^ k : ℕ) + (m % 2 ^ k : ℕ) := by exact_mod_cast (Nat.div_add_mod m (2 ^ k)).symm
  have hx : (m : ℚ) / 2 ^ k = (m / 2 ^ k : ℕ) + (m % 2 ^ k : ℕ) / 2 ^ k := by
    rw [hdiv]
    field_simp
  rw [hx]
  unfold roundShift
  dsimp only
  generalize m / 2 ^ k = q
  have hr : ((m % 2 ^ k : ℕ) : ℚ) < 2 ^ k := by exact_mod_cast Nat.mod_lt _ (by positivity)
  generalize m % 2 ^ k = r at hr
  have hnonneg : (0 : ℚ) ≤ r / 2 ^ k := by positivity
  have hone : (r : ℚ) / 2 ^ k < 1 := (div_lt_one hpow).2 hr
  split
  · next hup =>
    simp only [Bool.or_eq_true, Bool.and_eq_true, decide_eq_true_eq, beq_iff_eq] at hup
    have hhalf : (1 : ℚ) / 2 ≤ r / 2 ^ k := by
      rw [div_le_div_iff₀ two_pos hpow]
      have : 2 ^ k ≤ 2 * r := by omega
      have : (2 : ℚ) ^ k ≤ 2 * r := by exact_mod_cast this
      linarith
    have habs : |((q + 1 : ℕ) : ℤ) - ((q : ℚ) + r / 2 ^ k)| = 1 - r / 2 ^ k := by
      rw [abs_of_pos] <;> push_cast <;> linarith
    refine nearestInt_of_half (by rw [habs]; linarith) fun heq => ?_
    rw [habs] at heq
    have htie : (r : ℚ) * 2 = 2 ^ k := by
      field_simp at heq
      linarith
    have htie : r * 2 = 2 ^ k := by exact_mod_cast htie
    omega
  · next hdown =>
    simp only [Bool.or_eq_true, Bool.and_eq_true, decide_eq_true_eq, beq_iff_eq] at hdown
    have hhalf : (r : ℚ) / 2 ^ k ≤ 1 / 2 := by
      rw [div_le_div_iff₀ hpow two_pos]
      have : 2 * r ≤ 2 ^ k := by omega
      have : 2 * (r : ℚ) ≤ 2 ^ k := by exact_mod_cast this
      linarith
    have habs : |((q : ℕ) : ℤ) - ((q : ℚ) + r / 2 ^ k)| = r / 2 ^ k := by
      rw [abs_of_nonpos] <;> push_cast <;> linarith
    refine nearestInt_of_half (by rw [habs]; linarith) fun heq => ?_
    rw [habs] at heq
    have htie : (r : ℚ) * 2 = 2 ^ k := by
      field_simp at heq
      linarith
    have htie : r * 2 = 2 ^ k := by exact_mod_cast htie
    omega

/-- The significand that rounding gives is the nearest integer to the number in units of its exponent. -/
theorem roundBits_nearest (p : ℕ) (emin : ℤ) (m : ℕ) (e : ℤ) :
    NearestInt (m * 2 ^ e / 2 ^ (roundBits p emin m e).2) (roundBits p emin m e).1 := by
  unfold roundBits
  dsimp only
  generalize max ((Nat.log2 m : ℤ) + e - (p - 1 : ℕ)) emin = q
  rw [mul_div_assoc, ← zpow_sub₀ two_ne_zero]
  split
  · next h =>
    have hexp : e - q = -((q - e).toNat : ℤ) := by omega
    rw [hexp, zpow_neg, zpow_natCast, ← div_eq_mul_inv]
    exact roundShift_nearest m _
  · next h =>
    have hexp : e - q = ((e - q).toNat : ℤ) := by omega
    have := nearestInt_self ((m * 2 ^ (e - q).toNat : ℕ) : ℤ)
    rw [hexp, zpow_natCast]
    exact_mod_cast this

/-! The magnitudes of codes, in order (R45 to R47). A code's magnitude stands on `b` fraction bits below its exponent. -/

/-- The magnitude of a code in units of the least one, of whatever exponent. -/
def magNat (b k : ℕ) : ℕ := if k / 2 ^ b = 0 then k % 2 ^ b else (2 ^ b + k % 2 ^ b) * 2 ^ (k / 2 ^ b - 1)

theorem magNat_sub {b k : ℕ} (h : k < 2 ^ b) : magNat b k = k := by
  rw [magNat, Nat.div_eq_of_lt h, if_pos rfl, Nat.mod_eq_of_lt h]

theorem magNat_norm {b x r : ℕ} (hr : r < 2 ^ b) : magNat b ((x + 1) * 2 ^ b + r) = (2 ^ b + r) * 2 ^ x := by
  have hdiv : ((x + 1) * 2 ^ b + r) / 2 ^ b = x + 1 := by
    rw [Nat.add_comm, Nat.add_mul_div_right _ _ (by positivity), Nat.div_eq_of_lt hr, Nat.zero_add]
  have hmod : ((x + 1) * 2 ^ b + r) % 2 ^ b = r := Nat.mul_add_mod_of_lt hr
  rw [magNat, hdiv, hmod, if_neg (by omega), Nat.add_sub_cancel]

/-- Every code is one of the two. -/
theorem magNat_cases (b k : ℕ) : k < 2 ^ b ∨ ∃ x r, r < 2 ^ b ∧ k = (x + 1) * 2 ^ b + r := by
  have hpos : 0 < 2 ^ b := by positivity
  rcases lt_or_ge k (2 ^ b) with h | h
  · exact .inl h
  · have hx : k / 2 ^ b - 1 + 1 = k / 2 ^ b := Nat.sub_add_cancel ((Nat.one_le_div_iff hpos).2 h)
    exact .inr ⟨k / 2 ^ b - 1, k % 2 ^ b, Nat.mod_lt _ hpos, by rw [hx, Nat.mul_comm, Nat.div_add_mod]⟩

theorem magNat_lt_succ (b k : ℕ) : magNat b k < magNat b (k + 1) := by
  have hpos : 0 < 2 ^ b := by positivity
  rcases magNat_cases b k with h | ⟨x, r, hr, rfl⟩
  · rw [magNat_sub h]
    rcases lt_or_eq_of_le (Nat.succ_le_of_lt h) with h' | h'
    · rw [magNat_sub h']
      omega
    · have := magNat_norm (b := b) (x := 0) hpos
      rw [show k + 1 = (0 + 1) * 2 ^ b + 0 by omega, this]
      omega
  · rw [magNat_norm hr]
    rcases lt_or_eq_of_le (Nat.succ_le_of_lt hr) with h' | h'
    · rw [Nat.add_assoc, magNat_norm h']
      exact Nat.mul_lt_mul_of_pos_right (by omega) (by positivity)
    · have hnext : (x + 1) * 2 ^ b + r + 1 = (x + 1 + 1) * 2 ^ b + 0 := by
        rw [Nat.add_one_mul (x + 1)]
        omega
      rw [hnext, magNat_norm hpos, pow_succ, Nat.add_zero, Nat.mul_comm (2 ^ x), ← Nat.mul_assoc]
      exact Nat.mul_lt_mul_of_pos_right (by omega) (by positivity)

theorem magNat_strictMono (b : ℕ) : StrictMono (magNat b) := strictMono_nat_of_lt_succ (magNat_lt_succ b)

/-- In units of 2^x, the magnitude of a code is an integer, or the code stands below the first one whose exponent has that unit. -/
theorem magNat_unit (b x k : ℕ) : (∃ j, magNat b k = j * 2 ^ x) ∨ 0 < x ∧ magNat b k < 2 ^ b * 2 ^ x := by
  rcases magNat_cases b k with h | ⟨y, r, hr, rfl⟩
  · rw [magNat_sub h]
    rcases Nat.eq_zero_or_pos x with rfl | hx
    · exact .inl ⟨k, by simp⟩
    · exact .inr ⟨hx, h.trans_le (Nat.le_mul_of_pos_right _ (by positivity))⟩
  · rw [magNat_norm hr]
    rcases le_or_gt x y with hxy | hxy
    · exact .inl ⟨(2 ^ b + r) * 2 ^ (y - x), by rw [Nat.mul_assoc, ← pow_add, Nat.sub_add_cancel hxy]⟩
    · refine .inr ⟨by omega, ?_⟩
      calc (2 ^ b + r) * 2 ^ y < 2 * 2 ^ b * 2 ^ y := Nat.mul_lt_mul_of_pos_right (by omega) (by positivity)
        _ = 2 ^ b * 2 ^ (y + 1) := by ring
        _ ≤ 2 ^ b * 2 ^ x := Nat.mul_le_mul_left _ (Nat.pow_le_pow_right Nat.two_pos hxy)

/-- The code of a significand `n` in units of 2^x. -/
theorem magNat_code {b x n : ℕ} (hn : n ≤ 2 * 2 ^ b) (hx : 0 < x → 2 ^ b ≤ n) : magNat b (x * 2 ^ b + n) = n * 2 ^ x := by
  have hpos : 0 < 2 ^ b := by positivity
  rcases lt_or_ge n (2 ^ b) with h | h
  · obtain rfl : x = 0 := by omega
    simp [magNat_sub h]
  · rcases lt_or_eq_of_le hn with h' | rfl
    · have hcode : x * 2 ^ b + n = (x + 1) * 2 ^ b + (n - 2 ^ b) := by rw [Nat.add_one_mul]; omega
      rw [hcode, magNat_norm (by omega), Nat.add_sub_cancel' h]
    · have hcode : x * 2 ^ b + 2 * 2 ^ b = (x + 1 + 1) * 2 ^ b + 0 := by ring
      rw [hcode, magNat_norm hpos]
      ring

end Sys2Proof.Proofs
end

section
/-! Rounding a number to a format's codes. -/
namespace Sys2Proof.Proofs
open Sys2Proof.Machine Sys2Proof.Safety Sys2Proof.Laws

/-! The descriptor of a floating format. -/

section
variable {f : Fmt} (hf : f.isFloat = true)
include hf

theorem float_p : f.float.p = fracBits f + 1 := by revert hf; cases f <;> decide
theorem float_width : f.float.width = f.bits := by revert hf; cases f <;> decide
theorem float_emin : f.float.emin = 1 - (expBias f : ℤ) - fracBits f := by revert hf; cases f <;> decide
theorem float_maxCode : f.float.maxCode = topFinite f := by revert hf; cases f <;> decide
theorem float_nanCode : f.float.nanCode = defaultNaN f := by revert hf; cases f <;> decide
theorem float_infCode : f.float.infCode = if f = .f8a then none else some (topFinite f + 1) := by revert hf; cases f <;> decide
theorem topFinite_lt : topFinite f < 2 ^ (f.bits - 1) := by revert hf; cases f <;> decide
theorem even_two_pow_fracBits : 2 ^ fracBits f % 2 = 0 := by revert hf; cases f <;> decide
theorem even_sign : 2 ^ (f.bits - 1) % 2 = 0 := by revert hf; cases f <;> decide
/-- The largest finite code stands midway between its neighbours: the code above it would go on in steps of the same size. -/
theorem magNat_topFinite : magNat (fracBits f) (topFinite f + 1) + magNat (fracBits f) (topFinite f - 1) =
    2 * magNat (fracBits f) (topFinite f) := by
  revert hf
  cases f <;> decide +kernel
/-- The largest finite code is even in F8A alone. -/
theorem topFinite_parity : topFinite f % 2 = if f = .f8a then 0 else 1 := by revert hf; cases f <;> decide
end

/-! The nearest code. -/

/-- The magnitude of a code of a format, of whatever exponent. -/
def magNum (f : Fmt) (k : ℕ) : ℚ := magNat (fracBits f) k * 2 ^ f.float.emin

theorem magNum_strictMono (f : Fmt) : StrictMono (magNum f) := fun j k h =>
  mul_lt_mul_of_pos_right (by exact_mod_cast magNat_strictMono _ h) (by positivity)
theorem magNum_zero (f : Fmt) : magNum f 0 = 0 := by simp [magNum, magNat]
theorem magNum_nonneg (f : Fmt) (k : ℕ) : 0 ≤ magNum f k := by unfold magNum; positivity

/-- The magnitude's code that rounding a number gives, before the overflow rules. -/
def roundMag (f : Fmt) (m : ℕ) (e : ℤ) : ℕ :=
  let r := roundBits f.float.p f.float.emin m e
  (r.2 - f.float.emin).toNat * 2 ^ (f.float.p - 1) + r.1

theorem roundTo_fin (f : Fmt) (sat neg : Bool) (m : ℕ) (e : ℤ) : f.float.roundTo sat (.fin neg m e) =
    if m = 0 then f.float.sign neg else if f.float.maxCode < roundMag f m e then f.float.over sat neg else f.float.sign neg + roundMag f m e :=
  rfl

theorem emin_le_roundBits (p : ℕ) (emin : ℤ) (m : ℕ) (e : ℤ) : emin ≤ (roundBits p emin m e).2 := le_max_right _ _

/-- A number in units of the exponent that it is rounded at lies below 2^p, and from 2^(p - 1) up unless the exponent is the least. -/
theorem roundBits_scaled (b : ℕ) (emin : ℤ) {m : ℕ} (hm : m ≠ 0) (e : ℤ) :
    (m : ℚ) * 2 ^ e / 2 ^ (roundBits (b + 1) emin m e).2 ≤ 2 * 2 ^ b ∧
      (emin < (roundBits (b + 1) emin m e).2 → (2 : ℚ) ^ b ≤ m * 2 ^ e / 2 ^ (roundBits (b + 1) emin m e).2) := by
  have hlow : (2 : ℚ) ^ (Nat.log2 m) ≤ m := by exact_mod_cast Nat.log2_self_le hm
  have hhigh : (m : ℚ) ≤ 2 ^ (Nat.log2 m + 1) := by exact_mod_cast Nat.lt_log2_self.le
  have hq : (roundBits (b + 1) emin m e).2 = max ((Nat.log2 m : ℤ) + e - b) emin := rfl
  rw [hq, mul_div_assoc, ← zpow_sub₀ two_ne_zero]
  constructor
  · calc (m : ℚ) * 2 ^ (e - max ((Nat.log2 m : ℤ) + e - b) emin)
        ≤ 2 ^ (Nat.log2 m + 1) * 2 ^ ((b : ℤ) - Nat.log2 m) := by
          refine mul_le_mul hhigh (zpow_le_zpow_right₀ one_le_two (by omega)) (by positivity) (by positivity)
      _ = 2 * 2 ^ b := by
          rw [← zpow_natCast, ← zpow_add₀ two_ne_zero, ← zpow_natCast, ← zpow_one_add₀ two_ne_zero]
          congr 1
          push_cast
          ring
  · intro hlt
    have hmax : max ((Nat.log2 m : ℤ) + e - b) emin = Nat.log2 m + e - b := by omega
    calc (2 : ℚ) ^ b = 2 ^ (Nat.log2 m) * 2 ^ ((b : ℤ) - Nat.log2 m) := by
          rw [← zpow_natCast, ← zpow_natCast, ← zpow_add₀ two_ne_zero]
          congr 1
          ring
      _ ≤ m * 2 ^ (e - max ((Nat.log2 m : ℤ) + e - b) emin) := by
          rw [hmax, show e - (Nat.log2 m + e - b) = (b : ℤ) - Nat.log2 m by ring]
          exact mul_le_mul_of_nonneg_right hlow (by positivity)

/-- A code that no other is nearer to a number than, and that is even where another is as near. -/
def NearestMag (f : Fmt) (a : ℚ) (c : ℕ) : Prop :=
  ∀ k, |magNum f c - a| ≤ |magNum f k - a| ∧ (k ≠ c → |magNum f c - a| = |magNum f k - a| → c % 2 = 0)

section
variable {f : Fmt} (hf : f.isFloat = true) {m : ℕ} (hm : m ≠ 0) (e : ℤ)
include hf hm

/-- The magnitude of the rounded code is the rounded significand at its exponent, and they are odd or even together. -/
theorem magNum_roundMag : magNum f (roundMag f m e) =
    (roundBits f.float.p f.float.emin m e).1 * 2 ^ (roundBits f.float.p f.float.emin m e).2 ∧
      roundMag f m e % 2 = (roundBits f.float.p f.float.emin m e).1 % 2 := by
  have hp := float_p hf
  have hnear := roundBits_nearest f.float.p f.float.emin m e
  have hexp := emin_le_roundBits f.float.p f.float.emin m e
  obtain ⟨hle, hge⟩ := roundBits_scaled (fracBits f) f.float.emin hm e
  rw [← hp] at hle hge
  unfold roundMag
  generalize roundBits f.float.p f.float.emin m e = r at *
  obtain ⟨n, q⟩ := r
  dsimp only at *
  have hn : n ≤ 2 * 2 ^ fracBits f := by exact_mod_cast hnear.le (j := 2 * 2 ^ fracBits f) (by push_cast; exact hle)
  have hx : 0 < (q - f.float.emin).toNat → 2 ^ fracBits f ≤ n := fun h => by
    exact_mod_cast hnear.ge (j := 2 ^ fracBits f) (by push_cast; exact hge (by omega))
  rw [hp, Nat.add_sub_cancel]
  constructor
  · rw [magNum, magNat_code hn hx]
    push_cast
    rw [mul_assoc, ← zpow_natCast, ← zpow_add₀ two_ne_zero]
    congr 2
    omega
  · have := even_two_pow_fracBits hf
    rw [Nat.add_mod, Nat.mul_mod, this]
    simp

theorem roundMag_nearest : NearestMag f (m * 2 ^ e) (roundMag f m e) := by
  have hp := float_p hf
  have hnear := roundBits_nearest f.float.p f.float.emin m e
  have hexp := emin_le_roundBits f.float.p f.float.emin m e
  obtain ⟨-, hge⟩ := roundBits_scaled (fracBits f) f.float.emin hm e
  obtain ⟨hmag, hparity⟩ := magNum_roundMag hf hm e
  have hinj := (magNum_strictMono f).injective
  rw [← hp] at hge
  intro k
  rw [hmag, hparity]
  have hne : k ≠ roundMag f m e → magNum f k ≠ (roundBits f.float.p f.float.emin m e).1 * 2 ^ (roundBits f.float.p f.float.emin m e).2 :=
    fun h => by rw [← hmag]; exact fun h' => h (hinj h')
  generalize roundMag f m e = c at *
  generalize roundBits f.float.p f.float.emin m e = r at *
  obtain ⟨n, q⟩ := r
  dsimp only at *
  have hpos : (0 : ℚ) < 2 ^ q := by positivity
  have hunit : ∀ j : ℚ, |j * 2 ^ q - m * 2 ^ e| = |j - m * 2 ^ e / 2 ^ q| * 2 ^ q := fun j => by
    rw [← abs_of_pos hpos, ← abs_mul, abs_of_pos hpos]
    congr 1
    field_simp
  have hq : (2 : ℚ) ^ q = 2 ^ (q - f.float.emin).toNat * 2 ^ f.float.emin := by
    rw [← zpow_natCast, ← zpow_add₀ two_ne_zero]
    congr 1
    omega
  rcases magNat_unit (fracBits f) (q - f.float.emin).toNat k with ⟨j, hj⟩ | ⟨hx, hk⟩
  · have hk : magNum f k = j * 2 ^ q := by
      rw [magNum, hj, hq]
      push_cast
      ring
    rw [hk, hunit, hunit]
    obtain ⟨hle, heven⟩ := hnear j
    refine ⟨mul_le_mul_of_nonneg_right (by exact_mod_cast hle) hpos.le, fun hkc heq => ?_⟩
    have hjn : (j : ℤ) ≠ n := fun h => hne hkc (by rw [hk]; congr 1; exact_mod_cast h)
    have := heven hjn (by exact_mod_cast mul_right_cancel₀ hpos.ne' heq)
    omega
  · have hk' : magNum f k < 2 ^ fracBits f * 2 ^ q := by
      rw [magNum, hq, ← mul_assoc]
      exact mul_lt_mul_of_pos_right (by exact_mod_cast hk) (by positivity)
    have hlow : 2 ^ fracBits f * (2 : ℚ) ^ q ≤ m * 2 ^ e := (le_div_iff₀ hpos).1 (hge (by omega))
    have hlt : |(n : ℚ) * 2 ^ q - m * 2 ^ e| < |magNum f k - m * 2 ^ e| := by
      calc |(n : ℚ) * 2 ^ q - m * 2 ^ e| ≤ |(2 : ℚ) ^ fracBits f * 2 ^ q - m * 2 ^ e| := by
            rw [hunit, hunit]
            exact mul_le_mul_of_nonneg_right (by exact_mod_cast (hnear (2 ^ fracBits f)).1) hpos.le
        _ = (m : ℚ) * 2 ^ e - 2 ^ fracBits f * 2 ^ q := by rw [abs_sub_comm, abs_of_nonneg (by linarith)]
        _ < (m : ℚ) * 2 ^ e - magNum f k := by linarith
        _ = |magNum f k - m * 2 ^ e| := by rw [abs_sub_comm, abs_of_pos (by linarith)]
    exact ⟨hlt.le, fun _ heq => absurd heq hlt.ne⟩
end

end Sys2Proof.Proofs
end

section
/-! Rounding once (R52): the overflow, the signs, and the codes that are numbers already. -/
namespace Sys2Proof.Proofs
open Sys2Proof.Machine Sys2Proof.Safety Sys2Proof.Laws

/-- A sign as a factor. -/
def sgn (neg : Bool) : ℚ := if neg then -1 else 1

theorem abs_sgn_mul (neg : Bool) (x : ℚ) : |sgn neg * x| = |x| := by cases neg <;> simp [sgn]
theorem sgn_mul_neg_iff (neg : Bool) {a : ℚ} (ha : 0 < a) : sgn neg * a < 0 ↔ neg = true := by
  cases neg <;> simp [sgn, ha, ha.le]
theorem sgn_not (neg : Bool) (x : ℚ) : sgn (!neg) * x = -(sgn neg * x) := by cases neg <;> simp [sgn]
theorem sgn_bne (a b : Bool) (x y : ℚ) : sgn (a != b) * (x * y) = sgn a * x * (sgn b * y) := by
  cases a <;> cases b <;> simp [sgn]

/-! The number of a code. -/

section
variable {f : Fmt} (hf : f.isFloat = true)
include hf

theorem codeNum_eq (c : ℕ) : codeNum f c = sgn (c.testBit (f.bits - 1)) * magNum f (magCode f c) := by
  have hunit : (2 : ℚ) ^ f.float.emin = 2 ^ (1 - (expBias f : ℤ)) / 2 ^ fracBits f := by
    rw [float_emin hf, zpow_sub₀ two_ne_zero, zpow_natCast]
  unfold codeNum magNum magNat
  rw [hunit]
  dsimp only
  congr 1
  split
  · ring
  · next h =>
    obtain ⟨x, hx⟩ := Nat.exists_eq_succ_of_ne_zero h
    have hexp : ((x.succ : ℕ) : ℤ) - expBias f = x + (1 - expBias f) := by push_cast; ring
    rw [hx, Nat.succ_sub_one, hexp, zpow_add₀ two_ne_zero, zpow_natCast]
    push_cast
    field_simp

theorem codeNum_of_lt {c : ℕ} (hc : c < 2 ^ (f.bits - 1)) : codeNum f c = magNum f c := by
  rw [codeNum_eq hf, magCode, Nat.testBit_lt_two_pow hc, Nat.mod_eq_of_lt hc, sgn, if_neg Bool.false_ne_true, one_mul]

/-! The overflow. -/

/-- The number from which on rounding overflows lies midway between the largest finite number and the one after it. -/
theorem overflow_edge : codeNum f (topFinite f) + (codeNum f (topFinite f) - codeNum f (topFinite f - 1)) / 2 =
    (magNum f (topFinite f) + magNum f (topFinite f + 1)) / 2 := by
  have hsteps : (magNat (fracBits f) (topFinite f + 1) : ℚ) + magNat (fracBits f) (topFinite f - 1) =
    2 * magNat (fracBits f) (topFinite f) := by exact_mod_cast magNat_topFinite hf
  have htop := topFinite_lt hf
  rw [codeNum_of_lt hf htop, codeNum_of_lt hf (by omega)]
  unfold magNum
  linear_combination (-(2 : ℚ) ^ f.float.emin / 2) * hsteps

end

theorem nearer_iff {p q : ℚ} (h : p < q) (a : ℚ) : |p - a| ≤ |q - a| ↔ a ≤ (p + q) / 2 := by
  rw [← sq_le_sq]
  constructor <;> intro <;> nlinarith
theorem nearer_iff' {p q : ℚ} (h : p < q) (a : ℚ) : |q - a| ≤ |p - a| ↔ (p + q) / 2 ≤ a := by
  rw [← sq_le_sq]
  constructor <;> intro <;> nlinarith

section
variable {f : Fmt} (hf : f.isFloat = true) {a : ℚ} {c : ℕ} (h : NearestMag f a c)
include hf h

theorem overflow_of_gt (hc : topFinite f < c) :
    if f = .f8a then (magNum f (topFinite f) + magNum f (topFinite f + 1)) / 2 < a
    else (magNum f (topFinite f) + magNum f (topFinite f + 1)) / 2 ≤ a := by
  have hmid := (nearer_iff' (magNum_strictMono f hc) a).1 (h (topFinite f)).1
  have hmono : magNum f (topFinite f + 1) ≤ magNum f c := (magNum_strictMono f).monotone hc
  have hparity := topFinite_parity hf
  split
  · next h8 =>
    rw [if_pos h8] at hparity
    refine lt_of_le_of_ne (by linarith) fun ha => ?_
    have hcode : c = topFinite f + 1 := (magNum_strictMono f).injective (le_antisymm (by linarith) hmono)
    have htie := (h (topFinite f)).2 hc.ne (le_antisymm (h _).1 ((nearer_iff (magNum_strictMono f hc) a).2 (by linarith)))
    omega
  · linarith

theorem not_overflow_of_le (hc : c ≤ topFinite f) :
    ¬if f = .f8a then (magNum f (topFinite f) + magNum f (topFinite f + 1)) / 2 < a
    else (magNum f (topFinite f) + magNum f (topFinite f + 1)) / 2 ≤ a := by
  have hlt : magNum f c < magNum f (topFinite f + 1) := magNum_strictMono f (Nat.lt_succ_of_le hc)
  have hmid := (nearer_iff hlt a).1 (h (topFinite f + 1)).1
  have hmono : magNum f c ≤ magNum f (topFinite f) := (magNum_strictMono f).monotone hc
  have hparity := topFinite_parity hf
  split
  · linarith
  · next h8 =>
    rw [if_neg h8] at hparity
    intro ha
    have hcode : c = topFinite f := (magNum_strictMono f).injective (le_antisymm hmono (by linarith))
    have htie := (h (topFinite f + 1)).2 (by omega) (le_antisymm (h _).1 ((nearer_iff' hlt a).2 (by linarith)))
    omega
end

/-! Codes with a sign. -/

section
variable {f : Fmt} {c : ℕ}

theorem sign_add_code {neg : Bool} (hc : c < 2 ^ (f.bits - 1)) :
    magCode f ((if neg then 2 ^ (f.bits - 1) else 0) + c) = c ∧
      ((if neg then 2 ^ (f.bits - 1) else 0) + c).testBit (f.bits - 1) = neg ∧ (if neg then 2 ^ (f.bits - 1) else 0) + c < 2 ^ f.bits := by
  have htwo : 2 ^ f.bits = 2 * 2 ^ (f.bits - 1) := (mul_pow_sub_one (bits_pos f).ne' 2).symm
  cases neg with
  | false =>
    simp only [Bool.false_eq_true, if_false, Nat.zero_add]
    exact ⟨Nat.mod_eq_of_lt hc, Nat.testBit_lt_two_pow hc, by omega⟩
  | true =>
    simp only [if_true]
    refine ⟨?_, ?_, by omega⟩
    · rw [magCode, Nat.add_mod_left, Nat.mod_eq_of_lt hc]
    · rw [Nat.testBit_two_pow_add_eq, Nat.testBit_lt_two_pow hc, Bool.not_false]

/-- A code is its magnitude's code with its sign. -/
theorem code_eq_sign_add (hc : c < 2 ^ f.bits) : c = (if c.testBit (f.bits - 1) then 2 ^ (f.bits - 1) else 0) + magCode f c := by
  have htwo : 2 ^ f.bits = 2 * 2 ^ (f.bits - 1) := (mul_pow_sub_one (bits_pos f).ne' 2).symm
  have hmod := Nat.div_add_mod c (2 ^ (f.bits - 1))
  have hlt : c / 2 ^ (f.bits - 1) < 2 := Nat.div_lt_of_lt_mul (by rwa [Nat.mul_comm, ← htwo])
  rw [Nat.testBit_eq_decide_div_mod_eq, Nat.mod_eq_of_lt hlt, magCode]
  rcases Nat.le_one_iff_eq_zero_or_eq_one.1 (Nat.le_of_lt_succ hlt) with h | h
  · rw [h] at hmod ⊢
    simpa using hmod.symm
  · rw [h] at hmod ⊢
    simpa using hmod.symm
end

/-- A code with its sign is nearer to a number of its sign than any other finite code, where its magnitude's code is among all. -/
theorem signed_nearest {f : Fmt} (hf : f.isFloat = true) {a : ℚ} (ha : 0 < a) {c : ℕ} (h : NearestMag f a c) (neg : Bool) (w : ℕ) :
    |sgn neg * magNum f c - sgn neg * a| ≤ |codeNum f w - sgn neg * a| ∧
      (codeNum f w ≠ sgn neg * magNum f c → |sgn neg * magNum f c - sgn neg * a| = |codeNum f w - sgn neg * a| → c % 2 = 0) := by
  have hinj := (magNum_strictMono f).injective
  have hw := magNum_nonneg f (magCode f w)
  rw [← mul_sub, abs_sgn_mul, codeNum_eq hf]
  by_cases hsame : w.testBit (f.bits - 1) = neg
  · rw [hsame, ← mul_sub, abs_sgn_mul]
    obtain ⟨hle, heven⟩ := h (magCode f w)
    exact ⟨hle, fun hne heq => heven (fun hcode => hne (by rw [hcode])) heq⟩
  · have hopp : w.testBit (f.bits - 1) = !neg := by revert hsame; cases neg <;> simp
    have hsum : |sgn (!neg) * magNum f (magCode f w) - sgn neg * a| = magNum f (magCode f w) + a := by
      rw [sgn_not, ← neg_add', abs_neg, ← mul_add, abs_sgn_mul, abs_of_pos (by linarith)]
    obtain ⟨hle, heven⟩ := h 0
    rw [magNum_zero, zero_sub, abs_neg, abs_of_pos ha] at hle heven
    rw [hopp, hsum]
    refine ⟨by linarith, fun hne heq => heven (fun hc => hne ?_) (by linarith)⟩
    have hzero : magNum f (magCode f w) = 0 := by linarith
    rw [hzero, ← hc, magNum_zero, mul_zero, mul_zero]

section
variable {f : Fmt} (hf : f.isFloat = true)
include hf

theorem sign_eq (neg : Bool) : f.float.sign neg = if neg then 2 ^ (f.bits - 1) else 0 := by
  rw [FloatFmt.sign, float_width hf]

theorem over_eq (sat neg : Bool) : f.float.over sat neg =
    if sat then f.float.sign neg + topFinite f else if f = .f8a then defaultNaN f else f.float.sign neg + topFinite f + 1 := by
  rw [FloatFmt.over, float_maxCode hf, float_infCode hf, float_nanCode hf]
  by_cases h : f = .f8a <;> simp [h, Nat.add_assoc]

/-- A number that is not zero, rounded once. -/
theorem rounds_roundTo (sat neg : Bool) {m : ℕ} (hm : m ≠ 0) (e : ℤ) :
    Rounds f sat (sgn neg * (m * 2 ^ e)) (f.float.roundTo sat (.fin neg m e)) := by
  have ha : (0 : ℚ) < m * 2 ^ e := mul_pos (by exact_mod_cast Nat.pos_of_ne_zero hm) (by positivity)
  have hnear := roundMag_nearest hf hm e
  have htop := topFinite_lt hf
  rw [roundTo_fin, if_neg hm, float_maxCode hf]
  unfold Rounds
  dsimp only
  rw [overflow_edge hf, abs_sgn_mul, abs_of_pos ha, over_eq hf, sign_eq hf]
  simp only [sgn_mul_neg_iff neg ha]
  rcases le_or_gt (roundMag f m e) (topFinite f) with hle | hgt
  · have hin := not_overflow_of_le hf hnear hle
    rw [if_neg (not_lt.2 hle)]
    obtain ⟨hmag, hneg, hlt⟩ := sign_add_code (neg := neg) (hle.trans_lt htop)
    refine ⟨fun h => absurd h hin, fun _ => ⟨by rwa [finCode, hmag], hlt, by rw [negCode, hneg], fun w _ => ?_⟩⟩
    rw [codeNum_eq hf (_ + _), hmag, hneg]
    have heven : ((if neg = true then 2 ^ (f.bits - 1) else 0) + roundMag f m e) % 2 = roundMag f m e % 2 := by
      have := even_sign hf
      split <;> omega
    rw [heven]
    exact signed_nearest hf ha hnear neg w
  · rw [if_pos hgt]
    exact ⟨fun _ => rfl, fun h => absurd (overflow_of_gt hf hnear hgt) h⟩

theorem roundTo_zero (sat neg : Bool) (e : ℤ) : f.float.roundTo sat (.fin neg 0 e) = if neg then 2 ^ (f.bits - 1) else 0 := by
  rw [roundTo_fin, if_pos rfl, sign_eq hf]
end

end Sys2Proof.Proofs
end

section
/-! The exact operations on values, and the floating-point elements they give. -/
namespace Sys2Proof.Proofs
open Sys2Proof.Machine Sys2Proof.Safety Sys2Proof.Laws

/-! Exact values. -/

/-- A value that is a number, and whose sign is given where the number is zero. -/
def Exact (v : FVal) (r : ℚ) (n : Bool) : Prop := ∃ s m e, v = .fin s m e ∧ sgn s * (m * 2 ^ e) = r ∧ (r = 0 → s = n)

theorem sgn_mul_eq_zero (s : Bool) (m : ℕ) (e : ℤ) : sgn s * ((m : ℚ) * 2 ^ e) = 0 ↔ m = 0 := by
  have hpow : (2 : ℚ) ^ e ≠ 0 := by positivity
  cases s <;> simp [sgn, hpow]

/-- An exact value is rounded once; a zero keeps its sign. -/
theorem Exact.rounds {f : Fmt} (hf : f.isFloat = true) {v : FVal} {r : ℚ} {n : Bool} (h : Exact v r n) (sat : Bool) :
    (r ≠ 0 → Rounds f sat r (f.float.roundTo sat v)) ∧ (r = 0 → f.float.roundTo sat v = if n then 2 ^ (f.bits - 1) else 0) := by
  obtain ⟨s, m, e, rfl, rfl, hs⟩ := h
  refine ⟨fun hr => rounds_roundTo hf sat s (fun hm => hr ((sgn_mul_eq_zero s m e).2 hm)) e, fun hr => ?_⟩
  rw [(sgn_mul_eq_zero s m e).1 hr, roundTo_zero hf, hs hr]

theorem scaled_num (neg : Bool) (m : ℕ) {x e : ℤ} (h : e ≤ x) : (FVal.scaled neg m x e : ℚ) * 2 ^ e = sgn neg * (m * 2 ^ x) := by
  have hpow : (2 : ℚ) ^ x = 2 ^ (x - e).toNat * 2 ^ e := by
    rw [← zpow_natCast, ← zpow_add₀ two_ne_zero]
    congr 1
    omega
  rw [hpow]
  cases neg <;> simp [FVal.scaled, sgn] <;> ring

theorem ofInt_exact (n e : ℤ) : Exact (.ofInt n e) (n * 2 ^ e) false := by
  have hpow : (2 : ℚ) ^ e ≠ 0 := by positivity
  refine ⟨_, _, _, rfl, ?_, fun h => ?_⟩
  · rw [← mul_assoc]
    congr 1
    rcases lt_or_ge n 0 with h | h
    · rw [decide_eq_true h, sgn, if_pos rfl, Nat.cast_natAbs, abs_of_neg h]
      push_cast
      ring
    · rw [decide_eq_false (not_lt.2 h), sgn, if_neg Bool.false_ne_true, one_mul, Nat.cast_natAbs, abs_of_nonneg h]
  · have hn : n = 0 := by simpa [hpow] using h
    rw [hn]
    rfl

/-- A sum of two numbers; a zero sum is −0 where both are (R45). -/
theorem add_exact (a : Bool) (m : ℕ) (x : ℤ) (b : Bool) (n : ℕ) (y : ℤ) :
    Exact ((FVal.fin a m x).add (.fin b n y)) (sgn a * (m * 2 ^ x) + sgn b * (n * 2 ^ y)) (a && b) := by
  by_cases hz : m = 0 ∧ n = 0
  · obtain ⟨rfl, rfl⟩ := hz
    exact ⟨a && b, 0, 0, by simp [FVal.add], by simp, fun _ => rfl⟩
  · have hadd : (FVal.fin a m x).add (.fin b n y) = .ofInt (FVal.scaled a m x (min x y) + FVal.scaled b n y (min x y)) (min x y) := by
      simp only [FVal.add, if_neg hz]
    obtain ⟨s, k, e, hv, hnum, hs⟩ := ofInt_exact (FVal.scaled a m x (min x y) + FVal.scaled b n y (min x y)) (min x y)
    rw [Int.cast_add, add_mul, scaled_num _ _ (min_le_left x y), scaled_num _ _ (min_le_right x y)] at hnum hs
    refine ⟨s, k, e, hadd.trans hv, hnum, fun h => (hs h).trans ?_⟩
    have hm : (0 : ℚ) ≤ m * 2 ^ x := by positivity
    have hn : (0 : ℚ) ≤ n * 2 ^ y := by positivity
    cases a with
    | false => rfl
    | true =>
      cases b with
      | false => rfl
      | true =>
        simp only [sgn, if_true] at h
        have hm0 : sgn false * ((m : ℚ) * 2 ^ x) = 0 := by rw [sgn, if_neg Bool.false_ne_true]; linarith
        have hn0 : sgn false * ((n : ℚ) * 2 ^ y) = 0 := by rw [sgn, if_neg Bool.false_ne_true]; linarith
        exact absurd ⟨(sgn_mul_eq_zero _ _ _).1 hm0, (sgn_mul_eq_zero _ _ _).1 hn0⟩ hz

theorem mul_num (a : Bool) (m : ℕ) (x : ℤ) (b : Bool) (n : ℕ) (y : ℤ) :
    sgn (a != b) * (((m * n : ℕ) : ℚ) * 2 ^ (x + y)) = sgn a * (m * 2 ^ x) * (sgn b * (n * 2 ^ y)) := by
  rw [← sgn_bne, zpow_add₀ two_ne_zero]
  push_cast
  ring

theorem mul_fin (a : Bool) (m : ℕ) (x : ℤ) (b : Bool) (n : ℕ) (y : ℤ) :
    (FVal.fin a m x).mul (.fin b n y) = .fin (a != b) (m * n) (x + y) := rfl

theorem lt_fin (a : Bool) (m : ℕ) (x : ℤ) (b : Bool) (n : ℕ) (y : ℤ) :
    (FVal.fin a m x).lt (.fin b n y) = decide (sgn a * ((m : ℚ) * 2 ^ x) < sgn b * (n * 2 ^ y)) := by
  have hpos : (0 : ℚ) < 2 ^ min x y := by positivity
  rw [← scaled_num a m (min_le_left x y), ← scaled_num b n (min_le_right x y), FVal.lt]
  simp only [mul_lt_mul_iff_left₀ hpos, Int.cast_lt]

theorem eq_fin (a : Bool) (m : ℕ) (x : ℤ) (b : Bool) (n : ℕ) (y : ℤ) :
    (FVal.fin a m x).eq (.fin b n y) = decide (sgn a * ((m : ℚ) * 2 ^ x) = sgn b * (n * 2 ^ y)) := by
  have hdef : (FVal.fin a m x).eq (.fin b n y) = (!(FVal.fin a m x).lt (.fin b n y) && !(FVal.fin b n y).lt (.fin a m x)) := rfl
  rw [hdef, lt_fin, lt_fin, ← decide_not, ← decide_not, ← Bool.decide_and]
  exact decide_eq_decide.2 (by rw [not_lt, not_lt, le_antisymm_iff, and_comm])

theorem le_fin (a : Bool) (m : ℕ) (x : ℤ) (b : Bool) (n : ℕ) (y : ℤ) :
    (FVal.fin a m x).le (.fin b n y) = decide (sgn a * ((m : ℚ) * 2 ^ x) ≤ sgn b * (n * 2 ^ y)) := by
  rw [FVal.le, lt_fin, eq_fin, Bool.eq_iff_iff]
  simp [le_iff_lt_or_eq]

/-- The nearest integer to a number (R53). -/
theorem nearest_fin (neg : Bool) (m : ℕ) (e : ℤ) : NearestInt (sgn neg * (m * 2 ^ e)) (FVal.fin neg m e).nearest := by
  have habs : NearestInt (m * 2 ^ e) ((if e < 0 then roundShift m (-e).toNat else m * 2 ^ e.toNat : ℕ) : ℤ) := by
    split
    · next h =>
      have hexp : e = -((-e).toNat : ℤ) := by omega
      have hpow : (2 : ℚ) ^ e = (2 ^ (-e).toNat)⁻¹ := by rw [← zpow_natCast, ← zpow_neg, ← hexp]
      rw [hpow, ← div_eq_mul_inv]
      exact roundShift_nearest m _
    · next h =>
      have hpow : (2 : ℚ) ^ e = 2 ^ e.toNat := by rw [← zpow_natCast, Int.toNat_of_nonneg (not_lt.1 h)]
      rw [hpow]
      exact_mod_cast nearestInt_self ((m * 2 ^ e.toNat : ℕ) : ℤ)
  cases neg with
  | false => simpa [sgn, FVal.nearest] using habs
  | true => simpa [sgn, FVal.nearest] using habs.neg

/-! The value of a code (R45 to R47). -/

section
variable {f : Fmt} (hf : f.isFloat = true)
include hf

theorem value_eq (c : ℕ) : f.value c =
    if (if f = .f8a then none else some (topFinite f + 1)) = some (magCode f c) then .inf (c.testBit (f.bits - 1))
    else if topFinite f < magCode f c then .nan
    else if magCode f c / 2 ^ fracBits f = 0 then .fin (c.testBit (f.bits - 1)) (magCode f c % 2 ^ fracBits f) f.float.emin
    else .fin (c.testBit (f.bits - 1)) (2 ^ fracBits f + magCode f c % 2 ^ fracBits f)
      (f.float.emin + (magCode f c / 2 ^ fracBits f - 1 : ℕ)) := by
  rw [Fmt.value, isInt_of_isFloat hf, if_neg Bool.false_ne_true, FloatFmt.value, float_width hf, float_p hf, float_maxCode hf, float_infCode hf,
    Nat.add_sub_cancel]
  rfl

theorem value_inf {c : ℕ} (h : infCode' f c) : f.value c = .inf (c.testBit (f.bits - 1)) := by
  obtain ⟨h8, hc⟩ := h
  rw [value_eq hf, if_neg h8, if_pos (by rw [hc])]

theorem value_nan {c : ℕ} (h : nanCode' f c) : f.value c = .nan := by
  obtain ⟨hfin, hinf⟩ := h
  rw [value_eq hf, if_neg, if_pos (not_le.1 hfin)]
  split
  · exact nofun
  · next h8 => exact fun h => hinf ⟨h8, (Option.some.inj h).symm⟩

theorem value_fin {c : ℕ} (h : finCode f c) :
    ∃ m e, f.value c = .fin (c.testBit (f.bits - 1)) m e ∧ sgn (c.testBit (f.bits - 1)) * (m * 2 ^ e) = codeNum f c := by
  have hle : magCode f c ≤ topFinite f := h
  have hinf : (if f = .f8a then none else some (topFinite f + 1)) ≠ some (magCode f c) := by
    split
    · exact nofun
    · exact fun h => by have := Option.some.inj h; omega
  rw [value_eq hf, if_neg hinf, if_neg (not_lt.2 hle), codeNum_eq hf, magNum, magNat]
  split
  · exact ⟨_, _, rfl, rfl⟩
  · refine ⟨_, _, rfl, ?_⟩
    rw [zpow_add₀ two_ne_zero, zpow_natCast]
    push_cast
    ring

/-- A finite code is what its own value rounds to. -/
theorem roundTo_value {c : ℕ} (hc : c < 2 ^ f.bits) (h : finCode f c) (sat : Bool) : f.float.roundTo sat (f.value c) = c := by
  obtain ⟨m, e, hv, hnum⟩ := value_fin hf h
  have hinj := (magNum_strictMono f).injective
  rw [hv]
  rw [codeNum_eq hf] at hnum
  conv_rhs => rw [code_eq_sign_add hc]
  have hmag : (m : ℚ) * 2 ^ e = magNum f (magCode f c) := by
    revert hnum
    cases c.testBit (f.bits - 1) <;> simp [sgn]
  by_cases hm : m = 0
  · have hzero : magCode f c = 0 := hinj (by rw [magNum_zero, ← hmag, hm]; simp)
    rw [hm, roundTo_zero hf, hzero, Nat.add_zero]
  · have hcode : roundMag f m e = magCode f c := by
      have hle := (roundMag_nearest hf hm e (magCode f c)).1
      rw [hmag, sub_self, abs_zero] at hle
      exact hinj (sub_eq_zero.1 (abs_eq_zero.1 (le_antisymm hle (abs_nonneg _))))
    rw [roundTo_fin, if_neg hm, hcode, float_maxCode hf, if_neg (not_lt.2 h), sign_eq hf]

theorem roundTo_nan (sat : Bool) : f.float.roundTo sat .nan = defaultNaN f := float_nanCode hf

theorem roundTo_inf (h8 : f ≠ .f8a) (neg : Bool) :
    f.float.roundTo false (.inf neg) = (if neg then 2 ^ (f.bits - 1) else 0) + topFinite f + 1 := by
  have := over_eq hf false neg
  rw [if_neg Bool.false_ne_true, if_neg h8, sign_eq hf] at this
  exact this

/-! The operations on floating-point elements. -/

theorem arith2_float (fl : FVal → FVal → FVal) (it : ℤ → ℤ → ℤ) (x y : ℕ) :
    arith2 f fl it x y = f.float.roundTo false (fl (f.value x) (f.value y)) := by
  rw [arith2, isInt_of_isFloat hf, if_neg Bool.false_ne_true]
theorem fmaE_float (sub : Bool) (d x y : ℕ) : fmaE f sub d x y = f.float.roundTo false
    ((f.value d).add (if sub then ((f.value x).mul (f.value y)).neg else (f.value x).mul (f.value y))) := by
  rw [fmaE, isInt_of_isFloat hf, if_neg Bool.false_ne_true]
theorem eqE_float (x y : ℕ) : eqE f x y = (f.value x).eq (f.value y) := by rw [eqE, isInt_of_isFloat hf, if_neg Bool.false_ne_true]
theorem ltE_float (x y : ℕ) : ltE f x y = (f.value x).lt (f.value y) := by rw [ltE, isInt_of_isFloat hf, if_neg Bool.false_ne_true]
theorem leE_float (x y : ℕ) : leE f x y = (f.value x).le (f.value y) := by rw [leE, isInt_of_isFloat hf, if_neg Bool.false_ne_true]
end

end Sys2Proof.Proofs
end

section
/-! What floating-point elements become: numbers, NaNs, infinities and conversions. -/
namespace Sys2Proof.Proofs
open Sys2Proof.Machine Sys2Proof.Safety Sys2Proof.Laws

/-- An element that is a number rounded once, with a given sign where the number is zero. -/
def Gives (f : Fmt) (r : ℚ) (n : Bool) (c : ℕ) : Prop := (r ≠ 0 → Rounds f false r c) ∧ (r = 0 → c = if n then 2 ^ (f.bits - 1) else 0)

/-! Numbers. -/

theorem below_fin (a : Bool) (m : ℕ) (x : ℤ) (b : Bool) (n : ℕ) (y : ℤ) : (FVal.fin a m x).below (.fin b n y) =
    decide (sgn a * ((m : ℚ) * 2 ^ x) < sgn b * (n * 2 ^ y) ∨ sgn a * ((m : ℚ) * 2 ^ x) = sgn b * (n * 2 ^ y) ∧ a = true ∧ b = false) := by
  rw [FVal.below, lt_fin, eq_fin, Bool.eq_iff_iff]
  simp [FVal.isNeg, and_assoc]

section
variable {f : Fmt} (hf : f.isFloat = true) {x y : ℕ} (hx : finCode f x) (hy : finCode f y)
include hf hx hy

theorem addE_fin : Gives f (codeNum f x + codeNum f y) (x.testBit (f.bits - 1) && y.testBit (f.bits - 1)) (addE f x y) := by
  obtain ⟨m, e, hv, hn⟩ := value_fin hf hx
  obtain ⟨n, e', hw, hn'⟩ := value_fin hf hy
  rw [addE, arith2_float hf, hv, hw, ← hn, ← hn']
  exact (add_exact _ _ _ _ _ _).rounds hf false

theorem subE_fin : Gives f (codeNum f x - codeNum f y) (x.testBit (f.bits - 1) && !y.testBit (f.bits - 1)) (subE f x y) := by
  obtain ⟨m, e, hv, hn⟩ := value_fin hf hx
  obtain ⟨n, e', hw, hn'⟩ := value_fin hf hy
  rw [subE, arith2_float hf, hv, hw, ← hn, ← hn', sub_eq_add_neg, ← sgn_not]
  exact (add_exact _ _ _ _ _ _).rounds hf false

theorem mulE_fin : Gives f (codeNum f x * codeNum f y) (x.testBit (f.bits - 1) != y.testBit (f.bits - 1)) (mulE f x y) := by
  obtain ⟨m, e, hv, hn⟩ := value_fin hf hx
  obtain ⟨n, e', hw, hn'⟩ := value_fin hf hy
  rw [mulE, arith2_float hf, hv, hw, ← hn, ← hn', ← mul_num, mul_fin]
  exact Exact.rounds hf ⟨_, _, _, rfl, rfl, fun _ => rfl⟩ false

theorem fmaE_fin {d : ℕ} (hd : finCode f d) : Gives f (codeNum f d + codeNum f x * codeNum f y)
    (d.testBit (f.bits - 1) && (x.testBit (f.bits - 1) != y.testBit (f.bits - 1))) (fmaE f false d x y) := by
  obtain ⟨m, e, hv, hn⟩ := value_fin hf hx
  obtain ⟨n, e', hw, hn'⟩ := value_fin hf hy
  obtain ⟨k, e'', hu, hn''⟩ := value_fin hf hd
  rw [fmaE_float hf, if_neg Bool.false_ne_true, hv, hw, hu, ← hn, ← hn', ← hn'', ← mul_num, mul_fin]
  exact (add_exact _ _ _ _ _ _).rounds hf false

theorem fmsE_fin {d : ℕ} (hd : finCode f d) : Gives f (codeNum f d - codeNum f x * codeNum f y)
    (d.testBit (f.bits - 1) && (x.testBit (f.bits - 1) == y.testBit (f.bits - 1))) (fmaE f true d x y) := by
  obtain ⟨m, e, hv, hn⟩ := value_fin hf hx
  obtain ⟨n, e', hw, hn'⟩ := value_fin hf hy
  obtain ⟨k, e'', hu, hn''⟩ := value_fin hf hd
  have hsign : (x.testBit (f.bits - 1) == y.testBit (f.bits - 1)) = !(x.testBit (f.bits - 1) != y.testBit (f.bits - 1)) :=
    (Bool.not_not _).symm
  rw [fmaE_float hf, if_pos rfl, hv, hw, hu, ← hn, ← hn', ← hn'', ← mul_num, mul_fin, sub_eq_add_neg, ← sgn_not, hsign]
  exact (add_exact _ _ _ _ _ _).rounds hf false

theorem eqE_fin : eqE f x y = decide (codeNum f x = codeNum f y) := by
  obtain ⟨m, e, hv, hn⟩ := value_fin hf hx
  obtain ⟨n, e', hw, hn'⟩ := value_fin hf hy
  rw [eqE_float hf, hv, hw, eq_fin, hn, hn']
theorem ltE_fin : ltE f x y = decide (codeNum f x < codeNum f y) := by
  obtain ⟨m, e, hv, hn⟩ := value_fin hf hx
  obtain ⟨n, e', hw, hn'⟩ := value_fin hf hy
  rw [ltE_float hf, hv, hw, lt_fin, hn, hn']
theorem leE_fin : leE f x y = decide (codeNum f x ≤ codeNum f y) := by
  obtain ⟨m, e, hv, hn⟩ := value_fin hf hx
  obtain ⟨n, e', hw, hn'⟩ := value_fin hf hy
  rw [leE_float hf, hv, hw, le_fin, hn, hn']

/-- The order of the maxima and minima (R55). -/
theorem below_value : (f.value x).below (f.value y) = decide (codeNum f x < codeNum f y ∨
    codeNum f x = codeNum f y ∧ x.testBit (f.bits - 1) = true ∧ y.testBit (f.bits - 1) = false) := by
  obtain ⟨m, e, hv, hn⟩ := value_fin hf hx
  obtain ⟨n, e', hw, hn'⟩ := value_fin hf hy
  rw [hv, hw, below_fin, hn, hn']

theorem not_isNaN_value : ((f.value x).isNaN || (f.value y).isNaN) = false := by
  obtain ⟨m, e, hv, -⟩ := value_fin hf hx
  obtain ⟨n, e', hw, -⟩ := value_fin hf hy
  rw [hv, hw]
  rfl

variable (hxb : x < 2 ^ f.bits) (hyb : y < 2 ^ f.bits)
include hxb hyb

theorem maxE_fin : maxE f x y = if codeNum f x < codeNum f y ∨
    codeNum f x = codeNum f y ∧ x.testBit (f.bits - 1) = true ∧ y.testBit (f.bits - 1) = false then y else x := by
  rw [maxE, arith2_float hf, FVal.maxV, not_isNaN_value hf hx hy, if_neg Bool.false_ne_true, below_value hf hx hy,
    apply_ite (f.float.roundTo false), roundTo_value hf hxb hx, roundTo_value hf hyb hy]
  simp only [decide_eq_true_eq]

theorem minE_fin : minE f x y = if codeNum f y < codeNum f x ∨
    codeNum f x = codeNum f y ∧ y.testBit (f.bits - 1) = true ∧ x.testBit (f.bits - 1) = false then y else x := by
  rw [minE, arith2_float hf, FVal.minV, not_isNaN_value hf hx hy, if_neg Bool.false_ne_true, below_value hf hy hx,
    apply_ite (f.float.roundTo false), roundTo_value hf hxb hx, roundTo_value hf hyb hy]
  simp only [decide_eq_true_eq, eq_comm (a := codeNum f y)]
end

theorem scaleE_fin {f : Fmt} (hf : f.isFloat = true) {x : ℕ} (hx : finCode f x) (k : ℤ) :
    Gives f (codeNum f x * 2 ^ k) (x.testBit (f.bits - 1)) (scaleE f k x) := by
  obtain ⟨m, e, hv, hn⟩ := value_fin hf hx
  rw [scaleE, hv, ← hn]
  refine Exact.rounds hf ⟨_, m, e + k, rfl, ?_, fun _ => rfl⟩ false
  rw [zpow_add₀ two_ne_zero]
  ring

/-- Adding a bit above a number flips it. -/
theorem add_two_pow_eq_xor {k r : ℕ} (h : r < 2 ^ k) : r + 2 ^ k = r ^^^ 2 ^ k := by
  rw [← Nat.or_two_pow_eq_add_of_lt h]
  refine Nat.eq_of_testBit_eq fun i => ?_
  rw [Nat.testBit_or, Nat.testBit_xor, Nat.testBit_two_pow]
  by_cases hi : k = i
  · rw [← hi, Nat.testBit_lt_two_pow h, Bool.false_or, Bool.false_xor]
  · rw [decide_eq_false hi, Bool.or_false, Bool.xor_false]

/-! NaNs. -/

section
variable {v w : FVal} (h : v = .nan ∨ w = .nan)
include h

theorem add_of_nan : v.add w = .nan := by
  rcases h with rfl | rfl
  · cases w <;> rfl
  · cases v <;> rfl
theorem mul_of_nan : v.mul w = .nan := by
  rcases h with rfl | rfl
  · cases w <;> rfl
  · cases v <;> rfl
theorem lt_of_nan : v.lt w = false := by
  rcases h with rfl | rfl
  · cases w <;> rfl
  · cases v <;> rfl
theorem eq_of_nan : v.eq w = false := by
  rcases h with rfl | rfl
  · cases w <;> rfl
  · cases v <;> rfl
theorem isNaN_of_nan : (v.isNaN || w.isNaN) = true := by
  rcases h with rfl | rfl
  · rfl
  · exact Bool.or_true _
end

section
variable {f : Fmt} (hf : f.isFloat = true) {x y : ℕ}
include hf

theorem float_of_nan (h : nanCode' f x ∨ nanCode' f y) : addE f x y = defaultNaN f ∧ subE f x y = defaultNaN f ∧
    mulE f x y = defaultNaN f ∧ maxE f x y = defaultNaN f ∧ minE f x y = defaultNaN f ∧ eqE f x y = false ∧ ltE f x y = false ∧
    leE f x y = false := by
  have hv : f.value x = .nan ∨ f.value y = .nan := h.imp (value_nan hf) (value_nan hf)
  have hneg : f.value x = .nan ∨ (f.value y).neg = .nan := hv.imp id (congrArg FVal.neg)
  refine ⟨?_, ?_, ?_, ?_, ?_, ?_, ?_, ?_⟩
  · rw [addE, arith2_float hf, add_of_nan hv, roundTo_nan hf]
  · rw [subE, arith2_float hf, add_of_nan hneg, roundTo_nan hf]
  · rw [mulE, arith2_float hf, mul_of_nan hv, roundTo_nan hf]
  · rw [maxE, arith2_float hf, FVal.maxV, if_pos (isNaN_of_nan hv), roundTo_nan hf]
  · rw [minE, arith2_float hf, FVal.minV, if_pos (isNaN_of_nan hv), roundTo_nan hf]
  · rw [eqE_float hf, eq_of_nan hv]
  · rw [ltE_float hf, lt_of_nan hv]
  · rw [leE_float hf, FVal.le, lt_of_nan hv, eq_of_nan hv]
    rfl

theorem fmaE_of_nan {d : ℕ} (h : nanCode' f d ∨ nanCode' f x ∨ nanCode' f y) (sub : Bool) : fmaE f sub d x y = defaultNaN f := by
  have hp : f.value d = .nan ∨ (f.value x).mul (f.value y) = .nan :=
    h.imp (value_nan hf) fun h => mul_of_nan (h.imp (value_nan hf) (value_nan hf))
  have hs : f.value d = .nan ∨ (if sub then ((f.value x).mul (f.value y)).neg else (f.value x).mul (f.value y)) = .nan := by
    refine hp.imp id fun hp => ?_
    rw [hp]
    cases sub <;> rfl
  rw [fmaE_float hf, add_of_nan hs, roundTo_nan hf]

/-! The sign operations (R304). -/

theorem isNaN_value (c : ℕ) : (f.value c).isNaN = true ↔ nanCode' f c := by
  by_cases hn : nanCode' f c
  · rw [value_nan hf hn]
    exact iff_of_true rfl hn
  · refine iff_of_false ?_ hn
    by_cases hfin : finCode f c
    · obtain ⟨m, e, hv, -⟩ := value_fin hf hfin
      rw [hv]
      exact Bool.false_ne_true
    · rw [value_inf hf (not_not.1 fun hinf => hn ⟨hfin, hinf⟩)]
      exact Bool.false_ne_true

theorem absE_nan (h : nanCode' f x) : absE f x = defaultNaN f := by
  rw [absE, isInt_of_isFloat hf, if_neg Bool.false_ne_true, if_pos ((isNaN_value hf x).2 h), float_nanCode hf]
theorem negE_nan (h : nanCode' f x) : negE f x = defaultNaN f := by
  rw [negE, isInt_of_isFloat hf, if_neg Bool.false_ne_true, if_pos ((isNaN_value hf x).2 h), float_nanCode hf]
theorem absE_eq (h : ¬nanCode' f x) : absE f x = magCode f x := by
  rw [absE, isInt_of_isFloat hf, if_neg Bool.false_ne_true, if_neg (mt (isNaN_value hf x).1 h), magCode]

theorem negE_eq (hx : x < 2 ^ f.bits) (h : ¬nanCode' f x) :
    negE f x = magCode f x + if !x.testBit (f.bits - 1) then 2 ^ (f.bits - 1) else 0 := by
  have hlt : magCode f x < 2 ^ (f.bits - 1) := Nat.mod_lt _ (by positivity)
  rw [negE, isInt_of_isFloat hf, if_neg Bool.false_ne_true, if_neg (mt (isNaN_value hf x).1 h)]
  conv_lhs => rw [code_eq_sign_add hx]
  change (_ : ℕ) ^^^ _ = _
  cases x.testBit (f.bits - 1) with
  | false => exact (congrArg (· ^^^ _) (Nat.zero_add _)).trans (add_two_pow_eq_xor hlt).symm
  | true =>
    rw [if_pos rfl, Nat.add_comm, add_two_pow_eq_xor hlt, Nat.xor_assoc, Nat.xor_self, Nat.xor_zero]
    rfl
end

/-! Infinities. -/

section
variable {f : Fmt} (hf : f.isFloat = true) {x y : ℕ} (hx : x < 2 ^ f.bits) (hxi : infCode' f x)
include hf hx hxi

/-- An infinity is what it rounds to. -/
theorem roundTo_infCode : f.float.roundTo false (.inf (x.testBit (f.bits - 1))) = x := by
  conv_rhs => rw [code_eq_sign_add hx, hxi.2]
  rw [roundTo_inf hf hxi.1, Nat.add_assoc]

theorem float_inf_fin (hy : finCode f y) : addE f x y = x ∧ addE f y x = x ∧ subE f x y = x ∧
    subE f y x = (if !x.testBit (f.bits - 1) then 2 ^ (f.bits - 1) else 0) + topFinite f + 1 ∧
    mulE f x y = (if codeNum f y = 0 then defaultNaN f
      else (if x.testBit (f.bits - 1) != y.testBit (f.bits - 1) then 2 ^ (f.bits - 1) else 0) + topFinite f + 1) ∧
    mulE f y x = (if codeNum f y = 0 then defaultNaN f
      else (if x.testBit (f.bits - 1) != y.testBit (f.bits - 1) then 2 ^ (f.bits - 1) else 0) + topFinite f + 1) := by
  obtain ⟨m, e, hw, hn⟩ := value_fin hf hy
  have hv := value_inf hf hxi
  have hzero : codeNum f y = 0 ↔ m = 0 := by rw [← hn, sgn_mul_eq_zero]
  simp only [addE, subE, mulE, arith2_float hf, hv, hw, hzero]
  refine ⟨roundTo_infCode hf hx hxi, roundTo_infCode hf hx hxi, roundTo_infCode hf hx hxi, roundTo_inf hf hxi.1 _, ?_, ?_⟩
  · simp only [FVal.mul, apply_ite (f.float.roundTo false), roundTo_nan hf, roundTo_inf hf hxi.1]
  · rw [bne_comm]
    simp only [FVal.mul, apply_ite (f.float.roundTo false), roundTo_nan hf, roundTo_inf hf hxi.1]

theorem float_inf_inf (hyi : infCode' f y) :
    addE f x y = (if x.testBit (f.bits - 1) = y.testBit (f.bits - 1) then x else defaultNaN f) ∧
    subE f x y = (if x.testBit (f.bits - 1) = y.testBit (f.bits - 1) then defaultNaN f else x) ∧
    mulE f x y = (if x.testBit (f.bits - 1) != y.testBit (f.bits - 1) then 2 ^ (f.bits - 1) else 0) + topFinite f + 1 := by
  have hround := roundTo_infCode hf hx hxi
  simp only [addE, subE, mulE, arith2_float hf, value_inf hf hxi, value_inf hf hyi]
  refine ⟨?_, ?_, roundTo_inf hf hxi.1 _⟩
  · simp only [FVal.add, apply_ite (f.float.roundTo false), roundTo_nan hf, hround, beq_iff_eq]
  · simp only [FVal.neg, FVal.add, apply_ite (f.float.roundTo false), roundTo_nan hf, hround, beq_iff_eq]
    cases x.testBit (f.bits - 1) <;> cases y.testBit (f.bits - 1) <;> rfl
end

/-! Conversions (R53). -/

section
variable {f g : Fmt} {x : ℕ} (sat : Bool)

theorem cvtElem_float (hg : g.isFloat = true) : cvtElem g f sat x = g.float.roundTo sat (f.value x) := by
  rw [cvtElem, isInt_of_isFloat hg, if_neg Bool.false_ne_true]
theorem cvtElem_float_int (hf : f.isFloat = true) (hg : g.isInt = true) : cvtElem g f sat x = g.ofFloat (f.value x) := by
  rw [cvtElem, if_pos hg, isInt_of_isFloat hf, if_neg Bool.false_ne_true]

theorem cvtElem_fin (hf : f.isFloat = true) (hg : g.isFloat = true) (hx : finCode f x) :
    (codeNum f x ≠ 0 → Rounds g sat (codeNum f x) (cvtElem g f sat x)) ∧
      (codeNum f x = 0 → cvtElem g f sat x = if x.testBit (f.bits - 1) then 2 ^ (g.bits - 1) else 0) := by
  obtain ⟨m, e, hv, hn⟩ := value_fin hf hx
  rw [cvtElem_float sat hg, hv, ← hn]
  exact Exact.rounds hg ⟨_, m, e, rfl, rfl, fun _ => rfl⟩ sat

theorem cvtElem_nan (hf : f.isFloat = true) (hg : g.isFloat = true) (hx : nanCode' f x) : cvtElem g f sat x = defaultNaN g := by
  rw [cvtElem_float sat hg, value_nan hf hx, roundTo_nan hg]

theorem cvtElem_nan_int (hf : f.isFloat = true) (hg : g.isInt = true) (hx : nanCode' f x) : cvtElem g f sat x = 0 := by
  rw [cvtElem_float_int sat hf hg, value_nan hf hx]
  rfl

theorem cvtElem_fin_int (hf : f.isFloat = true) (hg : g.isInt = true) (hx : finCode f x) :
    ∃ n : ℤ, NearestInt (codeNum f x) n ∧ cvtElem g f sat x < 2 ^ g.bits ∧
      elemInt g (cvtElem g f sat x) = max (intLeast g) (min (intMost g) n) := by
  obtain ⟨m, e, hv, hn⟩ := value_fin hf hx
  have hcvt : cvtElem g f sat x = g.satInt (FVal.fin (x.testBit (f.bits - 1)) m e).nearest := by
    rw [cvtElem_float_int sat hf hg, hv]
    rfl
  refine ⟨(FVal.fin (x.testBit (f.bits - 1)) m e).nearest, ?_, ?_, ?_⟩
  · rw [← hn]
    exact nearest_fin _ m e
  · rw [hcvt]
    exact satInt_lt g _
  · rw [hcvt]
    exact elemInt_satInt g _

theorem cvtElem_int_float (hf : f.isFloat = true) (hg : g.isInt = true) (hx : x < 2 ^ g.bits) :
    (elemInt g x ≠ 0 → Rounds f sat (elemInt g x) (cvtElem f g sat x)) ∧ (elemInt g x = 0 → cvtElem f g sat x = 0) := by
  obtain ⟨hne, hz⟩ := (ofInt_exact (elemInt g x) 0).rounds hf sat
  rw [cvtElem_float sat hf, value_of_isInt hg, intOf_eq_elemInt hx]
  rw [zpow_zero, mul_one] at hne hz
  exact ⟨fun h => hne (by exact_mod_cast h), fun h => hz (by exact_mod_cast h)⟩
end

/-- Settles O24: on numbers by the exact value that an operation rounds once, on NaNs and infinities by the value it answers. -/
theorem floatElements : Obligations.FloatElements := by
  intro f d x y hf hd hx hy num neg zero gives inf nan
  refine ⟨fun hxf hyf => ⟨addE_fin hf hxf hyf, subE_fin hf hxf hyf, mulE_fin hf hxf hyf,
      fun hdf => ⟨fmaE_fin hf hxf hyf hdf, fmsE_fin hf hxf hyf hdf⟩, maxE_fin hf hxf hyf hx hy, minE_fin hf hxf hyf hx hy,
      eqE_fin hf hxf hyf, ltE_fin hf hxf hyf, leE_fin hf hxf hyf⟩,
    fun hxf k => scaleE_fin hf hxf k, fun hn => ?_, fun hn => ⟨fmaE_of_nan hf (.inl hn) _, fmaE_of_nan hf (.inl hn) _⟩,
    fun hn => ⟨absE_nan hf hn, negE_nan hf hn⟩, fun hn => ⟨absE_eq hf hn, negE_eq hf hx hn⟩,
    fun hxi hyf => float_inf_fin hf hx hxi hyf, fun hxi hyi => float_inf_inf hf hx hxi hyi,
    fun g sat hg => ⟨fun hxf => cvtElem_fin sat hf hg hxf, fun hn => cvtElem_nan sat hf hg hn⟩,
    fun g sat hg => ⟨fun hn => cvtElem_nan_int sat hf hg hn, fun hxf => cvtElem_fin_int sat hf hg hxf⟩,
    fun g sat z hg hz => cvtElem_int_float sat hf hg hz⟩
  obtain ⟨hadd, hsub, hmul, hmax, hmin, heq, hlt, hle⟩ := float_of_nan hf hn
  exact ⟨hadd, hsub, hmul, hmax, hmin, fmaE_of_nan hf (.inr hn) _, fmaE_of_nan hf (.inr hn) _, heq, hlt, hle⟩
end Sys2Proof.Proofs
end

section
/-! SUPPORT. Meanings that look over their sources and read them: where they stop before they do anything else. -/
namespace Sys2Proof.Proofs
open Sys2Proof.Machine Sys2Proof.Safety Sys2Proof.Laws

/-! The ways in which a register cannot be read. -/

@[simp] theorem invalid_mark (s : State) (m : Mark) (r : Reg) : Invalid { s with mark := m } r ↔ Invalid s r := Iff.rfl
@[simp] theorem owed_mark (s : State) (m : Mark) (r : Reg) : Owed { s with mark := m } r ↔ Owed s r := Iff.rfl
@[simp] theorem short_mark (s : State) (m : Mark) (r : Reg) : Short { s with mark := m } r ↔ Short s r := Iff.rfl

theorem not_invalid_zero (s : State) : ¬Invalid s 0 := fun h => h.1 rfl
theorem not_invalid_of_valid {s : State} {r : Reg} (hv : s.me.valid.getLsbD r.val = true) : ¬Invalid s r :=
  fun h => Bool.noConfusion (hv.symm.trans h.2)
theorem not_invalid_of_ready {s : State} {r : Reg} : Ready s r → ¬Invalid s r
  | .inl h => h ▸ not_invalid_zero s
  | .inr h => not_invalid_of_valid h.1
theorem not_invalid_of_owed {s : State} {r : Reg} (h : Owed s r) : ¬Invalid s r := not_invalid_of_valid h.2.1
theorem not_invalid_of_short {s : State} {r : Reg} (h : Short s r) : ¬Invalid s r := not_invalid_of_valid h.2.1

theorem rdG_of_invalid {s : State} {r : Reg} (h : Invalid s r) : rdG r s = .error (.trap 0x03 (BitVec.ofNat 64 r.val)) s :=
  rdG_invalid h.1 h.2
theorem rdG_of_owed {s : State} {r : Reg} (h : Owed s r) : rdG r s = .error .stall s := rdG_pending h.1 h.2.1 h.2.2
theorem rdG_of_short {s : State} {r : Reg} (h : Short s r) : rdG r s = .error (.trap 0x06 (BitVec.ofNat 64 r.val)) s :=
  rdG_short h.1 h.2.1 h.2.2.1 h.2.2.2.1 h.2.2.2.2

theorem invalid_iff (s : State) (r : Reg) : (r != 0 && !s.me.valid.getLsbD r.val) = true ↔ Invalid s r := by simp [Invalid]

/-- A read changes nothing, whether it gives a value or stops. -/
theorem rdG_cases (s : State) (r : Reg) : (∃ x, rdG r s = .ok x s) ∨ ∃ e, rdG r s = .error e s := by
  by_cases hr : r = 0
  · exact .inl ⟨_, rdG_ready (.inl hr)⟩
  cases hv : s.me.valid.getLsbD r.val
  · exact .inr ⟨_, rdG_invalid hr hv⟩
  cases hp : s.me.pendingG r
  · by_cases hs : s.me.chk = true ∧ s.me.lateG r ≠ none
    · exact .inr ⟨_, rdG_short hr hv hp hs.1 hs.2⟩
    · refine .inl ⟨_, rdG_ready (.inr ⟨hv, hp, ?_⟩)⟩
      cases hc : s.me.chk
      · exact .inl rfl
      · exact .inr (not_not.1 fun hl => hs ⟨hc, hl⟩)
  · exact .inr ⟨_, rdG_pending hr hv hp⟩

/-- The first invalid register of a list is the one that is reported. -/
theorem sources_first {s : State} {l₁ l₂ : List Reg} {r : Reg} (h₁ : ∀ q ∈ l₁, ¬Invalid s q) (hr : Invalid s r) :
    sources (l₁ ++ r :: l₂) s = .error (.trap 0x03 (BitVec.ofNat 64 r.val)) s := by
  have hnone : l₁.find? (fun q => q != 0 && !s.me.valid.getLsbD q.val) = none :=
    List.find?_eq_none.2 fun q hq => (invalid_iff s q).not.2 (h₁ q hq)
  have hfirst : (r :: l₂).find? (fun q => q != 0 && !s.me.valid.getLsbD q.val) = some r := List.find?_cons_of_pos ((invalid_iff s r).2 hr)
  rw [sources_run, List.find?_append, hnone, Option.none_or, hfirst]
theorem sources_pass {s : State} {l : List Reg} (h : ∀ q ∈ l, ¬Invalid s q) : sources l s = .ok () s := by
  rw [sources_run, List.find?_eq_none.2 fun q hq => (invalid_iff s q).not.2 (h q hq)]

/-! Meanings that begin with their sources. -/

/-- Reads registers in their order, for their stops alone. -/
def readAll : List Reg → M Unit
  | [] => pure ()
  | r :: rs => do let _ ← rdG r; readAll rs

theorem readAll_stops {s : State} {l₁ l₂ : List Reg} {r : Reg} {e : Stop} (h₁ : ∀ q ∈ l₁, Ready s q) (hr : rdG r s = .error e s) :
    readAll (l₁ ++ r :: l₂) s = .error e s := by
  induction l₁ with
  | nil => exact bind_error hr
  | cons q l ih =>
    obtain ⟨hq, hl⟩ := List.forall_mem_cons.1 h₁
    exact (bind_ok (rdG_ready hq)).trans (ih hl)

/-- A meaning that looks over the registers `l` and then reads `rs`, in this order, before anything else can stop it. -/
def Reads {α : Type} (s : State) (m : M α) (l rs : List Reg) : Prop :=
  ∀ e, (do sources l; readAll rs : M Unit) s = .error e s → m s = .error e s

theorem Reads.bind {α β : Type} {s : State} {m : M α} {l rs : List Reg} (h : Reads s m l rs) {f : α → M β} : Reads s (m >>= f) l rs :=
  fun e he => bind_error (h e he)
theorem Reads.of_eq {α : Type} {s : State} {m : M α} {a : Reg} {f : Word → M α} (h : m s = (rdG a >>= f) s) : Reads s m [] [a] := fun e he => by
  rw [h]
  rcases rdG_cases s a with ⟨x, hx⟩ | ⟨e', hx⟩
  · exact nomatch (bind_ok hx).symm.trans he
  · cases (bind_error hx).symm.trans he
    exact bind_error hx
theorem Reads.nil {α : Type} {s : State} {m : M α} : Reads s m [] [] := fun _ he => nomatch he
theorem Reads.cons {α : Type} {s : State} {f : Word → M α} {r : Reg} {rs : List Reg} (h : ∀ x, Reads s (f x) [] rs) :
    Reads s (rdG r >>= f) [] (r :: rs) := fun e he => by
  replace he : (rdG r >>= fun _ => readAll rs) s = .error e s := he
  rcases rdG_cases s r with ⟨x, hx⟩ | ⟨e', hx⟩
  · rw [bind_ok hx] at he ⊢
    exact h x e he
  · rw [bind_error hx] at he ⊢
    cases he
    rfl
theorem Reads.checked {α : Type} {s : State} {m : M α} {l rs : List Reg} (h : Reads s m [] rs) :
    Reads s (do sources l; m) l rs := fun e he => by
  rw [bind_run, sources_run] at he ⊢
  split at he
  · rename_i hr
    split at hr <;> cases hr
    exact h e he
  · cases he
    rfl

/-- The g0 in a list of sources is never the one at fault. -/
theorem Reads.zero {α : Type} {s : State} {m : M α} {l rs : List Reg} (h : Reads s m l rs) : Reads s m (l ++ [0]) rs := fun e he => h e (by
  rw [← he, bind_run, bind_run, sources_run, sources_run, List.find?_append]
  simp)

/-! Syllables that do so. -/

/-- The syllable's meaning looks over the registers `l` and reads `rs` first. -/
def ReadsBy (s : State) (i : Instr) (k : BitVec 2) (l rs : List Reg) : Prop :=
  ∃ m, exec i s = runSyl k m s ∧ Reads { s with mark := .ok } m l rs

section
variable {s : State} {i : Instr} {k : BitVec 2} {l rs : List Reg}

theorem ReadsBy.invalid {l₁ l₂ : List Reg} {r : Reg} (h : ReadsBy s i k (l₁ ++ r :: l₂) rs) (h₁ : ∀ q ∈ l₁, ¬Invalid s q)
    (hr : Invalid s r) : exec i s = .next (trapped s k 0x03 (BitVec.ofNat 64 r.val)) := by
  obtain ⟨m, he, hm⟩ := h
  exact he.trans (runSyl_trap (hm _ (bind_error (sources_first (s := { s with mark := .ok }) h₁ hr))))

/-- What a syllable's meaning leaves where the first register that it cannot read is `r`. -/
theorem ReadsBy.stops {l₁ l₂ : List Reg} {r : Reg} {e : Stop} (h : ReadsBy s i k l (l₁ ++ r :: l₂)) (hl : ∀ q ∈ l, ¬Invalid s q)
    (h₁ : ∀ q ∈ l₁, Ready s q) (hr : rdG r { s with mark := .ok } = .error e { s with mark := .ok }) :
    ∃ m : M Unit, exec i s = runSyl k m s ∧ m { s with mark := .ok } = .error e { s with mark := .ok } := by
  obtain ⟨m, he, hm⟩ := h
  exact ⟨m, he, hm e ((bind_ok (sources_pass (s := { s with mark := .ok }) hl)).trans (readAll_stops h₁ hr))⟩
theorem ReadsBy.owed {l₁ l₂ : List Reg} {r : Reg} (h : ReadsBy s i k l (l₁ ++ r :: l₂)) (hl : ∀ q ∈ l, ¬Invalid s q)
    (h₁ : ∀ q ∈ l₁, Ready s q) (hr : Owed s r) : exec i s = .next { s with mark := .stall } := by
  obtain ⟨m, he, hm⟩ := h.stops hl h₁ (rdG_of_owed hr)
  exact he.trans (runSyl_stall hm)
theorem ReadsBy.short {l₁ l₂ : List Reg} {r : Reg} (h : ReadsBy s i k l (l₁ ++ r :: l₂)) (hl : ∀ q ∈ l, ¬Invalid s q)
    (h₁ : ∀ q ∈ l₁, Ready s q) (hr : Short s r) : exec i s = .next (trapped s k 0x06 (BitVec.ofNat 64 r.val)) := by
  obtain ⟨m, he, hm⟩ := h.stops hl h₁ (rdG_of_short hr)
  exact he.trans (runSyl_trap hm)

/-- The traps and waits of a syllable that reads one register before anything else. -/
theorem ReadsBy.one {a : Reg} {rs : List Reg} (h : ReadsBy s i k [] (a :: rs)) :
    (Invalid s a → exec i s = .next (trapped s k 0x03 (BitVec.ofNat 64 a.val))) ∧
    (Owed s a → exec i s = .next { s with mark := .stall }) ∧
    (Short s a → exec i s = .next (trapped s k 0x06 (BitVec.ofNat 64 a.val))) := by
  refine ⟨fun ha => ?_, h.owed (l₁ := []) (by simp) (by simp), h.short (l₁ := []) (by simp) (by simp)⟩
  obtain ⟨m, he, hm⟩ := h.stops (l₁ := []) (by simp) (by simp) (rdG_of_invalid ha)
  exact he.trans (runSyl_trap hm)

theorem ReadsBy.first {a : Reg} (h : ReadsBy s i k l (a :: rs)) (hl : ∀ q ∈ l, ¬Invalid s q) :
    (Owed s a → exec i s = .next { s with mark := .stall }) ∧ (Short s a → exec i s = .next (trapped s k 0x06 (BitVec.ofNat 64 a.val))) :=
  ⟨h.owed (l₁ := []) hl (by simp), h.short (l₁ := []) hl (by simp)⟩
theorem ReadsBy.second {a b : Reg} (h : ReadsBy s i k l (a :: b :: rs)) (hl : ∀ q ∈ l, ¬Invalid s q) (ha : Ready s a) :
    (Owed s b → exec i s = .next { s with mark := .stall }) ∧ (Short s b → exec i s = .next (trapped s k 0x06 (BitVec.ofNat 64 b.val))) :=
  ⟨h.owed (l₁ := [a]) hl (by simpa using ha), h.short (l₁ := [a]) hl (by simpa using ha)⟩
theorem ReadsBy.third {a b c : Reg} (h : ReadsBy s i k l (a :: b :: c :: rs)) (hl : ∀ q ∈ l, ¬Invalid s q) (ha : Ready s a) (hb : Ready s b) :
    (Owed s c → exec i s = .next { s with mark := .stall }) ∧ (Short s c → exec i s = .next (trapped s k 0x06 (BitVec.ofNat 64 c.val))) :=
  ⟨h.owed (l₁ := [a, b]) hl (by simp [ha, hb]), h.short (l₁ := [a, b]) hl (by simp [ha, hb])⟩

end

/-! Syllables that end with a register's write. -/

/-- The syllable's meaning comes to the write of a register, with nothing else changed. -/
def WritesBy (s : State) (i : Instr) (d : Reg) (lat : Nat) : Prop :=
  ∃ m v, exec i s = runSyl 1 m s ∧ m { s with mark := .ok } = wrG d v lat false { s with mark := .ok }

section
variable {s : State} {i : Instr} {d : Reg} {lat : Nat}

theorem WritesBy.zero (h : WritesBy s i d lat) (hd : d = 0) : exec i s = .next { s with mark := .ok } := by
  obtain ⟨m, v, he, hm⟩ := h
  subst hd
  exact he.trans (runSyl_ok hm)
theorem WritesBy.pending (h : WritesBy s i d lat) (hd : d ≠ 0) (hp : s.me.pendingG d = true) : exec i s = .next { s with mark := .stall } := by
  obtain ⟨m, v, he, hm⟩ := h
  exact he.trans (runSyl_stall (hm.trans (bind_error (destG_pending _ hd hp))))
theorem WritesBy.later {n : Nat} (h : WritesBy s i d lat) (hd : d ≠ 0) (hp : s.me.pendingG d = false) (hn : s.me.lateG d = some n)
    (hlat : s.me.cycle + lat < n) : exec i s = .next { s with mark := .stallTo n } := by
  obtain ⟨m, v, he, hm⟩ := h
  exact he.trans (runSyl_stallTo (hm.trans (bind_error (destG_later (s := { s with mark := .ok }) hd hp hn hlat))))

end

end Sys2Proof.Proofs
end

section
/-! Invalid, owed and late registers of the integer syllables (R71 to R74, R226, R244). -/
namespace Sys2Proof.Proofs
open Sys2Proof.Machine Sys2Proof.Safety Sys2Proof.Laws

/-! The integer syllables by their shapes. -/

def integerOne (d a : Reg) (imm : BitVec 14) (n6 : BitVec 6) (n7 : BitVec 7) : List Instr :=
  [.clz d a, .ctz d a, .popc d a, .mov d a, .sext d a n7, .zext d a n7, .shli d a n6, .shri d a n6, .sari d a n6,
    .addi d a imm, .andi d a imm, .ori d a imm, .xori d a imm, .cmpiEq d a imm, .cmpiLt d a imm, .cmpiLtu d a imm]
def integerTwo (d a b : Reg) (sh : BitVec 3) : List Instr :=
  [.add d a b, .sub d a b, .and d a b, .or d a b, .xor d a b, .andn d a b, .orn d a b, .shl d a b, .shr d a b, .sar d a b, .rotl d a b,
    .min d a b, .max d a b, .minu d a b, .maxu d a b, .cmpEq d a b, .cmpNe d a b, .cmpLt d a b, .cmpLtu d a b, .cmpLe d a b,
    .cmpLeu d a b, .bext d a b, .lea d a b sh]
def integerSlow (d a b : Reg) : List Instr := [.mul d a b, .mulh d a b, .mulhu d a b]
def integerDivision (d a b : Reg) : List Instr := [.div d a b, .divu d a b, .rem d a b, .remu d a b]

variable (s : State) (d a b c : Reg) (imm : BitVec 14) (n6 : BitVec 6) (n7 : BitVec 7) (sh : BitVec 3)

theorem integerOne_shape : ∀ i ∈ integerOne d a imm n6 n7, ∃ f, exec i s = runSyl 1 (int1 f d a) s := by
  simp only [integerOne, List.forall_mem_cons]
  and_intros
  on_goal 17 => simp
  all_goals exact ⟨_, rfl⟩
theorem integerTwo_shape : ∀ i ∈ integerTwo d a b sh, ∃ f, exec i s = runSyl 1 (int2 f 1 d a b) s := by
  simp only [integerTwo, List.forall_mem_cons]
  and_intros
  on_goal 24 => simp
  all_goals exact ⟨_, rfl⟩
theorem integerSlow_shape : ∀ i ∈ integerSlow d a b, ∃ f, exec i s = runSyl 1 (int2 f 3 d a b) s := by
  simp only [integerSlow, List.forall_mem_cons]
  exact ⟨⟨_, rfl⟩, ⟨_, rfl⟩, ⟨_, rfl⟩, by simp⟩
theorem integerDivision_shape : ∀ i ∈ integerDivision d a b, ∃ f, exec i s = runSyl 1 (intDiv f d a b) s := by
  simp only [integerDivision, List.forall_mem_cons]
  exact ⟨⟨_, rfl⟩, ⟨_, rfl⟩, ⟨_, rfl⟩, ⟨_, rfl⟩, by simp⟩

theorem Reads.two {α : Type} {t : State} {a b : Reg} {f : Word → Word → M α} :
    Reads t (do sources [a, b]; let x ← rdG a; let y ← rdG b; f x y) [a, b] [a, b] :=
  .checked (.cons fun _ => .cons fun _ => .nil)
theorem Reads.three {α : Type} {t : State} {a b c : Reg} {f : Word → Word → Word → M α} :
    Reads t (do sources [a, b, c]; let x ← rdG a; let y ← rdG b; let z ← rdG c; f x y z) [a, b, c] [a, b, c] :=
  .checked (.cons fun _ => .cons fun _ => .cons fun _ => .nil)

theorem integerOne_readsBy : ∀ i ∈ integerOne d a imm n6 n7, ReadsBy s i 1 [] [a] := fun i hi => by
  obtain ⟨f, he⟩ := integerOne_shape s d a imm n6 n7 i hi
  exact ⟨_, he, .cons fun _ => .nil⟩
theorem integerTwo_readsBy : ∀ i ∈ integerTwo d a b sh ++ integerSlow d a b ++ integerDivision d a b, ReadsBy s i 1 [a, b] [a, b] := by
  simp only [List.forall_mem_append]
  refine ⟨⟨fun i hi => ?_, fun i hi => ?_⟩, fun i hi => ?_⟩
  · obtain ⟨f, he⟩ := integerTwo_shape s d a b sh i hi
    exact ⟨_, he, .two⟩
  · obtain ⟨f, he⟩ := integerSlow_shape s d a b i hi
    exact ⟨_, he, .two⟩
  · obtain ⟨f, he⟩ := integerDivision_shape s d a b i hi
    exact ⟨_, he, .two⟩

theorem sel_readsBy : ReadsBy s (.sel d a b c) 1 [a, b, c] [a, b, c] := ⟨_, rfl, .three⟩
theorem bins_readsBy : ReadsBy s (.bins d a b) 1 [a, b, d] [a, b, d] := ⟨_, rfl, .three⟩

variable {s d a b c}

theorem int2_run {f : Word → Word → Word} {lat : Nat} (ha : Ready s a) (hb : Ready s b) :
    int2 f lat d a b s = wrG d (f (s.me.reg a) (s.me.reg b)) lat false s := by
  unfold int2
  rw [bind_ok (sources_ready (by simp [ha, hb])), bind_ok (rdG_ready ha), bind_ok (rdG_ready hb)]

theorem integerShort_writesBy (ha : Ready s a) (hb : Ready s b) :
    ∀ i ∈ integerOne d a imm n6 n7 ++ integerTwo d a b sh, WritesBy s i d 1 := by
  simp only [List.forall_mem_append]
  refine ⟨fun i hi => ?_, fun i hi => ?_⟩
  · obtain ⟨f, he⟩ := integerOne_shape s d a imm n6 n7 i hi
    exact ⟨_, _, he, bind_ok (rdG_ready (s := { s with mark := .ok }) ha)⟩
  · obtain ⟨f, he⟩ := integerTwo_shape s d a b sh i hi
    exact ⟨_, _, he, int2_run (s := { s with mark := .ok }) ha hb⟩
theorem integerSlow_writesBy (ha : Ready s a) (hb : Ready s b) : ∀ i ∈ integerSlow d a b, WritesBy s i d 3 := fun i hi => by
  obtain ⟨f, he⟩ := integerSlow_shape s d a b i hi
  exact ⟨_, _, he, int2_run (s := { s with mark := .ok }) ha hb⟩
theorem readThree_run {α : Type} {f : Word → Word → Word → M α} (ha : Ready s a) (hb : Ready s b) (hc : Ready s c) :
    (do sources [a, b, c]; let x ← rdG a; let y ← rdG b; let z ← rdG c; f x y z) s = f (s.me.reg a) (s.me.reg b) (s.me.reg c) s := by
  rw [bind_ok (sources_ready (by simp [ha, hb, hc])), bind_ok (rdG_ready ha), bind_ok (rdG_ready hb), bind_ok (rdG_ready hc)]
theorem sel_writesBy (ha : Ready s a) (hb : Ready s b) (hc : Ready s c) : WritesBy s (.sel d a b c) d 1 :=
  ⟨_, _, rfl, readThree_run (s := { s with mark := .ok }) ha hb hc⟩
theorem bins_writesBy (ha : Ready s a) (hb : Ready s b) (hd : Ready s d) : WritesBy s (.bins d a b) d 1 :=
  ⟨_, _, rfl, readThree_run (s := { s with mark := .ok }) ha hb hd⟩

/-- A division waits for the divider before it looks at its destination (R244). -/
theorem intDiv_run (f : Word → Word → Word) (ha : Ready s a) (hb : Ready s b) :
    intDiv f d a b s = (if s.me.wq.any (fun w => w.div) then .error .stall s else wrG d (f (s.me.reg a) (s.me.reg b)) 20 true s) := by
  unfold intDiv divFree
  rw [bind_ok (sources_ready (by simp [ha, hb])), bind_ok (rdG_ready ha), bind_ok (rdG_ready hb)]
  simp only [bind_run, gets_run, await_run]
  cases s.me.wq.any fun w => w.div <;> rfl

theorem division_registers (ha : Ready s a) (hb : Ready s b) : ∀ i ∈ integerDivision d a b,
    let busy := s.me.wq.any fun w => w.div
    (busy = true → exec i s = .next { s with mark := .stall }) ∧
    (busy = false →
      (d = 0 → exec i s = .next (inFlight { s with mark := .ok } .nothing (some 20) false true false)) ∧
      (d ≠ 0 → s.me.pendingG d = true → exec i s = .next { s with mark := .stall }) ∧
      (d ≠ 0 → s.me.pendingG d = false → ∀ n, s.me.lateG d = some n → s.me.cycle + 20 < n →
        exec i s = .next { s with mark := .stallTo n })) := fun i hi => by
  obtain ⟨f, he⟩ := integerDivision_shape s d a b i hi
  have hrun := intDiv_run (s := { s with mark := .ok }) (d := d) f ha hb
  rw [he]
  refine ⟨fun hbusy => runSyl_stall (hrun.trans (if_pos hbusy)), fun hfree => ?_⟩
  replace hrun := hrun.trans (if_neg (Bool.eq_false_iff.1 hfree))
  refine ⟨fun hd => ?_, fun hd hp => ?_, fun hd hp n hn hlat => ?_⟩
  · subst hd
    exact runSyl_ok hrun
  · exact runSyl_stall (hrun.trans (bind_error (destG_pending _ hd hp)))
  · exact runSyl_stallTo (hrun.trans (bind_error (destG_later (s := { s with mark := .ok }) hd hp hn hlat)))

theorem integerRegisters : Claims.IntegerRegisters := by
  intro s d a b c imm n6 n7 sh one two slow division three traps waits
  have hpair : ∀ {p q : Reg}, ¬Invalid s p → ¬Invalid s q → ∀ r ∈ [p, q], ¬Invalid s r := fun hp hq => by simp [hp, hq]
  have htriple : ∀ {p q r : Reg}, ¬Invalid s p → ¬Invalid s q → ¬Invalid s r → ∀ t ∈ [p, q, r], ¬Invalid s t := fun hp hq hr => by
    simp [hp, hq, hr]
  have hslow : Ready s a → Ready s b → ∀ i ∈ slow, WritesBy s i d 3 := integerSlow_writesBy
  have hshort : Ready s a → Ready s b → ∀ i ∈ one ++ two, WritesBy s i d 1 := integerShort_writesBy imm n6 n7 sh
  have hall : Ready s a → Ready s b → ∀ i ∈ one ++ two ++ slow, ∃ lat, WritesBy s i d lat := fun ha hb => by
    rw [List.forall_mem_append]
    exact ⟨fun i hi => ⟨1, hshort ha hb i hi⟩, fun i hi => ⟨3, hslow ha hb i hi⟩⟩
  refine ⟨fun i hi => (integerOne_readsBy s d a imm n6 n7 i hi).one, fun i hi => ?_, ?_, fun ha hb i hi => ?_, fun ha hb hc => ?_,
    fun ha hb hd hp n hn => ⟨fun hlat i hi => (hshort ha hb i hi).later hd hp hn hlat, fun hlat i hi => (hslow ha hb i hi).later hd hp hn hlat⟩,
    division_registers⟩
  · have h := integerTwo_readsBy s d a b sh i hi
    exact ⟨h.invalid (l₁ := []) (by simp), fun ha => h.invalid (l₁ := [a]) (by simpa using ha),
      fun hb ho => (h.first (hpair (not_invalid_of_owed ho) hb)).1 ho, fun hb hs => (h.first (hpair (not_invalid_of_short hs) hb)).2 hs,
      fun ha => ⟨fun ho => (h.second (hpair (not_invalid_of_ready ha) (not_invalid_of_owed ho)) ha).1 ho,
        fun hs => (h.second (hpair (not_invalid_of_ready ha) (not_invalid_of_short hs)) ha).2 hs⟩⟩
  · have hread : ∀ i ∈ three, ReadsBy s i.1 1 [a, b, i.2] [a, b, i.2] := by
      simp only [three, List.forall_mem_cons]
      exact ⟨sel_readsBy s d a b c, bins_readsBy s d a b, by simp⟩
    have hwrite : ∀ i ∈ three, Ready s a → Ready s b → Ready s i.2 → WritesBy s i.1 d 1 := by
      simp only [three, List.forall_mem_cons]
      exact ⟨sel_writesBy, bins_writesBy, by simp⟩
    intro i hi
    have h := hread i hi
    refine ⟨h.invalid (l₁ := []) (by simp), fun ha => h.invalid (l₁ := [a]) (by simpa using ha),
      fun ha hb => h.invalid (l₁ := [a, b]) (hpair ha hb), fun hb hc => ?_, fun ha hc => ?_, fun ha hb => ?_,
      fun ha hb hc n hd hp hn hlat => (hwrite i hi ha hb hc).later hd hp hn hlat⟩
    · exact ⟨fun ho => (h.first (htriple (not_invalid_of_owed ho) hb hc)).1 ho,
        fun hs => (h.first (htriple (not_invalid_of_short hs) hb hc)).2 hs⟩
    · have ha' := not_invalid_of_ready ha
      exact ⟨fun ho => (h.second (htriple ha' (not_invalid_of_owed ho) hc) ha).1 ho,
        fun hs => (h.second (htriple ha' (not_invalid_of_short hs) hc) ha).2 hs⟩
    · have ha' := not_invalid_of_ready ha
      have hb' := not_invalid_of_ready hb
      exact ⟨fun ho => (h.third (htriple ha' hb' (not_invalid_of_owed ho)) ha hb).1 ho,
        fun hs => (h.third (htriple ha' hb' (not_invalid_of_short hs)) ha hb).2 hs⟩
  · obtain ⟨lat, h⟩ := hall ha hb i hi
    exact ⟨h.zero, h.pending⟩
  · have h := sel_writesBy ha hb hc (d := d)
    exact ⟨h.zero, h.pending⟩

end Sys2Proof.Proofs
end

section
/-! Invalid, owed and late sources of the control syllables (R71 to R74, R226). -/
namespace Sys2Proof.Proofs
open Sys2Proof.Machine Sys2Proof.Safety Sys2Proof.Laws

section
variable {s : State} {i : Instr} {l rs : List Reg} {m : M Unit}

theorem readsBy_of (h : Reads { s with mark := .ok } m l rs) (he : exec i s = runSyl 0 m s) : ReadsBy s i 0 l rs := ⟨m, he, h⟩

variable (s) (d a b : Reg) (off : BitVec 15) (imm : BitVec 10) (sc : Scope) (z : Width)

/-- A meaning that begins with a read. -/
theorem Reads.first {α : Type} {t : State} {a : Reg} {f : Word → M α} : Reads t (rdG a >>= f) [] [a] := .cons fun _ => .nil

/-- Of these syllables each reads the register with its address, number or descriptor first. -/
theorem address_readsBy : ∀ i ∈ ([.brEqz a off, .brNez a off, .brLtz a off, .brGez a off, .jmpi a, .calli a, .launch d a, .cancelUnit a,
      .cancelLaunch a, .cancelGraph a, .ldB d a imm, .ldH d a imm, .ldW d a imm, .ldD d a imm, .ldBz d a imm, .ldHz d a imm,
      .ldWz d a imm, .ldcW d a imm, .ldcD d a imm, .ldAcqW d a sc, .ldAcqD d a sc, .discard a sc, .flush a sc, .pref a imm,
      .barArr d a, .barSync a, .flagSet a, .flagClr a, .flagWait a, .recv d a, .recvPoll d a, .wait a, .runCommit d a, .runAbort a,
      .acceptEq a] : List Instr), ReadsBy s i 0 [] [a] := by
  simp only [List.forall_mem_cons]
  exact ⟨readsBy_of .first rfl, readsBy_of .first rfl, readsBy_of .first rfl, readsBy_of .first rfl,
    readsBy_of (.bind .first) rfl, readsBy_of (.bind .first) rfl, readsBy_of .first rfl, readsBy_of .first rfl,
    readsBy_of .first rfl, readsBy_of .first rfl, readsBy_of (.bind .first) rfl, readsBy_of (.bind .first) rfl,
    readsBy_of (.bind .first) rfl, readsBy_of (.bind .first) rfl, readsBy_of (.bind .first) rfl, readsBy_of (.bind .first) rfl,
    readsBy_of (.bind .first) rfl, readsBy_of (.bind .first) rfl, readsBy_of (.bind .first) rfl, readsBy_of .first rfl,
    readsBy_of .first rfl, readsBy_of .first rfl, readsBy_of .first rfl, readsBy_of (.bind .first) rfl,
    readsBy_of (.bind .first) rfl, readsBy_of (.bind .first) rfl, readsBy_of (.bind .first) rfl, readsBy_of (.bind .first) rfl,
    readsBy_of (.bind .first) rfl, readsBy_of (.bind .first) rfl, readsBy_of (.bind .first) rfl, readsBy_of .first rfl,
    readsBy_of (.bind .first) rfl, readsBy_of (.bind .first) rfl, readsBy_of .first rfl, by simp⟩

/-- Of these syllables each looks over its sources, of which the first listed is read first. -/
theorem several_readsBy : ∀ e ∈ ([(.vsend a b, a, b, 0), (.stB d a imm, a, d, 0), (.stH d a imm, a, d, 0),
      (.stW d a imm, a, d, 0), (.stD d a imm, a, d, 0), (.stRelW d a sc, a, d, 0), (.stRelD d a sc, a, d, 0),
      (.amoAdd z sc d a b, a, b, 0), (.amoMin z sc d a b, a, b, 0), (.amoMax z sc d a b, a, b, 0), (.amoMinu z sc d a b, a, b, 0),
      (.amoMaxu z sc d a b, a, b, 0), (.amoAnd z sc d a b, a, b, 0), (.amoOr z sc d a b, a, b, 0), (.amoXor z sc d a b, a, b, 0),
      (.amoSwap z sc d a b, a, b, 0), (.cas z sc d a b, a, b, d), (.cntAdd d a b, a, b, 0), (.cntWait a b, a, b, 0),
      (.acceptTol a b, a, b, 0), (.spawn d a b, d, a, b)] : List (Instr × Reg × Reg × Reg)),
    ReadsBy s e.1 0 [e.2.1, e.2.2.1, e.2.2.2] [e.2.1] := by
  have hfirst : ∀ {i : Instr} {p q : Reg} {f : Word → M Unit}, exec i s = runSyl 0 (do sources [p, q]; let x ← rdG p; f x) s →
      ReadsBy s i 0 [p, q, 0] [p] := fun he => readsBy_of (.zero (.checked .first)) he
  have hstore : ∀ {i : Instr} {p q : Reg} {n : Nat} {f : Word → M Unit},
      exec i s = runSyl 0 (do sources [p, q]; let x ← addrOf p imm n; f x) s → ReadsBy s i 0 [p, q, 0] [p] :=
    fun he => readsBy_of (.zero (.checked (.bind .first))) he
  simp only [List.forall_mem_cons]
  exact ⟨hfirst rfl, hstore rfl, hstore rfl, hstore rfl, hstore rfl, hfirst rfl, hfirst rfl, hfirst rfl, hfirst rfl, hfirst rfl,
    hfirst rfl, hfirst rfl, hfirst rfl, hfirst rfl, hfirst rfl, hfirst rfl, readsBy_of (.checked .first) rfl, hfirst rfl, hfirst rfl,
    readsBy_of (.zero (.checked .first)) rfl, readsBy_of (.checked .first) rfl, by simp⟩

end

/-! Registers that a syllable looks at before it checks its sources. -/

theorem peekG_pending {s : State} {r : Reg} (hr : r ≠ 0) (hp : s.me.pendingG r = true) : peekG r s = .error .stall s := by
  unfold peekG
  rw [bind_ok (gets_run _ _), if_neg hr, bind_error (await_false (by simp [hp]) _)]
theorem peekG_invalid {s : State} {r : Reg} (h : Invalid s r) (hp : s.me.pendingG r = false) : peekG r s = .ok none s := by
  unfold peekG
  rw [bind_ok (gets_run _ _), if_neg h.1, bind_ok (await_true (by simp [hp]) _), h.2]
  rfl

section
variable {s : State} {a b : Reg}

/-- The second of two sources is reported where the first is valid. -/
theorem sources_second {f : Unit → M Unit} (ha : ¬Invalid s a) (hb : Invalid s b) :
    (sources [a, b] >>= f) s = .error (.trap 0x03 (BitVec.ofNat 64 b.val)) s :=
  bind_error (sources_first (l₁ := [a]) (by simpa using ha) hb)
theorem sources_head {l : List Reg} {f : Unit → M Unit} (ha : Invalid s a) :
    (sources (a :: l) >>= f) s = .error (.trap 0x03 (BitVec.ofNat 64 a.val)) s :=
  bind_error (sources_first (l₁ := []) (by simp) ha)

/-- A destination without reserved bits, or an invalid register with it, brings SEND to its sources. -/
theorem send_sources {v : Option Word} (hv : peekG a s = .ok v s) (hbits : bitsOf (v.getD 0).toNat 63 16 = 0) {e : Stop}
    (he : sources [a, b] s = .error e s) : send a b s = .error e s := by
  unfold send
  rw [bind_ok hv]
  simp only [bind_run, hbits, bne_self_eq_false, Bool.false_eq_true, if_false, he]
/-- The same of BAR.WAIT and its descriptor. -/
theorem barWait_sources {v : Option Word} (hv : peekG a s = .ok v s) (hhigh : bitsOf (v.getD 0).toNat 63 43 = 0)
    (hlow : bitsOf (v.getD 0).toNat 7 5 = 0) {e : Stop} (he : sources [a, b] s = .error e s) : barWait a b s = .error e s := by
  unfold barWait barBits
  rw [bind_ok hv]
  simp only [bind_run, hhigh, hlow, bne_self_eq_false, Bool.or_self, Bool.false_eq_true, if_false, pure_run, he]
/-- The same of FLOW.REQ, whose zone and share are looked at, at supervisor level. -/
theorem flowReq_sources {v w : Option Word} (hv : peekG a s = .ok v s) (hw : peekG b s = .ok w s)
    (hzone : bitsOf (v.getD 0).toNat 63 8 = 0) (hshare : bitsOf (w.getD 0).toNat 63 16 = 0) (hpriv : s.me.priv = true) {e : Stop}
    (he : sources [a, b] s = .error e s) : flowReq a b s = .error e s := by
  unfold flowReq
  rw [bind_ok hv, bind_ok hw]
  simp only [bind_run, hzone, hshare, bne_self_eq_false, Bool.or_self, Bool.false_eq_true, if_false, needPriv_run, hpriv, if_true, he]
theorem suspend_pending {imm : BitVec 10} (ha : a ≠ 0) (hp : s.me.pendingG a = true) : suspend a imm s = .error .stall s := by
  unfold suspend
  rw [bind_ok (immU_run _ _), bind_error (peekG_pending ha hp)]
/-- An invalid register keeps SUSPEND from nothing but the checks of its word. -/
theorem suspend_invalid {u : Running} {imm : BitVec 10} (hu : s.me.running = some u) (hp : s.me.pendingG a = false) (ha : Invalid s a)
    (hy : extU s imm < s.yieldCnt u.part u.image) : suspend a imm s = .error (.trap 0x03 (BitVec.ofNat 64 a.val)) s := by
  unfold suspend
  rw [bind_ok (immU_run _ _), bind_ok (peekG_invalid ha hp), bind_ok (get_run _)]
  simp only [hu, Option.map_none, Option.getD_none, bind_run, need_run, hy, decide_true, if_true, rdG_of_invalid ha]
theorem mts_pending {num : BitVec 15} {r : SysReg} (hr : SysReg.ofNum num.toNat = some r) (ha : a ≠ 0) (hp : s.me.pendingG a = true) :
    mts num a s = .error .stall s := by
  unfold mts
  simp only [hr, bind_run, peekG_pending ha hp]
theorem mts_invalid {num : BitVec 15} {r : SysReg} (hr : SysReg.ofNum num.toNat = some r) (hw : r.writeLevel ≠ none)
    (hpriv : r.writeLevel = some true → s.me.priv = true) (hp : s.me.pendingG a = false) (ha : Invalid s a) :
    mts num a s = .error (.trap 0x03 (BitVec.ofNat 64 a.val)) s := by
  unfold mts
  simp only [hr, bind_run, peekG_invalid ha hp, get_run]
  rcases hl : r.writeLevel with _ | super
  · exact absurd hl hw
  · have hlevel : (!super || s.me.priv) = true := by
      cases super
      · rfl
      · exact hpriv hl
    simp only [need_run, hlevel, if_true, rdG_of_invalid ha]
/-- RUN.BEGIN reads its register once the entry that it names stands in the image. -/
theorem runBegin_reads {d : Reg} {imm : BitVec 10} {u : Running} (hu : s.me.running = some u)
    (hentry : s.runEntry u.part u.image (extU s imm) ≠ none) : Reads s (runBegin d a imm) [] [a] := by
  obtain ⟨⟨iter, guess, size, k, yield⟩, hk⟩ := Option.ne_none_iff_exists'.1 hentry
  refine .of_eq (f := ?f) ?eq
  case eq =>
    unfold runBegin
    rw [bind_ok (immU_run _ _), bind_ok (get_run _)]
    simp only [hu, hk]
    rfl
theorem cancelCounterM_reads {kind : Nat} {f : State → Nat → Nat → State} (hpriv : s.me.priv = true) :
    Reads s (cancelCounterM a true kind f) [] [a] := by
  refine .of_eq (f := ?f) ?eq
  case eq =>
    unfold cancelCounterM
    rw [if_pos rfl, bind_ok ((needPriv_run _ _).trans (if_pos hpriv))]

end

/-- What the bits of a small number are above it. -/
theorem bitsOf_of_lt {v lo : Nat} (hi : Nat) (h : v < 2 ^ lo) : bitsOf v hi lo = 0 := by
  unfold bitsOf
  rw [Nat.div_eq_of_lt h, Nat.zero_mod]

theorem controlRegisters : Claims.ControlRegisters := by
  intro s d a b off imm num sc z row address several traps waits plain x
  have hstall : ∀ {i : Instr} {m : M Unit} {t : State}, exec i s = runSyl 0 m s → m { s with mark := .ok } = .error .stall t → waits i :=
    fun he hm => he.trans (runSyl_stall hm)
  have htrap : ∀ {i : Instr} {m : M Unit} {t : State} {code : Byte} {r : Reg}, exec i s = runSyl 0 m s →
      m { s with mark := .ok } = .error (.trap code (BitVec.ofNat 64 r.val)) t → traps i code r := fun he hm => he.trans (runSyl_trap hm)
  have hnone : ∀ hi lo, bitsOf ((none : Option Word).getD 0).toNat hi lo = 0 := fun hi lo => bitsOf_of_lt hi (Nat.two_pow_pos lo)
  have hsecond : ∀ {p q : Reg}, Ready s p → Invalid s q →
      sources [p, q] { s with mark := .ok } = .error (.trap 0x03 (BitVec.ofNat 64 q.val)) { s with mark := .ok } := fun {p q} hp hq =>
    sources_first (s := { s with mark := .ok }) (l₁ := [p]) (by simpa using not_invalid_of_ready hp) hq
  refine ⟨fun i hi => (address_readsBy s d a off imm sc i hi).one, fun hpriv => ⟨?_, ?_⟩, fun u hu hentry => ?_, fun e he => ?_,
    fun hd => ?_, fun hd ha => ?_, fun ha => ?_, fun ha hp => ⟨?_, ?_, ?_⟩, fun hp ha => ⟨?_, ?_⟩,
    fun ha hb => ⟨fun hx => ?_, fun hhigh hlow => ?_, fun hx hp hpriv => ?_⟩,
    fun hp ha hb hy hpriv => ?_, fun u hu => ⟨fun ha hp => ?_, fun hp ha hy => ?_⟩, fun r hr => ⟨fun hd hp => ?_, fun hw hpriv hp hd => ?_⟩⟩
  · exact (readsBy_of (cancelCounterM_reads hpriv) rfl).one
  · exact (readsBy_of (cancelCounterM_reads hpriv) rfl).one
  · exact (readsBy_of (runBegin_reads hu hentry) rfl).one
  · have h := several_readsBy s d a b imm sc z e he
    refine ⟨h.invalid (l₁ := []) (by simp), fun ha => h.invalid (l₁ := [_]) (by simpa using ha),
      fun ha hb => h.invalid (l₁ := [_, _]) (by simp [ha, hb]), fun hb hc => ⟨fun ho => (h.first ?_).1 ho, fun hs => (h.first ?_).2 hs⟩⟩
    · simp [not_invalid_of_owed ho, hb, hc]
    · simp [not_invalid_of_short hs, hb, hc]
  · exact htrap rfl (sources_head (s := { s with mark := .ok }) hd)
  · exact htrap rfl (sources_second (s := { s with mark := .ok }) hd ha)
  · exact htrap rfl (sources_head (s := { s with mark := .ok }) ha)
  · exact hstall rfl (bind_error (peekG_pending (s := { s with mark := .ok }) ha hp))
  · exact hstall rfl (bind_error (peekG_pending (s := { s with mark := .ok }) ha hp))
  · exact hstall rfl (bind_error (peekG_pending (s := { s with mark := .ok }) ha hp))
  · exact htrap rfl (send_sources (s := { s with mark := .ok }) (peekG_invalid ha hp) (hnone _ _) (sources_first (l₁ := []) (by simp) ha))
  · exact htrap rfl (barWait_sources (s := { s with mark := .ok }) (peekG_invalid ha hp) (hnone _ _) (hnone _ _)
      (sources_first (l₁ := []) (by simp) ha))
  · exact htrap rfl (send_sources (s := { s with mark := .ok }) (peekG_ready ha) (bitsOf_of_lt _ hx) (hsecond ha hb))
  · exact htrap rfl (barWait_sources (s := { s with mark := .ok }) (peekG_ready ha) hhigh hlow (hsecond ha hb))
  · exact htrap rfl (flowReq_sources (s := { s with mark := .ok }) (peekG_ready ha) (peekG_invalid hb hp) (bitsOf_of_lt _ hx) (hnone _ _) hpriv
      (hsecond ha hb))
  · exact htrap rfl (flowReq_sources (s := { s with mark := .ok }) (peekG_invalid ha hp) (peekG_ready hb) (hnone _ _) (bitsOf_of_lt _ hy) hpriv
      (sources_first (l₁ := []) (by simp) ha))
  · exact hstall rfl (suspend_pending (s := { s with mark := .ok }) ha hp)
  · exact htrap rfl (suspend_invalid (s := { s with mark := .ok }) hu hp ha hy)
  · exact hstall rfl (mts_pending (s := { s with mark := .ok }) hr hd hp)
  · exact htrap rfl (mts_invalid (s := { s with mark := .ok }) hr hw hpriv hp hd)

/-- Settles O1: of each syllable what it looks over and reads first (`ReadsBy`), and the integer syllables' last step (`WritesBy`). -/
theorem sourceRegisters : Obligations.SourceRegisters := ⟨integerRegisters, controlRegisters⟩

end Sys2Proof.Proofs
end

section
/-! What MTS writes and what a read of the system registers gives then (R85, R138, R288, Tables 3-3 to 3-9). -/
namespace Sys2Proof.Proofs
open Sys2Proof.Machine Sys2Proof.Safety Sys2Proof.Laws

/-! MTS, by what its value and its level allow. -/

/-- A program at the context's level may write the register. -/
def MayWrite (s : State) (r : SysReg) : Prop := r.writeLevel ≠ none ∧ (r.writeLevel = some true → s.me.priv = true)

section
variable {s : State} {d : Reg} {num : BitVec 15} {r : SysReg}

theorem level_iff {super : Bool} (hl : r.writeLevel = some super) : (!super || s.me.priv) = true ↔ MayWrite s r := by
  cases super <;> simp [MayWrite, hl]

theorem mts_reserved (hr : SysReg.ofNum num.toNat = none) : mts num d s = .error (.trap 0x01 ((s.raw.extractLsb' 0 32).setWidth 64)) s := by
  unfold mts
  simp only [hr, bind_run, syllable_run, trap_run, Nat.mul_zero]
theorem mts_illegal (hr : SysReg.ofNum num.toNat = some r) (hd : Ready s d)
    (hv : s.me.reg d &&& ~~~r.fields ≠ 0 ∨ r.valueOk (s.me.reg d) = false) :
    mts num d s = .error (.trap 0x01 ((s.raw.extractLsb' 0 32).setWidth 64)) s := by
  have hbad : (s.me.reg d &&& ~~~r.fields != 0 || !r.valueOk (s.me.reg d)) = true := by simpa using hv
  unfold mts
  simp only [hr, bind_run, peekG_ready hd, hbad, if_true, syllable_run, trap_run, Nat.mul_zero]
theorem mts_priv (hr : SysReg.ofNum num.toNat = some r) (hd : Ready s d) (hf : s.me.reg d &&& ~~~r.fields = 0)
    (hv : r.valueOk (s.me.reg d) = true) (hw : ¬MayWrite s r) : mts num d s = .error (.trap 0x02 (num.setWidth 64)) s := by
  have hgood : (s.me.reg d &&& ~~~r.fields != 0 || !r.valueOk (s.me.reg d)) = false := by simp [hf, hv]
  have hnum : BitVec.ofNat 64 num.toNat = num.setWidth 64 := BitVec.ofNat_toNat _ _
  unfold mts
  simp only [hr, bind_run, peekG_ready hd, hgood, Bool.false_eq_true, if_false, get_run]
  rcases hl : r.writeLevel with _ | super
  · simp only [need_run, Bool.false_eq_true, if_false, hnum]
  · have hlevel : (!super || s.me.priv) = false := Bool.eq_false_iff.2 fun h => hw ((level_iff hl).1 h)
    simp only [need_run, hlevel, Bool.false_eq_true, if_false, hnum]
theorem mts_writes (hr : SysReg.ofNum num.toNat = some r) (hd : Ready s d) (hf : s.me.reg d &&& ~~~r.fields = 0)
    (hv : r.valueOk (s.me.reg d) = true) (hw : MayWrite s r) (hring : r.ring = none) :
    mts num d s = .ok () (r.write (s.me.reg d) s) := by
  have hgood : (s.me.reg d &&& ~~~r.fields != 0 || !r.valueOk (s.me.reg d)) = false := by simp [hf, hv]
  unfold mts
  simp only [hr, bind_run, peekG_ready hd, hgood, Bool.false_eq_true, if_false, get_run]
  rcases hl : r.writeLevel with _ | super
  · exact absurd hl hw.1
  · have hlevel : (!super || s.me.priv) = true := (level_iff hl).2 hw
    simp only [need_run, hlevel, if_true, rdG_ready hd, hring, upd_run]

/-- A ring's register takes a value: no command names the ring, and pointers hold no more tiles than the ring has (R85, Table 3-9). -/
def ringTakes (s : State) (r : SysReg) (k : Nat) (v : Word) : Prop :=
  s.ringBusy s.myCore k = false ∧ (r = .ringPtr k →
    ({ vget {} (s.core s.myCore).rings k with ptr := v } : Ring).occ ≤ (vget {} (s.core s.myCore).rings k).tiles)
theorem ringTakes_iff (s : State) (r : SysReg) (k : Nat) (v : Word) : (!s.ringBusy s.myCore k && (r != .ringPtr k ||
    decide (({ vget {} (s.core s.myCore).rings k with ptr := v } : Ring).occ ≤ (vget {} (s.core s.myCore).rings k).tiles))) = true ↔
      ringTakes s r k v := by
  simp [ringTakes, ← imp_iff_not_or]

theorem mts_ring {k : Nat} (hr : SysReg.ofNum num.toNat = some r) (hd : Ready s d) (hf : s.me.reg d &&& ~~~r.fields = 0)
    (hv : r.valueOk (s.me.reg d) = true) (hw : MayWrite s r) (hring : r.ring = some k) :
    (¬ringTakes s r k (s.me.reg d) → mts num d s = .error (.trap 0x0F (num.setWidth 64)) s) ∧
    (ringTakes s r k (s.me.reg d) →
      mts num d s = .ok () (r.write (s.me.reg d) (if r = .ringPtr k then s.release s.cur .core else s))) := by
  have hgood : (s.me.reg d &&& ~~~r.fields != 0 || !r.valueOk (s.me.reg d)) = false := by simp [hf, hv]
  have hnum : BitVec.ofNat 64 num.toNat = num.setWidth 64 := BitVec.ofNat_toNat _ _
  unfold mts
  simp only [hr, bind_run, peekG_ready hd, hgood, Bool.false_eq_true, if_false, get_run]
  rcases hl : r.writeLevel with _ | super
  · exact absurd hl hw.1
  · have hlevel : (!super || s.me.priv) = true := (level_iff hl).2 hw
    simp only [need_run, hlevel, if_true, rdG_ready hd, hring, bind_run, hnum]
    refine ⟨fun h => by rw [if_neg ((ringTakes_iff s r k _).not.2 h)], fun h => ?_⟩
    rw [if_pos ((ringTakes_iff s r k _).2 h)]
    by_cases hp : r = .ringPtr k
    · simp only [hp, beq_self_eq_true, if_true, bind_run, rel_run, upd_run]
    · simp only [hp, beq_iff_eq, if_false, upd_run]

end

/-! What a read gives after a write. -/

/-- The value that a read of a context's own register gives. -/
def ownRead (x : Ctx) : SysReg → Option Word
  | .ctxCtl => some x.ctl | .ctxStat => some x.stat | .ctxTab => some x.tab
  | .trapCause => some x.trapCause | .trapPc => some x.trapPc | .trapVal => some x.trapVal | .trapVec => some x.trapVec
  | .trapScr => some x.trapScr | .watchAddr => some x.watchBase | .watchCtl => some x.watchCtl
  | _ => none

/-- A change of the context that keeps its partition changes what its own registers read, and no other register. -/
theorem read_modMe (s : State) {f : Ctx → Ctx} (hp : (f s.me).partNo = s.me.partNo) (q : SysReg) :
    q.read (s.modMe f) = (ownRead (f s.me) q).getD (q.read s) := by
  have hpart : (s.modMe f).myPart = s.myPart := by rw [State.myPart, modMe_me, hp, State.myPart]
  cases q with
  | ctxCtl | ctxStat | ctxTab | trapCause | trapPc | trapVal | trapVec | trapScr | watchAddr | watchCtl =>
    simp only [SysReg.read, modMe_me, ownRead, Option.getD_some]
  | leaseMax | repairThresh | repairLayer | modelId => simp only [SysReg.read, hpart, ownRead, Option.getD_none]; rfl
  | _ => rfl
theorem read_of_ownRead {s : State} {q : SysReg} {w : Word} (h : ownRead s.me q = some w) : q.read s = w := by
  cases q <;> cases h <;> rfl

/-- What MTS makes of its context where the register is the context's own. -/
def ownWrite (v : Word) (x : Ctx) : SysReg → Ctx
  | .ctxCtl => { x with ctl := v }
  | .trapCause => { x with trapCause := v }
  | .trapPc => { x with trapPc := v }
  | .trapVal => { x with trapVal := v }
  | .trapVec => { x with trapVec := v, vecPart := some x.partNo }
  | .trapScr => { x with trapScr := v }
  | .watchAddr => { x with watchAddr := v }
  | .watchCtl => { x with watchCtl := v }
  | _ => x

/-- WATCH.ADDR reads without its bits below the size that WATCH.CTL gives. -/
def watchSized (addr ctl : Word) : Word := BitVec.ofNat 64 (addr.toNat / 2 ^ bitsOf ctl.toNat 7 3 * 2 ^ bitsOf ctl.toNat 7 3)

/-- A write leaves every other register of the context, but that WATCH.CTL says which bits of WATCH.ADDR are read. -/
theorem ownRead_ownWrite_ne (v : Word) (x : Ctx) {r q : SysReg} (h : q ≠ r) :
    ownRead (ownWrite v x r) q = if r = .watchCtl ∧ q = .watchAddr then some (watchSized x.watchAddr v) else ownRead x q := by
  cases r <;> cases q <;> simp_all [ownRead, ownWrite, Ctx.stat, Ctx.tab, Ctx.watchBase, watchSized]

theorem ownRead_ownWrite_same (v : Word) (x : Ctx) {r : SysReg} (hw : r.writeLevel ≠ none) (ho : ownRead x r ≠ none) :
    ownRead (ownWrite v x r) r = some (if r = .watchAddr then watchSized v x.watchCtl else v) := by
  cases r <;> simp_all [ownRead, ownWrite, SysReg.writeLevel, Ctx.watchBase, watchSized]

/-- The value that a read of one of the partition's registers gives. -/
def partRead (x : Part) : SysReg → Option Word
  | .leaseMax => some x.leaseMax | .repairThresh => some x.thresh | .repairLayer => some x.repairLayer | .modelId => some x.modelId
  | _ => none
/-- What MTS makes of the partition. -/
def partWrite (v : Word) (x : Part) : SysReg → Part
  | .leaseMax => { x with leaseMax := v } | .repairThresh => { x with thresh := v } | .repairLayer => { x with repairLayer := v }
  | .modelId => { x with modelId := v }
  | _ => x

theorem read_modPart (s : State) (f : Part → Part) (q : SysReg) :
    q.read (s.modPart s.myPart f) = (partRead (f (s.part s.myPart)) q).getD (q.read s) := by
  have hpart : (s.modPart s.myPart f).part s.myPart = f (s.part s.myPart) := setPart_part_same _ _ _
  cases q with
  | leaseMax | repairThresh | repairLayer | modelId =>
    have hmy : (s.modPart s.myPart f).myPart = s.myPart := rfl
    simp only [SysReg.read, hmy, hpart, partRead, Option.getD_some]
  | _ => rfl
theorem partRead_partWrite_ne (v : Word) (x : Part) {r q : SysReg} (h : q ≠ r) : partRead (partWrite v x r) q = partRead x q := by
  cases r <;> cases q <;> simp_all [partRead, partWrite]
theorem partRead_partWrite_same (v : Word) (x : Part) {r : SysReg} (ho : partRead x r ≠ none) : partRead (partWrite v x r) r = some v := by
  cases r <;> simp_all [partRead, partWrite]
theorem read_of_partRead {s : State} {q : SysReg} {w : Word} (h : partRead (s.part s.myPart) q = some w) : q.read s = w := by
  cases q <;> cases h <;> rfl

/-- A register that a program may write is a ring's, the context's own, or the partition's. -/
theorem write_cases {r : SysReg} (hw : r.writeLevel ≠ none) (hring : r.ring = none) (v : Word) (s : State) :
    (∀ x, ownRead x r ≠ none) ∧ r.write v s = s.modMe (fun x => ownWrite v x r) ∨
    (∀ x, partRead x r ≠ none) ∧ r ≠ .watchAddr ∧ r ≠ .watchCtl ∧ r.write v s = s.modPart s.myPart fun x => partWrite v x r := by
  cases r with
  | ctxCtl | trapCause | trapPc | trapVal | trapVec | trapScr | watchAddr | watchCtl => exact .inl ⟨by simp [ownRead], rfl⟩
  | leaseMax | repairThresh | repairLayer | modelId => exact .inr ⟨by simp [partRead], by simp, by simp, rfl⟩
  | ringBase | ringShape | ringPtr => exact nomatch hring
  | _ => exact absurd rfl hw

/-- The write of a register that is no ring's: a read gives the value, and every other register, every general register, the other
contexts, memory and the cores stay. -/
theorem write_reads {r : SysReg} (hw : r.writeLevel ≠ none) (hring : r.ring = none) (v : Word) (s : State) :
    r.read (r.write v s) = (if r = .watchAddr then watchSized v s.me.watchCtl else v) ∧
    (∀ q, q ≠ r → q.read (r.write v s) = if r = .watchCtl ∧ q = .watchAddr then watchSized s.me.watchAddr v else q.read s) ∧
    (r.write v s).me.g = s.me.g ∧ (∀ c, c ≠ s.cur → (r.write v s).ctx c = s.ctx c) ∧ (r.write v s).mem = s.mem ∧
    (r.write v s).cores = s.cores := by
  rcases write_cases hw hring v s with ⟨ho, h⟩ | ⟨ho, haddr, hctl, h⟩
  · have hkeep : (ownWrite v s.me r).partNo = s.me.partNo ∧ (ownWrite v s.me r).g = s.me.g := by cases r <;> exact ⟨rfl, rfl⟩
    rw [h]
    refine ⟨?_, fun q hq => ?_, ?_, fun c hc => setCtx_ctx_ne _ _ hc, rfl, rfl⟩
    · rw [read_modMe s hkeep.1, ownRead_ownWrite_same v s.me hw (ho _), Option.getD_some]
    · rw [read_modMe s hkeep.1, ownRead_ownWrite_ne v s.me hq]
      split
      · rfl
      · rcases hown : ownRead s.me q with _ | w
        · rfl
        · exact (read_of_ownRead hown).symm
    · rw [modMe_me, hkeep.2]
  · rw [h]
    refine ⟨?_, fun q hq => ?_, rfl, fun _ _ => rfl, rfl, rfl⟩
    · rw [read_modPart, partRead_partWrite_same v _ (ho _), if_neg haddr, Option.getD_some]
    · rw [read_modPart, partRead_partWrite_ne v _ hq, if_neg fun h => hctl h.1]
      rcases hown : partRead (s.part s.myPart) q with _ | w
      · rfl
      · exact (read_of_partRead hown).symm

/-! Ring registers. -/

/-- The value that a read of a ring register gives. -/
def ringRead (x : Core) : SysReg → Option Word
  | .ringBase n => some (vget {} x.rings n).base | .ringShape n => some (vget {} x.rings n).shape | .ringPtr n => some (vget {} x.rings n).ptr
  | _ => none

theorem vget_vset {α : Type} {n : Nat} (d : α) (v : Vector α n) {i : Nat} (x : α) (h : i < n) (j : Nat) :
    vget d (vset v i x) j = if j = i then x else vget d v j := by
  unfold vget vset
  by_cases hj : j = i
  · subst hj
    rw [if_pos rfl]
    exact vset_getD v x d h
  · rw [if_neg hj]
    simp [List.getD_eq_getElem?_getD, Vector.toList_setIfInBounds, List.getElem?_set_ne (Ne.symm hj)]

/-- Every ring register is one of eight rings'. -/
theorem ring_lt {n k : Nat} {r : SysReg} (h : SysReg.ofNum n = some r) (hk : r.ring = some k) : k < 8 := by
  unfold SysReg.ofNum at h
  split at h
  case h_18 =>
    split_ifs at h <;> cases h <;> simp only [SysReg.ring, Option.some.injEq, reduceCtorEq] at hk <;> omega
  all_goals
    cases h
    exact nomatch hk

theorem read_modCore (s : State) {f : Core → Core} (hf : ∀ x, (f x).spw = x.spw) (q : SysReg) :
    q.read (s.modCore s.myCore f) = (ringRead (f (s.core s.myCore)) q).getD (q.read s) := by
  have hcore : (s.modCore s.myCore f).core s.myCore = f (s.core s.myCore) := setCore_core_same _ _ _
  have hmy : (s.modCore s.myCore f).myCore = s.myCore := rfl
  cases q with
  | ringBase | ringShape | ringPtr => simp only [SysReg.read, hmy, hcore, ringRead, Option.getD_some]
  | split =>
    simp only [SysReg.read, State.split, hmy, hcore, hf, ringRead, Option.getD_none]
    rfl
  | _ => rfl
theorem read_of_ringRead {s : State} {q : SysReg} {w : Word} (h : ringRead (s.core s.myCore) q = some w) : q.read s = w := by
  cases q <;> cases h <;> rfl
theorem ownRead_unclocked (x : Ctx) (q : SysReg) : ownRead (unclocked x) q = ownRead x q := by cases q <;> rfl
theorem partRead_noStats (x : Part) (q : SysReg) : partRead (noStats x) q = partRead x q := by cases q <;> rfl
theorem ringRead_noSp (x : Core) (q : SysReg) : ringRead (noSp x) q = ringRead x q := by cases q <;> rfl

/-- Performing stores changes nothing that a system register reads. -/
theorem read_drains {s t : State} (h : Drains s.cur s t) (q : SysReg) : q.read t = q.read s := by
  have hme : unclocked t.me = unclocked s.me := by rw [State.me, h.cur, State.me, h.ctx]
  have hmy : t.myPart = s.myPart := (congrArg Ctx.partNo hme : (unclocked t.me).partNo = (unclocked s.me).partNo)
  have hcore : t.myCore = s.myCore := by rw [State.myCore, h.cur, State.myCore]
  have hown : ownRead t.me q = ownRead s.me q := by rw [← ownRead_unclocked, hme, ownRead_unclocked]
  have hpart : partRead (t.part t.myPart) q = partRead (s.part s.myPart) q := by
    rw [hmy, ← partRead_noStats, h.part, partRead_noStats]
  have hring : ringRead (t.core t.myCore) q = ringRead (s.core s.myCore) q := by rw [hcore, ← ringRead_noSp, h.core, ringRead_noSp]
  have hrest : ∀ {β : Type} (π : State → β), π (unticked t) = π (unticked s) := fun π => congrArg π h.rest
  cases q with
  | ctxCtl | ctxStat | ctxTab | trapCause | trapPc | trapVal | trapVec | trapScr | watchAddr | watchCtl => exact read_of_ownRead hown
  | leaseMax | repairThresh | repairLayer | modelId => exact read_of_partRead hpart
  | ringBase | ringShape | ringPtr => exact read_of_ringRead hring
  | ctxId => rw [SysReg.read, h.cur, h.pkg, SysReg.read]
  | split =>
    have hspw : (t.core s.myCore).spw = (s.core s.myCore).spw :=
      (congrArg Core.spw (h.core _) : (noSp (t.core s.myCore)).spw = (noSp (s.core s.myCore)).spw)
    have hpool : (t.cluster (clusterOf s.myCore)).pool = (s.cluster (clusterOf s.myCore)).pool :=
      (congrArg Cluster.pool (h.cluster _) : (noL2 (t.cluster _)).pool = (noL2 (s.cluster _)).pool)
    rw [SysReg.read, hcore, State.split, hspw, hpool, SysReg.read, State.split]
  | timebase => exact hrest State.timebase
  | cadence i => exact hrest fun u => (u.gridRow i).cadence
  | phaseCtl i => exact hrest fun u => (u.stack i).phaseCtl
  | railSel i => exact (congrArg Cluster.railSel (h.cluster i) : (noL2 (t.cluster i)).railSel = (noL2 (s.cluster i)).railSel)
  | valve z => exact hrest fun u => (u.zone z).valve
  | thermHi z => exact hrest fun u => (u.zone z).hi
  | thermLo z => exact hrest fun u => (u.zone z).lo
  | thermRd c => exact (congrArg Column.thermRd (h.col c) : (noRec (t.col c)).thermRd = (noRec (s.col c)).thermRd)
/-- A monitor's sample changes nothing that a system register reads. -/
theorem read_monSample (s : State) (src loc : Nat) (v : Int) (q : SysReg) : q.read (s.monSample src loc v) = q.read s := by
  cases q with
  | phaseCtl i =>
    have h := Laws.assocGet_map {} (fun x : Stack => { x with monitors := x.monitors.map fun m =>
      if m.2.part.isSome && m.2.src == src && m.2.loc == loc then (m.1, monTake m.2 v) else m }) s.stks i rfl
    exact (congrArg Stack.phaseCtl h).trans rfl
  | _ => rfl

/-- What MTS makes of a ring. -/
def ringWrite (v : Word) (x : Ring) : SysReg → Ring
  | .ringBase _ => { x with base := v } | .ringShape _ => { x with shape := v } | .ringPtr _ => { x with ptr := v }
  | _ => x

/-- A ring register takes a value, and every other register stays. -/
theorem ring_reads (s : State) {k : Nat} (hk : k < 8) {r : SysReg} (hr : r.ring = some k) (v : Word) :
    r.read (s.modRing s.myCore k (ringWrite v · r)) = v ∧ ∀ q, q ≠ r → q.read (s.modRing s.myCore k (ringWrite v · r)) = q.read s := by
  let x := s.core s.myCore
  let y : Core := { x with rings := vset x.rings k (ringWrite v (vget {} x.rings k) r) }
  have hget : ∀ j, vget {} y.rings j = if j = k then ringWrite v (vget {} x.rings k) r else vget {} x.rings j := vget_vset _ _ _ hk
  have hread : ∀ q, q.read (s.modRing s.myCore k (ringWrite v · r)) = (ringRead y q).getD (q.read s) := fun q =>
    read_modCore s (f := fun x => { x with rings := vset x.rings k (ringWrite v (vget {} x.rings k) r) }) (fun _ => rfl) q
  have hsame : ringRead y r = some v := by
    cases r <;> cases hr <;> simp only [ringRead, hget, if_true, ringWrite]
  have hother : ∀ q, q ≠ r → ringRead y q = ringRead x q := fun q hq => by
    cases q with
    | ringBase j | ringShape j | ringPtr j =>
      by_cases hj : j = k
      · cases r <;> cases hr <;> simp only [ringRead, hget, hj, if_true, ringWrite, ne_eq, not_true_eq_false] at hq ⊢
      · simp only [ringRead, hget, if_neg hj]
    | _ => rfl
  refine ⟨by rw [hread, hsame, Option.getD_some], fun q hq => ?_⟩
  rw [hread, hother q hq]
  rcases hown : ringRead x q with _ | w
  · rfl
  · exact (read_of_ringRead hown).symm

/-! Values of the registers' fields, as the tables give them. -/

theorem andnot_of_lt {v : Word} {n : Nat} (h : v.toNat < 2 ^ n) : v &&& ~~~(BitVec.ofNat 64 (2 ^ n - 1)) = 0 := by
  refine BitVec.eq_of_getLsbD_eq fun i hi => ?_
  by_cases hn : i < n
  · have hmask : (BitVec.ofNat 64 (2 ^ n - 1)).getLsbD i = true := by
      rw [BitVec.getLsbD_ofNat, Nat.testBit_two_pow_sub_one]
      simp [hi, hn]
    simp [hi, hmask]
  · have hbit : v.getLsbD i = false := Nat.testBit_lt_two_pow (h.trans_le (Nat.pow_le_pow_right (by omega) (by omega)))
    simp [hbit]
theorem andnot_of_mod {v : Word} (h : v.toNat % 16 = 0) : v &&& ~~~(BitVec.allOnes 64 - 15) = 0 := by
  have hmask : ~~~(BitVec.allOnes 64 - 15) = (15 : Word) := by decide
  refine BitVec.eq_of_toNat_eq ?_
  rw [hmask, BitVec.toNat_and]
  exact (Nat.and_two_pow_sub_one_eq_mod v.toNat 4).trans h

theorem writeSystemRegister : Claims.WriteSystemRegister := by
  intro s d num hd v n illegal here mine part' sup sized
  have hd' : Ready here d := hd
  have hwrite : ∀ r, SysReg.ofNum num.toNat = some r → v &&& ~~~r.fields = 0 → r.valueOk v = true → MayWrite s r → r.ring = none →
      exec (.mts num d) s = .next (r.write v here) := fun r hr hf hv hw hring => runSyl_ok (mts_writes (s := here) hr hd' hf hv hw hring)
  refine ⟨fun h => runSyl_trap (mts_reserved h), fun hn hv => hwrite .ctxCtl (hn ▸ rfl) hv rfl ⟨nofun, nofun⟩ rfl,
    fun hn hs hv => hwrite .trapCause (hn ▸ rfl) hv rfl ⟨nofun, fun _ => hs⟩ rfl,
    fun hn hs hv => hwrite .trapPc (hn ▸ rfl) (andnot_of_mod hv) rfl ⟨nofun, fun _ => hs⟩ rfl,
    fun hn hs => hwrite .trapVal (hn ▸ rfl) (andnot_of_lt (n := 64) v.isLt) rfl ⟨nofun, fun _ => hs⟩ rfl,
    fun hn hs hv => hwrite .trapVec (hn ▸ rfl) (andnot_of_mod hv) rfl ⟨nofun, fun _ => hs⟩ rfl,
    fun hn hs => hwrite .trapScr (hn ▸ rfl) (andnot_of_lt (n := 64) v.isLt) rfl ⟨nofun, fun _ => hs⟩ rfl,
    fun hn hs => hwrite .watchAddr (hn ▸ rfl) (andnot_of_lt (n := 64) v.isLt) rfl ⟨nofun, fun _ => hs⟩ rfl,
    fun hn hs hv hsize => hwrite .watchCtl (hn ▸ rfl) hv ?_ ⟨nofun, fun _ => hs⟩ rfl,
    fun hn hs h1 h64 => hwrite .leaseMax (hn ▸ rfl) (andnot_of_lt (n := 7) (by omega)) (by simp [SysReg.valueOk, h1, h64])
      ⟨nofun, fun _ => hs⟩ rfl,
    fun hn hs hv => hwrite .repairThresh (hn ▸ rfl) (andnot_of_lt (n := 32) hv) rfl ⟨nofun, fun _ => hs⟩ rfl,
    fun hn hs hv => hwrite .repairLayer (hn ▸ rfl) (andnot_of_lt (n := 16) hv) rfl ⟨nofun, fun _ => hs⟩ rfl,
    fun hn hs => hwrite .modelId (hn ▸ rfl) (andnot_of_lt (n := 64) v.isLt) rfl ⟨nofun, fun _ => hs⟩ rfl,
    fun r hr => ⟨fun hbad => runSyl_trap (mts_illegal (s := here) hr hd' hbad),
      fun hf hv => ⟨fun hno => ?_, fun hsup huser => ?_, fun hring hw hlevel => ?_⟩⟩⟩
  · exact decide_eq_true ((Nat.mod_le _ _).trans hsize)
  · exact runSyl_trap (mts_priv (s := here) hr hd' hf hv fun hmay => hmay.1 hno)
  · exact runSyl_trap (mts_priv (s := here) hr hd' hf hv fun hmay => huser (hmay.2 hsup))
  · exact ⟨_, hwrite r hr hf hv ⟨hw, hlevel⟩ hring, (write_reads hw hring v here).1, fun _ q _ => (write_reads hw hring v here).2.1 q,
      (write_reads hw hring v here).2.2⟩

theorem writeRingRegister : Claims.WriteRingRegister := by
  intro s d num r k hr hk hd v ring here set' writes hf hv
  have hd' : Ready here d := hd
  have hk8 : k < 8 := ring_lt hr hk
  have hmay : MayWrite here r := by cases r <;> simp_all [MayWrite, SysReg.ring, SysReg.writeLevel]
  have hring := mts_ring (s := here) hr hd' hf hv hmay hk
  have hreads : ∀ t : State, t.myCore = s.myCore → (∀ q : SysReg, q.read t = q.read s) →
      r.read (set' t (ringWrite v · r)) = v ∧ ∀ n q, SysReg.ofNum n = some q → q ≠ r → q.read (set' t (ringWrite v · r)) = q.read s := by
    intro t hcore ht
    have h := ring_reads t hk8 hk v
    rw [hcore] at h
    exact ⟨h.1, fun _ q _ hq => (h.2 q hq).trans (ht q)⟩
  have hplain : s.ringBusy s.myCore k = false → r ≠ .ringPtr k → exec (.mts num d) s = .next (r.write v here) := fun hfree hp => by
    have h := runSyl_ok (k := 0) (hring.2 ⟨hfree, fun h => absurd h hp⟩)
    rw [if_neg hp] at h
    exact h
  refine ⟨fun hbusy => runSyl_trap (hring.1 fun h => Bool.noConfusion (hbusy.symm.trans h.1)), fun hfree => ⟨?_, ?_, ?_⟩⟩
  · rintro rfl
    exact ⟨hplain hfree nofun, hreads here rfl fun _ => rfl⟩
  · rintro rfl
    exact ⟨hplain hfree nofun, hreads here rfl fun _ => rfl⟩
  · rintro rfl
    refine ⟨fun hocc => runSyl_trap (hring.1 fun h => Nat.not_le.2 hocc (h.2 rfl)), fun hocc => ?_⟩
    let t := here.release s.cur .core
    have hcur : t.cur = s.cur := release_cur here s.cur .core
    have hcore : t.myCore = s.myCore := congrArg coreOf hcur
    have hread := hreads t hcore (read_drains (s := here) (release_drains here s.cur .core))
    have hexec := runSyl_ok (k := 0) (hring.2 ⟨hfree, fun _ => hocc⟩)
    rw [if_pos rfl] at hexec
    have hptr : (vget {} ((set' t (ringWrite v · (.ringPtr k))).core s.myCore).rings k).ptr = v := by
      rw [← hcore]
      exact hread.1
    have hwrite : (SysReg.ringPtr k).write v t =
        (set' t (ringWrite v · (.ringPtr k))).monSample 3 (s.myCore * 8 + k) ({ ring with ptr := v } : Ring).occ := by
      have hsample : (vget {} ((set' t (ringWrite v · (.ringPtr k))).core s.myCore).rings k).occ = ({ ring with ptr := v } : Ring).occ := by
        simp only [Ring.occ, Ring.tail, Ring.head, hptr]
      rw [← hsample]
      unfold SysReg.write
      rw [hcore]
      rfl
    exact ⟨hexec.trans (congrArg _ hwrite), (read_monSample _ _ _ _ _).trans hread.1,
      fun n q hq hne => (read_monSample _ _ _ _ _).trans (hread.2 n q hq hne)⟩

/-- Settles O9: a write through the one record that it changes (`ownWrite`, `partWrite`, `ringWrite`), and reads through the same. -/
theorem writeSystemRegisters : Obligations.WriteSystemRegisters := ⟨writeSystemRegister, writeRingRegister⟩

end Sys2Proof.Proofs
end

section
/-! The checks of a scalar access's address, and the registers with its data (R103, R107, R226, R251 to R258). -/
namespace Sys2Proof.Proofs
open Sys2Proof.Machine Sys2Proof.Safety Sys2Proof.Laws

/-! The checks themselves. -/

section
variable {s : State} {acc : AccessKind} {va : Word} {size : Nat} {ld st : Bool}

theorem checkAccess_odd (h : va.toNat % size ≠ 0) : checkAccess acc va size ld st s = .error (.trap 0x08 va) s :=
  bind_error (need_false (by simpa using h) _ _ _)
theorem checkAccess_beyond (hal : va.toNat % size = 0) (hva : va.toNat < 2 ^ 57) (hin : inScratch va.toNat = true)
    (hout : (s.core s.myCore).spSize < scratchOff va.toNat + size) : checkAccess acc va size ld st s = .error (.trap 0x18 va) s := by
  have hsp : ¬scratchOff va.toNat + size ≤ (s.core s.myCore).spSize := by omega
  unfold checkAccess
  rw [bind_ok (need_true (by simpa using hal) _ _ _)]
  simp only [bind_run, hva, decide_true, hin, Bool.and_self, if_true, get_run, need_run, hsp, decide_false, Bool.false_eq_true, if_false]
theorem checkAccess_scratch (h : InScratchpad s va size ld st) :
    checkAccess acc va size ld st s = .ok (.scratch (scratchOff va.toNat)) s := by
  obtain ⟨hal, hva, hin, hsp, hwatch⟩ := h
  unfold checkAccess
  rw [bind_ok (need_true (by simpa using hal) _ _ _)]
  simp only [bind_run, hva, decide_true, hin, Bool.and_self, if_true, get_run, need_run, hsp, pure_run, hwatch, Bool.not_false]

end

/-! Syllables that make such an access. -/

/-- The syllable checks the access at `va` first, and reads the registers `rs` next, wherever the access goes. -/
def AccessBy (s : State) (i : Instr) (va : Word) (size : Nat) (ld st : Bool) (rs : List Reg) : Prop :=
  ∃ m acc f, exec i s = runSyl 0 m s ∧ m { s with mark := .ok } = (checkAccess acc va size ld st >>= f) { s with mark := .ok } ∧
    ∀ place, Reads { s with mark := .ok } (f place : M Unit) [] rs

section
variable {s : State} {i : Instr} {va : Word} {size : Nat} {ld st : Bool} {rs : List Reg}

theorem AccessBy.odd (h : AccessBy s i va size ld st rs) (hodd : va.toNat % size ≠ 0) : exec i s = .next (trapped s 0 0x08 va) := by
  obtain ⟨m, acc, f, he, hm, -⟩ := h
  exact he.trans (runSyl_trap (hm.trans (bind_error (checkAccess_odd hodd))))
/-- Misaligned accesses and those beyond the core's scratchpad. -/
theorem AccessBy.checked (h : AccessBy s i va size ld st rs) : (va.toNat % size ≠ 0 → exec i s = .next (trapped s 0 0x08 va)) ∧
    (va.toNat % size = 0 → va.toNat < 2 ^ 57 → inScratch va.toNat = true →
      (s.core s.myCore).spSize < scratchOff va.toNat + size → exec i s = .next (trapped s 0 0x18 va)) := by
  refine ⟨h.odd, fun hal hva hin hout => ?_⟩
  obtain ⟨m, acc, f, he, hm, -⟩ := h
  exact he.trans (runSyl_trap (hm.trans (bind_error (checkAccess_beyond (s := { s with mark := .ok }) hal hva hin hout))))
/-- The register with the data, read once an access in the scratchpad has passed. -/
theorem AccessBy.reads {l₁ l₂ : List Reg} {r : Reg} (h : AccessBy s i va size ld st (l₁ ++ r :: l₂)) (hin : InScratchpad s va size ld st)
    (h₁ : ∀ q ∈ l₁, Ready s q) : (Owed s r → exec i s = .next { s with mark := .stall }) ∧
      (Short s r → exec i s = .next (trapped s 0 0x06 (BitVec.ofNat 64 r.val))) := by
  obtain ⟨m, acc, f, he, hm, hf⟩ := h
  have hstop : ∀ e, rdG r { s with mark := .ok } = .error e { s with mark := .ok } →
      m { s with mark := .ok } = .error e { s with mark := .ok } := fun e hr => by
    rw [hm, bind_ok (checkAccess_scratch (s := { s with mark := .ok }) hin)]
    exact hf _ e ((bind_ok (sources_pass (s := { s with mark := .ok }) (by simp))).trans (readAll_stops h₁ hr))
  exact ⟨fun ho => he.trans (runSyl_stall (hstop _ (rdG_of_owed ho))), fun hs => he.trans (runSyl_trap (hstop _ (rdG_of_short hs)))⟩

end

section
variable {s : State} {d a b : Reg} {imm : BitVec 10} {sc : Scope} {z : Width}

theorem addrOf_run (ha : Ready s a) (size : Nat) : addrOf a imm size s = .ok (s.me.reg a + extS s imm * BitVec.ofNat 64 size) s := by
  unfold addrOf
  rw [bind_ok (rdG_ready ha), bind_ok (immS_run _ _)]
  rfl

theorem loadImm_accessBy {i : Instr} {size : Nat} {ext : Nat → Word} (ha : Ready s a) (he : exec i s = runSyl 0 (loadImm size ext d a imm) s) :
    AccessBy s i (s.me.reg a + extS s imm * BitVec.ofNat 64 size) size true false [] :=
  ⟨_, _, _, he, bind_ok (addrOf_run (s := { s with mark := .ok }) ha size), fun _ => .nil⟩
theorem loadAcq_accessBy {i : Instr} {size : Nat} {ext : Nat → Word} (ha : Ready s a) (he : exec i s = runSyl 0 (loadAcq size ext d a sc) s) :
    AccessBy s i (s.me.reg a) size true false [] :=
  ⟨_, _, _, he, bind_ok (rdG_ready (s := { s with mark := .ok }) ha), fun _ => .nil⟩
theorem storeImm_accessBy {i : Instr} {size : Nat} (ha : Ready s a) (hd : ¬Invalid s d) (he : exec i s = runSyl 0 (storeImm size d a imm) s) :
    AccessBy s i (s.me.reg a + extS s imm * BitVec.ofNat 64 size) size false true [d] :=
  ⟨_, _, _, he, (bind_ok (sources_pass (s := { s with mark := .ok }) (by simp [not_invalid_of_ready ha, hd]))).trans
    (bind_ok (addrOf_run (s := { s with mark := .ok }) ha size)), fun _ => .first⟩
theorem storeRel_accessBy {i : Instr} {size : Nat} (ha : Ready s a) (hd : ¬Invalid s d) (he : exec i s = runSyl 0 (storeRel size d a sc) s) :
    AccessBy s i (s.me.reg a) size false true [d] := by
  by_cases hsc : sc = .ctx
  · refine ⟨_, .store, ?plain, he, ?eq, ?reads⟩
    case eq =>
      unfold storeRel
      rw [bind_ok (sources_pass (by simp [not_invalid_of_ready ha, hd])), bind_ok (rdG_ready (s := { s with mark := .ok }) ha), if_pos hsc]
      rfl
    case reads => exact fun _ => .first
  · refine ⟨_, .store, ?released, he, ?eq, ?reads⟩
    case eq =>
      unfold storeRel
      rw [bind_ok (sources_pass (by simp [not_invalid_of_ready ha, hd])), bind_ok (rdG_ready (s := { s with mark := .ok }) ha), if_neg hsc]
      rfl
    case reads => exact fun _ => .first
theorem atomic_accessBy {i : Instr} {m : M Unit} {zero : Bool} {data : M (Word → Word)} {rs : List Reg} (he : exec i s = runSyl 0 m s)
    (hm : m { s with mark := .ok } = atomic z sc d (s.me.reg a) zero data { s with mark := .ok })
    (hdata : Reads { s with mark := .ok } data [] rs) : AccessBy s i (s.me.reg a) (Width.size z) true true rs :=
  ⟨_, _, _, he, hm, fun _ => hdata.bind⟩
theorem amo_accessBy {i : Instr} {zero : Bool} {f : Word → Word → Word} (ha : Ready s a) (hb : ¬Invalid s b)
    (he : exec i s = runSyl 0 (amo z sc d a b zero f) s) : AccessBy s i (s.me.reg a) (Width.size z) true true [b] :=
  atomic_accessBy he ((bind_ok (sources_pass (s := { s with mark := .ok }) (by simp [not_invalid_of_ready ha, hb]))).trans
    (bind_ok (rdG_ready (s := { s with mark := .ok }) ha))) .first
theorem cas_accessBy (ha : Ready s a) (hb : ¬Invalid s b) (hd : ¬Invalid s d) :
    AccessBy s (.cas z sc d a b) (s.me.reg a) (Width.size z) true true [b, d] :=
  atomic_accessBy rfl ((bind_ok (sources_pass (s := { s with mark := .ok }) (by simp [not_invalid_of_ready ha, hb, hd]))).trans
    (bind_ok (rdG_ready (s := { s with mark := .ok }) ha))) (.cons fun _ => .cons fun _ => .nil)

/-! The syllables, by their kinds. -/

variable (ha : Ready s a)
include ha

theorem loads_accessBy : ∀ e ∈ [(Instr.ldB d a imm, 1), (.ldBz d a imm, 1), (.ldH d a imm, 2), (.ldHz d a imm, 2), (.ldW d a imm, 4),
    (.ldWz d a imm, 4), (.ldD d a imm, 8)], AccessBy s e.1 (s.me.reg a + extS s imm * BitVec.ofNat 64 e.2) e.2 true false [] := by
  simp only [List.forall_mem_cons]
  exact ⟨loadImm_accessBy ha rfl, loadImm_accessBy ha rfl, loadImm_accessBy ha rfl, loadImm_accessBy ha rfl, loadImm_accessBy ha rfl,
    loadImm_accessBy ha rfl, loadImm_accessBy ha rfl, by simp⟩
theorem stores_accessBy (hd : ¬Invalid s d) : ∀ e ∈ [(Instr.stB d a imm, 1), (.stH d a imm, 2), (.stW d a imm, 4), (.stD d a imm, 8)],
    AccessBy s e.1 (s.me.reg a + extS s imm * BitVec.ofNat 64 e.2) e.2 false true [d] := by
  simp only [List.forall_mem_cons]
  exact ⟨storeImm_accessBy ha hd rfl, storeImm_accessBy ha hd rfl, storeImm_accessBy ha hd rfl, storeImm_accessBy ha hd rfl, by simp⟩
theorem releases_accessBy (hd : ¬Invalid s d) : ∀ e ∈ [(Instr.stRelW d a sc, 4), (.stRelD d a sc, 8)],
    AccessBy s e.1 (s.me.reg a) e.2 false true [d] := by
  simp only [List.forall_mem_cons]
  exact ⟨storeRel_accessBy ha hd rfl, storeRel_accessBy ha hd rfl, by simp⟩
theorem amos_accessBy (hb : ¬Invalid s b) : ∀ i ∈ [Instr.amoAdd z sc d a b, .amoMin z sc d a b, .amoMax z sc d a b, .amoMinu z sc d a b,
    .amoMaxu z sc d a b, .amoAnd z sc d a b, .amoOr z sc d a b, .amoXor z sc d a b, .amoSwap z sc d a b],
    AccessBy s i (s.me.reg a) (Width.size z) true true [b] := by
  simp only [List.forall_mem_cons]
  exact ⟨amo_accessBy ha hb rfl, amo_accessBy ha hb rfl, amo_accessBy ha hb rfl, amo_accessBy ha hb rfl, amo_accessBy ha hb rfl,
    amo_accessBy ha hb rfl, amo_accessBy ha hb rfl, amo_accessBy ha hb rfl, amo_accessBy ha hb rfl, by simp⟩
/-- LDC checks its alignment itself, since it never goes to the scratchpad (R252). -/
theorem ldc_odd {i : Instr} {size : Nat} {ext : Nat → Word} (he : exec i s = runSyl 0 (loadConst size ext d a imm) s)
    (hodd : (s.me.reg a + extS s imm * BitVec.ofNat 64 size).toNat % size ≠ 0) :
    exec i s = .next (trapped s 0 0x08 (s.me.reg a + extS s imm * BitVec.ofNat 64 size)) :=
  he.trans (runSyl_trap ((bind_ok (addrOf_run (s := { s with mark := .ok }) ha size)).trans
    (bind_error (need_false (beq_eq_false_iff_ne.2 hodd) _ _ _))))

end

/-- Settles O20: every access but LDC's begins with `checkAccess` and reads its data next (`AccessBy`). -/
theorem addressChecks : Obligations.AddressChecks := by
  intro s d a b imm sc z ha ga at' odd checked n
  refine ⟨fun e he => (loads_accessBy ha e he).checked, ?_, ?_, fun hd => ⟨fun e he => (stores_accessBy ha hd e he).checked,
    fun e he => (releases_accessBy ha hd e he).checked⟩, fun hb => ⟨fun i hi => (amos_accessBy ha hb i hi).checked,
    fun hd => (cas_accessBy ha hb hd).checked⟩, fun e he hin => ?_, fun e he hin => ?_,
    fun hin => ⟨fun i hi => ?_, fun hd => ?_, fun hb => ?_⟩⟩
  · simp only [List.forall_mem_cons]
    exact ⟨ldc_odd ha rfl, ldc_odd ha rfl, by simp⟩
  · simp only [List.forall_mem_cons]
    exact ⟨(loadAcq_accessBy ha rfl).checked, (loadAcq_accessBy ha rfl).checked, by simp⟩
  · have h := fun hd => (stores_accessBy ha hd e he).reads (l₁ := []) hin (by simp)
    exact ⟨fun ho => (h (not_invalid_of_owed ho)).1 ho, fun hs => (h (not_invalid_of_short hs)).2 hs⟩
  · have h := fun hd => (releases_accessBy ha hd e he).reads (l₁ := []) hin (by simp)
    exact ⟨fun ho => (h (not_invalid_of_owed ho)).1 ho, fun hs => (h (not_invalid_of_short hs)).2 hs⟩
  · have h := fun hb => (amos_accessBy (sc := sc) ha hb i hi).reads (l₁ := []) hin (by simp)
    exact ⟨fun ho => (h (not_invalid_of_owed ho)).1 ho, fun hs => (h (not_invalid_of_short hs)).2 hs⟩
  · have h := fun hb : ¬Invalid s b => (cas_accessBy (z := z) (sc := sc) ha hb hd).reads (l₁ := []) hin (by simp)
    exact ⟨fun ho => (h (not_invalid_of_owed ho)).1 ho, fun hs => (h (not_invalid_of_short hs)).2 hs⟩
  · have h := fun hd : ¬Invalid s d => (cas_accessBy (z := z) (sc := sc) ha (not_invalid_of_ready hb) hd).reads (l₁ := [b]) hin (by simpa using hb)
    exact ⟨fun ho => (h (not_invalid_of_owed ho)).1 ho, fun hs => (h (not_invalid_of_short hs)).2 hs⟩

end Sys2Proof.Proofs
end

section
/-! What a vector syllable writes to its destination, and its TAG and SHAPE traps (R76 to R78, R156, R291, R294, R295, R300). -/
namespace Sys2Proof.Proofs
open Sys2Proof.Machine Sys2Proof.Safety Sys2Proof.Laws

/-! Rows packed from their elements, bit by bit. -/

theorem testBit_packElems {b : Nat} (hb : 0 < b) (l : List Nat) (i : Nat) : (packElems b l).testBit i = (l.getD (i / b) 0).testBit (i % b) := by
  induction l generalizing i with
  | nil => simp [packElems]
  | cons v l ih =>
    rw [packElems, Nat.add_comm, Nat.mul_comm, Nat.testBit_two_pow_mul_add _ (Nat.mod_lt _ (Nat.two_pow_pos b))]
    split
    · rename_i hi
      rw [Nat.div_eq_of_lt hi, Nat.mod_eq_of_lt hi, Nat.testBit_mod_two_pow]
      simp [hi]
    · rename_i hi
      obtain ⟨j, rfl⟩ := Nat.exists_eq_add_of_le (Nat.not_lt.1 hi)
      rw [Nat.add_sub_cancel_left, ih, Nat.add_div_left j hb, Nat.add_mod_left, List.getD_cons_succ]

theorem getLsbD_rowOf {b : Nat} (hb : 0 < b) (l : List Nat) {i : Nat} (hi : i < 2048) :
    (rowOf b l).getLsbD i = (l.getD (i / b) 0).testBit (i % b) := by
  rw [rowOf, BitVec.getLsbD_ofNat, testBit_packElems hb]
  simp [hi]

/-- An element of a packed row. -/
theorem rowOf_elem {b : Nat} (hb : 0 < b) {l : List Nat} (hl : b * l.length ≤ 2048) {i : Nat} (hi : i < l.length) :
    (rowOf b l).toNat / 2 ^ (b * i) % 2 ^ b = l.getD i 0 % 2 ^ b := by
  refine Nat.eq_of_testBit_eq fun j => ?_
  rw [Nat.testBit_mod_two_pow, Nat.testBit_mod_two_pow, Nat.testBit_div_two_pow]
  by_cases hj : j < b
  · have hlt : j + b * i < 2048 := by nlinarith
    have hbit := getLsbD_rowOf hb l hlt
    rw [Nat.add_mul_div_left _ _ hb, Nat.div_eq_of_lt hj, Nat.zero_add, Nat.add_mul_mod_self_left, Nat.mod_eq_of_lt hj] at hbit
    rw [← hbit, BitVec.getLsbD]
  · simp [hj]

/-- Thirty-two bits in a container of a row. -/
theorem getLsbD_container (v c : Nat) {i : Nat} (hi : i < 2048) :
    (BitVec.ofNat 2048 (v <<< (32 * c))).getLsbD i = (decide (32 * c ≤ i) && v.testBit (i - 32 * c)) := by
  rw [BitVec.getLsbD_ofNat, Nat.testBit_shiftLeft]
  simp [hi]

/-! The writes. -/

theorem vresult_eq (s : State) (d : VOp) (f : Fmt) (lat : Option Nat) (rs : List (Option Nat)) :
    vresult s [] d f lat rs = after (vwrite d f lat rs) { s with mark := .ok } := rfl

/-- The write of one row (R78, R294). -/
def rowWrite (s : State) (f : Fmt) (rs : List (Option Nat)) (r : Nat) : RowWrite :=
  { row := s.winKey r, data := rowOf f.bits (rs.map (·.getD 0)),
    mask := ~~~rowOf f.bits (rs.map fun r => if r.isNone then 2 ^ f.bits - 1 else 0), tag := f.code }

theorem rowWrite_bits {s : State} {f : Fmt} {rs : List (Option Nat)} {r b : Nat} (hf : 0 < f.bits) (hb : b < 2048) :
    let w := rowWrite s f rs r
    (∀ v, rs[b / f.bits]? = some (some v) → w.mask.getLsbD b = true ∧ w.data.getLsbD b = v.testBit (b % f.bits)) ∧
    (rs[b / f.bits]? = some none → w.mask.getLsbD b = false) ∧
    (rs[b / f.bits]? = none → w.mask.getLsbD b = true ∧ w.data.getLsbD b = false) := by
  intro w
  have hdata : w.data.getLsbD b = ((rs.map (·.getD 0)).getD (b / f.bits) 0).testBit (b % f.bits) := getLsbD_rowOf hf _ hb
  have hmask : w.mask.getLsbD b =
      !((rs.map fun r : Option Nat => if r.isNone then 2 ^ f.bits - 1 else 0).getD (b / f.bits) 0).testBit (b % f.bits) := by
    show (~~~rowOf f.bits _).getLsbD b = _
    rw [BitVec.getLsbD_not, getLsbD_rowOf hf _ hb]
    simp [hb]
  have hmod : b % f.bits < f.bits := Nat.mod_lt _ hf
  rw [hdata, hmask]
  refine ⟨fun v h => ?_, fun h => ?_, fun h => ?_⟩
  · simp [List.getD_eq_getElem?_getD, h]
  · simp [List.getD_eq_getElem?_getD, h, Nat.testBit_two_pow_sub_one, hmod]
  · simp [List.getD_eq_getElem?_getD, h]

/-- The write of element `i` of a column or a diagonal (R76, R78). -/
def viewWrite (s : State) (f : Fmt) (d : VOp) (i v : Nat) : RowWrite :=
  { row := s.winKey i, data := BitVec.ofNat 2048 (v <<< (32 * containerOf d i)),
    mask := BitVec.ofNat 2048 ((2 ^ 32 - 1) <<< (32 * containerOf d i)), tag := f.code }

theorem viewWrite_bits (s : State) (f : Fmt) (d : VOp) (i v : Nat) {b : Nat} (hb : b < 2048) :
    (viewWrite s f d i v).mask.getLsbD b = decide (32 * containerOf d i ≤ b ∧ b < 32 * containerOf d i + 32) ∧
    (32 * containerOf d i ≤ b → b < 32 * containerOf d i + 32 → (viewWrite s f d i v).data.getLsbD b = v.testBit (b - 32 * containerOf d i)) := by
  refine ⟨(getLsbD_container _ _ hb).trans ?_, fun hlo _ => (getLsbD_container _ _ hb).trans (by simp [hlo])⟩
  rw [Nat.testBit_two_pow_sub_one, ← Bool.decide_and]
  exact decide_eq_decide.2 (by omega)

def viewWrites (s : State) (f : Fmt) (d : VOp) (rs : List (Option Nat)) : List RowWrite :=
  rs.zipIdx.filterMap fun e => e.1.map (viewWrite s f d e.2)

theorem mem_viewWrites {s : State} {f : Fmt} {d : VOp} {rs : List (Option Nat)} {w : RowWrite} :
    w ∈ viewWrites s f d rs ↔ ∃ i v, rs[i]? = some (some v) ∧ w = viewWrite s f d i v := by
  simp only [viewWrites, List.mem_filterMap, Option.map_eq_some_iff]
  constructor
  · rintro ⟨⟨r, i⟩, he, v, rfl, rfl⟩
    exact ⟨i, v, List.mem_zipIdx_iff_getElem?.1 he, rfl⟩
  · rintro ⟨i, v, hi, rfl⟩
    exact ⟨(some v, i), List.mem_zipIdx_iff_getElem?.2 hi, v, rfl, rfl⟩

theorem vectorWrites : Claims.VectorWrites := by
  intro s f lat rs hf hlen t
  refine ⟨fun r => ⟨rowWrite s f rs r.val, rfl, rfl, rfl, fun b hb => rowWrite_bits hf hb⟩, fun c d hd => ?_, fun q => ?_, rfl⟩
  · have hrun : t d = inFlight { s with mark := .ok } (.rows (viewWrites s f d rs)) lat true false false := by
      rcases hd with rfl | rfl <;> rfl
    have hat : ∀ i, containerOf d i = if d = .col c then c.val else (i + c.val) % 64 := fun i => by
      rcases hd with rfl | rfl <;> simp [containerOf]
    refine ⟨viewWrites s f d rs, hrun, ?_⟩
    intro at' puts
    have hputs : ∀ i v, puts (viewWrite s f d i v) i v := fun i v => ⟨rfl, rfl, fun b hb => by
      have h := viewWrite_bits s f d i v hb
      rwa [hat] at h⟩
    refine ⟨fun i v hi => ⟨_, mem_viewWrites.2 ⟨i, v, hi, rfl⟩, hputs i v⟩, fun w hw => ?_⟩
    obtain ⟨i, v, hi, rfl⟩ := mem_viewWrites.1 hw
    exact ⟨i, v, hi, hputs i v⟩
  · let e : QEntry := { tag := f.code, data := rowOf f.bits (rs.map (·.getD 0)) }
    have hq : (t (.qout q)).me.qout = s.me.qout.set q (s.me.qout[q] ++ [e]) := by
      show (inFlight (({ s with mark := .ok } : State).modMe fun x => { x with qout := x.qout.set q (x.qout[q] ++ [e]) })
        .nothing lat true false false).me.qout = _
      rw [inFlight_me, modMe_me]
      rfl
    refine ⟨e, by rw [hq]; simp, rfl, fun i hi => ?_, rfl, rfl⟩
    refine (rowOf_elem hf (by simpa using hlen) (by simpa using hi)).trans ?_
    simp [List.getD_eq_getElem?_getD, hi]

/-! Failures of the operands' checks. -/

/-- No scoreboarded vector syllable of an older bundle still owes a row of these operands (R299). -/
def RowsSettled (s : State) (os : List Opd) : Prop := ∀ o ∈ os, ∀ r ∈ rowsOf s o.op, s.me.pendingRow (s.winKey r) = false

/-- What fails the tag checks of a vector syllable, in their order. -/
def tagFailures (s : State) (d : Option Opd) (merge : Bool) (srcs : List Opd) : List (Option Word) :=
  (withPops [] srcs).map (fun e => e.1.tagBad s e.2) ++ d.toList.map fun o => if merge || isView o.op then o.rowBad s else none
/-- What fails its shape checks, in their order, where the count allows every operand. -/
def shapeFailures (s : State) (d : Option Opd) (srcs : List Opd) : List (Option Word) :=
  (d.toList ++ srcs).map (fun o => if o.shapeBad s then some (codeWord o.op) else none) ++ [none]

theorem trapFirst_some {code : Byte} {l : List (Option Word)} {v : Word} (h : l.findSome? id = some v) (s : State) :
    trapFirst code l s = .error (.trap code v) s := by
  unfold trapFirst
  rw [h]
  rfl
theorem trapFirst_none {code : Byte} {l : List (Option Word)} (h : l.findSome? id = none) (s : State) : trapFirst code l s = .ok () s := by
  unfold trapFirst
  rw [h]
  rfl

section
variable {s : State} {d : Option Opd} {merge mask : Bool} {srcs : List Opd} {lat : Option Nat} {w : Word}

theorem await_settled (h : RowsSettled s (d.toList ++ srcs)) :
    ((d.toList ++ srcs).all fun o => ((rowsOf s o.op).map s.winKey).all fun r => !s.me.pendingRow r) = true := by
  simp only [List.all_eq_true, List.mem_map, forall_exists_index, and_imp, forall_apply_eq_imp_iff₂, Bool.not_eq_true']
  exact h

theorem vcheck_tag (h : RowsSettled s (d.toList ++ srcs)) (ht : (tagFailures s d merge srcs).findSome? id = some w) :
    vcheck d merge srcs mask lat none false s = .error (.trap 0x04 w) s := by
  unfold vcheck
  rw [bind_ok (get_run _), bind_ok (await_true (await_settled h) _)]
  exact bind_error (trapFirst_some ht s)
theorem vcheck_shape (h : RowsSettled s (d.toList ++ srcs)) (ht : (tagFailures s d merge srcs).findSome? id = none)
    (hs : (shapeFailures s d srcs).findSome? id = some w) : vcheck d merge srcs mask lat none false s = .error (.trap 0x05 w) s := by
  unfold vcheck
  rw [bind_ok (get_run _), bind_ok (await_true (await_settled h) _)]
  refine (bind_ok (trapFirst_none ht s)).trans (bind_error (trapFirst_some (Eq.trans ?_ hs) s))
  simp only [shapeFailures, Bool.false_and, Bool.or_false]

end

/-! Rows as operands. -/

section
variable {s : State} {f : Fmt} {d x y : Fin 64}

/-- The row that fails the tag check of a source in the window. -/
def rowFails (s : State) (f : Fmt) (r : Fin 64) : Prop :=
  r.val < s.me.tabCount ∧ ((s.winRow r.val).valid = false ∨ (s.winRow r.val).tag ≠ f.code)

theorem tagBad_fails {k : Nat} (h : rowFails s f x) : (opd (.row x) f).tagBad s k = some (BitVec.ofNat 64 (s.me.tabBase + x.val)) := by
  obtain ⟨hin, hbad⟩ := h
  have hfails : (s.winRow x.val).valid = true → (s.winRow x.val).tag ≠ f.code := fun hv => hbad.resolve_left (by simp [hv])
  simpa [Opd.tagBad, Opd.rowBad, opd, rowsOf, hin] using hfails
theorem tagBad_passes {k : Nat} (h : ¬rowFails s f x) : (opd (.row x) f).tagBad s k = none := by
  simp only [rowFails, not_and_or, not_or, not_not, Bool.not_eq_false] at h
  rcases h with h | ⟨hv, ht⟩
  · simp [Opd.tagBad, Opd.rowBad, opd, rowsOf, h]
  · simp [Opd.tagBad, Opd.rowBad, opd, rowsOf, hv, ht]
theorem opd_row_op : (opd (.row x) f).op = .row x := rfl
theorem shapeBad_row : (opd (.row x) f).shapeBad s = decide (s.me.tabCount ≤ x.val) := rfl

/-! Which of two sources is reported, and that a destination is merged only where an element is off. -/

theorem tagFailures_first {l : List Opd} {dst : Option Opd} {m : Bool} (hx : rowFails s f x) :
    (tagFailures s dst m (opd (.row x) f :: l)).findSome? id = some (BitVec.ofNat 64 (s.me.tabBase + x.val)) := by
  simp [tagFailures, withPops, tagBad_fails hx]
theorem tagFailures_second {dst : Option Opd} {m : Bool} (hx : ¬rowFails s f x) (hy : rowFails s f y) :
    (tagFailures s dst m [opd (.row x) f, opd (.row y) f]).findSome? id = some (BitVec.ofNat 64 (s.me.tabBase + y.val)) := by
  simp [tagFailures, withPops, tagBad_passes hx, tagBad_fails hy]
theorem tagFailures_one (hx : ¬rowFails s f x) : (tagFailures s (some (opd (.row d) f)) false [opd (.row x) f]).findSome? id = none := by
  simp [tagFailures, withPops, tagBad_passes hx, isView, opd_row_op]
theorem tagFailures_two (hx : ¬rowFails s f x) (hy : ¬rowFails s f y) :
    (tagFailures s (some (opd (.row d) f)) false [opd (.row x) f, opd (.row y) f]).findSome? id = none := by
  simp [tagFailures, withPops, tagBad_passes hx, tagBad_passes hy, isView, opd_row_op]

theorem shapeFailures_dst {l : List Opd} (hd : s.me.tabCount ≤ d.val) :
    (shapeFailures s (some (opd (.row d) f)) l).findSome? id = some (codeWord (.row d)) := by
  simp [shapeFailures, shapeBad_row, hd, opd_row_op]
theorem shapeFailures_first {l : List Opd} (hd : d.val < s.me.tabCount) (hx : s.me.tabCount ≤ x.val) :
    (shapeFailures s (some (opd (.row d) f)) (opd (.row x) f :: l)).findSome? id = some (codeWord (.row x)) := by
  simp [shapeFailures, shapeBad_row, hd, hx, opd_row_op]
theorem shapeFailures_second (hd : d.val < s.me.tabCount) (hx : x.val < s.me.tabCount) (hy : s.me.tabCount ≤ y.val) :
    (shapeFailures s (some (opd (.row d) f)) [opd (.row x) f, opd (.row y) f]).findSome? id = some (codeWord (.row y)) := by
  simp [shapeFailures, shapeBad_row, hd, hx, hy, opd_row_op]

/-- The rows of operands among which no older write without a latency is in flight. -/
theorem rows_settled {rs : List (Fin 64)} (h : ∀ w ∈ s.me.wq, w.due = none → ∀ r ∈ rs, w.eff.writesRow (s.winKey r.val) = false) :
    RowsSettled s (rs.map fun r => opd (.row r) f) := by
  intro o ho r hr
  obtain ⟨q, hq, rfl⟩ := List.mem_map.1 ho
  obtain rfl : r = q.val := by simpa [rowsOf, opd] using hr
  refine Bool.eq_false_iff.2 fun hany => ?_
  obtain ⟨w, hw, hpend⟩ := List.any_eq_true.1 hany
  simp only [Bool.and_eq_true, Option.isNone_iff_eq_none] at hpend
  exact Bool.noConfusion ((h w hw hpend.1.1 q hq).symm.trans hpend.2)

/-- With every element on, no source of the destination is merged. -/
theorem allOn {n : Nat} (hk : s.me.k[s.me.sel] = BitVec.allOnes 256) (hn : n ≤ 256) : ((maskBits s n).any (!·)) = false := by
  refine List.any_eq_false.2 fun b hb => ?_
  obtain ⟨i, hi, rfl⟩ := List.mem_map.1 hb
  have hlt : i < 256 := (List.mem_range.1 hi).trans_le hn
  rw [hk, BitVec.getLsbD_allOnes, decide_eq_true hlt]
  decide

end

section
variable {s : State} {f : Fmt} {d x y : VOp} {e : Stop}

theorem ew2_stops {lat : Nat} {op : Nat → Nat → Nat} (h : vcheck (some (opd d f)) ((maskBits s (elemCount s f [d, x, y])).any (!·))
    [opd x f, opd y f] true (some lat) none false s = .error e s) : ew2 f lat op d x y s = .error e s :=
  (bind_ok (get_run s)).trans (bind_error h)
theorem ew1_stops {lat : Nat} {op : Nat → Nat} (h : vcheck (some (opd d f)) ((maskBits s (elemCount s f [d, x])).any (!·))
    [opd x f] true (some lat) none false s = .error e s) : ew1 f lat op d x s = .error e s :=
  (bind_ok (get_run s)).trans (bind_error h)
theorem vselM_stops (h : vcheck (some (opd d f)) false [opd x f, opd y f] true (some vlatShort) none false s = .error e s) :
    vselM f d x y s = .error e s := (bind_ok (get_run s)).trans (bind_error h)

end

theorem operandTraps : Claims.OperandTraps := by
  intro s f d x y hf hwq bad
  let here : State := { s with mark := .ok }
  have hsettled : RowsSettled here ((some (opd (.row d) f)).toList ++ [opd (.row x) f, opd (.row y) f]) :=
    rows_settled (s := here) (rs := [d, x, y]) fun w hw hdue => by
      obtain ⟨hx, hy, hd⟩ := hwq w hw hdue
      simp only [List.forall_mem_cons]
      exact ⟨hd, hx, hy, by simp⟩
  have hsettled₁ : RowsSettled here ((some (opd (.row d) f)).toList ++ [opd (.row x) f]) :=
    fun o ho => hsettled o (List.mem_append.2 ((List.mem_append.1 ho).imp id fun h => List.mem_cons.2 (.inl (List.mem_singleton.1 h))))
  have hmerge : s.me.k[s.me.sel] = BitVec.allOnes 256 → ((maskBits here f.perRow).any (!·)) = false := fun hk =>
    allOn (s := here) hk (by cases f <;> decide)
  have hpass : ∀ {r : Fin 64}, (r.val < s.me.tabCount → ¬bad r) → ¬rowFails here f r := fun h hr => h hr.1 hr.2
  have hadd : ∀ {e w}, vcheck (some (opd (.row d) f)) ((maskBits here f.perRow).any (!·)) [opd (.row x) f, opd (.row y) f] true
      (some vlatShort) none false here = .error (.trap e w) here → exec (.vadd f (.row d) (.row x) (.row y)) s = .next (trapped s 2 e w) :=
    fun h => runSyl_trap (ew2_stops h)
  have hmov : ∀ {e w}, vcheck (some (opd (.row d) f)) ((maskBits here f.perRow).any (!·)) [opd (.row x) f] true
      (some vlatShort) none false here = .error (.trap e w) here → exec (.vmov f (.row d) (.row x)) s = .next (trapped s 2 e w) :=
    fun h => runSyl_trap ((congrFun (vmovM_of_ne hf _ _) _).trans (ew1_stops h))
  refine ⟨fun hx hbad => ?_, fun hx hgood hy hbad => ?_, fun hx hd hy hk => ?_, fun hy hd hx hgood hk => ?_, fun hd hk hx hy => ?_⟩
  · have hfails : rowFails here f x := ⟨hx, hbad⟩
    exact ⟨hadd (vcheck_tag hsettled (tagFailures_first hfails)), runSyl_trap (vselM_stops (vcheck_tag hsettled (tagFailures_first hfails)))⟩
  · have hfails : rowFails here f y := ⟨hy, hbad⟩
    exact hadd (vcheck_tag hsettled (tagFailures_second (hpass fun _ => hgood) hfails))
  · have hpx := hpass (r := x) fun h => absurd h (Nat.not_lt.2 hx)
    rw [hmerge hk] at hadd hmov
    exact ⟨hadd (vcheck_shape hsettled (tagFailures_two hpx (hpass hy)) (shapeFailures_first (s := here) hd hx)),
      hmov (vcheck_shape hsettled₁ (tagFailures_one hpx) (shapeFailures_first (s := here) hd hx))⟩
  · have hpy := hpass (r := y) fun h => absurd h (Nat.not_lt.2 hy)
    rw [hmerge hk] at hadd
    exact hadd (vcheck_shape hsettled (tagFailures_two (hpass fun _ => hgood) hpy) (shapeFailures_second (s := here) hd hx hy))
  · rw [hmerge hk] at hadd
    exact hadd (vcheck_shape hsettled (tagFailures_two (hpass hx) (hpass hy)) (shapeFailures_dst (s := here) hd))

/-- Settles O27: the writes bit by bit through `packElems`, the traps by the first failure in the lists that `vcheck` goes through. -/
theorem vectorOperands : Obligations.VectorOperands := ⟨vectorWrites, operandTraps⟩

end Sys2Proof.Proofs
end

section
/-! The words of an engine stream itself, and the faults of its launch words (R84, R194, R235, R236, R329). -/
namespace Sys2Proof.Proofs
open Sys2Proof.Machine Sys2Proof.Safety Sys2Proof.Laws

/-! Parts of words. -/

/-- A part of a word that only reads. -/
theorem runWord_reads {α : Type} {s : State} {m : M α} {a : α} (f : α → M Unit) (h : m { s with mark := .ok } = .ok a { s with mark := .ok }) :
    runWord (m >>= f) s = runWord (f a) s := by
  unfold runWord EStateM.run
  rw [bind_ok h]

theorem pushW_run {s : State} (v : Word) (h : s.myStream.stack.length < 8) :
    pushW v s = .ok () (s.modMyStream fun t => { t with stack := v :: s.myStream.stack }) := by
  unfold pushW
  rw [bind_ok (stack_run s), bind_ok (needE_true (decide_eq_true h) _ _)]
  rfl
theorem pushW_full {s : State} (v : Word) (h : 8 ≤ s.myStream.stack.length) : pushW v s = .error (.engine 0x02) s := by
  unfold pushW
  rw [bind_ok (stack_run s)]
  exact bind_error (needE_false (decide_eq_false (Nat.not_lt.2 h)) _ _)

section
variable {s : State} {m : M Unit}

/-- A word that ends with a push. -/
theorem push_leaves (hk : s.curK < 6) (v : Word) (h : s.myStream.stack.length < 8)
    (hm : m { s with mark := .ok } = (do pushW v; wordDone : M Unit) { s with mark := .ok }) :
    runWord m s = .next (nextWord s (v :: s.myStream.stack)) := by
  refine runWord_ok (hm.trans ((bind_ok (pushW_run (s := { s with mark := .ok }) v h)).trans ?_))
  exact congrArg (EStateM.Result.ok ()) (modMyStream_modMyStream { s with mark := .ok } _ _ hk)
theorem push_faults (v : Word) (h : 8 ≤ s.myStream.stack.length)
    (hm : m { s with mark := .ok } = (do pushW v; wordDone : M Unit) { s with mark := .ok }) : runWord m s = .next (wordFaulted s 0x02) :=
  runWord_fault (hm.trans (bind_error (pushW_full (s := { s with mark := .ok }) v h)))

/-- A word that replaces the top of the stack. -/
theorem stackWord_leaves (hk : s.curK < 6) {f : List Word → Option (List Word)} {l : List Word} (h : f s.myStream.stack = some l) :
    runWord (stackWord f) s = .next (nextWord s l) := by
  have h' : f ({ s with mark := .ok } : State).myStream.stack = some l := h
  refine runWord_ok ?_
  unfold stackWord
  rw [bind_ok (stack_run _), h']
  exact stackEnd_run l s hk
theorem stackWord_faults {f : List Word → Option (List Word)} (h : f s.myStream.stack = none) :
    runWord (stackWord f) s = .next (wordFaulted s 0x03) := by
  have h' : f ({ s with mark := .ok } : State).myStream.stack = none := h
  refine runWord_fault (t := { s with mark := .ok }) ?_
  unfold stackWord
  rw [bind_ok (stack_run _), h']
  rfl

end

/-- The entries under a stack of fewer than two. -/
theorem short_stack {l : List Word} (h : l.length < 2) : l = [] ∨ ∃ a, l = [a] := by
  match l, h with
  | [], _ => exact .inl rfl
  | [a], _ => exact .inr ⟨a, rfl⟩

section
variable {s : State} {st l : List Word} {a b : Word}

theorem dup_run (h : s.myStream.stack = a :: l) : exec .dup s = runWord (do pushW a; wordDone) s := by
  refine (runWord_reads _ (stack_run _)).trans ?_
  rw [show ({ s with mark := .ok } : State).myStream.stack = a :: l from h]
theorem over_run (h : s.myStream.stack = b :: a :: l) : exec .over s = runWord (do pushW a; wordDone) s := by
  refine (runWord_reads _ (stack_run _)).trans ?_
  rw [show ({ s with mark := .ok } : State).myStream.stack = b :: a :: l from h]
theorem dup_empty (h : s.myStream.stack = []) : exec .dup s = .next (wordFaulted s 0x03) := by
  refine runWord_fault (t := { s with mark := .ok }) ?_
  rw [bind_ok (stack_run _), show ({ s with mark := .ok } : State).myStream.stack = [] from h]
  rfl
theorem over_short (h : s.myStream.stack.length < 2) : exec .over s = .next (wordFaulted s 0x03) := by
  refine runWord_fault (t := { s with mark := .ok }) ?_
  rw [bind_ok (stack_run _)]
  rcases short_stack h with h | ⟨a, h⟩ <;> rw [show ({ s with mark := .ok } : State).myStream.stack = _ from h] <;> rfl

end

theorem shift_ext (a x : Word) : a <<< 12 ||| x = a * 4096 ||| x := by
  congr 1
  exact BitVec.eq_of_toNat_eq (by simp [Nat.shiftLeft_eq])

theorem stackWords : Claims.StackWords := by
  intro s n m hk st leaves faults
  refine ⟨runWord_ok (wordDone_run _), fun h => push_leaves hk _ h rfl, fun h => push_faults _ h rfl, ?one, ?none, ?two, ?short⟩
  case one =>
    intro a l (h : s.myStream.stack = a :: l)
    refine ⟨stackWord_leaves hk (by rw [h]; exact congrArg (fun w => some (w :: l)) (shift_ext a _)), stackWord_leaves hk (by rw [h]),
      fun hl => ?_, fun hl => ?_⟩
    · exact (dup_run h).trans ((push_leaves hk a (by simp [h]; omega) rfl).trans (by rw [h]))
    · exact (dup_run h).trans (push_faults a (by simp [h]; omega) rfl)
  case none =>
    intro (h : s.myStream.stack = [])
    exact ⟨stackWord_faults (by rw [h]), stackWord_faults (by rw [h]), dup_empty h⟩
  case two =>
    intro a b l (h : s.myStream.stack = b :: a :: l)
    refine ⟨stackWord_leaves hk (by rw [h]), stackWord_leaves hk (by rw [h]), fun hl => ?_, fun hl => ?_⟩
    · exact (over_run h).trans ((push_leaves hk a (by simp [h]; omega) rfl).trans (by rw [h]))
    · exact (over_run h).trans (push_faults a (by simp [h]; omega) rfl)
  case short =>
    intro (h : s.myStream.stack.length < 2)
    refine ⟨?_, ?_, over_short h⟩ <;> refine stackWord_faults ?_ <;> rcases short_stack h with h | ⟨a, h⟩ <;> rw [h]

/-! Flags and flow. -/

theorem modMyStream_congr {s : State} {f g : Stream → Stream} (h : f s.myStream = g s.myStream) : s.modMyStream f = s.modMyStream g := by
  show s.setCtx s.cur { s.me with streams := vset s.me.streams s.curK (f s.myStream) } = _
  rw [h]
  rfl

/-- The entry of a flag, with its producer and its consumer (R194). -/
def FlagEnds (s : State) (f : BitVec 6) (p c : Nat) : Prop :=
  ∃ u e, s.me.running = some u ∧ s.syncOf u.part u.image s.me.forkSet f.toNat = some e ∧ bitsOf e 26 24 = p ∧ bitsOf e 34 32 = c

section
variable {s : State} {f : BitVec 6} {p c : Nat}

theorem syncEnds_run (h : FlagEnds s f p c) : syncEnds f s = .ok (some (p, c)) s := by
  obtain ⟨u, e, hu, he, rfl, rfl⟩ := h
  show EStateM.Result.ok ((s.me.running.bind _).map _) s = _
  rw [hu, Option.bind_some, he]
  rfl

/-- A flag with another count of tokens. -/
def countTo (f : BitVec 6) (m : Nat) (x : Ctx) : Ctx := { x with flags := vset x.flags f.toNat (BitVec.ofNat 8 m) }

/-- Words that count a flag's tokens leave the stack. -/
theorem counted (m : Nat) : (do setTokens f m; wordDone : M Unit) s =
    .ok () ((s.modMe (countTo f m)).modMyStream fun t => { t with stack := s.myStream.stack, pos := t.pos + 1, fetch := t.fetch.drop 1 }) := by
  have hkept : (s.modMe (countTo f m)).myStream = s.myStream :=
    (congrArg (fun x : Ctx => x.stream s.curK) (modMe_me s (countTo f m))).trans rfl
  show EStateM.Result.ok () ((s.modMe (countTo f m)).modMyStream fun t => { t with pos := t.pos + 1, fetch := t.fetch.drop 1 }) = _
  refine congrArg (EStateM.Result.ok ()) (modMyStream_congr ?_)
  rw [hkept]

end

/-! Words whose flag, counter or class is wrong. -/

section
variable {s : State} {f : BitVec 6} {p c : Nat}

/-- The words on a flag, from the end of the stream that they need. -/
theorem sig_run (h : FlagEnds { s with mark := .ok } f p c) : exec (.sig f) s = runWord (do
    needE (p == (← get).curK) 0x07
    await (← streamIdle)
    let n ← tokens f
    needE (decide (n < 255)) 0x06
    setTokens f (n + 1)
    wordDone) s := (runWord_reads _ (syncEnds_run h)).trans rfl
theorem waitt_run (h : FlagEnds { s with mark := .ok } f p c) : exec (.waitt f) s = runWord (do
    needE (c == (← get).curK) 0x07
    let n ← tokens f
    await (n != 0)
    setTokens f (n - 1)
    wordDone) s := (runWord_reads _ (syncEnds_run h)).trans rfl

end

theorem tokens_run (f : BitVec 6) (s : State) : tokens f { s with mark := .ok } = .ok (vget 0 s.me.flags f.toNat).toNat { s with mark := .ok } := rfl
theorem idle {s : State} (hq : s.myStream.queue = []) (hs : s.myStream.started = []) :
    streamIdle { s with mark := .ok } = .ok true { s with mark := .ok } := by
  show EStateM.Result.ok (s.myStream.queue.isEmpty && s.myStream.started.isEmpty) _ = _
  rw [hq, hs]
  rfl
theorem busy {s : State} (h : s.myStream.queue ≠ [] ∨ s.myStream.started ≠ []) :
    streamIdle { s with mark := .ok } = .ok false { s with mark := .ok } := by
  show EStateM.Result.ok (s.myStream.queue.isEmpty && s.myStream.started.isEmpty) _ = _
  rw [show (s.myStream.queue.isEmpty && s.myStream.started.isEmpty) = false by
    simpa only [Bool.and_eq_false_iff, List.isEmpty_eq_false_iff] using h]

/-- What LOOP does with its counter. -/
def loopEnd (d : BitVec 8) (a : Word) (l : List Word) : M Unit :=
  if a.toNat ≤ 1 then do
    setStackTo l
    wordDone
  else upd fun s => s.modMyStream fun t =>
    { t with stack := (a - 1) :: l, pos := t.pos - d.toNat, fetchAt := t.pos - d.toNat, fetch := [] }
theorem loop_run {s : State} {d : BitVec 8} {a : Word} {l : List Word} (hd : d.toNat ≤ s.myStream.pos) (h : s.myStream.stack = a :: l) :
    exec (.loop d) s = runWord (loopEnd d a l) s := by
  show runWord ((gets State.myStream : M Stream) >>= _) s = _
  rw [runWord_reads (m := gets State.myStream) _ (a := s.myStream) rfl, runWord_reads _ (needE_true (decide_eq_true hd) _ _)]
  rw [h]
  rfl

/-- A word that is a launch word of an opcode, with as many operands as the entry says. -/
def Launches (op : Nat) (e : Instr × Nat) : Prop := ∃ check, ∀ s, exec e.1 s = runWord (launchWord op e.2 e.1 check) s

theorem Launches.faults {op : Nat} {e : Instr × Nat} {s : State} (h : Launches op e) :
    (classOk s.curK op = false → exec e.1 s = .next (wordFaulted s 0x04)) ∧
    (classOk s.curK op = true → s.myStream.stack.length < e.2 → exec e.1 s = .next (wordFaulted s 0x03)) := by
  obtain ⟨check, hrun⟩ := h
  exact ⟨fun hc => (hrun s).trans (launchWord_class hc), fun hc hn => (hrun s).trans (launchWord_underflow hc hn)⟩

theorem classOk_matrix {k op : Nat} (h : 0xA0 ≤ op ∧ op < 0xC0) : classOk k op = (k == 0) := by
  simp [classOk, h, Nat.not_lt.2 h.1]
theorem classOk_copy {k op : Nat} (h : 0xC0 ≤ op ∧ op < 0xE0) : classOk k op = (k == 1) := by
  obtain ⟨hlo, hhi⟩ := h
  simp [classOk, hhi, Nat.not_lt.2 hlo, show ¬op < 0xA0 by omega]
theorem classOk_access {k op : Nat} (h : 0xE0 ≤ op) : classOk k op = decide (2 ≤ k) := by
  simp [classOk, Nat.not_lt.2 h, show ¬op < 0xA0 by omega, show ¬op < 0xC0 by omega]

/-- The launch words, each with its opcode (Tables 12-3, 12-7, 12-8). -/
theorem matrix_launches (t h z : Bool) : ∀ e ∈ ([(.lease, 1), (.unlease, 1), (.wload t, 2), (.wswap, 0), (.mma z, 4), (.aclr, 2),
    (.xout h, 3), (.ackpt, 3), (.acload, 3), (.kvapp, 3), (.qk, 4), (.sv, 4), (.splice, 4), (.repair, 3), (.draw, 3)] : List (Instr × Nat)),
    ∃ op, (0xA0 ≤ op ∧ op < 0xC0) ∧ Launches op e := by
  simp only [List.forall_mem_cons]
  exact ⟨⟨0xA0, by decide, _, fun _ => rfl⟩, ⟨0xA1, by decide, _, fun _ => rfl⟩, ⟨0xA2, by decide, _, fun _ => rfl⟩,
    ⟨0xA3, by decide, _, fun _ => rfl⟩, ⟨0xA4, by decide, _, fun _ => rfl⟩, ⟨0xA5, by decide, _, fun _ => rfl⟩,
    ⟨0xA6, by decide, _, fun _ => rfl⟩, ⟨0xA7, by decide, _, fun _ => rfl⟩, ⟨0xA8, by decide, _, fun _ => rfl⟩,
    ⟨0xA9, by decide, _, fun _ => rfl⟩, ⟨0xAA, by decide, _, fun _ => rfl⟩, ⟨0xAB, by decide, _, fun _ => rfl⟩,
    ⟨0xAC, by decide, _, fun _ => rfl⟩, ⟨0xAD, by decide, _, fun _ => rfl⟩, ⟨0xAE, by decide, _, fun _ => rfl⟩, by simp⟩
theorem copy_launches : ∀ e ∈ ([(.get, 3), (.put, 3), (.getr, 3), (.putr, 3), (.fill, 3), (.gather, 4), (.scatter, 4),
    (.publish, 1), (.xfer, 3), (.reduce, 4)] : List (Instr × Nat)), ∃ op, (0xC0 ≤ op ∧ op < 0xE0) ∧ Launches op e := by
  simp only [List.forall_mem_cons]
  exact ⟨⟨0xC0, by decide, _, fun _ => rfl⟩, ⟨0xC1, by decide, _, fun _ => rfl⟩, ⟨0xC2, by decide, _, fun _ => rfl⟩,
    ⟨0xC3, by decide, _, fun _ => rfl⟩, ⟨0xC4, by decide, _, fun _ => rfl⟩, ⟨0xC5, by decide, _, fun _ => rfl⟩,
    ⟨0xC6, by decide, _, fun _ => rfl⟩, ⟨0xC7, by decide, _, fun _ => rfl⟩, ⟨0xC8, by decide, _, fun _ => rfl⟩,
    ⟨0xC9, by decide, _, fun _ => rfl⟩, by simp⟩
theorem access_launches (q : Fin 4) : ∀ e ∈ ([(.aqBase, 1), (.aqDim, 3), (.aqEmit q, 1), (.aqDrain q, 1), (.aqWait, 0)] :
    List (Instr × Nat)), ∃ op, 0xE0 ≤ op ∧ Launches op e := by
  simp only [List.forall_mem_cons]
  exact ⟨⟨0xE0, by decide, _, fun _ => rfl⟩, ⟨0xE1, by decide, _, fun _ => rfl⟩, ⟨0xE2, by decide, _, fun _ => rfl⟩,
    ⟨0xE3, by decide, _, fun _ => rfl⟩, ⟨0xE4, by decide, _, fun _ => rfl⟩, by simp⟩

theorem launchWordFaults : Claims.LaunchWordFaults := by
  intro s t h z q matrix copy access
  refine ⟨fun hk e he => ?mclass, fun hk e he => ?cclass, fun hk e he => ?aclass, fun hk e he => ?mshort, fun hk e he => ?cshort,
    fun hk e he => ?ashort⟩
  case mclass =>
    obtain ⟨op, hop, hl⟩ := matrix_launches t h z e he
    exact hl.faults.1 ((classOk_matrix hop).trans (by simpa using hk))
  case cclass =>
    obtain ⟨op, hop, hl⟩ := copy_launches e he
    exact hl.faults.1 ((classOk_copy hop).trans (by simpa using hk))
  case aclass =>
    obtain ⟨op, hop, hl⟩ := access_launches q e he
    exact hl.faults.1 ((classOk_access hop).trans (by simpa using hk))
  case mshort =>
    obtain ⟨op, hop, hl⟩ := matrix_launches t h z e he
    exact hl.faults.2 ((classOk_matrix hop).trans (by simpa using hk))
  case cshort =>
    obtain ⟨op, hop, hl⟩ := copy_launches e he
    exact hl.faults.2 ((classOk_copy hop).trans (by simpa using hk))
  case ashort =>
    obtain ⟨op, hop, hl⟩ := access_launches q e he
    exact hl.faults.2 ((classOk_access hop).trans (by simpa using hk))

theorem flowWords : Claims.FlowWords := by
  intro s f d hk here st n counts
  refine ⟨fun u e hu he => ?flags, fun hd a l (hst : s.myStream.stack = a :: l) => ?loops, rfl⟩
  case flags =>
    have hends : FlagEnds here f (bitsOf e 26 24) (bitsOf e 34 32) := ⟨u, e, hu, he, rfl, rfl⟩
    refine ⟨fun hp hq hs => ⟨fun hn => ?sig, fun hn => ?full⟩, fun hp hbusy => ?busy, fun hp => ?notProducer,
      fun hc => ⟨fun hn => ?take, fun hn => ?empty⟩, fun hc => ?notConsumer⟩
    case sig =>
      rw [sig_run hends]
      refine runWord_ok ?_
      rw [bind_ok (get_run _), bind_ok (needE_true (by simpa using hp) _ _), bind_ok (idle hq hs), bind_ok (await_true rfl _),
        bind_ok (tokens_run f s), bind_ok (needE_true (decide_eq_true hn) _ _)]
      exact counted _
    case full =>
      rw [sig_run hends]
      refine runWord_fault (t := here) ?_
      rw [bind_ok (get_run _), bind_ok (needE_true (by simpa using hp) _ _), bind_ok (idle hq hs), bind_ok (await_true rfl _),
        bind_ok (tokens_run f s)]
      exact bind_error (needE_false (decide_eq_false (by omega)) _ _)
    case busy =>
      rw [sig_run hends]
      refine runWord_stall (t := here) ?_
      rw [bind_ok (get_run _), bind_ok (needE_true (by simpa using hp) _ _), bind_ok (busy hbusy)]
      exact bind_error (await_false rfl _)
    case notProducer =>
      rw [sig_run hends]
      refine runWord_fault (t := here) ?_
      rw [bind_ok (get_run _)]
      exact bind_error (needE_false (by simpa using hp) _ _)
    case take =>
      rw [waitt_run hends]
      refine runWord_ok ?_
      rw [bind_ok (get_run _), bind_ok (needE_true (by simpa using hc) _ _), bind_ok (tokens_run f s), bind_ok (await_true (bne_iff_ne.2 hn) _)]
      exact counted _
    case empty =>
      rw [waitt_run hends]
      refine runWord_stall (t := here) ?_
      rw [bind_ok (get_run _), bind_ok (needE_true (by simpa using hc) _ _), bind_ok (tokens_run f s)]
      exact bind_error (await_false (bne_eq_false_iff_eq.2 hn) _)
    case notConsumer =>
      rw [waitt_run hends]
      refine runWord_fault (t := here) ?_
      rw [bind_ok (get_run _)]
      exact bind_error (needE_false (by simpa using hc) _ _)
  case loops =>
    have hend := loop_run hd hst
    refine ⟨fun ha => ?_, fun ha => ?_⟩
    · rw [hend, loopEnd, if_pos ha]
      exact runWord_ok (stackEnd_run l s hk)
    · rw [hend, loopEnd, if_neg (by omega)]
      exact runWord_ok rfl

/-- Settles O30: each word's monadic body, step by step, and the launch words by their opcodes' classes. -/
theorem streamWords : Obligations.StreamWords := ⟨stackWords, flowWords, launchWordFaults⟩

end Sys2Proof.Proofs
end

section
/-! A bundle with one syllable that is not NOP (R223, R224, R244, R280). -/
namespace Sys2Proof.Proofs
open Sys2Proof.Machine Sys2Proof.Safety Sys2Proof.Laws

/-- The four syllables of a bundle. -/
def Syllables (b : Bundle) (c i v p : Instr) : Prop := b.ctl = some c ∧ b.int = some i ∧ b.var = some v ∧ b.vpe = some p

/-- A bundle with `i` in one slot and NOP in the others. -/
def Lone (b : Bundle) (i : Instr) : Prop :=
  Syllables b i .nop .nop .nop ∨ Syllables b .nop i .nop .nop ∨ Syllables b .nop .nop i .nop ∨ Syllables b .nop .nop .nop i

section
variable {b : Bundle} {i : Instr} {s t : State}

theorem nop_run (s : State) : exec .nop s = .next { s with mark := .ok } := rfl
theorem marked_ok (h : s.mark = .ok) : ({ s with mark := .ok } : State) = s := by rw [← h]

theorem slotRun_legal (h : ∀ k, illegalAt b k = false) (k : Fin 4) (s : State) : slotRun exec b k s = exec (slotInstr b k) s := by
  rw [slotRun, h k]
  rfl
/-- What each slot of a bundle without ILLEGAL runs. -/
theorem slots_run {c j v p : Instr} (h : ∀ k, illegalAt b k = false) (hb : Syllables b c j v p) (s : State) :
    slotRun exec b 0 s = exec c s ∧ slotRun exec b 1 s = exec j s ∧ slotRun exec b 2 s = exec v s ∧ slotRun exec b 3 s = exec p s := by
  obtain ⟨hc, hj, hv, hp⟩ := hb
  refine ⟨(slotRun_legal h 0 s).trans ?_, (slotRun_legal h 1 s).trans ?_, (slotRun_legal h 2 s).trans ?_, (slotRun_legal h 3 s).trans ?_⟩ <;>
    simp [slotInstr, hc, hj, hv, hp]

/-- The control syllable that stands alone, before what it leaves is kept. -/
theorem issue_ctl (h : ∀ k, illegalAt b k = false) (hb : Syllables b i .nop .nop .nop) (hs : s.mark = .ok) (ht : exec i s = .next t) :
    issueBundle exec b s = if t.mark.stops then .next (s.notIssued t s.me.pc)
      else if t.mark = .hold then .next { t.tickCtx t.cur 1 with mark := .hold, npc := none }
      else .next (s.retires t s.me.pc b.stall.toNat) := by
  have hstops : s.mark.stops = false := by rw [hs]; rfl
  obtain ⟨h0, h1, h2, h3⟩ := slots_run h hb s
  simp only [issueBundle, h0, h1, h2, h3, ht, nop_run, marked_ok hs, andThen, hstops, Bool.false_eq_true, if_false]
/-- A syllable of another slot that stands alone. -/
theorem issue_other (h : ∀ k, illegalAt b k = false) (hb : Lone b i) (hctl : b.ctl = some .nop) (hs : s.mark = .ok) (ht : exec i s = .next t) :
    issueBundle exec b s = if t.mark.stops then .next (s.notIssued t s.me.pc)
      else .next (s.retires { t with mark := .ok } s.me.pc b.stall.toNat) := by
  have hstops : s.mark.stops = false := by rw [hs]; rfl
  have hhold : s.mark ≠ .hold := by rw [hs]; decide
  have hnop : ({ t with mark := .ok } : State).mark.stops = false := rfl
  rcases hb with hb | hb | hb | hb
  · obtain rfl : i = .nop := Option.some.inj (hb.1.symm.trans hctl)
    obtain rfl : s = t := by simpa [nop_run, marked_ok hs] using ht
    rw [issue_ctl h hb hs ht, if_neg hhold, marked_ok hs]
  all_goals
    simp only [issueBundle, slots_run h hb, ht, nop_run, marked_ok hs, andThen, hstops, hnop, hhold, Bool.false_eq_true, if_false]

/-- The syllable's end keeps the bundle from issuing. -/
theorem lone_stops (h : ∀ k, illegalAt b k = false) (hb : Lone b i) (hs : s.mark = .ok) (ht : exec i s = .next t) (hstop : t.mark.stops = true) :
    issueBundle exec b s = .next (s.notIssued t s.me.pc) := by
  by_cases hctl : b.ctl = some .nop
  · rw [issue_other h hb hctl hs ht, if_pos hstop]
  · rw [issue_ctl h (hb.resolve_right fun hr => hctl (hr.elim (·.1) (·.elim (·.1) (·.1)))) hs ht, if_pos hstop]
/-- It lets the bundle issue. -/
theorem lone_ends (h : ∀ k, illegalAt b k = false) (hb : Lone b i) (hs : s.mark = .ok) (ht : exec i s = .next t) (hok : t.mark = .ok) :
    issueBundle exec b s = .next (s.retires t s.me.pc b.stall.toNat) := by
  have hstop : t.mark.stops = false := by rw [hok]; rfl
  by_cases hctl : b.ctl = some .nop
  · rw [issue_other h hb hctl hs ht, if_neg (by simp [hstop]), marked_ok hok]
  · rw [issue_ctl h (hb.resolve_right fun hr => hctl (hr.elim (·.1) (·.elim (·.1) (·.1)))) hs ht, if_neg (by simp [hstop]),
      if_neg (by simp [hok])]
/-- A control syllable that ends with a mark stands in its own slot. -/
theorem lone_ctl (hb : Lone b i) (hctl : b.ctl = some i) (hs : s.mark = .ok) (ht : exec i s = .next t) (hmark : t.mark ≠ .ok) :
    Syllables b i .nop .nop .nop := by
  refine hb.resolve_right fun hr => hmark ?_
  have hn : b.ctl = some .nop := hr.elim (·.1) (·.elim (·.1) (·.1))
  obtain rfl : i = .nop := Option.some.inj (hctl.symm.trans hn)
  obtain rfl : s = t := by simpa [nop_run, marked_ok hs] using ht
  exact hs

/-! What the bundle leaves, by the mark of the syllable's end. -/

theorem retires_ok {pc : Word} {n : Nat} (hm : t.mark = .ok) (h : s.me.spec = false ∨ s.me.stepping = false) :
    s.retires t pc n = t.issued pc n s.me.stepping := by
  rcases h with h | h <;> simp [State.retires, hm, h]
theorem retires_step {pc : Word} {n : Nat} (hm : t.mark = .ok) (hspec : s.me.spec = true) (hstep : s.me.stepping = true) :
    s.retires t pc n = { s.enterTrap s.cur { code := 0x15, val := pc, retired := true } pc with
      mark := .trap { code := 0x15, val := pc, retired := true } } := by
  simp [State.retires, hm, hspec, hstep]
theorem retires_gone {pc : Word} {n : Nat} (hm : t.mark = .gone) : s.retires t pc n = t.issued pc n s.me.stepping := by
  cases hspec : s.me.spec <;> simp [State.retires, hm, hspec]
theorem retires_trap {pc : Word} {n : Nat} {tr : Trap} (hm : t.mark = .trap tr) : s.retires t pc n =
    if s.me.spec then { s.enterTrap s.cur tr pc with mark := .trap tr } else t.issued pc n s.me.stepping := by
  cases hspec : s.me.spec <;> simp [State.retires, hm, hspec]

end

/-- Settles O34: what each slot of a lone syllable's bundle runs, and then a case for each mark. -/
theorem bundleRunsSyllable : Obligations.BundleRunsSyllable := by
  intro b i s t hs hlegal ht pc n lone hb step
  replace hb : Lone b i := hb
  refine ⟨fun hm => ⟨fun h => ?ok, fun hspec hstep => ?stepped⟩, fun hm => ?stall, fun m hm => ?stallTo, fun tr hm hr => ?trap,
    fun hctl hm => ?hold, fun hctl hm => ?gone, fun tr hctl hm hr => ?retired⟩
  case ok => rw [lone_ends hlegal hb hs ht hm, retires_ok hm h]
  case stepped => rw [lone_ends hlegal hb hs ht hm, retires_step hm hspec hstep]
  case stall =>
    rw [lone_stops hlegal hb hs ht (by rw [hm]; rfl), State.notIssued, hm]
  case stallTo =>
    rw [lone_stops hlegal hb hs ht (by rw [hm]; rfl), State.notIssued, hm]
  case trap =>
    rw [lone_stops hlegal hb hs ht (by rw [hm]; simp [Mark.stops, hr]), State.notIssued, hm]
  case hold =>
    rw [issue_ctl hlegal (lone_ctl hb hctl hs ht (by simp [hm])) hs ht, hm]
    rfl
  case gone =>
    rw [issue_ctl hlegal (lone_ctl hb hctl hs ht (by simp [hm])) hs ht, hm, retires_gone hm]
    rfl
  case retired =>
    rw [issue_ctl hlegal (lone_ctl hb hctl hs ht (by simp [hm])) hs ht, hm, if_neg (by simp [Mark.stops, hr]),
      if_neg (fun h => Mark.noConfusion h), retires_trap hm]

end Sys2Proof.Proofs
end

section
/-! Stall counts, results in flight, the vector unit and stores (R73, R74, R82, R126, R164, R171, R211, R215, R223, R244). -/
namespace Sys2Proof.Proofs
open Sys2Proof.Machine Sys2Proof.Safety Sys2Proof.Laws

/-! What is left of a context when time passes for it. -/

section
variable {s t : State} {c n : Nat}

theorem applyEffect_kept {β : Type} (π : Ctx → β) (hg : ∀ x g, π { x with g := g } = π x) (hk : ∀ x k, π { x with k := k } = π x) (s : State)
    (e : Effect) : π ((s.applyEffect c e).ctx c) = π (s.ctx c) := by
  cases e with
  | g r v => exact (congrArg π (setCtx_ctx_same _ _ _)).trans (hg _ _)
  | mask k v => exact (congrArg π (setCtx_ctx_same _ _ _)).trans (hk _ _)
  | rows ws => exact foldl_keeps (fun t : State => π (t.ctx c)) (f := State.writeRow) (fun _ _ => rfl) ws s
  | nothing => rfl

theorem applyWhere_kept {β : Type} (π : Ctx → β) (hg : ∀ x g, π { x with g := g } = π x) (hk : ∀ x k, π { x with k := k } = π x)
    (sel : PendWrite → Bool) : π ((s.applyWhere c sel).ctx c) = π { s.ctx c with wq := (s.ctx c).wq.filter fun w => !sel w } :=
  (foldl_keeps (fun t : State => π (t.ctx c)) (f := fun (t : State) (w : PendWrite) => t.applyEffect c w.eff)
    (fun t w => applyEffect_kept π hg hk t w.eff) _ _).trans
    (congrArg π (setCtx_ctx_same _ _ _))
theorem applyWhere_wq (sel : PendWrite → Bool) : ((s.applyWhere c sel).ctx c).wq = (s.ctx c).wq.filter fun w => !sel w :=
  applyWhere_kept Ctx.wq (fun _ _ => rfl) (fun _ _ => rfl) sel
theorem applyWhere_cycle (sel : PendWrite → Bool) : ((s.applyWhere c sel).ctx c).cycle = (s.ctx c).cycle :=
  applyWhere_kept Ctx.cycle (fun _ _ => rfl) (fun _ _ => rfl) sel

/-- A context whose scratchpad stores have been performed. -/
theorem applySps_ctx : (s.applySps c).ctx c =
    { s.ctx c with sps := (s.ctx c).sps.filter fun e => !decide (e.issued + 4 ≤ (s.ctx c).cycle) } := setCtx_ctx_same _ _ _

/-- The effects that fall due within `n` cycles. -/
def dueWithin (x : Ctx) (n : Nat) (w : PendWrite) : Bool := match w.due with | some d => decide (d ≤ x.cycle + n) | none => false

theorem tickCtx_eq (s : State) (c n : Nat) : s.tickCtx c n =
    ((s.modCtx c fun x => { x with cycle := x.cycle + n }).applyWhere c (dueWithin (s.ctx c) n)).applySps c := by
  unfold State.tickCtx State.modCtx
  dsimp only
  rw [setCtx_ctx_same]
  rfl
theorem tickCtx_cycle : ((s.tickCtx c n).ctx c).cycle = (s.ctx c).cycle + n := by
  rw [tickCtx_eq, applySps_ctx]
  exact (applyWhere_cycle _).trans (congrArg Ctx.cycle (setCtx_ctx_same _ _ _))
theorem tickCtx_wq : ((s.tickCtx c n).ctx c).wq = (s.ctx c).wq.filter fun w => !dueWithin (s.ctx c) n w := by
  rw [tickCtx_eq, applySps_ctx]
  refine (applyWhere_wq _).trans ?_
  rw [State.modCtx, setCtx_ctx_same]
theorem drains_pc (h : Drains c s t) : (t.ctx c).pc = (s.ctx c).pc :=
  (congrArg Ctx.pc h.ctx : (unclocked (t.ctx c)).pc = (unclocked (s.ctx c)).pc)

theorem applyWhere_one {sel : PendWrite → Bool} {w : PendWrite} (hq : (s.ctx c).wq = [w]) (hw : sel w = true) :
    s.applyWhere c sel = (s.modCtx c fun x => { x with wq := [] }).applyEffect c w.eff := by
  unfold State.applyWhere
  simp [hq, hw]
/-- A register write that alone is in flight and falls due. -/
theorem tickCtx_g {r : Reg} {v : Word} {i d : Nat} (hq : (s.ctx c).wq = [{ eff := .g r v, issued := i, due := some d }])
    (hd : d ≤ (s.ctx c).cycle + n) : ((s.tickCtx c n).ctx c).g = (s.ctx c).g.set r v := by
  have hdue : dueWithin (s.ctx c) n { eff := .g r v, issued := i, due := some d } = true := decide_eq_true hd
  let u := s.modCtx c fun x => { x with cycle := x.cycle + n }
  have hu : u.ctx c = { s.ctx c with cycle := (s.ctx c).cycle + n } := setCtx_ctx_same _ _ _
  rw [tickCtx_eq, applySps_ctx]
  refine (congrArg (fun t : State => (t.ctx c).g) (applyWhere_one (s := u) (by rw [hu]; exact hq) (decide_eq_true hd))).trans ?_
  refine (congrArg Ctx.g (setCtx_ctx_same _ _ _)).trans ?_
  show (((u.modCtx c fun x => { x with wq := [] }).ctx c).g).set r v = _
  rw [State.modCtx, setCtx_ctx_same, hu]

end

/-! Scoreboarded writes by number. -/

/-- As many places of a list's front hold an element with a property as elements of the front have it. -/
theorem places_length {α : Type} (p : Option α → Bool) (a l : List α) :
    ((List.range a.length).filter fun i => p (a ++ l)[i]?).length = (a.filter fun e => p (some e)).length := by
  induction a using List.reverseRecOn generalizing l with
  | nil => rfl
  | append_singleton a x ih =>
    rw [List.length_append, List.length_singleton, List.range_succ, List.filter_append, List.filter_append, List.length_append,
      List.length_append, List.append_assoc, ih ([x] ++ l)]
    simp only [List.filter_cons, List.filter_nil]
    cases hx : p (some x) <;> simp [hx]

/-- The place of the first element behind a front that has a property, among all places that do. -/
theorem places_get {α : Type} (p : Option α → Bool) (a b : List α) {w : α} (hw : p (some w) = true) :
    ((List.range (a ++ w :: b).length).filter fun i => p (a ++ w :: b)[i]?)[(a.filter fun e => p (some e)).length]? = some a.length := by
  have hat : p (a ++ w :: b)[a.length]? = true := by simpa using hw
  rw [List.length_append, List.length_cons, Nat.add_comm b.length 1, ← Nat.add_assoc, List.range_add, List.range_succ, List.filter_append,
    List.filter_append, List.append_assoc, ← places_length p a (w :: b), List.getElem?_append_right (Nat.le_refl _), Nat.sub_self,
    List.filter_cons, if_pos hat]
  rfl

section
variable {s : State} {c : Nat} {w : PendWrite} {a b : List PendWrite}

/-- The number of scoreboarded writes before one names its place. -/
theorem scoreboard_place (hq : (s.ctx c).wq = a ++ w :: b) (hw : w.due = none) :
    ((List.range (s.ctx c).wq.length).filter fun i => (((s.ctx c).wq[i]?).map (·.due)) == some none)[(a.filter (·.due.isNone)).length]? =
      some a.length := by
  have h := places_get (fun e : Option PendWrite => e.map (·.due) == some none) a b (w := w) (by simp [hw])
  rw [show (fun e : PendWrite => (some e).map (·.due) == some none) = fun e => e.due.isNone from funext fun e => by
    cases he : e.due <;> simp [he]] at h
  rw [hq]
  exact h

/-- Scoreboarded write `n`, at its place. -/
theorem scoreboard_run (hq : (s.ctx c).wq = a ++ w :: b) (hw : w.due = none) :
    s.scoreboardArrives c (a.filter (·.due.isNone)).length =
      if a.any fun e => e.eff.meets w.eff then s
      else
        let t := s.modCtx c fun y => { y with wq := a ++ b }
        ((if 2 ≤ s.slotState c then t else t.applyEffect c w.eff).sampleLoad c w).slotDrained c := by
  have hget : (s.ctx c).wq[a.length]? = some w := by simp [hq]
  have htake : (s.ctx c).wq.take a.length = a := by simp [hq]
  have herase : (s.modCtx c fun y => { y with wq := y.wq.eraseIdx a.length }) = s.modCtx c fun y => { y with wq := a ++ b } := by
    refine congrArg (fun q => s.setCtx c { s.ctx c with wq := q }) ?_
    rw [hq, List.eraseIdx_append_of_length_le (Nat.le_refl _), Nat.sub_self, List.eraseIdx_cons_zero]
  unfold State.scoreboardArrives
  simp only [scoreboard_place hq hw, hget, htake]
  rw [herase]
  rfl

end

/-- Settles O43: what is left of a context when time passes for it, and the place of a scoreboarded write by its number. -/
theorem contextEvents : Obligations.ContextEvents := by
  intro s c x
  refine ⟨?stall, fun r v i d hq hsps => ?latency, fun a b w r v hq hdue heff => ⟨?older, fun hnone => ?arrives⟩, ?vector, fun hsq => ?empty,
    fun e es hsq => ⟨fun h => ?performed, fun hst hroom => ?waits⟩⟩
  case stall =>
    have hd := drains_tick s c x.stall
    exact ⟨_, rfl, congrArg Ctx.stall (setCtx_ctx_same _ _ _), (congrArg Ctx.cycle (setCtx_ctx_same _ _ _)).trans tickCtx_cycle,
      (congrArg Ctx.pc (setCtx_ctx_same _ _ _)).trans (drains_pc hd), fun d hne => (setCtx_ctx_ne _ _ hne).trans (hd.other d hne)⟩
  case latency =>
    change (s.ctx c).wq = _ at hq
    have hrun : s.latencyElapsed c = s.tickCtx c (d - x.cycle) := by
      simp only [State.latencyElapsed, hq]
      rfl
    have hle : d ≤ (s.ctx c).cycle + (d - (s.ctx c).cycle) := by omega
    have hend : (s.ctx c).cycle + (d - (s.ctx c).cycle) = max (s.ctx c).cycle d := by omega
    refine ⟨_, runEvent_of_eq (·.latencyElapsed c) hrun, tickCtx_g hq hle, ?_, tickCtx_cycle.trans hend,
      drains_pc (t := s.tickCtx c (d - x.cycle)) (drains_tick s c _)⟩
    refine tickCtx_wq.trans ?_
    rw [hq]
    simp [dueWithin, show d ≤ (s.ctx c).cycle + (d - x.cycle) from hle]
  case older =>
    rintro ⟨e, he, hmeets⟩
    exact runEvent_of_eq (·.scoreboardArrives c _) ((scoreboard_run hq hdue).trans (if_pos (List.any_eq_true.2 ⟨e, he, hmeets⟩)))
  case arrives =>
    intro t
    refine runEvent_of_eq (·.scoreboardArrives c _) ((scoreboard_run hq hdue).trans ((if_neg ?_).trans (congrArg (fun t : State => t.slotDrained c) ?_)))
    · simpa using hnone
    · have ht : (if 2 ≤ s.slotState c then s.modCtx c fun y => { y with wq := a ++ b }
          else (s.modCtx c fun y => { y with wq := a ++ b }).applyEffect c w.eff) = t := by
        split
        · rename_i hslot
          simp only [t, if_pos hslot]
        · rename_i hslot
          simp only [t, if_neg hslot, heff, State.applyEffect, State.modCtx, setCtx_ctx_same, setCtx_setCtx]
      have hcycle : (t.ctx c).cycle = x.cycle := (congrArg Ctx.cycle (setCtx_ctx_same s c _)).trans rfl
      simp only [ht, State.sampleLoad, hcycle]
  case vector =>
    refine ⟨_, rfl, fun w hw => ?_, drains_pc (t := s.drainVec c) ((drains_tick s c _).trans (drains_applyWhere _ c (·.vec)))⟩
    have hmem : w ∈ ((((s.tickCtx c _).ctx c).wq).filter fun w => !w.vec) := (applyWhere_wq (·.vec)) ▸ hw
    simpa using (List.mem_filter.1 hmem).2
  case empty =>
    refine runEvent_of_eq (fun s => (s.performHead c).slotDrained c) (congrArg (fun t : State => t.slotDrained c) ?_)
    unfold State.performHead
    rw [hsq]
  case performed =>
    refine runEvent_of_eq (fun s => (s.performHead c).slotDrained c) (congrArg (fun t : State => t.slotDrained c) ?_)
    unfold State.performHead
    rw [hsq]
    exact if_neg (by rcases h with h | h <;> simp [h])
  case waits =>
    refine runEvent_of_eq (fun s => (s.performHead c).slotDrained c) (congrArg (fun t : State => t.slotDrained c) ?_)
    unfold State.performHead
    rw [hsq]
    exact if_pos (by simp [hst, hroom])

end Sys2Proof.Proofs
end

section
/-! Rails, phases, the dealer's registers and the supply (R93, R214, R382, R384, R386, R389, R399). -/
namespace Sys2Proof.Proofs
open Sys2Proof.Machine Sys2Proof.Safety Sys2Proof.Laws

/-! What events of power and heat leave alone. -/

theorem Apart.eventAll {β : Type} {π : State → β} (h : Apart π) (s : State) (cond : Nat → Bool) (q kind cause sub loc value launch : Nat) :
    π (s.eventAll cond q kind cause sub loc value launch) = π s :=
  eventAll_keeps h.still (fun t p _ _ => h.modPart t p _) s _ _ _ _ _ _ _ _

/-- A cluster but for its L2. -/
theorem apart_cluster (c : Nat) : Apart fun s => noL2 (s.cluster c) :=
  ⟨fun h => h.cluster c, fun _ _ => rfl, fun _ _ => rfl, fun _ _ => rfl⟩
/-- What a cluster's rail has, and what it had before the supply failed. -/
theorem apart_rail (c : Nat) : Apart fun s => ((s.cluster c).low, (s.cluster c).held) :=
  ⟨fun h => (congrArg (fun x : Cluster => (x.low, x.held)) (h.cluster c) :), fun _ _ => rfl, fun _ _ => rfl, fun _ _ => rfl⟩
/-- Zones, the reports, the supply and the time. -/
def package (s : State) : Assoc Zone × List Nat × Bool × Word := (s.zones, s.mgmt, s.supplyBad, s.timebase)
theorem apart_package : Apart package := ⟨fun h => (congrArg package h.rest :), fun _ _ => rfl, fun _ _ => rfl, fun _ _ => rfl⟩

/-- What one element of a list without repetition brings about where the others have let it, and they keep. -/
theorem foldl_once {σ α : Type} {P Q : σ → Prop} {f : σ → α → σ} {a : α} {l : List α} (ha : a ∈ l) (hl : l.Nodup)
    (hP : ∀ t b, b ≠ a → P t → P (f t b)) (hQ : ∀ t b, b ≠ a → Q t → Q (f t b)) (h : ∀ t, P t → Q (f t a)) {s : σ} (hs : P s) :
    Q (l.foldl f s) := by
  have hrest : ∀ (l : List α) (s : σ), a ∉ l → Q s → Q (l.foldl f s) := by
    intro l
    induction l with
    | nil => exact fun _ _ h => h
    | cons b l ih =>
      intro s hn hq
      obtain ⟨hb, hn⟩ := not_or.1 (mt List.mem_cons.2 hn)
      exact ih _ hn (hQ s b (Ne.symm hb) hq)
  induction l generalizing s with
  | nil => cases ha
  | cons b l ih =>
    obtain ⟨hb, hl⟩ := List.nodup_cons.1 hl
    rcases List.mem_cons.1 ha with rfl | ha
    · exact hrest l _ hb (h s hs)
    · exact ih ha hl (hP s b (fun e => hb (e ▸ ha)) hs)

/-! Rails. -/

section
variable {s : State} {c d : Nat} {low : Bool}

theorem writeRail_low (s : State) (c : Nat) (low : Bool) (hb : (s.cluster c).busy = false) :
    ((s.writeRail c low).cluster c).low = low ∧ ((s.writeRail c low).cluster c).held = (s.cluster c).held := by
  unfold State.writeRail
  dsimp only
  split
  · rename_i h
    exact ⟨by simpa [hb] using h, rfl⟩
  · rw [State.modCluster, setCluster_cluster_same]
    exact ⟨rfl, rfl⟩
theorem writeRail_other (low : Bool) (h : d ≠ c) : (s.writeRail c low).cluster d = s.cluster d := by
  unfold State.writeRail
  dsimp only
  split
  · rfl
  · exact setCluster_cluster_ne _ _ h
theorem writeRail_package (s : State) (c : Nat) (low : Bool) : package (s.writeRail c low) = package s ∧ (s.writeRail c low).gridRows = s.gridRows := by
  unfold State.writeRail
  dsimp only
  split <;> exact ⟨rfl, rfl⟩

end

theorem setRail_moves {s : State} {c : Nat} {low : Bool} (hs : s.supplyBad = false) (hb : (s.cluster c).busy = false)
    (hl : (s.cluster c).low ≠ low) : s.setRail c low = s.modCluster c fun y => { y with low := low, busy := true } := by
  unfold State.setRail
  rw [if_neg (by simp [hs])]
  exact if_neg (by simpa [hb] using hl)

/-! CADENCE. -/

section
variable {s : State} {r q v : Nat}

theorem writeCadence_same : (s.writeCadence r v).gridRow r = { s.gridRow r with cadence := BitVec.ofNat 64 v } := by
  unfold State.writeCadence
  split
  · rename_i h
    rw [← h, BitVec.ofNat_toNat, BitVec.setWidth_eq]
  · exact ((apart_gridRow r).eventAll _ _ _ _ _ _ _ _ _).trans (setGridRow_gridRow_same _ _ _)
theorem writeCadence_keeps {β : Type} {π : State → β} (h : Apart π) (hg : ∀ (t : State) n x, π (t.setGridRow n x) = π t) :
    π (s.writeCadence r v) = π s := by
  unfold State.writeCadence
  split
  · rfl
  · exact (h.eventAll _ _ _ _ _ _ _ _ _).trans (hg s r _)
theorem writeCadence_other (h : q ≠ r) : (s.writeCadence r v).gridRow q = s.gridRow q := by
  unfold State.writeCadence
  split
  · rfl
  · exact ((apart_gridRow q).eventAll _ _ _ _ _ _ _ _ _).trans (setGridRow_gridRow_ne _ _ h)

end

/-! Fields of a word. -/

theorem bitsOf_extract (v : Word) (hi lo : Nat) : bitsOf v.toNat hi lo = (v.extractLsb' lo (hi + 1 - lo)).toNat := by
  rw [BitVec.extractLsb'_toNat, Nat.shiftRight_eq_div_pow, bitsOf]

/-- The phases of a domain that begin now. -/
def restart (t : State) (c : Nat) : State := t.modCluster c fun y => { y with phases := 0, phaseAt := t.now }

/-- The phases of a domain have begun at a time, which is now. -/
def RestartedAt (n c : Nat) (t : State) : Prop := t.now = n ∧ (t.cluster c).phases = 0 ∧ (t.cluster c).phaseAt = n
theorem restart_same {t : State} {n c : Nat} (h : t.now = n) : RestartedAt n c (restart t c) := by
  refine ⟨h, ?_, ?_⟩ <;> rw [restart, State.modCluster, setCluster_cluster_same]
  exact h
theorem restart_keeps {t : State} {n c d : Nat} (h : RestartedAt n c t) : RestartedAt n c (restart t d) := by
  by_cases hd : c = d
  · exact hd ▸ restart_same h.1
  · have hother : (restart t d).cluster c = t.cluster c := setCluster_cluster_ne _ _ hd
    exact ⟨h.1, (congrArg Cluster.phases hother).trans h.2.1, (congrArg Cluster.phaseAt hother).trans h.2.2⟩

theorem restart_all {s : State} {n q : Nat} {l : List Nat} (k : Nat) (hq : q ∈ l) (h : s.now = n) :
    RestartedAt n (k + q) (l.foldl (fun t i => restart t (k + i)) s) :=
  foldl_reaches (P := fun t : State => t.now = n) (Q := RestartedAt n (k + q)) (f := fun t i => restart t (k + i)) hq
    (fun _ _ h => h) (fun _ _ => restart_keeps) (fun _ h => restart_same h) h
theorem restart_stack {s : State} (l : List Nat) (k stk : Nat) : (l.foldl (fun t i => restart t (k + i)) s).stack stk = s.stack stk :=
  foldl_keeps (fun t : State => t.stack stk) (f := fun t i => restart t (k + i)) (fun _ _ => rfl) l s

theorem writePhase_refused {s : State} {v : Word} (stk : Nat) (h : v &&& ~~~0xFFFF000C ≠ 0) : s.writePhase stk v = s := by
  unfold State.writePhase
  exact if_pos (by simpa using .inl h)
theorem writePhase_taken {s : State} {v : Word} (stk : Nat) (h : v &&& ~~~0xFFFF000C = 0)
    (hp : v.extractLsb' 2 2 = 0 ∨ v.extractLsb' 16 16 ≠ 0) :
    s.writePhase stk v = (List.range 16).foldl (fun t i => restart t (stk * 16 + i)) (s.modStack stk fun x => { x with phaseCtl := v }) := by
  have hcol : bitsOf v.toNat 3 2 = (v.extractLsb' 2 2).toNat := bitsOf_extract v 3 2
  have hperiod : bitsOf v.toNat 31 16 = (v.extractLsb' 16 16).toNat := bitsOf_extract v 31 16
  have hfields : (bitsOf v.toNat 3 2 != 0 && bitsOf v.toNat 31 16 == 0) = false := by
    rw [hcol, hperiod]
    rcases hp with hp | hp
    · rw [hp]
      rfl
    · exact Bool.and_eq_false_iff.2 (.inr (beq_eq_false_iff_ne.2 fun h0 => hp (BitVec.eq_of_toNat_eq h0)))
  unfold State.writePhase
  exact if_neg (by rw [hfields, Bool.or_false]; exact fun h' => bne_iff_ne.1 h' h)

theorem cadence_number {num : BitVec 15} {i : Nat} (hi : i < 128) (h : num.toNat = 0x1000 + i) : SysReg.ofNum num.toNat = some (.cadence i) := by
  have hall : ∀ j : Fin 128, SysReg.ofNum (0x1000 + j.val) = some (.cadence j.val) := by decide
  rw [h]
  exact hall ⟨i, hi⟩

theorem dealerWrite_cadence {s : State} {num : BitVec 15} {i : Nat} {v : Word} (hi : i < 128) (h : num.toNat = 0x1000 + i) :
    s.dealerWrite (.special num) v = if 1 ≤ v.toNat ∧ v.toNat ≤ 16 then s.setCadence i v.toNat else s := by
  unfold State.dealerWrite
  simp only [cadence_number hi h]

theorem not_between {v : Word} {n : Nat} (h : v = 0 ∨ n < v.toNat) : ¬(1 ≤ v.toNat ∧ v.toNat ≤ n) := by
  rcases h with rfl | h
  · simp
  · omega

theorem isHottest_iff {s : State} {clu : Nat} (hl : (s.cluster clu).low = false) :
    s.isHottest clu = true ↔ ∀ d, d < 64 → (s.cluster d).low = false → s.heatOf d ≤ s.heatOf clu := by
  simp only [State.isHottest, hl, Bool.not_false, Bool.true_and, List.all_eq_true, List.mem_range, Bool.or_eq_true, decide_eq_true_eq]
  refine forall_congr' fun d => imp_congr_right fun _ => ?_
  cases (s.cluster d).low <;> simp

theorem powerEvents : Claims.PowerEvents := by
  intro s clu stk i low v x
  refine ⟨fun hs hb hl => ?switch, fun h => ?noSwitch,
    fun hl hlim => ⟨fun hs hb hhot ht => ?overLimit, fun d hd hdl hheat => ?cooler, fun t ht hlt => ?soon⟩,
    fun hb => ?done, fun hv hp => ?phase, fun hv => ?noPhase, ?boundary, fun hi num hnum hs => ⟨fun h1 h16 => ?cadence, fun hout => ?noCadence⟩,
    fun h1 h2 => ?thresh, fun hout => ?noThresh⟩
  case switch =>
    exact runEvent_of_eq (·.setRail clu low) (setRail_moves hs hb hl)
  case noSwitch =>
    refine runEvent_of_eq (·.setRail clu low) ?_
    unfold State.setRail
    split
    · rfl
    · rename_i hs
      exact if_pos (by simpa using h.resolve_left hs)
  case overLimit =>
    have hbusy : (s.cluster clu).busy = false := hb
    have hlow : (s.cluster clu).low = false := hl
    refine runEvent_of_eq (·.overPower clu) ?_
    have hnow : (s.powerAt.any fun t => decide (s.now < t + 10000)) = false := by
      cases hp : s.powerAt with
      | none => rfl
      | some t => simpa using ht t hp
    unfold State.overPower
    rw [if_neg (by simp [hlim, (isHottest_iff hl).2 hhot, hs, hbusy, hnow]), setRail_moves hs hb (low := true) (by simp [hlow])]
  case cooler =>
    refine runEvent_of_eq (·.overPower clu) (if_pos (.inr (.inl ?_)))
    have hnot : s.isHottest clu ≠ true := fun h => absurd ((isHottest_iff hl).1 h d hd hdl) (Int.not_le.2 hheat)
    simpa using hnot
  case soon =>
    refine runEvent_of_eq (·.overPower clu) (if_pos (.inr (.inr (.inr (.inr ?_)))))
    rw [ht]
    simpa using hlt
  case done =>
    let u := s.modCluster clu fun y => { y with busy := false, phases := 0, phaseAt := s.now }
    have hu : u.cluster clu = { x with busy := false, phases := 0, phaseAt := s.now } := setCluster_cluster_same _ _ _
    have hkept : noL2 ((s.railDone clu).cluster clu) = noL2 (u.cluster clu) := by
      unfold State.railDone
      rw [if_pos hb]
      exact (apart_cluster clu).eventAll _ _ _ _ _ _ _ _ _
    rw [hu] at hkept
    exact ⟨_, rfl, (congrArg Cluster.busy hkept :), (congrArg Cluster.low hkept :), (congrArg Cluster.phases hkept :),
      (congrArg Cluster.phaseAt hkept :)⟩
  case phase =>
    obtain ⟨u, hu, hstack, hdomains⟩ : ∃ u, s.writePhase stk v = u ∧ (u.stack stk).phaseCtl = v ∧
        ∀ q, q < 16 → RestartedAt s.now (stk * 16 + q) u :=
      ⟨_, writePhase_taken stk hv hp, (congrArg Stack.phaseCtl ((restart_stack _ _ _).trans (setStack_stack_same _ _ _))).trans rfl,
        fun q hq => restart_all _ (List.mem_range.2 hq) rfl⟩
    exact ⟨_, runEvent_of_eq (·.writePhase stk v) hu, hstack, fun q hq => (hdomains q hq).2⟩
  case noPhase => exact runEvent_of_eq (·.writePhase stk v) (writePhase_refused stk hv)
  case boundary =>
    intro period hp hb
    have hperiod : bitsOf (s.stack (clu / 16)).phaseCtl.toNat 31 16 = period := bitsOf_extract _ 31 16
    refine ⟨fun h => runEvent_of_eq (·.nextPhase clu) ?_, fun h => runEvent_of_eq (·.nextPhase clu) ?_⟩
    · exact if_pos ⟨hperiod ▸ hp, by simpa using hb, hperiod ▸ h⟩
    · exact if_neg fun hn => absurd (hperiod ▸ hn.2.2) (Nat.not_le.2 h)
  case cadence =>
    have hrun : s.dealerWrite (.special num) v = s.writeCadence i v.toNat := by
      rw [dealerWrite_cadence hi hnum, if_pos ⟨h1, h16⟩, State.setCadence, if_neg (by simp [hs])]
    refine ⟨_, runEvent_of_eq (·.dealerWrite (.special num) v) hrun, (congrArg GridRow.cadence writeCadence_same).trans ?_⟩
    exact (BitVec.ofNat_toNat _ _).trans (BitVec.setWidth_eq v)
  case noCadence =>
    refine runEvent_of_eq (·.dealerWrite (.special num) v) ((dealerWrite_cadence hi hnum).trans (if_neg ?_))
    exact not_between hout
  case thresh => exact runEvent_of_eq (·.dealerWrite (.beatThreshold i) v) (if_pos ⟨h1, h2⟩)
  case noThresh => exact runEvent_of_eq (·.dealerWrite (.beatThreshold i) v) (if_neg (not_between hout))

/-! The supply. -/

/-- What the end of a supply does to a rail and to a grid row, and what its return does. -/
def lowerRail (t : State) (c : Nat) : State :=
  let was := (t.cluster c).low
  let t := if (t.cluster c).busy then t.modCluster c fun y => { y with low := true } else t.writeRail c true
  t.modCluster c fun y => { y with held := some was }
def slowRow (t : State) (r : Nat) : State := (t.modGridRow r fun y => { y with held := some y.cadence }).writeCadence r 16
def returnRail (t : State) (c : Nat) : State :=
  match (t.cluster c).held with
  | none => t
  | some low =>
    let t := t.modCluster c fun y => { y with held := none }
    if (t.cluster c).busy then t.modCluster c fun y => { y with low := low } else t.writeRail c low
def returnRow (t : State) (r : Nat) : State :=
  match (t.gridRow r).held with
  | none => t
  | some v => (t.modGridRow r fun y => { y with held := none }).writeCadence r v.toNat


section
variable {s t : State} {c d r q : Nat}

theorem lowerRail_same (t : State) (c : Nat) :
    (((lowerRail t c).cluster c).low, ((lowerRail t c).cluster c).held) = (true, some (t.cluster c).low) := by
  unfold lowerRail
  dsimp only
  rw [State.modCluster, setCluster_cluster_same]
  split
  · rw [State.modCluster, setCluster_cluster_same]
  · rename_i h
    rw [(writeRail_low t c true (by simpa using h)).1]
theorem lowerRail_other (h : d ≠ c) : (lowerRail t c).cluster d = t.cluster d := by
  unfold lowerRail
  refine (setCluster_cluster_ne _ _ h).trans ?_
  split
  · exact setCluster_cluster_ne _ _ h
  · exact writeRail_other true h
theorem lowerRail_keeps (t : State) (c : Nat) : package (lowerRail t c) = package t ∧ (lowerRail t c).gridRows = t.gridRows := by
  unfold lowerRail
  dsimp only
  split
  · exact ⟨rfl, rfl⟩
  · exact writeRail_package t c true
theorem slowRow_same (t : State) (r : Nat) : (slowRow t r).gridRow r = { t.gridRow r with cadence := 16, held := some (t.gridRow r).cadence } := by
  rw [slowRow, writeCadence_same, State.modGridRow, setGridRow_gridRow_same]
  rfl
theorem slowRow_other (h : q ≠ r) : (slowRow t r).gridRow q = t.gridRow q := (writeCadence_other h).trans (setGridRow_gridRow_ne _ _ h)
theorem slowRow_keeps {β : Type} {π : State → β} (h : Apart π) (hg : ∀ (t : State) n x, π (t.setGridRow n x) = π t) (t : State) (r : Nat) :
    π (slowRow t r) = π t := (writeCadence_keeps h hg).trans (hg t r _)

theorem returnRail_same {low : Bool} (h : (t.cluster c).held = some low) :
    (((returnRail t c).cluster c).low, ((returnRail t c).cluster c).held) = (low, none) := by
  unfold returnRail
  simp only [h]
  split
  · rw [State.modCluster, setCluster_cluster_same, State.modCluster, setCluster_cluster_same]
  · rename_i hb
    obtain ⟨hlow, hheld⟩ := writeRail_low (t.modCluster c fun y => { y with held := none }) c low (by simpa using hb)
    rw [hlow, hheld, State.modCluster, setCluster_cluster_same]
theorem returnRail_other (h : d ≠ c) : (returnRail t c).cluster d = t.cluster d := by
  unfold returnRail
  split
  · rfl
  · dsimp only
    split
    · exact (setCluster_cluster_ne _ _ h).trans (setCluster_cluster_ne _ _ h)
    · exact (writeRail_other _ h).trans (setCluster_cluster_ne _ _ h)
theorem returnRail_keeps (t : State) (c : Nat) : package (returnRail t c) = package t ∧ (returnRail t c).gridRows = t.gridRows := by
  unfold returnRail
  split
  · exact ⟨rfl, rfl⟩
  · dsimp only
    split
    · exact ⟨rfl, rfl⟩
    · exact writeRail_package _ _ _
theorem returnRow_same {v : Word} (h : (t.gridRow r).held = some v) : (returnRow t r).gridRow r = { t.gridRow r with cadence := v, held := none } := by
  unfold returnRow
  simp only [h]
  rw [writeCadence_same, State.modGridRow, setGridRow_gridRow_same, BitVec.ofNat_toNat, BitVec.setWidth_eq]
theorem returnRow_other (h : q ≠ r) : (returnRow t r).gridRow q = t.gridRow q := by
  unfold returnRow
  split
  · rfl
  · exact (writeCadence_other h).trans (setGridRow_gridRow_ne _ _ h)
theorem returnRow_keeps {β : Type} {π : State → β} (h : Apart π) (hg : ∀ (t : State) n x, π (t.setGridRow n x) = π t) (t : State) (r : Nat) :
    π (returnRow t r) = π t := by
  unfold returnRow
  split
  · rfl
  · exact (writeCadence_keeps h hg).trans (hg t r _)

end

/-- What each rail has, once every rail of a list has been changed by itself, and each row likewise. -/
theorem rails_end {f : State → Nat → State} {s : State} {c : Nat} {l : List Nat} {e : Bool × Option Bool} (hc : c ∈ l) (hl : l.Nodup)
    (hother : ∀ t d, d ≠ c → (f t d).cluster c = t.cluster c)
    (hsame : ∀ t : State, t.cluster c = s.cluster c → (((f t c).cluster c).low, ((f t c).cluster c).held) = e) :
    (((l.foldl f s).cluster c).low, ((l.foldl f s).cluster c).held) = e :=
  foldl_once (P := fun t : State => t.cluster c = s.cluster c) (Q := fun t : State => ((t.cluster c).low, (t.cluster c).held) = e) hc hl
    (fun t d hd h => (hother t d hd).trans h) (fun t d hd h => by rw [hother t d hd]; exact h) hsame rfl
theorem rows_end {f : State → Nat → State} {s : State} {r : Nat} {l : List Nat} {g : GridRow} (hr : r ∈ l) (hl : l.Nodup)
    (hother : ∀ t q, q ≠ r → (f t q).gridRow r = t.gridRow r) (hsame : ∀ t : State, t.gridRow r = s.gridRow r → (f t r).gridRow r = g) :
    (l.foldl f s).gridRow r = g :=
  foldl_once (P := fun t : State => t.gridRow r = s.gridRow r) (Q := fun t : State => t.gridRow r = g) hr hl
    (fun t q hq h => (hother t q hq).trans h) (fun t q hq h => (hother t q hq).trans h) hsame rfl

theorem gridRow_congr {s t : State} {r : Nat} (h : t.gridRows = s.gridRows) : t.gridRow r = s.gridRow r := by
  unfold State.gridRow
  rw [h]

/-- Rails lowered and rows slowed down. -/
theorem supply_lowers (s : State) {cs rs : List Nat} (hcs : cs.Nodup) (hrs : rs.Nodup) :
    let w := rs.foldl slowRow (cs.foldl lowerRail s)
    package w = package s ∧ (∀ c ∈ cs, ((w.cluster c).low, (w.cluster c).held) = (true, some (s.cluster c).low)) ∧
      ∀ r ∈ rs, w.gridRow r = { s.gridRow r with cadence := 16, held := some (s.gridRow r).cadence } := by
  generalize hu : cs.foldl lowerRail s = u
  have hgrid : ∀ r, u.gridRow r = s.gridRow r := fun r =>
    hu ▸ gridRow_congr (foldl_keeps State.gridRows (fun t c => (lowerRail_keeps t c).2) cs s)
  refine ⟨?_, fun c hc => ?_, fun r hr => ?_⟩
  · exact (foldl_keeps package (slowRow_keeps apart_package fun _ _ _ => rfl) rs u).trans
      (hu ▸ foldl_keeps package (fun t c => (lowerRail_keeps t c).1) cs s)
  · exact (foldl_keeps _ (slowRow_keeps (apart_rail c) fun _ _ _ => rfl) rs u).trans (hu ▸ rails_end hc hcs
      (fun t d hd => lowerRail_other hd.symm) fun t ht => (lowerRail_same t c).trans (by rw [ht]))
  · exact rows_end hr hrs (fun t q hq => slowRow_other (Ne.symm hq)) fun t ht => (slowRow_same t r).trans (by rw [ht, hgrid])
/-- Rails and rows brought back. -/
theorem supply_returns (s : State) {cs rs : List Nat} (hcs : cs.Nodup) (hrs : rs.Nodup) :
    let w := rs.foldl returnRow (cs.foldl returnRail s)
    package w = package s ∧ (∀ c ∈ cs, ∀ low, (s.cluster c).held = some low → ((w.cluster c).low, (w.cluster c).held) = (low, none)) ∧
      ∀ r ∈ rs, ∀ v, (s.gridRow r).held = some v → w.gridRow r = { s.gridRow r with cadence := v, held := none } := by
  generalize hu : cs.foldl returnRail s = u
  have hgrid : ∀ r, u.gridRow r = s.gridRow r := fun r =>
    hu ▸ gridRow_congr (foldl_keeps State.gridRows (fun t c => (returnRail_keeps t c).2) cs s)
  refine ⟨?_, fun c hc low hheld => ?_, fun r hr v hheld => ?_⟩
  · exact (foldl_keeps package (returnRow_keeps apart_package fun _ _ _ => rfl) rs u).trans
      (hu ▸ foldl_keeps package (fun t c => (returnRail_keeps t c).1) cs s)
  · exact (foldl_keeps _ (returnRow_keeps (apart_rail c) fun _ _ _ => rfl) rs u).trans (hu ▸ rails_end hc hcs
      (fun t d hd => returnRail_other hd.symm) fun t ht => returnRail_same ((congrArg Cluster.held ht).trans hheld))
  · exact rows_end hr hrs (fun t q hq => returnRow_other (Ne.symm hq))
      fun t ht => (returnRow_same (by rw [ht, hgrid]; exact hheld)).trans (by rw [ht, hgrid])

theorem supplyFails_eq {s : State} (hs : s.supplyBad = false) : s.supplyFails =
    { (List.range 128).foldl slowRow ((List.range 64).foldl lowerRail s) with supplyBad := true }.report 1 := by
  unfold State.supplyFails
  exact if_neg (by simp [hs])
theorem supplyBack_eq {s : State} (hs : s.supplyBad = true) : s.supplyBack =
    (List.range 128).foldl returnRow ((List.range 64).foldl returnRail { s with supplyBad := false }) := by
  unfold State.supplyBack
  exact if_neg (by simp [hs])

theorem supplyEvents : Claims.SupplyEvents := by
  intro s
  refine ⟨fun hs => ?fails, fun hs => runEvent_of_eq (·.supplyFails) (if_pos hs), fun hs => ?back,
    fun hs => runEvent_of_eq (·.supplyBack) (if_pos (by simp [hs]))⟩
  case fails =>
    obtain ⟨w, hrun, hpackage, hrails, hrows⟩ : ∃ w : State, s.supplyFails = { w with supplyBad := true }.report 1 ∧ package w = package s ∧
        (∀ c ∈ List.range 64, ((w.cluster c).low, (w.cluster c).held) = (true, some (s.cluster c).low)) ∧
        ∀ r ∈ List.range 128, w.gridRow r = { s.gridRow r with cadence := 16, held := some (s.gridRow r).cadence } :=
      ⟨_, supplyFails_eq hs, supply_lowers s List.nodup_range List.nodup_range⟩
    refine ⟨_, runEvent_of_eq (·.supplyFails) hrun, rfl, (congrArg (fun e : Assoc Zone × List Nat × Bool × Word => e.2.1 ++ [1]) hpackage :),
      fun c hc => ?_, fun r hr => ?_⟩
    · exact Prod.mk.inj (hrails c (List.mem_range.2 hc))
    · have hrow := hrows r (List.mem_range.2 hr)
      exact ⟨(congrArg (fun g : GridRow => g.cadence.toNat) hrow :), (congrArg GridRow.held hrow :)⟩
  case back =>
    obtain ⟨w, hrun, hpackage, hrails, hrows⟩ : ∃ w : State, s.supplyBack = w ∧ package w = package { s with supplyBad := false } ∧
        (∀ c ∈ List.range 64, ∀ low, (s.cluster c).held = some low → ((w.cluster c).low, (w.cluster c).held) = (low, none)) ∧
        ∀ r ∈ List.range 128, ∀ v, (s.gridRow r).held = some v → w.gridRow r = { s.gridRow r with cadence := v, held := none } :=
      ⟨_, supplyBack_eq hs, supply_returns { s with supplyBad := false } List.nodup_range List.nodup_range⟩
    refine ⟨_, runEvent_of_eq (·.supplyBack) hrun, (congrArg (fun e : Assoc Zone × List Nat × Bool × Word => e.2.2.1) hpackage :),
      fun c low hc hheld => ?_, fun r v hr hheld => ?_⟩
    · exact Prod.mk.inj (hrails c (List.mem_range.2 hc) low hheld)
    · have hrow := hrows r (List.mem_range.2 hr) v hheld
      exact ⟨(congrArg GridRow.cadence hrow :), (congrArg GridRow.held hrow :)⟩

/-- Settles O53: rails and rows one by one, each changed once (`foldl_once`), and what no event record touches (`Apart`). -/
theorem powerAndSupplyEvents : Obligations.PowerAndSupplyEvents := ⟨powerEvents, supplyEvents⟩

end Sys2Proof.Proofs
end

section
/-! What a write at the home changes in memory: the bytes of the lines that it writes, and no others (R100, R111, R112, R123, R124). -/
namespace Sys2Proof.Proofs
open Sys2Proof.Machine Sys2Proof.Safety Sys2Proof.Laws

/-! A cipher block is at most 16 bytes long. -/

theorem xorBytes_length (a b : List Byte) : (xorBytes a b).length = min a.length b.length := List.length_zipWith
theorem aesEncrypt_length (key block : List Byte) : (aesEncrypt key block).length ≤ 16 := by
  refine (xorBytes_length _ _).trans_le ((Nat.min_le_left _ _).trans ?_)
  simp [shiftRows]
theorem aesDecrypt_length (key block : List Byte) : (aesDecrypt key block).length ≤ 16 := by
  refine (xorBytes_length _ _).trans_le ((Nat.min_le_left _ _).trans ?_)
  simp [shiftRows]
theorem recrypt_length {w r pa : Nat} {block : List Byte} (h : block.length ≤ 16) : (recrypt w r pa block).length ≤ 16 := by
  have hencrypt : ∀ key unit j b, (xtsEncrypt key unit j b).length ≤ 16 := fun _ _ _ _ =>
    (xorBytes_length _ _).trans_le ((Nat.min_le_left _ _).trans (aesEncrypt_length _ _))
  unfold recrypt
  dsimp only
  split
  · exact h
  · split
    · split
      · exact h
      · exact hencrypt _ _ _ _
    · exact (xorBytes_length _ _).trans_le ((Nat.min_le_left _ _).trans (aesDecrypt_length _ _))

/-! States that differ in memory in one line alone. -/

/-- Memory reads alike but for the bytes of a line. -/
def OnLine (line : Nat) (s t : State) : Prop := ∀ a, a / 64 ≠ line → t.mem.get a = s.mem.get a

section
variable {line : Nat} {s t u : State}

theorem OnLine.of_mem (h : t.mem = s.mem) : OnLine line s t := fun a _ => by rw [h]
theorem OnLine.trans (h : OnLine line s t) (k : OnLine line t u) : OnLine line s u := fun a ha => (k a ha).trans (h a ha)
theorem OnLine.fold {α : Type} {f : State → α → State} (h : ∀ t a, OnLine line t (f t a)) (l : List α) (s : State) :
    OnLine line s (l.foldl f s) :=
  foldl_holds (P := OnLine line s) (fun t a ht => ht.trans (h t a)) l (.of_mem rfl)

theorem onLine_putBytes {a : Nat} {bs : List Byte} (h : t.mem = s.mem.putBytes a bs) (hlo : line * 64 ≤ a)
    (hhi : a + bs.length ≤ line * 64 + 64) : OnLine line s t := fun b hb => by
  rw [h]
  exact get_putBytes_out _ _ _ _ (by omega)
theorem onLine_rekey (s : State) (key block : Nat) : OnLine (block / 4) s (s.rekey key block) := by
  unfold State.rekey
  dsimp only
  split
  · exact .of_mem rfl
  · split
    · exact .of_mem rfl
    · rename_i w _ _
      have hlen := recrypt_length (w := w) (r := s.keyNo key) (pa := block * 16) (Nat.le_of_eq (bytes_length s.mem (block * 16) 16))
      exact onLine_putBytes rfl (by omega) (by omega)
theorem touchCol_mem (s : State) (pa : Nat) : (s.touchCol pa).mem = s.mem := by
  unfold State.touchCol
  split
  · dsimp only
    split <;> rfl
  · rfl
theorem onLine_homeWriteLine (s : State) (key pa : Nat) (b : Byte) : OnLine (pa / 64) s (s.homeWriteLine key pa [b]) := by
  have hput : ∀ {s t : State}, t.mem = s.mem.putBytes pa [b] → OnLine (pa / 64) s t := fun h =>
    onLine_putBytes h (by omega) (by simp only [List.length_singleton]; omega)
  unfold State.homeWriteLine
  split
  · have hrekey : OnLine (pa / 64) s (s.rekey key (pa / 16)) := by
      have h := onLine_rekey s key (pa / 16)
      rwa [Nat.div_div_eq_div_mul] at h
    have hone : (pa + [b].length - 1) / 16 - pa / 16 + 1 = 1 := by simp
    rw [hone]
    exact hrekey.trans (hput ((touchCol_mem _ _).trans rfl))
  · split
    · split <;> exact .of_mem rfl
    · exact hput rfl
theorem onLine_homeWriteMask (s : State) (key line : Nat) (data : BitVec 512) (m : BitVec 64) :
    OnLine line s (s.homeWriteMask key line data m) := by
  refine List.foldlRecOn (motive := OnLine line s) (List.range 64) _ (.of_mem rfl) fun t ht i hi => ?_
  split
  · have h := onLine_homeWriteLine t key (line * 64 + i) (byteAt data i)
    rw [show (line * 64 + i) / 64 = line by have := List.mem_range.1 hi; omega] at h
    exact ht.trans h
  · exact ht
theorem onLine_writeBack (s : State) (x : Sector) (p : Nat) : OnLine x.line s (s.writeBack x p) := by
  unfold State.writeBack
  split
  · exact (onLine_homeWriteMask s _ _ _ _).trans (.of_mem rfl)
  · exact .of_mem rfl
theorem onLine_recallFrom (s : State) (line p : Nat) (keep : Bool) (clu : Nat) : OnLine line s (s.recallFrom line p keep clu) := by
  unfold State.recallFrom
  split
  · exact .of_mem rfl
  · rename_i x hx
    have hline : x.line = line := by simpa using List.find?_some hx
    have h := onLine_writeBack s x p
    rw [hline] at h
    dsimp only
    split <;> exact h.trans (.of_mem rfl)
theorem onLine_recallOthers (s : State) (line p : Nat) (keep : Bool) (but : Nat) : OnLine line s (s.recallOthers line p keep but) :=
  .fold (fun t k => onLine_recallFrom t line p keep k) _ s
theorem sectorWrite_mem (s : State) (clu line : Nat) (data : BitVec 512) (m : BitVec 64) : (s.sectorWrite clu line data m).mem = s.mem := by
  unfold State.sectorWrite
  split <;> rfl
theorem onLine_l2Take (s : State) (clu key p line : Nat) (excl : Bool) : OnLine line s (s.l2Take clu key p line excl) := by
  unfold State.l2Take
  split
  · split
    · exact .of_mem rfl
    · exact (onLine_recallOthers s line p false clu).trans (.of_mem rfl)
  · exact (onLine_recallOthers s line p (!excl) clu).trans (.of_mem rfl)
theorem onLine_l1Sink (s : State) (clu line p core : Nat) : OnLine line s (s.l1Sink clu line p core) := by
  unfold State.l1Sink
  split
  · exact .of_mem rfl
  · dsimp only
    split
    · exact .of_mem rfl
    · exact (onLine_l2Take s clu _ p line true).trans (.of_mem (sectorWrite_mem _ _ _ _ _))
theorem onLine_recallAll (s : State) (line p : Nat) : OnLine line s (s.recallAll line p) :=
  (OnLine.fold (f := fun (t : State) (e : Nat × Core) => t.l1Sink (clusterOf e.1) line p e.1) (fun t _ => onLine_l1Sink t _ line p _) _ s).trans
    (.fold (fun t k => onLine_recallFrom t line p false k) _ _)

/-- A write at the home changes no byte outside the lines that it writes in. -/
theorem homeWrite_get {a : Nat} (s : State) (key p pa : Nat) (bs : List Byte) (h : ∀ i < bs.length, a / 64 ≠ (pa + i) / 64) :
    (s.homeWrite key p pa bs).mem.get a = s.mem.get a := by
  induction bs generalizing s pa with
  | nil => rfl
  | cons b bs ih =>
    have hhere : a / 64 ≠ pa / 64 := h 0 (by simp)
    refine (ih _ (pa + 1) fun i hi => ?_).trans ((onLine_homeWriteLine _ key pa b a hhere).trans (onLine_recallAll s (pa / 64) p a hhere))
    rw [Nat.add_assoc, Nat.add_comm 1 i]
    exact h (i + 1) (by simpa using hi)

end

end Sys2Proof.Proofs
end

section
/-! Zones: their entries in the coolant table, which no event record touches, and their valves (R93, R188 to R190, R390 to R396). -/
namespace Sys2Proof.Proofs
open Sys2Proof.Machine Sys2Proof.Safety Sys2Proof.Laws

/-! The tables after an event of the power and thermal queue. -/

/-- A field that no record of queue 0 changes: an event queue's first word, or one behind the descriptors of event queues. -/
def Lasting (a n : Nat) : Prop := (tblBase + 0x3000 ≤ a ∧ a + n ≤ tblBase + 2 ^ 32) ∨ (n = 8 ∧ ∃ p < 64, a = eqAddr p 0)

/-- Every lasting field reads alike. -/
def Lasts (s t : State) : Prop := ∀ a n, Lasting a n → t.tget a n = s.tget a n

section
variable {s t u : State} {p : Nat}

theorem Lasts.refl (s : State) : Lasts s s := fun _ _ _ => rfl
theorem Lasts.trans (h : Lasts s t) (k : Lasts t u) : Lasts s u := fun a n ha => (k a n ha).trans (h a n ha)
theorem Lasts.of_mem (h : t.mem = s.mem) : Lasts s t := fun a n _ => by rw [State.tget, State.tget, h]
theorem Lasts.queues (h : Lasts s t) (hq : QueuesApart s) : QueuesApart t := by
  intro p k hp hk
  rw [h (eqAddr p 0) 8 (.inr ⟨rfl, p, hp, rfl⟩)]
  exact hq p k hp hk

/-- A hardware write between the fields of an event queue's descriptor, behind its first word. -/
theorem lasts_tput {a n : Nat} (v : Nat) (hp : p < 64) (hlo : eqAddr p 0 + 8 ≤ a) (hhi : a + n ≤ eqAddr p 0 + 64) : Lasts s (s.tput a n v) := by
  intro b m hb
  refine tget_tput_out s v ?_
  unfold eqAddr tblBase at *
  rcases hb with ⟨hb, -⟩ | ⟨rfl, q, hq, rfl⟩
  · unfold tblBase at hb
    omega
  · unfold eqAddr tblBase
    omega
theorem lasts_eventLost (hp : p < 64) : Lasts s (s.eventLost p 0) := lasts_tput _ hp (by omega) (by omega)
theorem eventBytes_length (s : State) (kind cause sub loc value launch seq : Nat) :
    (s.eventBytes kind cause sub loc value launch seq).length = 32 := by
  simp [State.eventBytes]

/-- A range outside the device tables shares no line with them. -/
theorem line_apart {a b i : Nat} (ha : a + 64 ≤ tblBase ∨ tblBase + 2 ^ 32 ≤ a) (hb : tblBase ≤ b ∧ b < tblBase + 2 ^ 32) (hi : i < 32) :
    b / 64 ≠ (a + i) / 64 := by
  unfold tblBase at *
  omega

theorem lasts_eventPut (kind cause sub loc value launch : Nat) (hq : QueuesApart s) (hp : p < 64) (hon : bitOf (s.tget (eqAddr p 0) 8) 0 = true)
    (hn : bitsOf (s.tget (eqAddr p 0) 8) 5 1 ≤ 16) : Lasts s (s.eventPut p 0 kind cause sub loc value launch) := by
  have htail : s.tget (eqAddr p 0 + 8) 4 % 2 ^ bitsOf (s.tget (eqAddr p 0) 8) 5 1 < 2 ^ 16 :=
    (Nat.mod_lt _ (Nat.two_pow_pos _)).trans_le (Nat.pow_le_pow_right (by decide) hn)
  refine Lasts.trans (fun a n ha => ?_) (lasts_tput _ hp (by omega) (by omega))
  refine congrArg natOfBytes (bytes_congr fun i hi => homeWrite_get s _ _ _ _ fun j hj => ?_)
  refine line_apart (hq p _ hp htail hon) ?_ (by rwa [eventBytes_length] at hj)
  unfold Lasting eqAddr tblBase at ha
  unfold tblBase
  rcases ha with ha | ⟨rfl, q, hq, rfl⟩ <;> omega

theorem setLostSeen_mem (s : State) (p q v : Nat) : (s.setLostSeen p q v).mem = s.mem := rfl

theorem lasts_event (kind cause sub loc value launch : Nat) (hq : QueuesApart s) (hp : p < 64) :
    Lasts s (s.event p 0 kind cause sub loc value launch) := by
  unfold State.event
  dsimp only
  split
  · exact lasts_eventLost hp
  · rename_i hopen
    simp only [Bool.or_eq_true, decide_eq_true_eq, not_or, Bool.not_eq_true', Bool.not_eq_false, Nat.not_lt] at hopen
    obtain ⟨⟨⟨hon, -⟩, hn⟩, -⟩ := hopen
    split
    · exact lasts_eventPut _ _ _ _ _ _ hq hp hon hn
    · have hfirst : Lasts s ((s.eventPut p 0 0x7F 0 0 0 (s.tget (eqAddr p 0 + 16) 8) 0xFFFFFFFF).setLostSeen p 0 (s.tget (eqAddr p 0 + 16) 8)) :=
        (lasts_eventPut _ _ _ _ _ _ hq hp hon hn).trans (.of_mem (setLostSeen_mem _ _ _ _))
      have hword := hfirst (eqAddr p 0) 8 (.inr ⟨rfl, p, hp, rfl⟩)
      split
      · exact hfirst.trans (lasts_eventLost hp)
      · exact hfirst.trans (lasts_eventPut _ _ _ _ _ _ (hfirst.queues hq) hp (by rw [hword]; exact hon) (by rw [hword]; exact hn))

theorem lasts_zoneEvent (kind cause sub z value : Nat) (hq : QueuesApart s) : Lasts s (s.zoneEvent kind cause sub z value) := by
  refine List.foldlRecOn (motive := Lasts s) (List.range 64) _ (.refl s) fun t ht p hp => ?_
  split
  · exact ht.trans (lasts_event _ _ _ _ _ _ (ht.queues hq) (List.mem_range.1 hp))
  · exact ht

end

/-! The entry of a zone. -/

/-- From `s` to `t` the entry of zone `z` has come to read so, and the other entries' shares, the owners and the queues are as they were. -/
structure Entry (z st share floor : Nat) (s t : State) : Prop where
  queues : QueuesApart t
  state : t.coolState z = st
  share : t.coolShare z = share
  floor : t.coolFloor z = floor
  owned : t.coolOwned z = s.coolOwned z
  others : ∀ y < 256, y ≠ z → t.coolShare y = s.coolShare y

theorem coolAddr_lasting {z j : Nat} (hz : z < 256) (hj : j < 4) : Lasting (coolAddr z + j) 1 := by
  unfold Lasting coolAddr tblBase
  omega

theorem tget_lt (s : State) (a : Nat) : s.tget a 1 < 256 := by
  simp only [State.tget, Memory.nat, Memory.bytes, natOfBytes]
  have := (s.mem.get a).isLt
  omega

namespace Entry
variable {z st share floor : Nat} {s t u : State} (h : Entry z st share floor s t)

theorem start (hq : QueuesApart s) (z : Nat) : Entry z (s.coolState z) (s.coolShare z) (s.coolFloor z) s s :=
  ⟨hq, rfl, rfl, rfl, rfl, fun _ _ _ => rfl⟩

include h

theorem lasts (hz : z < 256) (hl : Lasts t u) : Entry z st share floor s u where
  queues := hl.queues h.queues
  state := (congrArg (bitsOf · 5 4) (hl _ _ (coolAddr_lasting hz (by omega)))).trans h.state
  share := (hl _ _ (coolAddr_lasting hz (by omega))).trans h.share
  floor := (hl _ _ (coolAddr_lasting hz (by omega))).trans h.floor
  owned := (congrArg (bitOf · 7) (hl _ _ (coolAddr_lasting (j := 0) hz (by omega)))).trans h.owned
  others y hy hne := (hl _ _ (coolAddr_lasting hy (by omega))).trans (h.others y hy hne)
theorem of_mem (hz : z < 256) (hm : u.mem = t.mem) : Entry z st share floor s u := h.lasts hz (.of_mem hm)
theorem zoneEvent (hz : z < 256) (kind cause sub y value : Nat) : Entry z st share floor s (t.zoneEvent kind cause sub y value) :=
  h.lasts hz (lasts_zoneEvent _ _ _ _ _ h.queues)

/-! What the fields' writes do. -/

theorem tput_queues {a n : Nat} (v : Nat) (ha : coolAddr z ≤ a) (hz : z < 256) (hhi : a + n ≤ coolAddr z + 16) : QueuesApart (t.tput a n v) := by
  intro p k hp hk
  rw [tget_tput_out _ _ (by unfold coolAddr at *; unfold eqAddr; omega)]
  exact h.queues p k hp hk

theorem setState (hz : z < 256) {st' : Nat} (hst : st' < 4) :
    Entry z st' share floor s (t.tput (coolAddr z + 3) 1 (setBitsOf (t.tget (coolAddr z + 3) 1) 5 4 st')) where
  queues := h.tput_queues _ (by omega) hz (by omega)
  state := by
    rw [State.coolState, tget_tput_same]
    have := tget_lt t (coolAddr z + 3)
    simp only [bitsOf, setBitsOf]
    omega
  share := (tget_tput_out _ _ (by omega)).trans h.share
  floor := (tget_tput_out _ _ (by omega)).trans h.floor
  owned := (congrArg (bitOf · 7) (tget_tput_out _ _ (by omega))).trans h.owned
  others y hy hne := (tget_tput_out _ _ (by unfold coolAddr; omega)).trans (h.others y hy hne)
theorem setTime (hz : z < 256) (n : Nat) : Entry z st share floor s (t.tput (coolAddr z + 8) 8 n) where
  queues := h.tput_queues _ (by omega) hz (by omega)
  state := (congrArg (bitsOf · 5 4) (tget_tput_out _ _ (by omega))).trans h.state
  share := (tget_tput_out _ _ (by omega)).trans h.share
  floor := (tget_tput_out _ _ (by omega)).trans h.floor
  owned := (congrArg (bitOf · 7) (tget_tput_out _ _ (by omega))).trans h.owned
  others y hy hne := (tget_tput_out _ _ (by unfold coolAddr; omega)).trans (h.others y hy hne)
theorem setShare (hz : z < 256) {v : Nat} (hv : v < 256) : Entry z st v floor s (t.tput (coolAddr z + 1) 1 v) where
  queues := h.tput_queues _ (by omega) hz (by omega)
  state := (congrArg (bitsOf · 5 4) (tget_tput_out _ _ (by omega))).trans h.state
  share := (tget_tput_same _ _ _ _).trans (Nat.mod_eq_of_lt hv)
  floor := (tget_tput_out _ _ (by omega)).trans h.floor
  owned := (congrArg (bitOf · 7) (tget_tput_out _ _ (by omega))).trans h.owned
  others y hy hne := (tget_tput_out _ _ (by unfold coolAddr; omega)).trans (h.others y hy hne)
theorem setFloor (hz : z < 256) {v : Nat} (hv : v < 256) : Entry z st share v s (t.tput (coolAddr z + 2) 1 v) where
  queues := h.tput_queues _ (by omega) hz (by omega)
  state := (congrArg (bitsOf · 5 4) (tget_tput_out _ _ (by omega))).trans h.state
  share := (tget_tput_out _ _ (by omega)).trans h.share
  floor := (tget_tput_same _ _ _ _).trans (Nat.mod_eq_of_lt hv)
  owned := (congrArg (bitOf · 7) (tget_tput_out _ _ (by omega))).trans h.owned
  others y hy hne := (tget_tput_out _ _ (by unfold coolAddr; omega)).trans (h.others y hy hne)

/-! What the dealer's moves do. -/

theorem moveZone (hz : z < 256) {st' : Nat} (hst : st' < 4) : Entry z st' share floor s (t.moveZone z st') :=
  ((h.setState hz hst).setTime hz _).zoneEvent hz _ _ _ _ _
theorem modZone (hz : z < 256) (f : Zone → Zone) : Entry z st share floor s (t.modZone z f) := h.of_mem hz rfl
theorem moveValve (hz : z < 256) (pos : Nat) : Entry z st share floor s (t.moveValve z pos) := by
  unfold State.moveValve
  split
  · exact h
  · exact (h.modZone hz _).zoneEvent hz _ _ _ _ _
theorem moveShare (hz : z < 256) {v : Nat} (hv : v < 256) : Entry z st v floor s (t.moveShare z v) := by
  unfold State.moveShare
  split
  · rename_i heq
    exact ⟨h.queues, h.state, heq, h.floor, h.owned, h.others⟩
  · exact (h.setShare hz hv).zoneEvent hz _ _ _ _ _
theorem evacuate (hz : z < 256) : Entry z 3 share floor s (t.evacuate z) := (h.moveZone hz (by decide)).modZone hz _
theorem purge (hz : z < 256) : Entry z st share floor s (t.purge z) := by
  unfold State.purge
  exact ((h.modZone hz _).moveValve hz 0).modZone hz _

/-- The shares of the other zones count as they did. -/
theorem shareFits (v : Nat) : t.shareFits z v = s.shareFits z v := by
  unfold State.shareFits
  congr 3
  refine List.map_congr_left fun y hy => ?_
  by_cases hyz : y = z
  · simp [hyz]
  · simp [hyz, h.others y (List.mem_range.1 hy) hyz]

end Entry

/-! The valves. -/

theorem zone_of_package {s t : State} (h : package t = package s) (z : Nat) : t.zone z = s.zone z := by
  unfold State.zone
  rw [show t.zones = s.zones from congrArg Prod.fst h]
theorem now_of_package {s t : State} (h : package t = package s) : t.now = s.now := by
  unfold State.now
  rw [show t.timebase = s.timebase from congrArg (·.2.2.2) h]

theorem zoneEvent_package (s : State) (kind cause sub z value : Nat) : package (s.zoneEvent kind cause sub z value) = package s :=
  apart_package.eventAll _ _ _ _ _ _ _ _ _
theorem moveZone_package (s : State) (z st : Nat) : package (s.moveZone z st) = package s := zoneEvent_package _ _ _ _ _ _
theorem moveShare_package (s : State) (z v : Nat) : package (s.moveShare z v) = package s := by
  unfold State.moveShare
  split
  · rfl
  · exact zoneEvent_package _ _ _ _ _ _

section
variable {s : State} {z : Nat}

theorem modZone_zone (f : Zone → Zone) : (s.modZone z f).zone z = f (s.zone z) := setZone_zone_same _ _ _

/-- The valve stands at the position, and all else of the zone but the time at which it was set is as it was. -/
theorem moveValve_zone {pos : Nat} : ∃ t, (s.moveValve z pos).zone z = { s.zone z with valve := BitVec.ofNat 64 pos, setAt := t } := by
  unfold State.moveValve
  split
  · rename_i h
    refine ⟨(s.zone z).setAt, ?_⟩
    rw [← h, BitVec.ofNat_toNat, BitVec.setWidth_eq]
  · refine ⟨s.now, (zone_of_package (zoneEvent_package _ _ _ _ _ _) z).trans ?_⟩
    rw [modZone_zone]
theorem evacuate_zone : ((s.evacuate z).zone z).step = 2 ∧ ((s.evacuate z).zone z).stepAt = s.now := by
  rw [State.evacuate, modZone_zone]
  exact ⟨rfl, rfl⟩
theorem purge_zone : ((s.purge z).zone z).step = 5 ∧ ((s.purge z).zone z).valve = 0 ∧ ((s.purge z).zone z).fence = true := by
  obtain ⟨n, hn⟩ := moveValve_zone (s := s.modZone z fun x => { x with fence := true }) (z := z) (pos := 0)
  rw [State.purge, modZone_zone, hn, modZone_zone]
  exact ⟨rfl, rfl, rfl⟩

end

end Sys2Proof.Proofs
end

section
/-! The events of the coolant (R390 to R396). -/
namespace Sys2Proof.Proofs
open Sys2Proof.Machine Sys2Proof.Safety Sys2Proof.Laws

theorem moveValve_now (s : State) (z pos : Nat) : (s.moveValve z pos).now = s.now := by
  unfold State.moveValve
  split
  · rfl
  · exact (now_of_package (zoneEvent_package _ _ _ _ _ _)).trans rfl

/-- An event leaves what its function leaves. -/
theorem event_ends {i : Instr} {f : State → State} {s : State} {P : State → Prop} (hexec : exec i s = runEvent f s)
    (hmark : ∀ u, P u → P { u with mark := .ok }) (h : P (f s)) : ∃ t, exec i s = .next t ∧ P t := ⟨_, hexec, hmark _ h⟩

theorem valveFor_toNat (n : Nat) : (BitVec.ofNat 64 (State.valveFor n)).toNat = min 15 ((15 * n + 7) / 8) := by
  have h : State.valveFor n = min 15 ((15 * n + 7) / 8) := rfl
  rw [BitVec.toNat_ofNat, h, Nat.mod_eq_of_lt (by omega)]

theorem refillBound_eq (n : Nat) : State.refillBound n = if n = 3 then 40000000 else if n = 5 then 1000000 else 2000000 := by
  unfold State.refillBound
  split
  · rfl
  · rfl
  · rename_i h3 h5
    rw [if_neg h3, if_neg h5]

section
variable {s : State} {z : Nat} (hz : z < 256) (hq : QueuesApart s)
include hz hq

theorem evacuate_ends : (s.evacuate z).coolState z = 3 ∧ ((s.evacuate z).zone z).step = 2 ∧ ((s.evacuate z).zone z).stepAt = s.now :=
  ⟨((Entry.start hq z).evacuate hz).state, evacuate_zone⟩

/-! Shares. -/

theorem setShare_ends {share floor : Nat} (hs : share < 256) (hf : floor < 256) (hst : s.coolState z = 2) (hfits : s.shareFits z share = true)
    (hfloor : floor ≤ share ∨ s.zoneWorks z = false) : Entry z 2 share floor s (s.setShare z share floor) ∧
      ((s.setShare z share floor).zone z).valve.toNat = min 15 ((15 * share + 7) / 8) := by
  have hrun : s.setShare z share floor = ((s.moveShare z share).tput (coolAddr z + 2) 1 floor).moveValve z (State.valveFor share) :=
    if_pos ⟨hst, hfits, hfloor.imp id fun h => by simp [h]⟩
  have hentry := (((Entry.start hq z).moveShare hz hs).setFloor hz hf).moveValve hz (State.valveFor share)
  rw [hst] at hentry
  obtain ⟨n, hn⟩ := moveValve_zone (s := (s.moveShare z share).tput (coolAddr z + 2) 1 floor) (z := z) (pos := State.valveFor share)
  rw [hrun]
  refine ⟨hentry, ?_⟩
  rw [hn]
  exact valveFor_toNat share

theorem answerFlow_ends {p want ph give : Nat} (hflow : (s.zone z).flow = some (p, want, ph)) (hp : p < 64) (hw : want < 256)
    (hst : s.coolState z = 2) (hlow : s.coolShare z < min want give) (hfits : s.shareFits z (min want give) = true)
    (hfloor : s.coolFloor z ≤ min want give) : (s.answerFlow z give).coolShare z = min want give ∧
      ((s.answerFlow z give).zone z).valve.toNat = min 15 ((15 * min want give + 7) / 8) := by
  have hlt : s.coolFloor z < 256 := tget_lt _ _
  obtain ⟨hentry, hvalve⟩ := setShare_ends hz hq (show min want give < 256 by omega) hlt hst hfits (.inl hfloor)
  unfold State.answerFlow
  rw [hflow]
  dsimp only
  rw [if_pos hlow]
  refine ⟨(hentry.lasts hz (lasts_event _ _ _ _ _ _ hentry.queues hp)).share, ?_⟩
  rw [zone_of_package (apart_package.event _ _ _ _ _ _ _ _ _)]
  exact hvalve

/-! Evacuation and refill. -/

theorem valveMismatch_ends {pos : Nat} (hne : (s.zone z).valve.toNat ≠ pos) (hlate : (s.zone z).setAt + 5000000 ≤ s.now)
    (hst : s.coolState z = 1 ∨ s.coolState z = 2) :
    (s.valveMismatch z pos).coolState z = 3 ∧ ((s.valveMismatch z pos).zone z).step = 2 := by
  have htold := (Entry.start hq z).zoneEvent hz 0x07 0 pos z (s.zone z).valve.toNat
  unfold State.valveMismatch
  rw [if_pos ⟨hne, hlate⟩, if_pos (by rw [htold.state]; exact hst.symm)]
  exact ⟨(htold.evacuate hz).state, evacuate_zone.1⟩

theorem refill_ends {share floor : Nat} (hs : share < 256) (hf : floor < 256) (hst : s.coolState z = 0) (ho : s.coolOwned z = true)
    (hfits : s.shareFits z share = true) : Entry z 1 share floor s (s.refill z share floor) ∧
      ∃ n, (s.refill z share floor).zone z = { s.zone z with valve := 15, setAt := n, step := 2, stepAt := s.now, wants := none } := by
  let u := ((s.moveZone z 1).moveShare z share).tput (coolAddr z + 2) 1 floor
  have hu : Entry z 1 share floor s u := (((Entry.start hq z).moveZone hz (by decide)).moveShare hz hs).setFloor hz hf
  have hpackage : package u = package s := (moveShare_package _ _ _).trans (moveZone_package _ _ _)
  obtain ⟨n, hn⟩ := moveValve_zone (s := u) (z := z) (pos := 15)
  have hnow : (u.moveValve z 15).now = s.now := (moveValve_now u z 15).trans (now_of_package hpackage)
  have hrun : s.refill z share floor = (u.moveValve z 15).modZone z fun x =>
      { x with step := 2, stepAt := (u.moveValve z 15).now, wants := none } :=
    (if_neg (by omega)).trans (if_pos ⟨hst, ho, hfits⟩)
  rw [hrun]
  refine ⟨(hu.moveValve hz 15).modZone hz _, n, ?_⟩
  rw [modZone_zone, hn, hnow, zone_of_package hpackage]
  rfl

/-- A zone that has dried takes the refill that waits for it, or rests. -/
theorem evacDry_run (hst : s.coolState z = 3) (hstep : (s.zone z).step = 7)
    (htime : (s.zone z).failed = true ∨ s.now ≤ (s.zone z).stepAt + 200000000) (hdry : (s.zone z).stepAt + 100000 ≤ s.now) :
    let u := ((s.moveZone z 0).moveShare z 0).modZone z fun y => { y with step := 0, failed := false, wants := none }
    s.evacDry z = (s.zone z).wants.elim u (fun w => u.refill z w.1 w.2) ∧
      Entry z 0 0 (s.coolFloor z) s u ∧ (u.zone z).step = 0 ∧ (u.zone z).wants = none := by
  have hnot : ((!(s.zone z).failed && decide ((s.zone z).stepAt + 200000000 < s.now)) : Bool) = false := by
    rcases htime with h | h
    · simp [h]
    · simp [Nat.not_lt.2 h]
  intro u
  have hzone : u.zone z = { s.zone z with step := 0, failed := false, wants := none } := by
    rw [modZone_zone, zone_of_package ((moveShare_package _ _ _).trans (moveZone_package _ _ _))]
  refine ⟨?_, (((Entry.start hq z).moveZone hz (by decide)).moveShare hz (by decide)).modZone hz _, by rw [hzone], by rw [hzone]⟩
  unfold State.evacDry
  dsimp only
  rw [hnot, if_neg (by simp), if_pos ⟨hst, hstep, hdry⟩]
  cases (s.zone z).wants <;> rfl

/-- A filled zone. -/
theorem filled_ends : let u := (s.modZone z fun y => { y with fence := false, step := 0 }).moveZone z 2
    u.coolState z = 2 ∧ (u.zone z).fence = false ∧ (u.zone z).step = 0 := by
  have hzone := (zone_of_package (moveZone_package (s.modZone z fun y => { y with fence := false, step := 0 }) z 2) z).trans (modZone_zone _)
  refine ⟨(((Entry.start hq z).modZone hz _).moveZone hz (by decide)).state, ?_, ?_⟩ <;> rw [hzone]

end
/-! The steps of an evacuation (Table 14-5). -/

theorem evacStart_open {s : State} {z : Nat} (h : s.coolState z = 1 ∨ s.coolState z = 2) : s.evacStart z = s.evacuate z := by
  rcases h with h | h <;> simp only [State.evacStart, h]
theorem evacStart_started {s : State} {z : Nat} (h : s.coolState z = 3) (hs : (s.zone z).step = 2) :
    s.evacStart z = if s.zoneBusy z then s else s.purge z := by
  simp only [State.evacStart, h, hs]
theorem evacStart_purging {s : State} {z : Nat} (h : s.coolState z = 3) (hs : (s.zone z).step = 5 ∨ (s.zone z).step = 6) :
    s.evacStart z = s.purged z := by
  rcases hs with hs | hs <;> simp only [State.evacStart, h, hs]

/-! The steps of a refill inside their bounds (Table 14-6). -/

section
variable {s : State} {z : Nat} (hst : s.coolState z = 1)
include hst

theorem refillDone_late (hl : s.refillLate z = true) : s.refillDone z = s.evacuate z := by
  unfold State.refillDone
  dsimp only
  rw [if_neg (not_not.2 hst), if_pos hl]

variable (hl : ¬s.refillLate z = true)
include hl

theorem refillDone_valve (h : (s.zone z).step = 2) : s.refillDone z = s.modZone z fun y => { y with step := 3, stepAt := s.now } := by
  unfold State.refillDone
  dsimp only
  rw [if_neg (not_not.2 hst), if_neg hl, h]
  rfl
theorem refillDone_liquid (h : (s.zone z).step = 3) : s.refillDone z = if (s.zone z).stepAt + 1000000 ≤ s.now
    then (s.moveValve z (State.valveFor (s.coolShare z))).modZone z fun y => { y with step := 4, stepAt := s.now } else s := by
  unfold State.refillDone
  dsimp only
  rw [if_neg (not_not.2 hst), if_neg hl, h]
  rfl
theorem refillDone_share (h : (s.zone z).step = 4) : s.refillDone z = s.modZone z fun y => { y with step := 5, stepAt := s.now } := by
  unfold State.refillDone
  dsimp only
  rw [if_neg (not_not.2 hst), if_neg hl, h]
  rfl
theorem refillDone_sensors (h : (s.zone z).step = 5) : s.refillDone z =
    if (colsOfZone z).all fun c => decide (State.degrees (s.col c).temp < s.hiOf c)
    then (s.modZone z fun y => { y with fence := false, step := 0 }).moveZone z 2 else s := by
  unfold State.refillDone
  dsimp only
  rw [if_neg (not_not.2 hst), if_neg hl, h]
  rfl

end

/-- Settles O51: entries through `Entry`, which every dealer's move keeps but for the field it writes, and the records of queue 0 keep altogether. -/
theorem coolantEvents : Obligations.CoolantEvents := by
  intro s z share floor give pos hz hq st x valve late
  have hs : share.toNat < 256 := share.isLt
  have hf : floor.toNat < 256 := floor.isLt
  have hentry := Entry.start hq z
  have hlate : s.refillLate z = true ↔ late := by
    simp only [State.refillLate, refillBound_eq, decide_eq_true_eq]
    exact Iff.rfl
  refine ⟨fun hst hfits hfl => ?share, fun h => ?noShare, fun h => ?noRequest, fun p want ph hflow hp hw hst hlow hfits hfl => ?answer,
    fun hne ht hst => ?mismatch, fun h => ?noMismatch, fun hst => ?evacuation, fun hst hstep => ⟨fun hb => ?idle, fun hb => ?busy, fun ht => ?early,
      fun ht => ?timeout⟩, fun hst hstep => ?purging, fun hst hstep => ⟨fun hfl ht => ?lateDry, fun htime hdry hw => ?dry,
      fun htime hdry hw ho hfits => ?hungry, fun ht => ?wet, fun hfl ht => ?failed, fun ht => ?notFailed⟩, fun hst ho hfits => ?refill,
    fun hst => runEvent_of_eq (·.refill z share.toNat floor.toNat) (if_pos hst), fun hst => ⟨fun hl => ?onTime, fun hl => ?tooLate⟩⟩
  case share =>
    refine event_ends (f := (·.setShare z share.toNat floor.toNat)) rfl (fun _ h => h) ?_
    obtain ⟨he, hv⟩ := setShare_ends hz hq hs hf hst hfits hfl
    exact ⟨he.share, he.floor, hv, he.state⟩
  case noShare =>
    refine runEvent_of_eq (·.setShare z share.toNat floor.toNat) (if_neg ?_)
    rintro ⟨h2, hfits, hfl⟩
    rcases h with h | h | ⟨hlt, hworks⟩
    · exact h h2
    · rw [h] at hfits; cases hfits
    · rcases hfl with hfl | hfl
      · exact absurd hfl (Nat.not_le.2 hlt)
      · rw [hworks] at hfl; cases hfl
  case noRequest =>
    refine runEvent_of_eq (·.answerFlow z give.toNat) ?_
    unfold State.answerFlow
    rw [show (s.zone z).flow = none from h]
  case answer => exact event_ends (f := (·.answerFlow z give.toNat)) rfl (fun _ h => h) (answerFlow_ends hz hq hflow hp hw hst hlow hfits hfl)
  case mismatch => exact event_ends (f := (·.valveMismatch z pos.toNat)) rfl (fun _ h => h) (valveMismatch_ends hz hq hne ht hst)
  case noMismatch =>
    refine runEvent_of_eq (·.valveMismatch z pos.toNat) (if_neg ?_)
    rintro ⟨hne, ht⟩
    exact h.elim hne (Nat.not_lt.2 ht)
  case evacuation =>
    refine event_ends (f := (·.evacStart z)) rfl (fun _ h => h) ?_
    rw [evacStart_open hst]
    exact evacuate_ends hz hq
  case idle =>
    refine event_ends (f := (·.evacStart z)) rfl (fun _ h => h) ?_
    rw [evacStart_started hst hstep, if_neg (by simp [hb])]
    exact purge_zone
  case busy => exact runEvent_of_eq (·.evacStart z) ((evacStart_started hst hstep).trans (if_pos hb))
  case early => exact runEvent_of_eq (·.evacTimeout z) (if_neg fun h => absurd h.2.2 (Nat.not_le.2 ht))
  case timeout =>
    refine event_ends (f := (·.evacTimeout z)) rfl (fun _ h => h) ?_
    have hrun : s.evacTimeout z = (s.abortOn 1 (colsOfZone z)).purge z := if_pos ⟨hst, hstep, ht⟩
    rw [hrun]
    exact purge_zone
  case purging =>
    intro lasts
    have hrun := evacStart_purging hst hstep
    exact ⟨fun ht => runEvent_of_eq (·.evacStart z) (hrun.trans (if_pos ht)),
      fun ht => runEvent_of_eq (·.evacStart z) (hrun.trans (if_neg (Nat.not_le.2 ht)))⟩
  case lateDry =>
    refine event_ends (f := (·.evacDry z)) rfl (fun _ h => h) ?_
    have hfailed : s.evacFail z = (s.modZone z fun x => { x with failed := true }).report (1000 + z) :=
      if_pos ⟨hst, hstep, by simpa using hfl, Nat.le_of_lt ht⟩
    have hrun : s.evacDry z = s.evacFail z := if_pos (by simpa using ⟨hfl, ht⟩)
    rw [hrun, hfailed]
    exact ⟨hst, (congrArg Zone.failed (modZone_zone (s := s) (z := z) fun x => { x with failed := true }) :), rfl⟩
  case dry =>
    refine event_ends (f := (·.evacDry z)) rfl (fun _ h => h) ?_
    obtain ⟨hrun, he, hzone, -⟩ := evacDry_run hz hq hst hstep htime hdry
    rw [hrun, show (s.zone z).wants = none from hw]
    exact ⟨he.state, he.share, hzone⟩
  case hungry =>
    refine event_ends (f := (·.evacDry z)) rfl (fun _ h => h) ?_
    obtain ⟨hrun, he, -, -⟩ := evacDry_run hz hq hst hstep htime hdry
    rw [hrun, show (s.zone z).wants = some (share.toNat, floor.toNat) from hw]
    obtain ⟨hfill, n, hn⟩ := refill_ends hz he.queues hs hf he.state (he.owned.trans ho) ((he.shareFits _).trans hfits)
    exact ⟨hfill.state, hfill.share, congrArg Zone.wants hn, congrArg Zone.step hn⟩
  case wet =>
    refine runEvent_of_eq (·.evacDry z) ((if_neg ?_).trans (if_neg fun h => absurd h.2.2 (Nat.not_le.2 ht)))
    simp only [Bool.and_eq_true, decide_eq_true_eq, not_and, Nat.not_lt]
    exact fun _ => show s.now ≤ x.stepAt + 200000000 by omega
  case failed => exact runEvent_of_eq (·.evacFail z) (if_pos ⟨hst, hstep, by simpa using hfl, ht⟩)
  case notFailed => exact runEvent_of_eq (·.evacFail z) (if_neg fun h => absurd h.2.2.2 (Nat.not_le.2 ht))
  case refill =>
    refine event_ends (f := (·.refill z share.toNat floor.toNat)) rfl (fun _ h => h) ?_
    obtain ⟨he, n, hn⟩ := refill_ends hz hq hs hf hst ho hfits
    exact ⟨he.state, he.share, he.floor, congrArg Zone.valve hn, congrArg Zone.step hn, congrArg Zone.stepAt hn⟩
  case onTime =>
    have hl' : ¬s.refillLate z = true := fun h => hl (hlate.1 h)
    refine ⟨fun h => ?valveOpen, fun h ht => ?liquid, fun h ht => ?dryYet, fun h => ?shareSet, fun h hc => ?cool, fun h hc => ?hot, ?stays⟩
    case valveOpen =>
      refine event_ends (f := (·.refillDone z)) rfl (fun _ h => h) ?_
      rw [refillDone_valve hst hl' h]
      exact ⟨hst, congrArg Zone.step (modZone_zone _), congrArg Zone.stepAt (modZone_zone _),
        by rw [modZone_zone]⟩
    case liquid =>
      refine event_ends (f := (·.refillDone z)) rfl (fun _ h => h) ?_
      obtain ⟨n, hn⟩ := moveValve_zone (s := s) (z := z) (pos := State.valveFor (s.coolShare z))
      rw [refillDone_liquid hst hl' h, if_pos ht]
      refine ⟨((hentry.moveValve hz _).modZone hz _).state.trans hst, congrArg Zone.step (modZone_zone _), congrArg Zone.stepAt (modZone_zone _), ?_⟩
      rw [modZone_zone, hn]
      exact valveFor_toNat _
    case dryYet => exact runEvent_of_eq (·.refillDone z) ((refillDone_liquid hst hl' h).trans (if_neg (Nat.not_le.2 ht)))
    case shareSet =>
      refine event_ends (f := (·.refillDone z)) rfl (fun _ h => h) ?_
      rw [refillDone_share hst hl' h]
      exact ⟨hst, congrArg Zone.step (modZone_zone _), congrArg Zone.stepAt (modZone_zone _),
        by rw [modZone_zone]⟩
    case cool =>
      refine event_ends (f := (·.refillDone z)) rfl (fun _ h => h) ?_
      rw [(refillDone_sensors hst hl' h).trans (if_pos (List.all_eq_true.2 fun c hm => decide_eq_true (hc c hm)))]
      exact filled_ends hz hq
    case hot =>
      obtain ⟨c, hm, hc⟩ := hc
      refine runEvent_of_eq (·.refillDone z) ((refillDone_sensors hst hl' h).trans (if_neg fun hall => ?_))
      exact Int.not_le.2 (of_decide_eq_true (List.all_eq_true.1 hall c hm)) hc
    case stays => exact runEvent_of_eq (·.refillFails z) (if_neg fun h => hl' h.2)
  case tooLate =>
    have hl' : s.refillLate z = true := hlate.2 hl
    refine ⟨event_ends (f := (·.refillDone z)) rfl (fun _ h => h) ?_, event_ends (f := (·.refillFails z)) rfl (fun _ h => h) ?_⟩
    · rw [refillDone_late hst hl']
      exact ⟨(evacuate_ends hz hq).1, evacuate_zone.1⟩
    · rw [show s.refillFails z = s.evacuate z from if_pos ⟨hst, hl'⟩]
      exact ⟨(evacuate_ends hz hq).1, evacuate_zone.1⟩

end Sys2Proof.Proofs
end

section
/-! Rings: tiles taken and given (R85, R138, R158). -/
namespace Sys2Proof.Proofs
open Sys2Proof.Machine Sys2Proof.Safety Sys2Proof.Laws

/-! Bytes written by a list of rows. -/

/-- The bytes of rows, one after another. -/
def rowBytes (rows : List Row) : List Byte := rows.flatMap fun w => bytesOfNat 256 w.toNat

theorem rowBytes_length (rows : List Row) : (rowBytes rows).length = 256 * rows.length := by
  induction rows with
  | nil => rfl
  | cons w rows ih =>
    rw [rowBytes, List.flatMap_cons, List.length_append, bytesOfNat_length, List.length_cons]
    exact (congrArg (256 + ·) ih).trans (by omega)

/-- Every row reads back from where it stands among the bytes. -/
theorem putBytes_rows (m : Memory) (off : Nat) (rows : List Row) {j : Nat} {w : Row} (h : rows[j]? = some w) :
    (m.putBytes off (rowBytes rows)).nat (off + 256 * j) 256 = w.toNat := by
  have hbytes : ∀ i < 256, (rowBytes rows)[256 * j + i]? = (bytesOfNat 256 w.toNat)[i]? := by
    intro i hi
    induction rows generalizing j with
    | nil => cases h
    | cons v rows ih =>
      rw [rowBytes, List.flatMap_cons]
      cases j with
      | zero =>
        obtain rfl : v = w := by simpa using h
        rw [Nat.mul_zero, Nat.zero_add, List.getElem?_append_left (by rw [bytesOfNat_length]; exact hi)]
      | succ j =>
        rw [List.getElem?_append_right (by rw [bytesOfNat_length]; omega), bytesOfNat_length, show 256 * (j + 1) + i - 256 = 256 * j + i by omega]
        exact ih (by simpa using h)
  have hlen : ∀ i < 256, 256 * j + i < (rowBytes rows).length := fun i hi => by
    by_contra hout
    have hnone := hbytes i hi
    rw [List.getElem?_eq_none (Nat.not_lt.1 hout), List.getElem?_eq_getElem (by rw [bytesOfNat_length]; exact hi)] at hnone
    cases hnone
  have hread : (m.putBytes off (rowBytes rows)).bytes (off + 256 * j) 256 = bytesOfNat 256 w.toNat := by
    refine List.ext_getElem (by simp) fun i hi hi' => ?_
    have hi256 : i < 256 := by simpa using hi
    rw [bytes_getElem, Nat.add_assoc, get_putBytes_in _ _ _ _ (hlen i hi256)]
    have h := hbytes i hi256
    rw [List.getElem?_eq_getElem (hlen i hi256), List.getElem?_eq_getElem hi'] at h
    exact Option.some.inj h
  rw [Memory.nat, hread, natOfBytes_bytesOfNat]
  have hrange : (2 : Nat) ^ (8 * 256) = 256 ^ 256 := Nat.pow_mul 2 8 256
  exact Nat.mod_eq_of_lt (w.isLt.trans_eq hrange)

/-! Pointers. -/

/-- A ring with new pointers. -/
def moved (r : Ring) (head tail : Nat) : Ring := { r with ptr := ptrOf head tail }

theorem moved_head (r : Ring) (head tail : Nat) : (moved r head tail).head = head % 65536 := by
  simp only [Ring.head, moved, ptrOf, bitsOf, BitVec.toNat_ofNat]
  omega
theorem moved_tail (r : Ring) (head tail : Nat) : (moved r head tail).tail = tail % 65536 := by
  simp only [Ring.tail, moved, ptrOf, bitsOf, BitVec.toNat_ofNat]
  omega
theorem head_lt (r : Ring) : r.head < 65536 := by
  simp only [Ring.head, bitsOf]
  omega
theorem tail_lt (r : Ring) : r.tail < 65536 := by
  simp only [Ring.tail, bitsOf]
  omega

section
variable (s : State) {core m q : Nat} (head tail : Nat)

theorem setPtr_core : (s.setPtr core m head tail).core core =
    { s.core core with rings := vset (s.core core).rings m { vget {} (s.core core).rings m with ptr := ptrOf head tail } } :=
  setCore_core_same _ _ _
theorem setPtr_ring (hm : m < 8) (q : Nat) :
    (s.setPtr core m head tail).ring core q = if q = m then moved (s.ring core m) head tail else s.ring core q := by
  rw [State.ring, setPtr_core]
  exact vget_vset _ _ _ hm q
theorem setPtr_other {a : Nat} (h : a ≠ core) : (s.setPtr core m head tail).core a = s.core a := setCore_core_ne _ _ h
theorem spWrite_core (off : Nat) (bs : List Byte) : (s.spWrite core off bs).core core = { s.core core with sp := (s.core core).sp.putBytes off bs } :=
  setCore_core_same _ _ _
theorem spWrite_other (off : Nat) (bs : List Byte) {a : Nat} (h : a ≠ core) : (s.spWrite core off bs).core a = s.core a := setCore_core_ne _ _ h
theorem spWrite_ring (off : Nat) (bs : List Byte) (q : Nat) : (s.spWrite core off bs).ring core q = s.ring core q := by
  rw [State.ring, spWrite_core]
  rfl

end

theorem ringCommits : Claims.RingCommits := by
  intro s core m rows hm r taken given off
  have htaken : ∀ q, taken.ring core q = if q = m then moved r (r.head + 1) r.tail else s.ring core q := setPtr_ring s _ _ hm
  have hgiven : ∀ q, given.ring core q = if q = m then moved r r.head (r.tail + 1) else s.ring core q := fun q => by
    refine (setPtr_ring _ _ _ hm q).trans ?_
    rw [spWrite_ring, spWrite_ring]
  have hsp : (given.core core).sp = (s.core core).sp.putBytes off (rowBytes rows) :=
    (congrArg Core.sp (setPtr_core _ _ _)).trans (congrArg Core.sp (spWrite_core s _ _))
  have hhead := Nat.mod_eq_of_lt (head_lt r)
  have htail := Nat.mod_eq_of_lt (tail_lt r)
  refine ⟨?_, ?_, fun j w hw => ?_, fun a ha => ?_, fun t ht => ?_⟩
  · rw [htaken, if_pos rfl]
    exact ⟨moved_head _ _ _, (moved_tail _ _ _).trans htail, rfl, rfl,
      (congrArg Core.sp (setPtr_core s (core := core) (m := m) (r.head + 1) r.tail) :)⟩
  · rw [hgiven, if_pos rfl]
    exact ⟨moved_tail _ _ _, (moved_head _ _ _).trans hhead, rfl, rfl⟩
  · rw [hsp]
    exact putBytes_rows _ _ _ hw
  · rw [hsp]
    exact get_putBytes_out _ _ _ _ (by rw [rowBytes_length]; exact ha)
  · rcases List.mem_cons.1 ht with rfl | ht
    · exact ⟨fun q hq => (htaken q).trans (if_neg hq), fun a ha => setPtr_other s _ _ ha, rfl, rfl, rfl⟩
    · obtain rfl := List.mem_singleton.1 ht
      exact ⟨fun q hq => (hgiven q).trans (if_neg hq), fun a ha => (setPtr_other _ _ _ ha).trans (spWrite_other s _ _ ha), rfl, rfl, rfl⟩

end Sys2Proof.Proofs
end

section
/-! What copy and access words read and write inside a page (R107, R117, R135, R137, R356). -/
namespace Sys2Proof.Proofs
open Sys2Proof.Machine Sys2Proof.Safety Sys2Proof.Laws

/-! Translation for an engine. -/

theorem lowRegion_cases (pa : Nat) : (∃ c o, lowRegion pa = .bank c o) ∨ (∃ k o, lowRegion pa = .under k o) ∨ lowRegion pa = .hole := by
  unfold lowRegion
  split
  · split
    · exact .inl ⟨_, _, rfl⟩
    · exact .inr (.inr rfl)
  · split
    · exact .inr (.inl ⟨_, _, rfl⟩)
    · exact .inr (.inr rfl)
/-- Bank memory and underdecks of this package. -/
theorem region_low {pa : Nat} (he : encrypted pa = true) (hlt : pa < 2 ^ 40) :
    (∃ c o, region pa = .bank c o) ∨ ∃ k o, region pa = .under k o := by
  have hlow : region pa = lowRegion pa := if_pos hlt
  rcases lowRegion_cases pa with h | h | h
  · exact .inl (hlow ▸ h)
  · exact .inr (hlow ▸ h)
  · rw [encrypted, hlow.trans h] at he
    cases he
theorem placeOk_low {pa : Nat} (s : State) (super : Bool) (he : encrypted pa = true) (hlt : pa < 2 ^ 40) : s.placeOk super pa = true := by
  unfold State.placeOk
  rcases region_low he hlt with ⟨_, _, h⟩ | ⟨_, _, h⟩ <;> rw [h]

section
variable {s t : State} {acc : AccessKind} {va : Nat}

theorem engineXlate_ok {x : TlbEntry} (hheld : s.walkHeldAt (clusterOf s.myCore) s.myPart s.unitSuper acc va = false)
    (hx : s.clusterXlate (clusterOf s.myCore) s.myPart s.unitSuper acc va = (.ok x, t)) (he : encrypted (x.access va).pa = true)
    (hlt : (x.access va).pa < 2 ^ 40) : engineXlate acc va s = .ok (x.access va) t := by
  unfold engineXlate
  rw [bind_ok (get_run s)]
  dsimp only
  rw [bind_ok (await_true (by rw [hheld]; rfl) s), hx]
  dsimp only
  rw [bind_ok (needE_true (placeOk_low t t.unitSuper he hlt) _ _)]
  rcases region_low he hlt with ⟨_, _, h⟩ | ⟨_, _, h⟩ <;> rw [h] <;> rfl
theorem engineXlate_error {e : Byte} (hheld : s.walkHeldAt (clusterOf s.myCore) s.myPart s.unitSuper acc va = false)
    (hx : s.clusterXlate (clusterOf s.myCore) s.myPart s.unitSuper acc va = (.error e, t)) :
    engineXlate acc va s = .error (.engine (walkSub e)) s := by
  unfold engineXlate
  rw [bind_ok (get_run s)]
  dsimp only
  rw [bind_ok (await_true (by rw [hheld]; rfl) s), hx]
  rfl

end

/-! A translation changes caches and waiting lists, and not which context executes. -/

theorem walkRead_cur (s : State) (clu p va : Nat) : (s.walkRead clu p va).cur = s.cur :=
  (Still.fold (f := fun (t : State) (a : Nat) => t.l2Fill clu (t.keydef p) p (a / 64) false) (fun t _ => still_l2Fill t p _ clu _ false) _ s).cur
theorem walkWaiting_cur (s : State) (clu : Nat) : (s.walkWaiting clu).cur = s.cur := by
  unfold State.walkWaiting
  split
  · rfl
  · dsimp only
    split <;> exact walkRead_cur _ _ _ _
theorem walkersReach_cur (clu p vpn f : Nat) (s : State) : (State.walkersReach clu p vpn f s).cur = s.cur := by
  induction f generalizing s with
  | zero => rfl
  | succ f ih =>
    unfold State.walkersReach
    split
    · rfl
    · split
      · rfl
      · exact (ih _).trans (walkWaiting_cur _ _)
theorem clusterXlate_cur (s : State) (clu p : Nat) (super : Bool) (acc : AccessKind) (va : Nat) :
    (s.clusterXlate clu p super acc va).2.cur = s.cur := by
  have hread : ((State.walkersReach clu p (va / 4096) 2112 (s.awaitPage clu p (va / 4096) super)).walkRead clu p va).cur = s.cur :=
    (walkRead_cur _ _ _ _).trans (walkersReach_cur _ _ _ _ _)
  unfold State.clusterXlate
  split
  · rfl
  · split
    · rfl
    · dsimp only
      split <;> exact hread

/-! A range inside a page is one piece. -/

theorem pieces_one {va n : Nat} (h1 : 1 ≤ n) (h : va % 4096 + n ≤ 4096) : pieces va n = [(va, n)] := by
  have hmin : min n (4096 - va % 4096) = n := by omega
  unfold pieces piecesOf
  rw [if_neg (by omega), hmin]
  simp [piecesOf]

theorem readSrc_window {s : State} {d : Cmd} {va n : Nat} (hw : isWindow va = true) : readSrc d va n s =
    if scratchOff va + n ≤ (s.core s.myCore).spSize then .ok ((s.core s.myCore).sp.bytes (scratchOff va) n, d) s else .error (.engine 0x09) s := by
  unfold readSrc
  rw [if_pos hw]
  unfold spRange
  split
  · rename_i h
    rw [bind_ok (a := scratchOff va) (t := s) ((bind_ok (get_run s)).trans (bind_ok (needE_true (decide_eq_true h) _ _)))]
    rfl
  · rename_i h
    exact bind_error ((bind_ok (get_run s)).trans (bind_error (needE_false (decide_eq_false h) _ _)))
theorem readSrc_piece {d : Cmd} {va n : Nat} (hw : isWindow va = false) (h1 : 1 ≤ n) (h : va % 4096 + n ≤ 4096) :
    readSrc d va n = readPiece d va n := by
  unfold readSrc
  rw [if_neg (by simp [hw]), pieces_one h1 h]
  simp only [List.foldlM_cons, List.foldlM_nil, List.nil_append, bind_pure]
  exact bind_pure _

/-! Bytes at the home, over whole lines. -/

theorem homeBytes_append (s : State) (key pa m n : Nat) : s.homeBytes key pa (m + n) = s.homeBytes key pa m ++ s.homeBytes key (pa + m) n := by
  induction m generalizing pa with
  | zero => simp [State.homeBytes]
  | succ m ih =>
    rw [Nat.succ_add, State.homeBytes, State.homeBytes, ih, List.cons_append, Nat.add_assoc, Nat.add_comm 1 m]
theorem homeBytes_length (s : State) (key pa n : Nat) : (s.homeBytes key pa n).length = n := by
  induction n generalizing pa with
  | zero => rfl
  | succ n ih => rw [State.homeBytes, List.length_cons, ih]
/-- A range among the bytes of whole lines. -/
theorem homeBytes_within (s : State) (key base : Nat) {k n m : Nat} (h : k + n ≤ m) :
    ((s.homeBytes key base m).drop k).take n = s.homeBytes key (base + k) n := by
  obtain ⟨r, rfl⟩ := Nat.exists_eq_add_of_le h
  rw [Nat.add_assoc, homeBytes_append, List.drop_append_of_le_length (by rw [homeBytes_length]), List.drop_of_length_le (by rw [homeBytes_length]),
    List.nil_append, homeBytes_append, List.take_append_of_le_length (by rw [homeBytes_length]), List.take_of_length_le (by rw [homeBytes_length])]

/-- Lines read one after another where the reads leave the state as it is. -/
theorem lines_read {t : State} {key l : Nat} {f : List Byte × State → Nat → List Byte × State} {n : Nat}
    (h : ∀ i < n, ∀ bs, f (bs, t) (l + i) = (bs ++ t.homeBytes key ((l + i) * 64) 64, t)) :
    ((List.range n).map (l + ·)).foldl f ([], t) = (t.homeBytes key (l * 64) (64 * n), t) := by
  induction n with
  | zero => rfl
  | succ n ih =>
    rw [List.range_succ, List.map_append, List.foldl_append, ih fun i hi => h i (by omega)]
    refine (h n (by omega) _).trans ?_
    rw [show 64 * (n + 1) = 64 * n + 64 from rfl, homeBytes_append, show (l + n) * 64 = l * 64 + 64 * n by ring]

section
variable {s t u : State} {clu p n : Nat} {a : Access}

theorem recall_uncached (h : s.holders n = []) : s.recall n p = s := by
  rw [State.recall, h]
  rfl

/-- An uncached page's bytes are the home's (R103). -/
theorem clusterRead_home (hu : a.uncached = true) (h1 : 1 ≤ n) (hl : ∀ l ∈ State.linesOf a.pa n, s.holders l = []) :
    s.clusterRead clu p a n = (s.homeBytes a.key a.pa n, s) := by
  have hbase : a.pa / 64 * 64 + a.pa % 64 = a.pa := Nat.div_add_mod' _ _
  unfold State.clusterRead
  dsimp only
  rw [State.linesOf, lines_read (t := s) (key := a.key)]
  · exact Prod.ext ((homeBytes_within s a.key _ (by omega)).trans (by rw [hbase])) rfl
  · intro i hi bs
    rw [if_pos (by simp [hu]), recall_uncached (hl _ (List.mem_map.2 ⟨i, List.mem_range.2 hi, rfl⟩))]

end

end Sys2Proof.Proofs
end

section
/-! What copy and access words read and write inside a page (R107, R117, R135, R137, R356): the pieces of a range. -/
namespace Sys2Proof.Proofs
open Sys2Proof.Machine Sys2Proof.Safety Sys2Proof.Laws

/-! Bytes of a bit vector. -/

theorem bytesOfNat_map (n v : Nat) : bytesOfNat n v = (List.range n).map fun i => BitVec.ofNat 8 (v / 256 ^ i) := by
  induction n generalizing v with
  | zero => rfl
  | succ n ih =>
    rw [bytesOfNat, ih, List.range_succ_eq_map, List.map_cons, List.map_map, Nat.pow_zero, Nat.div_one]
    refine congrArg _ (List.map_congr_left fun i _ => ?_)
    rw [Nat.div_div_eq_div_mul, Function.comp_apply, Nat.pow_succ']
theorem ofNat_byteAt {w : Nat} (v : BitVec w) (i : Nat) : BitVec.ofNat 8 (v.toNat / 256 ^ i) = byteAt v i := by
  apply BitVec.eq_of_toNat_eq
  rw [byteAt, BitVec.extractLsb'_toNat, BitVec.toNat_ofNat, Nat.shiftRight_eq_div_pow, Nat.pow_mul]
theorem bytesOfBV_map {w : Nat} (n : Nat) (v : BitVec w) : bytesOfBV n v = (List.range n).map (byteAt v) :=
  (bytesOfNat_map n v.toNat).trans (List.map_congr_left fun i _ => ofNat_byteAt v i)
/-- Some of the bytes of a bit vector. -/
theorem bytesOfBV_within {w k n m : Nat} (v : BitVec w) (h : k + n ≤ m) :
    ((bytesOfBV m v).drop k).take n = (List.range n).map fun i => byteAt v (k + i) := by
  rw [bytesOfBV_map]
  refine List.ext_getElem (by simp; omega) fun i _ _ => ?_
  simp

section
variable {s t : State} {d : Cmd} {va n : Nat} {a : Access}

/-- A read outside every group goes to the cluster. -/
theorem readPiece_ok (hx : engineXlate .load va s = .ok a t) (hg : t.groupAt a.pa = none) (he : encrypted a.pa = true) (hlt : a.pa < 2 ^ 40) :
    readPiece d va n s = .ok ((t.clusterRead (clusterOf t.myCore) t.myPart a n).1, d) (t.clusterRead (clusterOf t.myCore) t.myPart a n).2 := by
  have hsteer : t.steerTo d.groups a.pa = (a.pa, none) := by
    unfold State.steerTo
    rw [hg]
  have hread : t.engineRead (clusterOf t.myCore) t.myPart a n = some (t.clusterRead (clusterOf t.myCore) t.myPart a n) := by
    unfold State.engineRead
    rcases region_low he hlt with ⟨_, _, h⟩ | ⟨_, _, h⟩ <;> rw [h]
  unfold readPiece
  rw [bind_ok hx, bind_ok (get_run t), hsteer]
  dsimp only
  rw [hread]
  rfl

/-- A line that the cluster's L2 holds is read there (R135). -/
theorem clusterRead_hit {clu p : Nat} {y : Sector} (hu : a.uncached = false) (he : encrypted a.pa = true) (hlt : a.pa < 2 ^ 40) (h1 : 1 ≤ n)
    (hn : a.pa % 64 + n ≤ 64) (hy : (t.cluster clu).sector (a.pa / 64) = some y) :
    ∃ u, t.clusterRead clu p a n = ((List.range n).map fun i => byteAt y.data (a.pa % 64 + i), u) ∧ u.mem = t.mem := by
  have hone : State.linesOf a.pa n = [a.pa / 64] := by
    rw [State.linesOf, show (a.pa + n - 1) / 64 - a.pa / 64 = 0 by omega]
    rfl
  have hcharge : (t.chargeHit y.part p).clusters = t.clusters ∧ (t.chargeHit y.part p).mem = t.mem := by
    unfold State.chargeHit
    split <;> exact ⟨rfl, rfl⟩
  have hsector : ((t.chargeHit y.part p).cluster clu).sector (a.pa / 64) = some y := by
    rw [State.cluster, hcharge.1]
    exact hy
  have hfill : t.l2Fill clu a.key p (a.pa / 64) false = t.chargeHit y.part p := by
    unfold State.l2Fill
    rw [hy]
    dsimp only
    unfold State.l2Take
    rw [hsector]
    exact if_pos (by simp)
  refine ⟨t.chargeHit y.part p, ?_, hcharge.2⟩
  unfold State.clusterRead
  rw [hone, hu]
  dsimp only [List.foldl_cons, List.foldl_nil]
  rw [if_neg ?near, hfill, List.nil_append, State.l2Data, hsector]
  case near => rcases region_low he hlt with ⟨_, _, h⟩ | ⟨_, _, h⟩ <;> rw [h] <;> exact Bool.false_ne_true
  exact Prod.ext (bytesOfBV_within y.data hn) rfl

end

/-! Destinations: a range inside a page is one piece, checked, waited for and written. -/

section
variable {s t : State} {spOk : Bool} {grp : Option Nat} {va n : Nat} {x : Dest} {a : Access}

theorem destPieces_one (h1 : 1 ≤ n) (h : va % 4096 + n ≤ 4096) :
    destPieces spOk grp va n = (do let x ← destPiece spOk grp va n; pure [(x, va, n)]) := by
  unfold destPieces
  rw [pieces_one h1 h]
  simp

section
variable {bs : List Byte} (h1 : 1 ≤ bs.length) (h : va % 4096 + bs.length ≤ 4096)
include h1 h

/-- The pieces of a range inside a page, where its one piece is good. -/
theorem destPieces_ok (hp : destPiece spOk grp va bs.length s = .ok x t) : destPieces spOk grp va bs.length s = .ok [(x, va, bs.length)] t := by
  rw [destPieces_one h1 h, bind_ok hp]
  rfl
theorem writeRange_ok (hp : destPiece spOk grp va bs.length s = .ok x t) (ha : awaitDest x t = .ok () t) {u : State}
    (hw : writeDest x bs t = .ok () u) : writeRange spOk grp va bs s = .ok (grp.or x.group) u := by
  unfold writeRange
  rw [bind_ok (destPieces_ok h1 h hp)]
  simp only [List.forIn_cons, List.forIn_nil, Nat.sub_self, List.drop_zero, List.take_length, bind_assoc, pure_bind]
  rw [bind_ok ha, bind_ok hw]
  simp
theorem writeRange_held (hp : destPiece spOk grp va bs.length s = .ok x t) {e : Stop} {u : State} (ha : awaitDest x t = .error e u) :
    writeRange spOk grp va bs s = .error e u := by
  unfold writeRange
  rw [bind_ok (destPieces_ok h1 h hp)]
  simp only [List.forIn_cons, List.forIn_nil, bind_assoc]
  exact bind_error ha
theorem writeRange_error {e : Stop} (hp : destPiece spOk grp va bs.length s = .error e t) : writeRange spOk grp va bs s = .error e t := by
  unfold writeRange
  rw [destPieces_one h1 h]
  exact bind_error (bind_error hp)

end

/-- A piece in the scratchpad, where the word allows it (R107). -/
theorem destPiece_window (hw : isWindow va = true) (hsp : spOk = true) (hg : grp = none) (h : scratchOff va + n ≤ (s.core s.myCore).spSize) :
    destPiece spOk grp va n s = .ok (.sp (scratchOff va)) s := by
  unfold destPiece spRange
  rw [if_pos hw, bind_ok (needE_true (by simp [hsp, hg]) _ _)]
  simp only [bind_assoc]
  rw [bind_ok (get_run s), bind_ok (needE_true (decide_eq_true h) _ _)]
  rfl
theorem destPiece_noWindow (hw : isWindow va = true) : destPiece false grp va n s = .error (.engine 0x12) s := by
  unfold destPiece
  rw [if_pos hw]
  exact bind_error (needE_false rfl _ _)

section
variable (hw : isWindow va = false) (hx : engineXlate .store va s = .ok a t)
include hw hx

/-- A piece outside every group that the partition may write (R356). -/
theorem destPiece_outside (hg : t.destGroup a.pa = none) : destPiece spOk grp va n s = .error (.engine 0x12) t := by
  unfold destPiece
  rw [if_neg (by simp [hw]), bind_ok hx, bind_ok (get_run t), hg]
  rfl
/-- A piece in the group in which the destination began lies in its shadow (R137, R356). -/
theorem destPiece_shadow {g : Nat} (hg : t.destGroup a.pa = some g) (hgrp : grp = none ∨ grp = some g)
    (hend : a.pa + n ≤ t.grpVis g + t.grpSize g) : destPiece spOk grp va n s =
      .ok (.shadow g (!t.grpCur g) a.key (t.grpBuf g (!t.grpCur g) + (a.pa - t.grpVis g))) t := by
  unfold destPiece
  rw [if_neg (by simp [hw]), bind_ok hx, bind_ok (get_run t), hg]
  dsimp only
  rw [bind_ok (needE_true ?fits _ _)]
  case fits => rcases hgrp with rfl | rfl <;> simp [hend]
  rfl

end

end

/-- Bytes written into a memory, by number. -/
theorem putBytes_getD (m : Memory) (off : Nat) (bs : List Byte) {i : Nat} (h : i < bs.length) :
    (m.putBytes off bs).get (off + i) = bs.getD i 0 := by
  rw [get_putBytes_in _ _ _ _ h, List.getD_eq_getElem?_getD, List.getElem?_eq_getElem h]
  rfl

theorem copyAccesses : Claims.CopyAccesses := by
  intro s d va n h1 hpage core clu off
  refine ⟨fun hw h => (readSrc_window hw).trans (if_pos h), fun hw h => ⟨s, (readSrc_window hw).trans (if_neg (Nat.not_le.2 h))⟩,
    fun hw => ⟨fun e t hheld hx => ?refused, ?read⟩,
    fun spOk grp bs hbs => ⟨fun hw => ⟨fun hsp hgrp h => ?window, fun hsp => ?noWindow⟩, ?write⟩⟩
  case refused =>
    refine ⟨s, ?_⟩
    rw [readSrc_piece hw h1 hpage]
    exact bind_error (engineXlate_error hheld hx)
  case read =>
    intro x t hheld hx a he hlt hg
    rw [readSrc_piece hw h1 hpage]
    have hread := readPiece_ok (d := d) (n := n) (engineXlate_ok hheld hx he hlt) hg he hlt
    refine ⟨fun hu hl => hread.trans (by rw [clusterRead_home hu h1 hl]), fun y hu hn hy => ?_⟩
    have hclu : clusterOf t.myCore = clu := by
      have hcur := clusterXlate_cur s clu s.myPart s.unitSuper .load va
      rw [hx] at hcur
      exact congrArg (fun c => clusterOf (coreOf c)) hcur
    obtain ⟨u, hhit, hmem⟩ := clusterRead_hit (p := t.myPart) hu he hlt h1 hn hy
    exact ⟨u, hread.trans (by rw [hclu, hhit]), hmem⟩
  all_goals subst hbs
  case window =>
    have hcore := spWrite_core s (core := core) off bs
    refine ⟨s.spWrite core off bs, ?_, fun i hi => ?_, fun a ha => ?_, rfl, rfl⟩
    · rw [hgrp]
      exact writeRange_ok h1 hpage (destPiece_window hw hsp rfl h) rfl rfl
    · rw [hcore]
      exact putBytes_getD _ _ _ hi
    · rw [hcore]
      exact get_putBytes_out _ _ _ _ ha
  case noWindow => exact ⟨s, writeRange_error h1 hpage (hsp ▸ destPiece_noWindow hw)⟩
  case write =>
    intro hw hheld x t hx a he hlt
    have hxlate := engineXlate_ok hheld hx he hlt
    refine ⟨fun hg => ⟨t, writeRange_error h1 hpage (destPiece_outside hw hxlate hg)⟩, fun g hg hgrp hend => ?_⟩
    have hpiece := destPiece_shadow (spOk := spOk) hw hxlate hg hgrp hend
    refine ⟨fun hlatch => ⟨t, writeRange_held h1 hpage hpiece ?_⟩, fun hlatch => ?_⟩
    · exact (bind_ok (get_run t)).trans (await_false (by rw [hlatch]; rfl) t)
    · refine (writeRange_ok h1 hpage hpiece ((bind_ok (get_run t)).trans (await_true (by rw [hlatch]; rfl) t)) rfl).trans ?_
      rcases hgrp with rfl | rfl <;> rfl

end Sys2Proof.Proofs
end

section
/-! What reads and writes of a copy or access word keep: the executing context, and of the command its operands and progress. -/
namespace Sys2Proof.Proofs
open Sys2Proof.Machine Sys2Proof.Safety Sys2Proof.Laws

/-- A meaning after which the same context executes, where it goes on. -/
def KeepsCur {α : Type} (m : M α) : Prop := ∀ ⦃s t : State⦄ ⦃a : α⦄, m s = .ok a t → t.cur = s.cur

section
variable {α β : Type}

theorem keepsCur_pure (a : α) : KeepsCur (pure a : M α) := fun _ _ _ h => by
  cases h
  rfl
theorem keepsCur_throw (e : Stop) : KeepsCur (throw e : M α) := fun _ _ _ h => by cases h
theorem keepsCur_get : KeepsCur (get : M State) := fun _ _ _ h => by
  cases h
  rfl
theorem keepsCur_await (ok : Bool) : KeepsCur (await ok) := fun _ _ _ h => by
  cases ok
  · cases h
  · cases h
    rfl
theorem keepsCur_needE (ok : Bool) (c : Byte) : KeepsCur (needE ok c) := fun _ _ _ h => by
  cases ok
  · cases h
  · cases h
    rfl
theorem keepsCur_upd {f : State → State} (hf : ∀ s, (f s).cur = s.cur) : KeepsCur (upd f) := fun _ _ _ h => by
  cases h
  exact hf _
theorem keepsCur_bind {m : M α} {f : α → M β} (hm : KeepsCur m) (hf : ∀ a, KeepsCur (f a)) : KeepsCur (m >>= f) := fun _ _ _ h => by
  obtain ⟨a, u, ha, hb⟩ := bind_eq_ok h
  exact (hf a hb).trans (hm ha)
theorem keepsCur_ite {c : Prop} [Decidable c] {m k : M α} (hm : KeepsCur m) (hk : KeepsCur k) : KeepsCur (if c then m else k) := by
  split
  · exact hm
  · exact hk
theorem keepsCur_foldlM {f : β → α → M β} (hf : ∀ b a, KeepsCur (f b a)) (l : List α) (b : β) : KeepsCur (l.foldlM f b) := by
  induction l generalizing b with
  | nil => exact keepsCur_pure b
  | cons a l ih => exact keepsCur_bind (hf b a) ih
theorem keepsCur_forIn {f : α → M Unit} (hf : ∀ a, KeepsCur (f a)) (l : List α) : 
    KeepsCur (forIn l PUnit.unit fun a _ => do f a; pure (ForInStep.yield PUnit.unit)) := by
  induction l with
  | nil => exact keepsCur_pure _
  | cons a l ih =>
    rw [List.forIn_cons]
    simp only [bind_assoc, pure_bind]
    exact keepsCur_bind (hf a) fun _ => ih

end

/-! Translation and destinations. -/

theorem keepsCur_engineXlate (acc : AccessKind) (va : Nat) : KeepsCur (engineXlate acc va) := fun s t a h => by
  obtain ⟨_, _, hget, h⟩ := bind_eq_ok h
  cases hget
  obtain ⟨_, _, -, h⟩ := bind_eq_ok h
  have hcur := clusterXlate_cur s (clusterOf s.myCore) s.myPart s.unitSuper acc va
  cases hx : s.clusterXlate (clusterOf s.myCore) s.myPart s.unitSuper acc va with
  | mk r u =>
    rw [hx] at h hcur
    cases r with
    | error e => cases h
    | ok x =>
      obtain ⟨_, _, -, h⟩ := bind_eq_ok h
      cases h
      refine Eq.trans ?_ hcur
      cases hr : region (x.access va).pa <;> rfl

theorem keepsCur_spRange (va n : Nat) : KeepsCur (spRange va n) :=
  keepsCur_bind keepsCur_get fun _ => keepsCur_bind (keepsCur_needE _ _) fun _ => keepsCur_pure _
theorem keepsCur_destPiece (spOk : Bool) (grp : Option Nat) (va n : Nat) : KeepsCur (destPiece spOk grp va n) := by
  unfold destPiece
  refine keepsCur_ite ?_ ?_
  · exact keepsCur_bind (keepsCur_needE _ _) fun _ => keepsCur_bind (keepsCur_spRange _ _) fun _ => keepsCur_pure _
  · refine keepsCur_bind (keepsCur_engineXlate _ _) fun a => keepsCur_bind keepsCur_get fun s => ?_
    cases s.destGroup a.pa with
    | none => exact keepsCur_throw _
    | some g => exact keepsCur_bind (keepsCur_needE _ _) fun _ => keepsCur_pure _
theorem keepsCur_destPieces (spOk : Bool) (grp : Option Nat) (va n : Nat) : KeepsCur (destPieces spOk grp va n) :=
  keepsCur_bind (keepsCur_foldlM (fun _ _ => keepsCur_bind (keepsCur_destPiece _ _ _ _) fun _ => keepsCur_pure _) _ _) fun _ => keepsCur_pure _
theorem keepsCur_awaitDest (x : Dest) : KeepsCur (awaitDest x) := by
  cases x with
  | sp off => exact keepsCur_pure _
  | shadow g b key pa => exact keepsCur_bind keepsCur_get fun _ => keepsCur_await _
theorem keepsCur_writeDest (x : Dest) (bs : List Byte) : KeepsCur (writeDest x bs) := by
  refine keepsCur_upd fun s => ?_
  cases x with
  | sp off => rfl
  | shadow g b key pa => exact (still_homeWrite _ _ _ _ _).cur
theorem keepsCur_writeRange (spOk : Bool) (grp : Option Nat) (va : Nat) (bs : List Byte) : KeepsCur (writeRange spOk grp va bs) :=
  keepsCur_bind (keepsCur_destPieces _ _ _ _) fun _ => keepsCur_bind (keepsCur_forIn (fun _ => keepsCur_awaitDest _) _) fun _ =>
    keepsCur_bind (keepsCur_forIn (fun _ => keepsCur_writeDest _ _) _) fun _ => keepsCur_pure _

/-! Sources. -/

theorem clusterRead_cur (s : State) (clu p : Nat) (a : Access) (n : Nat) : (s.clusterRead clu p a n).2.cur = s.cur := by
  unfold State.clusterRead
  dsimp only
  generalize ([] : List Byte) = bs
  generalize State.linesOf a.pa n = ls
  induction ls generalizing bs s with
  | nil => rfl
  | cons l ls ih =>
    rw [List.foldl_cons]
    refine (ih _ _).trans ?_
    exact iteInduction (motive := fun r : List Byte × State => r.2.cur = s.cur) (fun _ => (still_recall _ _ _).cur)
      fun _ => (still_l2Fill _ _ _ _ _ _).cur
theorem engineRead_cur {s t : State} {clu p n : Nat} {a : Access} {bs : List Byte} (h : s.engineRead clu p a n = some (bs, t)) : t.cur = s.cur := by
  unfold State.engineRead at h
  split at h
  · obtain ⟨_, -, h⟩ := Option.map_eq_some_iff.1 h
    cases h
    rfl
  · cases h
    exact clusterRead_cur s clu p a n

/-- What a read for a command keeps: the executing context, and the command's operands and progress. -/
structure Kept (d e : Cmd) (s t : State) : Prop where
  ops : e.ops = d.ops
  prog : e.prog = d.prog
  cur : t.cur = s.cur

theorem Kept.trans {d e f : Cmd} {s t u : State} (h : Kept d e s t) (k : Kept e f t u) : Kept d f s u :=
  ⟨k.ops.trans h.ops, k.prog.trans h.prog, k.cur.trans h.cur⟩

section
variable {s t : State} {d e : Cmd} {bs : List Byte} {va n : Nat}

theorem readPiece_kept (h : readPiece d va n s = .ok (bs, e) t) : Kept d e s t := by
  obtain ⟨a, u, hx, h⟩ := bind_eq_ok h
  have hcur := keepsCur_engineXlate _ _ hx
  obtain ⟨_, _, hget, h⟩ := bind_eq_ok h
  cases hget
  cases hsteer : u.steerTo d.groups a.pa with
  | mk pa g =>
    rw [hsteer] at h
    dsimp only at h
    cases hr : u.engineRead (clusterOf u.myCore) u.myPart { a with pa := pa } n with
    | none =>
      rw [hr] at h
      cases h
    | some r =>
      rw [hr] at h
      cases h
      have hv : r.2.cur = s.cur := (engineRead_cur hr).trans hcur
      cases g with
      | none => exact ⟨rfl, rfl, hv⟩
      | some x =>
        dsimp only
        split <;> exact ⟨rfl, rfl, hv⟩

theorem readSrc_kept (h : readSrc d va n s = .ok (bs, e) t) : Kept d e s t := by
  unfold readSrc at h
  split at h
  · obtain ⟨off, u, hoff, h⟩ := bind_eq_ok h
    have hcur := keepsCur_spRange _ _ hoff
    obtain ⟨_, _, hget, h⟩ := bind_eq_ok h
    cases hget
    cases h
    exact ⟨rfl, rfl, hcur⟩
  · revert h
    generalize ([] : List Byte) = read
    generalize pieces va n = l
    induction l generalizing read d s with
    | nil =>
      intro h
      cases h
      exact ⟨rfl, rfl, rfl⟩
    | cons pc l ih =>
      intro h
      rw [List.foldlM_cons] at h
      obtain ⟨r, u, hone, h⟩ := bind_eq_ok h
      obtain ⟨⟨b, f⟩, v, hpiece, hone⟩ := bind_eq_ok hone
      cases hone
      exact (readPiece_kept hpiece).trans (ih _ h)

variable {buf : List Byte} {src total done : Nat}

theorem readLines_kept (h : readLines d buf src total done n s = .ok (bs, e) t) : Kept d e s t := by
  unfold readLines at h
  dsimp only at h
  split at h
  · cases h
    exact ⟨rfl, rfl, rfl⟩
  · obtain ⟨⟨b, f⟩, u, hread, h⟩ := bind_eq_ok h
    cases h
    exact readSrc_kept hread
theorem readAhead_kept (h : readAhead d src total done n s = .ok (bs, e) t) : Kept d e s t := by
  obtain ⟨⟨b, f⟩, u, hread, h⟩ := bind_eq_ok h
  cases h
  obtain ⟨hops, hprog, hcur⟩ := readLines_kept hread
  exact ⟨hops, hprog, hcur⟩
theorem tableEntry_kept {a addr : Nat} (h : tableEntry d a n s = .ok (addr, e) t) : Kept d e s t := by
  obtain ⟨⟨b, f⟩, u, hread, h⟩ := bind_eq_ok h
  cases h
  obtain ⟨hops, hprog, hcur⟩ := readLines_kept hread
  exact ⟨hops, hprog, hcur⟩

end

end Sys2Proof.Proofs
end

section
/-! The steps of copy and access words (R155, R157, R356, R359). -/
namespace Sys2Proof.Proofs
open Sys2Proof.Machine Sys2Proof.Safety Sys2Proof.Laws

/-! What a step leaves by its answer. -/

section
variable {s t : State} {c k n : Nat} {d e : Cmd} {m : M (Option Cmd)} (hd : s.startedCmd c k n = some d) (hc : (s.ctx c).cancel = none)
  (hw : d.word ≠ .repair) (hstep : stepCmd d = linked m) (hl : t.linkq = s.linkq)
include hd hc hw hstep hl

theorem commits_of_step (hm : m { s with cur := c, curK := k } = .ok none t) : Commits s c k n d t := by
  have hrun : (stepCmd d).run { s with cur := c, curK := k } = .ok none t := by
    rw [hstep]
    exact linked_ok m _ t none hm hl
  exact runEvent_of_eq (·.stepStarted c k n) (stepStarted_commit hd hc hw hrun)
theorem goesOn_of_step (hm : m { s with cur := c, curK := k } = .ok (some e) t) : GoesOn s c k n t e := by
  have hrun : (stepCmd d).run { s with cur := c, curK := k } = .ok (some e) t := by
    rw [hstep]
    exact linked_ok m _ t (some e) hm hl
  refine runEvent_of_eq (·.stepStarted c k n) ?_
  rw [stepStarted_cases s c k n d hd hw, if_neg (by simp [hc]), hrun]
/-- A step that answers by whether it was the last. -/
theorem step_ends {P : Prop} [Decidable P] (hm : m { s with cur := c, curK := k } = .ok (if P then none else some e) t) :
    (P → Commits s c k n d t) ∧ (¬P → GoesOn s c k n t e) :=
  ⟨fun h => commits_of_step hd hc hw hstep hl (by rw [hm, if_pos h]), fun h => goesOn_of_step hd hc hw hstep hl (by rw [hm, if_neg h])⟩

end

/-! Steps of copy words. -/

section
variable {w t u v r : State} {d e f : Cmd} {bs : List Byte} {g : Option Nat}

theorem copyOps_eq (h : d.word = .get ∨ d.word = .put ∨ d.word = .xfer) : copyOps d =
    (if d.word = .xfer then (nth d.ops 1).toNat else (nth d.ops 0).toNat, if d.word = .xfer then (nth d.ops 0).toNat else (nth d.ops 1).toNat,
      (nth d.ops 2).toNat, d.word == .get) := by
  unfold copyOps
  rcases h with h | h | h <;> rw [h] <;> rfl

/-- A piece of a source goes to a destination. -/
theorem stepCopy_run {src dst len m : Nat} {sp : Bool} (hops : copyOps d = (src, dst, len, sp)) (hm : m = stepLen src len d.prog)
    (hread : readSrc d (src + d.prog) m w = .ok (bs, e) t) (hwrite : writeRange sp e.destGrp (dst + d.prog) bs t = .ok g u) :
    stepCopy d w = .ok (if len ≤ d.prog + m then none else some (({ e with prog := d.prog + m } : Cmd).setDestGrp g)) u := by
  subst hm
  obtain ⟨-, hprog, -⟩ := readSrc_kept hread
  unfold stepCopy
  rw [hops]
  dsimp only
  rw [bind_ok hread]
  dsimp only
  rw [hprog, bind_ok hwrite]
  rfl
theorem stepFill_run {m : Nat} (hm : m = stepLen (nth d.ops 0).toNat (nth d.ops 2).toNat d.prog)
    (hwrite : writeRange true d.destGrp ((nth d.ops 0).toNat + d.prog) (fillBytes (nth d.ops 1) m) w = .ok g u) :
    stepFill d w = .ok (if (nth d.ops 2).toNat ≤ d.prog + m then none else some (({ d with prog := d.prog + m } : Cmd).setDestGrp g)) u := by
  subst hm
  unfold stepFill
  rw [bind_ok hwrite]
  rfl

/-- A tile that is read goes to a ring (R158). -/
theorem stepGetr_run {ring size : Nat} (hring : ring = (nth d.ops 1).toNat) (hturn : w.ringTurn w.myCore producedBy ring d.since = true)
    (hroom : (w.ring w.myCore ring).occ < (w.ring w.myCore ring).tiles) (hsize : size = (w.ring w.myCore ring).tsize * 256)
    (hread : readAhead d (nth d.ops 0).toNat ((nth d.ops 2).toNat * size) (d.prog * size) size w = .ok (bs, e) t) :
    stepGetr d w = .ok (if (nth d.ops 2).toNat ≤ d.prog + 1 then none else some { e with prog := d.prog + 1 })
      (t.ringGive w.myCore ring ((List.range (w.ring w.myCore ring).tsize).map fun j =>
        BitVec.ofNat 2048 (natOfBytes ((bs.drop (256 * j)).take 256)))) := by
  have hcore : t.myCore = w.myCore := congrArg coreOf (readAhead_kept hread).cur
  have hawait : awaitRoom d ring w = .ok () w :=
    (bind_ok (get_run w)).trans ((bind_ok (await_true hturn w)).trans (await_true (decide_eq_true hroom) w))
  unfold stepGetr
  dsimp only
  rw [← hring, bind_ok hawait, bind_ok (get_run w), ← hsize, bind_ok hread]
  dsimp only
  rw [bind_ok (upd_run _ t), hcore, hsize, Nat.mul_div_cancel _ (by decide)]
  rfl
/-- A tile that is taken goes to a shadow (R158). -/
theorem stepPutr_run {ring : Nat} (hring : ring = (nth d.ops 0).toNat) (hturn : w.ringTurn w.myCore consumedBy ring d.since = true)
    (hsome : (w.ring w.myCore ring).occ ≠ 0)
    (hwrite : writeRange false d.destGrp ((nth d.ops 1).toNat + d.prog * ((w.headTile w.myCore ring).length * 256))
      ((w.headTile w.myCore ring).flatMap fun r => bytesOfNat 256 r.toNat) w = .ok g t) :
    stepPutr d w = .ok (if (nth d.ops 2).toNat ≤ d.prog + 1 then none else some (({ d with prog := d.prog + 1 } : Cmd).setDestGrp g))
      (t.ringTake w.myCore ring) := by
  have hcore : t.myCore = w.myCore := congrArg coreOf (keepsCur_writeRange _ _ _ _ hwrite)
  have hawait : awaitTile d ring w = .ok () w :=
    (bind_ok (get_run w)).trans ((bind_ok (await_true hturn w)).trans (await_true (bne_iff_ne.2 hsome) w))
  unfold stepPutr
  dsimp only
  rw [← hring, bind_ok hawait, bind_ok (get_run w), bind_ok hwrite, bind_ok (upd_run _ t), hcore]
  rfl

/-- An element of a gather. -/
theorem stepGather_run {a : Nat} (hentry : tableEntry d (nth d.ops 0).toNat (nth d.ops 2).toNat w = .ok (a, e) t)
    (hread : readSrc e a (nth d.ops 3).toNat t = .ok (bs, f) u)
    (hwrite : writeRange true f.destGrp ((nth d.ops 1).toNat + d.prog * (nth d.ops 3).toNat) bs u = .ok g v) :
    stepGather d w = .ok (if (nth d.ops 2).toNat ≤ d.prog + 1 then none
      else some (({ f with prog := d.prog + 1, tab := f.tab.drop 8 } : Cmd).setDestGrp g)) v := by
  obtain ⟨hops, hprog, -⟩ := (tableEntry_kept hentry).trans (readSrc_kept hread)
  unfold stepGather
  dsimp only
  rw [bind_ok hentry]
  dsimp only
  rw [bind_ok hread]
  dsimp only
  rw [hops, hprog, bind_ok hwrite]
  rfl
/-- An element of a scatter. -/
theorem stepScatter_run {a : Nat} {x : Dest} (hentry : tableEntry d (nth d.ops 1).toNat (nth d.ops 2).toNat w = .ok (a, e) t)
    (hdest : iterDest a (nth d.ops 3).toNat t = .ok x u)
    (hread : readAhead e (nth d.ops 0).toNat ((nth d.ops 2).toNat * (nth d.ops 3).toNat) (d.prog * (nth d.ops 3).toNat) (nth d.ops 3).toNat u =
      .ok (bs, f) v) (hwrite : writeRange true none a bs v = .ok g r) :
    stepScatter d w = .ok (if (nth d.ops 2).toNat ≤ d.prog + 1 then none else some { f with prog := d.prog + 1, tab := f.tab.drop 8 }) r := by
  obtain ⟨hops, hprog, -⟩ := tableEntry_kept hentry
  have hprog' : f.prog = d.prog := (readAhead_kept hread).prog.trans hprog
  unfold stepScatter
  dsimp only
  rw [bind_ok hentry]
  dsimp only
  rw [bind_ok hdest, hops, hprog, bind_ok hread]
  dsimp only
  rw [bind_ok hwrite, hprog']
  rfl

end

/-! Steps of access words. -/

section
variable {w t u : State} {d e : Cmd} {bs : List Byte} {q : Fin 4}

/-- An entry of 256 bytes at the end of an input queue, and the nest's next address. -/
def emitted (t : State) (q : Fin 4) (fmt : BitVec 4) (bs : List Byte) : State :=
  (t.modMe fun x => { x with qin := x.qin.set q (x.qin[q] ++ [{ tag := fmt, data := BitVec.ofNat 2048 (natOfBytes bs) }]) }).modMyStream
    fun y => { y with nest := y.nest.next }
/-- An output queue without its first entry, and the nest's next address. -/
def drained (t : State) (q : Fin 4) (es : List QEntry) : State :=
  (t.modMe fun x => { x with qout := x.qout.set q es }).modMyStream fun y => { y with nest := y.nest.next }

theorem modNest_run (f : Nest → Nest) (s : State) : modNest f s = .ok () (s.modMyStream fun y => { y with nest := f y.nest }) := rfl

theorem stepAqEmit_run (hroom : (w.me.qin[q]).length < 8)
    (hread : readSrc d w.myStream.nest.addr.toNat 256 w = .ok (bs, e) t) :
    stepAqEmit q d w = .ok (if (nth d.ops 0).toNat ≤ d.prog + 1 then none else some { e with prog := d.prog + 1 })
      (emitted t q w.myStream.nest.fmt bs) := by
  obtain ⟨hops, hprog, -⟩ := readSrc_kept hread
  unfold stepAqEmit
  rw [bind_ok (get_run w), bind_ok (await_true (decide_eq_true hroom) w)]
  dsimp only
  rw [bind_ok hread]
  dsimp only
  rw [bind_ok (upd_run _ t), bind_ok (modNest_run _ _), hops, hprog]
  rfl
theorem stepAqDrain_run {x : QEntry} {xs : List QEntry} {y : Dest} {g : Option Nat} (hq : w.me.qout[q] = x :: xs)
    (hidle : w.me.wq.any (fun y => y.vec && y.eff == .nothing) = false)
    (hdest : iterDest w.myStream.nest.addr.toNat 256 w = .ok y t)
    (hwrite : writeRange true none w.myStream.nest.addr.toNat (bytesOfNat 256 x.data.toNat) t = .ok g u) :
    stepAqDrain q d w = .ok (if (nth d.ops 0).toNat ≤ d.prog + 1 then none else some { d with prog := d.prog + 1 }) (drained u q xs) := by
  unfold stepAqDrain
  rw [bind_ok (get_run w), hq]
  dsimp only
  rw [bind_ok (await_true (by rw [hidle]; rfl) w), bind_ok hdest, bind_ok hwrite, bind_ok (upd_run _ u), bind_ok (modNest_run _ _)]
  rfl

/-- What an entry of a queue and the nest's next address leave of a context and of the rest. -/
theorem queued_ctx {c k : Nat} {f : Ctx → Ctx} (hcur : t.cur = c) (hk : t.curK = k) (hstreams : ∀ x, (f x).streams = x.streams) :
    let u := (t.modMe f).modMyStream fun y => { y with nest := y.nest.next }
    (u.ctx c).qin = (f (t.ctx c)).qin ∧ (u.ctx c).qout = (f (t.ctx c)).qout ∧
      (k < 6 → ((u.ctx c).stream k).nest = ((t.ctx c).stream k).nest.next) := by
  subst hcur hk
  have hme : (t.modMe f).me = f t.me := modMe_me t f
  refine ⟨?_, ?_, fun h => ?_⟩
  · exact (congrArg Ctx.qin (modMe_me (t.modMe f) _)).trans (congrArg Ctx.qin hme :)
  · exact (congrArg Ctx.qout (modMe_me (t.modMe f) _)).trans (congrArg Ctx.qout hme :)
  · refine (congrArg Stream.nest (myStream_modMyStream (t.modMe f) _ h)).trans (congrArg (fun y : Stream => y.nest.next) ?_)
    show (t.modMe f).me.stream t.curK = t.me.stream t.curK
    rw [hme, Ctx.stream, hstreams]
    rfl

end

theorem copySteps : Claims.CopySteps := by
  intro s c k n d hd hc w core op ends next
  have hends : ∀ {P : Prop} [Decidable P] {m : M (Option Cmd)} {t : State} {e : Cmd}, d.word ≠ .repair → stepCmd d = linked m →
      m w = .ok (if P then none else some e) t → ends P t e := fun hw hstep hm hl => step_ends hd hc hw hstep hl hm
  refine ⟨?copy, ?fill, ?getr, ?putr, ?gather, ?scatter, ?emit, ?drain⟩
  case copy =>
    intro hw src dst m bs e t g u hread hwrite
    refine hends (m := stepCopy d) ?_ ?_ (stepCopy_run (copyOps_eq hw) rfl hread hwrite)
    · rcases hw with h | h | h <;> simp [h]
    · unfold stepCmd
      rcases hw with h | h | h <;> rw [h]
  case fill =>
    intro hw m g u hwrite
    refine hends (m := stepFill d) (by simp [hw]) ?_ (stepFill_run rfl hwrite)
    unfold stepCmd
    rw [hw]
  case getr =>
    intro hw ring hring hturn hroom size bs e t hread
    refine hends (m := stepGetr d) (by simp [hw]) ?_ (stepGetr_run hring hturn hroom rfl hread)
    unfold stepCmd
    rw [hw]
  case putr =>
    intro hw ring hring hturn hsome tile g t hwrite
    refine hends (m := stepPutr d) (by simp [hw]) ?_ (stepPutr_run hring hturn hsome hwrite)
    unfold stepCmd
    rw [hw]
  case gather =>
    intro hw a e t bs f u g v hentry hread hwrite
    refine hends (m := stepGather d) (by simp [hw]) ?_ (stepGather_run hentry hread hwrite)
    unfold stepCmd
    rw [hw]
  case scatter =>
    intro hw a e t x u bs f v g r hentry hdest hread hwrite
    refine hends (m := stepScatter d) (by simp [hw]) ?_ (stepScatter_run hentry hdest hread hwrite)
    unfold stepCmd
    rw [hw]
  case emit =>
    intro q hw hroom nest bs e t hread hl hctx hcur hk
    obtain ⟨hin, -, hnest⟩ := queued_ctx hcur hk (f := fun x =>
      { x with qin := x.qin.set q (x.qin[q] ++ [{ tag := nest.fmt, data := BitVec.ofNat 2048 (natOfBytes bs) }]) }) fun _ => rfl
    have hstep : stepCmd d = linked (stepAqEmit q d) := by
      unfold stepCmd
      rw [hw]
    obtain ⟨hlast, hgoes⟩ := hends (by simp [hw]) hstep (stepAqEmit_run hroom hread) hl
    refine ⟨emitted t q nest.fmt bs, hlast, fun h => hgoes (Nat.not_le.2 h), ?_, fun h => (hnest h).trans (by rw [hctx]; rfl), rfl, rfl⟩
    rw [hctx] at hin
    exact (congrArg (·[q]) hin).trans (Vector.getElem_set_self _)
  case drain =>
    intro q x xs hw hq hidle nest y t g v hdest hwrite hl hctx hcur hk
    obtain ⟨-, hout, hnest⟩ := queued_ctx hcur hk (f := fun x => { x with qout := x.qout.set q xs }) fun _ => rfl
    have hstep : stepCmd d = linked (stepAqDrain q d) := by
      unfold stepCmd
      rw [hw]
    obtain ⟨hlast, hgoes⟩ := hends (by simp [hw]) hstep (stepAqDrain_run hq hidle hdest hwrite) hl
    refine ⟨drained v q xs, hlast, fun h => hgoes (Nat.not_le.2 h), ?_, fun h => (hnest h).trans (by rw [hctx]; rfl), rfl, rfl⟩
    exact (congrArg (·[q]) hout).trans (Vector.getElem_set_self _)

/-- Settles O60: a range inside a page is one piece, whose bytes are the scratchpad's, the home's or the L2's, and every step is a read and a
write with the state between. -/
theorem copyCommits : Obligations.CopyCommits := ⟨ringCommits, copyAccesses, copySteps⟩

end Sys2Proof.Proofs
end
